-- ==== Sys2Proof/Word.lean ====
section
/-! DEFINITION. The word types of the part (spec/00_scope.md R2: little-endian, 32-bit lane words). -/

namespace Sys2Proof

/-- One byte of memory. -/
abbrev Byte := BitVec 8

/-- A 16-bit instruction halfword (R2, R225). -/
abbrev Half := BitVec 16

/-- A 32-bit lane word (R171). -/
abbrev Word := BitVec 32

/-- A register pair or 64-bit value (R171, R237). -/
abbrev DWord := BitVec 64

end Sys2Proof
end

