-- ==== Sys2Proof/Config.lean ====
section
/-! DEFINITION. The values the spec leaves open, each an opaque constant: nothing in Lean can evaluate one, so a
statement about it holds whatever it is. -/

namespace Sys2Proof.Config

/-- Compute-die clocks that the n-th step takes (R214 and R108 give unloaded figures only; log entry 3). -/
opaque clocksOfStep : Nat → Nat

/-- Which of the moves that are open the n-th step makes; the machine reduces the answer to their number (log entry 1). -/
opaque pick : Nat → Nat

/-- Which of the results inside its bound an approximate function gives (R93, R216): `fn` is the function, `x` the
input bits. The machine reduces the answer to the choices the bound allows (log entry 8). -/
opaque ulpPick : Nat → Word → Nat

/-- Free values, one for each reading of the counter `State.free` (log entry 2). -/
opaque freeBits : Nat → BitVec 64

/-- One step of the steal LFSR, whose width and taps R373 does not give (log entry 6). -/
opaque stealStep : Word → Word

/-- The seed of the identity key, derived from the fused device secret and the measurement in a way that R436 does not give
(log entry 7). -/
opaque identitySeed : (meas : BitVec 512) → BitVec 256

/-- The firmware image in the carrier's flash at manufacture (R435; log entry 7). -/
opaque factoryImage : List Byte

/-- The die firmware, verified after that image in the same way (R435; log entry 7). -/
opaque dieFirmware : List Byte

/-- The fused key digest (R435; log entry 7). -/
opaque fusedKeyDigest : BitVec 512

/-- The fused minimum security version (R435; log entry 7). -/
opaque fusedMinSvn : Nat

/-- The 8-byte serial (R436; log entry 7). -/
opaque serial : BitVec 64

/-- Bits [31:16] of DETAIL of a fault record: the requester's number, whose coding R423 leaves open (log entry 9). -/
opaque requesterCode : Nat → BitVec 16

end Sys2Proof.Config
end

