-- ==== Sys2Proof/Syntax.lean ====
section
/-! DEFINITION. The instructions of the Farril set and the machine steps of the part: one constructor for each row of
the opcode table (spec/11_formats_and_assembly.md R229-R240; spec/95_what_each_step_holds.md). -/

namespace Sys2Proof

/-- A source specifier (R236). The C field's "none" and the reserved value 126 are not specifiers. -/
inductive Opnd where
  /-- 0-95: a frame register -/
  | v (i : Fin 96)
  /-- 96-111: a SOF register -/
  | o (i : Fin 16)
  /-- 112-115: an LRF entry -/
  | l (i : Fin 4)
  /-- 116-118: a latch entry -/
  | k (i : Fin 3)
  /-- 119: zero -/
  | zero
  /-- 120: the lane's gang lane order -/
  | lane
  /-- 121: slice index within the thread group -/
  | slice
  /-- 122: thread-group index within the workgroup -/
  | group
  /-- 123: workgroup linear index in the grid -/
  | work
  /-- 124: core number -/
  | core
  /-- 125: compute-die clock counter -/
  | clock
  /-- 127: the literal word -/
  | lit (w : Word)
  deriving DecidableEq, Repr

/-- A destination specifier (R236): a frame register, a SOF register, or 119, which discards the result. -/
inductive Dst where
  | v (i : Fin 96)
  | o (i : Fin 16)
  | zero
  deriving DecidableEq, Repr

/-- ORDER of a prefix (R232). -/
inductive Order where
  | rlx | acq | rel | ar
  deriving DecidableEq, Repr

/-- Scopes (R120). -/
inductive Scope where
  | slice | grp | core | quad | die | pkg | pod
  deriving DecidableEq, Repr

/-- USE of a prefix (R123, R139). -/
inductive Use where
  | plain | unp | comm | nonord | quant | spec
  deriving DecidableEq, Repr

/-- A prefix (R232). `c = none` is the C field's 0; `rm` is RM, the saturate bit or CP, as the base reads it. -/
structure Pfx where
  use : Use := .plain
  order : Order := .rlx
  scope : Scope := .slice
  c : Option Opnd := none
  rm : BitVec 3 := 0
  z : Bool := false
  mask : BitVec 3 := 0
  deriving DecidableEq, Repr

/-- The register B of ACCLD, ACCST and ACCZ, under a prefix that can only be empty (R234, R300). -/
structure SetOpnd where
  pfx : Option Pfx := none
  b : Opnd
  deriving DecidableEq, Repr

/-- Integer type codes of FN (R239, R250). -/
inductive IType where
  | i32 | n32 | i16x2 | n16x2 | i64 | n64 | i8x4 | n8x4
  deriving DecidableEq, Repr

/-- Float type codes of FN (R239). -/
inductive FType where
  | f32 | bf16x2 | f16x2
  deriving DecidableEq, Repr

/-- Compare conditions (R231). -/
inductive Cond where
  | eq | ne | lt | le | gt | ge | ueq | ult | ule | ugt | uge | uno | ord
  deriving DecidableEq, Repr

/-- Format codes (R194). -/
inductive Fmt where
  | f32 | bf16 | f16 | e4m3 | e5m2 | e2m1 | e8m0 | i32 | n32 | i16 | n16 | i8 | n8 | pred | coord | any
  deriving DecidableEq, Repr

/-- SHFL modes (R273). -/
inductive ShflMode where
  | idx | up | down | xor
  deriving DecidableEq, Repr

/-- VOTE modes (R274). -/
inductive VoteMode where
  | any | all | ballot | count
  deriving DecidableEq, Repr

/-- GRED combinations (R275). -/
inductive GredOp where
  | addI32 | minI32 | maxI32 | addF32 | minF32 | maxF32
  deriving DecidableEq, Repr

/-- SCAN combinations (R276). -/
inductive ScanOp where
  | addI32Ex | addI32In | addF32In
  deriving DecidableEq, Repr

/-- LD sizes (R282). -/
inductive LdSize where
  | n8 | i8 | n16 | i16 | w32 | w64 | w128
  deriving DecidableEq, Repr

/-- ST sizes (R283). -/
inductive StSize where
  | b8 | b16 | w32 | w64 | w128
  deriving DecidableEq, Repr

/-- Forms of ATOM (R287). -/
inductive AtomOp where
  | addI32 | addF32 | addBf16x2 | minI32 | maxI32 | minN32 | maxN32 | exch
  deriving DecidableEq, Repr

/-- Forms of ATOMB (R287). -/
inductive AtombOp where
  | and | or | xor | cas | addI64 | minF32 | maxF32
  deriving DecidableEq, Repr

/-- Copy directions (R157, R295). -/
inductive CopyDir where
  | g2t | t2g | g2r | t2r | g2g | t2s
  deriving DecidableEq, Repr

/-- Requests of the Ethernet ports that are NAKed (R424). -/
inductive BadRequest where
  | send | recv | unreliable | immediate
  deriving DecidableEq, Repr

/-- The instructions of the set (those with an encoding, or that need a prefix) and the steps of the part's engines,
hosts and peers (rows without an encoding, whose operands name the unit that acts and the data from outside). -/
inductive Instr where
  /-- IADD (R252): Integer add per element of the FN type, with optional saturation. -/
  | iadd (p : Option Pfx) (t : IType) (d : Dst) (a b : Opnd) (h : Bool)
  /-- ISUB (R252): Integer subtract per element of the FN type, with optional saturation. -/
  | isub (p : Option Pfx) (t : IType) (d : Dst) (a b : Opnd) (h : Bool)
  /-- IMUL (R252): Low half of each integer product. -/
  | imul (p : Option Pfx) (t : IType) (d : Dst) (a b : Opnd) (h : Bool)
  /-- IMULH (R252): High half of each 2w-bit integer product. -/
  | imulh (p : Option Pfx) (t : IType) (d : Dst) (a b : Opnd) (h : Bool)
  /-- IMAD (R252): Integer multiply-add with addend from C or the old d. -/
  | imad (p : Option Pfx) (t : IType) (d : Dst) (a b : Opnd) (h : Bool)
  /-- IMIN (R252): Signed or unsigned integer minimum per element. -/
  | imin (p : Option Pfx) (t : IType) (d : Dst) (a b : Opnd) (h : Bool)
  /-- IMAX (R252): Signed or unsigned integer maximum per element. -/
  | imax (p : Option Pfx) (t : IType) (d : Dst) (a b : Opnd) (h : Bool)
  /-- ICMP (R255): Integer compare writing mask register bits. -/
  | icmp (p : Option Pfx) (c : Cond) (t : IType) (k : BitVec 3) (a b : Opnd) (h : Bool)
  /-- AND (R256): Bitwise AND of two words. -/
  | and (p : Option Pfx) (d : Dst) (a b : Opnd) (h : Bool)
  /-- OR (R256): Bitwise OR of two words. -/
  | or (p : Option Pfx) (d : Dst) (a b : Opnd) (h : Bool)
  /-- XOR (R256): Bitwise XOR of two words. -/
  | xor (p : Option Pfx) (d : Dst) (a b : Opnd) (h : Bool)
  /-- ANDN (R256): a AND NOT b. -/
  | andn (p : Option Pfx) (d : Dst) (a b : Opnd) (h : Bool)
  /-- ORN (R256): a OR NOT b. -/
  | orn (p : Option Pfx) (d : Dst) (a b : Opnd) (h : Bool)
  /-- XNOR (R256): NOT (a XOR b). -/
  | xnor (p : Option Pfx) (d : Dst) (a b : Opnd) (h : Bool)
  /-- NOT (R256): Bitwise complement of a. -/
  | not (p : Option Pfx) (d : Dst) (a : Opnd) (h : Bool)
  /-- SHL (R257): Shift left by b[4:0]. -/
  | shl (p : Option Pfx) (d : Dst) (a b : Opnd) (h : Bool)
  /-- SHR (R257): Logical shift right by b[4:0]. -/
  | shr (p : Option Pfx) (d : Dst) (a b : Opnd) (h : Bool)
  /-- SHA (R257): Arithmetic shift right by b[4:0]. -/
  | sha (p : Option Pfx) (d : Dst) (a b : Opnd) (h : Bool)
  /-- ROTL (R257): Rotate left by b[4:0]. -/
  | rotl (p : Option Pfx) (d : Dst) (a b : Opnd) (h : Bool)
  /-- ROTR (R257): Rotate right by b[4:0]. -/
  | rotr (p : Option Pfx) (d : Dst) (a b : Opnd) (h : Bool)
  /-- POPC (R258): Count of set bits. -/
  | popc (p : Option Pfx) (d : Dst) (a : Opnd) (h : Bool)
  /-- CLZ (R258): Count of leading zeros. -/
  | clz (p : Option Pfx) (d : Dst) (a : Opnd) (h : Bool)
  /-- CTZ (R258): Count of trailing zeros. -/
  | ctz (p : Option Pfx) (d : Dst) (a : Opnd) (h : Bool)
  /-- BREV (R258): Bit reversal of a word. -/
  | brev (p : Option Pfx) (d : Dst) (a : Opnd) (h : Bool)
  /-- BFE (R258): Bit-field extract with length from C. -/
  | bfe (p : Option Pfx) (d : Dst) (a b : Opnd) (h : Bool)
  /-- BFI (R258): Bit-field insert into the old d. -/
  | bfi (p : Option Pfx) (d : Dst) (a b : Opnd) (h : Bool)
  /-- PERM (R258): Byte permute from a and C under selector b. -/
  | perm (p : Option Pfx) (d : Dst) (a b : Opnd) (h : Bool)
  /-- SEL (R259): Per-lane select of a or b under a mask register. -/
  | sel (p : Option Pfx) (k : BitVec 3) (d : Dst) (a b : Opnd) (h : Bool)
  /-- LEA (R260): 64-bit address formation from a pair and a shifted signed index. -/
  | lea (p : Option Pfx) (s : BitVec 3) (d : Dst) (a b : Opnd) (h : Bool)
  /-- DIV (R253): 32-bit integer division truncating toward zero, no trap. -/
  | div (p : Option Pfx) (uns : Bool) (d : Dst) (a b : Opnd) (h : Bool)
  /-- REM (R253): 32-bit integer remainder with the dividend's sign, no trap. -/
  | rem (p : Option Pfx) (uns : Bool) (d : Dst) (a b : Opnd) (h : Bool)
  /-- IABS (R254): Integer absolute value, optionally saturated. -/
  | iabs (p : Option Pfx) (d : Dst) (a : Opnd) (h : Bool)
  /-- INEG (R254): Integer negation, optionally saturated. -/
  | ineg (p : Option Pfx) (d : Dst) (a : Opnd) (h : Bool)
  /-- SEXT8 (R254): Sign-extend the low byte. -/
  | sext8 (p : Option Pfx) (d : Dst) (a : Opnd) (h : Bool)
  /-- SEXT16 (R254): Sign-extend the low halfword. -/
  | sext16 (p : Option Pfx) (d : Dst) (a : Opnd) (h : Bool)
  /-- ZEXT8 (R254): Zero-extend the low byte. -/
  | zext8 (p : Option Pfx) (d : Dst) (a : Opnd) (h : Bool)
  /-- ZEXT16 (R254): Zero-extend the low halfword. -/
  | zext16 (p : Option Pfx) (d : Dst) (a : Opnd) (h : Bool)
  /-- MOV (R254): Copy a register with its bits and shape. -/
  | mov (p : Option Pfx) (d : Dst) (a : Opnd) (h : Bool)
  /-- IADDI (R252): Integer add of a sign-extended 8-bit immediate. -/
  | iaddi (p : Option Pfx) (t : IType) (d : Dst) (a : Opnd) (i : BitVec 8)
  /-- ANDI (R256): AND with a zero-extended immediate. -/
  | andi (p : Option Pfx) (d : Dst) (a : Opnd) (i : BitVec 8)
  /-- ORI (R256): OR with a zero-extended immediate. -/
  | ori (p : Option Pfx) (d : Dst) (a : Opnd) (i : BitVec 8)
  /-- XORI (R256): XOR with a zero-extended immediate. -/
  | xori (p : Option Pfx) (d : Dst) (a : Opnd) (i : BitVec 8)
  /-- SHLI (R257): Shift left by an immediate count. -/
  | shli (p : Option Pfx) (d : Dst) (a : Opnd) (n : BitVec 5)
  /-- SHRI (R257): Logical shift right by an immediate count. -/
  | shri (p : Option Pfx) (d : Dst) (a : Opnd) (n : BitVec 5)
  /-- SHAI (R257): Arithmetic shift right by an immediate count. -/
  | shai (p : Option Pfx) (d : Dst) (a : Opnd) (n : BitVec 5)
  /-- ROTLI (R257): Rotate left by an immediate count. -/
  | rotli (p : Option Pfx) (d : Dst) (a : Opnd) (n : BitVec 5)
  /-- ROTRI (R257): Rotate right by an immediate count. -/
  | rotri (p : Option Pfx) (d : Dst) (a : Opnd) (n : BitVec 5)
  /-- ICMPI (R255): Integer compare with an immediate, writing mask bits. -/
  | icmpi (p : Option Pfx) (c : Cond) (t : IType) (k : BitVec 3) (a : Opnd) (i : BitVec 8)
  /-- FADD (R262): Float add with one rounding per element. -/
  | fadd (p : Option Pfx) (t : FType) (d : Dst) (a b : Opnd) (h : Bool)
  /-- FSUB (R262): Float subtract with one rounding per element. -/
  | fsub (p : Option Pfx) (t : FType) (d : Dst) (a b : Opnd) (h : Bool)
  /-- FMUL (R262): Float multiply with one rounding per element. -/
  | fmul (p : Option Pfx) (t : FType) (d : Dst) (a b : Opnd) (h : Bool)
  /-- FFMA (R262): Fused multiply-add with one rounding. -/
  | ffma (p : Option Pfx) (t : FType) (d : Dst) (a b : Opnd) (h : Bool)
  /-- FMIN (R263): Float minimum per element without rounding. -/
  | fmin (p : Option Pfx) (t : FType) (d : Dst) (a b : Opnd) (h : Bool)
  /-- FMAX (R263): Float maximum per element without rounding. -/
  | fmax (p : Option Pfx) (t : FType) (d : Dst) (a b : Opnd) (h : Bool)
  /-- FCMP (R264): Float compare writing mask bits. -/
  | fcmp (p : Option Pfx) (c : Cond) (t : FType) (k : BitVec 3) (a b : Opnd) (h : Bool)
  /-- FABS (R265): Clear the sign bit. -/
  | fabs (p : Option Pfx) (t : FType) (d : Dst) (a : Opnd) (h : Bool)
  /-- FNEG (R265): Flip the sign bit. -/
  | fneg (p : Option Pfx) (t : FType) (d : Dst) (a : Opnd) (h : Bool)
  /-- FRCP (R216): Reciprocal within 1 ulp. -/
  | frcp (p : Option Pfx) (t : FType) (d : Dst) (a : Opnd) (h : Bool)
  /-- FRSQ (R216): Reciprocal square root within 1 ulp. -/
  | frsq (p : Option Pfx) (t : FType) (d : Dst) (a : Opnd) (h : Bool)
  /-- FSQRT (R216): Correctly rounded square root. -/
  | fsqrt (p : Option Pfx) (t : FType) (d : Dst) (a : Opnd) (h : Bool)
  /-- FEXP2 (R216): Base-2 exponential within 1 ulp. -/
  | fexp2 (p : Option Pfx) (t : FType) (d : Dst) (a : Opnd) (h : Bool)
  /-- FLOG2 (R216): Base-2 logarithm within 1 ulp. -/
  | flog2 (p : Option Pfx) (t : FType) (d : Dst) (a : Opnd) (h : Bool)
  /-- FSIN (R216): Sine within the stated bound. -/
  | fsin (p : Option Pfx) (t : FType) (d : Dst) (a : Opnd) (h : Bool)
  /-- FCOS (R216): Cosine within the stated bound. -/
  | fcos (p : Option Pfx) (t : FType) (d : Dst) (a : Opnd) (h : Bool)
  /-- FTANH (R216): Hyperbolic tangent within 2 ulp. -/
  | ftanh (p : Option Pfx) (t : FType) (d : Dst) (a : Opnd) (h : Bool)
  /-- FSIGM (R216): Logistic sigmoid within 2 ulp. -/
  | fsigm (p : Option Pfx) (t : FType) (d : Dst) (a : Opnd) (h : Bool)
  /-- FFLOOR (R265): Largest integer not above a. -/
  | ffloor (p : Option Pfx) (t : FType) (d : Dst) (a : Opnd) (h : Bool)
  /-- FCEIL (R265): Smallest integer not below a. -/
  | fceil (p : Option Pfx) (t : FType) (d : Dst) (a : Opnd) (h : Bool)
  /-- FTRUNC (R265): a rounded toward zero to an integer. -/
  | ftrunc (p : Option Pfx) (t : FType) (d : Dst) (a : Opnd) (h : Bool)
  /-- FRINT (R265): a rounded to an integer under the mode in force. -/
  | frint (p : Option Pfx) (t : FType) (d : Dst) (a : Opnd) (h : Bool)
  /-- FDOT2 (R262): Two-element 16-bit dot product plus F32 addend, one rounding. -/
  | fdot2 (p : Option Pfx) (t : FType) (d : Dst) (a b : Opnd) (h : Bool)
  /-- CVTF (R266): Convert from a float or scale format at a packing position. -/
  | cvtf (p : Option Pfx) (src dst : Fmt) (pos : BitVec 3) (d : Dst) (a : Opnd) (h : Bool)
  /-- CVTI (R266): Convert from an integer format at a packing position. -/
  | cvti (p : Option Pfx) (src dst : Fmt) (pos : BitVec 3) (d : Dst) (a : Opnd) (h : Bool)
  /-- BSCALE (R268): Compute E2M1 block scale and spare bytes across the gang. -/
  | bscale (p : Option Pfx) (d : Dst) (a : Opnd) (h : Bool)
  /-- BPACK (R269): Encode lanes as E2M1 nibbles packed eight per word. -/
  | bpack (p : Option Pfx) (d : Dst) (a b : Opnd) (h : Bool)
  /-- BUNPK (R270): Decode each lane's E2M1 nibble to F32. -/
  | bunpk (p : Option Pfx) (d : Dst) (a b : Opnd) (h : Bool)
  /-- FMTSET (R271): Write the format register. -/
  | fmtset (a : Opnd) (h : Bool)
  /-- FMTGET (R271): Read the format register as a uniform value. -/
  | fmtget (d : Dst)
  /-- SHFL (R273): Exchange values among participating gang lanes. -/
  | shfl (p : Option Pfx) (o : ShflMode) (d : Dst) (a b : Opnd) (h : Bool)
  /-- VOTE (R274): Any, all, ballot or count vote over participants. -/
  | vote (p : Option Pfx) (o : VoteMode) (d : Dst) (a : Opnd) (h : Bool)
  /-- GRED (R275): Reduce a over participants to a uniform result. -/
  | gred (p : Option Pfx) (o : GredOp) (d : Dst) (a : Opnd) (h : Bool)
  /-- MSET (R278): Set mask bits from register nonzero tests. -/
  | mset (k : BitVec 3) (a : Opnd) (h : Bool)
  /-- MGET (R278): Read mask bits into a register. -/
  | mget (d : Dst) (j : BitVec 3)
  /-- MAND (R278): AND of two mask registers. -/
  | mand (k j l : BitVec 3)
  /-- MOR (R278): OR of two mask registers. -/
  | mor (k j l : BitVec 3)
  /-- MNOT (R278): Complement of a mask register. -/
  | mnot (k j : BitVec 3)
  /-- MXOR (R278): XOR of two mask registers. -/
  | mxor (k j l : BitVec 3)
  /-- SCAN (R276): Prefix sum over participants in gang lane order. -/
  | scan (p : Option Pfx) (o : ScanOp) (d : Dst) (a : Opnd) (h : Bool)
  /-- NOP (R235): The 16-bit halfword 0x0000, with no effect. -/
  | nop
  /-- MOV_SHORT (R235): 16-bit MOV of the B register into D. -/
  | movShort (h : Bool) (b d : Fin 32)
  /-- IADD_SHORT (R235): 16-bit IADD.i32 d := d + b. -/
  | iaddShort (h : Bool) (b d : Fin 32)
  /-- ISUB_SHORT (R235): 16-bit ISUB.i32. -/
  | isubShort (h : Bool) (b d : Fin 32)
  /-- IMUL_SHORT (R235): 16-bit IMUL.i32. -/
  | imulShort (h : Bool) (b d : Fin 32)
  /-- AND_SHORT (R235): 16-bit AND. -/
  | andShort (h : Bool) (b d : Fin 32)
  /-- OR_SHORT (R235): 16-bit OR. -/
  | orShort (h : Bool) (b d : Fin 32)
  /-- XOR_SHORT (R235): 16-bit XOR. -/
  | xorShort (h : Bool) (b d : Fin 32)
  /-- SHL_SHORT (R235): 16-bit SHL. -/
  | shlShort (h : Bool) (b d : Fin 32)
  /-- SHR_SHORT (R235): 16-bit SHR. -/
  | shrShort (h : Bool) (b d : Fin 32)
  /-- SHA_SHORT (R235): 16-bit SHA. -/
  | shaShort (h : Bool) (b d : Fin 32)
  /-- FADD_SHORT (R235): 16-bit FADD.f32 under the default mode. -/
  | faddShort (h : Bool) (b d : Fin 32)
  /-- FSUB_SHORT (R235): 16-bit FSUB.f32. -/
  | fsubShort (h : Bool) (b d : Fin 32)
  /-- FMUL_SHORT (R235): 16-bit FMUL.f32. -/
  | fmulShort (h : Bool) (b d : Fin 32)
  /-- FMAX_SHORT (R235): 16-bit FMAX.f32. -/
  | fmaxShort (h : Bool) (b d : Fin 32)
  /-- FMIN_SHORT (R235): 16-bit FMIN.f32. -/
  | fminShort (h : Bool) (b d : Fin 32)
  /-- IADDI5_SHORT (R235): 16-bit add of a signed 5-bit immediate. -/
  | iaddi5Short (h : Bool) (i : BitVec 5) (d : Fin 32)
  /-- BRA (R306): Unconditional branch. -/
  | bra (o : BitVec 14)
  /-- BANY (R306): Branch when some active lane's condition is nonzero. -/
  | bany (o : BitVec 14) (a : Opnd)
  /-- BALL (R306): Branch when every active lane's condition is nonzero. -/
  | ball (o : BitVec 14) (a : Opnd)
  /-- BNONE (R306): Branch when every active lane's condition is zero. -/
  | bnone (o : BitVec 14) (a : Opnd)
  /-- BLOOP (R306): Decrement a counter and branch per lane, possibly splitting. -/
  | bloop (o : BitVec 14) (a : Opnd)
  /-- BDIV (R308): Per-lane branch that may split the slice into paths. -/
  | bdiv (o : BitVec 14) (a : Opnd)
  /-- CALL (R185): Direct call allocating a frame of DEMAND granules. -/
  | call (o : BitVec 14) (args demand : BitVec 4)
  /-- CALL_INDIRECT (R185): Indirect call through a target pair. -/
  | callIndirect (a : Opnd) (args demand : BitVec 4)
  /-- RET (R314): Return to the caller, copying the ARGS window. -/
  | ret
  /-- UNWIND (R315): Pop n frames and deliver an unwind code in o14. -/
  | unwind (a : Opnd) (n : BitVec 8)
  /-- REGANG (R317): Wait with a tag for the thread group's slices to regang. -/
  | regang (tag : BitVec 8)
  /-- PART (R318): End the issuing gang. -/
  | part
  /-- YIELD (R318): Make the gang youngest and hold it for 8 clocks. -/
  | yield
  /-- EXIT (R319): End every lane of the running path. -/
  | exit
  /-- SLEEP (R320): Sleep the gang for up to n clocks. -/
  | sleep (a : Opnd)
  /-- MIGRATE (R322): Try to move the slice to the home of an address and report a code. -/
  | migrate (d : Dst) (a : Opnd) (h : Bool)
  /-- HOME (R323): Return a guest slice to its origin core. -/
  | home
  /-- MIGQ (R324): Report per lane the home and migration facts of an address. -/
  | migq (d : Dst) (a : Opnd) (h : Bool)
  /-- LD (R282): Load per lane from memory. -/
  | ld (p : Option Pfx) (s : LdSize) (d : Dst) (a : Opnd) (i : BitVec 8)
  /-- ST (R283): Store per lane to memory. -/
  | st (p : Option Pfx) (s : StSize) (d a : Opnd) (i : BitVec 8)
  /-- ATOM (R286): Read-modify-write atomic returning the old value. -/
  | atom (p : Option Pfx) (o : AtomOp) (d : Dst) (a b : Opnd) (h : Bool)
  /-- ATOMB (R286): Bitwise, cas, 64-bit add and float min/max atomics. -/
  | atomb (p : Option Pfx) (o : AtombOp) (d : Dst) (a b : Opnd) (h : Bool)
  /-- FENCE (R288): Release and/or acquire fence at a scope. -/
  | fence (o : Order) (s : Scope)
  /-- CFLUSH (R289): Write back the line holding each lane's address. -/
  | cflush (p : Option Pfx) (a : Opnd) (i : BitVec 8)
  /-- CINV (R289): Invalidate the line holding each lane's address. -/
  | cinv (p : Option Pfx) (a : Opnd) (i : BitVec 8)
  /-- PIN (R290): Pin a line in the quad cache and return a code. -/
  | pin (p : Option Pfx) (d : Dst) (a : Opnd) (i : BitVec 8)
  /-- UNPIN (R290): Release a pinned line. -/
  | unpin (p : Option Pfx) (d : Dst) (a : Opnd) (i : BitVec 8)
  /-- PREF (R291): Prefetch a line toward the slice. -/
  | pref (p : Option Pfx) (a : Opnd) (i : BitVec 8)
  /-- WAITW (R292): Poll a word until it changes or the limit passes. -/
  | waitw (p : Option Pfx) (d : Dst) (a : Opnd) (i : BitVec 8)
  /-- QMIN (R293): Minimum into a quad bound register. -/
  | qmin (p : Option Pfx) (d : Dst) (a b : Opnd) (h : Bool)
  /-- QMAX (R293): Maximum into a quad bound register. -/
  | qmax (p : Option Pfx) (d : Dst) (a b : Opnd) (h : Bool)
  /-- QGET (R293): Read a quad bound register. -/
  | qget (p : Option Pfx) (d : Dst) (b : Opnd)
  /-- QSET (R293): Write a quad bound register. -/
  | qset (p : Option Pfx) (a b : Opnd) (h : Bool)
  /-- SPAWN (R328): Queue or hold a task record and raise its join counter. -/
  | spawn (d : Dst) (a : Opnd) (h : Bool)
  /-- JOIN (R330): Wait for a join counter to reach zero, running local tasks meanwhile. -/
  | join (a : Opnd) (h : Bool)
  /-- TDONE (R331): Complete a task, signalling successors and decrementing JOIN. -/
  | tdone (d : Dst) (a : Opnd) (h : Bool)
  /-- TDONE_ABANDON (R333): End a task by orphaning its unsignalled successors. -/
  | tdoneAbandon (d : Dst) (a : Opnd) (h : Bool)
  /-- TNEXT_S (R329): Take or steal a slice task and enter it as a call. -/
  | tnextS (d : Dst)
  /-- TNEXT_G (R329): Take or steal a thread-group task for the whole group. -/
  | tnextG (d : Dst)
  /-- GLAUNCH (R340): Launch an invocation of an armed stack-array region. -/
  | glaunch (d : Dst) (a : Opnd) (h : Bool)
  /-- GPREP (R339): Claim a region and start loading an image into it. -/
  | gprep (d : Dst) (a b : Opnd) (h : Bool)
  /-- GBIND (R343): Bind or unbind a core stream queue to a peer. -/
  | gbind (d : Dst) (a b : Opnd) (h : Bool)
  /-- SQPUSH (R344): Push one token per taking lane into a stream queue. -/
  | sqpush (d : Dst) (a b : Opnd) (h : Bool)
  /-- SQPOP (R345): Pop tokens from a stream queue to lanes in order. -/
  | sqpop (d : Dst) (b : Opnd)
  /-- NMC (R346): Issue a near-memory command record. -/
  | nmc (a : Opnd) (h : Bool)
  /-- NFENCE (R347): Wait for every NMC of the slice and acquire their writes. -/
  | nfence
  /-- GCTL_STATUS (R341): Read a region's status word. -/
  | gctlStatus (d : Dst) (a : Opnd) (h : Bool)
  /-- GCTL_RELEASE (R341): Release a non-running region. -/
  | gctlRelease (d : Dst) (a : Opnd) (h : Bool)
  /-- GCTL_INVAL (R341): Remove configuration-cache entries for an image address. -/
  | gctlInval (d : Dst) (a : Opnd) (h : Bool)
  /-- COPY (R296): Issue a copy in a direction under an APR and token. -/
  | copy (p : Option Pfx) (f : CopyDir) (a b : Opnd) (h : Bool)
  /-- COPYMM (R297): Issue a copy chained to a matrix command. -/
  | copymm (c : Opnd) (f : CopyDir) (a b : Opnd) (h : Bool)
  /-- TDEF (R152): Define a tile with base and size. -/
  | tdef (a b : Opnd) (h : Bool)
  /-- TFREE (R294): Make a tile undefined once it is not filling or draining. -/
  | tfree (a : Opnd) (h : Bool)
  /-- TSTAT (R294): Read a tile-table entry word. -/
  | tstat (d : Dst) (a : Opnd) (h : Bool)
  /-- CSEAL (R162): Seal the open batch of a copy token. -/
  | cseal (d : Dst) (a : Opnd) (h : Bool)
  /-- CWAIT (R163): Wait for sealed batches of masked tokens and report status. -/
  | cwait (a : Opnd) (h : Bool)
  /-- CPOLL (R163): Report tokens with no sealed batch outstanding. -/
  | cpoll (d : Dst) (a : Opnd) (h : Bool)
  /-- MMA (R299): Matrix multiply-accumulate into an accumulator set. -/
  | mma (p : Option Pfx) (a b : Opnd) (h : Bool)
  /-- MMAZ (R299): Matrix multiply into a zeroed accumulator set. -/
  | mmaz (p : Option Pfx) (a b : Opnd) (h : Bool)
  /-- ACCLD (R300): Load an accumulator set from a tile. -/
  | accld (o : SetOpnd)
  /-- ACCST (R300): Store an accumulator set to a tile. -/
  | accst (o : SetOpnd)
  /-- ACCZ (R300): Zero an accumulator set and clear its poison. -/
  | accz (o : SetOpnd)
  /-- BAR (R302): Arrive at a hardware barrier at a scope. -/
  | bar (s : Scope)
  /-- MBAR_INIT (R168): Initialise a barrier object with an arrival count. -/
  | mbarInit (a b : Opnd) (h : Bool)
  /-- MBAR_ARRIVE (R168): Thread arrival at a barrier object. -/
  | mbarArrive (p : Option Pfx) (a b : Opnd) (h : Bool)
  /-- MBAR_WAIT (R169): Wait on a barrier object phase and report status. -/
  | mbarWait (p : Option Pfx) (k : BitVec 3) (a b : Opnd) (h : Bool)
  /-- MBAR_INVAL (R168): Invalidate a barrier object, releasing waiters. -/
  | mbarInval (a : Opnd) (h : Bool)
  /-- MBAR_TEST (R169): Read a barrier object's status once without waiting. -/
  | mbarTest (p : Option Pfx) (k : BitVec 3) (a b : Opnd) (h : Bool)
  /-- CSRR (R349): Read a CSR. -/
  | csrr (d : Dst) (b : Opnd)
  /-- CSRW (R349): Write a CSR at every unit that holds it. -/
  | csrw (a b : Opnd) (h : Bool)
  /-- TRAP (R352): Raise a user trap with a code. -/
  | trap (b : Opnd)
  /-- ERET (R353): Return from a trap handler to EPC. -/
  | eret
  /-- EVPOST (R354): Release and post a software event to the arbiter. -/
  | evpost (a b : Opnd) (h : Bool)
  /-- TLBINV (R355): Invalidate TLB and walk-cache entries part-wide. -/
  | tlbinv (a b : Opnd) (h : Bool)
  /-- BRK (R352): Breakpoint that halts the thread group. -/
  | brk (b : Opnd)
  /-- PAGE_WALK (R23): A walk completes and answers every miss it covers. -/
  | pageWalk (die : Nat)
  /-- FAULT_REPLAY (R26): Page-fault service replays parked accesses of a fault. -/
  | faultReplay (seq : Option Nat)
  /-- FAULT_DECLINE (R26): Page-fault service declines a fault, retiring parked accesses as faulted. -/
  | faultDecline (seq : Option Nat)
  /-- MSC_ACCESS (R31): An access is performed at the memory-side cache tag check. -/
  | mscAccess (stack : Nat)
  /-- REFRESH (R29): Refresh or refresh management takes a bank. -/
  | refresh (stack pch bank : Nat)
  /-- ACTIVATION_ALERT (R50): Stack activation alert triggers refresh management and a sequencer hold. -/
  | activationAlert (stack pch bank : Nat)
  /-- RFM_HOLD_END (R50): The NMC_RFM_HOLD interval expires and sequencers may use the bank. -/
  | rfmHoldEnd (stack pch bank : Nat)
  /-- NMC_ACCEPT (R42): A command enters the target's command queue. -/
  | nmcAccept (stack : Nat)
  /-- SEQUENCER_START (R43): A sequencer takes the oldest non-conflicting command. -/
  | sequencerStart (stack : Nat)
  /-- SEQUENCER_ELEMENT (R44): A sequencer performs one element of its command. -/
  | sequencerElement (cmd : Nat)
  /-- SEQUENCER_YIELD (R48): A sequencer yields a bank to an ordinary access. -/
  | sequencerYield (cmd : Nat)
  /-- YIELD_CAP (R49): After NMC_YIELD_CAP yields the sequencer takes a burst of 8. -/
  | yieldCap (cmd : Nat)
  /-- NMC_COMPLETE (R45): A command writes its completion record and arrives at MBAR. -/
  | nmcComplete (cmd : Nat)
  /-- IMAGE_LOAD (R71): An image load finishes its checks and arms or unarms the region. -/
  | imageLoad (stack first : Nat)
  /-- ROUTE_HOP (R61): A token moves one hop along a route under back-pressure. -/
  | routeHop (stack first route hop : Nat)
  /-- DAWN_ARRIVAL (R63): DAWN reaches a node, making it live and forwarded. -/
  | dawnArrival (stack first route : Nat)
  /-- DUSK_FORWARD (R89): A node forwards DUSK once it heads every input. -/
  | duskForward (stack first node : Nat)
  /-- PASS (R95): Element fires passing each token unchanged. -/
  | pass (stack first node : Nat)
  /-- FORK2 (R95): Element fires duplicating a token onto both outputs. -/
  | fork2 (stack first node : Nat)
  /-- ADD (R92): Element fires adding its joined operands. -/
  | add (stack first node : Nat)
  /-- SUB (R92): Element fires subtracting. -/
  | sub (stack first node : Nat)
  /-- MUL (R92): Element fires multiplying. -/
  | mul (stack first node : Nat)
  /-- FMA (R92): Element fires a fused multiply-add. -/
  | fma (stack first node : Nat)
  /-- MAX (R92): Element fires taking the larger operand. -/
  | max (stack first node : Nat)
  /-- MIN (R92): Element fires taking the smaller operand. -/
  | min (stack first node : Nat)
  /-- ABS (R92): Element fires taking the absolute value. -/
  | abs (stack first node : Nat)
  /-- NEG (R92): Element fires negating. -/
  | neg (stack first node : Nat)
  /-- SCALE (R92): Element fires multiplying by a power of two. -/
  | scale (stack first node : Nat)
  /-- EXP2 (R93): Element fires a base-2 exponential. -/
  | exp2 (stack first node : Nat)
  /-- RCP (R93): Element fires a reciprocal. -/
  | rcp (stack first node : Nat)
  /-- CMP (R94): Element fires a comparison emitting PRED. -/
  | cmp (stack first node : Nat)
  /-- STEER (R95): Element fires routing DATA by a predicate. -/
  | steer (stack first node : Nat)
  /-- MERGE (R95): Element fires merging two inputs, controlled or first-come. -/
  | merge (stack first node : Nat)
  /-- CARRY (R97): Element fires emitting exclusive and inclusive running values. -/
  | carry (stack first node : Nat)
  /-- FILTER (R95): Element fires passing or discarding DATA by a predicate. -/
  | filter (stack first node : Nat)
  /-- GATE (R95): Element fires releasing a segment under a control DATA. -/
  | gate (stack first node : Nat)
  /-- REDADD (R96): Reduction element accumulates a sum and emits on its fire marker. -/
  | redadd (stack first node : Nat)
  /-- REDMAX (R96): Reduction element keeps a maximum. -/
  | redmax (stack first node : Nat)
  /-- REDMIN (R96): Reduction element keeps a minimum. -/
  | redmin (stack first node : Nat)
  /-- COUNT (R96): Element counts DATA tokens. -/
  | count (stack first node : Nat)
  /-- RSTAT (R98): Element updates the row log-sum pair and emits STAT. -/
  | rstat (stack first node : Nat)
  /-- RBUF (R99): Row buffer holds a row and releases it with optional softmax. -/
  | rbuf (stack first node : Nat)
  /-- ISECT (R100): Element intersects or unites two coordinate streams. -/
  | isect (stack first node : Nat)
  /-- CVT (R101): Element converts DATA between formats. -/
  | cvt (stack first node : Nat)
  /-- LUT (R102): Element looks up a 256-entry table. -/
  | lut (stack first node : Nat)
  /-- SRC (R103): Source endpoint emits the next element, marker or EOI of its walk. -/
  | src (stack first node : Nat)
  /-- SNK (R104): Sink endpoint writes a DATA token to memory. -/
  | snk (stack first node : Nat)
  /-- SNKBAR (R104): Barrier sink writes a DATA token to memory. -/
  | snkbar (stack first node : Nat)
  /-- SNKBAR_ARRIVAL (R105): After sink writes are performed, SNKBAR arrives with the invocation status. -/
  | snkbarArrival (stack first : Nat)
  /-- BRIDGE (R106): Bridge passes one token each way between array and stream channel. -/
  | bridge (stack first node : Nat) (inbound : Bool)
  /-- CONNECTION_FORM (R79): Two channel ends naming each other form a connection or report disagreement. -/
  | connectionForm (x y : Word)
  /-- STREAM_TRANSFER (R79): A token crosses a stream connection with credit. -/
  | streamTransfer (x : Word)
  /-- LINK_LOSS (R79): An unrecoverable link aborts regions connected over it. -/
  | linkLoss (x y : Word)
  /-- HANG (R81): Hang interval expiry freezes the region. -/
  | hang (stack first : Nat)
  /-- DRAIN_COMPLETE (R75): Every sink has seen DUSK and the region is saved to EMPTY. -/
  | drainComplete (stack first : Nat)
  /-- REGION_RESTORE (R416): A saved region is placed back with its tokens and endpoints. -/
  | regionRestore (stack first : Nat)
  /-- COMBINE_FLUSH (R117): A combining entry forwards its updates on timeout, eviction or release. -/
  | combineFlush (id : Nat)
  /-- QUANT_APPLY (R140): A deferred quant update takes its place in coherence order. -/
  | quantApply (id : Nat)
  /-- COPY_ELEMENT (R161): The copy engine moves an element, parking on a fault. -/
  | copyElement (id : Nat)
  /-- COPY_COMPLETE (R160): A copy completes, discharging its barrier and updating tile and batch. -/
  | copyComplete (id : Nat)
  /-- MMA_COMPLETE (R219): A matrix operation's results stand in its set. -/
  | mmaComplete (core : Nat)
  /-- PACKET_ACCEPT (R358): The reader takes a launch packet and accepts or rejects it. -/
  | packetAccept (queue : Nat)
  /-- WORKGROUP_DISPATCH (R363): A workgroup is dispatched to a core that fits it. -/
  | workgroupDispatch (die : Nat)
  /-- CHUNK_STEAL (R362): A dry distributor steals unstarted chunks from another die. -/
  | chunkSteal (die : Nat)
  /-- LAUNCH_COMPLETE (R359): A launch completes, incrementing DONE and arriving at DONE_MBAR. -/
  | launchComplete (launch : Nat)
  /-- TIME_SLICE (R368): PREEMPT_QUANTUM expiry pre-empts lower-priority workgroups. -/
  | timeSlice (die : Nat)
  /-- WORKGROUP_SAVE (R404): A pre-empted workgroup's state is written and resources freed. -/
  | workgroupSave (wg : Nat)
  /-- WORKGROUP_RESUME (R412): A pre-empted workgroup is restored on its core. -/
  | workgroupResume (wg : Nat)
  /-- BAR_RELEASE (R370): Every member has arrived and the barrier releases them. -/
  | barRelease (uid : Nat)
  /-- REGANG_RELEASE (R317): All live slices arrive or REGANG_WINDOW expires and gangs form. -/
  | regangRelease (group : Nat) (tag : Nat)
  /-- PATH_ROTATION (R309): DIV_ROTATE backward branches switch to the other path. -/
  | pathRotation (uid : Nat)
  /-- WATCHDOG (R397): A wait of 2^32 clocks raises watchdog. -/
  | watchdog (uid : Nat)
  /-- SLEEP_END (R320): A sleeping gang's interval ends. -/
  | sleepEnd (uid : Nat)
  /-- WAITW_POLL (R292): A waiting WAITW rereads its words and ends on a change. -/
  | waitwPoll (uid : Nat)
  /-- WAITW_TIMEOUT (R292): WAITW_LIMIT clocks pass and WAITW completes. -/
  | waitwTimeout (uid : Nat)
  /-- JOIN_RECHECK (R330): A waiting JOIN rereads its counter or takes a new local task. -/
  | joinRecheck (uid : Nat)
  /-- MIDNIGHT_TRIGGER (R380): FRAME_WAIT expiry or all slices blocked starts frame spilling. -/
  | midnightTrigger (core : Nat)
  /-- MIDNIGHT_SPILL (R381): Midnight writes one victim and tests for a free run. -/
  | midnightSpill (core : Nat)
  /-- FRAME_CLAIM (R185): A frame-blocked slice claims a free run and proceeds. -/
  | frameClaim (uid : Nat)
  /-- SLICE_RELOAD (R383): A slice spilled whole is reloaded and resumes parted. -/
  | sliceReload (uid : Nat)
  /-- MIGRATION_REQUEST (R386): The destination decides admission of a migration request. -/
  | migrationRequest (uid : Nat)
  /-- MIGRATION_GRANT (R385): The origin receives a grant or refusal for a migration. -/
  | migrationGrant (uid : Nat)
  /-- CONTINUATION_SEND (R385): Once earlier accesses are performed at pkg the continuation is sent. -/
  | continuationSend (uid : Nat)
  /-- CONTINUATION_ARRIVAL (R389): A guest arrives and is given a frame at its host. -/
  | continuationArrival (uid : Nat)
  /-- RETURN_ARRIVAL (R391): A returning slice arrives at its origin. -/
  | returnArrival (uid : Nat)
  /-- EVENT_SEQUENCE (R420): The arbiter numbers an event and writes it to a ring. -/
  | eventSequence (source : Nat)
  /-- RDMA_WRITE (R425): A RoCEv2 write through a window. -/
  | rdmaWrite (key : Word) (off : DWord) (data : List Byte)
  /-- RDMA_READ (R425): A RoCEv2 read through a window. -/
  | rdmaRead (key : Word) (off : DWord) (len : Nat)
  /-- ATOMIC_FETCH_ADD (R425): A RoCEv2 8-byte fetch-add at the home. -/
  | atomicFetchAdd (key : Word) (off : DWord) (add : DWord)
  /-- ATOMIC_COMPARE_SWAP (R425): A RoCEv2 8-byte compare-swap at the home. -/
  | atomicCompareSwap (key : Word) (off : DWord) (cmp swap : DWord)
  /-- INVALID_REQUEST_NAK (R424): SEND, RECV and unsupported transports are NAKed. -/
  | invalidRequestNak (op : BadRequest)
  /-- NORZEN_STREAM (R428): A Norzen stream frame delivers tokens and credits. -/
  | norzenStream (frame : List Byte)
  /-- NORZEN_MEMORY_REQUEST (R427): A peer's memory request is performed at its home. -/
  | norzenMemoryRequest (frame : List Byte)
  /-- NORZEN_MEMORY_REPLY (R427): A remote access reply completes it. -/
  | norzenMemoryReply (frame : List Byte)
  /-- NORZEN_POD_BARRIER (R428): A pod barrier frame is received. -/
  | norzenPodBarrier (frame : List Byte)
  /-- NORZEN_ACK (R429): An ack-only frame acknowledges sent frames. -/
  | norzenAck (frame : List Byte)
  /-- FRAME_RESEND (R429): An unacknowledged frame is resent after 16 us. -/
  | frameResend (part : Nat)
  /-- PAIR_LOST (R429): 32 resends without progress lose the part pair. -/
  | pairLost (part : Nat)
  /-- GROUP_RESUME (R401): Mailbox command resuming a halted thread group. -/
  | groupResume (seq : Option Nat)
  /-- TERMINATE (R401): Mailbox command terminating a launch. -/
  | terminate (seq : Option Nat)
  /-- PREEMPT (R431): Mailbox command pre-empting a workgroup in host-assisted mode. -/
  | preempt
  /-- SPILL_GROW (R431): Mailbox command enlarging a context's spill area. -/
  | spillGrow
  /-- REGION_END (R431): Mailbox command releasing or restoring a hung region. -/
  | regionEnd
  /-- ATTEST (R436): Mailbox command writing a signed attestation. -/
  | attest
  /-- FLASH_IMAGE (R435): Mailbox command checking and writing a firmware image to flash. -/
  | flashImage
  /-- CTX_SETUP (R433): Mailbox command setting up a context entry. -/
  | ctxSetup
  /-- CTX_TEARDOWN (R433): Mailbox command tearing down a context. -/
  | ctxTeardown
  /-- DUTY_SET (R432): Mailbox command copying DUTY_REQ into DUTYMODE. -/
  | dutySet
  /-- REGION_SAVE (R414): Mailbox command draining and saving or restoring a region. -/
  | regionSave
  /-- RESET (R437): Board reset sets reset values and runs boot. -/
  | reset
  /-- POWER_THROTTLE (R437): Excess power or temperature lowers the compute-die clock. -/
  | powerThrottle
  /-- THROTTLE_RELEASE (R437): The excess ends and the clock is raised again. -/
  | throttleRelease
  /-- COUNTER_REPORT (R430): Firmware writes corrected-error counters once a second. -/
  | counterReport
  /-- DIE_CACHE_ACCESS (R110): A write-through, miss or atomic request arrives at its home die-cache slice, is performed there in arrival order and is acknowledged. -/
  | dieCacheAccess (die : Nat)
  /-- BANK_ACCESS (R29): The base-die controller serves a queued ordinary request at a bank, by row-hit priority and within 256 base-die clocks of its arrival. -/
  | bankAccess (stack pch bank : Nat)
  /-- CONGESTION_NOTIFICATION (R424): A RoCEv2 congestion notification packet is received by the part. -/
  | congestionNotification
  /-- NORZEN_FRAME_DROP (R428): A Norzen frame of KIND 5 to 255 arrives and is dropped. -/
  | norzenFrameDrop (frame : List Byte)
  deriving DecidableEq, Repr

end Sys2Proof
end

