-- ==== Sys2Proof/Machine/State.lean ====
section
/-! DEFINITION. The state of the part as plain data, its reset value, and the names of its stops. Each structure cites
the rule of spec/ that names the state. -/

namespace Sys2Proof.Machine

/-! ### Memory -/

/-- Bytes by address, addresses strictly rising, no byte equal to 0 listed: an unlisted byte reads 0 (log entry 4). -/
abbrev Memory := List Host.Cell

/-- The canonical form: addresses above `lo` and strictly rising, no zero byte listed. -/
def Memory.wfFrom : Nat → Memory → Bool
  | _, [] => true
  | lo, (a, b) :: m => decide (lo ≤ a) && b != 0 && Memory.wfFrom (a + 1) m

def Memory.wf (m : Memory) : Bool := Memory.wfFrom 0 m

/-! ### Registers (spec/08_registers_and_frames.md) -/

/-- A 32-bit lane word with its poison bit (R192). -/
structure LaneWord where
  val : Word := 0
  poison : Bool := false
  deriving DecidableEq, Repr

/-- One value for each of a slice's four lanes. -/
structure L4 (α : Type) where
  a : α
  b : α
  c : α
  d : α
  deriving DecidableEq, Repr

/-- A register with its shape tag (R175). -/
inductive Reg where
  | uniform (u : LaneWord)
  | affine (base step : LaneWord)
  | general (w : L4 LaneWord)
  deriving DecidableEq, Repr

/-- A frame: its header (R187) and, while it holds granules, its registers. -/
structure Frame where
  /-- BASE, the first granule in the column -/
  base : Nat
  demand : Nat
  args : Nat := 0
  retPc : DWord := 0
  outer : Bool := false
  migrated : Bool := false
  /-- SLOT, while SPILLED -/
  slot : Option Nat := none
  /-- v0 to v(8*demand-1) while resident -/
  regs : List Reg
  deriving DecidableEq, Repr

/-- A reconvergence entry (R307, R375). -/
structure Recon where
  rpc : DWord
  all : BitVec 4
  otherPc : DWord
  otherMask : BitVec 4
  dFmt : Word
  oFmt : Word
  fdepth : Nat
  deriving DecidableEq, Repr

/-- TSTATE (R399). -/
structure TState where
  m0 : BitVec 4
  fmt : Word
  fdepth : Nat
  deriving DecidableEq, Repr

/-! ### Addresses (spec/01_addresses_and_homes.md) -/

/-- The home of an address (R19). -/
inductive Home where
  | stack (n : Nat)
  | core (n : Nat)
  | part (n : Nat)
  deriving DecidableEq, Repr

/-- Access kinds of a fault record (R465). -/
inductive AccessKind where
  | load | store | atomic | fetch | record | copyRead | copyWrite | nmcRead | nmcWrite | arrayRead | arrayWrite
  | spill | window | remote
  deriving DecidableEq, Repr

/-- Where a TLB stands (R21). -/
inductive TlbUnit where
  | core (n : Nat)
  | die (n : Nat)
  | base (n : Nat)
  deriving DecidableEq, Repr

/-- A TLB entry: the page, its size (log2 bytes) and the leaf entry it was filled from (R21, R15). -/
structure TlbEntry where
  unit : TlbUnit
  ctx : Nat
  /-- VA of the page's first byte -/
  page : Nat
  log2 : Nat
  pte : DWord
  deriving DecidableEq, Repr

/-- A walk-cache entry: a pointer entry read at a level (R21, R23). -/
structure WalkEntry where
  die : Nat
  ctx : Nat
  /-- 5 root directory, then 4, 3 and 2 -/
  level : Nat
  /-- VA above the entry's reach -/
  tag : Nat
  pte : DWord
  deriving DecidableEq, Repr

/-- Who waits for a translation, and who parks on a fault. -/
inductive Requester where
  | slice (uid : Nat)
  /-- a parked access that let its slice go on -/
  | parked (uid id : Nat)
  /-- Midnight of a core, or a save of a workgroup -/
  | midnight (core : Nat)
  | save (wg : Nat)
  | copy (id : Nat)
  | cmd (id : Nat)
  | region (stack first node : Nat)
  /-- the freeing of a spill slot -/
  | free (id : Nat)
  /-- an arrival of an engine, or of a launch's end, at a barrier object (R167, R359) -/
  | arrival (id : Nat)
  /-- the read of a code descriptor or of a live table, which raises nothing (R246) -/
  | quiet
  | core (n : Nat)
  | host
  deriving DecidableEq, Repr

/-- One access that needs a translation. -/
structure Ask where
  who : Requester
  unit : TlbUnit
  ctx : Nat
  va : DWord
  kind : AccessKind
  /-- W is needed -/
  wr : Bool := false
  /-- a fault of it makes no record: the requester learns of it at once -/
  quiet : Bool := false
  /-- it replays after service, alone (R26): no request merges with it -/
  alone : Bool := false
  deriving DecidableEq, Repr

/-- A miss-table entry of a die (R22): the 4 KiB page and the requests merged with it, oldest first. -/
structure Miss where
  die : Nat
  ctx : Nat
  page : Nat
  asks : List Ask
  deriving DecidableEq, Repr

/-- A fault record (R25, R26, R423): everything parked on it, and the number of its ring record once the arbiter has
written that. -/
structure FaultRec where
  id : Nat
  ctx : Nat
  va : DWord
  kind : AccessKind
  subcode : Nat
  level : Nat
  /-- SEQ of its class 1 record (R420) -/
  seq : Option Nat
  /-- delivered to the host's page-fault service, rather than the device's (R432) -/
  host : Bool := false
  asks : List Ask
  deriving DecidableEq, Repr

/-- The freeing of a spill slot whose bitmap update has parked on a fault (R189). -/
structure PendingFree where
  id : Nat
  unit : TlbUnit
  ctx : Nat
  slot : Nat
  deriving DecidableEq, Repr

/-- An arrival (R167): of bytes or counted, its number, the GEN an engine captured, and its ERR. -/
structure Arrival where
  bytes : Bool
  n : Nat
  gen : Option Byte
  err : Nat
  deriving DecidableEq, Repr

/-- An arrival at a barrier object whose address waits for its translation (R26, R167, R406): the object as named, who
translates it, and whether an engine makes it. -/
structure PendingArrival where
  id : Nat
  unit : TlbUnit
  ctx : Nat
  alias_ : Option Nat := none
  va : DWord
  engine : Bool
  arrival : Arrival
  deriving DecidableEq, Repr

/-- A fault that service declined, or that a quiet request met, not yet met by its requester (R26). -/
structure Declined where
  ask : Ask
  subcode : Nat
  deriving DecidableEq, Repr

/-! ### Slices -/

/-- A parked access that lets its slice go on (R26, R27, R396, R410). -/
structure Parked where
  /-- its own number -/
  id : Nat
  /-- names the instruction of the gang that it belongs to, all of which parked (R281) -/
  inst : Nat := 0
  /-- its slice stands at the instruction, which it issues again -/
  stays : Bool := false
  pc : DWord
  instr : Instr
  /-- taking lanes -/
  lanes : BitVec 4
  addr : L4 DWord
  /-- store data or operand, as up to four words per lane -/
  data : L4 (List LaneWord)
  fdepth : Nat
  subcode : Nat
  deriving DecidableEq, Repr

/-- A trap to be taken at the slice's next instruction boundary (R396). -/
structure PendingTrap where
  cause : Nat
  subcode : Nat
  eaddr : DWord
  /-- address of the faulting instruction -/
  pc : DWord
  deriving DecidableEq, Repr

/-- What a slice that waits for granules does once it has them (R379). -/
inductive Block where
  /-- a CALL, TNEXT or JOIN, or a RET, UNWIND or EXIT that reloads a frame: it issues again, the run kept for it -/
  | retry
  /-- a TNEXT.g: the whole gang issues it again once each of its slices has its run -/
  | whole
  /-- trap entry (R399) -/
  | trap
  /-- the arrival of a return of a KIND whose held frame is spilled (R391) -/
  | arrival (kind : Nat)
  deriving DecidableEq, Repr

/-- What a slice is doing. -/
inductive Status where
  /-- issues when its pipe chooses it; also while it waits at an instruction that issues again until it proceeds -/
  | ready
  /-- its access waits for a page walk -/
  | missWait
  /-- its access is parked on a fault -/
  | faultWait
  /-- SLEEP until a clock (R320) -/
  | sleeping (until_ : DWord)
  /-- arrived at a BAR of a scope (R302) -/
  | atBar (scope : Scope)
  /-- arrived at a REGANG (R317) -/
  | atRegang (tag : Nat)
  /-- WAITW between polls (R292) -/
  | inWaitw
  /-- JOIN between reads (R330) -/
  | inJoin
  /-- waits for a free run of granules (R379) -/
  | frameBlocked (need : Nat) (what : Block)
  /-- spilled whole by Midnight (R383) -/
  | spilled
  /-- waits for a reply from a remote part (R427) -/
  | remote
  /-- seeks migration: request, grant, departure, flight (R385) -/
  | migrating
  /-- saved with its workgroup (R404) -/
  | saved
  | exited
  deriving DecidableEq, Repr

/-- Progress of a migration (R385, R391). -/
inductive MigPhase where
  /-- a request on its way to its destination core -/
  | requested
  /-- the destination's answer on its way back: a guest slot and granule run reserved, or a refusal code -/
  | granted (slot base : Nat)
  | refused (code : Nat)
  /-- the grant has come; the slice departs once its accesses are performed -/
  | departing (slot base : Nat)
  /-- the continuation on its way to the host -/
  | flying (slot base : Nat)
  /-- a return on its way to the origin; its continuation KIND, 1 or 2 -/
  | returning (kind : Nat)
  deriving DecidableEq, Repr

structure Migration where
  phase : MigPhase
  /-- the destination core -/
  dest : Nat
  /-- of a MIGRATE: the instruction, and the code it gives when the slice arrives -/
  code : Option (Instr × Nat)
  /-- its source A as it read it, for H (R174) -/
  src : List Reg := []
  /-- the continuation on its way (R387, R388) -/
  packet : List Byte := []
  /-- pre-emption of the destination began after its grant (R393) -/
  evicted : Bool := false
  deriving DecidableEq, Repr

/-- A guest: where it runs, and what its origin holds for it (R386-R391). -/
structure Guest where
  host : Nat
  slot : Nat
  hops : Nat
  /-- the held top frame at the origin -/
  held : Frame
  /-- the lower frames at the origin, innermost first -/
  lower : List Frame
  /-- reconvergence entries left at the origin -/
  entries : List Recon
  deriving DecidableEq, Repr

/-- A lane's wait in an MBAR.WAIT (R168, R169): the object's address, and, once the wait has returned, the lane's word
of o13, its predicate, and whether a completion was observed. -/
structure MbarLane where
  lane : Nat
  key : Nat
  got : Option (LaneWord × Bool × Bool)
  deriving DecidableEq, Repr

/-- A slice (R171, R277, R307, R399). -/
structure Slice where
  uid : Nat
  /-- thread group -/
  group : Nat
  /-- index within the thread group -/
  idx : Nat
  /-- names its gang: the slices of one group with one gang number issue together (R311, R367) -/
  gang : Nat
  /-- clock at which its gang last entered the pipe or yielded (R367) -/
  age : DWord := 0
  /-- clock since which it has been ready and unissued (R367) -/
  readySince : DWord := 0
  /-- issues nothing before this clock (R318) -/
  notBefore : DWord := 0
  pc : DWord
  /-- m0 to m7 -/
  masks : List (BitVec 4) := [0xF, 0, 0, 0, 0, 0, 0, 0]
  fmt : Word := 0x33
  /-- rst states of the lanes (R200) -/
  seeds : L4 Word := ⟨1, 1, 1, 1⟩
  /-- frames, the top first -/
  frames : List Frame
  /-- o0 to o15 -/
  sof : List (L4 LaneWord)
  /-- l0 to l3 -/
  lrf : List Reg
  /-- entries of the LRF that a parked access is still to fill: its number and the register of its result; empty when there
  are none -/
  lrfDue : List (Option (Nat × Nat)) := []
  /-- k0 first, each with the number of instructions that may still read it (R174) -/
  latch : List (Reg × Nat) := []
  /-- reconvergence stack, innermost first -/
  recon : List Recon := []
  /-- RX_SLOT of the top header (R188) -/
  rxSlot : Option Nat := none
  /-- the entries that the slot holds, oldest first -/
  rxHeld : List Recon := []
  /-- returned lanes kept aside, with the depth of their frame (R314) -/
  returned : List (Nat × BitVec 4) := []
  /-- backward branches taken in this turn (R309) -/
  turn : Nat := 0
  tstate : Option TState := none
  status : Status := .ready
  /-- clock at which it began to wait at its instruction (R397, R292, R317) -/
  since : Option DWord := none
  /-- WAITW_LIMIT as it stood when that wait began (R349) -/
  limit : Word := 0
  /-- at a BAR: the members that its round counted when the first of them arrived (R370) -/
  barSet : List Nat := []
  /-- clock at which it became frame-blocked (R379, R380) -/
  blockedSince : DWord := 0
  /-- granules that it claimed when it was unblocked, for its instruction to take: first and number -/
  run : Option (Nat × Nat) := none
  /-- watchdog count carried by a save (R191) -/
  wdog : Nat := 0
  parked : List Parked := []
  pendingTrap : Option PendingTrap := none
  /-- outstanding near-memory commands (R347) -/
  nmcOut : List Nat := []
  /-- remote accesses without a reply (R427) -/
  remoteOut : List Nat := []
  guest : Option Guest := none
  mig : Option Migration := none
  /-- the access at this PC was refused migration and is served remotely (R284) -/
  stay : Bool := false
  /-- spilled whole: the slot of its slice record, and its place in spill order (R383) -/
  spill : Option (Nat × Nat) := none
  /-- spilled whole or saved while frame-blocked: what it waited for -/
  held : Option (Nat × Block) := none
  /-- lanes of an MBAR.WAIT under way -/
  mbar : List MbarLane := []
  /-- a trap of it has halted its thread group, which makes it go on from EPC (R401) -/
  stopped : Bool := false
  epc : DWord := 0
  ecause : Word := 0
  eaddr : DWord := 0
  /-- SYS_CTX, its own context at dispatch (R350) -/
  sysCtx : Word := 0
  deriving DecidableEq, Repr

/-- A thread group (R363, R401). -/
structure Group where
  uid : Nat
  wg : Nat
  /-- index within the workgroup -/
  idx : Nat
  pipe : Nat
  /-- gang place on the pipe, 0-15 -/
  place : Nat
  /-- dispatch order, for Midnight's choice of victims (R381) -/
  born : Nat
  fpflags : Word := 0
  /-- halted (R401), with the SEQ of its halt record once written -/
  halted : Bool := false
  haltSeq : Option Nat := none
  /-- that record was delivered to the host's error-handling service -/
  haltHost : Bool := false
  /-- rounds of REGANG under way: tag, clock of the first arrival, and REGANG_WINDOW as it stood then (R317, R349) -/
  rounds : List (Nat × DWord × Word) := []
  /-- belongs to the firmware (R348, R434) -/
  firmware : Bool := false
  deriving DecidableEq, Repr

/-- A copy token of a workgroup (R162, R163). -/
structure Token where
  /-- copies of the open batch -/
  openBatch : List Nat := []
  /-- statuses of completed copies of the open batch, bit k for status k -/
  openStatus : BitVec 4 := 0
  /-- sealed batches not completed, oldest first: number, copies outstanding, statuses -/
  sealed : List (Nat × List Nat × BitVec 4) := []
  next : Nat := 1
  acc : BitVec 4 := 0
  deriving DecidableEq, Repr

/-- Whether a workgroup runs. -/
inductive WgStatus where
  | running
  /-- being pre-empted: issue stopped (R404 step 1) -/
  | stopping
  | saved
  deriving DecidableEq, Repr

/-- A workgroup (R363, R364, R408). -/
structure Workgroup where
  uid : Nat
  launch : Nat
  /-- linear index in the grid -/
  work : Nat
  core : Nat
  slot : Nat
  scrBase : Nat
  scrBytes : Nat
  tileFirst : Nat
  tiles : Nat
  /-- physical accumulator sets, a0 first -/
  accs : List Nat
  /-- thread group that holds copy rights (R156) -/
  producer : Nat
  tokens : List Token
  /-- copies the producer group has issued since dispatch (R159) -/
  copies : Nat := 0
  status : WgStatus := .running
  /-- order of first dispatch (R366) -/
  born : Nat
  /-- first slot of its save record (R407) -/
  saveSlot : Option Nat := none
  /-- every slot of its save records -/
  saveSlots : List Nat := []
  /-- clock since which, saved, it has waited for its core (R368) -/
  waits : Option DWord := none
  /-- clock before which the time-slicer does not choose it again (R407) -/
  spare : DWord := 0
  /-- the launch that it was pre-empted for, until that launch has taken its room (R368, R456) -/
  yieldsTo : Option Nat := none
  /-- holds what R434 reserves for the firmware's thread group: no workgroup of a launch -/
  firmware : Bool := false
  deriving DecidableEq, Repr

/-- A launch packet's fields (R360). -/
structure Packet where
  entry : DWord
  gridX : Nat
  gridY : Nat
  gridZ : Nat
  slices : Nat
  groups : Nat
  producer : Nat
  demand : Nat
  scratch : Nat
  acc : Nat
  prio : Nat
  tiles : Nat
  coop : Bool
  migrate : Bool
  strict : Bool
  overlap : Bool
  partMask : BitVec 16
  podCount : Nat
  trap : DWord
  args : DWord
  doneMbar : DWord
  launchId : Word
  podTag : Word
  deriving DecidableEq, Repr

/-- An accepted launch (R358-R362). -/
structure Launch where
  id : Nat
  queue : Nat
  /-- HEAD at which it was accepted -/
  seq : Word
  ctx : Nat
  pkt : Packet
  /-- CHUNK at acceptance -/
  chunk : Nat
  /-- chunks stolen: chunk and thief die -/
  stolen : List (Nat × Nat) := []
  /-- linear indices dispatched so far -/
  started : List Nat := []
  exited : Nat := 0
  /-- clock since which a workgroup of it has waited on a die: die and clock (R368) -/
  waits : List (Nat × DWord) := []
  /-- accepted with the grid duty host-assisted: no chunk is stolen (R362, R432) -/
  noSteal : Bool := false
  terminated : Bool := false
  deriving DecidableEq, Repr

/-- A context (R350, R433). -/
structure Ctx where
  id : Nat
  root : DWord := 0
  seedSr : Word := 0
  spillBase : DWord := 0
  spillSize : Word := 0
  pinQuota : Word := 4096
  frameWait : Word := 2048
  guestFrames : Word := 16
  hopLimit : Word := 4
  regangWindow : Word := 4096
  divRotate : Word := 64
  waitwLimit : Word := 16384
  deriving DecidableEq, Repr

/-! ### Caches (spec/05_caches_and_atomics.md) -/

/-- The bytes of a 64-byte line, and the poison of its two sectors (R107, R119). -/
structure LineData where
  data : List Byte := List.replicate 64 0
  poison : Bool × Bool := (false, false)
  deriving DecidableEq, Repr

/-- What an access asks of the caches: the less-caching of its page's CPOL and its CP (R20, R113). -/
inductive Policy where
  | normal | noAlloc | keep | bypass | uncached
  deriving DecidableEq, Repr

/-- A quad-cache line (R107, R110, R118): its bytes as this quad sees them. -/
structure QuadLine extends LineData where
  quad : Nat
  /-- physical address of its first byte -/
  addr : Nat
  /-- of sector 0 and 1 -/
  valid : Bool × Bool := (true, true)
  dirty : Bool := false
  /-- quad-private page -/
  isPrivate : Bool := false
  kept : Bool := false
  /-- context that pinned it -/
  pin : Option Nat := none
  /-- core that pinned it -/
  pinCore : Nat := 0
  deriving DecidableEq, Repr

/-- A line of a core's L1 (R107), with bytes and poison of its own; it never outlives its quad's line (log 34). -/
structure L1Line extends LineData where
  core : Nat
  addr : Nat
  valid : Bool × Bool := (true, true)
  isPrivate : Bool := false
  deriving DecidableEq, Repr

/-- A line of the die cache of its home (R107, R108). -/
structure DieLine extends LineData where
  addr : Nat
  valid : Bool × Bool
  dirty : Bool := false
  kept : Bool := false
  deriving DecidableEq, Repr

/-- A line of a memory-side cache (R30). -/
structure MscLine extends LineData where
  addr : Nat
  valid : Bool × Bool
  dirty : Bool × Bool := (false, false)
  deriving DecidableEq, Repr

/-- A write-through on its way from a core to a home die-cache slice (R110), with its policy there (R113). -/
structure WriteThrough where
  core : Nat
  stack : Nat
  addr : Nat
  data : List Byte
  policy : Policy := .normal
  deriving DecidableEq, Repr

/-- The write-back of a line's chosen sectors, which waits at a memory-side cache's tag check or at a bank (R29, R31),
with the base-die clock of its arrival. -/
structure LineReq extends LineData where
  stack : Nat
  addr : Nat
  sectors : Bool × Bool
  since : Nat
  deriving DecidableEq, Repr

/-- An update held for comm combining or deferred by quant (R117, R140). -/
structure Deferred where
  id : Nat
  quad : Nat
  /-- the slices whose updates it holds, and the gang of the first -/
  slices : List Nat
  gang : Nat
  since : DWord
  instr : Instr
  addr : Nat
  stack : Nat
  val : DWord
  /-- the compare value of a cas -/
  cmp : DWord := 0
  policy : Policy := .normal
  deriving DecidableEq, Repr

/-! ### Tiles, copies and the matrix engine (spec/07, spec/10) -/

inductive TileState where
  | empty | filling | ready | draining
  deriving DecidableEq, Repr

/-- A defined tile-table entry (R153, R154). -/
structure Tile where
  /-- names this definition; the reader count is that of the matrix operations that name it -/
  id : Nat
  core : Nat
  entry : Nat
  state : TileState := .empty
  flt : Bool := false
  owner : Nat
  lastToken : Nat := 0
  lastBatch : Nat := 0
  base : Nat
  size : Nat
  fill : Nat := 0
  drain : Nat := 0
  deriving DecidableEq, Repr

/-- An access-pattern record (R32, R33), as its consumer keeps it. -/
structure Apr where
  base : DWord
  /-- the FMT byte -/
  fmt : Byte
  esize : Byte
  mark : Half
  flags : Word
  counts : List Word
  strides : List Word
  padrule : Word
  lo : List Word
  hi : List Word
  padval : Word
  plane : DWord
  /-- every byte R32 and R33 call zero or reserved is zero, and the record is 8-byte aligned -/
  zeros : Bool
  aligned : Bool
  deriving DecidableEq, Repr

/-- Bytes of a copy on their way to one piece of their destination, gathered so that the piece is written as one (R119,
R223): those of the walk (0) or of a scale plane (1), each with the poison it carries. -/
structure CopyBuf where
  stream : Nat
  /-- to the roof, whose bytes are numbered through the cores; else to a physical address -/
  roof : Bool
  at_ : Nat
  policy : Policy := .normal
  cells : List (Byte × Bool)
  deriving DecidableEq, Repr

/-- A copy in flight (R157-R164, R411). -/
structure Copy where
  id : Nat
  /-- the leader's slice, and all slices of the gang that issued it -/
  slice : Nat
  slices : List Nat := []
  wg : Nat
  core : Nat
  ctx : Nat
  dir : CopyDir
  token : Nat
  tile : Nat
  /-- roof byte offset -/
  roff : Nat
  desc : Word
  apr : Apr
  apr2 : Option Apr
  /-- barrier object's address, if any, and its captured GEN; `none` when the capture found it poisoned -/
  mbar : Option DWord
  gen : Option Byte
  /-- bytes charged at issue -/
  charge : Nat
  /-- chain record: command, ROOF and AOFF words, and the format register at issue -/
  chain : Option (Word × Word × Word × Word)
  /-- next index vector in walk order, and the dense slot it takes -/
  pos : Nat
  slot : Nat
  /-- next index vector of the destination walk (direction 4) -/
  pos2 : Nat := 0
  /-- rst state of a converting copy -/
  rstate : Word
  /-- source elements of an E2M1 block not yet written -/
  block : List LaneWord
  /-- where the bytes of a whole block go, as far as they have translated: an address and a policy; none for a byte that its
  walk discards -/
  places : List (Option (Nat × Policy)) := []
  bufs : List CopyBuf := []
  /-- status so far: 0 OK, 1 POISON, 2 FAULT, 3 APR, 4 CHAIN -/
  status : Nat
  /-- every byte has landed -/
  landed : Bool
  /-- saved as a parked-copy record with its workgroup -/
  held : Bool := false
  deriving DecidableEq, Repr

/-- An accumulator set (R218): words by element number 128i + j, unlisted words +0. -/
structure AccSet where
  core : Nat
  set : Nat
  words : List (Nat × Word)
  poison : Bool := false
  deriving DecidableEq, Repr

/-- What a matrix operation does (R299, R300). -/
inductive MatKind where
  | mma | mmaz | accld | accst | accz
  deriving DecidableEq, Repr

/-- An operation in a core's matrix engine (R219). -/
structure MatOp where
  id : Nat
  core : Nat
  /-- from a COPYMM: it waits in the engine for its tile (R164) -/
  chained : Bool := false
  kind : MatKind
  /-- the slices of the gang that issued it -/
  slices : List Nat
  wg : Nat
  /-- physical accumulator set -/
  set : Nat
  /-- the tile's definition, 0 for none, and the scratchpad bytes of the tile that the operation reads or writes -/
  tile : Nat
  addr : Nat
  len : Nat
  kb : Nat
  roof : Nat
  aoff : Nat
  fmt : Word
  /-- its place in the program order of its slice: its own number, or that of the COPYMM it comes from (R143) -/
  seq : Nat := 0
  /-- the scratchpad bytes of the tile that it names (R301) -/
  tileAt : Nat := 0
  tileLen : Nat := 0
  /-- 64-byte pieces of the roof that it sees as they were before a write that races with it (R223) -/
  snap : List (Nat × List Byte × Bool × Bool) := []
  deriving DecidableEq, Repr

/-! ### The base die (spec/02) -/

/-- A near-memory command (R38-R46). -/
structure Cmd where
  id : Nat
  slice : Nat
  ctx : Nat
  launch : Nat
  stack : Nat
  body : Nat
  rm : Nat
  aprA : Option Apr
  aprB : Option Apr
  aprD : Option Apr
  c0 : Word
  c1 : Word
  mbar : DWord
  gen : Option Byte
  result : DWord
  /-- who makes its later accesses: the issuing core, or the base die of its stack -/
  unit : TlbUnit
  /-- in the command queue, rather than on its way there -/
  queued : Bool := false
  running : Bool := false
  /-- element to be performed next, in walk order -/
  pos : Nat := 0
  sum : Word := 0
  /-- sectors that the command itself has marked poisoned (R52) -/
  marked : List Nat := []
  badCount : Nat := 0
  firstBad : Nat := 0
  /-- STATUS once it is decided -/
  status : Option Nat := none
  aprErr : Nat := 0
  aprWhich : Nat := 0
  /-- pages of its spans that the test of its acceptance has found: VA page and physical address (R42) -/
  tested : List (Nat × Nat) := []
  /-- VA pages of its spans that have translated -/
  pages : List Nat := []
  /-- its active write range (R46): physical runs of the span of D, address and length -/
  writeRange : List (Nat × Nat) := []
  deriving DecidableEq, Repr

/-- A bank of a stack (R29, R48-R50): its open row; the command that opened it; the row that it has yielded, to be activated
again; every command's yields since its last column access here; the column accesses left of a burst; whether ordinary
reads stand behind that burst; and the base-die clock until which sequencers are held off the bank. -/
structure Bank where
  stack : Nat
  pch : Nat
  bank : Nat
  row : Option Nat := none
  owner : Option Nat := none
  recorded : Option Nat := none
  yields : List (Nat × Nat) := []
  burst : Nat := 0
  behind : Bool := false
  hold : Option Nat := none
  deriving DecidableEq, Repr

/-- The CSRs of a stack (R49, R50, R350). -/
structure StackCsr where
  yieldCap : Word := 32
  rfmHold : Word := 512
  rfmCount : Word := 0
  deriving DecidableEq, Repr

/-! ### The stack array (spec/03, spec/04) -/

/-- Token kinds (R58). -/
inductive TokKind where
  | data | coord | eor | eot | eoi | stat | dusk | dawn
  deriving DecidableEq, Repr

/-- A token (R57). -/
structure Tok where
  kind : TokKind
  exc : Bool := false
  payload : Word := 0
  deriving DecidableEq, Repr

/-- A region's states (R74). -/
inductive RegState where
  | empty | loading | unarmed | armed | running | draining | frozen | aborted
  deriving DecidableEq, Repr

/-- A route of a region: its ends, its preload, its links first hop first (each oldest token first), whether DAWN is on its
way along it, and whether its next hop meets an uncorrectable error (R61, R63, R68, R419; log entry 5). -/
structure Route where
  src : Nat
  dst : Nat
  srcOut : Nat
  dstIn : Nat
  preload : List Tok := []
  links : List (List Tok)
  dawn : Bool := false
  broken : Bool := false
  deriving DecidableEq, Repr

/-- A node named by the element table: its configuration word and its state (R64, R67, R415). -/
structure Node where
  num : Nat
  conf : BitVec 128
  /-- FMT_OUT, and the formats of the inputs, after ANY is resolved (R72) -/
  fmtOut : Nat := 0
  fmtIn0 : Nat := 0
  fmtIn1 : Nat := 0
  fmtIn2 : Nat := 0
  live : Bool := false
  /-- DATA has entered the state since its reset -/
  seen : Bool := false
  excHeld : Bool := false
  /-- three words of state: accumulator, second accumulator, rst state -/
  s0 : Word := 0
  s1 : Word := 0
  s2 : Word := 0
  /-- per input, the rank of the marker consumed last, 0 for another token (R59) -/
  last : List Nat := [0, 0, 0]
  /-- RBUF's ring, oldest first, each token with whether it triggers FIRE_ON (R99) -/
  ring : List (Tok × Bool) := []
  /-- LUT's table (R102) -/
  table : List Word := []
  /-- RBUF: markers of in1 consumed ahead of those it emits; GATE: 1 while it discards a segment, 2 while it passes one;
  BRIDGE: bit 0 once DAWN has gone out, bit 1 once it has come in -/
  mode : Nat := 0
  /-- RBUF: L of the row being released, with its EXC -/
  stat : Option Tok := none
  /-- a COORD held until its DATA fires (R87, R95) -/
  coord : Option Tok := none
  /-- BRIDGE to a core queue: DUSK has been emitted (R413) -/
  dusk : Bool := false
  deriving DecidableEq, Repr

/-- A stream endpoint of a region: its private APR and its walk (R76, R103-R105, R415). -/
structure Endpoint where
  num : Nat
  apr : Option Apr := none
  /-- invocation its walk belongs to -/
  inv : Word := 0
  pos : Nat := 0
  /-- tokens it has still to emit for the present element: a COORD's DATA, then markers -/
  pending : List Tok := []
  walkDone : Bool := true
  parked : Bool := false
  duskSeen : Bool := false
  /-- 1 when the APR of its invocation is invalid -/
  aprErr : Nat := 0
  /-- index of the element written since the invocation began -/
  written : Nat := 0
  deriving DecidableEq, Repr

/-- An invocation in flight (R76, R340, R415). -/
structure Invocation where
  num : Word
  /-- MBAR[0..3] and their captured GENs -/
  mbars : List DWord
  gens : List (Option Byte)
  excLog : DWord
  occMap : DWord
  status : Nat := 0
  /-- sinks that have consumed its EOI, and SNKBARs that have arrived -/
  done : List Nat := []
  arrived : List Nat := []
  /-- its start is made: CAP stands in the log (R340) -/
  started : Bool := false
  deriving DecidableEq, Repr

/-- A region of a stack array (R73-R77, R415). -/
structure Region where
  stack : Nat
  first : Nat
  width : Nat
  ctx : Nat
  state : RegState
  itemRoute : Bool := false
  item : Nat := 0
  code : Nat := 0
  image : DWord
  hangInterval : Nat := 0
  excEntries : Nat := 0
  nodes : List Node := []
  routes : List Route := []
  endpoints : List Endpoint := []
  invs : List Invocation := []
  invNext : Word := 0
  dusk : Word := 0
  /-- base-die clock of the last firing, for the hang monitor (R81) -/
  fired : Nat := 0
  /-- the monitor's count while a fault suspends it (R81) -/
  suspended : Option Nat := none
  /-- frozen, its occupancy map not yet written: the base-die clock of the freezing (R82) -/
  mapDue : Option Nat := none
  /-- saved and not yet restored (R338): the slots of its record -/
  slots : List Nat := []
  /-- the OCC_MAP of its last launch (R82, R340) -/
  lastMap : DWord := 0
  deriving DecidableEq, Repr

/-- A checked image in a base die's configuration cache (R77). -/
structure CacheImage where
  stack : Nat
  ctx : Nat
  image : DWord
  header : List Byte
  nodes : List Node
  routes : List Route
  /-- removed by GCTL.inval, and kept only for the region that uses it (R341) -/
  stale : Bool := false
  deriving DecidableEq, Repr

/-- A stream channel end: a core's stream queue, or a bridge site (R78, R79, R342). -/
structure Channel where
  /-- its channel identifier -/
  id : Word
  peer : Word
  fmt : Nat
  /-- a queue's direction: inbound -/
  inbound : Bool := false
  /-- workgroup of a queue -/
  wg : Option Nat := none
  connected : Bool := false
  /-- tokens it holds, oldest first: to be sent, and received -/
  outTok : List Tok := []
  inTok : List Tok := []
  /-- credit for sending (R79) -/
  credit : Nat := 64
  /-- a format disagreement with its peer has been reported -/
  told : Bool := false
  /-- set aside with its workgroup (R342) -/
  saved : Bool := false
  deriving DecidableEq, Repr

/-! ### Tasks (spec/16) -/

/-- The deque of a core: on-core entries, the bottom first, and its overflow segments' slots, the newest first (R371,
R372). -/
structure Deque where
  core : Nat
  ctx : Nat
  entries : List DWord := []
  segments : List Nat := []
  deriving DecidableEq, Repr

/-- An entry of the range table (R374). -/
structure RangeEntry where
  task : DWord
  ctx : Nat
  base : Nat
  len : Nat
  write : Bool
  /-- later tasks that counted this one -/
  counted : List DWord := []
  deriving DecidableEq, Repr

/-! ### Midnight (spec/17) -/

inductive MidState where
  | idle | wait | frames | slices
  deriving DecidableEq, Repr

/-- A core's escape spill engine while it is not IDLE (R380). -/
structure Midnight where
  core : Nat
  state : MidState
  /-- the requester -/
  target : Nat
  /-- the frame that it is writing: its slice, and its depth (R382) -/
  busy : Option (Nat × Nat) := none
  /-- pre-emption of the core has begun: it goes to IDLE once that frame is written (R380) -/
  stops : Bool := false
  deriving DecidableEq, Repr

/-! ### Reports and peers (spec/18, spec/19) -/

/-- An event a source holds for the arbiter (R421-R423). -/
structure Event where
  source : Byte
  cls : Nat
  code : Nat
  ctx : Option Nat
  core : Option Nat
  payload : DWord
  detail : DWord
  /-- the fault record or halted group it reports, which learns its SEQ -/
  fault : Option Nat := none
  group : Option Nat := none
  deriving DecidableEq, Repr

/-- Norzen state of a part pair (R428, R429). -/
structure Pair where
  part : Nat
  nextSeq : Word := 0
  expect : Word := 0
  /-- frames not acknowledged: SEQ, bytes, base-die clock of sending, resends -/
  unacked : List (Word × List Byte × Nat × Nat) := []
  lost : Bool := false
  deriving DecidableEq, Repr

/-- A remote access without a reply (R427). -/
structure Remote where
  id : Nat
  part : Nat
  slice : Nat
  /-- where the instruction stands -/
  pc : DWord := 0
  instr : Instr
  lane : Nat
  addr : DWord
  /-- its physical address, on the part -/
  pa : Nat := 0
  /-- the parked access that it belongs to; none for the slice's present instruction -/
  parked : Option Nat := none
  /-- the reply's words, once it has come; `none` for poison -/
  reply : Option (Option (List Word))
  deriving DecidableEq, Repr

/-- What the part has sent out: a Norzen frame to a part, at the address of its entry in the pod table (R428, R430), or an
answer of an Ethernet port (R424, R425); and that a port's sender has slowed for a queue pair. -/
inductive Sent where
  | frame (part : Nat) (addr bytes : List Byte)
  | ack
  | data (bytes : List Byte)
  | nakAccess
  | nakInvalid
  /-- a congestion notification packet, for a request whose packet came marked -/
  | notify
  | slow (port pair : Nat)
  deriving DecidableEq, Repr

/-- Firmware state (R435): measurement, flash image, recovery. -/
structure Firmware where
  /-- MEAS, byte 0 the least significant -/
  meas : BitVec 512 := 0
  svn : Nat := 0
  flash : List Byte := []
  recovery : Bool := false
  deriving DecidableEq, Repr

/-- The quad's bound registers (R150). -/
structure BoundRegs where
  quad : Nat
  ctx : Nat
  regs : List Word
  deriving DecidableEq, Repr

/-- What a context switch has saved (R405): the roof of a core, or the bound registers of a quad, in the spill area. -/
structure SavedUnit where
  ctx : Nat
  /-- a core's roof, else a quad's bound registers -/
  isRoof : Bool
  index : Nat
  slot : Nat
  deriving DecidableEq, Repr

/-- The issue history of a pipe (R367): the gang that issued last, and its instructions in a row. -/
structure Pipe where
  core : Nat
  pipe : Nat
  gang : Nat
  row : Nat
  /-- clock of that issue -/
  last : DWord := 0
  /-- of the pipe's scalar path (R215) -/
  scalar : Bool := false
  deriving DecidableEq, Repr

/-- Who moves next: the gang of the named slices, or the step of a unit. -/
inductive Move where
  | issue (uids : List Nat)
  /-- on the scalar path of the pipe (R215) -/
  | scalar (uids : List Nat)
  | unit (step : Instr)
  deriving DecidableEq, Repr

/-! ### The part -/

/-- Caches and translation structures. -/
structure Caches where
  quadLines : List QuadLine := []
  l1 : List L1Line := []
  dieLines : List DieLine := []
  mscLines : List MscLine := []
  writeThroughs : List WriteThrough := []
  mscQueue : List LineReq := []
  bankQueue : List LineReq := []
  deferred : List Deferred := []
  tlb : List TlbEntry := []
  walkCache : List WalkEntry := []
  misses : List Miss := []
  /-- requests that found no entry free, in the order of their arrival (R22) -/
  stalled : List Ask := []
  faults : List FaultRec := []
  declined : List Declined := []
  frees : List PendingFree := []
  arrivals : List PendingArrival := []
  deriving DecidableEq, Repr

/-- Engines of the cores and the base dies. -/
structure Engines where
  tiles : List Tile := []
  /-- tiles of saved workgroups, by workgroup (R412) -/
  savedTiles : List (Nat × Tile) := []
  copies : List Copy := []
  accs : List AccSet := []
  matQueue : List MatOp := []
  cmds : List Cmd := []
  banks : List Bank := []
  regions : List Region := []
  savedRegions : List Region := []
  configCache : List CacheImage := []
  channels : List Channel := []
  deques : List Deque := []
  ranges : List RangeEntry := []
  midnight : List Midnight := []
  deriving DecidableEq, Repr

/-- Reports, host and peers. -/
structure Outside where
  /-- events not yet taken by the arbiter, oldest first -/
  events : List Event := []
  /-- events dropped per source since its last record -/
  dropped : List (Byte × Nat) := []
  evSeq : Word := 0
  corrected : List (Nat × Nat) := []
  pairs : List Pair := []
  remotes : List Remote := []
  sent : List Sent := []
  /-- arrivals of scope pod: POD_TAG and part, oldest first -/
  podArrivals : List (Word × Nat) := []
  /-- POD_TAGs whose own arrival has been sent to the other parts and not yet been released -/
  podSent : List Word := []
  /-- base-die clock at which the counters were written last -/
  reported : Nat := 0
  fw : Firmware
  deriving DecidableEq, Repr

/-- A register of a slice: of a frame (the top is 0), the SOF, the LRF or the latch (R171). -/
inductive RegPlace where
  | frame (depth reg : Nat)
  | sof (k : Nat)
  | lrf (k : Nat)
  | latch (k : Nat)
  deriving DecidableEq, Repr

/-- A cache by the core, quad or stack that it serves (R30, R107). -/
inductive CacheAt where
  | l1 (core : Nat)
  | quad (quad : Nat)
  | die (stack : Nat)
  | msc (stack : Nat)
  deriving DecidableEq, Repr

/-- An error that the part's own checks find (R419). -/
inductive HwError where
  /-- a single-bit error, corrected: its unit's counter -/
  | corrected (counter : Nat)
  /-- uncorrectable, in a lane word (R192) -/
  | laneWord (uid : Nat) (place : RegPlace) (lane : Nat)
  /-- in a sector of a cached line -/
  | cacheData (at_ : CacheAt) (line sector : Nat)
  /-- in the tag or state of a cached line -/
  | cacheTag (at_ : CacheAt) (line : Nat)
  /-- in a TLB or walk-cache entry, with its unit's counter -/
  | tlb (entry : TlbEntry) (counter : Nat)
  | walkCache (entry : WalkEntry) (counter : Nat)
  /-- in a 32-byte sector of a roof, or in an accumulator set (R224) -/
  | roof (sector : Nat)
  | acc (core set : Nat)
  /-- in a frame header, the reconvergence stack, TSTATE or the tile table, of a slice's thread group -/
  | groupState (uid : Nat)
  /-- in the state of an element of a region -/
  | element (stack first : Nat)
  deriving DecidableEq, Repr

/-- The whole part. -/
structure State where
  /-- who acts next; with none the step chooses (log entry 1) -/
  agenda : List Move
  /-- steps taken (log entries 1, 3) -/
  ticks : Nat
  /-- counter behind free values (log entry 2) -/
  free : Nat
  /-- uids of the issuing gang, in slice order (log entry 1) -/
  cur : List Nat
  /-- names given so far (log entry 1) -/
  nextId : Nat
  /-- compute-die clock counter (log entry 3) -/
  clock : DWord
  /-- compute-die clock rate in MHz (R437) -/
  dieMHz : Nat
  /-- base-die clock counter, at 2.0 GHz whatever the compute-die clock (R5), and what of the next clock has passed, in
  parts of 1/dieMHz -/
  baseClk : Nat
  basePart : Nat
  /-- bytes in the banks of the stacks and in the scratchpads, by `memKey` -/
  mem : Memory
  /-- poisoned 32-byte sectors of scratchpads, by number (R119) -/
  poison : List Nat
  /-- sectors whose next read from a bank meets an uncorrectable error (R51; log entry 5) -/
  latent : List Nat
  /-- 32-bit words of scratchpads, by address / 4, whose next read meets an uncorrectable error (R151; log entry 5) -/
  latentWords : List Nat
  /-- errors that the next step's end finds (R419; log entry 5) -/
  errors : List HwError
  /-- sectors stored in a bank with the poison signature (R53) -/
  signed : List Nat
  /-- roof bytes: core * 2^25 + offset (R221) -/
  roof : Memory
  roofPoison : List Nat
  caches : Caches
  engines : Engines
  outside : Outside
  bounds : List BoundRegs
  ctxs : List Ctx
  dutyMode : Word
  quantum : Word
  chunk : Word
  stackCsrs : List (Nat × StackCsr)
  slices : List Slice
  groups : List Group
  wgs : List Workgroup
  launches : List Launch
  pipes : List Pipe
  /-- clock of the end of the last pre-emption on a die (R368) -/
  lastPreempt : List (Nat × DWord)
  /-- roofs and bound registers that context switches have saved (R405) -/
  savedUnits : List SavedUnit
  /-- each die's round-robin core, and each queue priority's round-robin queue (R358, R363) -/
  dieNext : List (Nat × Nat)
  queueNext : List (Nat × Nat)
  /-- steal LFSR of each core that has stepped it (R373; log entry 6) -/
  stealLfsr : List (Nat × Word)
  /-- where each die's next probe by a thief starts (R373) -/
  probeNext : List (Nat × Nat)
  /-- workgroups whose scratchpad is held while saved (R406) -/
  heldScratch : List (Nat × Nat × Nat)
  deriving DecidableEq, Repr

/-- The reserve of the firmware's thread group on core 0 of a die (R434): slot 63 and the top 256 KiB of the scratchpad. It
belongs to no launch, and so runs under CTX_ID 0. -/
def firmwareWg (die : Nat) : Workgroup :=
  { uid := die + 1, launch := 0, work := 0, core := 8 * die, slot := 63, scrBase := 0x3C0000, scrBytes := 0x40000, tileFirst := 0, tiles := 0,
    accs := [], producer := 0, tokens := [], born := 0, firmware := true }

/-- The firmware's thread group there, with its gang place on pipe 0; the program and the slices of it are not the spec's
(log entry 38). -/
def firmwareGroup (die : Nat) : Group :=
  { uid := die + 17, wg := die + 1, idx := 0, pipe := 0, place := 0, born := 0, firmware := true }

/-- R437, R350, R432, R434: right after reset. Log entries 1 to 7 name the values the spec does not give. -/
def State.reset : State :=
  { agenda := [], ticks := 0, free := 0, cur := [], nextId := 33, clock := 0, dieMHz := 3000, baseClk := 0, basePart := 0,
    mem := [], poison := [], latent := [], latentWords := [], errors := [], signed := [], roof := [], roofPoison := [],
    caches := {}, engines := {}, outside := { fw := {} },
    bounds := [], ctxs := [], dutyMode := 0, quantum := 262144, chunk := 1, stackCsrs := [],
    slices := [], groups := (List.range 16).map firmwareGroup, wgs := (List.range 16).map firmwareWg, launches := [], pipes := [], lastPreempt := [], savedUnits := [], dieNext := [], queueNext := [],
    stealLfsr := [], probeNext := [], heldScratch := [] }

/-- The machine itself has no fault that stops it: every error of the spec is a trap, a status or an event. -/
inductive Fault where
  /-- raised by no meaning and by no step; safe -/
  | unreachable
  deriving DecidableEq, Repr

/-- Why the model does not perform what it is asked. -/
inductive Refusal where
  /-- the instruction has no meaning yet: safe -/
  | notModelled (mnemonic : String)
  /-- a machine step is asked of a unit in whose state its condition does not hold (spec/95): raised by the machine
  steps; safe, since the part does not take that step then -/
  | notEnabled (mnemonic : String)
  /-- an instruction is asked to execute with no gang issuing it: raised by the instructions; safe -/
  | noGang
  deriving DecidableEq, Repr

end Sys2Proof.Machine
end

