-- ==== Sys2Proof/WellFormed.lean ====
section
/-! DEFINITION. Which instructions are legal encodings: operand, prefix and field rules of
spec/11_formats_and_assembly.md R230-R240, with the per-instruction limits of spec/12 to spec/15. A term that fails one
of these checks has no legal word; the word of its shape raises the illegal-instruction trap. -/

namespace Sys2Proof

/-- Words that an operand covers: one register, a pair (R237), or the four of a w128 access (R282). -/
inductive Width where
  | one | pair | quad
  deriving DecidableEq, Repr

def Opnd.isLit : Opnd → Bool
  | .lit _ => true
  | _ => false

/-- R237 for sources, and the register rule of R282 for w128. -/
def Opnd.okAt : Width → Opnd → Bool
  | .one, _ => true
  | .pair, .v i => i.val % 2 == 0
  | .pair, .o i => i.val % 2 == 0
  | .pair, .l i => i.val == 0
  | .pair, .k i => i.val == 0
  | .pair, .zero | .pair, .clock | .pair, .lit _ => true
  | .pair, .lane | .pair, .slice | .pair, .group | .pair, .work | .pair, .core => false
  | .quad, .v i => i.val % 4 == 0
  | .quad, .o i => i.val % 4 == 0
  | .quad, .zero => true
  | .quad, _ => false

/-- R237 and R282 for destinations. -/
def Dst.okAt : Width → Dst → Bool
  | .one, _ => true
  | .pair, .v i => i.val % 2 == 0
  | .pair, .o i => i.val % 2 == 0
  | .quad, .v i => i.val % 4 == 0
  | .quad, .o i => i.val % 4 == 0
  | _, .zero => true

/-- i64 and n64 name pairs (R250). -/
def IType.width : IType → Width
  | .i64 | .n64 => .pair
  | _ => .one

def LdSize.width : LdSize → Width
  | .w64 => .pair
  | .w128 => .quad
  | _ => .one

def StSize.width : StSize → Width
  | .w64 => .pair
  | .w128 => .quad
  | _ => .one

def AtombOp.width : AtombOp → Width
  | .addI64 => .pair
  | _ => .one

/-- Bits of a format, 0 for those that no conversion names (R194). -/
def Fmt.bits : Fmt → Nat
  | .f32 | .i32 | .n32 => 32
  | .bf16 | .f16 | .i16 | .n16 => 16
  | .e4m3 | .e5m2 | .e8m0 | .i8 | .n8 => 8
  | .e2m1 => 4
  | .pred | .coord => 32
  | .any => 0

/-- The float and scale formats, codes 0 to 6 (R194). -/
def Fmt.isFloat : Fmt → Bool
  | .f32 | .bf16 | .f16 | .e4m3 | .e5m2 | .e2m1 | .e8m0 => true
  | _ => false

/-- The integer formats, codes 7 to 12 (R194). -/
def Fmt.isInt : Fmt → Bool
  | .i32 | .n32 | .i16 | .n16 | .i8 | .n8 => true
  | _ => false

/-- rst is legal only where a float narrows to a narrower float, E8M0 being a scale (R194, R197, R267). -/
def narrows (src dst : Fmt) : Bool :=
  src.isFloat && src != .e8m0 && dst.isFloat && dst != .e8m0 && dst.bits < src.bits

/-- How an instruction reads the RM field of its prefix (R233, R239). -/
inductive RmUse where
  /-- not interpreted: must be zero -/
  | unused
  /-- a rounding mode; rst is illegal (R197, R261) -/
  | round
  /-- a rounding mode; rst is legal (R267, R269) -/
  | roundRst
  /-- the saturate bit in [11], [13:12] zero -/
  | sat
  /-- the cache policy, 0-5 -/
  | cp
  deriving DecidableEq, Repr

/-- Which ORDER, USE and SCOPE an instruction takes (R122-R124, R239). -/
inductive OrdUse where
  /-- none is interpreted -/
  | unused
  | load | store
  /-- a read-modify-write; `comm` says whether use comm is admitted -/
  | rmw (comm : Bool)
  /-- SCOPE only -/
  | scope
  /-- SCOPE, and ORDER rlx or rel -/
  | arrive
  /-- SCOPE, and ORDER rlx or acq -/
  | wait
  deriving DecidableEq, Repr

/-- What an instruction does with its prefix and its operands. -/
structure Uses where
  pfx : Option Pfx := none
  /-- MASK is interpreted -/
  mask : Bool := true
  /-- Z is interpreted: the instruction has a register or mask result (R234) -/
  z : Bool := true
  rm : RmUse := .unused
  ord : OrdUse := .unused
  /-- C is interpreted, at this width -/
  c : Option Width := none
  /-- the register result -/
  dst : Option (Dst × Width) := none
  /-- the sources, the old destination apart -/
  srcs : List (Opnd × Width) := []
  /-- field limits of the instruction's own description -/
  ok : Bool := true

def RmUse.ok (u : RmUse) (rm : BitVec 3) : Bool :=
  match u with
  | .unused => rm == 0
  | .round => rm.toNat ≤ 4
  | .roundRst => rm.toNat ≤ 5
  | .sat => rm.toNat ≤ 1
  | .cp => rm.toNat ≤ 5

/-- R122 to R124: the legal ORDER, USE and SCOPE of each class of access. -/
def OrdUse.ok (u : OrdUse) (p : Pfx) (d : Option (Dst × Width)) : Bool :=
  match u with
  | .unused => p.order == .rlx && p.use == .plain && p.scope == .slice
  | .load =>
    match p.order, p.use with
    | .rlx, .plain => p.scope == .slice
    | .acq, .plain | .rlx, .unp | .rlx, .nonord | .rlx, .spec => true
    | _, _ => false
  | .store =>
    match p.order, p.use with
    | .rlx, .plain => p.scope == .slice
    | .rel, .plain | .rlx, .unp | .rlx, .nonord => true
    | _, _ => false
  | .rmw comm =>
    match p.order, p.use with
    | _, .plain | .rlx, .unp | .rlx, .nonord | .rlx, .quant => true
    | .rlx, .comm => comm && (d.map (·.1) == some .zero)
    | _, _ => false
  | .scope => p.order == .rlx && p.use == .plain
  | .arrive => (p.order == .rlx || p.order == .rel) && p.use == .plain
  | .wait => (p.order == .rlx || p.order == .acq) && p.use == .plain

/-- R232 to R234: the prefix of an instruction. C = 0 means none, so v0 is no fourth operand. -/
def Uses.pfxOk (u : Uses) : Bool :=
  match u.pfx with
  | none => true
  | some p =>
    (u.mask || p.mask == 0) && ((u.mask && u.z) || !p.z) && u.rm.ok p.rm && u.ord.ok p u.dst &&
    (match p.c, u.c with
     | none, _ => true
     | some _, none => false
     | some c, some w => c != .v 0 && c.okAt w)

/-- R238: at most one literal specifier. -/
def Uses.literals (u : Uses) : Nat :=
  ((u.srcs.map (·.1)) ++ (u.pfx.bind (·.c)).toList).countP Opnd.isLit

/-- The operand, literal and prefix checks together. -/
def Uses.wf (u : Uses) : Bool :=
  u.ok && u.pfxOk && u.srcs.all (fun s => s.1.okAt s.2) &&
  (match u.dst with | none => true | some (d, w) => d.okAt w) && decide (u.literals ≤ 1)

/-- ICMP and ICMPI take codes 0 to 5 (R231). -/
def Cond.intOk : Cond → Bool
  | .eq | .ne | .lt | .le | .gt | .ge => true
  | _ => false

/-- The RM use of GRED and SCAN (R275, R276). -/
def GredOp.rm : GredOp → RmUse
  | .addF32 => .round
  | _ => .unused

def ScanOp.rm : ScanOp → RmUse
  | .addF32In => .round
  | _ => .unused

/-- Source, destination and position limits of a conversion (R266). -/
def convOk (src dst : Fmt) (pos : BitVec 3) : Bool :=
  decide (pos.toNat * Nat.min src.bits dst.bits < 32)

/-- A BLOOP counter is a v or o register (R306). -/
def Opnd.isReg : Opnd → Bool
  | .v _ | .o _ => true
  | _ => false

/-- What each instruction with a 32-bit word uses; `none` for a 16-bit form and for a machine step. -/
def Instr.uses : Instr → Option Uses
  | .iadd p t d a b _ | .isub p t d a b _ | .imul p t d a b _ =>
    some { pfx := p, rm := .sat, dst := some (d, t.width), srcs := [(a, t.width), (b, t.width)] }
  | .imulh p t d a b _ | .imin p t d a b _ | .imax p t d a b _ =>
    some { pfx := p, dst := some (d, t.width), srcs := [(a, t.width), (b, t.width)] }
  | .imad p t d a b _ =>
    some { pfx := p, rm := .sat, c := some t.width, dst := some (d, t.width), srcs := [(a, t.width), (b, t.width)] }
  | .icmp p c t k a b _ => some { pfx := p, srcs := [(a, t.width), (b, t.width)], ok := c.intOk && k != 0 }
  | .and p d a b _ | .or p d a b _ | .xor p d a b _ | .andn p d a b _ | .orn p d a b _ | .xnor p d a b _
  | .shl p d a b _ | .shr p d a b _ | .sha p d a b _ | .rotl p d a b _ | .rotr p d a b _
  | .sel p _ d a b _ | .div p _ d a b _ | .rem p _ d a b _ | .bunpk p d a b _ | .shfl p _ d a b _
  | .qmin p d a b _ | .qmax p d a b _ =>
    some { pfx := p, dst := some (d, .one), srcs := [(a, .one), (b, .one)] }
  | .not p d a _ | .popc p d a _ | .clz p d a _ | .ctz p d a _ | .brev p d a _ | .sext8 p d a _ | .sext16 p d a _
  | .zext8 p d a _ | .zext16 p d a _ | .mov p d a _ | .bscale p d a _ | .vote p _ d a _ =>
    some { pfx := p, dst := some (d, .one), srcs := [(a, .one)] }
  | .bfe p d a b _ | .bfi p d a b _ | .perm p d a b _ =>
    some { pfx := p, c := some .one, dst := some (d, .one), srcs := [(a, .one), (b, .one)] }
  | .lea p _ d a b _ => some { pfx := p, dst := some (d, .pair), srcs := [(a, .pair), (b, .one)] }
  | .iabs p d a _ | .ineg p d a _ => some { pfx := p, rm := .sat, dst := some (d, .one), srcs := [(a, .one)] }
  | .iaddi p t d a _ => some { pfx := p, rm := .sat, dst := some (d, t.width), srcs := [(a, t.width)] }
  | .andi p d a _ | .ori p d a _ | .xori p d a _ => some { pfx := p, dst := some (d, .one), srcs := [(a, .one)] }
  | .shli p d a _ | .shri p d a _ | .shai p d a _ | .rotli p d a _ | .rotri p d a _ =>
    some { pfx := p, dst := some (d, .one), srcs := [(a, .one)] }
  | .icmpi p c t k a _ => some { pfx := p, srcs := [(a, t.width)], ok := c.intOk && k != 0 }
  | .fadd p _ d a b _ | .fsub p _ d a b _ | .fmul p _ d a b _ =>
    some { pfx := p, rm := .round, dst := some (d, .one), srcs := [(a, .one), (b, .one)] }
  | .ffma p _ d a b _ =>
    some { pfx := p, rm := .round, c := some .one, dst := some (d, .one), srcs := [(a, .one), (b, .one)] }
  | .fmin p _ d a b _ | .fmax p _ d a b _ =>
    some { pfx := p, dst := some (d, .one), srcs := [(a, .one), (b, .one)] }
  | .fcmp p _ _ k a b _ => some { pfx := p, srcs := [(a, .one), (b, .one)], ok := k != 0 }
  | .fabs p _ d a _ | .fneg p _ d a _ | .ffloor p _ d a _ | .fceil p _ d a _ | .ftrunc p _ d a _ =>
    some { pfx := p, dst := some (d, .one), srcs := [(a, .one)] }
  | .frcp p _ d a _ | .frsq p _ d a _ | .fsqrt p _ d a _ | .fexp2 p _ d a _ | .flog2 p _ d a _ | .fsin p _ d a _
  | .fcos p _ d a _ | .ftanh p _ d a _ | .fsigm p _ d a _ | .frint p _ d a _ =>
    some { pfx := p, rm := .round, dst := some (d, .one), srcs := [(a, .one)] }
  | .fdot2 p t d a b _ =>
    some { pfx := p, rm := .round, c := some .one, dst := some (d, .one), srcs := [(a, .one), (b, .one)],
           ok := t != .f32 }
  | .cvtf p x y pos d a _ =>
    some { pfx := p, rm := if narrows x y then .roundRst else .round, dst := some (d, .one), srcs := [(a, .one)],
           ok := x.isFloat && (y.isFloat || y.isInt) && convOk x y pos }
  | .cvti p x y pos d a _ =>
    some { pfx := p, rm := if y.isInt then .sat else .round, dst := some (d, .one), srcs := [(a, .one)],
           ok := x.isInt && ((y.isFloat && y != .e2m1 && y != .e8m0) || y.isInt) && convOk x y pos }
  | .bpack p d a b _ => some { pfx := p, rm := .roundRst, dst := some (d, .one), srcs := [(a, .one), (b, .one)] }
  | .fmtget d | .mget d _ | .tnextS d | .tnextG d => some { dst := some (d, .one) }
  | .gred p o d a _ => some { pfx := p, rm := o.rm, dst := some (d, .one), srcs := [(a, .one)] }
  | .scan p o d a _ => some { pfx := p, rm := o.rm, dst := some (d, .one), srcs := [(a, .one)] }
  | .mset k a _ => some { srcs := [(a, .one)], ok := k != 0 }
  | .mand k _ _ | .mor k _ _ | .mxor k _ _ | .mnot k _ => some { ok := k != 0 }
  | .bra _ | .call _ _ _ | .ret | .part | .yield | .exit | .home | .nfence | .eret => some {}
  | .bany _ a | .ball _ a | .bnone _ a | .bdiv _ a => some { srcs := [(a, .one)], ok := !a.isLit }
  | .bloop _ a => some { srcs := [(a, .one)], ok := a.isReg }
  | .callIndirect a _ _ => some { srcs := [(a, .pair)] }
  | .unwind a n => some { srcs := [(a, .one)], ok := decide (1 ≤ n.toInt) }
  | .regang tag => some { ok := decide (0 ≤ tag.toInt) }
  | .sleep a | .fmtset a _ | .tfree a _ | .cwait a _ | .trap a | .brk a =>
    some { srcs := [(a, .one)] }
  | .migrate d a _ | .migq d a _ | .spawn d a _ | .tdone d a _ | .tdoneAbandon d a _ | .glaunch d a _
  | .gctlInval d a _ => some { dst := some (d, .one), srcs := [(a, .pair)] }
  | .gctlStatus d a _ | .gctlRelease d a _ | .cseal d a _ | .cpoll d a _ | .sqpop d a | .csrr d a =>
    some { dst := some (d, .one), srcs := [(a, .one)] }
  | .tstat d a _ => some { dst := some (d, .pair), srcs := [(a, .one)] }
  | .gprep d a b _ => some { dst := some (d, .one), srcs := [(a, .pair), (b, .one)] }
  | .gbind d a b _ | .sqpush d a b _ => some { dst := some (d, .one), srcs := [(a, .one), (b, .one)] }
  | .ld p z d a _ => some { pfx := p, rm := .cp, ord := .load, dst := some (d, z.width), srcs := [(a, .pair)] }
  | .st p z d a _ =>
    some { pfx := p, z := false, rm := .cp, ord := .store, srcs := [(d, z.width), (a, .pair)], ok := !d.isLit }
  | .atom p o d a b _ =>
    some { pfx := p, rm := .cp, ord := .rmw (o != .exch), dst := some (d, .one), srcs := [(a, .pair), (b, .one)] }
  | .atomb p o d a b _ =>
    some { pfx := p, rm := .cp, ord := .rmw (o != .cas), c := if o = .cas then some .one else none,
           dst := some (d, o.width), srcs := [(a, .pair), (b, o.width)] }
  | .fence o _ => some { ok := o != .rlx }
  | .bar s => some { ok := s != .slice }
  | .cflush p a _ | .cinv p a _ => some { pfx := p, z := false, ord := .scope, srcs := [(a, .pair)] }
  | .pref p a _ => some { pfx := p, z := false, rm := .cp, srcs := [(a, .pair)] }
  | .pin p d a _ | .unpin p d a _ | .waitw p d a _ =>
    some { pfx := p, dst := some (d, .one), srcs := [(a, .pair)] }
  | .qget p d b => some { pfx := p, dst := some (d, .one), srcs := [(b, .one)] }
  | .qset p a b _ => some { pfx := p, z := false, srcs := [(a, .one), (b, .one)] }
  | .join a _ | .nmc a _ | .mbarInval a _ => some { srcs := [(a, .pair)] }
  | .copy p _ a b _ =>
    some { pfx := p, mask := false, z := false, c := some .pair, srcs := [(a, .pair), (b, .one)] }
  | .copymm c f a b _ =>
    some { srcs := [(c, .pair), (a, .pair), (b, .one)], ok := c != .v 0 && (f == .g2t || f == .g2r) }
  | .accld ⟨p, b⟩ | .accst ⟨p, b⟩ | .accz ⟨p, b⟩ => some { pfx := p, mask := false, z := false, srcs := [(b, .one)] }
  | .tdef a b _ => some { srcs := [(a, .one), (b, .one)] }
  | .mma p a b _ | .mmaz p a b _ =>
    some { pfx := p, mask := false, z := false, c := some .one, srcs := [(a, .one), (b, .one)] }
  | .mbarInit a b _ | .evpost a b _ | .tlbinv a b _ => some { srcs := [(a, .pair), (b, .one)] }
  | .csrw a b _ => some { srcs := [(a, .one), (b, .one)] }
  | .mbarArrive p a b _ =>
    some { pfx := p, mask := false, z := false, ord := .arrive, srcs := [(a, .pair), (b, .one)] }
  | .mbarWait p k a b _ | .mbarTest p k a b _ =>
    some { pfx := p, mask := false, z := false, ord := .wait, srcs := [(a, .pair), (b, .one)], ok := k != 0 }
  | _ => none

/-- The units a machine step may name: compute dies and stacks 0-15 (R12, R358), pseudo-channels 0-63 and banks 0-15
of a stack (R28), bands 0-7 (R54), cores 0-127 (R9), launch queues 0-31 (R357), parts 0-63 (R18). -/
def Instr.unitsOk : Instr → Bool
  | .pageWalk d | .workgroupDispatch d | .chunkSteal d | .timeSlice d | .dieCacheAccess d => decide (d < 16)
  | .mscAccess s | .nmcAccept s | .sequencerStart s => decide (s < 16)
  | .refresh s p b | .activationAlert s p b | .rfmHoldEnd s p b | .bankAccess s p b =>
    decide (s < 16) && decide (p < 64) && decide (b < 16)
  | .packetAccept q => decide (q < 32)
  | .frameResend p | .pairLost p => decide (p < 64)
  | .imageLoad s f | .snkbarArrival s f | .hang s f | .drainComplete s f | .regionRestore s f =>
    decide (s < 16) && decide (f < 8)
  | .mmaComplete c | .midnightTrigger c | .midnightSpill c => decide (c < 128)
  | _ => true

/-- A legal instruction. A 16-bit MOV v0, v0 does not exist: its two words are NOP and an illegal encoding (R235). -/
def Instr.wf (i : Instr) : Bool :=
  match i with
  | .movShort _ b d => b != 0 || d != 0
  | i =>
    match i.uses with
    | some u => u.wf
    | none => i.unitsOk

end Sys2Proof
end

