-- ==== Sys2Proof/Decode.lean ====
section
/-! DEFINITION. Instruction words (spec/11_formats_and_assembly.md R225-R240): the formats, the decoder, which is total
on any bytes and rejects by name, and after it the encoder. -/

namespace Sys2Proof

/-! ### Bytes and words -/

/-- The number that bytes hold, the first at the lowest address (R2). -/
def bytesToNat : List Byte → Nat
  | [] => 0
  | b :: bs => b.toNat + 256 * bytesToNat bs

/-- The n low bytes of a number, lowest first (R2). -/
def natToBytes : Nat → Nat → List Byte
  | 0, _ => []
  | n + 1, x => BitVec.ofNat 8 x :: natToBytes n (x / 256)

/-- The 16-bit little-endian value at the head of a byte list, missing bytes read as zero. -/
def halfOf (bs : List Byte) : Half := BitVec.ofNat 16 (bytesToNat (bs.take 2))

/-- The 32-bit little-endian value at the head of a byte list, missing bytes read as zero. -/
def wordOf (bs : List Byte) : Word := BitVec.ofNat 32 (bytesToNat (bs.take 4))

def halfBytes (h : Half) : List Byte := natToBytes 2 h.toNat
def wordBytes (w : Word) : List Byte := natToBytes 4 w.toNat

/-! ### The fields of a 32-bit word (R229) -/

/-- The V format; the other formats divide the same places (R229). -/
structure Fields where
  b : BitVec 7
  a : BitVec 7
  d : BitVec 7
  h : Bool
  fn : BitVec 3
  maj : BitVec 6
  deriving DecidableEq, Repr

/-- The word that holds the fields, with bit [0] = 1. -/
def Fields.word (f : Fields) : Word := f.b ++ f.a ++ f.d ++ BitVec.ofBool f.h ++ f.fn ++ f.maj ++ 1#1

def Fields.ofWord (w : Word) : Fields :=
  { b := w.extractLsb' 25 7, a := w.extractLsb' 18 7, d := w.extractLsb' 11 7, h := w.getLsbD 10,
    fn := w.extractLsb' 7 3, maj := w.extractLsb' 1 6 }

/-- IMM8 stands in the B field with its top bit in H's place (R229). -/
def Fields.imm (f : Fields) : BitVec 8 := BitVec.ofBool f.h ++ f.b

/-- OFF14 of formats B and F (R229). -/
def Fields.off (f : Fields) : BitVec 14 := f.b ++ f.a

/-- DEMAND of format F (R229, R312). -/
def Fields.demand (f : Fields) : BitVec 4 := f.d.extractLsb' 0 3 ++ BitVec.ofBool f.h

/-- ARGS of format F, and the condition field of a compare (R229, R231). -/
def Fields.dHigh (f : Fields) : BitVec 4 := f.d.extractLsb' 3 4

/-- The mask number in D[2:0] (R229). -/
def Fields.dLow (f : Fields) : BitVec 3 := f.d.extractLsb' 0 3

/-! ### Codes -/

/-- R236: the source specifier of a 7-bit code; 126 is illegal. -/
def Opnd.ofCode (lit : Word) (c : BitVec 7) : Option Opnd :=
  if h : c.toNat < 96 then some (.v ⟨c.toNat, h⟩)
  else if h : c.toNat - 96 < 16 then some (.o ⟨c.toNat - 96, h⟩)
  else if h : c.toNat - 112 < 4 then some (.l ⟨c.toNat - 112, h⟩)
  else if h : c.toNat - 116 < 3 then some (.k ⟨c.toNat - 116, h⟩)
  else match c.toNat with
    | 119 => some .zero
    | 120 => some .lane
    | 121 => some .slice
    | 122 => some .group
    | 123 => some .work
    | 124 => some .core
    | 125 => some .clock
    | 127 => some (.lit lit)
    | _ => none

def Opnd.code : Opnd → BitVec 7
  | .v i => BitVec.ofNat 7 i.val
  | .o i => BitVec.ofNat 7 (96 + i.val)
  | .l i => BitVec.ofNat 7 (112 + i.val)
  | .k i => BitVec.ofNat 7 (116 + i.val)
  | .zero => 119
  | .lane => 120
  | .slice => 121
  | .group => 122
  | .work => 123
  | .core => 124
  | .clock => 125
  | .lit _ => 127

/-- R236: the destination specifier of a 7-bit code. -/
def Dst.ofCode (c : BitVec 7) : Option Dst :=
  if h : c.toNat < 96 then some (.v ⟨c.toNat, h⟩)
  else if h : c.toNat - 96 < 16 then some (.o ⟨c.toNat - 96, h⟩)
  else if c.toNat = 119 then some .zero else none

def Dst.code : Dst → BitVec 7
  | .v i => BitVec.ofNat 7 i.val
  | .o i => BitVec.ofNat 7 (96 + i.val)
  | .zero => 119

def Order.ofCode (c : BitVec 2) : Order :=
  match c.toNat with
  | 0 => .rlx
  | 1 => .acq
  | 2 => .rel
  | _ => .ar

def Order.code : Order → BitVec 2
  | .rlx => 0
  | .acq => 1
  | .rel => 2
  | .ar => 3

/-- R120; code 7 is illegal. -/
def Scope.ofCode (c : BitVec 3) : Option Scope :=
  match c.toNat with
  | 0 => some .slice
  | 1 => some .grp
  | 2 => some .core
  | 3 => some .quad
  | 4 => some .die
  | 5 => some .pkg
  | 6 => some .pod
  | _ => none

def Scope.code : Scope → BitVec 3
  | .slice => 0
  | .grp => 1
  | .core => 2
  | .quad => 3
  | .die => 4
  | .pkg => 5
  | .pod => 6

/-- R123, R139; codes 6 and 7 are illegal. -/
def Use.ofCode (c : BitVec 3) : Option Use :=
  match c.toNat with
  | 0 => some .plain
  | 1 => some .unp
  | 2 => some .comm
  | 3 => some .nonord
  | 4 => some .quant
  | 5 => some .spec
  | _ => none

def Use.code : Use → BitVec 3
  | .plain => 0
  | .unp => 1
  | .comm => 2
  | .nonord => 3
  | .quant => 4
  | .spec => 5

/-- Integer type codes (R250). -/
def IType.ofCode (c : BitVec 3) : IType :=
  match c.toNat with
  | 0 => .i32
  | 1 => .n32
  | 2 => .i16x2
  | 3 => .n16x2
  | 4 => .i64
  | 5 => .n64
  | 6 => .i8x4
  | _ => .n8x4

def IType.code : IType → BitVec 3
  | .i32 => 0
  | .n32 => 1
  | .i16x2 => 2
  | .n16x2 => 3
  | .i64 => 4
  | .n64 => 5
  | .i8x4 => 6
  | .n8x4 => 7

def FType.ofCode (c : BitVec 3) : Option FType :=
  match c.toNat with
  | 0 => some .f32
  | 1 => some .bf16x2
  | 2 => some .f16x2
  | _ => none

def FType.code : FType → BitVec 3
  | .f32 => 0
  | .bf16x2 => 1
  | .f16x2 => 2

/-- R231. -/
def Cond.ofCode (c : BitVec 4) : Option Cond :=
  match c.toNat with
  | 0 => some .eq
  | 1 => some .ne
  | 2 => some .lt
  | 3 => some .le
  | 4 => some .gt
  | 5 => some .ge
  | 6 => some .ueq
  | 7 => some .ult
  | 8 => some .ule
  | 9 => some .ugt
  | 10 => some .uge
  | 11 => some .uno
  | 12 => some .ord
  | _ => none

def Cond.code : Cond → BitVec 4
  | .eq => 0
  | .ne => 1
  | .lt => 2
  | .le => 3
  | .gt => 4
  | .ge => 5
  | .ueq => 6
  | .ult => 7
  | .ule => 8
  | .ugt => 9
  | .uge => 10
  | .uno => 11
  | .ord => 12

/-- R194. -/
def Fmt.ofCode (n : Nat) : Option Fmt :=
  match n with
  | 0 => some .f32
  | 1 => some .bf16
  | 2 => some .f16
  | 3 => some .e4m3
  | 4 => some .e5m2
  | 5 => some .e2m1
  | 6 => some .e8m0
  | 7 => some .i32
  | 8 => some .n32
  | 9 => some .i16
  | 10 => some .n16
  | 11 => some .i8
  | 12 => some .n8
  | 13 => some .pred
  | 14 => some .coord
  | 15 => some .any
  | _ => none

def Fmt.code : Fmt → Nat
  | .f32 => 0
  | .bf16 => 1
  | .f16 => 2
  | .e4m3 => 3
  | .e5m2 => 4
  | .e2m1 => 5
  | .e8m0 => 6
  | .i32 => 7
  | .n32 => 8
  | .i16 => 9
  | .n16 => 10
  | .i8 => 11
  | .n8 => 12
  | .pred => 13
  | .coord => 14
  | .any => 15

def ShflMode.code : ShflMode → BitVec 3
  | .idx => 0
  | .up => 1
  | .down => 2
  | .xor => 3

def VoteMode.code : VoteMode → BitVec 3
  | .any => 0
  | .all => 1
  | .ballot => 2
  | .count => 3

def GredOp.code : GredOp → BitVec 3
  | .addI32 => 0
  | .minI32 => 1
  | .maxI32 => 2
  | .addF32 => 3
  | .minF32 => 4
  | .maxF32 => 5

def ScanOp.code : ScanOp → BitVec 3
  | .addI32Ex => 0
  | .addI32In => 1
  | .addF32In => 2

def LdSize.code : LdSize → BitVec 3
  | .n8 => 0
  | .i8 => 1
  | .n16 => 2
  | .i16 => 3
  | .w32 => 4
  | .w64 => 5
  | .w128 => 6

def StSize.code : StSize → BitVec 3
  | .b8 => 0
  | .b16 => 2
  | .w32 => 4
  | .w64 => 5
  | .w128 => 6

def AtomOp.code : AtomOp → BitVec 3
  | .addI32 => 0
  | .addF32 => 1
  | .addBf16x2 => 2
  | .minI32 => 3
  | .maxI32 => 4
  | .minN32 => 5
  | .maxN32 => 6
  | .exch => 7

def AtombOp.code : AtombOp → BitVec 3
  | .and => 0
  | .or => 1
  | .xor => 2
  | .cas => 3
  | .addI64 => 4
  | .minF32 => 5
  | .maxF32 => 6

def CopyDir.ofCode (n : Nat) : Option CopyDir :=
  match n with
  | 0 => some .g2t
  | 1 => some .t2g
  | 2 => some .g2r
  | 3 => some .t2r
  | 4 => some .g2g
  | 5 => some .t2s
  | _ => none

def CopyDir.code : CopyDir → BitVec 3
  | .g2t => 0
  | .t2g => 1
  | .g2r => 2
  | .t2r => 3
  | .g2g => 4
  | .t2s => 5

/-! ### The prefix (R232) -/

/-- C = 0 means none is given. -/
def cOfCode (lit : Word) (c : BitVec 7) : Option (Option Opnd) :=
  if c = 0 then some none else (Opnd.ofCode lit c).map some

def cCode : Option Opnd → BitVec 7
  | none => 0
  | some o => o.code

/-- Whether a 32-bit word is a prefix: MAJ 0x3F. -/
def isPrefix (w : Word) : Bool := w.extractLsb' 1 6 == 0x3F#6

def Pfx.ofWord (lit : Word) (w : Word) : Option Pfx :=
  if w.extractLsb' 29 3 != 0#3 then none
  else do
    let use ← Use.ofCode (w.extractLsb' 26 3)
    let scope ← Scope.ofCode (w.extractLsb' 21 3)
    let c ← cOfCode lit (w.extractLsb' 14 7)
    return { use := use, order := Order.ofCode (w.extractLsb' 24 2), scope := scope, c := c,
             rm := w.extractLsb' 11 3, z := w.getLsbD 10, mask := w.extractLsb' 7 3 }

def Pfx.word (p : Pfx) : Word :=
  0#3 ++ p.use.code ++ p.order.code ++ p.scope.code ++ cCode p.c ++ p.rm ++ BitVec.ofBool p.z ++ p.mask ++ 0x3F#6 ++ 1#1

/-! ### The opcode map (R239) -/

/-- The parts of a 32-bit instruction before its map is applied. -/
structure Raw where
  p : Option Pfx
  lit : Word
  f : Fields

def Raw.A (r : Raw) : Option Opnd := Opnd.ofCode r.lit r.f.a
def Raw.B (r : Raw) : Option Opnd := Opnd.ofCode r.lit r.f.b
def Raw.D (r : Raw) : Option Dst := Dst.ofCode r.f.d
/-- D as a source, in ST. -/
def Raw.S (r : Raw) : Option Opnd := Opnd.ofCode r.lit r.f.d

def Raw.dab (r : Raw) (k : Dst → Opnd → Opnd → Bool → Instr) : Option Instr := do
  return k (← r.D) (← r.A) (← r.B) r.f.h
def Raw.da (r : Raw) (k : Dst → Opnd → Bool → Instr) : Option Instr := do
  return k (← r.D) (← r.A) r.f.h
def Raw.db (r : Raw) (k : Dst → Opnd → Instr) : Option Instr := do
  return k (← r.D) (← r.B)
def Raw.ab (r : Raw) (k : Opnd → Opnd → Bool → Instr) : Option Instr := do
  return k (← r.A) (← r.B) r.f.h
def Raw.dai (r : Raw) (k : Dst → Opnd → BitVec 8 → Instr) : Option Instr := do
  return k (← r.D) (← r.A) r.f.imm
def Raw.a1 (r : Raw) (k : Opnd → Bool → Instr) : Option Instr := do
  return k (← r.A) r.f.h
def Raw.b1 (r : Raw) (k : Opnd → Instr) : Option Instr := do
  return k (← r.B)
def Raw.d1 (r : Raw) (k : Dst → Instr) : Option Instr := do
  return k (← r.D)

/-- A conversion: destination code in B[3:0], position in B[6:4] (R266). -/
def Raw.conv (r : Raw) (code : Nat) (k : Fmt → Fmt → BitVec 3 → Dst → Opnd → Bool → Instr) : Option Instr := do
  let x ← Fmt.ofCode code
  let y ← Fmt.ofCode (r.f.b.extractLsb' 0 4).toNat
  r.da (k x y (r.f.b.extractLsb' 4 3))

/-- SHIFTI takes IMM8 0 to 31 (R257). -/
def Raw.shift (r : Raw) (k : Dst → Opnd → BitVec 5 → Instr) : Option Instr :=
  if r.f.imm.toNat < 32 then do return k (← r.D) (← r.A) (r.f.imm.extractLsb' 0 5) else none

/-- MAJ 0x08 to 0x0E. -/
def Raw.logicGroup (r : Raw) : Option Instr :=
  match r.f.maj.toNat, r.f.fn.toNat with
  | 0x08, 0 => r.dab (.and r.p)
  | 0x08, 1 => r.dab (.or r.p)
  | 0x08, 2 => r.dab (.xor r.p)
  | 0x08, 3 => r.dab (.andn r.p)
  | 0x08, 4 => r.dab (.orn r.p)
  | 0x08, 5 => r.dab (.xnor r.p)
  | 0x08, 6 => r.da (.not r.p)
  | 0x09, 0 => r.dab (.shl r.p)
  | 0x09, 1 => r.dab (.shr r.p)
  | 0x09, 2 => r.dab (.sha r.p)
  | 0x09, 3 => r.dab (.rotl r.p)
  | 0x09, 4 => r.dab (.rotr r.p)
  | 0x0A, 0 => r.da (.popc r.p)
  | 0x0A, 1 => r.da (.clz r.p)
  | 0x0A, 2 => r.da (.ctz r.p)
  | 0x0A, 3 => r.da (.brev r.p)
  | 0x0A, 4 => r.dab (.bfe r.p)
  | 0x0A, 5 => r.dab (.bfi r.p)
  | 0x0A, 6 => r.dab (.perm r.p)
  | 0x0B, _ => r.dab (.sel r.p r.f.fn)
  | 0x0C, _ => r.dab (.lea r.p r.f.fn)
  | 0x0D, 0 => r.dab (.div r.p false)
  | 0x0D, 1 => r.dab (.div r.p true)
  | 0x0D, 2 => r.dab (.rem r.p false)
  | 0x0D, 3 => r.dab (.rem r.p true)
  | 0x0E, 0 => r.da (.iabs r.p)
  | 0x0E, 1 => r.da (.ineg r.p)
  | 0x0E, 2 => r.da (.sext8 r.p)
  | 0x0E, 3 => r.da (.sext16 r.p)
  | 0x0E, 4 => r.da (.zext8 r.p)
  | 0x0E, 5 => r.da (.zext16 r.p)
  | 0x0E, 6 => r.da (.mov r.p)
  | _, _ => none

/-- MAJ 0x00 to 0x07 and 0x10 to 0x13. -/
def Raw.intGroup (r : Raw) : Option Instr :=
  match r.f.maj.toNat, r.f.fn.toNat with
  | 0x00, _ => r.dab (.iadd r.p (IType.ofCode r.f.fn))
  | 0x01, _ => r.dab (.isub r.p (IType.ofCode r.f.fn))
  | 0x02, _ => r.dab (.imul r.p (IType.ofCode r.f.fn))
  | 0x03, _ => r.dab (.imulh r.p (IType.ofCode r.f.fn))
  | 0x04, _ => r.dab (.imad r.p (IType.ofCode r.f.fn))
  | 0x05, _ => r.dab (.imin r.p (IType.ofCode r.f.fn))
  | 0x06, _ => r.dab (.imax r.p (IType.ofCode r.f.fn))
  | 0x07, _ => do
    let c ← Cond.ofCode r.f.dHigh
    r.ab (.icmp r.p c (IType.ofCode r.f.fn) r.f.dLow)
  | 0x10, _ => r.dai (.iaddi r.p (IType.ofCode r.f.fn))
  | 0x11, 0 => r.dai (.andi r.p)
  | 0x11, 1 => r.dai (.ori r.p)
  | 0x11, 2 => r.dai (.xori r.p)
  | 0x12, 0 => r.shift (.shli r.p)
  | 0x12, 1 => r.shift (.shri r.p)
  | 0x12, 2 => r.shift (.shai r.p)
  | 0x12, 3 => r.shift (.rotli r.p)
  | 0x12, 4 => r.shift (.rotri r.p)
  | 0x13, _ => do
    let c ← Cond.ofCode r.f.dHigh
    return .icmpi r.p c (IType.ofCode r.f.fn) r.f.dLow (← r.A) r.f.imm
  | _, _ => none

/-- MAJ 0x14 to 0x1F. -/
def Raw.floatGroup (r : Raw) : Option Instr := do
  match r.f.maj.toNat, r.f.fn.toNat with
  | 0x1D, n => if n < 7 then r.conv n (.cvtf r.p) else none
  | 0x1E, n => if n < 6 then r.conv (n + 7) (.cvti r.p) else none
  | 0x1F, 0 => r.da (.bscale r.p)
  | 0x1F, 1 => r.dab (.bpack r.p)
  | 0x1F, 2 => r.dab (.bunpk r.p)
  | 0x1F, 3 => r.a1 .fmtset
  | 0x1F, 4 => r.d1 .fmtget
  | 0x1F, _ => none
  | m, _ =>
    let t ← FType.ofCode r.f.fn
    match m with
    | 0x14 => r.dab (.fadd r.p t)
    | 0x15 => r.dab (.fsub r.p t)
    | 0x16 => r.dab (.fmul r.p t)
    | 0x17 => r.dab (.ffma r.p t)
    | 0x18 => r.dab (.fmin r.p t)
    | 0x19 => r.dab (.fmax r.p t)
    | 0x1A => do
      let c ← Cond.ofCode r.f.dHigh
      r.ab (.fcmp r.p c t r.f.dLow)
    | 0x1B =>
      match r.f.b.toNat with
      | 0 => r.da (.fabs r.p t)
      | 1 => r.da (.fneg r.p t)
      | 2 => r.da (.frcp r.p t)
      | 3 => r.da (.frsq r.p t)
      | 4 => r.da (.fsqrt r.p t)
      | 5 => r.da (.fexp2 r.p t)
      | 6 => r.da (.flog2 r.p t)
      | 7 => r.da (.fsin r.p t)
      | 8 => r.da (.fcos r.p t)
      | 9 => r.da (.ftanh r.p t)
      | 10 => r.da (.fsigm r.p t)
      | 11 => r.da (.ffloor r.p t)
      | 12 => r.da (.fceil r.p t)
      | 13 => r.da (.ftrunc r.p t)
      | 14 => r.da (.frint r.p t)
      | _ => none
    | 0x1C => r.dab (.fdot2 r.p t)
    | _ => none

/-- A mask field: [6:3] zero, the mask number in [2:0] (R278). -/
def maskField (c : BitVec 7) : BitVec 3 := c.extractLsb' 0 3

/-- MAJ 0x20 to 0x24. -/
def Raw.laneGroup (r : Raw) : Option Instr :=
  match r.f.maj.toNat, r.f.fn.toNat with
  | 0x20, 0 => r.dab (.shfl r.p .idx)
  | 0x20, 1 => r.dab (.shfl r.p .up)
  | 0x20, 2 => r.dab (.shfl r.p .down)
  | 0x20, 3 => r.dab (.shfl r.p .xor)
  | 0x21, 0 => r.da (.vote r.p .any)
  | 0x21, 1 => r.da (.vote r.p .all)
  | 0x21, 2 => r.da (.vote r.p .ballot)
  | 0x21, 3 => r.da (.vote r.p .count)
  | 0x22, 0 => r.da (.gred r.p .addI32)
  | 0x22, 1 => r.da (.gred r.p .minI32)
  | 0x22, 2 => r.da (.gred r.p .maxI32)
  | 0x22, 3 => r.da (.gred r.p .addF32)
  | 0x22, 4 => r.da (.gred r.p .minF32)
  | 0x22, 5 => r.da (.gred r.p .maxF32)
  | 0x23, 0 => r.a1 (.mset (maskField r.f.d))
  | 0x23, 1 => do return .mget (← r.D) (maskField r.f.a)
  | 0x23, 2 => some (.mand (maskField r.f.d) (maskField r.f.a) (maskField r.f.b))
  | 0x23, 3 => some (.mor (maskField r.f.d) (maskField r.f.a) (maskField r.f.b))
  | 0x23, 4 => some (.mnot (maskField r.f.d) (maskField r.f.a))
  | 0x23, 5 => some (.mxor (maskField r.f.d) (maskField r.f.a) (maskField r.f.b))
  | 0x24, 0 => r.da (.scan r.p .addI32Ex)
  | 0x24, 1 => r.da (.scan r.p .addI32In)
  | 0x24, 2 => r.da (.scan r.p .addF32In)
  | _, _ => none

/-- The condition register of a branch stands in D's place (R229). -/
def Raw.branch (r : Raw) (k : BitVec 14 → Opnd → Instr) : Option Instr := do
  return k r.f.off (← r.S)

/-- MAJ 0x28 to 0x2C and 0x36 to 0x37. -/
def Raw.controlGroup (r : Raw) : Option Instr :=
  match r.f.maj.toNat, r.f.fn.toNat with
  | 0x28, 0 => some (.bra r.f.off)
  | 0x28, 1 => r.branch .bany
  | 0x28, 2 => r.branch .ball
  | 0x28, 3 => r.branch .bnone
  | 0x28, 4 => r.branch .bloop
  | 0x28, 5 => r.branch .bdiv
  | 0x29, 0 => some (.call r.f.off r.f.dHigh r.f.demand)
  | 0x29, 1 => do return .callIndirect (← r.A) r.f.dHigh r.f.demand
  | 0x2A, 0 => some .ret
  | 0x2A, 1 => do return .unwind (← r.A) r.f.imm
  | 0x2B, 0 => some (.regang r.f.imm)
  | 0x2B, 1 => some .part
  | 0x2B, 2 => some .yield
  | 0x2B, 3 => some .exit
  | 0x2B, 4 => do return .sleep (← r.A)
  | 0x2C, 0 => r.da .migrate
  | 0x2C, 1 => some .home
  | 0x2C, 2 => r.da .migq
  | 0x36, 0 => r.da .spawn
  | 0x36, 1 => r.a1 .join
  | 0x36, 2 =>
    match r.f.b.toNat with
    | 0 => r.da .tdone
    | 1 => r.da .tdoneAbandon
    | _ => none
  | 0x36, 3 =>
    match r.f.b.toNat with
    | 0 => r.d1 .tnextS
    | 1 => r.d1 .tnextG
    | _ => none
  | 0x37, 0 => r.da .glaunch
  | 0x37, 1 => r.dab .gprep
  | 0x37, 2 => r.dab .gbind
  | 0x37, 3 => r.dab .sqpush
  | 0x37, 4 => r.db .sqpop
  | 0x37, 5 => r.a1 .nmc
  | 0x37, 6 => some .nfence
  | 0x37, 7 =>
    match r.f.b.toNat with
    | 0 => r.da .gctlStatus
    | 1 => r.da .gctlRelease
    | 2 => r.da .gctlInval
    | _ => none
  | _, _ => none

def Raw.stOp (r : Raw) (z : StSize) : Option Instr := do
  return .st r.p z (← r.S) (← r.A) r.f.imm

def Raw.mem (r : Raw) (k : Opnd → BitVec 8 → Instr) : Option Instr := do
  return k (← r.A) r.f.imm

/-- ORDER and SCOPE of the prefix, rlx and slice without one. -/
def Raw.order (r : Raw) : Order := (r.p.map (·.order)).getD .rlx
def Raw.scope (r : Raw) : Scope := (r.p.map (·.scope)).getD .slice

/-- MAJ 0x30 to 0x35. -/
def Raw.memGroup (r : Raw) : Option Instr :=
  match r.f.maj.toNat, r.f.fn.toNat with
  | 0x30, 0 => r.dai (.ld r.p .n8)
  | 0x30, 1 => r.dai (.ld r.p .i8)
  | 0x30, 2 => r.dai (.ld r.p .n16)
  | 0x30, 3 => r.dai (.ld r.p .i16)
  | 0x30, 4 => r.dai (.ld r.p .w32)
  | 0x30, 5 => r.dai (.ld r.p .w64)
  | 0x30, 6 => r.dai (.ld r.p .w128)
  | 0x31, 0 => r.stOp .b8
  | 0x31, 2 => r.stOp .b16
  | 0x31, 4 => r.stOp .w32
  | 0x31, 5 => r.stOp .w64
  | 0x31, 6 => r.stOp .w128
  | 0x32, 0 => r.dab (.atom r.p .addI32)
  | 0x32, 1 => r.dab (.atom r.p .addF32)
  | 0x32, 2 => r.dab (.atom r.p .addBf16x2)
  | 0x32, 3 => r.dab (.atom r.p .minI32)
  | 0x32, 4 => r.dab (.atom r.p .maxI32)
  | 0x32, 5 => r.dab (.atom r.p .minN32)
  | 0x32, 6 => r.dab (.atom r.p .maxN32)
  | 0x32, 7 => r.dab (.atom r.p .exch)
  | 0x33, 0 => r.dab (.atomb r.p .and)
  | 0x33, 1 => r.dab (.atomb r.p .or)
  | 0x33, 2 => r.dab (.atomb r.p .xor)
  | 0x33, 3 => r.dab (.atomb r.p .cas)
  | 0x33, 4 => r.dab (.atomb r.p .addI64)
  | 0x33, 5 => r.dab (.atomb r.p .minF32)
  | 0x33, 6 => r.dab (.atomb r.p .maxF32)
  | 0x34, 0 => some (.fence r.order r.scope)
  | 0x34, 1 => r.mem (.cflush r.p)
  | 0x34, 2 => r.mem (.cinv r.p)
  | 0x34, 3 => r.dai (.pin r.p)
  | 0x34, 4 => r.dai (.unpin r.p)
  | 0x34, 5 => r.mem (.pref r.p)
  | 0x34, 6 => r.dai (.waitw r.p)
  | 0x35, 0 => r.dab (.qmin r.p)
  | 0x35, 1 => r.dab (.qmax r.p)
  | 0x35, 2 => r.db (.qget r.p)
  | 0x35, 3 => r.ab (.qset r.p)
  | _, _ => none

/-- MAJ 0x38 to 0x3E. -/
def Raw.unitGroup (r : Raw) : Option Instr :=
  match r.f.maj.toNat, r.f.fn.toNat with
  | 0x38, n => do
    let f ← CopyDir.ofCode n
    r.ab (.copy r.p f)
  | 0x39, n => do
    let f ← CopyDir.ofCode n
    let c ← r.p.bind (·.c)
    r.ab (.copymm c f)
  | 0x3A, 0 => r.ab .tdef
  | 0x3A, 1 => r.a1 .tfree
  | 0x3A, 2 => r.da .tstat
  | 0x3A, 3 => r.da .cseal
  | 0x3A, 4 => r.a1 .cwait
  | 0x3A, 5 => r.da .cpoll
  | 0x3B, 0 => r.ab (.mma r.p)
  | 0x3B, 1 => r.ab (.mmaz r.p)
  | 0x3B, 2 => r.b1 fun b => .accld ⟨r.p, b⟩
  | 0x3B, 3 => r.b1 fun b => .accst ⟨r.p, b⟩
  | 0x3B, 4 => r.b1 fun b => .accz ⟨r.p, b⟩
  | 0x3C, 0 => some (.bar r.scope)
  | 0x3C, 1 => r.ab .mbarInit
  | 0x3C, 2 => r.ab (.mbarArrive r.p)
  | 0x3C, 3 => r.ab (.mbarWait r.p r.f.dLow)
  | 0x3C, 4 => r.a1 .mbarInval
  | 0x3C, 5 => r.ab (.mbarTest r.p r.f.dLow)
  | 0x3E, 0 => r.db .csrr
  | 0x3E, 1 => r.ab .csrw
  | 0x3E, 2 => r.b1 .trap
  | 0x3E, 3 => some .eret
  | 0x3E, 4 => r.ab .evpost
  | 0x3E, 5 => r.ab .tlbinv
  | 0x3E, 6 => r.b1 .brk
  | _, _ => none

/-- The map of R239 applied to the fields; `none` for a reserved MAJ, FN, function, format or condition code, or a
specifier the place does not admit. -/
def Raw.instr (r : Raw) : Option Instr :=
  if r.f.maj.toNat < 0x08 then r.intGroup
  else if r.f.maj.toNat < 0x10 then r.logicGroup
  else if r.f.maj.toNat < 0x14 then r.intGroup
  else if r.f.maj.toNat < 0x20 then r.floatGroup
  else if r.f.maj.toNat < 0x28 then r.laneGroup
  else if r.f.maj.toNat < 0x30 then r.controlGroup
  else if r.f.maj.toNat < 0x36 then r.memGroup
  else if r.f.maj.toNat < 0x38 then r.controlGroup
  else r.unitGroup

/-! ### The 16-bit format (R235) -/

def shortInstr (h : Half) : Option Instr :=
  let hold := h.getLsbD 15
  let b : Fin 32 := (h.extractLsb' 10 5).toFin
  let d : Fin 32 := (h.extractLsb' 5 5).toFin
  if h = 0x0000#16 then some .nop
  else if h = 0x8000#16 then none
  else match (h.extractLsb' 1 4).toNat with
    | 0 => some (.movShort hold b d)
    | 1 => some (.iaddShort hold b d)
    | 2 => some (.isubShort hold b d)
    | 3 => some (.imulShort hold b d)
    | 4 => some (.andShort hold b d)
    | 5 => some (.orShort hold b d)
    | 6 => some (.xorShort hold b d)
    | 7 => some (.shlShort hold b d)
    | 8 => some (.shrShort hold b d)
    | 9 => some (.shaShort hold b d)
    | 10 => some (.faddShort hold b d)
    | 11 => some (.fsubShort hold b d)
    | 12 => some (.fmulShort hold b d)
    | 13 => some (.fmaxShort hold b d)
    | 14 => some (.fminShort hold b d)
    | _ => some (.iaddi5Short hold (h.extractLsb' 10 5) d)

/-! ### The encoder's tables: the fields of each instruction (R229, R235, R239) -/

/-- A base word or a halfword; a machine step has neither. -/
inductive Base where
  | word (f : Fields)
  | half (h : Half)
  | step
  deriving DecidableEq, Repr

def enc (maj fn : Nat) (d a b : BitVec 7) (h : Bool) : Base :=
  .word { b := b, a := a, d := d, h := h, fn := BitVec.ofNat 3 fn, maj := BitVec.ofNat 6 maj }

/-- I and M formats: IMM8 in B and H (R229). -/
def encImm (maj fn : Nat) (d a : BitVec 7) (i : BitVec 8) : Base :=
  enc maj fn d a (i.extractLsb' 0 7) (i.getLsbD 7)

/-- B and F formats: OFF14 in B and A (R229). -/
def encOff (maj fn : Nat) (o : BitVec 14) (d : BitVec 7) (h : Bool) : Base :=
  enc maj fn d (o.extractLsb' 0 7) (o.extractLsb' 7 7) h

/-- ARGS and DEMAND of format F: the D field and H (R229). -/
def encArgs (args demand : BitVec 4) : BitVec 7 := args ++ demand.extractLsb' 1 3

def condD (c : Cond) (k : BitVec 3) : BitVec 7 := c.code ++ k
def convB (y : Fmt) (pos : BitVec 3) : BitVec 7 := pos ++ BitVec.ofNat 4 y.code
def maskCode (k : BitVec 3) : BitVec 7 := 0#4 ++ k
def encShort (op : Nat) (h : Bool) (b d : BitVec 5) : Base :=
  .half (BitVec.ofBool h ++ b ++ d ++ BitVec.ofNat 4 op ++ 0#1)
def fin5 (x : Fin 32) : BitVec 5 := BitVec.ofFin x
def imm5 (n : BitVec 5) : BitVec 8 := 0#3 ++ n

/-- The base of each instruction. -/
def Instr.base : Instr → Base
  | .iadd _ t d a b h => enc 0x00 t.code.toNat d.code a.code b.code h
  | .isub _ t d a b h => enc 0x01 t.code.toNat d.code a.code b.code h
  | .imul _ t d a b h => enc 0x02 t.code.toNat d.code a.code b.code h
  | .imulh _ t d a b h => enc 0x03 t.code.toNat d.code a.code b.code h
  | .imad _ t d a b h => enc 0x04 t.code.toNat d.code a.code b.code h
  | .imin _ t d a b h => enc 0x05 t.code.toNat d.code a.code b.code h
  | .imax _ t d a b h => enc 0x06 t.code.toNat d.code a.code b.code h
  | .icmp _ c t k a b h => enc 0x07 t.code.toNat (condD c k) a.code b.code h
  | .and _ d a b h => enc 0x08 0 d.code a.code b.code h
  | .or _ d a b h => enc 0x08 1 d.code a.code b.code h
  | .xor _ d a b h => enc 0x08 2 d.code a.code b.code h
  | .andn _ d a b h => enc 0x08 3 d.code a.code b.code h
  | .orn _ d a b h => enc 0x08 4 d.code a.code b.code h
  | .xnor _ d a b h => enc 0x08 5 d.code a.code b.code h
  | .not _ d a h => enc 0x08 6 d.code a.code 0 h
  | .shl _ d a b h => enc 0x09 0 d.code a.code b.code h
  | .shr _ d a b h => enc 0x09 1 d.code a.code b.code h
  | .sha _ d a b h => enc 0x09 2 d.code a.code b.code h
  | .rotl _ d a b h => enc 0x09 3 d.code a.code b.code h
  | .rotr _ d a b h => enc 0x09 4 d.code a.code b.code h
  | .popc _ d a h => enc 0x0A 0 d.code a.code 0 h
  | .clz _ d a h => enc 0x0A 1 d.code a.code 0 h
  | .ctz _ d a h => enc 0x0A 2 d.code a.code 0 h
  | .brev _ d a h => enc 0x0A 3 d.code a.code 0 h
  | .bfe _ d a b h => enc 0x0A 4 d.code a.code b.code h
  | .bfi _ d a b h => enc 0x0A 5 d.code a.code b.code h
  | .perm _ d a b h => enc 0x0A 6 d.code a.code b.code h
  | .sel _ k d a b h => enc 0x0B k.toNat d.code a.code b.code h
  | .lea _ n d a b h => enc 0x0C n.toNat d.code a.code b.code h
  | .div _ u d a b h => enc 0x0D (if u then 1 else 0) d.code a.code b.code h
  | .rem _ u d a b h => enc 0x0D (if u then 3 else 2) d.code a.code b.code h
  | .iabs _ d a h => enc 0x0E 0 d.code a.code 0 h
  | .ineg _ d a h => enc 0x0E 1 d.code a.code 0 h
  | .sext8 _ d a h => enc 0x0E 2 d.code a.code 0 h
  | .sext16 _ d a h => enc 0x0E 3 d.code a.code 0 h
  | .zext8 _ d a h => enc 0x0E 4 d.code a.code 0 h
  | .zext16 _ d a h => enc 0x0E 5 d.code a.code 0 h
  | .mov _ d a h => enc 0x0E 6 d.code a.code 0 h
  | .iaddi _ t d a i => encImm 0x10 t.code.toNat d.code a.code i
  | .andi _ d a i => encImm 0x11 0 d.code a.code i
  | .ori _ d a i => encImm 0x11 1 d.code a.code i
  | .xori _ d a i => encImm 0x11 2 d.code a.code i
  | .shli _ d a n => encImm 0x12 0 d.code a.code (imm5 n)
  | .shri _ d a n => encImm 0x12 1 d.code a.code (imm5 n)
  | .shai _ d a n => encImm 0x12 2 d.code a.code (imm5 n)
  | .rotli _ d a n => encImm 0x12 3 d.code a.code (imm5 n)
  | .rotri _ d a n => encImm 0x12 4 d.code a.code (imm5 n)
  | .icmpi _ c t k a i => encImm 0x13 t.code.toNat (condD c k) a.code i
  | .fadd _ t d a b h => enc 0x14 t.code.toNat d.code a.code b.code h
  | .fsub _ t d a b h => enc 0x15 t.code.toNat d.code a.code b.code h
  | .fmul _ t d a b h => enc 0x16 t.code.toNat d.code a.code b.code h
  | .ffma _ t d a b h => enc 0x17 t.code.toNat d.code a.code b.code h
  | .fmin _ t d a b h => enc 0x18 t.code.toNat d.code a.code b.code h
  | .fmax _ t d a b h => enc 0x19 t.code.toNat d.code a.code b.code h
  | .fcmp _ c t k a b h => enc 0x1A t.code.toNat (condD c k) a.code b.code h
  | .fabs _ t d a h => enc 0x1B t.code.toNat d.code a.code 0 h
  | .fneg _ t d a h => enc 0x1B t.code.toNat d.code a.code 1 h
  | .frcp _ t d a h => enc 0x1B t.code.toNat d.code a.code 2 h
  | .frsq _ t d a h => enc 0x1B t.code.toNat d.code a.code 3 h
  | .fsqrt _ t d a h => enc 0x1B t.code.toNat d.code a.code 4 h
  | .fexp2 _ t d a h => enc 0x1B t.code.toNat d.code a.code 5 h
  | .flog2 _ t d a h => enc 0x1B t.code.toNat d.code a.code 6 h
  | .fsin _ t d a h => enc 0x1B t.code.toNat d.code a.code 7 h
  | .fcos _ t d a h => enc 0x1B t.code.toNat d.code a.code 8 h
  | .ftanh _ t d a h => enc 0x1B t.code.toNat d.code a.code 9 h
  | .fsigm _ t d a h => enc 0x1B t.code.toNat d.code a.code 10 h
  | .ffloor _ t d a h => enc 0x1B t.code.toNat d.code a.code 11 h
  | .fceil _ t d a h => enc 0x1B t.code.toNat d.code a.code 12 h
  | .ftrunc _ t d a h => enc 0x1B t.code.toNat d.code a.code 13 h
  | .frint _ t d a h => enc 0x1B t.code.toNat d.code a.code 14 h
  | .fdot2 _ t d a b h => enc 0x1C t.code.toNat d.code a.code b.code h
  | .cvtf _ x y pos d a h => enc 0x1D x.code d.code a.code (convB y pos) h
  | .cvti _ x y pos d a h => enc 0x1E (x.code - 7) d.code a.code (convB y pos) h
  | .bscale _ d a h => enc 0x1F 0 d.code a.code 0 h
  | .bpack _ d a b h => enc 0x1F 1 d.code a.code b.code h
  | .bunpk _ d a b h => enc 0x1F 2 d.code a.code b.code h
  | .fmtset a h => enc 0x1F 3 0 a.code 0 h
  | .fmtget d => enc 0x1F 4 d.code 0 0 false
  | .shfl _ o d a b h => enc 0x20 o.code.toNat d.code a.code b.code h
  | .vote _ o d a h => enc 0x21 o.code.toNat d.code a.code 0 h
  | .gred _ o d a h => enc 0x22 o.code.toNat d.code a.code 0 h
  | .mset k a h => enc 0x23 0 (maskCode k) a.code 0 h
  | .mget d j => enc 0x23 1 d.code (maskCode j) 0 false
  | .mand k j l => enc 0x23 2 (maskCode k) (maskCode j) (maskCode l) false
  | .mor k j l => enc 0x23 3 (maskCode k) (maskCode j) (maskCode l) false
  | .mnot k j => enc 0x23 4 (maskCode k) (maskCode j) 0 false
  | .mxor k j l => enc 0x23 5 (maskCode k) (maskCode j) (maskCode l) false
  | .scan _ o d a h => enc 0x24 o.code.toNat d.code a.code 0 h
  | .nop => .half 0
  | .movShort h b d => encShort 0 h (fin5 b) (fin5 d)
  | .iaddShort h b d => encShort 1 h (fin5 b) (fin5 d)
  | .isubShort h b d => encShort 2 h (fin5 b) (fin5 d)
  | .imulShort h b d => encShort 3 h (fin5 b) (fin5 d)
  | .andShort h b d => encShort 4 h (fin5 b) (fin5 d)
  | .orShort h b d => encShort 5 h (fin5 b) (fin5 d)
  | .xorShort h b d => encShort 6 h (fin5 b) (fin5 d)
  | .shlShort h b d => encShort 7 h (fin5 b) (fin5 d)
  | .shrShort h b d => encShort 8 h (fin5 b) (fin5 d)
  | .shaShort h b d => encShort 9 h (fin5 b) (fin5 d)
  | .faddShort h b d => encShort 10 h (fin5 b) (fin5 d)
  | .fsubShort h b d => encShort 11 h (fin5 b) (fin5 d)
  | .fmulShort h b d => encShort 12 h (fin5 b) (fin5 d)
  | .fmaxShort h b d => encShort 13 h (fin5 b) (fin5 d)
  | .fminShort h b d => encShort 14 h (fin5 b) (fin5 d)
  | .iaddi5Short h i d => encShort 15 h i (fin5 d)
  | .bra o => encOff 0x28 0 o 0 false
  | .bany o a => encOff 0x28 1 o a.code false
  | .ball o a => encOff 0x28 2 o a.code false
  | .bnone o a => encOff 0x28 3 o a.code false
  | .bloop o a => encOff 0x28 4 o a.code false
  | .bdiv o a => encOff 0x28 5 o a.code false
  | .call o args demand => encOff 0x29 0 o (encArgs args demand) (demand.getLsbD 0)
  | .callIndirect a args demand => enc 0x29 1 (encArgs args demand) a.code 0 (demand.getLsbD 0)
  | .ret => enc 0x2A 0 0 0 0 false
  | .unwind a n => encImm 0x2A 1 0 a.code n
  | .regang tag => encImm 0x2B 0 0 0 tag
  | .part => enc 0x2B 1 0 0 0 false
  | .yield => enc 0x2B 2 0 0 0 false
  | .exit => enc 0x2B 3 0 0 0 false
  | .sleep a => enc 0x2B 4 0 a.code 0 false
  | .migrate d a h => enc 0x2C 0 d.code a.code 0 h
  | .home => enc 0x2C 1 0 0 0 false
  | .migq d a h => enc 0x2C 2 d.code a.code 0 h
  | .ld _ z d a i => encImm 0x30 z.code.toNat d.code a.code i
  | .st _ z d a i => encImm 0x31 z.code.toNat d.code a.code i
  | .atom _ o d a b h => enc 0x32 o.code.toNat d.code a.code b.code h
  | .atomb _ o d a b h => enc 0x33 o.code.toNat d.code a.code b.code h
  | .fence _ _ => enc 0x34 0 0 0 0 false
  | .cflush _ a i => encImm 0x34 1 0 a.code i
  | .cinv _ a i => encImm 0x34 2 0 a.code i
  | .pin _ d a i => encImm 0x34 3 d.code a.code i
  | .unpin _ d a i => encImm 0x34 4 d.code a.code i
  | .pref _ a i => encImm 0x34 5 0 a.code i
  | .waitw _ d a i => encImm 0x34 6 d.code a.code i
  | .qmin _ d a b h => enc 0x35 0 d.code a.code b.code h
  | .qmax _ d a b h => enc 0x35 1 d.code a.code b.code h
  | .qget _ d b => enc 0x35 2 d.code 0 b.code false
  | .qset _ a b h => enc 0x35 3 0 a.code b.code h
  | .spawn d a h => enc 0x36 0 d.code a.code 0 h
  | .join a h => enc 0x36 1 0 a.code 0 h
  | .tdone d a h => enc 0x36 2 d.code a.code 0 h
  | .tdoneAbandon d a h => enc 0x36 2 d.code a.code 1 h
  | .tnextS d => enc 0x36 3 d.code 0 0 false
  | .tnextG d => enc 0x36 3 d.code 0 1 false
  | .glaunch d a h => enc 0x37 0 d.code a.code 0 h
  | .gprep d a b h => enc 0x37 1 d.code a.code b.code h
  | .gbind d a b h => enc 0x37 2 d.code a.code b.code h
  | .sqpush d a b h => enc 0x37 3 d.code a.code b.code h
  | .sqpop d b => enc 0x37 4 d.code 0 b.code false
  | .nmc a h => enc 0x37 5 0 a.code 0 h
  | .nfence => enc 0x37 6 0 0 0 false
  | .gctlStatus d a h => enc 0x37 7 d.code a.code 0 h
  | .gctlRelease d a h => enc 0x37 7 d.code a.code 1 h
  | .gctlInval d a h => enc 0x37 7 d.code a.code 2 h
  | .copy _ f a b h => enc 0x38 f.code.toNat 0 a.code b.code h
  | .copymm _ f a b h => enc 0x39 f.code.toNat 0 a.code b.code h
  | .tdef a b h => enc 0x3A 0 0 a.code b.code h
  | .tfree a h => enc 0x3A 1 0 a.code 0 h
  | .tstat d a h => enc 0x3A 2 d.code a.code 0 h
  | .cseal d a h => enc 0x3A 3 d.code a.code 0 h
  | .cwait a h => enc 0x3A 4 0 a.code 0 h
  | .cpoll d a h => enc 0x3A 5 d.code a.code 0 h
  | .mma _ a b h => enc 0x3B 0 0 a.code b.code h
  | .mmaz _ a b h => enc 0x3B 1 0 a.code b.code h
  | .accld ⟨_, b⟩ => enc 0x3B 2 0 0 b.code false
  | .accst ⟨_, b⟩ => enc 0x3B 3 0 0 b.code false
  | .accz ⟨_, b⟩ => enc 0x3B 4 0 0 b.code false
  | .bar _ => enc 0x3C 0 0 0 0 false
  | .mbarInit a b h => enc 0x3C 1 0 a.code b.code h
  | .mbarArrive _ a b h => enc 0x3C 2 0 a.code b.code h
  | .mbarWait _ k a b h => enc 0x3C 3 (maskCode k) a.code b.code h
  | .mbarInval a h => enc 0x3C 4 0 a.code 0 h
  | .mbarTest _ k a b h => enc 0x3C 5 (maskCode k) a.code b.code h
  | .csrr d b => enc 0x3E 0 d.code 0 b.code false
  | .csrw a b h => enc 0x3E 1 0 a.code b.code h
  | .trap b => enc 0x3E 2 0 0 b.code false
  | .eret => enc 0x3E 3 0 0 0 false
  | .evpost a b h => enc 0x3E 4 0 a.code b.code h
  | .tlbinv a b h => enc 0x3E 5 0 a.code b.code h
  | .brk b => enc 0x3E 6 0 0 b.code false
  | _ => .step

/-- The prefix an instruction is written with: FENCE, COPYMM and BAR need theirs (R288, R297, R302). -/
def Instr.pfx (i : Instr) : Option Pfx :=
  match i with
  | .fence o s => some { order := o, scope := s }
  | .bar s => some { scope := s }
  | .copymm c _ _ _ _ => some { c := some c }
  | i => i.uses.bind (·.pfx)

/-- The literal word an instruction carries (R238). -/
def Instr.literal (i : Instr) : Option Word :=
  match i.uses with
  | none => none
  | some u =>
    ((u.srcs.map (·.1)) ++ (u.pfx.bind (·.c)).toList).findSome? fun
      | .lit w => some w
      | _ => none

/-- Bytes that an instruction occupies (R225); 0 for a machine step. -/
def Instr.length (i : Instr) : Nat :=
  match i.base with
  | .half _ => 2
  | .word _ => 4 + (if i.pfx.isSome then 4 else 0) + (if i.literal.isSome then 4 else 0)
  | .step => 0

/-! ### The decoder (R225, R234, R240) -/

/-- Why a bit pattern is no instruction (R240). Each raises the illegal-instruction trap. -/
inductive Illegal where
  /-- the halfword 0x8000 (R235) -/
  | shortHold
  /-- a prefix before a prefix or a 16-bit instruction, or with a code of its own fields illegal (R234) -/
  | prefixWord
  /-- a reserved MAJ, an FN, function, format or condition code or a specifier outside its range (R236, R239) -/
  | noSuch
  /-- a nonzero unused field, or a prefix an instruction does not take or lacks (R230, R234) -/
  | field
  /-- a pair, literal, mask or prefix use that the instruction forbids (R231, R234, R237, R238) -/
  | operand
  deriving DecidableEq, Repr

/-- What the bytes at a PC hold. -/
inductive Decoded where
  | ok (i : Instr) (len : Nat)
  /-- more bytes are needed: the instruction has at least `n` -/
  | more (n : Nat)
  | illegal (why : Illegal)
  deriving DecidableEq, Repr

/-- A 32-bit base word under an optional prefix word, with the word that would be its literal; `start` is the length
so far. -/
def decodeBase (pw : Option Word) (bs : List Byte) (start : Nat) : Decoded :=
  let w := wordOf bs
  let lit := wordOf (bs.drop 4)
  match (match pw with
    | none => some none
    | some x => (Pfx.ofWord lit x).map some) with
  | none => .illegal .prefixWord
  | some p =>
    match Raw.instr { p := p, lit := lit, f := Fields.ofWord w } with
    | none => .illegal .noSuch
    | some i =>
      if i.pfx ≠ p ∨ i.base ≠ .word (Fields.ofWord w) then .illegal .field
      else if !i.wf then .illegal .operand
      else if i.literal.isSome ∧ bs.length < 8 then .more (start + 8)
      else .ok i i.length

/-- The instruction at the head of a byte list (R225). -/
def decode (bs : List Byte) : Decoded :=
  if bs.length < 2 then .more 2
  else
    let h := halfOf bs
    if h.getLsbD 0 then
      if bs.length < 4 then .more 4
      else
        let w := wordOf bs
        if isPrefix w then
          if bs.length < 6 then .more 6
          else if (halfOf (bs.drop 4)).getLsbD 0 then
            if bs.length < 8 then .more 8
            else if isPrefix (wordOf (bs.drop 4)) then .illegal .prefixWord
            else decodeBase (some w) (bs.drop 4) 4
          else .illegal .prefixWord
        else decodeBase none bs 0
    else
      match shortInstr h with
      | some i => .ok i 2
      | none => .illegal .shortHold

/-- The bytes of a well-formed instruction, in memory order; `none` for a machine step. -/
def encode (i : Instr) : Option (List Byte) :=
  match i.base with
  | .step => none
  | .half h => some (halfBytes h)
  | .word f =>
    some ((i.pfx.map fun p => wordBytes p.word).getD [] ++ wordBytes f.word ++ (i.literal.map wordBytes).getD [])

/-- The instruction whose bits are numbered as the opcode table numbers them, with zero bytes after it. -/
def decodeTableWord (nbits w : Nat) : Option Instr :=
  match decode (natToBytes (nbits / 8) w ++ natToBytes 12 0) with
  | .ok i _ => some i
  | _ => none

end Sys2Proof
end

