-- ==== Sys2Proof/Machine/Bits.lean ====
section
/-! DEFINITION. Helpers over bits, bytes, lanes and keyed lists. -/

/-- Insert an element before the first one that it does not follow. -/
def List.insertBy {α : Type} (le : α → α → Bool) (x : α) : List α → List α
  | [] => [x]
  | y :: ys => if le x y then x :: y :: ys else y :: List.insertBy le x ys

/-- Sort a list; elements of equal rank keep their order. -/
def List.sortBy {α : Type} (xs : List α) (le : α → α → Bool) : List α := xs.foldr (List.insertBy le) []

namespace Sys2Proof.Machine

/-! ### Lanes -/

def L4.get {α : Type} (x : L4 α) : Nat → α
  | 0 => x.a
  | 1 => x.b
  | 2 => x.c
  | _ => x.d

def L4.ofFn {α : Type} (f : Nat → α) : L4 α := ⟨f 0, f 1, f 2, f 3⟩

def L4.set {α : Type} (x : L4 α) (l : Nat) (v : α) : L4 α :=
  match l with
  | 0 => { x with a := v }
  | 1 => { x with b := v }
  | 2 => { x with c := v }
  | _ => { x with d := v }

def L4.map {α β : Type} (f : α → β) (x : L4 α) : L4 β := ⟨f x.a, f x.b, f x.c, f x.d⟩

def L4.toList {α : Type} (x : L4 α) : List α := [x.a, x.b, x.c, x.d]

def L4.all {α : Type} (p : α → Bool) (x : L4 α) : Bool := p x.a && p x.b && p x.c && p x.d

def L4.any {α : Type} (p : α → Bool) (x : L4 α) : Bool := p x.a || p x.b || p x.c || p x.d

def lanes : List Nat := [0, 1, 2, 3]

/-- The mask of the lanes that satisfy a test. -/
def maskOf (p : Nat → Bool) : BitVec 4 :=
  BitVec.ofBool (p 3) ++ BitVec.ofBool (p 2) ++ BitVec.ofBool (p 1) ++ BitVec.ofBool (p 0)

/-- Lanes set in a mask, ascending. -/
def maskLanes (m : BitVec 4) : List Nat := lanes.filter m.getLsbD

/-! ### Numbers in bits -/

def bit (n i : Nat) : Bool := n / 2 ^ i % 2 == 1

/-- The field [lo+w-1 : lo] of a number. -/
def field (n lo w : Nat) : Nat := n / 2 ^ lo % 2 ^ w

/-- Bits [31:0] of a 64-bit value, and bits [63:32]. -/
def lo32 (x : DWord) : Word := x.setWidth 32
def hi32 (x : DWord) : Word := (x >>> 32).setWidth 32

/-- A 64-bit value from its words, low word first (R237). -/
def dword (lo hi : Word) : DWord := hi ++ lo

def b2n (b : Bool) : Nat := if b then 1 else 0

/-- The signed value of the low w bits. -/
def sextNat (w n : Nat) : Int := if bit n (w - 1) then (n % 2 ^ w : Int) - 2 ^ w else (n % 2 ^ w : Int)

/-- The low w bits of an integer. -/
def truncInt (w : Nat) (x : Int) : Nat := (x % (2 ^ w : Int)).toNat

def ceilDiv (a b : Nat) : Nat := (a + b - 1) / b

/-- A number rounded down to a multiple of b. -/
def alignDown (a b : Nat) : Nat := a / b * b

/-! ### Lists -/

/-- Element i of a list, or a default. -/
def nth {α : Type} (d : α) (xs : List α) (i : Nat) : α := xs.getD i d

def setNth {α : Type} : List α → Nat → α → List α
  | [], _, _ => []
  | _ :: xs, 0, v => v :: xs
  | x :: xs, i + 1, v => x :: setNth xs i v

def modifyNth {α : Type} (i : Nat) (f : α → α) (xs : List α) : List α :=
  match xs[i]? with
  | some x => setNth xs i (f x)
  | none => xs

/-- The number given to a key, or a default. -/
def assoc {κ ν : Type} [BEq κ] (d : ν) (xs : List (κ × ν)) (k : κ) : ν := (xs.lookup k).getD d

/-- The list with a key's value replaced. -/
def assocSet {κ ν : Type} [BEq κ] (xs : List (κ × ν)) (k : κ) (v : ν) : List (κ × ν) :=
  (k, v) :: xs.filter (fun x => !(x.1 == k))

/-- Replace the elements that satisfy a test. -/
def updateWhere {α : Type} (p : α → Bool) (f : α → α) (xs : List α) : List α :=
  xs.map fun x => if p x then f x else x

/-- The element of least key, the first at a tie. -/
def minBy? {α : Type} (key : α → Nat) : List α → Option α
  | [] => none
  | x :: xs =>
    match minBy? key xs with
    | none => some x
    | some y => if key y < key x then some y else some x

/-- The element of greatest key, the first at a tie. -/
def maxBy? {α : Type} (key : α → Nat) : List α → Option α
  | [] => none
  | x :: xs =>
    match maxBy? key xs with
    | none => some x
    | some y => if key x < key y then some y else some x

/-- Insert a number into a strictly rising list. -/
def insertNat (n : Nat) : List Nat → List Nat
  | [] => [n]
  | x :: xs => if n < x then n :: x :: xs else if n = x then x :: xs else x :: insertNat n xs

/-- The numbers from a, n of them. -/
def natsFrom (a n : Nat) : List Nat := (List.range n).map (a + ·)

/-! ### Bytes in memory order (R2) -/

/-- The little-endian number in n bytes at an offset of a byte list. -/
def leAt (bs : List Byte) (off n : Nat) : Nat := bytesToNat ((bs.drop off).take n)

def le8 (bs : List Byte) (off : Nat) : Byte := nth 0 bs off
def le16 (bs : List Byte) (off : Nat) : Half := BitVec.ofNat 16 (leAt bs off 2)
def le32 (bs : List Byte) (off : Nat) : Word := BitVec.ofNat 32 (leAt bs off 4)
def le64 (bs : List Byte) (off : Nat) : DWord := BitVec.ofNat 64 (leAt bs off 8)

def zeroAt (bs : List Byte) (off n : Nat) : Bool := ((bs.drop off).take n).all (· == 0)

def u8 (n : Nat) : List Byte := natToBytes 1 n
def u16 (n : Nat) : List Byte := natToBytes 2 n
def u32 (n : Nat) : List Byte := natToBytes 4 n
def u64 (n : Nat) : List Byte := natToBytes 8 n

/-- n zero bytes. -/
def zeros (n : Nat) : List Byte := List.replicate n 0

/-- Bytes padded with zeros to n. -/
def padTo (n : Nat) (bs : List Byte) : List Byte := bs ++ zeros (n - bs.length)

/-! ### Memory -/

/-- The byte at an address: 0 where none is listed (log entry 4). -/
def Memory.get (m : Memory) (a : Nat) : Byte :=
  match m with
  | [] => 0
  | (x, b) :: rest => if x = a then b else if a < x then 0 else Memory.get rest a

/-- Write a byte and keep the canonical form. -/
def Memory.set (m : Memory) (a : Nat) (v : Byte) : Memory :=
  match m with
  | [] => if v = 0 then [] else [(a, v)]
  | (x, b) :: rest =>
    if x = a then (if v = 0 then rest else (a, v) :: rest)
    else if a < x then (if v = 0 then (x, b) :: rest else (a, v) :: (x, b) :: rest)
    else (x, b) :: Memory.set rest a v

/-- Write bytes at rising addresses, in one walk: each byte is written as by `Memory.set` (`Memory.setBytes_cons`). -/
def Memory.setBytes (m : Memory) (a : Nat) : List Byte → Memory
  | [] => m
  | b :: bs =>
    let tail : Memory := match m.dropWhile (fun (c : Nat × Byte) => decide (c.1 < a)) with
      | [] => []
      | (x, v) :: rest => if x = a then rest else (x, v) :: rest
    let more := Memory.setBytes tail (a + 1) bs
    m.takeWhile (fun (c : Nat × Byte) => decide (c.1 < a)) ++ (if b = 0 then more else (a, b) :: more)

/-- Read n bytes at rising addresses, in one walk: each byte is read as by `Memory.get` (`Memory.getBytes_succ`). -/
def Memory.getBytes (m : Memory) (a : Nat) : Nat → List Byte
  | 0 => []
  | n + 1 =>
    let rest : Memory := m.dropWhile (fun (c : Nat × Byte) => decide (c.1 < a))
    Memory.get rest a :: Memory.getBytes rest (a + 1) n

end Sys2Proof.Machine
end

