-- ==== Sys2Proof/Machine/Num.lean ====
section
/-! DEFINITION. Numbers: formats, rounding, conversions, E2M1 blocks and the special functions
(spec/09_numbers.md R194-R209; R216, R93). -/

namespace Sys2Proof.Machine

/-- Rounding modes (R197). -/
inductive Rm where
  | rne | rtz | rup | rdn | rna | rst
  deriving DecidableEq, Repr

def Rm.ofCode : Nat → Rm
  | 0 => .rne
  | 1 => .rtz
  | 2 => .rup
  | 3 => .rdn
  | 4 => .rna
  | _ => .rst

/-- rst rounds as rne where it is only the default (R197). -/
def Rm.noRst : Rm → Rm
  | .rst => .rne
  | m => m

/-- Floating-point exceptions in FPFLAGS order (R209). -/
structure Flags where
  invalid : Bool := false
  divzero : Bool := false
  overflow : Bool := false
  underflow : Bool := false
  inexact : Bool := false
  deriving DecidableEq, Repr

def Flags.or (x y : Flags) : Flags :=
  { invalid := x.invalid || y.invalid, divzero := x.divzero || y.divzero, overflow := x.overflow || y.overflow,
    underflow := x.underflow || y.underflow, inexact := x.inexact || y.inexact }

/-- The bits of FPFLAGS (R209). -/
def Flags.word (x : Flags) : Word :=
  BitVec.ofNat 32 (b2n x.invalid + 2 * b2n x.divzero + 4 * b2n x.overflow + 8 * b2n x.underflow + 16 * b2n x.inexact)

/-- Bits of a result with the exceptions it raised. -/
structure FRes where
  bits : Nat
  flags : Flags := {}
  /-- an rst rounding was made, so the lane's state has stepped (R200) -/
  stepped : Bool := false
  deriving DecidableEq, Repr

/-- A value: finite ones are (-1)^neg * m * 2^e exactly. -/
inductive Val where
  | nan (signalling : Bool)
  | inf (neg : Bool)
  | num (neg : Bool) (m : Nat) (e : Int)
  deriving DecidableEq, Repr

/-! ### Floating-point encodings (R195) -/

end Sys2Proof.Machine

namespace Sys2Proof

/-- Exponent bits, mantissa bits and bias. -/
def Fmt.eb : Fmt → Nat
  | .f32 | .bf16 => 8
  | .f16 | .e5m2 => 5
  | .e4m3 => 4
  | _ => 8

def Fmt.mb : Fmt → Nat
  | .f32 => 23
  | .bf16 => 7
  | .f16 => 10
  | .e5m2 => 2
  | .e4m3 => 3
  | _ => 0

def Fmt.bias : Fmt → Nat
  | .f16 | .e5m2 => 15
  | .e4m3 => 7
  | _ => 127

/-- Magnitude bits of the largest finite value. -/
def Fmt.maxBits (f : Fmt) : Nat :=
  match f with
  | .e4m3 => 0x7E
  | f => (2 ^ f.eb - 1) * 2 ^ f.mb - 1

/-- The sign bit's weight. -/
def Fmt.signBit (f : Fmt) : Nat := 2 ^ (f.eb + f.mb)

/-- The canonical NaN (R195). -/
def Fmt.nanBits : Fmt → Nat
  | .f32 => 0x7FC00000
  | .bf16 => 0x7FC0
  | .f16 => 0x7E00
  | .e5m2 => 0x7E
  | .e4m3 => 0x7F
  | _ => 0xFF

/-- The formats to which FTZ applies (R199). -/
def Fmt.ftzable : Fmt → Bool
  | .f32 | .bf16 | .f16 => true
  | _ => false

end Sys2Proof

namespace Sys2Proof.Machine

/-- The value of an F32, BF16, F16, E5M2 or E4M3 encoding. -/
def decodeFloat (f : Fmt) (x : Nat) : Val :=
  let neg := x / f.signBit % 2 == 1
  let ex := field x f.mb f.eb
  let mant := field x 0 f.mb
  if f = .e4m3 then
    if ex = 15 ∧ mant = 7 then .nan false
    else if ex = 0 then .num neg mant (1 - 7 - 3)
    else .num neg (mant + 8) (ex - 7 - 3)
  else if ex = 2 ^ f.eb - 1 then
    if mant = 0 then .inf neg else .nan (mant < 2 ^ (f.mb - 1))
  else if ex = 0 then .num neg mant (1 - (f.bias : Int) - f.mb)
  else .num neg (mant + 2 ^ f.mb) ((ex : Int) - f.bias - f.mb)

/-- The magnitude of an E2M1 code in halves (R195). -/
def e2m1Halves : Nat → Nat
  | 0 => 0
  | 1 => 1
  | 2 => 2
  | 3 => 3
  | 4 => 4
  | 5 => 6
  | 6 => 8
  | _ => 12

/-- The value of an element of any numeric format; E2M1 with a scale of 1 and no spare, code 1000 being -0 (R267). -/
def decodeVal (f : Fmt) (x : Nat) : Val :=
  match f with
  | .f32 | .bf16 | .f16 | .e5m2 | .e4m3 => decodeFloat f x
  | .e2m1 => .num (bit x 3) (e2m1Halves (x % 8)) (-1)
  | .e8m0 => if x % 256 = 255 then .nan false else .num false 1 ((x % 256 : Int) - 127)
  | .i32 | .i16 | .i8 => let v := sextNat f.bits x; .num (decide (v < 0)) v.natAbs 0
  | _ => .num false (x % 2 ^ f.bits) 0

/-- Whether a magnitude encoding is subnormal. -/
def isSubnormal (f : Fmt) (x : Nat) : Bool :=
  let mag := x % f.signBit
  mag != 0 && decide (mag < 2 ^ f.mb)

/-- R199: a subnormal source reads as a zero of its sign. -/
def readFloat (f : Fmt) (ftz : Bool) (x : Nat) : Val :=
  match decodeFloat f x with
  | .num neg m e => if ftz && f.ftzable && isSubnormal f x then .num neg 0 e else .num neg m e
  | v => v

/-! ### Rounding (R198) -/

/-- Whether the neighbour away from zero is taken: `n` is the significand toward zero, `rem` of `2^sh` the rest, and
`r` the low 24 bits of the stepped rst state. -/
def roundsAway (rm : Rm) (neg : Bool) (n rem sh r : Nat) : Bool :=
  match rm with
  | .rne => decide (2 * rem > 2 ^ sh) || (2 * rem == 2 ^ sh && n % 2 == 1)
  | .rna => decide (2 * rem ≥ 2 ^ sh)
  | .rtz => false
  | .rup => !neg
  | .rdn => neg
  | .rst => decide (r < 2 ^ 24 * rem / 2 ^ sh)

/-- The overflow table of R198 step 4: magnitude bits. -/
def overflowBits (f : Fmt) (rm : Rm) (neg : Bool) : Nat :=
  if f = .e4m3 then f.maxBits
  else match rm with
    | .rtz => f.maxBits
    | .rup => if neg then f.maxBits else f.maxBits + 1
    | .rdn => if neg then f.maxBits + 1 else f.maxBits
    | _ => f.maxBits + 1

/-- The magnitude bits toward zero of m * 2^e in a format with unbounded exponent, the rest, and its width. -/
def magFloor (f : Fmt) (m : Nat) (e : Int) : Nat × Nat × Nat :=
  let emin : Int := 1 - f.bias
  let ex : Int := max (Nat.log2 m + e) emin
  let q : Int := ex - f.mb
  let base : Nat := (ex - emin).toNat * 2 ^ f.mb
  if q ≤ e then (base + m * 2 ^ (e - q).toNat, 0, 0)
  else
    let sh := (q - e).toNat
    (base + m / 2 ^ sh, m % 2 ^ sh, sh)

/-- The sign bit of a format in its place. -/
def withSign (f : Fmt) (neg : Bool) (mag : Nat) : Nat := if neg then f.signBit + mag else mag

/-- Round a nonzero finite magnitude m * 2^e (R198 steps 2 to 5), with FTZ on the result (R199). Under rst every value that
the format does not hold takes a step, one beyond its range included (R200). -/
def roundMag (f : Fmt) (rm : Rm) (ftz : Bool) (r : Nat) (neg : Bool) (m : Nat) (e : Int) : FRes :=
  let (t, rem, sh) := magFloor f m e
  let inex := rem != 0
  let bits := if inex && roundsAway rm neg t rem sh r then t + 1 else t
  let stepped := (inex || decide (f.maxBits < t)) && rm == .rst
  if f.maxBits < bits then
    { bits := withSign f neg (overflowBits f rm neg), flags := { overflow := true, inexact := true },
      stepped := stepped }
  else if ftz && f.ftzable && decide (0 < bits) && decide (bits < 2 ^ f.mb) then
    { bits := withSign f neg 0, flags := { underflow := true, inexact := true }, stepped := stepped }
  else
    { bits := withSign f neg bits,
      flags := { underflow := inex && decide (bits < 2 ^ f.mb), inexact := inex }, stepped := stepped }

/-- round(x, fmt, rm) for the float formats (R198). A signalling NaN raises invalid (R196). -/
def roundVal (f : Fmt) (rm : Rm) (ftz : Bool) (r : Nat) (v : Val) : FRes :=
  match v with
  | .nan sig => { bits := f.nanBits, flags := { invalid := sig } }
  | .inf neg =>
    if f = .e4m3 then { bits := withSign f neg 0x7F, flags := { invalid := true } }
    else { bits := withSign f neg (f.maxBits + 1) }
  | .num neg m e => if m = 0 then { bits := withSign f neg 0 } else roundMag f rm ftz r neg m e

/-! ### Exact arithmetic -/

def Val.neg : Val → Val
  | .nan s => .nan s
  | .inf n => .inf (!n)
  | .num n m e => .num (!n) m e

/-- The signed mantissa at an exponent no greater than the value's own. -/
def dyAt (e : Int) (neg : Bool) (m : Nat) (em : Int) : Int :=
  let x : Int := m * 2 ^ (em - e).toNat
  if neg then -x else x

/-- A product; the second component says that the operation itself is invalid (R196). -/
def Val.mul (x y : Val) : Val × Bool :=
  match x, y with
  | .nan s, .nan t => (.nan (s || t), false)
  | .nan s, .inf _ | .nan s, .num _ _ _ => (.nan s, false)
  | .inf _, .nan s | .num _ _ _, .nan s => (.nan s, false)
  | .inf a, .inf b => (.inf (a != b), false)
  | .inf a, .num b m _ => if m = 0 then (.nan false, true) else (.inf (a != b), false)
  | .num a m _, .inf b => if m = 0 then (.nan false, true) else (.inf (a != b), false)
  | .num a m e, .num b n f => (.num (a != b) (m * n) (e + f), false)

def Val.isNan : Val → Bool
  | .nan _ => true
  | _ => false

def Val.isSig : Val → Bool
  | .nan s => s
  | _ => false

def Val.isInf (neg : Bool) : Val → Bool
  | .inf n => n == neg
  | _ => false

def Val.isZero (neg : Bool) : Val → Bool
  | .num n m _ => n == neg && m == 0
  | _ => false

def Val.expo : Val → Int
  | .num _ m e => if m = 0 then 0 else e
  | _ => 0

def Val.hasMag : Val → Bool
  | .num _ m _ => m != 0
  | _ => false

/-- The least exponent of the finite nonzero terms. -/
def minExpo (vs : List Val) : Int :=
  match (vs.filter Val.hasMag).map Val.expo with
  | [] => 0
  | e :: es => es.foldl min e

def Val.at (e : Int) : Val → Int
  | .num n m f => if m = 0 then 0 else dyAt e n m f
  | _ => 0

/-- An exact sum. A zero sum is +0, or -0 under rdn, unless every term is a zero of one sign (R198, R262). -/
def sumVals (rm : Rm) (vs : List Val) : Val × Bool :=
  if vs.any Val.isNan then (.nan (vs.any Val.isSig), false)
  else if vs.any (Val.isInf false) && vs.any (Val.isInf true) then (.nan false, true)
  else if vs.any (Val.isInf false) then (.inf false, false)
  else if vs.any (Val.isInf true) then (.inf true, false)
  else
    let e := minExpo vs
    let t := (vs.map (Val.at e)).sum
    if t = 0 then
      if vs.all (Val.isZero false) then (.num false 0 0, false)
      else if vs.all (Val.isZero true) then (.num true 0 0, false)
      else (.num (rm == .rdn) 0 0, false)
    else (.num (decide (t < 0)) t.natAbs e, false)

/-- Round an exact result that may itself be invalid. -/
def roundOp (f : Fmt) (rm : Rm) (ftz : Bool) (r : Nat) (x : Val × Bool) : FRes :=
  let y := roundVal f rm ftz r x.1
  { y with flags := { y.flags with invalid := y.flags.invalid || x.2 } }

/-- a + b (R262). -/
def fAdd (f : Fmt) (rm : Rm) (ftz : Bool) (a b : Nat) : FRes :=
  roundOp f rm ftz 0 (sumVals rm [readFloat f ftz a, readFloat f ftz b])

/-- a - b (R262). -/
def fSub (f : Fmt) (rm : Rm) (ftz : Bool) (a b : Nat) : FRes :=
  roundOp f rm ftz 0 (sumVals rm [readFloat f ftz a, (readFloat f ftz b).neg])

/-- a * b (R262). -/
def fMul (f : Fmt) (rm : Rm) (ftz : Bool) (a b : Nat) : FRes :=
  roundOp f rm ftz 0 ((readFloat f ftz a).mul (readFloat f ftz b))

/-- The sum of some products and a last term, invalid in a product counting whatever the addend (R196, R262). -/
def sumProducts (rm : Rm) (ps : List (Val × Val)) (c : Val) : Val × Bool :=
  let qs := ps.map fun p => p.1.mul p.2
  let inv := qs.any (·.2)
  let sig := ps.any (fun p => p.1.isSig || p.2.isSig) || c.isSig
  let terms := qs.map (·.1) ++ [c]
  let opposed := terms.any (Val.isInf false) && terms.any (Val.isInf true)
  let t := sumVals rm terms
  match t.1 with
  | .nan _ => (.nan sig, opposed || inv)
  | v => if inv then (.nan sig, true) else (v, t.2)

/-- a * b + c with one rounding (R262). -/
def fFma (f : Fmt) (rm : Rm) (ftz : Bool) (a b c : Nat) : FRes :=
  roundOp f rm ftz 0 (sumProducts rm [(readFloat f ftz a, readFloat f ftz b)] (readFloat f ftz c))

/-- FDOT2: two products of halves and an F32 term, rounded once to F32 (R262). -/
def fDot2 (f : Fmt) (rm : Rm) (ftz : Bool) (a b c : Nat) : FRes :=
  let h := fun (x i : Nat) => readFloat f ftz (field x (16 * i) 16)
  roundOp .f32 rm ftz 0 (sumProducts rm [(h a 0, h b 0), (h a 1, h b 1)] (readFloat .f32 ftz c))

/-! ### Comparison (R92, R94, R231) -/

/-- Order of two values neither of which is a NaN; -0 equals +0. -/
def Val.compare (x y : Val) : Ordering :=
  match x, y with
  | .inf a, .inf b => if a = b then .eq else if a then .lt else .gt
  | .inf a, _ => if a then .lt else .gt
  | _, .inf b => if b then .gt else .lt
  | x, y =>
    let e := minExpo [x, y]
    Ord.compare (x.at e) (y.at e)

end Sys2Proof.Machine

namespace Sys2Proof

/-- The relation of a condition code (R231): unordered codes hold also when either operand is a NaN. -/
def Cond.holds (c : Cond) (unord : Bool) (o : Ordering) : Bool :=
  match c with
  | .eq => !unord && o == .eq
  | .ne => unord || o != .eq
  | .lt => !unord && o == .lt
  | .le => !unord && o != .gt
  | .gt => !unord && o == .gt
  | .ge => !unord && o != .lt
  | .ueq => unord || o == .eq
  | .ult => unord || o == .lt
  | .ule => unord || o != .gt
  | .ugt => unord || o == .gt
  | .uge => unord || o != .lt
  | .uno => unord
  | .ord => !unord

end Sys2Proof

namespace Sys2Proof.Machine

/-- A float compare: the relation, and whether a signalling NaN raised invalid (R94, R264). -/
def fCmp (c : Cond) (f : Fmt) (ftz : Bool) (a b : Nat) : Bool × Flags :=
  let x := readFloat f ftz a
  let y := readFloat f ftz b
  let un := x.isNan || y.isNan
  (c.holds un (if un then .eq else x.compare y), { invalid := x.isSig || y.isSig })

/-- Magnitude-and-sign order with -0 below +0 (R92). -/
def Val.below (x y : Val) : Bool :=
  match x.compare y with
  | .lt => true
  | .gt => false
  | .eq => x.isZero true && y.isZero false

/-- MIN or MAX of two encodings in one format (R92, R263). -/
def fMinMax (isMax : Bool) (f : Fmt) (ftz : Bool) (a b : Nat) : FRes :=
  let x := readFloat f ftz a
  let y := readFloat f ftz b
  let fl : Flags := { invalid := x.isSig || y.isSig }
  let enc := fun v => (roundVal f .rne false 0 v).bits
  if x.isNan && y.isNan then { bits := f.nanBits, flags := fl }
  else if x.isNan then { bits := enc y, flags := fl }
  else if y.isNan then { bits := enc x, flags := fl }
  else if x.below y then { bits := enc (if isMax then y else x), flags := fl }
  else { bits := enc (if isMax then x else y), flags := fl }

/-! ### Rounding to integers -/

/-- A value rounded to an integer, and whether that changed it (R198, R202). -/
def roundInt (rm : Rm) (r : Nat) (neg : Bool) (m : Nat) (e : Int) : Int × Bool :=
  if 0 ≤ e then ((if neg then -1 else 1) * (m * 2 ^ e.toNat : Nat), false)
  else
    let sh := (-e).toNat
    let t := m / 2 ^ sh
    let rem := m % 2 ^ sh
    let n := if rem != 0 && roundsAway rm neg t rem sh r then t + 1 else t
    ((if neg then -1 else 1) * (n : Int), rem != 0)

end Sys2Proof.Machine

namespace Sys2Proof

/-- The range of an integer format. -/
def Fmt.intMin (f : Fmt) : Int :=
  match f with
  | .i32 | .i16 | .i8 => -(2 ^ (f.bits - 1))
  | _ => 0

def Fmt.intMax (f : Fmt) : Int :=
  match f with
  | .i32 | .i16 | .i8 => 2 ^ (f.bits - 1) - 1
  | _ => 2 ^ f.bits - 1

end Sys2Proof

namespace Sys2Proof.Machine

def clampInt (lo hi x : Int) : Int := max lo (min hi x)

/-- Float to integer (R202); under rst a value that the format does not hold takes a step (R200). -/
def floatToInt (d : Fmt) (rm : Rm) (r : Nat) (v : Val) : FRes :=
  match v with
  | .nan _ => { bits := 0, flags := { invalid := true } }
  | .inf neg => { bits := truncInt d.bits (if neg then d.intMin else d.intMax), flags := { invalid := true } }
  | .num neg m e =>
    let (x, inex) := roundInt rm r neg m e
    let y := clampInt d.intMin d.intMax x
    { bits := truncInt d.bits y, flags := { invalid := y != x, inexact := inex }, stepped := rm == .rst && (inex || y != x) }

/-- FFLOOR, FCEIL, FTRUNC and FRINT (R265): a rounding to an integer that keeps zeros, infinities and the sign. -/
def fToIntegral (f : Fmt) (rm : Rm) (raise ftz : Bool) (a : Nat) : FRes :=
  match readFloat f ftz a with
  | .num neg m e =>
    let (x, inex) := roundInt rm 0 neg m e
    if x = 0 then { bits := withSign f neg 0, flags := { inexact := raise && inex } }
    else
      let y := roundVal f .rne false 0 (.num neg x.natAbs 0)
      { bits := y.bits, flags := { inexact := raise && inex } }
  | v => roundVal f .rne false 0 v

/-! ### E8M0 and E2M1 (R202-R205) -/

/-- Float to E8M0 (R202); under rst a value that is no power of two of the range takes a step (R200). -/
def toE8m0 (rm : Rm) (v : Val) : FRes :=
  match v with
  | .num false m e =>
    if m = 0 then { bits := 0xFF, flags := { invalid := true } }
    else
      let k : Int := Nat.log2 m + e
      let p := 2 ^ Nat.log2 m
      let exact := m == p
      let k' : Int :=
        match rm with
        | .rtz | .rdn => k
        | .rup => if exact then k else k + 1
        | _ => if 2 * m ≥ 3 * p then k + 1 else k
      let step := rm == .rst
      if k' < -127 then { bits := 0, flags := { underflow := true, inexact := true }, stepped := step }
      else if 127 < k' then { bits := 0xFE, flags := { overflow := true, inexact := true }, stepped := step }
      else { bits := (k' + 127).toNat, flags := { inexact := !exact }, stepped := step && !exact }
  | _ => { bits := 0xFF, flags := { invalid := true } }

/-- A nibble of a block with scale byte e and spare byte p (R204). -/
def decodeE2m1 (c e p : Nat) (amax : Bool) : Val :=
  if e = 0xFF then .nan false
  else if c = 8 then
    if amax then
      match decodeFloat .e4m3 p with
      | .num n m x => .num n m (x + e - 127)
      | v => v
    else .num true 0 0
  else .num (bit c 3) (e2m1Halves (c % 8)) ((e : Int) - 127 - 1)

/-- A candidate of the encoder: its value in units of 2^u, its code, and whether it is the spare. -/
structure Cand where
  val : Int
  code : Nat
  spare : Bool
  deriving DecidableEq, Repr

/-- The 15 regular codes in units of 2^u, u ≤ -1 (R205 step 5). -/
def regularCands (u : Int) : List Cand :=
  [0, 1, 2, 3, 4, 5, 6, 7, 9, 10, 11, 12, 13, 14, 15].map fun c =>
    { val := (if bit c 3 then -1 else 1) * (e2m1Halves (c % 8) : Int) * 2 ^ (-1 - u).toNat, code := c, spare := false }

/-- The greater of two candidates, a regular code first. -/
def bestCand (better : Int → Int → Bool) : List Cand → Option Cand
  | [] => none
  | c :: cs =>
    match bestCand better cs with
    | none => some c
    | some d => if better d.val c.val || (d.val == c.val && c.spare) then some d else some c

/-- Choose between the candidates on either side of y (R205 step 7). -/
def pickCand (rm : Rm) (r : Nat) (y : Int) (lo hi : Cand) : Cand :=
  if lo.val = y then lo
  else if hi.val = y then hi
  else
    let away := if lo.val.natAbs < hi.val.natAbs then hi else lo
    let near := if lo.val.natAbs < hi.val.natAbs then lo else hi
    match rm with
    | .rup => hi
    | .rdn => lo
    | .rtz => near
    | .rst =>
      let num := Int.natAbs (y.natAbs - near.val.natAbs : Int)
      let den := Int.natAbs (away.val.natAbs - near.val.natAbs : Int)
      if r < 2 ^ 24 * num / den then away else near
    | _ =>
      if y - lo.val < hi.val - y then lo
      else if hi.val - y < y - lo.val then hi
      else if lo.spare then hi
      else if hi.spare then lo
      else match rm with
        | .rna => if lo.val.natAbs < hi.val.natAbs then hi else lo
        | _ => if lo.code % 2 = 0 then lo else hi

/-- Encode one finite value against a scale byte and a spare byte (R205 steps 5 to 8). -/
def encodeE2m1Num (rm : Rm) (r : Nat) (e p : Nat) (amax : Bool) (neg : Bool) (m : Nat) (x : Int) : FRes :=
  let ye : Int := x - ((e : Int) - 127)
  let spare := if amax then decodeFloat .e4m3 p else .nan false
  let u : Int := min (-9) (if m = 0 then -9 else ye)
  let y := dyAt u neg m (if m = 0 then u else ye)
  let cands := regularCands u ++
    (match spare with
     | .num n k f => [{ val := dyAt u n k f, code := 8, spare := true }]
     | _ => [])
  let lo := bestCand (fun a b => decide (b < a)) (cands.filter fun c => decide (c.val ≤ y))
  let hi := bestCand (fun a b => decide (a < b)) (cands.filter fun c => decide (y ≤ c.val))
  let c : Cand := match lo, hi with
    | some a, some b => pickCand rm r y a b
    | some a, none => a
    | none, some b => b
    | none, none => { val := 0, code := 0, spare := false }
  let inex := c.val != y
  { bits := c.code, flags := { inexact := inex, underflow := y != 0 && c.val == 0 },
    stepped := rm == .rst && inex }

/-- The single-element rule of R205. -/
def encodeE2m1 (rm : Rm) (r : Nat) (e p : Nat) (amax : Bool) (v : Val) : FRes :=
  match v with
  | .num neg m x => if e = 0xFF then { bits := 0 } else encodeE2m1Num rm r e p amax neg m x
  | _ => { bits := 0, flags := { invalid := true } }

/-- The scale and spare bytes of a block (R205 steps 1 to 4); `none` marks an absent element. -/
def blockScale (amax : Bool) (vs : List Val) : Nat × Nat :=
  if vs.any (fun v => v.isNan || v.isInf false || v.isInf true) then (0xFF, 0)
  else
    let u := minExpo vs
    match maxBy? (fun v => (v.at u).natAbs) vs with
    | some (.num neg m e) =>
      if m = 0 then (0, if amax then (roundVal .e4m3 .rne false 0 (.num neg 0 0)).bits else 0)
      else
        let s := (clampInt 0 254 (Nat.log2 m + e - 2 + 127)).toNat
        (s, if amax then (roundVal .e4m3 .rne false 0 (.num neg m (e - ((s : Int) - 127)))).bits else 0)
    | _ => (0, 0)

/-! ### Conversions (R202, R266, R267) -/

/-- Integer to integer: low bits, or clamped under saturation (R202). -/
def intToInt (s d : Fmt) (sat : Bool) (x : Nat) : FRes :=
  let v : Int := match s with
    | .i32 | .i16 | .i8 => sextNat s.bits x
    | _ => (x % 2 ^ s.bits : Nat)
  { bits := truncInt d.bits (if sat then clampInt d.intMin d.intMax v else v) }

/-- Convert one element (R202, R267); E2M1 ends use a scale of 1 and no spare. `r` is the stepped rst state. -/
def convert (s d : Fmt) (rm : Rm) (sat ftz : Bool) (r : Nat) (x : Nat) : FRes :=
  if s.isInt && d.isInt then intToInt s d sat x
  else
    let flush := ftz && s.ftzable && d.ftzable
    let v := if s.isFloat && s != .e2m1 && s != .e8m0 then readFloat s flush x else decodeVal s x
    if s = d ∧ s = .e8m0 then { bits := x % 256 }
    else if d.isInt then floatToInt d rm r v
    else match d with
      | .e8m0 => toE8m0 rm v
      | .e2m1 => encodeE2m1 rm r 127 0 false v
      | _ => roundVal d rm flush r v

/-- One step of an rst state (R200). -/
def rstStep (s : Word) : Word := (s >>> 1) ^^^ (if s.getLsbD 0 then 0x80200003#32 else 0#32)

def rst24 (s : Word) : Nat := s.toNat % 2 ^ 24

/-! ### Special functions (R216, R93) -/

/-- The integer square root, bit by bit from 2^n. -/
def isqrtLoop : Nat → Nat → Nat → Nat
  | 0, _, acc => acc
  | n + 1, x, acc =>
    let t := acc + 2 ^ n
    isqrtLoop n x (if t * t ≤ x then t else acc)

def isqrt (x : Nat) : Nat := isqrtLoop (Nat.log2 x / 2 + 1) x 0

/-- Fractional bits of the fixed-point work. -/
def fixBits : Nat := 480

def fixOne : Int := 2 ^ fixBits

def fixMul (a b : Int) : Int := a * b / fixOne

/-- sum over k of the terms t_k, with t_{k+1} = t_k * z * num / den(k), n terms, in fixed point. -/
def series (den : Nat → Int) (z : Int) : Nat → Nat → Int → Int → Int
  | 0, _, _, acc => acc
  | n + 1, k, t, acc => series den z n (k + 1) (fixMul t z / den k) (acc + t)

/-- e^z - 1 for a fixed-point z with |z| below 1. -/
def fixExpm1 (z : Int) : Int := series (fun k => (k : Int) + 2) z 110 0 z 0

/-- sum z^(2k+1)/(2k+1), the inverse hyperbolic tangent, for |z| at most 1/3. -/
def atanhLoop (z2 : Int) : Nat → Nat → Int → Int → Int
  | 0, _, _, acc => acc
  | n + 1, k, t, acc => atanhLoop z2 n (k + 1) (fixMul t z2) (acc + t / (2 * k + 1))

def fixAtanh (z : Int) : Int := atanhLoop (fixMul z z) 160 0 z 0

/-- ln 2 = 2 atanh(1/3). -/
def fixLn2 : Int := 2 * fixAtanh (fixOne / 3)

/-- arctan of 1/n, n terms of its series. -/
def atanInvLoop (n2 : Int) : Nat → Nat → Int → Int → Int
  | 0, _, _, acc => acc
  | n + 1, k, t, acc => atanInvLoop n2 n (k + 1) (-(t / n2)) (acc + t / (2 * k + 1))

def piBits : Nat := 640

/-- pi by Machin's formula, with piBits fractional bits. -/
def fixPi : Int :=
  4 * (4 * atanInvLoop 25 150 0 (2 ^ piBits / 5) 0 - atanInvLoop 57121 50 0 (2 ^ piBits / 239) 0)

/-- A positive real below a result's exactness: its value lies in [m * 2^e, (m+1) * 2^e), exactly m * 2^e when `exact`. -/
structure Approx where
  neg : Bool
  m : Nat
  e : Int
  exact : Bool
  deriving DecidableEq, Repr

/-- A fixed-point value as an approximation that is not exact. -/
def Approx.ofFix (x : Int) : Approx := { neg := decide (x < 0), m := x.natAbs, e := -(fixBits : Int), exact := false }

/-- 2^(m * 2^e) of either sign. -/
def exp2Approx (neg : Bool) (m : Nat) (e : Int) : Approx :=
  if 0 ≤ Nat.log2 m + e - 9 then
    if neg then { neg := false, m := 1, e := -400, exact := false } else { neg := false, m := 1, e := 400, exact := false }
  else
    let x : Int := (if neg then -1 else 1) * (if 0 ≤ e + fixBits then (m * 2 ^ (e + fixBits).toNat : Nat) else m / 2 ^ (-(e + fixBits)).toNat)
    let n := x / fixOne
    let f := x % fixOne
    if f = 0 then { neg := false, m := 1, e := n, exact := decide (0 ≤ e + fixBits) }
    else { neg := false, m := (fixOne + fixExpm1 (fixMul f fixLn2)).toNat, e := n - fixBits, exact := false }

/-- log2(m * 2^e). -/
def log2Approx (m : Nat) (e : Int) : Approx :=
  let k := Nat.log2 m
  let n : Int := k + e
  if m = 2 ^ k then { neg := decide (n < 0), m := n.natAbs, e := 0, exact := true }
  else
    let z : Int := (m - 2 ^ k : Nat) * fixOne / (m + 2 ^ k : Nat)
    let l := 2 * fixAtanh z * fixOne / fixLn2
    Approx.ofFix (n * fixOne + l)

/-- A fixed-point value of m * 2^e. -/
def toFix (neg : Bool) (m : Nat) (e : Int) : Int :=
  (if neg then -1 else 1) * (if 0 ≤ e + fixBits then (m * 2 ^ (e + fixBits).toNat : Nat) else m / 2 ^ (-(e + fixBits)).toNat)

/-- sin z and cos z for a fixed-point z in [0, 2). -/
def fixSin (z : Int) : Int := series (fun k => -((2 * k + 2 : Int) * (2 * k + 3))) (fixMul z z) 60 0 z 0
def fixCos (z : Int) : Int := series (fun k => -((2 * k + 1 : Int) * (2 * k + 2))) (fixMul z z) 60 0 fixOne 0

/-- sin, or cos when `cos`, of m * 2^e: the quadrant from a division by pi/2, then a series. -/
def sinApprox (cos : Bool) (neg : Bool) (m : Nat) (e : Int) : Approx :=
  let x : Int := if 0 ≤ e + piBits then (m * 2 ^ (e + piBits).toNat : Nat) else m / 2 ^ (-(e + piBits)).toNat
  let h := fixPi / 2
  let q := x / h
  let z := x % h / 2 ^ (piBits - fixBits)
  let k := (q + (if cos then 1 else 0)) % 4
  let y := if k % 2 = 0 then fixSin z else fixCos z
  let y := if 2 ≤ k then -y else y
  Approx.ofFix (if neg && !cos then -y else y)

/-- e^(-t) for a fixed-point t ≥ 0, never 0. -/
def fixExpNeg (t : Int) : Int :=
  let n := t / fixLn2
  let f := t % fixLn2
  if n > fixBits then 1 else max 1 ((fixOne * fixOne / (fixOne + fixExpm1 f)) / 2 ^ n.toNat)

/-- tanh of m * 2^e. -/
def tanhApprox (neg : Bool) (m : Nat) (e : Int) : Approx :=
  let big := decide (8 ≤ (Nat.log2 m : Int) + e)
  let t := toFix false m e
  let y : Int :=
    if big then fixOne - 1
    else if t * 4 < fixOne then let u := fixExpm1 (2 * t); u * fixOne / (u + 2 * fixOne)
    else let q := fixExpNeg (2 * t); (fixOne - q) * fixOne / (fixOne + q)
  { Approx.ofFix y with neg := neg }

/-- 1 / (1 + e^(-x)) of x = m * 2^e. -/
def sigmApprox (neg : Bool) (m : Nat) (e : Int) : Approx :=
  let big := decide (9 ≤ (Nat.log2 m : Int) + e)
  if big then if neg then { neg := false, m := 1, e := -400, exact := false } else Approx.ofFix (fixOne - 1)
  else
    let q := fixExpNeg (toFix false m e)
    let y := if neg then q * fixOne / (fixOne + q) else fixOne * fixOne / (fixOne + q)
    Approx.ofFix y

/-- 1 / (m * 2^e). -/
def rcpApprox (neg : Bool) (m : Nat) (e : Int) : Approx :=
  let k := Nat.log2 m + 64
  { neg := neg, m := 2 ^ k / m, e := -(k : Int) - e, exact := 2 ^ k % m == 0 }

/-- The square root of m * 2^e. -/
def sqrtApprox (m : Nat) (e : Int) : Approx :=
  let m' := if e % 2 = 0 then m * 2 ^ 80 else m * 2 ^ 81
  let e' := if e % 2 = 0 then e - 80 else e - 81
  let r := isqrt m'
  { neg := false, m := r, e := e' / 2, exact := r * r == m' }

/-- The reciprocal square root of m * 2^e. -/
def rsqApprox (m : Nat) (e : Int) : Approx :=
  let m' := if e % 2 = 0 then m else 2 * m
  let e' := if e % 2 = 0 then e else e - 1
  let q := 2 ^ (2 * (Nat.log2 m' + 80)) / m'
  let r := isqrt q
  { neg := false, m := r, e := -((Nat.log2 m' : Int) + 80) - e' / 2,
    exact := r * r == q && 2 ^ (2 * (Nat.log2 m' + 80)) % m' == 0 }

/-- The neighbour toward zero in F32 (magnitude bits), and whether the value is that neighbour exactly. -/
def Approx.floor32 (x : Approx) : Nat × Bool :=
  if x.m = 0 then (0, x.exact)
  else
    let (t, rem, _) := magFloor .f32 x.m x.e
    (t, rem == 0 && x.exact && decide (t ≤ Fmt.maxBits .f32))

/-- Round an approximation to nearest, or under a mode, with its inexactness made certain. -/
def Approx.round (f : Fmt) (rm : Rm) (ftz : Bool) (x : Approx) : FRes :=
  if x.m = 0 then (if x.exact then { bits := withSign f x.neg 0 } else roundMag f rm ftz 0 x.neg 1 (-2000))
  else roundMag f rm ftz 0 x.neg (if x.exact then x.m else 4 * x.m + 1) (if x.exact then x.e else x.e - 2)

/-- Whether an F32 magnitude lies within n ulp of a value, an ulp being the spacing of F32 at the value. -/
def Approx.within (x : Approx) (n c : Nat) : Bool :=
  match decodeFloat .f32 c with
  | .num _ m e =>
    let u : Int := max ((Nat.log2 x.m : Int) + x.e) (-126) - 23
    let b := min (min x.e e) u
    decide ((dyAt b false m e - dyAt b false x.m x.e).natAbs ≤ n * 2 ^ (u - b).toNat)
  | _ => false

/-- The F32 magnitudes that a bound of n ulp allows: they stand next to the neighbour toward zero. -/
def Approx.choices (x : Approx) (n : Nat) : List Nat :=
  let t := x.floor32.1
  ((natsFrom 0 (3 * n + 2)).map fun k => t + n - k).dedup.filter (x.within n)

/-- The F32 result of an approximate function within `n` ulp: the opaque choice among the results the bound allows
(log entry 8). The exact result is given where it is representable and `snap` holds; a value that overflows is an
infinity. -/
def ulpResult (fn : Nat) (src : Nat) (n : Nat) (snap : Bool) (x : Approx) : FRes :=
  let (t, isExact) := x.floor32
  let exactRes := x.round .f32 .rne false
  if isExact && snap then { bits := withSign .f32 x.neg t }
  else if exactRes.flags.overflow then exactRes
  else
    let cs := x.choices n
    let bits := nth t cs (Config.ulpPick fn (BitVec.ofNat 32 src) % cs.length)
    { bits := withSign .f32 x.neg bits,
      flags := { inexact := !(isExact && bits == t), underflow := exactRes.flags.underflow } }

/-- FSIN and FCOS beyond 2^16 radians (R216): the opaque choice where it lies within 2^-22 of the exact value, else the
exact value's rounding. -/
def absResult (fn : Nat) (src : Nat) (x : Approx) : FRes :=
  let pick := Config.ulpPick fn (BitVec.ofNat 32 src) % 2 ^ 32
  let y : Int := (if x.neg then -1 else 1) * (x.m : Int)
  let near := match decodeFloat .f32 pick with
    | .num neg m e => decide ((toFix neg m e - y).natAbs ≤ 2 ^ (fixBits - 22))
    | _ => false
  { bits := if near then pick else (x.round .f32 .rne false).bits, flags := { inexact := true } }

/-- Whether a magnitude m * 2^e exceeds 2^16. -/
def beyond16 (m : Nat) (e : Int) : Bool :=
  decide (16 < (Nat.log2 m : Int) + e) || ((Nat.log2 m : Int) + e == 16 && m != 2 ^ Nat.log2 m)

/-- The special functions of FUN codes 2 to 10. -/
inductive SpecialFn where
  | rcp | rsq | sqrt | exp2 | log2 | sin | cos | tanh | sigm
  deriving DecidableEq, Repr

def SpecialFn.code : SpecialFn → Nat
  | .rcp => 2
  | .rsq => 3
  | .sqrt => 4
  | .exp2 => 5
  | .log2 => 6
  | .sin => 7
  | .cos => 8
  | .tanh => 9
  | .sigm => 10

/-- Invalid operation: the canonical NaN. -/
def invalidRes : FRes := { bits := Fmt.nanBits .f32, flags := { invalid := true } }

def infRes (neg divzero : Bool) : FRes :=
  { bits := withSign .f32 neg (Fmt.maxBits .f32 + 1), flags := { divzero := divzero } }

def oneBits : Nat := 0x3F800000

/-- The F32 result y of a special function at a value (R216); `rm` and `ftz` matter to FSQRT alone. `src` is the F32
pattern of the source, by which the opaque choice is made. -/
def specialF32 (fn : SpecialFn) (rm : Rm) (src : Nat) (v : Val) : FRes :=
  match v with
  | .nan sig => { bits := Fmt.nanBits .f32, flags := { invalid := sig } }
  | .inf neg =>
    match fn with
    | .rcp => { bits := withSign .f32 neg 0 }
    | .rsq => if neg then invalidRes else { bits := 0 }
    | .sqrt => if neg then invalidRes else infRes false false
    | .exp2 => if neg then { bits := 0 } else infRes false false
    | .log2 => if neg then invalidRes else infRes false false
    | .sin | .cos => invalidRes
    | .tanh => { bits := withSign .f32 neg oneBits }
    | .sigm => if neg then { bits := 0 } else { bits := oneBits }
  | .num neg m e =>
    if m = 0 then
      match fn with
      | .rcp | .rsq => infRes neg true
      | .sqrt | .sin | .tanh => { bits := withSign .f32 neg 0 }
      | .exp2 => { bits := oneBits }
      | .cos => ulpResult 8 src 2 false { neg := false, m := 1, e := 0, exact := true }
      | .log2 => infRes true true
      | .sigm => ulpResult 10 src 2 false { neg := false, m := 1, e := -1, exact := true }
    else
      match fn with
      | .rcp => ulpResult 2 src 1 true (rcpApprox neg m e)
      | .rsq => if neg then invalidRes else ulpResult 3 src 1 false (rsqApprox m e)
      | .sqrt => if neg then invalidRes else (sqrtApprox m e).round .f32 rm false
      | .exp2 => ulpResult 5 src 1 true (exp2Approx neg m e)
      | .log2 => if neg then invalidRes else ulpResult 6 src 1 true (log2Approx m e)
      | .sin =>
        if beyond16 m e then absResult 7 src (sinApprox false neg m e)
        else ulpResult 7 src 2 false (sinApprox false neg m e)
      | .cos =>
        if beyond16 m e then absResult 8 src (sinApprox true neg m e)
        else ulpResult 8 src 2 false (sinApprox true neg m e)
      | .tanh => ulpResult 9 src 2 false (tanhApprox neg m e)
      | .sigm => ulpResult 10 src 2 false (sigmApprox neg m e)

/-- Underflow and overflow are raised for FEXP2, FRCP and FSIGM only, FSQRT being a correctly rounded operation that
meets neither (R216); a result that FTZ flushes raises underflow whatever the function (R199). -/
def SpecialFn.ranges : SpecialFn → Bool
  | .rcp | .exp2 | .sigm => true
  | _ => false

/-- A special function on one element of a float type, with FTZ on source and result (R216, R199). -/
def specialFn (fn : SpecialFn) (f : Fmt) (rm : Rm) (ftz : Bool) (a : Nat) : FRes :=
  let v := readFloat f ftz a
  let src := (roundVal .f32 .rne false 0 v).bits
  let y := specialF32 fn rm src v
  let fl : Flags := if fn.ranges then y.flags else { y.flags with overflow := false, underflow := false }
  if f = .f32 then
    if ftz && isSubnormal .f32 y.bits then
      { bits := y.bits / 2 ^ 31 * 2 ^ 31, flags := { fl with underflow := true, inexact := true } }
    else { bits := y.bits, flags := fl }
  else
    let w := decodeFloat .f32 y.bits
    let z := roundVal f rm ftz 0 w
    let flushed := z.bits != (roundVal f rm false 0 w).bits
    let zf : Flags := if fn.ranges then z.flags else { z.flags with overflow := false, underflow := flushed }
    { bits := z.bits, flags := fl.or { zf with invalid := false } }

end Sys2Proof.Machine
end

