-- ==== Sys2Proof/Machine/Atomic.lean ====
section
/-! DEFINITION. What the fields of a memory prefix mean and what an atomic computes
(spec/06_memory_model.md R121-R124; spec/13_instr_memory_matrix.md R286, R287). -/

namespace Sys2Proof

def Scope.rank : Scope → Nat
  | .slice => 0
  | .grp => 1
  | .core => 2
  | .quad => 3
  | .die => 4
  | .pkg => 5
  | .pod => 6

def Order.isRel : Order → Bool
  | .rel | .ar => true
  | _ => false

def Order.isAcq : Order → Bool
  | .acq | .ar => true
  | _ => false

end Sys2Proof

namespace Sys2Proof.Machine

def pfxOrder (p : Option Pfx) : Order := (p.map (·.order)).getD .rlx
def pfxUse (p : Option Pfx) : Use := (p.map (·.use)).getD .plain
def pfxScope (p : Option Pfx) : Scope := (p.map (·.scope)).getD .slice
def pfxCp (p : Option Pfx) : Nat := (p.map (·.rm.toNat)).getD 0

/-- A word operation of an atomic: the new value from the old one (R287). -/
def atomNew (o : AtomOp) (old b : Word) : Word :=
  match o with
  | .addI32 => old + b
  | .addF32 => BitVec.ofNat 32 (fAdd .f32 .rne false old.toNat b.toNat).bits
  | .addBf16x2 =>
    let h := fun k => (fAdd .bf16 .rne false (field old.toNat (16 * k) 16) (field b.toNat (16 * k) 16)).bits
    BitVec.ofNat 32 (h 0 + 2 ^ 16 * h 1)
  | .minI32 => if old.toInt ≤ b.toInt then old else b
  | .maxI32 => if b.toInt ≤ old.toInt then old else b
  | .minN32 => if old.toNat ≤ b.toNat then old else b
  | .maxN32 => if b.toNat ≤ old.toNat then old else b
  | .exch => b

/-- ATOMB's word operations, c being the compare value. -/
def atombNew (o : AtombOp) (old b c : Word) : Word :=
  match o with
  | .and => old &&& b
  | .or => old ||| b
  | .xor => old ^^^ b
  | .cas => if old = c then b else old
  | .minF32 => BitVec.ofNat 32 (fMinMax false .f32 false old.toNat b.toNat).bits
  | .maxF32 => BitVec.ofNat 32 (fMinMax true .f32 false old.toNat b.toNat).bits
  | .addI64 => old

/-- The new value of an atomic of 2, 4 or 8 bytes: a half of a split BF16X2 addition, a word, or a doubleword. -/
def rmwNew (i : Instr) (n : Nat) (old b c : DWord) : DWord :=
  match i with
  | .atom _ o _ _ _ _ =>
    if n = 2 then BitVec.ofNat 64 (fAdd .bf16 .rne false (field old.toNat 0 16) (field b.toNat 0 16)).bits
    else (atomNew o (lo32 old) (lo32 b)).setWidth 64
  | .atomb _ o _ _ _ _ =>
    if o = .addI64 then old + b else (atombNew o (lo32 old) (lo32 b) (lo32 c)).setWidth 64
  | _ => old

/-- Bytes that an atomic updates, a split BF16X2 addition apart. -/
def rmwBytes (i : Instr) : Nat :=
  match i with
  | .atomb _ .addI64 _ _ _ _ => 8
  | _ => 4

/-- Two comm updates combine: the operand of the combined update (R117). -/
def combineWith (i : Instr) (x y : DWord) : DWord := rmwNew i (rmwBytes i) x y 0

def sameOp (i j : Instr) : Bool :=
  match i, j with
  | .atom _ o _ _ _ _, .atom _ o' _ _ _ _ => o == o'
  | .atomb _ o _ _ _ _, .atomb _ o' _ _ _ _ => o == o'
  | _, _ => false

/-- Whether a deferred update is a comm update, which a whole quad combines. -/
def Deferred.isComm (d : Deferred) : Bool :=
  match d.instr with
  | .atom p _ _ _ _ _ | .atomb p _ _ _ _ _ => pfxUse p == .comm
  | _ => false

end Sys2Proof.Machine
end

