-- ==== Sys2Proof/Machine/Report.lean ====
section
/-! DEFINITION. State updates that every part of the machine uses, and the reports that units hand to the event arbiter
(spec/18_faults_and_preemption.md R420-R423). -/

namespace Sys2Proof.Machine

/-! ### Updates of the state's groups of fields -/

def State.onCaches (s : State) (f : Caches → Caches) : State := { s with caches := f s.caches }

def State.onEngines (s : State) (f : Engines → Engines) : State := { s with engines := f s.engines }

def State.onOutside (s : State) (f : Outside → Outside) : State := { s with outside := f s.outside }

/-- A fresh name (log entry 1). -/
def State.fresh (s : State) : Nat × State := (s.nextId, { s with nextId := s.nextId + 1 })

/-- A fresh free value (log entry 2). -/
def State.freeValue (s : State) : DWord × State := (Config.freeBits s.free, { s with free := s.free + 1 })

/-! ### Events -/

/-- SOURCE bytes (R422). -/
def srcDie (d : Nat) : Byte := BitVec.ofNat 8 d
def srcBase (n : Nat) : Byte := BitVec.ofNat 8 (32 + n)
def srcIo (n : Nat) : Byte := BitVec.ofNat 8 (64 + n)

/-- R421: a hardware source holds 16 events the arbiter has not taken; one beyond that is dropped and counted. -/
def State.post (s : State) (e : Event) : State :=
  if 16 ≤ (s.outside.events.filter fun x => x.source == e.source && x.cls != 0).length then
    s.onOutside fun o => { o with dropped := assocSet o.dropped e.source (assoc 0 o.dropped e.source + 1) }
  else s.onOutside fun o => { o with events := o.events ++ [e] }

/-- A memory event (R423 class 3). -/
def State.postMemory (s : State) (source : Byte) (code : Nat) (ctx core : Option Nat) (payload detail : DWord) : State :=
  s.post { source := source, cls := 3, code := code, ctx := ctx, core := core, payload := payload, detail := detail }

/-- A schedule event (R423 class 5). -/
def State.postSchedule (s : State) (source : Byte) (code : Nat) (ctx core : Option Nat) (payload detail : DWord) :
    State :=
  s.post { source := source, cls := 5, code := code, ctx := ctx, core := core, payload := payload, detail := detail }

end Sys2Proof.Machine
end

