-- ==== Sys2Proof/Machine/Mem.lean ====
section
/-! DEFINITION. The physical map, the homes of bytes, and the caches between a core and a home
(spec/01_addresses_and_homes.md R12-R20, spec/02_in_the_stack.md R28-R31, R46-R53, spec/05_caches_and_atomics.md
R107-R119). `mem` holds what the banks and the scratchpads hold; the memory-side cache, the die cache and the quad cache
each hold their own copy of a line, tagged by its physical address. -/

namespace Sys2Proof.Machine

/-! ### The physical map -/

/-- A place of the physical map (R12): a stack's byte by the homed or the striped view, a scratchpad byte, remote-part
space, or none. -/
inductive Place where
  | homed (stack off : Nat)
  | striped (stack off : Nat)
  | scratch (core off : Nat)
  | remote
  | none
  deriving DecidableEq, Repr

def homedBase : Nat := 0x100000000000
def stripedBase : Nat := 0x200000000000
def scratchBase : Nat := 0x300000000000
def remoteBase : Nat := 0x1000000000000

/-- R12 and R13. -/
def placeOf (pa : Nat) : Place :=
  if homedBase ≤ pa && decide (pa < homedBase + 2 ^ 40) then
    .homed ((pa - homedBase) / 2 ^ 36) ((pa - homedBase) % 2 ^ 36)
  else if stripedBase ≤ pa && decide (pa < stripedBase + 2 ^ 40) then
    let f := pa - stripedBase
    .striped (f / 4096 % 16) (f / 65536 * 4096 + f % 4096)
  else if scratchBase ≤ pa && decide (pa < scratchBase + 2 ^ 29) then
    .scratch ((pa - scratchBase) / 2 ^ 22) ((pa - scratchBase) % 2 ^ 22)
  else if remoteBase ≤ pa && decide (pa < 2 ^ 52) then .remote
  else .none

/-- The number under which a byte is held: its address in the homed view, or in a scratchpad (R14). -/
def memKey (pa : Nat) : Nat :=
  match placeOf pa with
  | .striped st off => homedBase + st * 2 ^ 36 + off
  | _ => pa

/-- The stack and stack-local byte of a physical address. -/
def stackOf (pa : Nat) : Option (Nat × Nat) :=
  match placeOf pa with
  | .homed st off | .striped st off => some (st, off)
  | _ => none

def dieOfCore (c : Nat) : Nat := c / 8
def quadOfCore (c : Nat) : Nat := c / 4
def dieOfQuad (q : Nat) : Nat := q / 2

/-- The 32-byte sectors that n bytes at a key touch, and those they cover. -/
def sectorsOf (k n : Nat) : List Nat := if n = 0 then [] else natsFrom (k / 32) ((k + n - 1) / 32 - k / 32 + 1)
def sectorsCovered (k n : Nat) : List Nat :=
  (sectorsOf k n).filter fun t => decide (k ≤ 32 * t) && decide (32 * t + 32 ≤ k + n)

/-! ### Policies (R20) -/

/-- R20: the less-caching of the page's CPOL and the instruction's CP wins. -/
def policyOf (cpol cp : Nat) : Policy :=
  if cpol = 2 then .uncached
  else
    match cp with
    | 1 => .noAlloc
    | 2 => if cpol = 1 then .noAlloc else .keep
    | 3 => .bypass
    | _ => if cpol = 1 then .noAlloc else .normal

/-! ### Sectors of a line, and their bytes (R107, R119) -/

/-- The sectors of a line that n bytes at an offset touch, and cover. -/
def touched (off n : Nat) : Bool × Bool :=
  (decide (0 < n) && decide (off < 32), decide (0 < n) && decide (32 < off + n))
def covered (off n : Nat) : Bool × Bool :=
  (decide (off = 0) && decide (32 ≤ n), decide (off ≤ 32) && decide (64 ≤ off + n))
def orPair (a b : Bool × Bool) : Bool × Bool := (a.1 || b.1, a.2 || b.2)
def andPair (a b : Bool × Bool) : Bool × Bool := (a.1 && b.1, a.2 && b.2)
def lessPair (a b : Bool × Bool) : Bool × Bool := (a.1 && !b.1, a.2 && !b.2)
def anyPair (a : Bool × Bool) : Bool := a.1 || a.2
/-- One sector of two. -/
def onlyPair (h : Nat) : Bool × Bool := (h == 0, h == 1)

def LineData.slice (l : LineData) (off n : Nat) : List Byte := (l.data.drop off).take n

/-- Whether n bytes at an offset touch a poisoned sector. -/
def LineData.poisonAt (l : LineData) (off n : Nat) : Bool := anyPair (andPair l.poison (touched off n))

/-- The line with the chosen sectors of another. -/
def LineData.over (l new : LineData) (p : Bool × Bool) : LineData :=
  { data := (if p.1 then new else l).data.take 32 ++ (if p.2 then new else l).data.drop 32,
    poison := ((if p.1 then new else l).poison.1, (if p.2 then new else l).poison.2) }

/-- The line with bytes written at an offset: a write that covers a sector clears its poison, one that carries poison sets
it (R119). -/
def LineData.put (l : LineData) (off : Nat) (bs : List Byte) (bad : Bool) : LineData :=
  { data := l.data.take off ++ bs ++ l.data.drop (off + bs.length),
    poison := orPair (lessPair l.poison (covered off bs.length)) (if bad then touched off bs.length else (false, false)) }

/-- Bytes at an offset of a line, cut at its sectors: each part with its offset. -/
def sectorCuts (off : Nat) (bs : List Byte) : List (Nat × List Byte) :=
  [(off, bs.take (32 - off)), (Nat.max off 32, bs.drop (32 - off))].filter fun c => !c.2.isEmpty

/-- The lines that n bytes touch. -/
def linesOf (pa n : Nat) : List Nat := (List.range ((pa % 64 + n + 63) / 64)).map fun k => pa / 64 * 64 + 64 * k

/-! ### The banks (R28, R29, R48-R53) -/

/-- Bank coordinates of a stack-local byte (R28): pseudo-channel, bank, row. -/
def bankOf (b : Nat) : Nat × Nat × Nat := (b / 256 % 64, b / 2 ^ 14 % 16, b / 2 ^ 21)

def State.stackCsr (s : State) (stack : Nat) : StackCsr := assoc {} s.stackCsrs stack

def State.setStackCsr (s : State) (stack : Nat) (f : StackCsr → StackCsr) : State :=
  { s with stackCsrs := assocSet s.stackCsrs stack (f (s.stackCsr stack)) }

def State.bankAt (s : State) (stack pch bank : Nat) : Bank :=
  (s.engines.banks.find? fun b => b.stack == stack && b.pch == pch && b.bank == bank).getD { stack := stack, pch := pch, bank := bank }

def State.setBank (s : State) (b : Bank) : State :=
  s.onEngines fun g => { g with banks := b :: g.banks.filter fun x => !(x.stack == b.stack && x.pch == b.pch && x.bank == b.bank) }

/-- What the banks hold of a line. -/
def State.dramLine (s : State) (line : Nat) : LineData :=
  let k := memKey line
  { data := s.mem.getBytes k 64, poison := (s.signed.contains (k / 32), s.signed.contains (k / 32 + 1)) }

/-- Store a sector of a line in a bank, with the signature when it carries poison (R53). -/
def State.dramStore (s : State) (line h : Nat) (d : LineData) : State :=
  let t := memKey line / 32 + h
  { s with mem := s.mem.setBytes (32 * t) (d.slice (32 * h) 32),
           signed := if d.poisonAt (32 * h) 32 then insertNat t s.signed else s.signed.filter (· != t),
           latent := s.latent.filter (· != t) }

def State.dramWrite (s : State) (line : Nat) (p : Bool × Bool) (d : LineData) : State :=
  let s := if p.1 then s.dramStore line 0 d else s
  if p.2 then s.dramStore line 1 d else s

/-- Read a sector from its bank: an uncorrectable error poisons it and posts one memory event; a read that does not keep the
sector stores it back with the signature at once (R51). -/
def State.dramMeet (s : State) (stack line : Nat) (keep : Bool) (h : Nat) : State × Bool :=
  let t := memKey line / 32 + h
  if s.latent.contains t then
    let s := s.postMemory (srcBase stack) 3 none none (BitVec.ofNat 64 (line + 32 * h)) 1
    ({ s with latent := s.latent.filter (· != t), signed := if keep then s.signed else insertNat t s.signed }, true)
  else (s, false)

/-- Read the chosen sectors of a line from their bank: the line, and which of them met an error. -/
def State.dramRead (s : State) (stack line : Nat) (p : Bool × Bool) (keep : Bool) : State × LineData × (Bool × Bool) :=
  let d := s.dramLine line
  let (s, a) := if p.1 then s.dramMeet stack line keep 0 else (s, false)
  let (s, b) := if p.2 then s.dramMeet stack line keep 1 else (s, false)
  (s, { d with poison := orPair d.poison (a, b) }, (a, b))

/-- The write-backs that wait at a bank, oldest first. -/
def State.bankReqs (s : State) (b : Bank) : List LineReq :=
  s.caches.bankQueue.filter fun r => match stackOf r.addr with
    | some (st, off) => st == b.stack && (bankOf off).1 == b.pch && (bankOf off).2.1 == b.bank
    | none => false

/-- Whether a request has waited 256 base-die clocks (R29). -/
def State.overdue (s : State) (r : LineReq) : Bool := decide (r.since + 256 ≤ s.baseClk)

def Bank.hits (b : Bank) (r : LineReq) : Bool :=
  match stackOf r.addr with
  | some (_, off) => b.row == some (bankOf off).2.2
  | none => false

/-- Perform a write-back at its bank. -/
def State.serveReq (s : State) (r : LineReq) : State :=
  (s.onCaches fun c => { c with bankQueue := c.bankQueue.erase r }).dramWrite r.addr r.sectors r.toLineData

/-- Perform the queued write-backs of a line's bytes, under either of its names. -/
def State.settleBank (s : State) (line : Nat) : State :=
  (s.caches.bankQueue.filter fun r => memKey r.addr == memKey line).foldl State.serveReq s

/-- Whether a sequencer's row stands open in a bank. -/
def Bank.seqOpen (b : Bank) : Bool := b.row.isSome && b.owner.isSome && b.recorded.isNone

/-- A sequencer gives its row up to an ordinary access that has arrived: its row is recorded and the yield counted; at the
cap it takes a burst instead, and the access comes behind it, as one does that finds a burst under way (R48, R49). -/
def Bank.giveUp (b : Bank) (cap : Nat) : Bank :=
  match b.owner with
  | some c =>
    let n := assoc 0 b.yields c
    if 0 < b.burst then { b with behind := true }
    else if cap ≤ n then { b with yields := assocSet b.yields c 0, burst := 8, behind := true }
    else { b with recorded := b.row, row := none, yields := assocSet b.yields c (n + 1) }
  | none => b

/-- A bank after an ordinary access to a row: a row that a sequencer gave up is activated again, unless sequencers are held
off the bank (R48, R50). -/
def Bank.ordinary (b : Bank) (row : Nat) : Bank :=
  if b.recorded.isSome then
    if b.hold.isNone then { b with row := b.recorded, recorded := none } else { b with row := some row }
  else { b with row := some row, owner := none }

/-- An ordinary read of a line arrives at its bank and is served (R29, R48): before it the overdue write-backs; with a row
of its own to open, also those that hit the open row and then the older ones. A read that stands behind a sequencer's
burst leaves the sequencer its row until the burst is over, and no write-back but an overdue one, or one of its own line,
goes with it; its bytes are those of now, which R47 allows wherever the burst could change them (DEDUCED, log 89). -/
def State.bankTurn (s : State) (line : Nat) : State :=
  match stackOf line with
  | none => s
  | some (st, off) =>
    let (pch, bank, row) := bankOf off
    let b := s.bankAt st pch bank
    let b := if b.seqOpen then b.giveUp (s.stackCsr st).yieldCap.toNat else b
    let rs := s.bankReqs b
    let late := rs.filter s.overdue
    let rest := rs.filter fun r => !s.overdue r
    let own := rest.filter fun r => memKey r.addr == memKey line
    if b.seqOpen then ((late ++ own).foldl State.serveReq s).setBank b
    else
      let first := late ++ (if b.row == some row then own else rest.filter b.hits ++ rest.filter fun r => !b.hits r)
      (first.foldl State.serveReq s).setBank (b.ordinary row)

/-! ### The memory-side cache (R30, R31) -/

def mscSame (a b : Nat) : Bool :=
  match stackOf a, stackOf b with
  | some (s, x), some (t, y) => s == t && x / 64 % 32768 == y / 64 % 32768
  | _, _ => false

def State.mscLine? (s : State) (line : Nat) : Option MscLine := s.caches.mscLines.find? (·.addr == line)

/-- The write-back of the chosen sectors of a line, as a request. -/
def State.writeBackOf (s : State) (stack line : Nat) (p : Bool × Bool) (d : LineData) : List LineReq :=
  if anyPair p then [{ d with stack := stack, addr := line, sectors := p, since := s.baseClk }] else []

/-- Place a line in the memory-side cache, the least recently used way of the set leaving (R30). -/
def State.mscPlace (s : State) (stack : Nat) (line : MscLine) : State :=
  let ls := s.caches.mscLines.filter (·.addr != line.addr)
  let set := ls.filter fun x => mscSame x.addr line.addr
  match if 16 ≤ set.length then set.getLast? else none with
  | some v =>
    s.onCaches fun c =>
      { c with mscLines := line :: ls.filter (·.addr != v.addr),
               bankQueue := c.bankQueue ++ s.writeBackOf stack v.addr v.dirty v.toLineData }
  | none => s.onCaches fun c => { c with mscLines := line :: ls }

/-- A read of the chosen sectors of a line at the tag check (R31): what is missing comes from the bank, and a read that
allocates fills the line. A sector that met an error is to be written back, with the signature (R53; DEDUCED, log 28).
A sequencer (`seq`) has its row open already. -/
def State.mscRead (s : State) (stack line : Nat) (want : Bool × Bool) (alloc seq : Bool) : State × LineData :=
  let found := s.mscLine? line
  let l := found.getD { addr := line, valid := (false, false) }
  if lessPair want l.valid = (false, false) then (s.mscPlace stack l, l.toLineData)
  else
    let get := if alloc then lessPair (true, true) l.valid else lessPair want l.valid
    let s := if seq then s.settleBank line else s.bankTurn line
    let (s, d, bad) := s.dramRead stack line get alloc
    let data := l.toLineData.over d get
    if alloc then (s.mscPlace stack { l with toLineData := data, valid := (true, true), dirty := orPair l.dirty bad }, data)
    else (if found.isSome then s.mscPlace stack l else s, data)

/-- A write within one sector of a line at the tag check. One that neither allocates nor hits goes on to the bank, as a
read-modify-write of its sector (R30, R53). -/
def State.mscWrite (s : State) (stack line off : Nat) (bs : List Byte) (bad alloc : Bool) : State :=
  let h := onlyPair (off / 32)
  let full := decide (bs.length = 32)
  let valid := ((s.mscLine? line).map (·.valid)).getD (false, false)
  if alloc || anyPair (andPair h valid) then
    let s := if full || anyPair (andPair h valid) then s else (s.mscRead stack line h true false).1
    let l := (s.mscLine? line).getD { addr := line, valid := (false, false) }
    s.mscPlace stack { l with toLineData := l.put off bs bad, valid := orPair l.valid h, dirty := orPair l.dirty h }
  else
    let (s, d) := if full then (s, {}) else s.mscRead stack line h false false
    s.onCaches fun c => { c with bankQueue := c.bankQueue ++ s.writeBackOf stack line h (d.put off bs bad) }

/-- Perform the write-back of a line's sectors at the tag check. -/
def State.mscPut (s : State) (stack line : Nat) (p : Bool × Bool) (d : LineData) : State :=
  let one := fun (s : State) (h : Nat) => s.mscWrite stack line (32 * h) (d.slice (32 * h) 32) (d.poisonAt (32 * h) 32) true
  let s := if p.1 then one s 0 else s
  if p.2 then one s 1 else s

/-- Perform a queued write-back of the die cache. -/
def State.serveMsc (s : State) (r : LineReq) : State :=
  (s.onCaches fun c => { c with mscQueue := c.mscQueue.erase r }).mscPut r.stack r.addr r.sectors r.toLineData

/-- Perform the die cache's queued write-backs of a line, which left it before what it sends now. -/
def State.settleMsc (s : State) (line : Nat) : State :=
  (s.caches.mscQueue.filter (·.addr == line)).foldl State.serveMsc s

/-! ### The die cache (R107, R108, R113) -/

/-- The die-cache slice of a stack-local byte (R108). -/
def dieSlice (b : Nat) : Nat := Nat.xor (b / 256 % 32) (b / 8192 % 32)

/-- Two lines in one set of one slice: a slice numbers its sets by the line's address less the five bits that the slice
number gives back (DEDUCED, log 34). -/
def dieSame (a b : Nat) : Bool :=
  match stackOf a, stackOf b with
  | some (s, x), some (t, y) =>
    s == t && dieSlice x == dieSlice y && x / 64 % 4 == y / 64 % 4 && x / 8192 % 512 == y / 8192 % 512
  | _, _ => false

def State.dieLine? (s : State) (line : Nat) : Option DieLine := s.caches.dieLines.find? (·.addr == line)

/-- Place a line in the die cache: the victim is least recently used among the lines not kept, or among all when every
one is kept (R107). -/
def State.diePlace (s : State) (stack : Nat) (line : DieLine) : State :=
  let ls := s.caches.dieLines.filter (·.addr != line.addr)
  let set := ls.filter fun x => dieSame x.addr line.addr
  match if 16 ≤ set.length then (set.filter (!·.kept)).getLast?.or set.getLast? else none with
  | some v =>
    s.onCaches fun c =>
      { c with dieLines := line :: ls.filter (·.addr != v.addr),
               mscQueue := if v.dirty then c.mscQueue ++ s.writeBackOf stack v.addr v.valid v.toLineData else c.mscQueue }
  | none => s.onCaches fun c => { c with dieLines := line :: ls }

/-- Write a dirty die-cache line back to the memory-side cache; the line stays, clean, or leaves. -/
def State.dieWriteBack (s : State) (pa : Nat) (drop : Bool) : State :=
  let line := pa / 64 * 64
  match s.dieLine? line, stackOf pa with
  | some l, some (st, _) =>
    let s := if l.dirty then (s.settleMsc line).mscPut st line l.valid l.toLineData else s
    s.onCaches fun c =>
      { c with dieLines := if drop then c.dieLines.filter (·.addr != line)
          else updateWhere (·.addr == line) (fun x => { x with dirty := false }) c.dieLines }
  | _, _ => s

/-- Whether a line reaches into an active write range of its stack (R46). -/
def State.inWriteRange (s : State) (line : Nat) : Bool :=
  s.engines.cmds.any fun c => c.queued && c.writeRange.any fun r => decide (memKey r.1 < memKey line + 64) &&
    decide (memKey line < memKey r.1 + r.2)

/-- A read of the chosen sectors of a line at its home die-cache slice, under a policy (R113, R46). -/
def State.homeLine (s : State) (line : Nat) (want : Bool × Bool) (p : Policy) : State × LineData :=
  match stackOf line with
  | none => (s, {})
  | some (st, _) =>
    if s.inWriteRange line then (s.settleMsc line).mscRead st line want false false
    else
      match s.dieLine? line, p with
      | _, .uncached => ((s.dieWriteBack line false).settleMsc line).mscRead st line want false false
      | none, .noAlloc => (s.settleMsc line).mscRead st line want false false
      | found, _ =>
        let l := found.getD { addr := line, valid := (false, false) }
        let l := { l with kept := l.kept || p == .keep }
        let miss := lessPair want l.valid
        if miss = (false, false) then (s.diePlace st l, l.toLineData)
        else if p = .noAlloc then
          let (s, d) := (s.settleMsc line).mscRead st line miss false false
          (s.diePlace st l, l.toLineData.over d miss)
        else
          let get := lessPair (true, true) l.valid
          let (s, d) := (s.settleMsc line).mscRead st line get true false
          let data := l.toLineData.over d get
          (s.diePlace st { l with toLineData := data, valid := (true, true) }, data)

/-- A write at its home die-cache slice, bytes of one line, with poison or without. -/
def State.homePut (s : State) (pa : Nat) (bs : List Byte) (bad : Bool) (p : Policy) : State :=
  let line := pa / 64 * 64
  let off := pa % 64
  match stackOf pa with
  | none => s
  | some (st, _) =>
    let beyond := fun (s : State) (cs : List (Nat × List Byte)) =>
      cs.foldl (fun s c => s.mscWrite st line c.1 c.2 bad false) (s.settleMsc line)
    if s.inWriteRange line then beyond s (sectorCuts off bs)
    else
      match s.dieLine? line, p with
      | _, .uncached => beyond (s.dieWriteBack line true) (sectorCuts off bs)
      | none, .noAlloc => beyond s (sectorCuts off bs)
      | found, _ =>
        let l := found.getD { addr := line, valid := (false, false) }
        let part := lessPair (lessPair (touched off bs.length) (covered off bs.length)) l.valid
        if p = .noAlloc then
          let here := fun (c : Nat × List Byte) => anyPair (andPair (onlyPair (c.1 / 32)) l.valid)
          let cs := sectorCuts off bs
          let data := (cs.filter here).foldl (fun (d : LineData) c => d.put c.1 c.2 bad) l.toLineData
          let s := s.diePlace st { l with toLineData := data, dirty := l.dirty || cs.any here }
          if cs.all here then s else beyond s (cs.filter fun c => !here c)
        else
          let (s, d) := if part = (false, false) then (s, l.toLineData)
            else let (s, d) := (s.settleMsc line).mscRead st line part true false; (s, l.toLineData.over d part)
          s.diePlace st { l with toLineData := d.put off bs bad, valid := orPair (orPair l.valid part) (touched off bs.length),
                                 dirty := true, kept := l.kept || p == .keep }

/-- Read n bytes of one line at their home: the bytes, and whether a sector of theirs is poisoned. -/
def State.readHome (s : State) (pa n : Nat) (p : Policy) : State × List Byte × Bool :=
  let (s, l) := s.homeLine (pa / 64 * 64) (touched (pa % 64) n) p
  (s, l.slice (pa % 64) n, l.poisonAt (pa % 64) n)

/-- Write bytes of one line at their home. -/
def State.writeHome (s : State) (pa : Nat) (bs : List Byte) (p : Policy) : State := s.homePut pa bs false p

/-- Perform a read-modify-write of n bytes at a stack home, in one step: the old value, or poison, which leaves the sector
as it is (R114, R119, R286). -/
def State.homeRmw (s : State) (pa n : Nat) (p : Policy) (f : DWord → DWord) : State × DWord × Bool :=
  let (s, bs, bad) := s.readHome pa n p
  let old := BitVec.ofNat 64 (bytesToNat bs)
  if bad then (s, old, true) else (s.writeHome pa (natToBytes n (f old).toNat) p, old, false)

/-! ### What a home holds -/

/-- The line that a read at its home finds (R31, R107): the die cache's sectors, before those on their way to the
memory-side cache, before those there, before those on their way to a bank, before the bank's. -/
def State.homeView (s : State) (line : Nat) : LineData :=
  let l := s.dramLine line
  let l := s.caches.bankQueue.foldl (fun l r => if memKey r.addr == memKey line then l.over r.toLineData r.sectors else l) l
  let l := match s.mscLine? line with
    | some m => l.over m.toLineData m.valid
    | none => l
  let l := s.caches.mscQueue.foldl (fun l r => if r.addr == line then l.over r.toLineData r.sectors else l) l
  match s.dieLine? line with
  | some d => l.over d.toLineData d.valid
  | none => l

/-- The bytes at a physical address, as its home holds them; the n bytes lie in one 4 KiB page or one scratchpad. -/
def State.peek (s : State) (pa n : Nat) : List Byte :=
  match stackOf pa with
  | some _ => (((linesOf pa n).flatMap fun l => (s.homeView l).data).drop (pa % 64)).take n
  | none => s.mem.getBytes (memKey pa) n

/-- Whether a sector of these bytes is poisoned (R119). -/
def State.peekPoison (s : State) (pa n : Nat) : Bool :=
  match stackOf pa with
  | some _ => (linesOf pa n).any fun l =>
      let a := Nat.max pa l
      (s.homeView l).poisonAt (a - l) (Nat.min (pa + n) (l + 64) - a)
  | none => (sectorsOf (memKey pa) n).any s.poison.contains

/-! ### Scratchpad bytes (R151, R419) -/

/-- Poison scratchpad sectors. -/
def State.addPoison (s : State) (ts : List Nat) : State :=
  { s with poison := ts.foldl (fun p t => insertNat t p) s.poison }

/-- Poison the scratchpad sectors that n bytes touch. -/
def State.poisonAt (s : State) (pa n : Nat) : State := s.addPoison (sectorsOf (memKey pa) n)

/-- The 32-bit words that n bytes at a key touch. -/
def wordsOf (k n : Nat) : List Nat := if n = 0 then [] else natsFrom (k / 4) ((k + n - 1) / 4 - k / 4 + 1)

/-- Words of a scratchpad that have an uncorrectable error are met: the sector of each is poisoned (R151), with one memory
event (R423). -/
def State.meetWords (s : State) (core : Nat) (ws : List Nat) : State :=
  (ws.filter s.latentWords.contains).foldl (fun s w =>
    let s := (s.addPoison [w / 8]).postMemory (srcDie (dieOfCore core)) 3 none (some core) (BitVec.ofNat 64 (w / 8 * 32)) 7
    { s with latentWords := s.latentWords.filter (· != w) }) s

/-- The core whose scratchpad holds an address. -/
def scratchCore (pa : Nat) : Nat := (pa - scratchBase) / 2 ^ 22

/-- Write bytes of a scratchpad: a write that covers a sector clears its poison (R119); one that covers a word in part reads
it first, and one that covers it whole renews its check bits. -/
def State.poke (s : State) (pa : Nat) (bs : List Byte) : State :=
  let k := memKey pa
  let n := bs.length
  let s := s.meetWords (scratchCore pa) ((wordsOf k n).filter fun w => !(decide (k ≤ 4 * w) && decide (4 * w + 4 ≤ k + n)))
  let cov := sectorsCovered k n
  { s with mem := s.mem.setBytes k bs, poison := s.poison.filter (fun t => !cov.contains t),
           latentWords := s.latentWords.filter (fun w => !(wordsOf k n).contains w) }

/-- The words with an error among many bytes of a scratchpad are met. -/
def State.meetRange (s : State) (core pa n : Nat) : State :=
  let k := memKey pa
  s.meetWords core (s.latentWords.filter fun w => decide (k / 4 ≤ w) && decide (4 * w < k + n))

/-- The words of a scratchpad that n bytes touch are read. -/
def State.scratchMeet (s : State) (core pa n : Nat) : State := s.meetWords core (wordsOf (memKey pa) n)

/-- Read bytes of a scratchpad. -/
def State.scratchRead (s : State) (pa n : Nat) : State × List Byte × Bool :=
  let s := s.scratchMeet (scratchCore pa) pa n
  (s, s.peek pa n, s.peekPoison pa n)

/-- A read-modify-write at a scratchpad. -/
def State.scratchRmw (s : State) (pa n : Nat) (f : DWord → DWord) : State × DWord × Bool :=
  let (s, bs, bad) := s.scratchRead pa n
  let old := BitVec.ofNat 64 (bytesToNat bs)
  if bad then (s, old, true) else (s.poke pa (natToBytes n (f old).toNat), old, false)

/-! ### Write-throughs (R110) -/

def State.performWt (s : State) (w : WriteThrough) : State := s.writeHome w.addr w.data w.policy

/-- Perform the write-throughs that satisfy a test, in the order of issue. -/
def State.drainWts (s : State) (p : WriteThrough → Bool) : State :=
  let todo := s.caches.writeThroughs.filter p
  let s := s.onCaches fun c => { c with writeThroughs := c.writeThroughs.filter (fun w => !p w) }
  todo.foldl State.performWt s

/-- Every write of a quad's cores, in the order in which they reached its quad cache (R109). -/
def State.drainQuad (s : State) (quad : Nat) : State := s.drainWts (quadOfCore ·.core == quad)

/-- Send a write to its home. -/
def State.sendWt (s : State) (core pa : Nat) (bs : List Byte) (p : Policy) : State :=
  match stackOf pa with
  | some (st, _) =>
    s.onCaches fun c =>
      { c with writeThroughs := c.writeThroughs ++ [{ core := core, stack := st, addr := pa, data := bs, policy := p }] }
  | none => s

/-! ### The quad cache and the L1 (R107-R113, R118) -/

def QuadLine.at (quad line : Nat) (l : QuadLine) : Bool := l.quad == quad && l.addr == line

def State.quadLine? (s : State) (quad line : Nat) : Option QuadLine := s.caches.quadLines.find? (·.at quad line)

/-- Remove a line from the L1s of a quad, one core's apart. -/
def State.l1Drop (s : State) (quad line : Nat) (except : Option Nat) : State :=
  s.onCaches fun c =>
    { c with l1 := c.l1.filter fun l => !(quadOfCore l.core == quad && l.addr == line && some l.core != except) }

def L1Line.at (core line : Nat) (l : L1Line) : Bool := l.core == core && l.addr == line

def State.l1Line? (s : State) (core line : Nat) : Option L1Line := s.caches.l1.find? (·.at core line)

/-- Put a line at the most recently used place of an L1, the least recently used of 8 ways leaving a full set. -/
def State.l1Put (s : State) (x : L1Line) : State :=
  let ls := s.caches.l1.filter fun l => !l.at x.core x.addr
  let set := ls.filter fun l => l.core == x.core && l.addr / 64 % 256 == x.addr / 64 % 256
  let ls := match if 8 ≤ set.length then set.getLast? else none with
    | some v => ls.filter fun l => !l.at x.core v.addr
    | none => ls
  s.onCaches fun c => { c with l1 := x :: ls }

/-- An L1's line, its missing sectors filled from its quad's line. -/
def State.l1Filled (s : State) (core : Nat) (q : QuadLine) : L1Line :=
  match s.l1Line? core q.addr with
  | some l => { l with toLineData := l.toLineData.over q.toLineData (lessPair q.valid l.valid), valid := orPair l.valid q.valid }
  | none => { q.toLineData with core := core, addr := q.addr, valid := q.valid, isPrivate := q.isPrivate }

/-- A write by a core updates its L1's copy of the line, if it has one (R107). -/
def State.l1Write (s : State) (core line off : Nat) (bs : List Byte) : State :=
  s.onCaches fun c => { c with l1 := updateWhere (·.at core line) (fun l => { l with toLineData := l.put off bs false }) c.l1 }

/-- Write a dirty line back to its home, poison with it (R110, R119). -/
def State.quadWriteBack (s : State) (l : QuadLine) : State :=
  if l.dirty then
    let one := fun (s : State) (h : Nat) => s.homePut (l.addr + 32 * h) (l.slice (32 * h) 32) (l.poisonAt (32 * h) 32) .normal
    let s := if l.valid.1 then one s 0 else s
    let s := if l.valid.2 then one s 1 else s
    s.onCaches fun c => { c with quadLines := updateWhere (·.at l.quad l.addr) (fun x => { x with dirty := false }) c.quadLines }
  else s

/-- Invalidate a line of a quad cache, written back first when dirty; a pinned line keeps its way (R118). -/
def State.quadOut (s : State) (quad line : Nat) : State :=
  match s.quadLine? quad line with
  | none => s.l1Drop quad line none
  | some l =>
    let s := s.quadWriteBack l
    let s := s.onCaches fun c =>
      { c with quadLines :=
          if l.pin.isSome then updateWhere (·.at quad line) (fun x => { x with valid := (false, false), dirty := false }) c.quadLines
          else c.quadLines.filter (fun x => !x.at quad line) }
    s.l1Drop quad line none

/-- Apply one update held back under use comm or quant at its home, after the quad's older writes (R117, R127, R140). -/
def State.applyOne (s : State) (d : Deferred) : State :=
  let s := s.onCaches fun c => { c with deferred := c.deferred.filter (·.id != d.id) }
  (((s.drainQuad d.quad).quadOut d.quad (d.addr / 64 * 64)).homeRmw d.addr (rmwBytes d.instr) d.policy
    fun old => rmwNew d.instr (rmwBytes d.instr) old d.val d.cmp).1

/-- Apply an update held back; those of its gang to the same location that are older go before it (R212). -/
def State.applyDeferred (s : State) (d : Deferred) : State :=
  let mates := s.caches.deferred.filter fun o => o.gang == d.gang && o.addr == d.addr && decide (o.id < d.id)
  (mates ++ [d]).foldl State.applyOne s

def State.flushDeferred (s : State) (p : Deferred → Bool) : State :=
  (s.caches.deferred.filter p).foldl (fun s d => if s.caches.deferred.contains d then s.applyDeferred d else s) s

/-- Invalidate a line of a quad cache; the updates that the quad combines for it are forwarded (R117). -/
def State.quadDrop (s : State) (quad line : Nat) : State :=
  (s.flushDeferred fun d => d.isComm && d.quad == quad && d.addr / 64 * 64 == line).quadOut quad line

/-- The line to leave a full set: least recently used, neither pinned nor kept, else not pinned (R107, R118). -/
def State.quadVictim (s : State) (quad line : Nat) : Option QuadLine :=
  let set := s.caches.quadLines.filter fun l => l.quad == quad && l.addr / 64 % 32768 == line / 64 % 32768
  if set.length < 16 then none
  else
    let free := set.filter (·.pin.isNone)
    (free.filter (!·.kept)).getLast?.or free.getLast?

/-- The policy at the home of a fill of the quad cache (R113). -/
def Policy.below : Policy → Policy
  | .bypass => .normal
  | p => p

/-- Bring the chosen sectors of a line into a quad cache, its quad's own writes first performed at home. A line that has its
way already refills in place (R118). -/
def State.quadFill (s : State) (quad line : Nat) (want : Bool × Bool) (priv : Bool) (p : Policy) : State :=
  let s := s.drainQuad quad
  let s := match s.quadLine? quad line, s.quadVictim quad line with
    | none, some v => s.quadDrop quad v.addr
    | _, _ => s
  let l := (s.quadLine? quad line).getD { quad := quad, addr := line, valid := (false, false) }
  let get := lessPair want l.valid
  let (s, d) := if anyPair get then s.homeLine line get p.below else (s, {})
  let l := { l with toLineData := l.toLineData.over d get, valid := orPair l.valid get, isPrivate := priv, kept := l.kept || p == .keep }
  s.onCaches fun c => { c with quadLines := l :: c.quadLines.filter (fun x => !x.at quad line) }

/-- The line a quad may use for the chosen sectors: present, with them valid. -/
def State.quadHit (s : State) (quad line : Nat) (want : Bool × Bool) : Option QuadLine :=
  (s.quadLine? quad line).filter fun l => lessPair want l.valid == (false, false)

/-- The line of a quad with the chosen sectors valid, filled where they are not. -/
def State.quadGet (s : State) (quad line : Nat) (want : Bool × Bool) (priv : Bool) (p : Policy) : State × Option QuadLine :=
  match s.quadHit quad line want with
  | some l => (s, some l)
  | none => let s := s.quadFill quad line (true, true) priv p; (s, s.quadHit quad line want)

/-- Move a line to the most recently used place, marked kept if asked. -/
def State.quadUse (s : State) (l : QuadLine) (keep : Bool) : State :=
  s.onCaches fun c =>
    { c with quadLines := { l with kept := l.kept || keep } :: c.quadLines.filter (fun x => !x.at l.quad l.addr) }

/-- The line of an L1 with the chosen sectors valid. -/
def State.l1Hit (s : State) (core line : Nat) (want : Bool × Bool) : Option L1Line :=
  (s.l1Line? core line).filter fun l => lessPair want l.valid == (false, false)

/-- A read that allocates nowhere: the valid sectors of the L1, then those of the quad cache, then the home's (R113). -/
def State.readThrough (s : State) (core : Option Nat) (quad line : Nat) (want : Bool × Bool) : State × LineData :=
  let l1 := core.bind fun c => s.l1Line? c line
  let q := s.quadLine? quad line
  let have1 := (l1.map (·.valid)).getD (false, false)
  let have2 := (q.map (·.valid)).getD (false, false)
  let miss := lessPair (lessPair want have1) have2
  let (s, d) := if anyPair miss then (s.drainQuad quad).homeLine line miss .noAlloc else (s, {})
  let d := match q with
    | some l => d.over l.toLineData have2
    | none => d
  (match q with
    | some l => if anyPair (lessPair (andPair want have2) have1) then s.quadUse l false else s
    | none => s,
   match l1 with
    | some l => d.over l.toLineData have1
    | none => d)

/-- A read by a core, n bytes of one line on a page homed in a stack, under R113. An L1 hit leaves the quad's order of use. -/
def State.quadRead (s : State) (core pa n : Nat) (priv : Bool) (p : Policy) : State × List Byte × Bool :=
  let quad := quadOfCore core
  let line := pa / 64 * 64
  let off := pa % 64
  let want := touched off n
  let got := fun (s : State) (l : LineData) => (s, l.slice off n, l.poisonAt off n)
  match p with
  | .bypass | .uncached => ((s.drainQuad quad).quadDrop quad line).readHome pa n p
  | .noAlloc => let (s, d) := s.readThrough (some core) quad line want; got s d
  | _ =>
    match if p = .keep then none else s.l1Hit core line want with
    | some l => got (s.l1Put l) l.toLineData
    | none =>
      match s.quadGet quad line want priv p with
      | (s, some q) => let l := s.l1Filled core q; got ((s.quadUse q (p == .keep)).l1Put l) l.toLineData
      | (s, none) => s.readHome pa n p

/-- A write by a core, bytes of one line on a page homed in a stack (R107, R109, R110, R113). Without allocation the sectors
that the quad cache has are written there; what it has not, of a quad-private page, goes home. -/
def State.quadWrite (s : State) (core pa : Nat) (bs : List Byte) (priv : Bool) (p : Policy) : State :=
  let quad := quadOfCore core
  let line := pa / 64 * 64
  let off := pa % 64
  let want := touched off bs.length
  let s := (s.l1Drop quad line (some core)).l1Write core line off bs
  match p with
  | .bypass | .uncached => (s.quadDrop quad line).sendWt core pa bs p
  | .noAlloc =>
    match s.quadLine? quad line with
    | none => s.sendWt core pa bs p
    | some l =>
      let cuts := sectorCuts off bs
      let here := fun (c : Nat × List Byte) => anyPair (andPair (onlyPair (c.1 / 32)) l.valid)
      let data := (cuts.filter here).foldl (fun (d : LineData) c => d.put c.1 c.2 false) l.toLineData
      let s := if cuts.any here then s.quadUse { l with toLineData := data, dirty := l.dirty || priv } false else s
      if priv then (cuts.filter fun c => !here c).foldl (fun s c => s.sendWt core (line + c.1) c.2 p) s else s.sendWt core pa bs p
  | _ =>
    let part := lessPair want (covered off bs.length)
    let s := if (s.quadHit quad line want).isSome then s else s.quadFill quad line part priv p
    match s.quadLine? quad line with
    | some l =>
      let s := s.quadUse { l with toLineData := l.put off bs false, valid := orPair l.valid want, dirty := l.dirty || priv } (p == .keep)
      if priv then s else s.sendWt core pa bs p
    | none => s.sendWt core pa bs p

/-- R112: the flash invalidation of an acquire at die scope or wider: every shared line of the quad cache and its L1s;
a pinned line keeps its way (R118). -/
def State.flashInvalidate (s : State) (quad : Nat) : State :=
  s.onCaches fun c =>
    { c with
      quadLines := (updateWhere (fun l => l.quad == quad && !l.isPrivate && l.pin.isSome) (fun l => { l with valid := (false, false) })
        c.quadLines).filter fun l => !(l.quad == quad && !l.isPrivate && l.pin.isNone),
      l1 := c.l1.filter fun l => !(quadOfCore l.core == quad && !l.isPrivate) }

/-- Write every dirty line of a quad back to its home (R110: a context save). -/
def State.quadClean (s : State) (quad : Nat) : State :=
  (s.caches.quadLines.filter fun l => l.quad == quad && l.dirty).foldl State.quadWriteBack s

/-- What a quad cache holds clean of any line is dropped, so that a launch accepted now fetches its code as memory has it
(R227). -/
def State.freshCode (s : State) : State :=
  (s.caches.quadLines.filter (!·.dirty)).foldl (fun s l => s.quadDrop l.quad l.addr) s

/-- What an instruction fetch of a core reads, n bytes of one line: its quad's copy, which it brings in (R107); on a page
that is uncached, the home's bytes. -/
def State.fetchRead (s : State) (core pa n : Nat) (priv : Bool) (p : Policy) : State × List Byte × Bool :=
  let quad := quadOfCore core
  let line := pa / 64 * 64
  let off := pa % 64
  let want := touched off n
  match p with
  | .uncached => ((s.drainQuad quad).quadDrop quad line).readHome pa n .uncached
  | .noAlloc => let (s, d) := s.readThrough none quad line want; (s, d.slice off n, d.poisonAt off n)
  | p =>
    match s.quadGet quad line want priv p with
    | (s, some l) => (s, l.slice off n, l.poisonAt off n)
    | (s, none) => s.readHome pa n p

end Sys2Proof.Machine
end

