-- ==== Sys2Proof/Machine/Xlate.lean ====
section
/-! DEFINITION. Translation: page-table entries, TLBs, misses, walks, fault records (spec/01_addresses_and_homes.md
R8-R27). -/

namespace Sys2Proof.Machine

/-! ### Page-table entries (R15-R19) -/

def pteV (e : Nat) : Bool := bit e 0
def pteLeaf (e : Nat) : Bool := bit e 1
def pteW (e : Nat) : Bool := bit e 2
def pteX (e : Nat) : Bool := bit e 3
def pteSpan (e : Nat) : Bool := bit e 4
def pteShared (e : Nat) : Bool := bit e 5
def pteMig (e : Nat) : Bool := bit e 6
def pteArray (e : Nat) : Bool := bit e 7
def pteNmc (e : Nat) : Bool := bit e 8
def pteCpol (e : Nat) : Nat := field e 9 2
def ptePfn (e : Nat) : Nat := field e 12 40
def pteHome (e : Nat) : Nat := field e 52 12
def pteHomeKind (e : Nat) : Nat := field e 62 2
def pteHomeIndex (e : Nat) : Nat := field e 52 10

/-- log2 of the page that a leaf of a level maps (R16). -/
def leafLog2 (level : Nat) (span : Bool) : Nat :=
  match level with
  | 3 => 30
  | 2 => 21
  | _ => if span then 16 else 12

/-- R18: whether the page lies in one region, and whether HOME agrees with it. -/
def leafPlaceOk (e log2 : Nat) : Bool :=
  let pa := ptePfn e * 4096
  let last := pa + 2 ^ log2 - 1
  match placeOf pa, placeOf last with
  | .homed s _, .homed t _ => s == t && pteHomeKind e == 0 && pteHomeIndex e == s
  | .striped _ _, .striped _ _ => pteHomeKind e == 0 && pteHomeIndex e == 0x3FF
  | .scratch c _, .scratch d _ => c == d && pteHomeKind e == 1 && pteHomeIndex e == c
  | .remote, .remote => pteHomeKind e == 2 && decide (pteHomeIndex e < 64)
  | _, _ => false

/-- R18, for an entry with V = 1 read at a level, 5 being the root directory. -/
def pteMalformed (level e : Nat) : Bool :=
  let leaf := pteLeaf e
  bit e 11 || (leaf && decide (level ≥ 4)) || (!leaf && level == 1) || (pteSpan e && level != 1) ||
  pteCpol e == 3 || pteHomeKind e == 3 ||
  (if leaf then
    (level == 3 && ptePfn e % 2 ^ 18 != 0) || (level == 2 && ptePfn e % 2 ^ 9 != 0) ||
    (level == 1 && pteSpan e && ptePfn e % 16 != 0) || !leafPlaceOk e (leafLog2 level (pteSpan e))
  else
    pteHome e != 0 || field e 2 9 != 0 ||
    !(match placeOf (ptePfn e * 4096) with | .homed _ _ | .striped _ _ => true | _ => false))

/-- R19. -/
def homeOf (e pa : Nat) : Home :=
  match placeOf pa with
  | .homed st _ | .striped st _ => .stack st
  | .scratch c _ => .core c
  | _ => .part (pteHomeIndex e)

/-! ### What an access needs and what translation answers -/

/-- The further permission of an engine's access (R25 subcodes 6 to 8). -/
inductive Special where
  | none
  /-- a sequencer of a stack -/
  | nmc (stack : Nat)
  /-- a stack-array endpoint of a stack -/
  | array (stack : Nat)
  deriving DecidableEq, Repr

structure Need where
  kind : AccessKind
  /-- W is needed -/
  wr : Bool := false
  special : Special := .none
  deriving DecidableEq, Repr

/-- Who translates: the TLB consulted, the context, and the core whose scratchpad the local alias names (R11). -/
structure Party where
  who : Requester
  unit : TlbUnit
  ctx : Nat
  alias_ : Option Nat
  deriving DecidableEq, Repr

/-- A translated address. -/
structure Mapping where
  pa : Nat
  home : Home
  /-- the leaf entry; 0 for a window -/
  pte : Nat
  window : Bool := false
  deriving DecidableEq, Repr

def Mapping.shared (m : Mapping) : Bool := m.window || pteShared m.pte
def Mapping.mig (m : Mapping) : Bool := m.window || pteMig m.pte
def Mapping.cpol (m : Mapping) : Nat := if m.window then 2 else pteCpol m.pte

inductive Look where
  | ok (m : Mapping)
  | fault (subcode level : Nat)
  | miss
  /-- the bytes belong to a saved workgroup: the access is held (R406) -/
  | held
  deriving DecidableEq, Repr

def TlbUnit.onDie : TlbUnit → Nat
  | .core n => dieOfCore n
  | .die n | .base n => n

/-- The context of a launch. -/
def State.launchCtx (s : State) (l : Nat) : Nat := ((s.launches.find? (·.id == l)).map (·.ctx)).getD 0

/-- R10: whether a scratchpad byte lies in an allocation held by a context; R434 gives firmware the top 256 KiB of the
scratchpad of core 0 of each die. -/
def State.ownsScratch (s : State) (ctx core off : Nat) : Bool :=
  (ctx == 0 && core % 8 == 0 && decide (0x3C0000 ≤ off)) ||
  s.wgs.any fun w => w.core == core && w.status != .saved && s.launchCtx w.launch == ctx &&
    decide (w.scrBase ≤ off) && decide (off < w.scrBase + w.scrBytes)

/-- R9, R10, R406: a window address, as the core and offset it names. An access by any party to bytes of a saved workgroup is
held, whoever occupies them meanwhile (log 29). -/
def State.lookWindow (s : State) (p : Party) (need : Need) (core off : Nat) : Look :=
  if need.kind != .fetch && (s.heldScratch.any fun h => h.1 == core && decide (h.2.1 ≤ off) && decide (off < h.2.1 + h.2.2)) then .held
  else if !s.ownsScratch p.ctx core off then .fault 1 0
  else if need.kind == .fetch then .fault 5 0
  else
    match need.special with
    | .nmc _ => .fault 6 0
    | .array _ => .fault 7 0
    | .none => .ok { pa := scratchBase + core * 2 ^ 22 + off, home := .core core, pte := 0, window := true }

/-- R25 subcodes 4 to 8 against a leaf entry. -/
def permFault (need : Need) (e : Nat) (home : Home) : Option Nat :=
  if need.wr && !pteW e then some 4
  else if need.kind == .fetch && !pteX e then some 5
  else
    match need.special with
    | .none => none
    | .nmc st => if !pteNmc e then some 6 else if home != .stack st then some 8 else none
    | .array st => if !pteArray e then some 7 else if home != .stack st then some 8 else none

/-- The level of a leaf, from its page size. -/
def levelOfLog2 : Nat → Nat
  | 30 => 3
  | 21 => 2
  | _ => 1

def TlbEntry.covers (t : TlbEntry) (ctx va : Nat) : Bool :=
  t.ctx == ctx && decide (t.page ≤ va) && decide (va < t.page + 2 ^ t.log2)

/-- R21: the unit's own TLB, then the shared TLB of its die. -/
def State.tlbFind (s : State) (unit : TlbUnit) (ctx va : Nat) : Option TlbEntry :=
  (s.caches.tlb.find? fun t => t.unit == unit && t.covers ctx va).or
    (s.caches.tlb.find? fun t => t.unit == .die unit.onDie && t.covers ctx va)

/-- Translate one address (R8, R9, R21, R25). The local alias faults with WINDOW for a requester that is no core (DESIGN
CHOICE, log 85); a fault met without a walk has level 0 (DESIGN CHOICE, log 93). -/
def State.look (s : State) (p : Party) (need : Need) (va : DWord) : Look :=
  let v := va.toNat
  if v / 2 ^ 56 ≠ 0 then .fault 0 0
  else
    let seg := v / 2 ^ 48
    let off := v % 2 ^ 48
    if seg = 0xFE then
      match p.alias_ with
      | some c => if off < 2 ^ 22 then s.lookWindow p need c off else .fault 1 0
      | none => .fault 1 0
    else if seg = 0xFF then
      if off < 2 ^ 29 then s.lookWindow p need (off / 2 ^ 22) (off % 2 ^ 22) else .fault 1 0
    else
      match s.tlbFind p.unit p.ctx v with
      | none => .miss
      | some t =>
        let e := t.pte.toNat
        let pa := ptePfn e * 4096 + v % 2 ^ t.log2
        let home := homeOf e pa
        match permFault need e home with
        | some sub => .fault sub (levelOfLog2 t.log2)
        | none => .ok { pa := pa, home := home, pte := e }

/-! ### Filling TLBs (R21) -/

/-- Sets and ways of a TLB. -/
def tlbShape : TlbUnit → Nat × Nat
  | .core _ => (256, 8)
  | .die _ => (2048, 16)
  | .base _ => (128, 8)

/-- The set of a page: its number, in pages of its own size, modulo the sets (DESIGN CHOICE, log 73). -/
def TlbEntry.set (t : TlbEntry) : Nat := t.page / 2 ^ t.log2 % (tlbShape t.unit).1

/-- Enter a page into a TLB; the entry filled longest ago leaves a full set. -/
def State.tlbFill (s : State) (t : TlbEntry) : State :=
  s.onCaches fun c =>
    let rest := c.tlb.filter fun x => !(x.unit == t.unit && x.ctx == t.ctx && x.page == t.page && x.log2 == t.log2)
    let mates := rest.filter fun x => x.unit == t.unit && x.set == t.set
    { c with tlb := t :: (match if (tlbShape t.unit).2 ≤ mates.length then mates.getLast? else none with
        | some v => rest.erase v
        | none => rest) }

/-- A unit's own TLB is filled from the shared TLB of its die. -/
def State.tlbPull (s : State) (unit : TlbUnit) (ctx va : Nat) : State :=
  match s.caches.tlb.find? fun t => t.unit == unit && t.covers ctx va with
  | some _ => s
  | none =>
    match s.caches.tlb.find? fun t => t.unit == .die unit.onDie && t.covers ctx va with
    | some t => s.tlbFill { t with unit := unit }
    | none => s

/-! ### Misses (R22) -/

def pageOf (va : DWord) : Nat := va.toNat / 4096

/-- Open or merge a miss; false when no entry is free and the requester stalls. A replay merges with nothing (R26; DEDUCED,
log 39). -/
def State.tryMiss (s : State) (a : Ask) : State × Bool :=
  let die := a.unit.onDie
  let pg := pageOf a.va
  let ms := s.caches.misses
  let same := fun (m : Miss) => m.die == die && m.ctx == a.ctx && m.page == pg && !a.alone && !m.asks.any (·.alone)
  let ofUnit := ms.filter fun m => m.asks.any fun b => b.unit == a.unit
  if ofUnit.any same then
    let add := fun (m : Miss) => if m.asks.any (·.who == a.who) then m else { m with asks := m.asks ++ [a] }
    (s.onCaches fun c => { c with misses := updateWhere same add c.misses }, true)
  else if 32 ≤ ofUnit.length then (s, false)
  else if ms.any same then
    (s.onCaches fun c => { c with misses := updateWhere same (fun m => { m with asks := m.asks ++ [a] }) c.misses }, true)
  else if 256 ≤ (ms.filter (·.die == die)).length then (s, false)
  else
    (s.onCaches fun c => { c with misses := c.misses ++ [{ die := die, ctx := a.ctx, page := pg, asks := [a] }] }, true)

/-- A request that misses: it merges with an open entry, opens one, or stalls behind those that came before it. -/
def State.openMiss (s : State) (a : Ask) : State :=
  match s.tryMiss a with
  | (s, true) => s
  | (s, false) => s.onCaches fun c => { c with stalled := if c.stalled.any (·.who == a.who) then c.stalled else c.stalled ++ [a] }

/-- Entries have come free: the stalled requests, in their order. -/
def State.admitStalled (s : State) : State :=
  s.caches.stalled.foldl State.openMiss (s.onCaches fun c => { c with stalled := [] })

/-! ### Fault records (R25, R26, R423, R465) -/

def AccessKind.code : AccessKind → Nat
  | .load => 0
  | .store => 1
  | .atomic => 2
  | .fetch => 3
  | .record => 4
  | .copyRead => 5
  | .copyWrite => 6
  | .nmcRead => 7
  | .nmcWrite => 8
  | .arrayRead => 9
  | .arrayWrite => 10
  | .spill => 11
  | .window => 12
  | .remote => 13

def TlbUnit.source : TlbUnit → Byte
  | .core n => srcDie (dieOfCore n)
  | .die n => srcDie n
  | .base n => srcBase n

def TlbUnit.core? : TlbUnit → Option Nat
  | .core n => some n
  | _ => none

/-- A new fault record with the requests parked on it, reported as a class 1 event (R26, R423). -/
def State.parkFault (s : State) (asks : List Ask) (a : Ask) (sub level : Nat) : State :=
  let (id, s) := s.fresh
  let s := s.onCaches fun c =>
    { c with faults := c.faults ++
        [{ id := id, ctx := a.ctx, va := a.va, kind := a.kind, subcode := sub, level := level, seq := none, asks := asks }] }
  s.post { source := a.unit.source, cls := 1, code := sub, ctx := some a.ctx, core := a.unit.core?, payload := a.va,
           detail := BitVec.ofNat 64 (a.kind.code + 16 * level + 65536 * (Config.requesterCode id).toNat), fault := some id }

/-- Whether a requester is parked on some record for the page of an address. -/
def State.parkedOn (s : State) (who : Requester) (va : DWord) : Bool :=
  s.caches.faults.any fun f => f.asks.any fun a => a.who == who && pageOf a.va == pageOf va

/-- Whether a requester is parked on any record. -/
def State.isParked (s : State) (who : Requester) : Bool :=
  s.caches.faults.any fun f => f.asks.any (·.who == who)

/-- Whether a requester waits for a walk. -/
def State.isMissing (s : State) (who : Requester) : Bool :=
  (s.caches.misses.any fun m => m.asks.any (·.who == who)) || s.caches.stalled.any (·.who == who)

/-- The declined fault of a requester. -/
def State.declinedOf (s : State) (who : Requester) : Option Declined :=
  s.caches.declined.find? fun d => d.ask.who == who && !d.ask.quiet

/-- What a request needs, from its kind and the unit that makes it. -/
def Ask.need (a : Ask) : Need :=
  { kind := a.kind, wr := a.wr,
    special := match a.unit, a.kind with
      | .base n, .nmcRead | .base n, .nmcWrite => .nmc n
      | .base n, .arrayRead | .base n, .arrayWrite => .array n
      | _, _ => .none }

/-- A fault of the page of an address that a quiet request of a requester has met. -/
def State.quietFault (s : State) (who : Requester) (va : DWord) : Option Declined :=
  s.caches.declined.find? fun d => d.ask.who == who && d.ask.quiet && pageOf d.ask.va == pageOf va

def State.clearDeclined (s : State) (who : Requester) : State :=
  s.onCaches fun c => { c with declined := c.declined.filter (·.ask.who != who) }

/-! ### Translating the addresses of one access -/

/-- The pieces of n bytes at an address, none crossing a 64-byte line. -/
def linePieces : Nat → DWord → Nat → List (DWord × Nat)
  | 0, _, _ => []
  | fuel + 1, va, n =>
    if n = 0 then []
    else
      let k := Nat.min n (64 - va.toNat % 64)
      (va, k) :: linePieces fuel (va + BitVec.ofNat 64 k) (n - k)

/-- What the translation of an access comes to. -/
inductive Tr where
  /-- every address translates: one mapping for each, in order -/
  | ok (ms : List Mapping)
  /-- a walk is outstanding, or no miss entry is free -/
  | miss
  /-- parked on a fault record -/
  | parked
  /-- held at a saved allocation (R406) -/
  | held
  /-- service declined the fault: its address and subcode -/
  | declined (va : DWord) (sub : Nat)
  deriving DecidableEq, Repr

def Look.fault? : Look → Option (Nat × Nat)
  | .fault a b => some (a, b)
  | _ => none

def Look.mapping? : Look → Option Mapping
  | .ok m => some m
  | _ => none

/-- Translate the addresses of one access, each with what it needs (R26, R281): a declined fault first, then a record
that already holds the access, then a fault in the order of the addresses, then the misses. -/
def State.translate (s : State) (p : Party) (xs : List (DWord × Need)) : State × Tr :=
  match s.declinedOf p.who with
  | some d => (s.clearDeclined p.who, .declined d.ask.va d.subcode)
  | none =>
    let ls := xs.map fun x => (x, s.look p x.2 x.1)
    match if s.isParked p.who then none else ls.find? (fun x => x.2.fault?.isSome) with
    | some ((va, need), l) =>
      let a : Ask := { who := p.who, unit := p.unit, ctx := p.ctx, va := va, kind := need.kind }
      let f := l.fault?.getD (0, 0)
      (s.parkFault [a] a f.1 f.2, .parked)
    | none =>
      let missing := ls.filter fun x => x.2 == .miss
      if s.isParked p.who then (s, .parked)
      else if missing.isEmpty then
        if ls.any (fun x => x.2 == .held) then (s, .held)
        else (ls.foldl (fun s x => s.tlbPull p.unit p.ctx x.1.1.toNat) s, .ok (ls.filterMap fun x => x.2.mapping?))
      else
        (missing.foldl (fun s x =>
          s.openMiss { who := p.who, unit := p.unit, ctx := p.ctx, va := x.1.1, kind := x.1.2.kind, wr := x.1.2.wr }) s, .miss)

/-! ### Walks (R23) -/

/-- Bits of VA below the reach of an entry of a level. -/
def levelShift : Nat → Nat
  | 5 => 48
  | 4 => 39
  | 3 => 30
  | 2 => 21
  | _ => 12

def levelIndex (level va : Nat) : Nat := if level = 5 then va / 2 ^ 48 % 256 else va / 2 ^ levelShift level % 512

/-- What a walk finds. -/
inductive Walk where
  | leaf (level : Nat) (e : DWord)
  | fault (subcode level : Nat)
  deriving DecidableEq, Repr

/-- Read an entry at its home die cache; a poisoned sector stops the walk as malformed with a memory event (R419). -/
def State.readPte (s : State) (die pa : Nat) : State × Option DWord :=
  let (s, bs, poison) := s.readHome pa 8 .normal
  if poison then (s.postMemory (srcDie die) 3 none none (BitVec.ofNat 64 pa) 4, none) else (s, some (le64 bs 0))

/-- Walk from a table at a level, `fuel` levels at most; pointer entries go into the walk cache. -/
def State.walkFrom (s : State) (die ctx va : Nat) : Nat → Nat → Nat → State × Walk
  | 0, level, _ => (s, .fault 3 level)
  | fuel + 1, level, table =>
    let cached := s.caches.walkCache.find? fun w => w.die == die && w.ctx == ctx && w.level == level &&
      w.tag == va / 2 ^ levelShift level
    let (s, e) := match cached with
      | some w => (s, some w.pte)
      | none => s.readPte die (table + 8 * levelIndex level va)
    match e with
    | none => (s, .fault 3 level)
    | some e =>
      let n := e.toNat
      if !pteV n then (s, .fault 2 level)
      else if pteMalformed level n then (s, .fault 3 level)
      else if pteLeaf n then (s, .leaf level e)
      else
        let w : WalkEntry := { die := die, ctx := ctx, level := level, tag := va / 2 ^ levelShift level, pte := e }
        let s := if cached.isSome then s else s.onCaches fun c =>
          { c with walkCache := w :: (c.walkCache.filter (·.die == die)).take 255 ++ c.walkCache.filter (·.die != die) }
        State.walkFrom s die ctx va fuel (level - 1) (ptePfn n * 4096)

def State.ctx? (s : State) (c : Nat) : Option Ctx := s.ctxs.find? (·.id == c)

/-- A context's registers; those of reset where the context is not set up. -/
def State.ctxOf (s : State) (c : Nat) : Ctx := (s.ctx? c).getD { id := c }

/-- R16, R23: a walk of an address under a context's root. A root directory outside a stack reads as no entry. -/
def State.walk (s : State) (die ctx : Nat) (va : Nat) : State × Walk :=
  let root := (s.ctxOf ctx).root.toNat
  if (stackOf root).isNone then (s, .fault 2 5) else s.walkFrom die ctx va 5 5 root

/-- Install a leaf for a die and the units that asked. -/
def State.installLeaf (s : State) (die ctx va level : Nat) (e : DWord) (units : List TlbUnit) : State :=
  let log2 := leafLog2 level (pteSpan e.toNat)
  (units ++ [TlbUnit.die die]).foldl (fun s u =>
    s.tlbFill { unit := u, ctx := ctx, page := va / 2 ^ log2 * 2 ^ log2, log2 := log2, pte := e }) s

/-- What an access of an engine, or of an instruction that the part runs for itself, meets. -/
inductive Hold where
  /-- it waits for bytes of a saved allocation (R406), or for a walk already asked for -/
  | busy
  /-- a walk is to be asked for; nothing else of the step comes about -/
  | miss (a : Ask)
  /-- its fault waits for service -/
  | parked
  deriving DecidableEq, Repr

inductive Found where
  | ok (m : Mapping)
  | fault (subcode level : Nat)
  | held (h : Hold)
  deriving DecidableEq, Repr

def Party.ask (p : Party) (need : Need) (va : DWord) : Ask :=
  { who := p.who, unit := p.unit, ctx := p.ctx, va := va, kind := need.kind, wr := need.wr }

/-- Translate one address, the walk made at once: of a request of the host, and of the reads of a live set, which raise
nothing (log 39). -/
def State.findNow (s : State) (p : Party) (need : Need) (va : DWord) : State × Found :=
  match s.look p need va with
  | .ok m => (s.tlbPull p.unit p.ctx va.toNat, .ok m)
  | .fault sub level => (s, .fault sub level)
  | .held => (s, .held .busy)
  | .miss =>
    let (s, w) := s.walk p.unit.onDie p.ctx va.toNat
    match w with
    | .fault sub level => (s, .fault sub level)
    | .leaf level e =>
      let s := s.installLeaf p.unit.onDie p.ctx va.toNat level e [p.unit]
      match s.look p need va with
      | .ok m => (s, .ok m)
      | .fault sub level => (s, .fault sub level)
      | _ => (s, .held .busy)

/-- Who never waits in the miss table. -/
def Party.now (p : Party) : Bool :=
  match p.who with
  | .host | .quiet => true
  | _ => false

/-- Translate one address; a miss goes to the miss table (R22). -/
def State.find (s : State) (p : Party) (need : Need) (va : DWord) : State × Found :=
  if p.now then s.findNow p need va
  else if s.isParked p.who then (s, .held .parked)
  else
    match s.look p need va with
    | .ok m => (s.tlbPull p.unit p.ctx va.toNat, .ok m)
    | .fault sub level => (s, .fault sub level)
    | .held => (s, .held .busy)
    | .miss => (s, .held (if s.isMissing p.who then .busy else .miss (p.ask need va)))

/-- The same for an access whose fault makes no record: the fault that its walk has met, once it has. -/
def State.findQuiet (s : State) (p : Party) (need : Need) (va : DWord) : State × Found :=
  match s.look p need va with
  | .ok m => (s.tlbPull p.unit p.ctx va.toNat, .ok m)
  | .fault sub level => (s, .fault sub level)
  | .held => (s, .held .busy)
  | .miss =>
    match s.quietFault p.who va with
    | some d => (s, .fault d.subcode 0)
    | none => (s, .held (.miss { p.ask need va with quiet := true }))

end Sys2Proof.Machine
end

