-- ==== Sys2Proof/Machine/Slices.lean ====
section
/-! DEFINITION. Finding and replacing slices, groups, workgroups and launches, and what a slice knows of its place
(spec/08_registers_and_frames.md R171, spec/16_scheduling.md R357-R367). -/

namespace Sys2Proof.Machine

/-! ### Keyed access -/

def State.slice? (s : State) (u : Nat) : Option Slice := s.slices.find? (·.uid == u)
def State.group? (s : State) (g : Nat) : Option Group := s.groups.find? (·.uid == g)
def State.wg? (s : State) (w : Nat) : Option Workgroup := s.wgs.find? (·.uid == w)
def State.launch? (s : State) (l : Nat) : Option Launch := s.launches.find? (·.id == l)

def State.setSlice (s : State) (x : Slice) : State := { s with slices := updateWhere (·.uid == x.uid) (fun _ => x) s.slices }
def State.onSlice (s : State) (u : Nat) (f : Slice → Slice) : State := { s with slices := updateWhere (·.uid == u) f s.slices }
def State.onGroup (s : State) (g : Nat) (f : Group → Group) : State := { s with groups := updateWhere (·.uid == g) f s.groups }
def State.onWg (s : State) (w : Nat) (f : Workgroup → Workgroup) : State := { s with wgs := updateWhere (·.uid == w) f s.wgs }
def State.onLaunch (s : State) (l : Nat) (f : Launch → Launch) : State :=
  { s with launches := updateWhere (·.id == l) f s.launches }
def State.onCtx (s : State) (c : Nat) (f : Ctx → Ctx) : State :=
  if (s.ctx? c).isSome then { s with ctxs := updateWhere (·.id == c) f s.ctxs }
  else { s with ctxs := s.ctxs ++ [f { id := c }] }

/-! ### The place of a slice -/

/-- Where a slice stands: its group, workgroup and launch, its origin core and the core on which it runs. -/
structure Env where
  group : Group
  wg : Workgroup
  launch : Launch
  /-- the core on which it runs: its host while it is a guest -/
  core : Nat
  /-- its origin core -/
  origin : Nat
  ctx : Nat
  deriving DecidableEq, Repr

def Packet.blank : Packet :=
  { entry := 0, gridX := 1, gridY := 1, gridZ := 1, slices := 1, groups := 1, producer := 0, demand := 1, scratch := 0,
    acc := 0, prio := 0, tiles := 0, coop := false, migrate := false, strict := false, overlap := false, partMask := 0,
    podCount := 0, trap := 0, args := 0, doneMbar := 0, launchId := 0, podTag := 0 }

/-- Stand-ins for a slice without a group, a group without a workgroup and a workgroup without a launch; no slice of a
running machine lacks them. -/
def Group.none : Group := { uid := 0, wg := 0, idx := 0, pipe := 0, place := 0, born := 0 }
def Workgroup.none : Workgroup :=
  { uid := 0, launch := 0, work := 0, core := 0, slot := 0, scrBase := 0, scrBytes := 0, tileFirst := 0, tiles := 0, accs := [],
    producer := 0, tokens := [], born := 0 }

/-- The scratchpad offset of a tile of a workgroup, and its bytes (R152). -/
def Tile.offset (t : Tile) (w : Workgroup) : Nat := w.scrBase + 256 * t.base
def Tile.bytes (t : Tile) : Nat := 256 * t.size

def Launch.none : Launch := { id := 0, queue := 0, seq := 0, ctx := 0, pkt := Packet.blank, chunk := 1 }

def State.env (s : State) (x : Slice) : Env :=
  let g := (s.group? x.group).getD Group.none
  let w := (s.wg? g.wg).getD Workgroup.none
  let l := (s.launch? w.launch).getD Launch.none
  { group := g, wg := w, launch := l, core := match x.guest with | some h => h.host | none => w.core, origin := w.core,
    ctx := l.ctx }

/-- The lowest lane of a slice in gang lane order (R115). -/
def Slice.laneBase (x : Slice) : Nat := 4 * x.idx

def Slice.m0 (x : Slice) : BitVec 4 := x.masks.headD 0

def Slice.mask (x : Slice) (k : Nat) : BitVec 4 := nth 0 x.masks k

def Slice.setMask (x : Slice) (k : Nat) (m : BitVec 4) : Slice := { x with masks := setNth x.masks k m }

/-- Frame depth of the top frame, the outermost frame having depth 0 (R375); a guest counts its lower frames. -/
def Slice.depth (x : Slice) : Nat :=
  x.frames.length - 1 + (match x.guest with | some g => g.lower.length | none => 0)

/-- Frames of which there is one at least. -/
def Frame.blank : Frame := { base := 0, demand := 1, regs := List.replicate 8 (.uniform {}) }

def Slice.top (x : Slice) : Frame := x.frames.headD Frame.blank

/-- F of R184. -/
def Slice.frameRegs (x : Slice) : Nat := 8 * x.top.demand

def Slice.setTop (x : Slice) (f : Frame) : Slice := { x with frames := f :: x.frames.tail }

/-- A live slice has not exited (R317). -/
def Slice.live (x : Slice) : Bool := x.status != .exited

def State.groupSlices (s : State) (g : Nat) : List Slice := s.slices.filter (·.group == g)

/-- Slices of a workgroup. -/
def State.wgSlices (s : State) (w : Nat) : List Slice :=
  s.slices.filter fun x => (s.groups.any fun g => g.uid == x.group && g.wg == w)

/-- The members of a slice's gang, in slice order. -/
def State.gangOf (s : State) (x : Slice) : List Slice :=
  (s.slices.filter fun y => y.group == x.group && y.gang == x.gang && y.live).sortBy (fun a b => a.idx ≤ b.idx)

/-- The slices that the issuing gang names, in order. -/
def State.curSlices (s : State) : List Slice := s.cur.filterMap s.slice?

/-- The party a slice is for translation (R11, R21). -/
def Env.party (e : Env) (u : Nat) : Party :=
  { who := .slice u, unit := .core e.core, ctx := e.ctx, alias_ := some e.origin }

/-- The context that a slice's own context CSRs belong to. -/
def State.ctxCsr (s : State) (e : Env) : Ctx := s.ctxOf e.ctx

/-! ### Releases and acquires (R112, R121, R130, R141) -/

/-- Whether a slice of the same thread group is away as a guest. -/
def State.mateAway (s : State) (x : Slice) : Bool :=
  s.slices.any fun y => y.group == x.group && y.uid != x.uid && y.live && y.guest.isSome

/-- R121: a guest's scopes grp, core, quad and die act as pkg. So does scope grp of a slice whose thread group has a guest,
since it includes that guest (R120, R131; DEDUCED, log 95). -/
def State.widen (s : State) (x : Slice) (sc : Scope) : Scope :=
  if x.guest.isSome && decide (1 ≤ sc.rank) && decide (sc.rank ≤ 4) then .pkg
  else if sc = .grp && s.mateAway x then .pkg
  else sc

/-- A release of a slice at a scope (R112, R117, R140): at die scope or wider, every write that its quad has sent on its way
is performed, so that what the slice has seen of its quad goes before it (R129, R133); then deferred updates. -/
def State.releaseAt (s : State) (e : Env) (x : Slice) (sc : Scope) : State :=
  let wide := decide (4 ≤ sc.rank)
  let s := if wide then s.drainQuad (quadOfCore e.core) else s
  s.flushDeferred fun d => if d.isComm then wide && d.quad == quadOfCore e.core else d.slices.contains x.uid

/-- An ACCST of the slice is still to write its tile (R143). -/
def State.storesSet (s : State) (x : Slice) : Bool := s.engines.matQueue.any fun q => q.slices.contains x.uid && q.kind == .accst

/-- The parked accesses of a slice, but for the instruction at which it stands. -/
def Slice.lasting (x : Slice) : List Parked := x.parked.filter (!·.stays)

/-- Whether a release can be performed now: no access of the slice is parked (R141), at core scope or wider no ACCST of it
is outstanding (R143), and at pod scope no reply of a remote access is awaited but those of its own access (R427). -/
def State.releaseReady (s : State) (x : Slice) (sc : Scope) (own : List Nat := []) : Bool :=
  x.lasting.isEmpty && !(decide (2 ≤ sc.rank) && s.storesSet x) && (sc != .pod || x.remoteOut.all own.contains)

/-- Every access of a slice has been performed that it does not hold as parked (R148). -/
def State.accessesDone (s : State) (x : Slice) : Bool := x.remoteOut.isEmpty && !s.storesSet x

/-- An acquire of a slice at a scope (R112). -/
def State.acquireAt (s : State) (e : Env) (sc : Scope) : State :=
  if 4 ≤ sc.rank then s.flashInvalidate (quadOfCore e.core) else s

/-! ### Duties (R432) -/

def State.duty (s : State) (k : Nat) : Bool := s.dutyMode.getLsbD k

/-- A word of memory at a physical address. -/
def State.word (s : State) (pa : Nat) : Word := le32 (s.peek pa 4) 0

/-- Write a word at a physical address, at its home. -/
def State.setWord (s : State) (pa : Nat) (w : Word) : State := s.writeHome pa (wordBytes w) .normal

/-- The queue block of a queue (R357). -/
def queueBlock (q : Nat) : Nat := homedBase + 64 * q

/-- Mesh distance of two dies (R362). -/
def meshDistance (a b : Nat) : Nat :=
  (Int.natAbs ((a % 4 : Nat) - (b % 4 : Nat) : Int)) + (Int.natAbs ((a / 4 : Nat) - (b / 4 : Nat) : Int))

/-- The other dies in the order of R362. -/
def diesByDistance (d : Nat) : List Nat :=
  ((natsFrom 0 16).filter (· != d)).sortBy fun a b =>
    decide (meshDistance d a < meshDistance d b) || (meshDistance d a == meshDistance d b && decide (a ≤ b))

end Sys2Proof.Machine
end

