-- ==== Sys2Proof/Machine/Operands.lean ====
section
/-! DEFINITION. Operand forms, register shapes, the last-result file and the operand latch
(spec/08_registers_and_frames.md R171-R177, R184, R192, R193; spec/11_formats_and_assembly.md R236-R238). -/

namespace Sys2Proof.Machine

/-! ### Shapes (R175) -/

/-- The lane word of a register. -/
def Reg.lane (r : Reg) (l : Nat) : LaneWord :=
  match r with
  | .uniform u => u
  | .affine b st => { val := b.val + BitVec.ofNat 32 l * st.val, poison := b.poison || st.poison }
  | .general w => w.get l

/-- The value of a lane. -/
def Reg.val (r : Reg) (l : Nat) : Word := (r.lane l).val

def Reg.isUniform : Reg → Bool
  | .uniform _ => true
  | _ => false

def Reg.isAffine : Reg → Bool
  | .affine _ _ => true
  | _ => false

/-- A uniform register of a clean word. -/
def Reg.u (w : Word) : Reg := .uniform { val := w }

/-- A general register of clean words. -/
def Reg.g (w : L4 Word) : Reg := .general (w.map fun v => { val := v })

/-- A register in general form. -/
def Reg.expand (r : Reg) : L4 LaneWord := L4.ofFn r.lane

/-- Whether a lane of a mask reads a poisoned word (R192). -/
def Reg.poisoned (r : Reg) (m : BitVec 4) : Bool := lanes.any fun l => m.getLsbD l && (r.lane l).poison

/-! ### Sources (R236, R237) -/

/-- The value of a latch entry: zero once its span is over (R174). -/
def Slice.latchReg (x : Slice) (i : Nat) : Reg :=
  match x.latch.drop i with
  | (r, n) :: _ => if n = 0 then .u 0 else r
  | [] => .u 0

/-- A source register; `e` and the clock supply the special values. -/
def Slice.readOpnd (x : Slice) (e : Env) (clock : DWord) (o : Opnd) : Reg :=
  match o with
  | .v i => nth (.u 0) x.top.regs i.val
  | .o i => .general (nth (L4.ofFn fun _ => {}) x.sof i.val)
  | .l i => nth (.u 0) x.lrf i.val
  | .k i => x.latchReg i.val
  | .zero => .u 0
  | .lane => .affine { val := BitVec.ofNat 32 x.laneBase } { val := 1 }
  | .slice => .u (BitVec.ofNat 32 x.idx)
  | .group => .u (BitVec.ofNat 32 e.group.idx)
  | .work => .u (BitVec.ofNat 32 e.wg.work)
  | .core => .u (BitVec.ofNat 32 e.core)
  | .clock => .u (lo32 clock)
  | .lit w => .u w

end Sys2Proof.Machine

namespace Sys2Proof

/-- The operand one register on from an operand. -/
def Opnd.plus (o : Opnd) (n : Nat) : Opnd :=
  match o with
  | .v i => if h : i.val + n < 96 then .v ⟨i.val + n, h⟩ else .zero
  | .o i => if h : i.val + n < 16 then .o ⟨i.val + n, h⟩ else .zero
  | .l i => if h : i.val + n < 4 then .l ⟨i.val + n, h⟩ else .zero
  | o => o

end Sys2Proof

namespace Sys2Proof.Machine

/-- A pair operand, low register first; `sext` says how a literal extends (R237, R238). -/
def Slice.readPair (x : Slice) (e : Env) (clock : DWord) (sext : Bool) (o : Opnd) : Reg × Reg :=
  match o with
  | .k _ => (x.latchReg 1, x.latchReg 0)
  | .clock => (.u (lo32 clock), .u (hi32 clock))
  | .lit w => (.u w, .u (if sext && w.msb then BitVec.allOnes 32 else 0))
  | .zero => (.u 0, .u 0)
  | o => (x.readOpnd e clock o, x.readOpnd e clock (o.plus 1))

/-- The 64-bit value of a lane of a pair. -/
def pairVal (p : Reg × Reg) (l : Nat) : DWord := dword (p.1.val l) (p.2.val l)

def pairPoisoned (p : Reg × Reg) (m : BitVec 4) : Bool := p.1.poisoned m || p.2.poisoned m

end Sys2Proof.Machine

namespace Sys2Proof

/-- R184: an operand of n registers lies in a frame of F registers. -/
def Opnd.inFrame (f : Nat) (n : Nat) : Opnd → Bool
  | .v i => decide (i.val + n ≤ f)
  | _ => true

def Dst.inFrame (f : Nat) (n : Nat) : Dst → Bool
  | .v i => decide (i.val + n ≤ f)
  | _ => true

/-- A destination read as a source. -/
def Dst.asOpnd : Dst → Opnd
  | .v i => .v i
  | .o i => .o i
  | .zero => .zero

def Width.count : Width → Nat
  | .one => 1
  | .pair => 2
  | .quad => 4

end Sys2Proof

namespace Sys2Proof.Machine

/-! ### Destinations (R173, R177, R193) -/

/-- A register after a result under a mask: the whole result under a full mask, else the old lanes elsewhere, or zeros
under zeroing. -/
def Reg.merge (old new : Reg) (take : BitVec 4) (z : Bool) : Reg :=
  if take = 0xF then new
  else if z then .general (L4.ofFn fun l => if take.getLsbD l then new.lane l else {})
  else .general (L4.ofFn fun l => if take.getLsbD l then new.lane l else old.lane l)

/-- Write one register, o registers being general always. -/
def Slice.writeReg (x : Slice) (d : Dst) (n : Nat) (new : Reg) (take : BitVec 4) (z : Bool) : Slice :=
  match d with
  | .v i =>
    let f := x.top
    x.setTop { f with regs := setNth f.regs (i.val + n) ((nth (.u 0) f.regs (i.val + n)).merge new take z) }
  | .o i =>
    let old : Reg := .general (nth (L4.ofFn fun _ => {}) x.sof (i.val + n))
    { x with sof := setNth x.sof (i.val + n) (old.merge new take z).expand }
  | .zero => x

/-- A result as the LRF holds it: lanes that do not take it hold zero (R173). -/
def lrfReg (new : Reg) (take : BitVec 4) : Reg :=
  if take = 0xF then new else .general (L4.ofFn fun l => if take.getLsbD l then new.lane l else {})

/-- The LRF entries still due after one more push: `d` says what fills the new one. -/
def dueShift (due : List (Option (Nat × Nat))) (d : Option (Nat × Nat)) : List (Option (Nat × Nat)) :=
  let ds := (d :: due).take 4
  if ds.all (·.isNone) then [] else ds

/-- Push a result into the LRF (R173). -/
def Slice.pushLrf (x : Slice) (new : Reg) (take : BitVec 4) : Slice :=
  { x with lrf := lrfReg new take :: x.lrf.take 3, lrfDue := dueShift x.lrfDue none }

/-- Write a result of one, two or four registers, low register first, and push it, highest first (R173, R282). -/
def Slice.writeResult (x : Slice) (d : Dst) (rs : List Reg) (take : BitVec 4) (z : Bool) : Slice :=
  let x := (rs.zipIdx).foldl (fun x r => x.writeReg d r.2 r.1 take z) x
  rs.reverse.foldl (fun x r => x.pushLrf r take) x

/-- Write a result into the frame k places below the top. -/
def Slice.writeBelow (x : Slice) (k : Nat) (d : Dst) (rs : List Reg) (take : BitVec 4) (z : Bool) : Slice :=
  let y := (rs.zipIdx).foldl (fun y r => y.writeReg d r.2 r.1 take z) { x with frames := x.frames.drop k }
  { y with frames := x.frames.take k ++ y.frames }

/-- Push the registers of a result that a parked access is still to bring, highest first. -/
def Slice.pushDue (x : Slice) (id n : Nat) : Slice :=
  (natsFrom 0 n).reverse.foldl (fun x k =>
    { x with lrf := .u 0 :: x.lrf.take 3, lrfDue := dueShift x.lrfDue (some (id, k)) }) x

/-- Whether an LRF entry is still due. -/
def Slice.isDue (x : Slice) (k : Nat) : Bool := (nth none x.lrfDue k).isSome

/-- Fill the LRF entries that wait for a parked access, or give up their wait. -/
def Slice.fillDue (x : Slice) (id : Nat) (rs : List Reg) (take : BitVec 4) : Slice :=
  let mine := fun (d : Option (Nat × Nat)) => (d.filter fun q => q.1 == id).map (·.2)
  let due := x.lrfDue.map fun d => if (mine d).isSome then none else d
  { x with
    lrf := x.lrf.zipIdx.map fun r => match mine (nth none x.lrfDue r.2) with
      | some k => lrfReg (nth (.u 0) rs k) take
      | none => r.1,
    lrfDue := if due.all (·.isNone) then [] else due }

/-- Count one instruction against the latch, then push the held source, low word first (R174). -/
def Slice.stepLatch (x : Slice) (held : List Reg) : Slice :=
  let old := x.latch.map fun e => (e.1, e.2 - 1)
  { x with latch := ((held.map fun r => (r, 2)).reverse ++ old).take 3 }

/-- Clear the LRF and the latch (R173, R174). -/
def Slice.clearLocal (x : Slice) : Slice := { x with lrf := List.replicate 4 (.u 0), lrfDue := [], latch := [] }

/-- Clear the small operand file to uniform zero (R388). -/
def Slice.clearSof (x : Slice) : Slice := { x with sof := List.replicate 16 (L4.ofFn fun _ => {}) }

/-- Write lanes of an o register by the part itself; no LRF push (R172). -/
def Slice.putSof (x : Slice) (j : Nat) (take : BitVec 4) (w : Nat → LaneWord) : Slice :=
  let old := nth (L4.ofFn fun _ => {}) x.sof j
  { x with sof := setNth x.sof j (L4.ofFn fun l => if take.getLsbD l then w l else old.get l) }

/-! ### Lanes that take a result (R233, R249) -/

/-- The mask named by a prefix and its Z bit. -/
def takeOf (x : Slice) (p : Option Pfx) : BitVec 4 :=
  match p with
  | some q => if q.mask = 0 then x.m0 else x.m0 &&& x.mask q.mask.toNat
  | none => x.m0

def zeroing (p : Option Pfx) : Bool := (p.map (·.z)).getD false

/-- The saturate bit of a prefix (R233). -/
def saturate (p : Option Pfx) : Bool := (p.map fun q => q.rm.getLsbD 0).getD false

/-- Any lane of m0; a slice issues only with one. -/
def lowestLane (m : BitVec 4) : Nat := (maskLanes m).headD 0

end Sys2Proof.Machine
end

