-- ==== Sys2Proof/Machine/Flags.lean ====
section
/-! DEFINITION. The sticky floating-point flags of a thread group and the fields of the format register
(spec/09_numbers.md R206-R209). -/

namespace Sys2Proof.Machine

/-- Every exception of a list. -/
def Flags.all (xs : List Flags) : Flags := xs.foldl Flags.or {}

/-- OR exceptions into a thread group's FPFLAGS (R209). -/
def State.raise (s : State) (g : Nat) (f : Flags) : State :=
  if f.word = 0 then s else s.onGroup g fun x => { x with fpflags := x.fpflags ||| f.word }

/-- OR the exceptions that each slice of a list raised into its group's FPFLAGS. -/
def State.raiseAll (s : State) (xs : List (Nat × Flags)) : State := xs.foldl (fun s x => s.raise x.1 x.2) s

/-! ### The format register (R206) -/

def Slice.ftz (x : Slice) : Bool := x.fmt.getLsbD 14

/-- The rounding mode in force: the prefix's when there is one, else the format register's (R197, R233, R261). -/
def Slice.rm (x : Slice) (p : Option Pfx) : Rm :=
  match p with
  | some q => Rm.ofCode q.rm.toNat
  | none => Rm.ofCode (field x.fmt.toNat 15 3)

/-- SPARE is AMAX. -/
def Slice.amax (x : Slice) : Bool := field x.fmt.toNat 12 2 == 1

/-- BLKSZ in elements. -/
def Slice.blockSize (x : Slice) : Nat := if field x.fmt.toNat 18 3 = 1 then 16 else 32

/-- R206: the values that FMTSET accepts. -/
def fmtOk (w : Word) : Bool :=
  let n := w.toNat
  decide (field n 18 3 ≤ 1) && decide (field n 15 3 ≤ 5) && decide (field n 12 2 ≤ 1) && field n 21 11 == 0

end Sys2Proof.Machine
end

