-- ==== Sys2Proof/Machine/Frames.lean ====
section
/-! DEFINITION. Granules, spill slots, and the records of frames, slices and reconvergence entries
(spec/08_registers_and_frames.md R183-R191; spec/17_threads_in_motion.md R375-R377). -/

namespace Sys2Proof.Machine

/-! ### Accesses that the part makes for itself -/

/-- Free bytes, for what the spec does not state (log entry 2). -/
def State.freeBytes (s : State) : Nat → State × List Byte
  | 0 => (s, [])
  | n + 1 =>
    let (v, s) := s.freeValue
    let (s, bs) := State.freeBytes s n
    (s, v.setWidth 8 :: bs)

/-- A core's own quad gives up its copy of a line before an access at scope pkg. -/
def State.giveLine (s : State) (core : Option Nat) (pa : Nat) : State :=
  match core with
  | some c => (s.drainQuad (quadOfCore c)).quadDrop (quadOfCore c) (pa / 64 * 64)
  | none => s

/-- Read n bytes of one line at their home at scope pkg: the bytes, and for each whether its sector is poisoned. A remote
home's bytes are free (log entry 10). -/
def State.pkgReadEach (s : State) (core : Option Nat) (pa n : Nat) (p : Policy) : State × List Byte × List Bool :=
  match placeOf pa with
  | .homed _ _ | .striped _ _ =>
    let (s, l) := (s.giveLine core pa).homeLine (pa / 64 * 64) (touched (pa % 64) n) p
    (s, l.slice (pa % 64) n, (List.range n).map fun i => l.poisonAt (pa % 64 + i) 1)
  | .scratch _ _ =>
    let (s, bs, _) := s.scratchRead pa n
    (s, bs, (List.range n).map fun i => s.peekPoison (pa + i) 1)
  | _ =>
    let (s, bs) := s.freeBytes n
    (s, bs, List.replicate n false)

/-- Read n bytes of one line at their home at scope pkg. -/
def State.pkgRead (s : State) (core : Option Nat) (pa n : Nat) (p : Policy) : State × List Byte × Bool :=
  let (s, bs, ps) := s.pkgReadEach core pa n p
  (s, bs, ps.any id)

/-- Write bytes of one line at their home at scope pkg, with poison or without. -/
def State.pkgWrite (s : State) (core : Option Nat) (pa : Nat) (bs : List Byte) (p : Policy) (bad : Bool := false) : State :=
  match placeOf pa with
  | .homed _ _ | .striped _ _ => (s.giveLine core pa).homePut pa bs bad p
  | .scratch _ _ => let s := s.poke pa bs; if bad then s.poisonAt pa bs.length else s
  | _ => s

/-- What an access that the part makes for itself comes to. -/
inductive Got (α : Type) where
  | ok (a : α)
  /-- a translation fault -/
  | fault (va : DWord) (subcode level : Nat)
  /-- it cannot be made now -/
  | held (h : Hold)
  /-- no free slot (R189) -/
  | full
  deriving DecidableEq, Repr

/-- Translate the line pieces of a run of bytes. -/
def State.mapPieces (s : State) (p : Party) (need : Need) : List (DWord × Nat) → State × Got (List (Mapping × Nat))
  | [] => (s, .ok [])
  | (va, n) :: rest =>
    match s.find p need va with
    | (s, .fault sub level) => (s, .fault va sub level)
    | (s, .ok m) =>
      match State.mapPieces s p need rest with
      | (s, .ok ms) => (s, .ok ((m, n) :: ms))
      | r => r
    | (s, .held h) => (s, .held h)

/-- Pieces of a run of n bytes: no more than one for each byte. -/
def piecesOf (va : DWord) (n : Nat) : List (DWord × Nat) := linePieces (n + 1) va n

/-- Read mapped pieces under their pages' policies and a CP: the bytes, and for each byte whether its sector is poisoned. -/
def State.readPieces (s : State) (core : Option Nat) (cp : Nat := 0) : List (Mapping × Nat) → State × List Byte × List Bool
  | [] => (s, [], [])
  | (m, n) :: rest =>
    let (s, bs, ps) := s.pkgReadEach core m.pa n (policyOf m.cpol cp)
    let (s, bs', ps') := State.readPieces s core cp rest
    (s, bs ++ bs', ps ++ ps')

/-- Write mapped pieces under their pages' policies and a CP. -/
def State.writePieces (s : State) (core : Option Nat) (cp : Nat := 0) : List (Mapping × Nat) → List Byte → State
  | [], _ => s
  | (m, n) :: rest, bs => State.writePieces (s.pkgWrite core m.pa (bs.take n) (policyOf m.cpol cp)) core cp rest (bs.drop n)

/-- Read a run of bytes as an access of a kind. -/
def State.partRead (s : State) (p : Party) (kind : AccessKind) (va : DWord) (n : Nat) : State × Got (List Byte × List Bool) :=
  match s.mapPieces p { kind := kind } (piecesOf va n) with
  | (s, .ok ms) => let (s, bs, ps) := s.readPieces p.unit.core? 0 ms; (s, .ok (bs, ps))
  | (s, .fault a b c) => (s, .fault a b c)
  | (s, .held h) => (s, .held h)
  | (s, .full) => (s, .full)

/-- Write a run of bytes as an access of a kind; nothing is written unless all of it translates. -/
def State.partWrite (s : State) (p : Party) (kind : AccessKind) (va : DWord) (bs : List Byte) : State × Got Unit :=
  match s.mapPieces p { kind := kind, wr := true } (piecesOf va bs.length) with
  | (s, .ok ms) => (s.writePieces p.unit.core? 0 ms bs, .ok ())
  | (s, .fault a b c) => (s, .fault a b c)
  | (s, .held h) => (s, .held h)
  | (s, .full) => (s, .full)

/-! ### Spill slots (R189) -/

def slotVa (x : Ctx) (slot : Nat) : DWord := x.spillBase + BitVec.ofNat 64 (2048 * slot)

def Ctx.slots (x : Ctx) : Nat := x.spillSize.toNat / 2048

/-- Look for the lowest run of `want` clear bits: `k` the bit, `run` the clear bits just below it, `w` the bitmap byte
that holds bit k. -/
def State.scanBitmap (s : State) (p : Party) (x : Ctx) (want : Nat) : Nat → Nat → Nat → Byte → State × Got Nat
  | 0, _, _, _ => (s, .full)
  | fuel + 1, k, run, w =>
    if x.slots ≤ k then (s, .full)
    else
      let go := fun (s : State) (w : Byte) =>
        if w.getLsbD (k % 8) then State.scanBitmap s p x want fuel (k + 1) 0 w
        else if run + 1 = want then (s, .ok (k + 1 - want))
        else State.scanBitmap s p x want fuel (k + 1) (run + 1) w
      if k % 8 = 0 then
        match s.partRead p .spill (x.spillBase + BitVec.ofNat 64 (k / 8)) 1 with
        | (s, .ok (bs, _)) => go s (bs.headD 0)
        | (s, .fault a b c) => (s, .fault a b c)
        | (s, .held h) => (s, .held h)
        | (s, .full) => (s, .full)
      else go s w

/-- Set or clear the bits of slots. -/
def State.markSlots (s : State) (p : Party) (x : Ctx) (used : Bool) : List Nat → State × Got Unit
  | [] => (s, .ok ())
  | k :: ks =>
    let va := x.spillBase + BitVec.ofNat 64 (k / 8)
    match s.partRead p .spill va 1 with
    | (s, .ok (bs, _)) =>
      let m : Byte := 1#8 <<< (k % 8)
      let b := bs.headD 0
      match s.partWrite p .spill va [if used then b ||| m else b &&& ~~~m] with
      | (s, .ok _) => State.markSlots s p x used ks
      | r => r
    | (s, .fault a b c) => (s, .fault a b c)
    | (s, .held h) => (s, .held h)
    | (s, .full) => (s, .full)

/-- Claim the lowest free run of n consecutive slots of a context (R189, R407); a claim that cannot be made leaves nothing
marked. -/
def State.claimSlots (s : State) (p : Party) (n : Nat) : State × Got Nat :=
  let x := s.ctxOf p.ctx
  match s.scanBitmap p x n (x.slots + 1) 0 0 0 with
  | (s, .ok k) =>
    match s.markSlots p x true (natsFrom k n) with
    | (t, .ok _) => (t, .ok k)
    | (_, .fault a b c) => (s, .fault a b c)
    | (_, .held h) => (s, .held h)
    | (_, .full) => (s, .full)
  | r => r

/-- Make a bitmap update that frees a slot, or leave it until its walk has ended or its fault is served (R189, R26). -/
def State.unmarkSlot (s : State) (f : PendingFree) : State :=
  match s.markSlots { who := .free f.id, unit := f.unit, ctx := f.ctx, alias_ := none } (s.ctxOf f.ctx) false [f.slot] with
  | (s, .ok _) => s.onCaches fun c => { c with frees := c.frees.filter (·.id != f.id) }
  | (_, .fault va sub level) =>
    let a : Ask := { who := .free f.id, unit := f.unit, ctx := f.ctx, va := va, kind := .spill }
    s.parkFault [a] a sub level
  | (_, .held (.miss a)) => s.openMiss a
  | _ => s

/-- Make the updates again that wait for no walk and no service. -/
def State.retryFrees (s : State) : State :=
  s.caches.frees.foldl (fun s f => if s.isParked (.free f.id) || s.isMissing (.free f.id) then s else s.unmarkSlot f) s

/-- An update whose fault was declined is given up. -/
def State.dropFree (s : State) (id : Nat) : State := s.onCaches fun c => { c with frees := c.frees.filter (·.id != id) }

/-- Free slots. -/
def State.freeSlots (s : State) (p : Party) (ks : List Nat) : State :=
  ks.foldl (fun s k =>
    let (id, s) := s.fresh
    let f : PendingFree := { id := id, unit := p.unit, ctx := p.ctx, slot := k }
    (s.onCaches fun c => { c with frees := c.frees ++ [f] }).unmarkSlot f) s

/-- Read from a slot, and write to one. -/
def State.slotRead (s : State) (p : Party) (slot off n : Nat) : State × Got (List Byte × List Bool) :=
  s.partRead p .spill (slotVa (s.ctxOf p.ctx) slot + BitVec.ofNat 64 off) n

def State.slotWrite (s : State) (p : Party) (slot off : Nat) (bs : List Byte) : State × Got Unit :=
  s.partWrite p .spill (slotVa (s.ctxOf p.ctx) slot + BitVec.ofNat 64 off) bs

/-! ### Columns and granules (R183) -/

/-- A column of a core: a pipe and a slot of it. -/
structure Column where
  core : Nat
  pipe : Nat
  slot : Nat
  deriving DecidableEq, Repr

/-- A slice's own column. -/
def State.columnOf (s : State) (x : Slice) : Column :=
  let e := s.env x
  { core := e.origin, pipe := e.group.pipe, slot := x.idx }

/-- The column of a guest slot (R386). -/
def guestColumn (core slot : Nat) : Column := { core := core, pipe := slot / 8, slot := slot % 8 }

/-- Whether Midnight is writing a frame of a slice, by its depth (R382). -/
def State.frameBusy (s : State) (u depth : Nat) : Bool := s.engines.midnight.any fun m => m.busy == some (u, depth)

/-- Granules of a resident frame. -/
def Frame.run? (f : Frame) : Option (Nat × Nat) := if f.slot.isNone then some (f.base, f.demand) else none

/-- Runs of granules held in a column: first granule and count (R183, R389, R434). -/
def State.runsIn (s : State) (c : Column) : List (Nat × Nat) :=
  (if c.core % 8 = 0 ∧ c.pipe = 0 then [(0, 32)] else []) ++
  s.slices.flatMap fun x =>
    if !x.live then []
    else
      let own := if s.columnOf x = c then
          x.run.toList ++ (match x.guest with | none => x.frames | some g => g.held :: g.lower).filterMap Frame.run?
        else []
      let gone := match x.mig.map (·.phase) with
        | some (.flying _ _) => true
        | _ => false
      let hosted := match x.guest with
        | some g => if guestColumn g.host g.slot = c && !gone then x.frames.filterMap Frame.run? else []
        | none => []
      let kept := match x.mig with
        | some m =>
          match m.phase with
          | .granted slot base | .departing slot base | .flying slot base =>
            if guestColumn m.dest slot = c then [(base, x.top.demand)] else []
          | _ => []
        | none => []
      own ++ hosted ++ kept

/-- The lowest free run of granules within [lo, hi). -/
def State.freeRun (s : State) (c : Column) (need lo hi : Nat) : Option Nat :=
  let runs := s.runsIn c
  (natsFrom lo (hi + 1 - need - lo)).find? fun b =>
    decide (b + need ≤ hi) && runs.all fun r => decide (b + need ≤ r.1) || decide (r.1 + r.2 ≤ b)

/-- The granules a context keeps for guests in each column. -/
def State.guestGranules (s : State) (ctx : Nat) : Nat := (s.ctxOf ctx).guestFrames.toNat

/-- Whether Midnight works on a column for another slice than one (R380). -/
def State.barred (s : State) (c : Column) (u : Nat) : Bool :=
  s.engines.midnight.any fun m => m.core == c.core && (m.state == .frames || m.state == .slices) && m.target != u &&
    (match s.slice? m.target with | some t => s.columnOf t == c | none => false)

/-- The run that a slice has claimed for its instruction, else the lowest free run of its own column outside the guest
reserve; while Midnight works on the column, only its requester claims there (R380). -/
def State.ownRun (s : State) (x : Slice) (need : Nat) : Option Nat :=
  match x.run.filter fun r => r.2 == need with
  | some r => some r.1
  | none =>
    let c := s.columnOf x
    if s.barred c x.uid then none else s.freeRun c need 0 (256 - s.guestGranules (s.env x).ctx)

/-! ### Frames -/

/-- A new frame at a run of granules (R185). -/
def Frame.new (base demand args : Nat) (retPc : DWord) : Frame :=
  { base := base, demand := demand, args := args, retPc := retPc, regs := List.replicate (8 * demand) (.u 0) }

/-- R187: the header of a frame with its caller's frame below it. -/
def Frame.header (f : Frame) (caller : Option Frame) (rx : Option Nat) : List Byte :=
  let linkSlot := (caller.bind (·.slot)).getD 0
  let spilled := f.slot.isSome
  let linkSpilled := (caller.bind (·.slot)).isSome
  let link := match caller with
    | some c => if c.slot.isSome then 0 else c.base
    | none => 0
  natToBytes 32 (b2n f.outer + (f.retPc.toNat / 2 % 2 ^ 55) * 2 + f.demand * 2 ^ 64 + f.args * 2 ^ 68 + f.base % 256 * 2 ^ 128 +
    b2n spilled * 2 ^ 136 + b2n f.migrated * 2 ^ 137 + link % 256 * 2 ^ 138 + b2n linkSpilled * 2 ^ 146 +
    f.slot.getD 0 % 2 ^ 32 * 2 ^ 160 + rx.getD 0 % 2 ^ 32 * 2 ^ 192 + linkSlot % 2 ^ 32 * 2 ^ 224)

def Reg.shape : Reg → Nat
  | .uniform _ => 0
  | .affine _ _ => 1
  | .general _ => 2

/-- The lane words in which a register is held, low word first (R175). -/
def Reg.words : Reg → List LaneWord
  | .uniform u => [u]
  | .affine b st => [b, st]
  | .general w => w.toList

/-- The POISON nibble of a register: the bit of a compact shape's word stands for every lane (R190). -/
def Reg.poisonNibble (r : Reg) : Nat :=
  (r.words.zipIdx.map fun w => if w.1.poison then 2 ^ w.2 else 0).sum

/-- A lane word in memory: zero where poisoned (R190). -/
def LaneWord.bytes (w : LaneWord) : List Byte := u32 (if w.poison then 0 else w.val.toNat)

/-- Numbers of `w` bits packed low first. -/
def packBits (w : Nat) : List Nat → Nat
  | [] => 0
  | x :: xs => x % 2 ^ w + 2 ^ w * packBits w xs

/-- A multiple of 16 bytes. -/
def pad16 (bs : List Byte) : List Byte := padTo ((bs.length + 15) / 16 * 16) bs

/-- R190: a frame record; the frame already has its slot. -/
def Frame.record (f : Frame) (caller : Option Frame) (rx : Option Nat) : List Byte :=
  f.header caller rx ++ natToBytes 24 (packBits 2 (f.regs.map Reg.shape)) ++ zeros 8 ++
  natToBytes 48 (packBits 4 (f.regs.map Reg.poisonNibble)) ++ zeros 16 ++
  pad16 (f.regs.flatMap fun r => r.words.flatMap LaneWord.bytes)

/-- A lane word read from memory at an offset, with the poison bit given it: a poisoned sector poisons it too (R193). -/
def readLane (bs : List Byte) (ps : List Bool) (off : Nat) (poison : Bool) : LaneWord :=
  let q := poison || ((ps.drop off).take 4).any id
  { val := if q then 0 else le32 bs off, poison := q }

/-- The registers of a record from a register number and an offset on. -/
def readRegs (bs : List Byte) (ps : List Bool) (shapes poisons : Nat) : Nat → Nat → Nat → List Reg
  | 0, _, _ => []
  | n + 1, i, off =>
    let w := fun k => readLane bs ps (off + 4 * k) (bit poisons (4 * i + k))
    match field shapes (2 * i) 2 with
    | 0 => .uniform (w 0) :: readRegs bs ps shapes poisons n (i + 1) (off + 4)
    | 1 => .affine (w 0) (w 1) :: readRegs bs ps shapes poisons n (i + 1) (off + 8)
    | _ => .general (L4.ofFn w) :: readRegs bs ps shapes poisons n (i + 1) (off + 16)

/-- The frame that a record holds, placed at a run of granules. -/
def Frame.ofRecord (bs : List Byte) (ps : List Bool) (base : Nat) : Frame :=
  let h := leAt bs 0 32
  let d := field h 64 4
  { base := base, demand := d, args := field h 68 4, retPc := BitVec.ofNat 64 (field h 1 55 * 2), outer := bit h 0,
    migrated := bit h 137, slot := none, regs := readRegs bs ps (leAt bs 0x20 24) (leAt bs 0x40 48) (8 * d) 0 0x80 }

/-- The most bytes of a frame record (R190). -/
def frameRecordBytes : Nat := 1664

/-! ### The frames of a slice at its origin -/

/-- The frames of a slice at its origin, the innermost first. -/
def Slice.homeFrames (x : Slice) : List Frame :=
  match x.guest with
  | some g => g.held :: g.lower
  | none => x.frames

def Slice.setHomeFrames (x : Slice) (fs : List Frame) : Slice :=
  match x.guest, fs with
  | some g, f :: rest => { x with guest := some { g with held := f, lower := rest } }
  | _, _ => { x with frames := fs }

/-- Frame k of a slice has left or entered its granules: the header of the frame that it called is rewritten, where that
frame is spilled (R187). -/
def State.relink (s : State) (p : Party) (x : Slice) (k : Nat) : State × Got Unit :=
  match k with
  | 0 => (s, .ok ())
  | j + 1 =>
    match x.homeFrames[j]? with
    | none => (s, .ok ())
    | some f =>
      match f.slot with
      | none => (s, .ok ())
      | some slot => s.slotWrite p slot 0 (f.header x.homeFrames[j + 1]? (if j = 0 then x.rxSlot else none))

/-! ### Reconvergence entries and slice records (R375, R191) -/

/-- A PC as halfwords from an entry address, and back. -/
def pcOffset (entry pc : DWord) : Int := (pc - entry).toInt / 2
def pcOfOffset (entry : DWord) (o : Nat) : DWord := entry + BitVec.ofInt 64 (2 * sextNat 32 o)

/-- R375: a PC that an entry can hold. -/
def pcInReach (entry pc : DWord) : Bool :=
  decide (-(2 ^ 31 : Int) ≤ pcOffset entry pc) && decide (pcOffset entry pc < 2 ^ 31)

def Recon.bytes (r : Recon) (entry : DWord) : List Byte :=
  natToBytes 16 (r.all.toNat + r.otherMask.toNat * 2 ^ 4 + r.dFmt.toNat % 2 ^ 21 * 2 ^ 10 + r.oFmt.toNat % 2 ^ 21 * 2 ^ 31 +
    r.fdepth % 4096 * 2 ^ 52 + truncInt 32 (pcOffset entry r.otherPc) * 2 ^ 64 + truncInt 32 (pcOffset entry r.rpc) * 2 ^ 96)

def Recon.ofBytes (bs : List Byte) (entry : DWord) : Recon :=
  let n := leAt bs 0 16
  { rpc := pcOfOffset entry (field n 96 32), otherPc := pcOfOffset entry (field n 64 32), fdepth := field n 52 12,
    oFmt := BitVec.ofNat 32 (field n 31 21), dFmt := BitVec.ofNat 32 (field n 10 21), otherMask := BitVec.ofNat 4 (field n 4 4),
    all := BitVec.ofNat 4 (field n 0 4) }

/-- R191: a slice record, the top frame's record standing in a slot. -/
def Slice.record (x : Slice) (entry : DWord) (topSlot wdog : Nat) : List Byte :=
  let first8 := x.recon.reverse.take 8
  u64 (x.pc.toNat / 2 % 2 ^ 55 * 2) ++ u8 x.m0.toNat ++ u8 x.recon.length ++ zeros 2 ++ u32 topSlot ++
  natToBytes 8 (packBits 4 (x.sof.map fun w => (w.toList.zipIdx.map fun v => if v.1.poison then 2 ^ v.2 else 0).sum)) ++
  u32 wdog ++ zeros 4 ++ (x.sof.flatMap fun w => w.toList.flatMap LaneWord.bytes) ++
  padTo 128 (first8.flatMap fun r => r.bytes entry)

/-- Bytes of a slice record. -/
def sliceRecordBytes : Nat := 0x1A0

/-- What a slice record gives back: PC, m0, the count of WDOG, the SOF and the eight oldest entries. -/
def Slice.ofRecord (x : Slice) (bs : List Byte) (ps : List Bool) (entry : DWord) : Slice :=
  let sp := leAt bs 0x10 8
  let depth := (le8 bs 9).toNat
  let first8 := (natsFrom 0 (Nat.min depth 8)).map fun k => Recon.ofBytes ((bs.drop (0x120 + 16 * k)).take 16) entry
  let later := x.recon.reverse.drop 8
  { x with
    pc := BitVec.ofNat 64 (field (leAt bs 0 8) 1 55 * 2),
    masks := setNth x.masks 0 (BitVec.ofNat 4 ((le8 bs 8).toNat % 16)),
    wdog := (le32 bs 0x18).toNat,
    sof := (natsFrom 0 16).map fun j => L4.ofFn fun l => readLane bs ps (0x20 + 16 * j + 4 * l) (bit sp (4 * j + l)),
    recon := (first8 ++ later).reverse }

/-! ### The slot of entries beyond eight (R188, R377) -/

/-- All entries of a slice, innermost first: of a guest also those that stayed at its origin. -/
def Slice.allEntries (x : Slice) : List Recon := x.recon ++ (match x.guest with | some g => g.entries | none => [])

/-- The entries beyond the eighth, oldest first. -/
def Slice.lateEntries (x : Slice) : List Recon := x.allEntries.reverse.drop 8

/-- Bring the slot of a slice's entries beyond eight into step: claimed at the ninth, written while any stands there,
freed at eight or fewer. What cannot be done leaves nothing claimed. -/
def State.syncRx (s : State) (e : Env) (x : Slice) : State × Got Slice :=
  let p := e.party x.uid
  let late := x.lateEntries
  let write := fun (t : State) (k : Nat) =>
    match t.slotWrite p k 0 (late.flatMap fun r => r.bytes e.launch.pkt.entry) with
    | (t, .ok _) => (t, Got.ok { x with rxSlot := some k, rxHeld := late })
    | (_, .fault a b c) => (s, .fault a b c)
    | (_, .held h) => (s, .held h)
    | (_, .full) => (s, .full)
  match x.rxSlot with
  | none =>
    if late.isEmpty then (s, .ok x)
    else
      match s.claimSlots p 1 with
      | (t, .ok k) => write t k
      | (_, .fault a b c) => (s, .fault a b c)
      | (_, .held h) => (s, .held h)
      | (_, .full) => (s, .full)
  | some k => if late.isEmpty then (s.freeSlots p [k], .ok { x with rxSlot := none, rxHeld := [] }) else write s k

/-- A slice with a slot that a merge or a switch has left out of step: one that it needs no more, or, where the slice goes
on, one whose entries have changed (R377). -/
def Slice.rxStale (x : Slice) : Bool :=
  x.live && x.rxSlot.isSome &&
  (x.lateEntries.isEmpty || (x.status == .ready && x.mig.isNone && x.rxHeld != x.lateEntries))

/-- Bring the slots of such slices into step (R188, R309): an access that faults parks, and its slice waits for it. -/
def State.syncSlices (s : State) : State :=
  (s.slices.filter Slice.rxStale).foldl (fun s x =>
    let e := s.env x
    if (s.declinedOf (.slice x.uid)).isSome then s
    else
      match s.syncRx e x with
      | (s, .ok y) => s.setSlice y
      | (s, .fault va sub level) =>
        let a : Ask := { who := .slice x.uid, unit := .core e.core, ctx := e.ctx, va := va, kind := .spill }
        (s.parkFault [a] a sub level).setSlice { x with status := .faultWait }
      | (s, .held (.miss a)) => (s.openMiss a).setSlice { x with status := .missWait }
      | (s, _) => s) s

end Sys2Proof.Machine
end

