-- ==== Sys2Proof/Machine/Ops.lean ====
section
/-! DEFINITION. What every instruction shares: moving the PC and the paths of a slice, frames pushed and popped, taking
a trap and returning from one, gangs, and running an instruction for the slices that issue it
(spec/14_instr_control.md R306-R320; spec/18_faults_and_preemption.md R395-R401). -/

namespace Sys2Proof.Machine

/-! ### Paths (R307-R309) -/

/-- The top entry of the current frame. -/
def Slice.topEntry (x : Slice) : Option Recon :=
  match x.recon with
  | e :: _ => if e.fdepth = x.depth then some e else none
  | [] => none

def Slice.setEntry (x : Slice) (e : Recon) : Slice := { x with recon := e :: x.recon.tail }

/-- Switch to the other path, the leaving path standing at a PC (R309). -/
def Slice.switch (x : Slice) (e : Recon) (pc : DWord) : Slice :=
  let y := x.clearLocal
  { y with
    pc := e.otherPc, masks := setNth x.masks 0 e.otherMask, fmt := e.oFmt, turn := 0,
    recon := { e with otherPc := pc, otherMask := x.m0, oFmt := x.fmt } :: x.recon.tail }

/-- Merge at the reconvergence point and pop the entry (R309). -/
def Slice.mergePaths (x : Slice) (e : Recon) : Slice :=
  let y := x.clearLocal
  { y with pc := e.rpc, masks := setNth x.masks 0 e.all, fmt := e.dFmt, recon := x.recon.tail }

/-- The arrival test, repeated after a merge (R309). Another path without lanes stands nowhere, so the entry merges. -/
def Slice.arrive : Nat → Slice → Slice
  | 0, x => x
  | n + 1, x =>
    match x.topEntry with
    | none => x
    | some e =>
      if x.pc ≠ e.rpc then x
      else if e.otherPc = e.rpc ∨ e.otherMask = 0 then Slice.arrive n (x.mergePaths e)
      else x.switch e x.pc

/-- Move to a PC by executing an instruction. -/
def Slice.land (x : Slice) (pc : DWord) : Slice := Slice.arrive 65 { x with pc := pc }

/-- The address after an instruction. -/
def Slice.after (x : Slice) (i : Instr) : DWord := x.pc + BitVec.ofNat 64 i.length

/-- Go on after an instruction. -/
def Slice.next (x : Slice) (i : Instr) : Slice := x.land (x.after i)

/-- The slice has left the instruction at which it may have waited. -/
def Slice.retired (x : Slice) : Slice :=
  { x with since := none, wdog := 0, stay := false, mbar := [], run := none }

/-- Clocks for which it has waited at its instruction (R191, R397). -/
def Slice.waited (x : Slice) (clock : DWord) : Nat :=
  match x.since with
  | some c => (clock - c).toNat
  | none => x.wdog

/-- The clock since which it waits at its instruction; a count carried by a save goes on (R397). -/
def Slice.waiting (x : Slice) (clock : DWord) : Slice :=
  { x with since := some (x.since.getD (clock - BitVec.ofNat 64 x.wdog)), wdog := 0 }

/-! ### Traps (R351, R395, R396) -/

/-- A trap as taken: its cause, what ECAUSE, EADDR and EPC receive, and the value of v6:v7 (R399). -/
structure TrapInfo where
  cause : Nat
  subcode : Nat := 0
  info : Nat := 0
  eaddr : DWord
  epc : DWord
  fpc : DWord
  deriving DecidableEq, Repr

/-- R351. -/
def TrapInfo.ecause (t : TrapInfo) : Word :=
  BitVec.ofNat 32 (t.cause % 256 + t.subcode % 16 * 2 ^ 8 + t.info % 256 * 2 ^ 16)

/-- A trap at an instruction, EADDR the instruction. -/
def trapAt (cause : Nat) (pc : DWord) : TrapInfo := { cause := cause, eaddr := pc, epc := pc, fpc := pc }

/-- A trap at an instruction about an address. -/
def trapOn (cause : Nat) (pc va : DWord) : TrapInfo := { cause := cause, eaddr := va, epc := pc, fpc := pc }

def causeIllegal : Nat := 1
def causeMisaligned : Nat := 2
def causeMigration : Nat := 5
def causeFrame : Nat := 6
def causeDepth : Nat := 7
def causeRights : Nat := 8
def causeTile : Nat := 9
def causePoison : Nat := 10
def causeWatchdog : Nat := 11
def causeUser : Nat := 12
def causeBreak : Nat := 13

/-- The page-fault cause of a subcode (R25). -/
def pageCause (sub : Nat) : Nat := if sub = 1 ∨ 4 ≤ sub then 4 else 3

def trapPage (sub : Nat) (pc va : DWord) : TrapInfo :=
  { cause := pageCause sub, subcode := sub, eaddr := va, epc := pc, fpc := pc }

/-! ### Gangs (R311, R318) -/

/-- Give each slice a gang of its own. -/
def State.partSlices (s : State) (us : List Nat) : State :=
  us.foldl (fun s u => let (g, s) := s.fresh; s.onSlice u fun x => { x with gang := g }) s

/-- After an instruction, slices whose next PCs differ part (R311). -/
def State.partIfApart (s : State) (us : List Nat) : State :=
  match ((us.filterMap s.slice?).filter (·.live)).map (·.pc) with
  | [] => s
  | pc :: pcs => if pcs.all (· == pc) then s else s.partSlices us

/-! ### Halting (R398, R401) -/

/-- Slice coordinates in a DETAIL field (R423). -/
def Env.coords (e : Env) (x : Slice) : Nat := e.origin + e.group.pipe % 8 * 2 ^ 7 + e.group.place % 16 * 2 ^ 10 + x.idx % 8 * 2 ^ 14

/-- Start a return home (R391): the slice leaves its host once its accesses are performed. -/
def Slice.startReturn (x : Slice) (origin kind : Nat) (code : Option (Instr × Nat)) : Slice :=
  { x with status := .migrating, mig := some { phase := .returning kind, dest := origin, code := code } }

/-- A guest that stands at its host: its continuation has come, and it is not on its way home. -/
def Slice.atHost (x : Slice) : Bool :=
  x.guest.isSome && (match x.mig.map fun (m : Migration) => m.phase with
    | some (.flying _ _) | some (.returning _) => false
    | _ => true)

/-- Count a halted group in FAULTS of its queue, saturating (R357). -/
def State.countFault (s : State) (q : Nat) : State :=
  let a := queueBlock q + 0x1C
  let n := s.word a
  if n = 0xFFFFFFFF then s else s.setWord a (n + 1)

/-- Halt the thread group of a slice: slices away as guests return home, those of which a continuation is on its way once it
has come (R401). -/
def State.haltGroup (s : State) (x : Slice) (t : TrapInfo) : State :=
  let e := s.env x
  let s := if e.group.halted then s
    else
      let s := s.countFault e.launch.queue
      let s := s.post { source := srcDie (dieOfCore e.origin), cls := 2, code := if t.cause = causeBreak then 2 else 1,
                        ctx := some e.ctx, core := some e.origin, payload := t.epc,
                        detail := dword t.ecause (BitVec.ofNat 32 (e.coords x)), group := some e.group.uid }
      s.onGroup e.group.uid fun g => { g with halted := true, haltSeq := none }
  { s with slices := s.slices.map fun y => if y.group = x.group ∧ y.atHost then y.startReturn e.origin 1 none else y }

/-! ### Trap entry and return (R398-R400) -/

/-- Enter the handler in a frame at a run of granules (R399). -/
def Slice.enterHandler (x : Slice) (handler : DWord) (base : Nat) (fpc : DWord) : Slice :=
  let w := fun v => Reg.u v
  let regs := [w x.ecause, w 0, w (lo32 x.epc), w (hi32 x.epc), w (lo32 x.eaddr), w (hi32 x.eaddr), w (lo32 fpc), w (hi32 fpc)]
  let f : Frame := { Frame.new base 2 0 x.epc with regs := regs ++ List.replicate 8 (.u 0) }
  let y := x.clearLocal
  { y with frames := f :: x.frames, pc := handler, status := .ready, pendingTrap := none }

/-- Take a trap (R396, R398, R399): a guest goes home first; then the slice parts, ECAUSE, EADDR and EPC are written,
and it enters the launch's handler or its thread group halts. A trap cannot be taken twice at once: a slice that waits
for its trap frame stays so. -/
def State.takeTrap (s : State) (u : Nat) (t : TrapInfo) : State :=
  match s.slice? u with
  | none => s
  | some x =>
    let e := s.env x
    if x.guest.isSome then
      s.setSlice { (x.startReturn e.origin 1 none) with
        pc := t.epc, pendingTrap := some { cause := t.cause, subcode := t.subcode, eaddr := t.eaddr, pc := t.fpc } }
    else
      let s := s.partSlices [u]
      let x := (s.slice? u).getD x
      let deep := decide (4095 ≤ x.depth)
      let halts := e.launch.pkt.trap = 0 || x.tstate.isSome || t.cause = causeWatchdog || t.cause = causeBreak ||
        (t.cause = causePoison && s.duty 6)
      let t' := if !halts && deep then { t with cause := causeFrame, subcode := 0, info := 0, eaddr := 0 } else t
      let x := { x.retired with ecause := t'.ecause, eaddr := t'.eaddr, epc := t'.epc, pendingTrap := none, status := .ready,
                                parked := x.lasting }
      if halts || deep then
        let x := { x with pc := t'.epc, stopped := true }
        (s.setSlice x).haltGroup x t'
      else
        let x := { x with tstate := some { m0 := x.m0, fmt := x.fmt, fdepth := x.depth } }
        match s.ownRun x 2 with
        | some b => s.setSlice (x.enterHandler e.launch.pkt.trap b t.fpc)
        | none =>
          s.setSlice { x with
            status := .frameBlocked 2 .trap, blockedSince := s.clock,
            pendingTrap := some { cause := t.cause, subcode := t.subcode, eaddr := t.eaddr, pc := t.fpc } }

/-- The trap of a parked access that service declined, taken at an instruction boundary (R396). -/
def State.takePending (s : State) (x : Slice) (p : PendingTrap) : State :=
  s.takeTrap x.uid { cause := p.cause, subcode := p.subcode, eaddr := p.eaddr, epc := x.pc, fpc := p.pc }

/-- Whether the top frame is the trap frame (R353, R400). -/
def Slice.inTrapFrame (x : Slice) : Bool :=
  match x.tstate with
  | some t => x.depth == t.fdepth + 1
  | none => false

/-- Return from a handler (R353, R400): the trap frame is freed with the paths that stood in it, and m0 and the format
register are restored. -/
def Slice.returnFromTrap (x : Slice) (t : TState) : Slice :=
  let y := x.clearLocal
  Slice.land { y with
    frames := x.frames.tail, masks := setNth x.masks 0 t.m0, fmt := t.fmt, tstate := none,
    recon := x.recon.dropWhile (fun r => decide (t.fdepth < r.fdepth)),
    returned := x.returned.filter (fun r => decide (r.1 ≤ t.fdepth)) } x.epc

/-! ### Frames pushed and popped (R185, R186) -/

/-- What an instruction does to one slice that issues it. -/
inductive Out where
  /-- it retires, the slice at its next PC -/
  | done (x : Slice)
  /-- it has not retired: it issues again, or goes on when its wait ends -/
  | stay (x : Slice)
  | trap (t : TrapInfo)
  deriving DecidableEq, Repr

/-- Push a frame (R185): the last registers of the caller become the first of the callee. -/
def Slice.pushFrame (x : Slice) (base demand args : Nat) (retPc : DWord) : Slice :=
  let old := x.top
  let f := Frame.new base demand args retPc
  let window := old.regs.drop (old.regs.length - args)
  let y := x.clearLocal
  { y with frames := { f with regs := window ++ f.regs.drop args } :: x.frames }

/-- Pop a frame into a resident caller's (R186): its ARGS window returns. -/
def Slice.popFrame (x : Slice) (f caller : Frame) (rest : List Frame) : Slice :=
  let keep := caller.regs.take (caller.regs.length - f.args)
  let y := x.clearLocal
  { y with frames := { caller with regs := keep ++ f.regs.take f.args } :: rest }

/-- A slice that waits for granules (R379); its watchdog count stands meanwhile (R397). -/
def Slice.block (x : Slice) (clock : DWord) (need : Nat) (what : Block) : Slice :=
  { x with status := .frameBlocked need what, blockedSince := clock, run := none, since := none, wdog := x.waited clock }

/-- Park a slice on a fault of an access to the spill area (R189), or on a failed claim where the spill duty is
host-assisted (R382, R432). -/
def State.parkSpill (s : State) (e : Env) (x : Slice) (va : DWord) (sub level : Nat) : State × Out :=
  let a : Ask := { who := .slice x.uid, unit := .core e.core, ctx := e.ctx, va := va, kind := .spill }
  (s.parkFault [a] a sub level, .stay { x with status := .faultWait })

/-- A slice stays at its instruction until an access that the part makes for it can be made. -/
def State.stayFor (s : State) (x : Slice) (h : Hold) : State × Out :=
  match h with
  | .busy => (s, .stay x)
  | .miss a => (s.openMiss a, .stay { x with status := .missWait })
  | .parked => (s, .stay { x with status := .faultWait })

/-- What becomes of a failed access to the spill area: it parks, or no slot being free it is a frame fault (R189),
which a host-assisted spill duty answers (log entry 12). -/
def State.spillFailed {α : Type} (s : State) (e : Env) (x : Slice) (g : Got α) : State × Out :=
  let base := (s.ctxOf e.ctx).spillBase
  match g with
  | .fault va sub level => s.parkSpill e x va sub level
  | .full => if s.duty 1 then s.parkSpill e x base 2 0 else (s, .trap (trapOn causeFrame x.pc base))
  | .held h => s.stayFor x h
  | .ok _ => (s, .stay x)

/-- Read a spilled frame at a run of granules (R186); its slot is freed once its instruction has come about. -/
def State.reloadFrame (s : State) (e : Env) (x : Slice) (slot base : Nat) : State × Got Frame :=
  match s.slotRead (e.party x.uid) slot 0 frameRecordBytes with
  | (s, .ok (bs, ps)) => (s, .ok (Frame.ofRecord bs ps base))
  | (s, .fault a b c) => (s, .fault a b c)
  | (s, .held h) => (s, .held h)
  | (s, .full) => (s, .full)

/-- Finish an instruction that changed the slice's entries: their slot follows them (R188, R377); `x` is the slice as it
was, to be kept when the slot's access parks. -/
def State.withRx (s : State) (e : Env) (x y : Slice) : State × Out :=
  if x.recon = y.recon ∨ (x.lateEntries.isEmpty ∧ y.lateEntries.isEmpty) then (s, .done y)
  else
    match s.syncRx e y with
    | (s', .ok y) => (s', .done y)
    | (_, g) => s.spillFailed e x g

/-- End a slice (R319): its writes and its deferred updates are performed; its frames, spill slots and guest state go. -/
def State.endSlice (s : State) (e : Env) (x : Slice) : State × Slice :=
  let held := match x.guest with
    | some g => g.held :: g.lower
    | none => []
  let slots := ((x.frames ++ held).filterMap (·.slot)) ++ x.rxSlot.toList ++ (x.spill.map (·.1)).toList
  let s := (s.releaseAt e x .pkg).freeSlots (e.party x.uid) slots
  (s, { x.clearLocal with status := .exited, frames := [], recon := [], returned := [], rxSlot := none, guest := none, mig := none,
                          tstate := none, spill := none, held := none, run := none, masks := setNth x.masks 0 0 })

/-- What runs once the running path has no lane (R309 exit, R314, R319). -/
inductive Settled where
  | runs (x : Slice)
  /-- the lanes kept aside as returned now return -/
  | returns (x : Slice)
  | ended
  deriving DecidableEq, Repr

def Slice.returnedAt (x : Slice) : BitVec 4 := assoc 0 x.returned x.depth

/-- Take the frame off the top; below the last frame of a guest at its host stand those at its origin (log entry 13). -/
def Slice.dropFrame (x : Slice) : Slice :=
  let d := x.depth
  let y := { x with frames := x.frames.tail, returned := x.returned.filter (·.1 != d),
                    tstate := match x.tstate with
                      | some t => if t.fdepth + 1 = d then none else some t
                      | none => none }
  match x.guest, x.frames.tail with
  | some g, [] => { y.clearSof with frames := g.lower, recon := g.entries, guest := none }
  | _, _ => y

/-- The slots that go with the frame at the top: its own, and of a guest's last frame that of the frame held at home. -/
def Slice.topSlots (x : Slice) : List Nat :=
  x.top.slot.toList ++ (match x.guest, x.frames.tail with
    | some g, [] => g.held.slot.toList
    | _, _ => [])

/-- Find the path that runs next, leaving frames in which no lane remains; the freed frames' slots are collected. -/
def Slice.settle : Nat → Slice → List Nat → Settled × List Nat
  | 0, _, freed => (.ended, freed)
  | n + 1, x, freed =>
    match x.topEntry with
    | some e =>
      if e.otherMask = 0 then Slice.settle n { x with recon := x.recon.tail } freed
      else if e.otherPc = e.rpc then (.runs (Slice.arrive 65 ({ x with turn := 0 }.mergePaths e)), freed)
      else
        let y := x.clearLocal
        (.runs { y with pc := e.otherPc, masks := setNth x.masks 0 e.otherMask, fmt := e.oFmt, turn := 0,
                        recon := { e with otherPc := e.rpc, otherMask := 0 } :: x.recon.tail }, freed)
    | none =>
      let back := x.returnedAt
      if back ≠ 0 then
        (.returns { x with masks := setNth x.masks 0 back, returned := x.returned.filter (·.1 != x.depth) }, freed)
      else if x.depth = 0 then (.ended, freed)
      else Slice.settle n x.dropFrame (freed ++ x.topSlots)

/-- Lanes leave ALL of the entries of a frame depth, or of every entry, those that a guest left at its origin among
them. -/
def Slice.leaveLanes (x : Slice) (lanes : BitVec 4) (depth : Option Nat) : Slice :=
  let leave := fun (e : Recon) => if depth = none ∨ depth = some e.fdepth then { e with all := e.all &&& ~~~lanes } else e
  { x with recon := x.recon.map leave, guest := x.guest.map fun g => { g with entries := g.entries.map leave } }

/-- Fuel for `settle`: entries and frames. -/
def Slice.settleFuel (x : Slice) : Nat :=
  x.recon.length + x.frames.length + 1 + (match x.guest with | some g => g.lower.length + g.entries.length | none => 0)

/-- The end of a slice: its accesses are completed first (R319, R148), so it waits at its instruction, as `x`, until they
are. -/
def State.endOrWait (s : State) (e : Env) (x y : Slice) : State × Out :=
  if x.parked.isEmpty && s.accessesDone x then let (s, z) := s.endSlice e y; (s, .done z) else (s, .stay x)

/-- Free the slots that an instruction which retires has left. -/
def State.freeLeft (e : Env) (x : Slice) (slots : List Nat) (r : State × Out) : State × Out :=
  match r with
  | (s, .done y) => (if slots.isEmpty then s else s.freeSlots (e.party x.uid) slots, .done y)
  | r => r

/-- A slice waits, at its instruction, for a run of granules to reload a frame. -/
def State.blockFor (s : State) (x : Slice) (need : Nat) : State × Out := (s, .stay (x.block s.clock need .retry))

/-- The top frame resident before the slice goes on at its PC; `x` is the slice as it was before. A frame that Midnight is
writing is waited for (R382). -/
def State.withTop (s : State) (e : Env) (x y : Slice) : State × Out :=
  if s.frameBusy x.uid y.depth then (s, .stay x)
  else
    match y.top.slot with
    | none => s.withRx e x y
    | some slot =>
      match (s.setSlice y).ownRun y y.top.demand with
      | none => s.blockFor x y.top.demand
      | some b =>
        match s.reloadFrame e y slot b with
        | (s, .ok f) => State.freeLeft e x [slot] (s.withRx e x (y.setTop f))
        | (s', g) => s'.spillFailed e x g

/-- RET by the lanes of m0, no entry of the frame standing (R186, R314): the caller's frame is reloaded if it is
spilled; the outermost frame ends the slice; a guest goes home with its ARGS window (R390). `x` is the slice as it
stands at its RET. -/
def State.doRet (s : State) (e : Env) (x y : Slice) : State × Out :=
  if y.guest.isSome then (s, .stay (y.startReturn e.origin 2 none))
  else
    match y.frames with
    | f :: caller :: rest =>
      if f.outer then s.endOrWait e x y
      else if s.frameBusy x.uid (y.depth - 1) then (s, .stay x)
      else
        match caller.slot with
        | none => s.withRx e x ((y.popFrame f caller rest).land f.retPc)
        | some slot =>
          match s.ownRun y caller.demand with
          | none => s.blockFor x caller.demand
          | some b =>
            match s.reloadFrame e y slot b with
            | (s, .ok c) => State.freeLeft e x [slot] (s.withRx e x ((y.popFrame f c rest).land f.retPc))
            | (s', g) => s'.spillFailed e x g
    | _ => s.endOrWait e x y

/-- Go on when the running path has no lane left; `x` is the slice as it was at its instruction. A guest of whose lanes none
stands at its host any more goes home first (log entry 13). A spilled frame in which only returned lanes stand is read from
its slot and freed at once (log entry 96). -/
def State.goOn (s : State) (e : Env) (x y : Slice) : State × Out :=
  let (r, freed) := Slice.settle y.settleFuel y []
  let home := (s, Out.stay (x.startReturn e.origin 1 none))
  match r with
  | .runs z => if x.guest.isSome && z.guest.isNone then home else State.freeLeft e x freed (s.withTop e x z)
  | .returns z =>
    if x.guest.isSome && z.guest.isNone then home
    else
      match z.top.slot with
      | none => State.freeLeft e x freed (s.doRet e x z)
      | some slot =>
        match s.reloadFrame e z slot z.top.base with
        | (s, .ok f) => State.freeLeft e x (freed ++ [slot]) (s.doRet e x (z.setTop f))
        | (s', g) => s'.spillFailed e x g
  | .ended => s.endOrWait e x y

/-- End the running lanes as EXIT does (R319), once frames have been left, as `y`. -/
def State.exitLanes (s : State) (e : Env) (x y : Slice) : State × Out :=
  s.goOn e x { (y.leaveLanes y.m0 none) with masks := setNth y.masks 0 0 }

/-- Enter a callee at a PC (R185), or wait for its granules; a depth of 4,096 is a frame fault (R376). -/
def State.doCall (s : State) (x : Slice) (target retPc : DWord) (args demand : Nat) (fill : Slice → Slice) : Out :=
  if 4095 ≤ x.depth then .trap (trapOn causeFrame x.pc 0)
  else
    match s.ownRun x demand with
    | some b => .done { fill (x.pushFrame b demand args retPc) with pc := target }
    | none => .stay (x.block s.clock demand .retry)

/-! ### Checks at issue -/

end Sys2Proof.Machine

namespace Sys2Proof

/-- R184: every named register lies in a frame of F registers. -/
def Instr.inFrame (f : Nat) (i : Instr) : Bool :=
  let two := fun (b d : Fin 32) => decide (b.val < f) && decide (d.val < f)
  match i with
  | .movShort _ b d | .iaddShort _ b d | .isubShort _ b d | .imulShort _ b d | .andShort _ b d | .orShort _ b d
  | .xorShort _ b d | .shlShort _ b d | .shrShort _ b d | .shaShort _ b d | .faddShort _ b d | .fsubShort _ b d
  | .fmulShort _ b d | .fmaxShort _ b d | .fminShort _ b d => two b d
  | .iaddi5Short _ _ d => decide (d.val < f)
  | i =>
    match i.uses with
    | none => true
    | some u =>
      u.srcs.all (fun x => x.1.inFrame f x.2.count) &&
      (match u.dst with | some (d, w) => d.inFrame f w.count | none => true) &&
      (match u.pfx.bind (·.c), u.c with | some c, some w => c.inFrame f w.count | _, _ => true)

/-- The register operands of an instruction, each with its number of registers. -/
def Instr.operands (i : Instr) : List (Opnd × Nat) :=
  let v := fun (n : Fin 32) => (Opnd.v ⟨n.val, by omega⟩, 1)
  match i with
  | .movShort _ b d | .iaddShort _ b d | .isubShort _ b d | .imulShort _ b d | .andShort _ b d | .orShort _ b d
  | .xorShort _ b d | .shlShort _ b d | .shrShort _ b d | .shaShort _ b d | .faddShort _ b d | .fsubShort _ b d
  | .fmulShort _ b d | .fmaxShort _ b d | .fminShort _ b d => [v b, v d]
  | .iaddi5Short _ _ d => [v d]
  | .csrr d b => [(d.asOpnd, 2), (b, 1)]
  | i =>
    match i.uses with
    | none => []
    | some u =>
      u.srcs.map (fun x => (x.1, x.2.count)) ++ (u.dst.map fun d => (d.1.asOpnd, d.2.count)).toList ++
      (match u.pfx.bind (·.c), u.c with | some c, some w => [(c, w.count)] | _, _ => [])

/-- Whether an instruction pushes or pops frames of its slice (R185, R186). -/
def Instr.movesFrames (i : Instr) : Bool :=
  match i with
  | .call _ _ _ | .callIndirect _ _ _ | .ret | .unwind _ _ | .eret | .exit => true
  | _ => false

/-- Whether the part itself writes o registers for an instruction (R172). -/
def Instr.writesSof (i : Instr) : Bool :=
  match i with
  | .unwind _ _ | .sqpop _ _ | .cwait _ _ | .mbarWait _ _ _ _ _ | .mbarTest _ _ _ _ _ => true
  | _ => false

/-- Whether an operand of n registers meets a destination of m. -/
def Opnd.meets (o : Opnd) (n : Nat) (d : Dst) (m : Nat) : Bool :=
  match o, d with
  | .v i, .v j => decide (i.val < j.val + m) && decide (j.val < i.val + n)
  | .o i, .o j => decide (i.val < j.val + m) && decide (j.val < i.val + n)
  | _, _ => false

/-- The destination that an access which parks has, with its number of registers. -/
def Instr.parkedDst (i : Instr) : Option (Dst × Nat) :=
  match i with
  | .ld _ z d _ _ => some (d, z.width.count)
  | .atom _ _ d _ _ _ => some (d, 1)
  | .atomb _ o d _ _ _ => some (d, if o = .addI64 then 2 else 1)
  | _ => none

/-- R403: what a firmware slice may not issue. -/
def Instr.firmwareIllegal (i : Instr) : Bool :=
  match i with
  | .copy _ _ _ _ _ | .copymm _ _ _ _ _ | .tdef _ _ _ | .tfree _ _ | .tstat _ _ _ | .cseal _ _ _ | .cwait _ _ | .cpoll _ _ _
  | .mma _ _ _ _ | .mmaz _ _ _ _ | .accld _ | .accst _ | .accz _ | .qmin _ _ _ _ _ | .qmax _ _ _ _ _ | .qget _ _ _
  | .qset _ _ _ _ | .pin _ _ _ _ | .unpin _ _ _ _ | .gbind _ _ _ _ | .sqpush _ _ _ _ | .sqpop _ _ | .spawn _ _ _ | .join _ _
  | .tdone _ _ _ | .tdoneAbandon _ _ _ | .tnextS _ | .tnextG _ => true
  | _ => false

/-- The accesses that park and are retired as faulted when service declines (R396): the trap is taken after them. -/
def Instr.parksAccess (i : Instr) : Bool :=
  match i with
  | .ld _ _ _ _ _ | .st _ _ _ _ _ | .atom _ _ _ _ _ _ | .atomb _ _ _ _ _ _ | .waitw _ _ _ _ | .migrate _ _ _ | .mbarWait _ _ _ _ _
  | .mbarTest _ _ _ _ _ => true
  | _ => false

/-- R285, R325, R336: what a guest executes only at its origin. -/
def Instr.sendsHome (i : Instr) : Bool :=
  match i with
  | .call _ _ _ | .callIndirect _ _ _ | .unwind _ _ | .regang _ | .tnextS _ | .tnextG _ | .join _ _ | .gbind _ _ _ _
  | .sqpush _ _ _ _ | .sqpop _ _ | .csrr _ _ | .csrw _ _ _ | .trap _ | .eret | .evpost _ _ _ | .tlbinv _ _ _ | .brk _
  | .tdef _ _ _ | .tfree _ _ | .tstat _ _ _ | .mma _ _ _ _ | .mmaz _ _ _ _ | .accld _ | .accst _ | .accz _ => true
  | _ => false

end Sys2Proof

namespace Sys2Proof.Machine

/-- The interlock of parked accesses (R396): an instruction waits for a register that one of them is still to bring, or
that it would take away. -/
def Slice.interlocked (x : Slice) (i : Instr) : Bool :=
  (i.operands.any fun o => match o.1 with
    | .l k => (natsFrom k.val o.2).any x.isDue
    | _ => false) ||
  x.parked.any fun p => match p.instr.parkedDst with
    | some (.v j, n) => p.fdepth == x.depth && (i.movesFrames || i.operands.any fun o => o.1.meets o.2 (.v j) n)
    | some (.o j, n) => i.writesSof || i.operands.any fun o => o.1.meets o.2 (.o j) n
    | _ => false

/-- The trap that a declined access raises: of the spill area a frame fault; else a page fault, at the instruction, or
after it where the access had parked (R395, R396). -/
def trapDeclined (d : Declined) (i : Instr) (x : Slice) : TrapInfo :=
  if d.ask.kind = .spill then trapOn causeFrame x.pc d.ask.va
  else if i.parksAccess then { trapPage d.subcode x.pc d.ask.va with epc := x.after i }
  else trapPage d.subcode x.pc d.ask.va

end Sys2Proof.Machine
end

