-- ==== Sys2Proof/Machine/Run.lean ====
section
/-! DEFINITION. Running an instruction for the slices of the issuing gang: the lane form of R249, and the form in which
each slice acts for itself (spec/12_instr_lane_arith.md R249; spec/14_instr_control.md R311; spec/18 R396). -/

namespace Sys2Proof.Machine

/-- Every instruction is executed by a gang. -/
def State.issue (s : State) (f : State → State) : Host.Outcome State Fault Refusal :=
  if s.cur = [] then .refused .noGang else .next (f s)

/-- Slices that trap do so; the gang parts, and its other slices issue the instruction again alone (R249, R396). -/
def State.takeTraps (s : State) (ts : List (Nat × TrapInfo)) : State :=
  ts.foldl (fun s t => s.takeTrap t.1 t.2) (if 1 < s.cur.length then s.partSlices s.cur else s)

/-- Slices that go home first (R285, R325, R336): they part, and execute at their origin. -/
def State.sendHome (s : State) (us : List Nat) : State :=
  let s := if 1 < s.cur.length then s.partSlices s.cur else s
  us.foldl (fun s u => s.onSlice u fun x => x.startReturn (s.env x).origin 1 none) s

/-! ### The lane form (R249) -/

/-- What a lane instruction gives a slice. -/
structure Eval where
  /-- result registers, low first -/
  regs : List Reg := []
  dst : Dst := .zero
  /-- a mask register and its bits -/
  mask : Option (BitVec 3 × BitVec 4) := none
  flags : Flags := {}
  /-- rst states after the instruction -/
  seeds : Option (L4 Word) := none
  fmt : Option Word := none
  /-- the value of source A held in the latch -/
  held : List Reg := []
  deriving DecidableEq, Repr

/-- A mask register after a compare or MASK: bits of taking lanes change, the others stay or under zeroing clear
(R255, R277). -/
def mergeMask (old new take : BitVec 4) (z : Bool) : BitVec 4 := (new &&& take) ||| (if z then 0 else old &&& ~~~take)

/-- A slice after a lane instruction. -/
def Slice.commit (x : Slice) (i : Instr) (p : Option Pfx) (v : Eval) : Slice :=
  let take := takeOf x p
  let y := if v.regs.isEmpty then x else x.writeResult v.dst v.regs take (zeroing p)
  let y := match v.mask with
    | some (k, m) => y.setMask k.toNat (mergeMask (x.mask k.toNat) m take (zeroing p))
    | none => y
  let y := { y with seeds := v.seeds.getD y.seeds, fmt := v.fmt.getD y.fmt }
  ((y.stepLatch v.held).next i).retired

/-- What stops a slice at an instruction before it executes: a register outside its frame, or an instruction that
firmware may not issue (R184, R403), or a poisoned source word of a lane that reads it (R192). -/
def State.issueTrap (s : State) (i : Instr) (x : Slice) (e : Env) (srcs : List Reg) (reads : BitVec 4) : Option TrapInfo :=
  match s.declinedOf (.slice x.uid) with
  | some d => some (trapDeclined d i x)
  | none =>
    if !i.inFrame x.frameRegs || (e.group.firmware && i.firmwareIllegal) then some (trapAt causeIllegal x.pc)
    else if srcs.any (·.poisoned reads) then some (trapAt causePoison x.pc)
    else none

/-- Forget the declined accesses of slices whose traps are taken. -/
def State.clearDeclines (s : State) (us : List Nat) : State := us.foldl (fun s u => s.clearDeclined (.slice u)) s

/-- A lane instruction that no slice of the gang traps at. -/
def State.commitAll (s : State) (i : Instr) (p : Option Pfx) (eval : Slice → Env → Eval) : State :=
  let flags := s.curSlices.map fun x => (x.group, (eval x (s.env x)).flags)
  let t := { s with slices := s.slices.map fun (x : Slice) => if s.cur.contains x.uid then x.commit i p (eval x (s.env x)) else x }
  (t.raiseAll flags).partIfApart s.cur

/-- The traps of the slices of the gang. -/
def State.laneTraps (s : State) (i : Instr) (p : Option Pfx) (srcs : Slice → Env → List Reg)
    (extra : Slice → Env → Option TrapInfo) : List (Nat × TrapInfo) :=
  s.curSlices.filterMap fun x =>
    ((s.issueTrap i x (s.env x) (srcs x (s.env x)) (takeOf x p)).or (extra x (s.env x))).map fun t => (x.uid, t)

/-- Run a lane instruction: `srcs` are the registers that taking lanes read, `extra` its further traps, `home` the
slices that execute it at their origin only. -/
def State.runLanes (s : State) (i : Instr) (p : Option Pfx) (srcs : Slice → Env → List Reg) (eval : Slice → Env → Eval)
    (extra : Slice → Env → Option TrapInfo := fun _ _ => none) (home : Slice → Bool := fun _ => false) :
    Host.Outcome State Fault Refusal :=
  s.issue fun s =>
    let traps := s.laneTraps i p srcs extra
    if traps ≠ [] then (s.clearDeclines (traps.map (·.1))).takeTraps traps
    else
      let away := (s.curSlices.filter fun x => x.guest.isSome && home x).map (·.uid)
      if away ≠ [] then s.sendHome away else s.commitAll i p eval

/-! ### Each slice for itself -/

/-- Commit what an instruction did to a slice. -/
def State.settleOut (s : State) (u : Nat) (o : Out) : State :=
  match o with
  | .done y => s.setSlice y.retired
  | .stay y => s.setSlice y
  | .trap t => s.takeTrap u t

/-- One slice of the gang at an instruction: a declined access traps, a guest may have to go home, and else it acts. -/
def State.sliceAct (s : State) (i : Instr) (srcs : Slice → Env → List Reg) (reads : Slice → BitVec 4)
    (act : State → Slice → Env → State × Out) (u : Nat) : State :=
  match s.slice? u with
  | none => s
  | some x =>
    let e := s.env x
    match s.issueTrap i x e (srcs x e) (reads x) with
    | some t => (s.clearDeclined (.slice u)).takeTrap u t
    | none =>
      if x.guest.isSome && i.sendsHome then s.setSlice (x.startReturn e.origin 1 none)
      else
        let (s, o) := act s x e
        s.settleOut u o

/-- Run an instruction that each slice of the gang performs for itself; slices whose next PCs differ part (R311). -/
def State.runEach (s : State) (i : Instr) (srcs : Slice → Env → List Reg) (reads : Slice → BitVec 4)
    (act : State → Slice → Env → State × Out) : Host.Outcome State Fault Refusal :=
  s.issue fun s => (s.cur.foldl (fun s u => s.sliceAct i srcs reads act u) s).partIfApart s.cur

/-- A slice that retires an instruction with a uniform result for every lane of m0, held source `held` and next PC. -/
def Slice.retireWith (x : Slice) (i : Instr) (d : Dst) (rs : List Reg) (held : List Reg) : Slice :=
  let y := if rs.isEmpty then x else x.writeResult d rs x.m0 false
  (y.stepLatch held).next i

/-- The held value of source A. -/
def heldOf (h : Bool) (rs : List Reg) : List Reg := if h then rs else []

/-! ### The gang as one (R280, R335, R396) -/

/-- The leader of the issuing gang: its slice and its lowest active lane (R280). -/
structure Lead where
  slice : Slice
  env : Env
  lane : Nat
  deriving DecidableEq, Repr

def State.lead (s : State) : Option Lead :=
  match s.curSlices.find? (·.m0 != 0) with
  | some x => some { slice := x, env := s.env x, lane := lowestLane x.m0 }
  | none => none

/-- What a per-gang instruction comes to. -/
inductive GangOut where
  /-- every slice retires with a uniform result -/
  | done (d : Dst) (rs : List Reg)
  /-- the gang waits at the instruction -/
  | wait
  /-- the gang stays at the instruction, its slices already changed -/
  | hold
  /-- every slice traps -/
  | trap (t : TrapInfo)
  deriving DecidableEq, Repr

/-- A uniform result of one register. -/
def GangOut.word (d : Dst) (w : Word) : GangOut := .done d [.u w]

/-- No register result. -/
def GangOut.plain : GangOut := .done .zero []

/-- Retire a per-gang instruction in a slice. -/
def State.retireGang (s : State) (i : Instr) (d : Dst) (rs : List Reg) (held : Slice → Env → List Reg) : State :=
  ({ s with slices := s.slices.map fun (x : Slice) =>
      if s.cur.contains x.uid then (x.retireWith i d rs (held x (s.env x))).retired else x }).partIfApart s.cur

/-- The gang waits at its instruction (R280, R397). -/
def State.waitGang (s : State) : State :=
  { s with slices := s.slices.map fun (x : Slice) => if s.cur.contains x.uid then x.waiting s.clock else x }

/-- The first trap of a gang at an instruction whose operands the leader lane alone reads. -/
def State.gangTrap (s : State) (i : Instr) (srcs : Slice → Env → List Reg) (l : Lead) : Option TrapInfo :=
  s.curSlices.findSome? fun x =>
    s.issueTrap i x (s.env x) (srcs x (s.env x)) (if x.uid = l.slice.uid then 1#4 <<< l.lane else 0)

/-- Run a per-gang instruction: the leader's operands, one effect, a trap in every slice (R396). -/
def State.runGang (s : State) (i : Instr) (srcs held : Slice → Env → List Reg) (act : State → Lead → State × GangOut) :
    Host.Outcome State Fault Refusal :=
  s.issue fun s =>
    match s.lead with
    | none => s
    | some l =>
      match s.gangTrap i srcs l with
      | some t => (s.clearDeclines s.cur).takeTraps (s.cur.map fun u => (u, t))
      | none =>
        if l.slice.guest.isSome && i.sendsHome then s.sendHome s.cur
        else
          match act s l with
          | (s, .done d rs) => s.retireGang i d rs held
          | (s, .wait) => s.waitGang
          | (s, .hold) => s
          | (s, .trap t) => s.takeTraps (s.cur.map fun u => (u, t))

end Sys2Proof.Machine
end

