-- ==== Sys2Proof/Machine/Alu.lean ====
section
/-! DEFINITION. Integer arithmetic, logic, shifts, bit fields, selects and addresses
(spec/12_instr_lane_arith.md R250-R260). -/

namespace Sys2Proof

/-! ### Integer types (R250) -/

def IType.bits : IType → Nat
  | .i32 | .n32 => 32
  | .i16x2 | .n16x2 => 16
  | .i64 | .n64 => 64
  | .i8x4 | .n8x4 => 8

def IType.signed : IType → Bool
  | .i32 | .i16x2 | .i64 | .i8x4 => true
  | _ => false

/-- Bits of an operand. -/
def IType.total : IType → Nat
  | .i64 | .n64 => 64
  | _ => 32

def IType.low (t : IType) : Int := if t.signed then -(2 ^ (t.bits - 1)) else 0
def IType.high (t : IType) : Int := if t.signed then 2 ^ (t.bits - 1) - 1 else 2 ^ t.bits - 1

end Sys2Proof

namespace Sys2Proof.Machine

/-- The value of element k of an operand. -/
def intElem (t : IType) (x k : Nat) : Int :=
  let n := field x (k * t.bits) t.bits
  if t.signed then sextNat t.bits n else n

/-- Apply an operation to each element, clamp under the saturate bit and keep the low bits (R251, R252). -/
def intElems (t : IType) (sat : Bool) (f : Int → Int → Int → Int) (a b c : Nat) : Nat :=
  ((List.range (t.total / t.bits)).map fun k =>
    let v := f (intElem t a k) (intElem t b k) (intElem t c k)
    let v := if sat then max t.low (min t.high v) else v
    truncInt t.bits v * 2 ^ (k * t.bits)).sum

/-- An immediate in every element of an operand (R250). -/
def immElems (t : IType) (i : BitVec 8) : Nat :=
  ((List.range (t.total / t.bits)).map fun k => truncInt t.bits i.toInt * 2 ^ (k * t.bits)).sum

/-! ### Reading operands and forming results -/

/-- The registers of a typed operand, low first. -/
def Slice.readInt (x : Slice) (e : Env) (clock : DWord) (t : IType) (o : Opnd) : List Reg :=
  match t.width with
  | .pair => let p := x.readPair e clock t.signed o; [p.1, p.2]
  | _ => [x.readOpnd e clock o]

/-- The number that registers hold for a lane. -/
def regsVal (rs : List Reg) (l : Nat) : Nat :=
  match rs with
  | [lo, hi] => (dword (lo.val l) (hi.val l)).toNat
  | r :: _ => (r.val l).toNat
  | [] => 0

/-- A register computed lane by lane, uniform when its sources are (R176). -/
def mkReg (uniform : Bool) (f : Nat → Word) : Reg := if uniform then .u (f 0) else .g (L4.ofFn f)

/-- Result registers of a typed operation. -/
def mkInt (t : IType) (uniform : Bool) (f : Nat → Nat) : List Reg :=
  match t.width with
  | .pair => [mkReg uniform fun l => BitVec.ofNat 32 (f l), mkReg uniform fun l => BitVec.ofNat 32 (f l / 2 ^ 32)]
  | _ => [mkReg uniform fun l => BitVec.ofNat 32 (f l)]

def allUniform (rs : List Reg) : Bool := rs.all Reg.isUniform

/-- R176: a sum or difference of an affine and a uniform 32-bit source. -/
def affineSum (t : IType) (sat sub : Bool) (a b : List Reg) : Option Reg :=
  if sat || t.total != 32 || t.bits != 32 then none
  else
    match a, b with
    | [.affine p st], [.uniform u] =>
      some (.affine { val := if sub then p.val - u.val else p.val + u.val } { val := st.val })
    | [.uniform u], [.affine p st] =>
      some (.affine { val := if sub then u.val - p.val else u.val + p.val } { val := if sub then -st.val else st.val })
    | _, _ => none

/-- The addend of IMAD, FFMA and FDOT2: the prefix's C, or the old destination. -/
def addend (p : Option Pfx) (d : Dst) : Opnd := ((p.bind (·.c))).getD d.asOpnd

/-! ### The shared forms -/

/-- A typed integer operation on A and B (R252). -/
def State.intOp (s : State) (i : Instr) (p : Option Pfx) (t : IType) (d : Dst) (a b : Opnd) (h : Bool)
    (f : Int → Int → Int → Int) (sum : Option Bool) : Host.Outcome State Fault Refusal :=
  let sat := saturate p
  s.runLanes i p (fun x e => x.readInt e s.clock t a ++ x.readInt e s.clock t b) fun x e =>
    let ra := x.readInt e s.clock t a
    let rb := x.readInt e s.clock t b
    let plain := mkInt t (allUniform (ra ++ rb)) fun l => intElems t sat f (regsVal ra l) (regsVal rb l) 0
    { dst := d, held := heldOf h ra,
      regs := match sum.bind (fun sub => affineSum t sat sub ra rb) with
        | some r => [r]
        | none => plain }

/-- A 32-bit operation on A and B. -/
def State.wordOp (s : State) (i : Instr) (p : Option Pfx) (d : Dst) (a b : Opnd) (h : Bool) (f : Word → Word → Word) :
    Host.Outcome State Fault Refusal :=
  s.runLanes i p (fun x e => [x.readOpnd e s.clock a, x.readOpnd e s.clock b]) fun x e =>
    let ra := x.readOpnd e s.clock a
    let rb := x.readOpnd e s.clock b
    { dst := d, held := heldOf h [ra], regs := [mkReg (allUniform [ra, rb]) fun l => f (ra.val l) (rb.val l)] }

/-- A 32-bit operation on A. -/
def State.unaryOp (s : State) (i : Instr) (p : Option Pfx) (d : Dst) (a : Opnd) (h : Bool) (f : Word → Word) :
    Host.Outcome State Fault Refusal :=
  s.runLanes i p (fun x e => [x.readOpnd e s.clock a]) fun x e =>
    let ra := x.readOpnd e s.clock a
    { dst := d, held := heldOf h [ra], regs := [mkReg ra.isUniform fun l => f (ra.val l)] }

/-- A 32-bit operation on A, B and a further source. -/
def State.ternaryOp (s : State) (i : Instr) (p : Option Pfx) (d : Dst) (a b c : Opnd) (h : Bool)
    (f : Word → Word → Word → Word) : Host.Outcome State Fault Refusal :=
  let rs := fun (x : Slice) e => [x.readOpnd e s.clock a, x.readOpnd e s.clock b, x.readOpnd e s.clock c]
  s.runLanes i p rs fun x e =>
    let ra := x.readOpnd e s.clock a
    let rb := x.readOpnd e s.clock b
    let rc := x.readOpnd e s.clock c
    { dst := d, held := heldOf h [ra], regs := [mkReg (allUniform (rs x e)) fun l => f (ra.val l) (rb.val l) (rc.val l)] }

/-- A compare of A with B or an immediate: the bit is set when the relation holds for every element (R255). -/
def State.intCompare (s : State) (i : Instr) (p : Option Pfx) (c : Cond) (t : IType) (k : BitVec 3) (a : Opnd)
    (b : Opnd ⊕ BitVec 8) (h : Bool) : Host.Outcome State Fault Refusal :=
  let rhs := fun (x : Slice) e => match b with
    | .inl o => x.readInt e s.clock t o
    | .inr _ => []
  let rhsVal := fun (x : Slice) e l => match b with
    | .inl _ => regsVal (rhs x e) l
    | .inr m => immElems t m
  s.runLanes i p (fun x e => x.readInt e s.clock t a ++ rhs x e) fun x e =>
    let ra := x.readInt e s.clock t a
    let holds := fun l => (List.range (t.total / t.bits)).all fun n =>
      c.holds false (compare (intElem t (regsVal ra l) n) (intElem t (rhsVal x e l) n))
    { mask := some (k, maskOf holds), held := heldOf h ra }

/-! ### Integer arithmetic (R252-R255) -/

def execIadd (p : Option Pfx) (t : IType) (d : Dst) (a b : Opnd) (h : Bool) (s : State) : Host.Outcome State Fault Refusal :=
  s.intOp (.iadd p t d a b h) p t d a b h (fun x y _ => x + y) (some false)

def execIsub (p : Option Pfx) (t : IType) (d : Dst) (a b : Opnd) (h : Bool) (s : State) : Host.Outcome State Fault Refusal :=
  s.intOp (.isub p t d a b h) p t d a b h (fun x y _ => x - y) (some true)

def execImul (p : Option Pfx) (t : IType) (d : Dst) (a b : Opnd) (h : Bool) (s : State) : Host.Outcome State Fault Refusal :=
  s.intOp (.imul p t d a b h) p t d a b h (fun x y _ => x * y) none

/-- The high half of each product; IMULH takes no saturate bit. -/
def execImulh (p : Option Pfx) (t : IType) (d : Dst) (a b : Opnd) (h : Bool) (s : State) : Host.Outcome State Fault Refusal :=
  s.intOp (.imulh p t d a b h) p t d a b h (fun x y _ => (x * y).fdiv (2 ^ t.bits)) none

def execImad (p : Option Pfx) (t : IType) (d : Dst) (a b : Opnd) (h : Bool) (s : State) : Host.Outcome State Fault Refusal :=
  let c := addend p d
  let sat := saturate p
  let rs := fun (x : Slice) e => x.readInt e s.clock t a ++ x.readInt e s.clock t b ++ x.readInt e s.clock t c
  s.runLanes (.imad p t d a b h) p rs fun x e =>
    let ra := x.readInt e s.clock t a
    let rb := x.readInt e s.clock t b
    let rc := x.readInt e s.clock t c
    { dst := d, held := heldOf h ra,
      regs := mkInt t (allUniform (rs x e)) fun l =>
        intElems t sat (fun u v w => u * v + w) (regsVal ra l) (regsVal rb l) (regsVal rc l) }

def execImin (p : Option Pfx) (t : IType) (d : Dst) (a b : Opnd) (h : Bool) (s : State) : Host.Outcome State Fault Refusal :=
  s.intOp (.imin p t d a b h) p t d a b h (fun x y _ => min x y) none

def execImax (p : Option Pfx) (t : IType) (d : Dst) (a b : Opnd) (h : Bool) (s : State) : Host.Outcome State Fault Refusal :=
  s.intOp (.imax p t d a b h) p t d a b h (fun x y _ => max x y) none

def execIcmp (p : Option Pfx) (c : Cond) (t : IType) (k : BitVec 3) (a b : Opnd) (h : Bool) (s : State) :
    Host.Outcome State Fault Refusal :=
  s.intCompare (.icmp p c t k a b h) p c t k a (.inl b) h

def execIcmpi (p : Option Pfx) (c : Cond) (t : IType) (k : BitVec 3) (a : Opnd) (m : BitVec 8) (s : State) :
    Host.Outcome State Fault Refusal :=
  s.intCompare (.icmpi p c t k a m) p c t k a (.inr m) false

def execIaddi (p : Option Pfx) (t : IType) (d : Dst) (a : Opnd) (m : BitVec 8) (s : State) : Host.Outcome State Fault Refusal :=
  let sat := saturate p
  s.runLanes (.iaddi p t d a m) p (fun x e => x.readInt e s.clock t a) fun x e =>
    let ra := x.readInt e s.clock t a
    { dst := d,
      regs := match affineSum t sat false ra [.u (BitVec.ofInt 32 m.toInt)] with
        | some r => [r]
        | none => mkInt t (allUniform ra) fun l => intElems t sat (fun u v _ => u + v) (regsVal ra l) (immElems t m) 0 }

/-- R253: quotients truncate toward zero. -/
def divWord (uns : Bool) (a b : Word) : Word :=
  if b = 0 then BitVec.allOnes 32
  else if uns then BitVec.ofNat 32 (a.toNat / b.toNat) else BitVec.ofInt 32 (a.toInt.tdiv b.toInt)

def remWord (uns : Bool) (a b : Word) : Word :=
  if b = 0 then a
  else if uns then BitVec.ofNat 32 (a.toNat % b.toNat) else BitVec.ofInt 32 (a.toInt.tmod b.toInt)

def execDiv (p : Option Pfx) (uns : Bool) (d : Dst) (a b : Opnd) (h : Bool) (s : State) : Host.Outcome State Fault Refusal :=
  s.wordOp (.div p uns d a b h) p d a b h (divWord uns)

def execRem (p : Option Pfx) (uns : Bool) (d : Dst) (a b : Opnd) (h : Bool) (s : State) : Host.Outcome State Fault Refusal :=
  s.wordOp (.rem p uns d a b h) p d a b h (remWord uns)

/-- The low bits of an exact 32-bit result, clamped under the saturate bit (R254). -/
def narrowWord (sat : Bool) (v : Int) : Word :=
  BitVec.ofInt 32 (if sat then max (-(2 ^ 31)) (min (2 ^ 31 - 1) v) else v)

def execIabs (p : Option Pfx) (d : Dst) (a : Opnd) (h : Bool) (s : State) : Host.Outcome State Fault Refusal :=
  s.unaryOp (.iabs p d a h) p d a h fun v => narrowWord (saturate p) v.toInt.natAbs

def execIneg (p : Option Pfx) (d : Dst) (a : Opnd) (h : Bool) (s : State) : Host.Outcome State Fault Refusal :=
  s.unaryOp (.ineg p d a h) p d a h fun v => narrowWord (saturate p) (-v.toInt)

def execSext8 (p : Option Pfx) (d : Dst) (a : Opnd) (h : Bool) (s : State) : Host.Outcome State Fault Refusal :=
  s.unaryOp (.sext8 p d a h) p d a h fun v => (v.setWidth 8).signExtend 32

def execSext16 (p : Option Pfx) (d : Dst) (a : Opnd) (h : Bool) (s : State) : Host.Outcome State Fault Refusal :=
  s.unaryOp (.sext16 p d a h) p d a h fun v => (v.setWidth 16).signExtend 32

def execZext8 (p : Option Pfx) (d : Dst) (a : Opnd) (h : Bool) (s : State) : Host.Outcome State Fault Refusal :=
  s.unaryOp (.zext8 p d a h) p d a h fun v => (v.setWidth 8).setWidth 32

def execZext16 (p : Option Pfx) (d : Dst) (a : Opnd) (h : Bool) (s : State) : Host.Outcome State Fault Refusal :=
  s.unaryOp (.zext16 p d a h) p d a h fun v => (v.setWidth 16).setWidth 32

/-- MOV keeps bits and shape (R254, R176). -/
def State.movOp (s : State) (i : Instr) (p : Option Pfx) (d : Dst) (a : Opnd) (h : Bool) : Host.Outcome State Fault Refusal :=
  s.runLanes i p (fun x e => [x.readOpnd e s.clock a]) fun x e =>
    let ra := x.readOpnd e s.clock a
    { dst := d, held := heldOf h [ra], regs := [ra] }

def execMov (p : Option Pfx) (d : Dst) (a : Opnd) (h : Bool) (s : State) : Host.Outcome State Fault Refusal :=
  s.movOp (.mov p d a h) p d a h

/-! ### Logic, shifts and bit fields (R256-R258) -/

def execAnd (p : Option Pfx) (d : Dst) (a b : Opnd) (h : Bool) (s : State) : Host.Outcome State Fault Refusal :=
  s.wordOp (.and p d a b h) p d a b h fun x y => x &&& y

def execOr (p : Option Pfx) (d : Dst) (a b : Opnd) (h : Bool) (s : State) : Host.Outcome State Fault Refusal :=
  s.wordOp (.or p d a b h) p d a b h fun x y => x ||| y

def execXor (p : Option Pfx) (d : Dst) (a b : Opnd) (h : Bool) (s : State) : Host.Outcome State Fault Refusal :=
  s.wordOp (.xor p d a b h) p d a b h fun x y => x ^^^ y

def execAndn (p : Option Pfx) (d : Dst) (a b : Opnd) (h : Bool) (s : State) : Host.Outcome State Fault Refusal :=
  s.wordOp (.andn p d a b h) p d a b h fun x y => x &&& ~~~y

def execOrn (p : Option Pfx) (d : Dst) (a b : Opnd) (h : Bool) (s : State) : Host.Outcome State Fault Refusal :=
  s.wordOp (.orn p d a b h) p d a b h fun x y => x ||| ~~~y

def execXnor (p : Option Pfx) (d : Dst) (a b : Opnd) (h : Bool) (s : State) : Host.Outcome State Fault Refusal :=
  s.wordOp (.xnor p d a b h) p d a b h fun x y => ~~~(x ^^^ y)

def execNot (p : Option Pfx) (d : Dst) (a : Opnd) (h : Bool) (s : State) : Host.Outcome State Fault Refusal :=
  s.unaryOp (.not p d a h) p d a h fun x => ~~~x

/-- A shift's count is b[4:0] (R257). -/
def shiftCount (b : Word) : Nat := b.toNat % 32

def execShl (p : Option Pfx) (d : Dst) (a b : Opnd) (h : Bool) (s : State) : Host.Outcome State Fault Refusal :=
  s.wordOp (.shl p d a b h) p d a b h fun x y => x <<< shiftCount y

def execShr (p : Option Pfx) (d : Dst) (a b : Opnd) (h : Bool) (s : State) : Host.Outcome State Fault Refusal :=
  s.wordOp (.shr p d a b h) p d a b h fun x y => x >>> shiftCount y

def execSha (p : Option Pfx) (d : Dst) (a b : Opnd) (h : Bool) (s : State) : Host.Outcome State Fault Refusal :=
  s.wordOp (.sha p d a b h) p d a b h fun x y => x.sshiftRight (shiftCount y)

def execRotl (p : Option Pfx) (d : Dst) (a b : Opnd) (h : Bool) (s : State) : Host.Outcome State Fault Refusal :=
  s.wordOp (.rotl p d a b h) p d a b h fun x y => x.rotateLeft (shiftCount y)

def execRotr (p : Option Pfx) (d : Dst) (a b : Opnd) (h : Bool) (s : State) : Host.Outcome State Fault Refusal :=
  s.wordOp (.rotr p d a b h) p d a b h fun x y => x.rotateRight (shiftCount y)

/-- Bits of a word, low first. -/
def wordBits (w : Word) : List Bool := (List.range 32).map w.getLsbD

/-- Leading clear bits of a list. -/
def clearRun : List Bool → Nat
  | [] => 0
  | b :: bs => if b then 0 else clearRun bs + 1

def execPopc (p : Option Pfx) (d : Dst) (a : Opnd) (h : Bool) (s : State) : Host.Outcome State Fault Refusal :=
  s.unaryOp (.popc p d a h) p d a h fun x => BitVec.ofNat 32 ((wordBits x).count true)

def execClz (p : Option Pfx) (d : Dst) (a : Opnd) (h : Bool) (s : State) : Host.Outcome State Fault Refusal :=
  s.unaryOp (.clz p d a h) p d a h fun x => BitVec.ofNat 32 (clearRun (wordBits x).reverse)

def execCtz (p : Option Pfx) (d : Dst) (a : Opnd) (h : Bool) (s : State) : Host.Outcome State Fault Refusal :=
  s.unaryOp (.ctz p d a h) p d a h fun x => BitVec.ofNat 32 (clearRun (wordBits x))

def execBrev (p : Option Pfx) (d : Dst) (a : Opnd) (h : Bool) (s : State) : Host.Outcome State Fault Refusal :=
  s.unaryOp (.brev p d a h) p d a h fun x => x.reverse

/-- R258: the length of a bit field, `none` being C = 0. -/
def fieldLength (pos : Nat) (c : Option Word) : Nat :=
  match c with
  | some w => Nat.min (w.toNat % 64) (32 - pos)
  | none => 32 - pos

def bfeWord (c : Option Word) (a b : Word) : Word :=
  let pos := shiftCount b
  BitVec.ofNat 32 (field a.toNat pos (fieldLength pos c))

def bfiWord (c : Option Word) (old a b : Word) : Word :=
  let pos := shiftCount b
  let m : Word := BitVec.ofNat 32 ((2 ^ fieldLength pos c - 1) * 2 ^ pos)
  (old &&& ~~~m) ||| ((a <<< pos) &&& m)

def execBfe (p : Option Pfx) (d : Dst) (a b : Opnd) (h : Bool) (s : State) : Host.Outcome State Fault Refusal :=
  match p.bind (·.c) with
  | none => s.wordOp (.bfe p d a b h) p d a b h (bfeWord none)
  | some c => s.ternaryOp (.bfe p d a b h) p d a b c h fun x y z => bfeWord (some z) x y

def execBfi (p : Option Pfx) (d : Dst) (a b : Opnd) (h : Bool) (s : State) : Host.Outcome State Fault Refusal :=
  match p.bind (·.c) with
  | none => s.ternaryOp (.bfi p d a b h) p d a b d.asOpnd h fun x y o => bfiWord none o x y
  | some c =>
    let rs := fun (x : Slice) e => [a, b, c, d.asOpnd].map fun o => x.readOpnd e s.clock o
    s.runLanes (.bfi p d a b h) p rs fun x e =>
      let ra := x.readOpnd e s.clock a
      let v := fun o l => (x.readOpnd e s.clock o).val l
      { dst := d, held := heldOf h [ra],
        regs := [mkReg (allUniform (rs x e)) fun l => bfiWord (some (v c l)) (v d.asOpnd l) (v a l) (v b l)] }

/-- R258: byte i of the result. -/
def permWord (a c sel : Word) : Word :=
  let src := natToBytes 8 (dword a c).toNat
  BitVec.ofNat 32 (bytesToNat ((List.range 4).map fun i =>
    if sel.getLsbD (4 * i + 3) then 0 else nth 0 src (field sel.toNat (4 * i) 3)))

def execPerm (p : Option Pfx) (d : Dst) (a b : Opnd) (h : Bool) (s : State) : Host.Outcome State Fault Refusal :=
  match p.bind (·.c) with
  | none => s.wordOp (.perm p d a b h) p d a b h fun x y => permWord x 0 y
  | some c => s.ternaryOp (.perm p d a b h) p d a b c h fun x y z => permWord x z y

/-! ### Selects and addresses (R259, R260) -/

def execSel (p : Option Pfx) (k : BitVec 3) (d : Dst) (a b : Opnd) (h : Bool) (s : State) : Host.Outcome State Fault Refusal :=
  s.runLanes (.sel p k d a b h) p (fun x e => [x.readOpnd e s.clock a, x.readOpnd e s.clock b]) fun x e =>
    let ra := x.readOpnd e s.clock a
    let rb := x.readOpnd e s.clock b
    let m := x.mask k.toNat
    let take := takeOf x p
    let whole := if m &&& take = take then some ra else if m &&& take = 0 then some rb else none
    let mixed := Reg.g (L4.ofFn fun l => if m.getLsbD l then ra.val l else rb.val l)
    { dst := d, held := heldOf h [ra],
      regs := [match whole with
        | some r => if allUniform [ra, rb] then r else mixed
        | none => mixed] }

/-- LEA: the low word of an affine index is affine; the high word is uniform when every lane's agrees (R176, R260). Over a
low base word that is general no affine word holds the sums, and the low word is general (log entry 45). -/
def leaRegs (n : Nat) (a : Reg × Reg) (b : Reg) : List Reg :=
  let v := fun l => pairVal a l + ((b.val l).signExtend 64 <<< n)
  let lo := fun l => lo32 (v l)
  let hi := fun l => hi32 (v l)
  let top := mkReg (lanes.all fun l => hi l == hi 0) hi
  match a.1, a.2, b with
  | .uniform _, .uniform _, .uniform _ => [.u (lo 0), .u (hi 0)]
  | .uniform _, _, .affine _ st => [.affine { val := lo 0 } { val := st.val <<< n }, top]
  | .affine _ t, _, .affine _ st => [.affine { val := lo 0 } { val := t.val + (st.val <<< n) }, top]
  | _, _, .affine _ _ => [mkReg false lo, top]
  | _, _, _ => [mkReg false lo, mkReg false hi]

def execLea (p : Option Pfx) (n : BitVec 3) (d : Dst) (a b : Opnd) (h : Bool) (s : State) : Host.Outcome State Fault Refusal :=
  let rs := fun (x : Slice) e =>
    [(x.readPair e s.clock true a).1, (x.readPair e s.clock true a).2, x.readOpnd e s.clock b]
  s.runLanes (.lea p n d a b h) p rs fun x e =>
    let ra := x.readPair e s.clock true a
    { dst := d, held := heldOf h [ra.1, ra.2], regs := leaRegs n.toNat ra (x.readOpnd e s.clock b) }

/-! ### Immediate forms -/

/-- A 32-bit operation of A and a constant. -/
def State.immOp (s : State) (i : Instr) (p : Option Pfx) (d : Dst) (a : Opnd) (f : Word → Word) : Host.Outcome State Fault Refusal :=
  s.unaryOp i p d a false f

def execAndi (p : Option Pfx) (d : Dst) (a : Opnd) (m : BitVec 8) (s : State) : Host.Outcome State Fault Refusal :=
  s.immOp (.andi p d a m) p d a fun x => x &&& m.setWidth 32

def execOri (p : Option Pfx) (d : Dst) (a : Opnd) (m : BitVec 8) (s : State) : Host.Outcome State Fault Refusal :=
  s.immOp (.ori p d a m) p d a fun x => x ||| m.setWidth 32

def execXori (p : Option Pfx) (d : Dst) (a : Opnd) (m : BitVec 8) (s : State) : Host.Outcome State Fault Refusal :=
  s.immOp (.xori p d a m) p d a fun x => x ^^^ m.setWidth 32

def execShli (p : Option Pfx) (d : Dst) (a : Opnd) (n : BitVec 5) (s : State) : Host.Outcome State Fault Refusal :=
  s.immOp (.shli p d a n) p d a fun x => x <<< n.toNat

def execShri (p : Option Pfx) (d : Dst) (a : Opnd) (n : BitVec 5) (s : State) : Host.Outcome State Fault Refusal :=
  s.immOp (.shri p d a n) p d a fun x => x >>> n.toNat

def execShai (p : Option Pfx) (d : Dst) (a : Opnd) (n : BitVec 5) (s : State) : Host.Outcome State Fault Refusal :=
  s.immOp (.shai p d a n) p d a fun x => x.sshiftRight n.toNat

def execRotli (p : Option Pfx) (d : Dst) (a : Opnd) (n : BitVec 5) (s : State) : Host.Outcome State Fault Refusal :=
  s.immOp (.rotli p d a n) p d a fun x => x.rotateLeft n.toNat

def execRotri (p : Option Pfx) (d : Dst) (a : Opnd) (n : BitVec 5) (s : State) : Host.Outcome State Fault Refusal :=
  s.immOp (.rotri p d a n) p d a fun x => x.rotateRight n.toNat

/-! ### Short forms (R235) -/

/-- The frame register of a short form. -/
def shortReg (r : Fin 32) : Opnd := .v ⟨r.val, Nat.lt_trans r.isLt (by decide)⟩
def shortDst (r : Fin 32) : Dst := .v ⟨r.val, Nat.lt_trans r.isLt (by decide)⟩

/-- NOP: the next PC and nothing else; it counts against the latch. -/
def execNop (s : State) : Host.Outcome State Fault Refusal := s.runLanes .nop none (fun _ _ => []) fun _ _ => {}

def execMovShort (h : Bool) (b d : Fin 32) (s : State) : Host.Outcome State Fault Refusal :=
  s.movOp (.movShort h b d) none (shortDst d) (shortReg b) h

def execIaddShort (h : Bool) (b d : Fin 32) (s : State) : Host.Outcome State Fault Refusal :=
  s.intOp (.iaddShort h b d) none .i32 (shortDst d) (shortReg d) (shortReg b) h (fun x y _ => x + y) (some false)

def execIsubShort (h : Bool) (b d : Fin 32) (s : State) : Host.Outcome State Fault Refusal :=
  s.intOp (.isubShort h b d) none .i32 (shortDst d) (shortReg d) (shortReg b) h (fun x y _ => x - y) (some true)

def execImulShort (h : Bool) (b d : Fin 32) (s : State) : Host.Outcome State Fault Refusal :=
  s.intOp (.imulShort h b d) none .i32 (shortDst d) (shortReg d) (shortReg b) h (fun x y _ => x * y) none

def execAndShort (h : Bool) (b d : Fin 32) (s : State) : Host.Outcome State Fault Refusal :=
  s.wordOp (.andShort h b d) none (shortDst d) (shortReg d) (shortReg b) h fun x y => x &&& y

def execOrShort (h : Bool) (b d : Fin 32) (s : State) : Host.Outcome State Fault Refusal :=
  s.wordOp (.orShort h b d) none (shortDst d) (shortReg d) (shortReg b) h fun x y => x ||| y

def execXorShort (h : Bool) (b d : Fin 32) (s : State) : Host.Outcome State Fault Refusal :=
  s.wordOp (.xorShort h b d) none (shortDst d) (shortReg d) (shortReg b) h fun x y => x ^^^ y

def execShlShort (h : Bool) (b d : Fin 32) (s : State) : Host.Outcome State Fault Refusal :=
  s.wordOp (.shlShort h b d) none (shortDst d) (shortReg d) (shortReg b) h fun x y => x <<< shiftCount y

def execShrShort (h : Bool) (b d : Fin 32) (s : State) : Host.Outcome State Fault Refusal :=
  s.wordOp (.shrShort h b d) none (shortDst d) (shortReg d) (shortReg b) h fun x y => x >>> shiftCount y

def execShaShort (h : Bool) (b d : Fin 32) (s : State) : Host.Outcome State Fault Refusal :=
  s.wordOp (.shaShort h b d) none (shortDst d) (shortReg d) (shortReg b) h fun x y => x.sshiftRight (shiftCount y)

/-- IADDI5: an add of a signed 5-bit immediate. -/
def execIaddi5Short (h : Bool) (m : BitVec 5) (d : Fin 32) (s : State) : Host.Outcome State Fault Refusal :=
  let i : Instr := .iaddi5Short h m d
  s.runLanes i none (fun x e => [x.readOpnd e s.clock (shortReg d)]) fun x e =>
    let ra := x.readOpnd e s.clock (shortReg d)
    let k : Word := m.signExtend 32
    { dst := shortDst d, held := heldOf h [ra],
      regs := match affineSum .i32 false false [ra] [.u k] with
        | some r => [r]
        | none => [mkReg ra.isUniform fun l => ra.val l + k] }

end Sys2Proof.Machine
end

