-- ==== Sys2Proof/Machine/Apr.lean ====
section
/-! DEFINITION. Access-pattern records: their fields, their checks and their walk (spec/02_in_the_stack.md R32-R37,
R41). -/

namespace Sys2Proof.Machine

/-! ### Fields (R32, R33) -/

def Apr.ofBytes (va : DWord) (bs : List Byte) : Apr :=
  let w := fun off => le32 bs off
  let five := fun off => (natsFrom 0 5).map fun k => w (off + 4 * k)
  { base := le64 bs 0, fmt := le8 bs 8, esize := le8 bs 9, mark := le16 bs 10, flags := w 0xC, counts := five 0x10,
    strides := five 0x28, padrule := w 0x3C, lo := five 0x40, hi := five 0x54, padval := w 0x68, plane := le64 bs 0x70,
    zeros := zeroAt bs 0x24 4 && zeroAt bs 0x6C 4 && zeroAt bs 0x78 8 && field (w 0xC).toNat 14 18 == 0 &&
      field (w 0x3C).toNat 10 22 == 0,
    aligned := va.toNat % 8 == 0 }

def Apr.flag (a : Apr) (k : Nat) : Bool := a.flags.getLsbD k
def Apr.writes (a : Apr) : Bool := a.flag 0
def Apr.coords (a : Apr) : Bool := a.flag 1
def Apr.skipZero (a : Apr) : Bool := a.flag 2
def Apr.noAlloc (a : Apr) : Bool := a.flag 3
def Apr.conv (a : Apr) : Bool := a.flag 4
def Apr.dfmt (a : Apr) : Nat := field a.flags.toNat 5 4
def Apr.crm (a : Apr) : Nat := field a.flags.toNat 9 3
def Apr.spol (a : Apr) : Bool := a.flag 12
def Apr.blk16 (a : Apr) : Bool := a.flag 13
/-- FLAGS[13:5], the conversion fields beside CONV. -/
def Apr.convFields (a : Apr) : Nat := field a.flags.toNat 5 9
def Apr.fmtCode (a : Apr) : Nat := field a.fmt.toNat 0 4
def Apr.size (a : Apr) : Nat := 2 ^ a.esize.toNat

def Apr.count (a : Apr) (k : Nat) : Nat := (nth 0 a.counts k).toNat
def Apr.stride (a : Apr) (k : Nat) : Int := (nth 0 a.strides k).toInt
def Apr.lower (a : Apr) (k : Nat) : Int := (nth 0 a.lo k).toInt
def Apr.upper (a : Apr) (k : Nat) : Int := (nth 0 a.hi k).toInt
/-- Rule of a level: 0 none, 1 zero, 2 clamp, 3 skip. -/
def Apr.rule (a : Apr) (k : Nat) : Nat := field a.padrule.toNat (2 * k) 2

def levels : List Nat := [0, 1, 2, 3, 4]

/-- The length of the walk: the product of the counts. -/
def Apr.total (a : Apr) : Nat := (levels.map a.count).foldl (· * ·) 1

/-! ### Checks (R34, R37) -/

/-- ESIZE_LOG2 values that a format takes (R34). -/
def esizeAgrees (fmt esize : Nat) : Bool :=
  match fmt with
  | 0 | 7 | 8 | 14 => esize == 2
  | 1 | 2 | 9 | 10 => esize == 1
  | 15 => decide (esize ≤ 4)
  | _ => esize == 0

/-- The R37 code of a record; `array` is the stack array, and `use` the consumer's own restriction. -/
def Apr.check (a : Apr) (array : Bool) (use : Apr → Bool) : Nat :=
  let e := a.esize.toNat
  if !a.aligned || (decide (e ≤ 4) && a.base.toNat % a.size != 0) then 1
  else if field a.fmt.toNat 4 4 != 0 || decide (4 < e) || !esizeAgrees a.fmtCode e || (!array && decide (13 ≤ a.fmtCode)) then 2
  else if levels.any (fun k => a.count k == 0) || decide (2 ^ 48 ≤ a.total) then 3
  else if levels.any (fun k => decide (a.upper k < a.lower k) ||
      (a.rule k == 0 && (decide (0 < a.lower k) || decide (a.upper k < (a.count k : Int))))) then 4
  else if a.mark.getLsbD 15 || levels.any (fun k => !([0, 2, 3, 4].contains (field a.mark.toNat (3 * k) 3))) then 5
  else if !a.zeros then 6
  else if use a || (a.writes && levels.any (fun k => a.rule k == 2)) || (!array && (a.coords || a.skipZero)) ||
      (a.skipZero && !a.coords) then 7
  else 0

/-- A consumer that honours no conversion field. -/
def Apr.noConv (a : Apr) : Bool := !a.conv && a.convFields == 0 && a.plane == 0

/-! ### The walk (R35) -/

/-- The index vector of a walk position, level 0 first. -/
def Apr.index (a : Apr) (pos : Nat) : List Nat :=
  let step := fun (acc : List Nat × Nat) k => (acc.1 ++ [acc.2 % a.count k], acc.2 / a.count k)
  (levels.foldl step ([], pos)).1

inductive AprElem where
  | nothing
  | pad
  | at_ (va : DWord)
  deriving DecidableEq, Repr

def Apr.outside (a : Apr) (i : List Nat) (k : Nat) : Bool :=
  decide (((nth 0 i k : Nat) : Int) < a.lower k) || decide (a.upper k ≤ ((nth 0 i k : Nat) : Int))

/-- The element of a walk position. -/
def Apr.elem (a : Apr) (pos : Nat) : AprElem :=
  let i := a.index pos
  let out := levels.filter (a.outside i)
  if out.any fun k => a.rule k == 3 then .nothing
  else if out.any fun k => a.rule k == 1 then .pad
  else
    let j := fun k => let v : Int := (nth 0 i k : Nat); if a.outside i k then min (max v (a.lower k)) (a.upper k - 1) else v
    let sum := (levels.map fun k => j k * a.stride k).foldl (· + ·) 0
    .at_ (a.base + BitVec.ofInt 64 (sum * (a.size : Int)))

/-- Markers after a walk position, innermost first, when its element is not NOTHING or closes an iteration in which some
element was (R36). -/
def Apr.closes (a : Apr) (pos : Nat) : List Nat :=
  let i := a.index pos
  let rec go : List Nat → List Nat
    | [] => []
    | k :: ks => if nth 0 i k + 1 = a.count k then k :: go ks else []
  go levels

def Apr.markKind (a : Apr) (k : Nat) : Nat := field a.mark.toNat (3 * k) 3

/-! ### Sizes of a walk -/

/-- Indices of a level within its range. -/
def Apr.inRange (a : Apr) (k : Nat) : Nat := (min (a.upper k) (a.count k : Int) - max (a.lower k) 0).toNat

/-- Indices of a level that a skip leaves. -/
def Apr.kept (a : Apr) (k : Nat) : Nat := if a.rule k = 3 then a.inRange k else a.count k

/-- Indices of a level that are not PAD, of those a skip leaves. -/
def Apr.solid (a : Apr) (k : Nat) : Nat := if a.rule k = 1 ∨ a.rule k = 3 then a.inRange k else a.count k

/-- Elements that are not NOTHING. -/
def Apr.emitted (a : Apr) : Nat := (levels.map a.kept).foldl (· * ·) 1

/-- Products over the levels below one. -/
def Apr.below (f : Nat → Nat) (k : Nat) : Nat := ((levels.filter (· < k)).map f).foldl (· * ·) 1

/-- Elements that are neither NOTHING nor PAD among the first n that are not NOTHING; levels `k` down to 0 to go. -/
def Apr.solidAmong (a : Apr) : Nat → Nat → Nat
  | 0, n => Nat.min n 1
  | k + 1, n =>
    let inner := Apr.below a.kept k
    if inner = 0 then 0
    else
      let q := Nat.min (n / inner) (a.kept k)
      -- indices of the level: those kept, of which the solid ones stand together
      let first := if a.rule k = 1 then (max (a.lower k) 0).toNat else 0
      let last := first + a.solid k
      let whole := Nat.min q last - Nat.min q first
      let rest := if n / inner < a.kept k ∧ first ≤ q ∧ q < last then Apr.solidAmong a k (n % inner) else 0
      whole * Apr.below a.solid k + rest

/-- The span of the elements that are not PAD: lowest byte, as an address modulo 2^64, and one past the highest (R41, R35). -/
def Apr.span (a : Apr) : Option (Int × Int) :=
  let ends := fun k =>
    let c : Int := a.count k
    match a.rule k with
    | 0 => some ((0 : Int), c - 1)
    | 2 =>
      let f := fun (v : Int) => if v < a.lower k ∨ a.upper k ≤ v then min (max v (a.lower k)) (a.upper k - 1) else v
      some (f 0, f (c - 1))
    | _ => if a.inRange k = 0 then none else some (max (a.lower k) 0, min (a.upper k) c - 1)
  let es := levels.map ends
  if es.any (·.isNone) then none
  else
    let terms := (es.zipIdx).map fun e =>
      let r := e.1.getD (0, 0)
      let x := r.1 * a.stride e.2
      let y := r.2 * a.stride e.2
      (min x y, max x y)
    let lo := (terms.map (·.1)).foldl (· + ·) 0
    let hi := (terms.map (·.2)).foldl (· + ·) 0
    let low := ((a.base.toNat : Int) + lo * a.size) % 2 ^ 64
    some (low, low + (hi - lo) * a.size + a.size)

/-- Two records that walk one address sequence (R41). -/
def Apr.sameWalk (a b : Apr) : Bool :=
  a.base == b.base && a.esize == b.esize && a.counts == b.counts && a.strides == b.strides && a.lo == b.lo && a.hi == b.hi &&
  a.padrule == b.padrule

/-- Two spans share a byte; a span that goes past 2^64 goes on at 0. -/
def cutsOverlap (x y : Option (Int × Int)) : Bool :=
  match x, y with
  | some a, some b => [-(2 ^ 64), 0, 2 ^ 64].any fun (k : Int) => decide (a.1 < b.2 + k) && decide (b.1 + k < a.2)
  | _, _ => false

def spansOverlap (a b : Apr) : Bool := cutsOverlap a.span b.span

/-- The first element in walk order that is neither PAD nor NOTHING: found level by level, each index the lowest that is
solid. -/
def Apr.firstSolid (a : Apr) : Option Nat :=
  if levels.any fun k => a.solid k == 0 then none
  else
    let pick := fun k => if a.rule k = 1 ∨ a.rule k = 3 then (max (a.lower k) 0).toNat else 0
    some ((levels.map fun k => pick k * Apr.below a.count k).foldl (· + ·) 0)

/-- PADVAL as an element's bytes, repeated for wider elements. -/
def Apr.padBytes (a : Apr) : List Byte := (List.replicate 4 (wordBytes a.padval)).flatten.take a.size

end Sys2Proof.Machine
end

