-- ==== Sys2Proof/Machine/Continue.lean ====
section
/-! DEFINITION. Live sets, the size of a continuation, and seeking migration (spec/11_formats_and_assembly.md R246;
spec/17_threads_in_motion.md R384-R388). -/

namespace Sys2Proof.Machine

/-! ### The live set (R246) -/

/-- A read of the descriptor or the table: nothing is raised, parked or retried. -/
def State.quietRead (s : State) (p : Party) (va : DWord) (n : Nat) : State × Option (List Byte) :=
  match s.partRead p .load va n with
  | (s, .ok (bs, ps)) => (s, if ps.any id then none else some bs)
  | (s, _) => (s, none)

/-- Go through the table from an entry on: `last` is the START of the last entry that could be read, `found` the number
and mask of the last entry at or below the offset. An entry that cannot be read, where the PC may need it, leaves none. -/
def State.scanLive (s : State) (p : Party) (table : DWord) (off : Nat) :
    Nat → Nat → Option Nat → Option (Nat × Nat) → State × Option (Nat × Nat)
  | 0, _, _, found => (s, found)
  | n + 1, k, last, found =>
    match s.quietRead p (table + BitVec.ofNat 64 (16 * k)) 16 with
    | (s, none) => State.scanLive s p table off n (k + 1) last (if (last.map fun l => decide (off < l)).getD false then found else none)
    | (s, some bs) =>
      let start := leAt bs 0 4
      if (last.map fun l => decide (start ≤ l)).getD false then (s, none)
      else State.scanLive s p table off n (k + 1) (some start) (if start ≤ off then some (k, leAt bs 4 12) else found)

/-- The registers of the top frame that are live at the slice's PC. -/
def State.liveSet (s : State) (e : Env) (x : Slice) : State × List Nat :=
  let all := natsFrom 0 x.frameRegs
  let p : Party := { e.party x.uid with who := .quiet }
  let entry := e.launch.pkt.entry
  match s.quietRead p (entry - 64) 64 with
  | (s, none) => (s, all)
  | (s, some d) =>
    let off := x.pc - entry
    let count := leAt d 0xC 4
    if leAt d 0 4 ≠ 0x4B444631 ∨ off.msb then (s, all)
    else
      match s.scanLive p (entry + le64 d 0x10) (off.toNat / 2) count 0 none none with
      | (s, some (k, m)) =>
        (s, if m = 2 ^ 96 - 1 ∨ (k + 1 = count ∧ 2 * leAt d 8 4 ≤ off.toNat) then all else all.filter (bit m))
      | (s, none) => (s, all)

/-! ### Continuations (R387, R388) -/

def ceilTo (k n : Nat) : Nat := (n + k - 1) / k * k

/-- The entries of the top frame. -/
def Slice.topEntries (x : Slice) : List Recon := x.recon.takeWhile fun r => r.fdepth == x.depth

/-- SHAPES, POISON and VALUES of the registers that travel. -/
def travelBytes (regs : List Reg) : List Byte :=
  let sick := regs.any fun r => r.words.any (·.poison)
  natToBytes (ceilTo 4 ((regs.length + 3) / 4)) (packBits 2 (regs.map Reg.shape)) ++
  (if sick then natToBytes (ceilTo 4 ((regs.length + 1) / 2)) (packBits 4 (regs.map Reg.poisonNibble)) else []) ++
  regs.flatMap fun r => r.words.flatMap LaneWord.bytes

/-- The continuation of a slice with the registers that travel, of a KIND and with HOPS. -/
def Slice.continuation (x : Slice) (e : Env) (kind hops : Nat) (live : List Nat) : List Byte :=
  let regs := live.map fun i => nth (.u 0) x.top.regs i
  let ents := x.topEntries
  let body := pad16 ((ents.reverse.flatMap fun r => r.bytes e.launch.pkt.entry) ++ travelBytes regs)
  let psn := regs.any fun r => r.words.any (·.poison)
  natToBytes 32 ((live.map (2 ^ ·)).sum * 2 ^ 160 + (x.pc.toNat / 2 % 2 ^ 55) * 2 ^ 105 + x.fmt.toNat % 2 ^ 21 * 2 ^ 84 +
    packBits 4 (x.masks.tail.map (·.toNat)) % 2 ^ 28 * 2 ^ 56 + e.group.pipe % 4 * 2 ^ 54 + e.group.place % 16 * 2 ^ 50 + x.idx % 8 * 2 ^ 47 +
    e.origin % 128 * 2 ^ 40 + x.top.demand % 16 * 2 ^ 36 + x.top.args % 16 * 2 ^ 32 + hops % 16 * 2 ^ 28 + x.m0.toNat * 2 ^ 24 +
    ents.length % 8 * 2 ^ 21 + kind * 2 ^ 19 + b2n psn * 2 ^ 18 + (if kind = 0 then (32 + body.length) / 16 % 64 else 0) * 2 ^ 12) ++ body

/-- What a continuation carries. -/
structure Parcel where
  pc : DWord
  fmt : Word
  masks : List (BitVec 4)
  /-- numbers of the registers that travel, and the registers -/
  live : List Nat
  regs : List Reg
  /-- innermost first -/
  entries : List Recon
  deriving DecidableEq, Repr

/-- Read a continuation. -/
def Parcel.ofBytes (bs : List Byte) (entry : DWord) : Parcel :=
  let h := leAt bs 0 32
  let nent := field h 21 3
  let live := (natsFrom 0 96).filter fun i => bit h (160 + i)
  let shapes := 32 + 16 * nent
  let poison := shapes + ceilTo 4 ((live.length + 3) / 4)
  let np := if bit h 18 then ceilTo 4 ((live.length + 1) / 2) else 0
  { pc := BitVec.ofNat 64 (field h 105 55 * 2), fmt := BitVec.ofNat 32 (field h 84 21),
    masks := BitVec.ofNat 4 (field h 24 4) :: (natsFrom 0 7).map fun k => BitVec.ofNat 4 (field h (56 + 4 * k) 4),
    live := live, regs := readRegs bs [] (leAt bs shapes (poison - shapes)) (leAt bs poison np) live.length 0 (poison + np),
    entries := ((natsFrom 0 nent).map fun k => Recon.ofBytes ((bs.drop (32 + 16 * k)).take 16) entry).reverse }

/-- The registers of a frame under those that have travelled. -/
def Parcel.over (q : Parcel) (old : List Reg) : List Reg := old.zipIdx.map fun r => ((q.live.zip q.regs).lookup r.2).getD r.1

/-! ### Seeking migration (R284, R322, R384, R385) -/

/-- A home beyond the slice (R284). -/
def Env.beyond (e : Env) : Home → Bool
  | .core c => c != e.core
  | .stack n => n != dieOfCore e.core
  | .part _ => false

/-- A home that is the slice's origin core, or the stack below its origin die (R384). -/
def Env.atOrigin (e : Env) : Home → Bool
  | .core c => c == e.origin
  | .stack n => n == dieOfCore e.origin
  | .part _ => false

/-- Whether a core runs a context (R386, R402): some workgroup of it is resident there. -/
def State.runsCtx (s : State) (core ctx : Nat) : Bool :=
  s.wgs.any fun w => w.core == core && w.status != .saved && s.launchCtx w.launch == ctx

/-- The core that a migration goes to: for a stack, the lowest core of the die above it that runs the context (R459). -/
def State.destCore (s : State) (ctx : Nat) : Home → Option Nat
  | .core c => some c
  | .stack n => (natsFrom (8 * n) 8).find? fun c => s.runsCtx c ctx
  | .part _ => none

/-- Codes of R322. -/
def codeMoved : Nat := 0
def codeHere : Nat := 1
def codeNoMig : Nat := 2
def codeAdmit : Nat := 3
def codeTokens : Nat := 4
def codeLive : Nat := 5
def codePreempt : Nat := 6
def codeHops : Nat := 7

/-- A token with an open batch or a sealed batch that is not complete (R162). -/
def Token.busy (t : Token) : Bool := !t.openBatch.isEmpty || !t.sealed.isEmpty

/-- What seeking migration comes to. -/
inductive Seek where
  /-- a request is on its way, or the slice returns home: the slice waits -/
  | going (x : Slice)
  | refused (code : Nat)
  deriving DecidableEq, Repr

/-- Seek migration to a home beyond the slice; `code` is a MIGRATE itself (R384, R385). -/
def State.seek (s : State) (e : Env) (x : Slice) (h : Home) (code : Option Instr) : State × Seek :=
  let hops := (x.guest.map (·.hops)).getD 0
  let limit := (s.ctxOf e.ctx).hopLimit.toNat
  if x.guest.isSome && (e.atOrigin h || decide (limit ≤ hops)) then
    (s, .going (x.startReturn e.origin 1 (code.map fun d => (d, if decide (limit ≤ hops) then codeHops else codeMoved))))
  else
    let (s, live) := s.liveSet e x
    if 512 < (x.continuation e 0 hops live).length ∨ 4 < x.topEntries.length then (s, .refused codeLive)
    else if e.wg.producer == e.group.idx && e.wg.tokens.any Token.busy then (s, .refused codeTokens)
    else
      match s.destCore e.ctx h with
      | none => (s, .refused codeAdmit)
      | some c => (s, .going { x with status := .migrating, mig := some { phase := .requested, dest := c, code := code.map fun d => (d, codeMoved) } })

/-- How an access asks for migration (R284). -/
inductive MigAsk where
  | no | mig | strict
  deriving DecidableEq, Repr

def migAsk (e : Env) (cp : Nat) : MigAsk :=
  match cp with
  | 4 => .mig
  | 5 => .strict
  | 0 => if e.launch.pkt.migrate then (if e.launch.pkt.strict then .strict else .mig) else .no
  | _ => .no

/-- The home to which an access migrates its slice: that of the lowest taking lane whose page has MIG set, where it lies
beyond the slice. -/
def migTarget (e : Env) (ms : List (DWord × Mapping)) : Option (DWord × Home) :=
  match ms.find? (fun m => m.2.mig && !(match m.2.home with | .part _ => true | _ => false)) with
  | some (va, m) => if e.beyond m.home then some (va, m.home) else none
  | none => none

end Sys2Proof.Machine
end

