-- ==== Sys2Proof/Machine/Link.lean ====
section
/-! DEFINITION. Sending Norzen frames, and a slice's remote accesses (spec/19_host_and_peers.md R427-R429). The body of a
memory request and of a reply is laid out by the model (log entry 14). -/

namespace Sys2Proof.Machine

/-- The control block (R430). -/
def controlBlock : Nat := homedBase + 0x1000

/-- This part's number (R430). -/
def State.partNumber (s : State) : Nat := (s.word (controlBlock + 0x74)).toNat % 64

def State.pair? (s : State) (p : Nat) : Option Pair := s.outside.pairs.find? (·.part == p)

/-- The state of a part pair; one not yet used has sent and received nothing. -/
def State.pairOf (s : State) (p : Nat) : Pair := (s.pair? p).getD { part := p }

def State.setPair (s : State) (x : Pair) : State :=
  s.onOutside fun o => { o with pairs := x :: o.pairs.filter (·.part != x.part) }

/-- A frame: the 16-byte header of R428 and its body. -/
def frameBytes (kind src dst seq ack : Nat) (body : List Byte) : List Byte :=
  u16 0x4E5A ++ u8 1 ++ u8 kind ++ u8 src ++ u8 dst ++ u16 body.length ++ u32 seq ++ u32 ack ++ body

/-- A part's entry of the pod table (R430): MAC, IP address, UDP port and the valid byte, packed in that order (log entry
104). -/
def State.podEntry (s : State) (part : Nat) : List Byte := s.peek ((le64 (s.peek (controlBlock + 0x68) 8) 0).toNat + 32 * part) 32

/-- The datagram to a part that carries a frame (R428); to a part without a valid entry none goes out. -/
def State.datagram (s : State) (part : Nat) (bs : List Byte) : List Sent :=
  let e := s.podEntry part
  if bit (leAt e 24 1) 0 then [.frame part (e.take 24) bs] else []

/-- Send a frame that is to be acknowledged, unless the pair is lost. -/
def State.sendFrame (s : State) (part kind : Nat) (body : List Byte) : State :=
  let x := s.pairOf part
  if x.lost then s
  else
    let bs := frameBytes kind s.partNumber part x.nextSeq.toNat x.expect.toNat body
    let s := s.setPair { x with nextSeq := x.nextSeq + 1, unacked := x.unacked ++ [(x.nextSeq, bs, s.baseClk, 0)] }
    s.onOutside fun o => { o with sent := o.sent ++ s.datagram part bs }

/-- Send an acknowledgement, which takes no number of its own. -/
def State.sendAck (s : State) (part : Nat) : State :=
  let x := s.pairOf part
  s.onOutside fun o =>
    { o with sent := o.sent ++ s.datagram part (frameBytes 4 s.partNumber part x.nextSeq.toNat x.expect.toNat []) }

/-- The base word of an instruction; 0 for one without a 32-bit word. -/
def baseWord (i : Instr) : Word :=
  match i.base with
  | .word f => f.word
  | _ => 0

/-- The body of a memory request: request number, context, whether it is one half of a split pair (R116), prefix and base
words, address, operands. -/
def requestBody (id ctx : Nat) (i : Instr) (half : Bool) (pa : Nat) (data : List Word) : List Byte :=
  u32 id ++ u16 ctx ++ u8 (b2n half) ++ zeros 1 ++ wordBytes ((i.pfx.map Pfx.word).getD 0) ++ wordBytes (baseWord i) ++ u64 pa ++
  padTo 24 (data.flatMap wordBytes)

def Instr.isStore (i : Instr) : Bool :=
  match i with
  | .st _ _ _ _ _ => true
  | _ => false

/-- The event of a remote store that a lost pair drops (R429): the memory event of an error, with the store's physical address.
No row of R419's table tells of it, so the row is a free one of its 13 (log entry 27). -/
def State.dropStore (s : State) (ctx core : Option Nat) (pa : Nat) : State :=
  let (v, s) := s.freeValue
  s.postMemory (srcIo 0) 3 ctx core (BitVec.ofNat 64 pa) (BitVec.ofNat 64 (1 + v.toNat % 13))

/-- Send a lane's access to its remote part; over a lost pair a load or an atomic returns poison, and a store is dropped
(R429). -/
def State.startRemote (s : State) (x : Slice) (ctx lane : Nat) (i : Instr) (part pa : Nat) (va : DWord) (data : List Word)
    (half : Bool := false) (parked : Option Nat := none) : State :=
  let lost := (s.pairOf part).lost
  if lost && Instr.isStore i then s.dropStore (some ctx) (some (s.env x).core) pa
  else
    let (id, s) := s.fresh
    let r : Remote := { id := id, part := part, slice := x.uid, pc := x.pc, instr := i, lane := lane, addr := va, pa := pa, parked := parked,
                        reply := if lost then some none else none }
    let s := s.onOutside fun o => { o with remotes := o.remotes ++ [r] }
    let s := s.onSlice x.uid fun y => { y with remoteOut := y.remoteOut ++ [id] }
    s.sendFrame part 1 (requestBody id ctx i half pa data)

/-- The remote access of a lane to an address, for a slice's present instruction or a parked access. -/
def State.remoteOf (s : State) (u : Nat) (i : Instr) (parked : Option Nat) (lane : Nat) (va : DWord) : Option Remote :=
  s.outside.remotes.find? fun r => r.slice == u && r.instr == i && r.parked == parked && r.lane == lane && r.addr == va

/-- Forget remote accesses whose replies their access has used. -/
def State.endRemotes (s : State) (u : Nat) (i : Instr) (parked : Option Nat) : State :=
  let ids := (s.outside.remotes.filter fun r => r.slice == u && r.instr == i && r.parked == parked).map (·.id)
  let s := s.onOutside fun o => { o with remotes := o.remotes.filter fun r => !ids.contains r.id }
  s.onSlice u fun y => { y with remoteOut := y.remoteOut.filter fun k => !ids.contains k }

end Sys2Proof.Machine
end

