-- ==== Sys2Proof/Machine/Memory.lean ====
section
/-! DEFINITION. Loads, stores, atomics, fences, cache operations and bound registers
(spec/13_instr_memory_matrix.md R280-R293; spec/05_caches_and_atomics.md R112-R118; spec/06_memory_model.md). -/

namespace Sys2Proof.Machine

/-! ### Scopes, releases and acquires (R112, R121, R130, R141) -/

/-- Updates that a quad holds back for a line go before its later accesses to that line (R127). -/
def State.applyFor (s : State) (core : Nat) (pa : Nat) : State :=
  s.flushDeferred fun d => d.quad == quadOfCore core && d.addr / 64 == pa / 64

/-- Perform a read-modify-write of a core at the place R114 gives. Of a quad-private page at scope quad or narrower the quad
cache allocates the line under the policies normal and keep; under the others R113 holds before that: no-allocate updates
a line that is there, and else the home's, where bypass-quad and uncached always go (DESIGN CHOICE, log 94). -/
def State.coreRmw (s : State) (core : Nat) (m : Mapping) (n cp : Nat) (sc : Scope) (f : DWord → DWord) : State × DWord × Bool :=
  let quad := quadOfCore core
  let line := m.pa / 64 * 64
  let pol := policyOf m.cpol cp
  let s := s.applyFor core m.pa
  match m.home with
  | .stack _ =>
    if !m.shared && decide (sc.rank ≤ 3) && pol != .bypass && pol != .uncached then
      let off := m.pa % 64
      let want := touched off n
      match if pol = .noAlloc then (s, s.quadHit quad line want) else s.quadGet quad line want true pol with
      | (s, none) => (s.drainQuad quad).homeRmw m.pa n pol f
      | (s, some l) =>
        let old := BitVec.ofNat 64 (bytesToNat (l.slice off n))
        if l.poisonAt off n then (s.quadUse l (pol == .keep), old, true)
        else
          let new := natToBytes n (f old).toNat
          let s := (s.l1Drop quad line (some core)).l1Write core line off new
          (s.quadUse { l with toLineData := l.put off new false, dirty := true } (pol == .keep), old, false)
    else
      ((s.drainQuad quad).quadDrop quad line).homeRmw m.pa n pol f
  | _ => s.scratchRmw m.pa n f

/-! ### Lane accesses -/

/-- One lane's address in an access: its lane, its address and the bytes there. -/
structure LaneAddr where
  lane : Nat
  va : DWord
  bytes : Nat
  deriving DecidableEq, Repr

/-- The addresses of the taking lanes: the pair A plus an offset (R281). -/
def laneAddrs (a : Reg × Reg) (take : BitVec 4) (offset : DWord) (n : Nat) : List LaneAddr :=
  (maskLanes take).map fun l => { lane := l, va := pairVal a l + offset, bytes := n }

/-- The scaled immediate of format M. -/
def scaled (i : BitVec 8) (size : Nat) : DWord := BitVec.ofInt 64 (i.toInt * (size : Int))

/-- The first misaligned address. -/
def misaligned? (xs : List LaneAddr) (align : Nat) : Option DWord := (xs.find? fun a => a.va.toNat % align != 0).map (·.va)

/-- One slice of a memory instruction: who it is, its taking lanes' addresses and, once translated, their mappings. -/
structure Member where
  slice : Slice
  env : Env
  take : BitVec 4
  addrs : List LaneAddr
  deriving DecidableEq, Repr

/-- R27: an access waits while eight are parked, or behind a parked one to its page. -/
def Slice.mustWait (x : Slice) (addrs : List LaneAddr) : Bool :=
  decide (8 ≤ x.lasting.length) ||
  x.lasting.any fun p => addrs.any fun a => (maskLanes p.lanes).any fun l => pageOf (p.addr.get l) == pageOf a.va

/-- Translate the accesses of every slice of the gang. -/
def State.translateAll (s : State) (need : Need) : List Member → State × List (Member × Tr)
  | [] => (s, [])
  | m :: ms =>
    let (s, t) := s.translate (m.env.party m.slice.uid) (m.addrs.map fun a => (a.va, need))
    let (s, ts) := State.translateAll s need ms
    (s, (m, t) :: ts)

def Tr.isOk : Tr → Bool
  | .ok _ => true
  | _ => false

def Tr.maps : Tr → List Mapping
  | .ok ms => ms
  | _ => []

/-- A slice that stands at an instruction whose access has parked: the instruction counts among its parked accesses (R27,
R281). -/
def Slice.standsAt (x : Slice) (id : Nat) (i : Instr) (take : BitVec 4) (addrs : List LaneAddr) (sub : Nat) : Slice :=
  { x with status := .faultWait,
           parked := x.lasting ++ [{ id := id, inst := id, stays := true, pc := x.pc, instr := i, lanes := take, fdepth := x.depth,
                                     addr := L4.ofFn fun l => ((addrs.find? (·.lane == l)).map (·.va)).getD 0,
                                     data := L4.ofFn fun _ => [], subcode := sub }] }

/-- The subcode of the record on which a requester is parked. -/
def State.parkedSub (s : State) (who : Requester) : Nat :=
  ((s.caches.faults.find? fun f => f.asks.any (·.who == who)).map (·.subcode)).getD 0

/-- The slices of the gang stay at the instruction: those that miss wait for the walk, those parked for service, and with
them the whole gang (R281). -/
def State.holdGang (s : State) (i : Instr) (ts : List (Member × Tr)) : State :=
  ts.foldl (fun s t => match t.2 with
    | .miss => s.onSlice t.1.slice.uid fun x => { x with status := .missWait }
    | .parked =>
      let (id, s) := s.fresh
      s.onSlice t.1.slice.uid fun x => x.standsAt id i t.1.take t.1.addrs (s.parkedSub (.slice t.1.slice.uid))
    | _ => s) s

/-- The slices of the gang stand no more at an instruction that has parked: they issue it again. -/
def State.standUp (s : State) : State :=
  { s with slices := s.slices.map fun x => if s.cur.contains x.uid then { x with parked := x.lasting } else x }

/-- Slices that migrate at a memory instruction (R284): a slice whose lowest migrating lane's home lies beyond it leaves
its gang and seeks migration, unless it was refused at this access, which under mig.strict traps. -/
def State.migrateMembers (s : State) (cp : Nat) : List (Member × Tr) → State × Bool
  | [] => (s, false)
  | (m, t) :: rest =>
    let ask := migAsk m.env cp
    let target := if ask == .no then none
      else migTarget m.env ((m.addrs.map (·.va)).zip t.maps)
    match target with
    | none => State.migrateMembers s cp rest
    | some (va, h) =>
      let refused := fun (s : State) =>
        if ask == .strict then ((s.partSlices [m.slice.uid]).takeTrap m.slice.uid (trapOn causeMigration m.slice.pc va), true)
        else (s.onSlice m.slice.uid fun x => { x with stay := true }, false)
      let (s, moved) :=
        if m.slice.stay then refused s
        else
          match s.seek m.env m.slice h none with
          | (s, .going x) => ((s.partSlices [x.uid]).onSlice x.uid fun y => { y with status := x.status, mig := x.mig }, true)
          | (s, .refused _) => refused s
      let (s, b) := State.migrateMembers s cp rest
      (s, moved || b)

/-- The members of the issuing gang. -/
def State.members (s : State) (p : Option Pfx) (addrs : Slice → Env → BitVec 4 → List LaneAddr) : List Member :=
  s.curSlices.map fun x =>
    let e := s.env x
    let take := takeOf x p
    { slice := x, env := e, take := take, addrs := addrs x e take }

/-- Traps of a per-lane memory instruction: operands out of the frame, poisoned sources, misaligned addresses. -/
def State.memTraps (s : State) (i : Instr) (srcs : Slice → Env → List Reg) (align : Nat) (ms : List Member) : List (Nat × TrapInfo) :=
  ms.filterMap fun m =>
    ((s.issueTrap i m.slice m.env (srcs m.slice m.env) m.take).or
      ((misaligned? m.addrs align).map fun va => trapOn causeMisaligned m.slice.pc va)).map fun t => (m.slice.uid, t)

/-- Whether a matrix operation of a slice, before a moment in its program order, still has to finish with bytes of a tile
that it names (R301); that of a COPYMM also before it is handed over. -/
def State.matBusy (s : State) (u before pa n : Nat) : Bool :=
  let meets := fun (core at_ len : Nat) => let a := scratchBase + core * 2 ^ 22 + at_; decide (a < pa + n) && decide (pa < a + len)
  (s.engines.matQueue.any fun q => q.slices.contains u && decide (q.seq < before) && meets q.core q.tileAt q.tileLen) ||
  s.engines.copies.any fun c => c.slices.contains u && decide (c.id < before) && (match c.chain with
    | some (cmd, _) => s.engines.tiles.any fun t => t.core == c.core && some t.entry == ((s.wg? c.wg).map fun w => w.tileFirst + field cmd.toNat 3 8) &&
        meets c.core (t.offset ((s.wg? c.wg).getD Workgroup.none)) t.bytes
    | none => false)

def State.membersBusy (s : State) (ts : List (Member × Tr)) : Bool :=
  ts.any fun t => (t.1.addrs.zip t.2.maps).any fun a => s.matBusy t.1.slice.uid s.nextId a.2.pa a.1.bytes

/-- A mapping to a remote part, and its number. -/
def Mapping.part? (m : Mapping) : Option Nat :=
  match m.home with
  | .part n => some n
  | _ => none

def isAtom (i : Instr) : Bool :=
  match i with
  | .atom _ _ _ _ _ _ | .atomb _ _ _ _ _ _ => true
  | _ => false

/-- Send the remote accesses of an instruction, or of a parked access, that waits for their replies: true once every reply
has come. `sent` is the instruction that they carry, and `half` says which are halves of split pairs. -/
def State.awaitRemotes (s : State) (sent : Instr) (parked : Option Nat) (data : Member → LaneAddr → List Word) :
    List (Member × Tr) → State × Bool
  | [] => (s, true)
  | (m, t) :: rest =>
    let (s, here) := ((m.addrs.zip t.maps).foldl (fun (acc : State × Bool) q =>
      match q.2.part? with
      | none => acc
      | some part =>
        match acc.1.remoteOf m.slice.uid sent parked q.1.lane q.1.va with
        | some r => (acc.1, acc.2 && r.reply.isSome)
        | none =>
          let s := acc.1.startRemote m.slice m.env.ctx q.1.lane sent part q.2.pa q.1.va (data m q.1) (q.1.bytes == 2 && isAtom sent) parked
          (s, acc.2 && ((s.remoteOf m.slice.uid sent parked q.1.lane q.1.va).bind (·.reply)).isSome)) (s, true))
    let s := if here || parked.isSome then s else s.onSlice m.slice.uid fun x => { x with status := .remote }
    let (s, there) := State.awaitRemotes s sent parked data rest
    (s, here && there)

/-- The words of a lane's remote reply, or poison. -/
def State.replyWords (s : State) (u : Nat) (i : Instr) (parked : Option Nat) (lane : Nat) (va : DWord) : List LaneWord :=
  match ((s.remoteOf u i parked lane va).bind (·.reply)).getD none with
  | some ws => ws.map fun w => { val := w }
  | none => List.replicate 4 { poison := true }

/-- What a faulting access of a member becomes that parks while its slice goes on: the registers still to come, the data
kept, and the source held. -/
structure Parking where
  regs : Nat := 0
  data : Member → Nat → List LaneWord
  held : Member → List Reg := fun _ => []

/-- Park a member's access and let its slice go on (R26, R396). -/
def State.parkAccess (s : State) (i : Instr) (k : Parking) (inst : Nat) (m : Member) : State :=
  let (id, s) := s.fresh
  let u := m.slice.uid
  let sub := s.parkedSub (.slice u)
  let rename := fun (a : Ask) => if a.who = .slice u then { a with who := .parked u id } else a
  let s := s.onCaches fun c => { c with faults := c.faults.map fun f => { f with asks := f.asks.map rename } }
  let rec_ : Parked :=
    { id := id, inst := inst, pc := m.slice.pc, instr := i, lanes := m.take, subcode := sub, fdepth := m.slice.depth,
      addr := L4.ofFn fun l => ((m.addrs.find? (·.lane == l)).map (·.va)).getD 0, data := L4.ofFn (k.data m) }
  s.onSlice u fun x =>
    (((({ x with parked := x.parked ++ [rec_] } : Slice).pushDue id k.regs).stepLatch (k.held m)).next i).retired

/-- Run a per-lane memory instruction (R280, R281): traps first; then the whole gang's addresses translate, and none of
its lanes' accesses is performed before all of them do. Where a translation faults the whole instruction parks, and the
gang goes on, if `park` says how; else it stays. `perform` gets every member with its mappings. -/
def State.runMem (s : State) (i : Instr) (p : Option Pfx) (srcs : Slice → Env → List Reg)
    (addrs : Slice → Env → BitVec 4 → List LaneAddr) (align : Nat) (need : Need) (cp : Nat)
    (ready : Member → Bool) (park : Option Parking) (remote : State → List (Member × Tr) → State × Bool)
    (perform : State → List (Member × Tr) → State) : Host.Outcome State Fault Refusal :=
  s.issue fun s =>
    let s := s.standUp
    let ms := s.members p addrs
    let traps := s.memTraps i srcs align ms
    if traps ≠ [] then (s.clearDeclines (traps.map (·.1))).takeTraps traps
    else if ms.any fun m => m.slice.mustWait m.addrs || !ready m then s
    else
      let (s, ts) := s.translateAll need ms
      let waits := ts.any fun t => !t.2.isOk && t.2 != .parked
      if ts.all (·.2.isOk) then
        if s.membersBusy ts then s
        else
          let (s, moved) := s.migrateMembers cp ts
          if moved then s
          else
            match remote s ts with
            | (s, false) => s
            | (s, true) => (perform s ts).partIfApart s.cur
      else
        match if waits then none else park with
        | some k =>
          let (inst, s) := s.fresh
          (ts.foldl (fun s t => s.parkAccess i k inst t.1) s).partIfApart s.cur
        | none => s.holdGang i (if park.isSome then ts.filter (·.2 != .parked) else ts)

/-- A read of a core at a mapping. -/
def State.coreRead (s : State) (core : Nat) (m : Mapping) (n cp : Nat) : State × List Byte × Bool :=
  match m.home with
  | .stack _ => (s.applyFor core m.pa).quadRead core m.pa n (!m.shared) (policyOf m.cpol cp)
  | _ => s.scratchRead m.pa n

/-- A write of a core at a mapping. -/
def State.coreWrite (s : State) (core : Nat) (m : Mapping) (bs : List Byte) (cp : Nat) : State :=
  match m.home with
  | .stack _ => (s.applyFor core m.pa).quadWrite core m.pa bs (!m.shared) (policyOf m.cpol cp)
  | _ => s.poke m.pa bs

/-! ### Loads (R282) -/

end Sys2Proof.Machine

namespace Sys2Proof

def LdSize.bytes : LdSize → Nat
  | .n8 | .i8 => 1
  | .n16 | .i16 => 2
  | .w32 => 4
  | .w64 => 8
  | .w128 => 16

def StSize.bytes : StSize → Nat
  | .b8 => 1
  | .b16 => 2
  | .w32 => 4
  | .w64 => 8
  | .w128 => 16

end Sys2Proof

namespace Sys2Proof.Machine

/-- The lane words that loaded bytes give. -/
def loadWords (z : LdSize) (bs : List Byte) (poison : Bool) : List LaneWord :=
  let w := fun (v : Word) => ({ val := v, poison := poison } : LaneWord)
  match z with
  | .n8 => [w ((le8 bs 0).setWidth 32)]
  | .i8 => [w ((le8 bs 0).signExtend 32)]
  | .n16 => [w ((le16 bs 0).setWidth 32)]
  | .i16 => [w ((le16 bs 0).signExtend 32)]
  | .w32 => [w (le32 bs 0)]
  | .w64 => [w (le32 bs 0), w (le32 bs 4)]
  | .w128 => [w (le32 bs 0), w (le32 bs 4), w (le32 bs 8), w (le32 bs 12)]

/-- Registers from the words of each lane. -/
def laneRegs (n : Nat) (vals : List (Nat × List LaneWord)) : List Reg :=
  (natsFrom 0 n).map fun k => .general (L4.ofFn fun l => nth {} ((vals.lookup l).getD []) k)

/-- Read every lane of a member. -/
def State.loadLanes (s : State) (i : Instr) (parked : Option Nat) (core u : Nat) (z : LdSize) (cp : Nat) :
    List (LaneAddr × Mapping) → State × List (Nat × List LaneWord)
  | [] => (s, [])
  | (a, m) :: rest =>
    let (s, ws) := match m.part? with
      | some _ => (s, s.replyWords u i parked a.lane a.va)
      | none => let (s, bs, poison) := s.coreRead core m z.bytes cp; (s, loadWords z bs poison)
    let (s, vs) := State.loadLanes s i parked core u z cp rest
    (s, (a.lane, ws) :: vs)

/-- Retire a memory instruction with a result in a slice. -/
def State.retireMem (s : State) (i : Instr) (u : Nat) (p : Option Pfx) (d : Dst) (rs held : List Reg) : State :=
  s.onSlice u fun x =>
    let x := if rs.isEmpty then x else x.writeResult d rs (takeOf x p) (zeroing p)
    ((x.stepLatch held).next i).retired

/-- The registers that a load of a member gives; its remote replies are used up. -/
def State.loadRegs (s : State) (i : Instr) (parked : Option Nat) (z : LdSize) (p : Option Pfx) (m : Member) (ms : List Mapping) :
    State × List Reg :=
  let (s, vals) := s.loadLanes i parked m.env.core m.slice.uid z (pfxCp p) (m.addrs.zip ms)
  (s.endRemotes m.slice.uid i parked, laneRegs z.width.count vals)

def execLd (p : Option Pfx) (z : LdSize) (d : Dst) (a : Opnd) (m : BitVec 8) (s : State) : Host.Outcome State Fault Refusal :=
  let i : Instr := .ld p z d a m
  let pair := fun (x : Slice) e => x.readPair e s.clock true a
  let acq := (pfxOrder p).isAcq
  s.runMem i p (fun x e => [(pair x e).1, (pair x e).2])
    (fun x e take => laneAddrs (pair x e) take (scaled m z.bytes) z.bytes) z.bytes { kind := .load } (pfxCp p)
    (fun q => !acq || q.slice.lasting.isEmpty)
    (if acq then none else some { regs := z.width.count, data := fun _ _ => [] })
    (fun s ts => s.awaitRemotes i none (fun _ _ => []) ts)
    fun s ts =>
      -- an acquire comes before its own read, which may then hit no older line (R455)
      ts.foldl (fun s t =>
        let s := if acq then s.acquireAt t.1.env (s.widen t.1.slice (pfxScope p)) else s
        let (s, rs) := s.loadRegs i none z p t.1 t.2.maps
        s.retireMem i t.1.slice.uid p d rs []) s

/-! ### Stores (R283) and accesses that park and let the slice go on (R26, R396) -/

/-- The source words of a store, by register; a pair is read as R237 says. -/
def Slice.storeRegs (x : Slice) (e : Env) (clock : DWord) (d : Opnd) (n : Nat) : List Reg :=
  if n = 2 then let p := x.readPair e clock false d; [p.1, p.2]
  else (natsFrom 0 n).map fun k => x.readOpnd e clock (d.plus k)

def wordsAt (rs : List Reg) (l : Nat) : List LaneWord := rs.map fun r => r.lane l

/-- Run a per-lane instruction without a register result. -/
def State.runStore (s : State) (i : Instr) (p : Option Pfx) (srcs : Slice → Env → List Reg)
    (addrs : Slice → Env → BitVec 4 → List LaneAddr) (align : Nat) (need : Need) (cp : Nat)
    (ready : Member → Bool) (data : Member → Nat → List LaneWord) (held : Member → List Reg)
    (perform : State → Member → List Mapping → State) : Host.Outcome State Fault Refusal :=
  s.runMem i p srcs addrs align need cp ready (some { data := data, held := held }) (fun s _ => (s, true)) fun s ts =>
    ts.foldl (fun s t => (perform s t.1 t.2.maps).retireMem i t.1.slice.uid none .zero [] (held t.1)) s

/-- The bytes that a store writes from its source words. -/
def storeBytes (z : StSize) (ws : List LaneWord) : List Byte := (ws.flatMap fun w => wordBytes w.val).take z.bytes

/-- Put a byte into a list of bytes by rising address; a later one replaces an earlier. -/
def putCell (c : Nat × Byte) : List (Nat × Byte) → List (Nat × Byte)
  | [] => [c]
  | d :: ds => if c.1 < d.1 then c :: d :: ds else if c.1 = d.1 then c :: ds else d :: putCell c ds

/-- The runs of bytes at consecutive addresses of one line. -/
def runsOf : List (Nat × Byte) → List (Nat × List Byte)
  | [] => []
  | c :: cs =>
    match runsOf cs with
    | (a, bs) :: rest => if a = c.1 + 1 ∧ a / 64 = c.1 / 64 then (c.1, c.2 :: bs) :: rest else (c.1, [c.2]) :: (a, bs) :: rest
    | [] => [(c.1, [c.2])]

/-- The writes that pieces of bytes, in their order, come to: one for each run. -/
def storeRuns (xs : List (Nat × List Byte)) : List (Nat × List Byte) :=
  runsOf ((xs.flatMap fun x => x.2.zipIdx.map fun b => (x.1 + b.2, b.1)).foldl (fun l c => putCell c l) [])

/-- The lanes of members that store to this part, in gang lane order: where, and what. -/
def localStores (z : StSize) (data : Member → Nat → List LaneWord) (ts : List (Member × Tr)) : List (Mapping × List Byte) :=
  ts.flatMap fun t => (t.1.addrs.zip t.2.maps).filterMap fun q =>
    if q.2.part?.isNone then some (q.2, storeBytes z (data t.1 q.1.lane)) else none

/-- Send the stores of a member's lanes to remote parts. -/
def State.sendStores (s : State) (i : Instr) (data : Member → Nat → List LaneWord) (t : Member × Tr) : State :=
  (t.1.addrs.zip t.2.maps).foldl (fun s q => match q.2.part? with
    | some part => s.startRemote t.1.slice t.1.env.ctx q.1.lane i part q.2.pa q.1.va ((data t.1 q.1.lane).map (·.val))
    | none => s) s

/-- Store the lanes of members: those of one core to one line together, the highest in gang lane order last (R126), so that
lanes which cover a sector write it whole (R119). -/
def State.storeLanes (s : State) (i : Instr) (z : StSize) (cp : Nat) (data : Member → Nat → List LaneWord) (ts : List (Member × Tr)) : State :=
  let s := ts.foldl (fun s t => s.sendStores i data t) s
  let xs := localStores z data ts
  let core := (ts.head?.map fun t => t.1.env.core).getD 0
  (storeRuns (xs.map fun x => (x.1.pa, x.2))).foldl (fun s r =>
    match xs.find? fun x => x.1.pa / 64 == r.1 / 64 with
    | some x => s.coreWrite core { x.1 with pa := r.1 } r.2 cp
    | none => s) s

def execSt (p : Option Pfx) (z : StSize) (d a : Opnd) (m : BitVec 8) (s : State) : Host.Outcome State Fault Refusal :=
  let i : Instr := .st p z d a m
  let n := z.width.count
  let pair := fun (x : Slice) e => x.readPair e s.clock true a
  let data := fun (q : Member) l => wordsAt (q.slice.storeRegs q.env s.clock d n) l
  let rel := (pfxOrder p).isRel
  s.runMem i p (fun x e => [(pair x e).1, (pair x e).2] ++ x.storeRegs e s.clock d n)
    (fun x e take => laneAddrs (pair x e) take (scaled m z.bytes) z.bytes) z.bytes { kind := .store, wr := true } (pfxCp p)
    (fun q => !rel || s.releaseReady q.slice (s.widen q.slice (pfxScope p))) (some { data := data }) (fun s _ => (s, true))
    fun s ts =>
      let s := if rel then ts.foldl (fun s t => s.releaseAt t.1.env t.1.slice (s.widen t.1.slice (pfxScope p))) s else s
      ts.foldl (fun s t => s.retireMem i t.1.slice.uid none .zero [] []) (s.storeLanes i z (pfxCp p) data ts)

/-! ### Atomics (R286, R287) -/

/-- What a lane's atomic updates: address, bytes and operand; a BF16X2 addition at 2 modulo 4 is two halves (R116). -/
structure Update where
  lane : Nat
  va : DWord
  bytes : Nat
  /-- bits of the returned value that this update gives -/
  shift : Nat
  b : DWord
  c : DWord
  deriving DecidableEq, Repr

/-- The updates of a lane. -/
def updatesOf (i : Instr) (lane : Nat) (va b c : DWord) : List Update :=
  match i with
  | .atom _ .addBf16x2 _ _ _ _ =>
    if va.toNat % 4 = 2 then
      [{ lane := lane, va := va, bytes := 2, shift := 0, b := b, c := c },
       { lane := lane, va := va + 2, bytes := 2, shift := 16, b := b >>> 16, c := c }]
    else [{ lane := lane, va := va, bytes := 4, shift := 0, b := b, c := c }]
  | .atomb _ .addI64 _ _ _ _ => [{ lane := lane, va := va, bytes := 8, shift := 0, b := b, c := c }]
  | _ => [{ lane := lane, va := va, bytes := 4, shift := 0, b := b, c := c }]

/-- The alignment an atomic needs (R116). -/
def atomAlign (i : Instr) : Nat :=
  match i with
  | .atom _ .addBf16x2 _ _ _ _ => 2
  | .atomb _ .addI64 _ _ _ _ => 8
  | _ => 4

/-- Hold a comm update in its quad's combining entry for the location, or a quant update by itself. -/
def State.defer (s : State) (e : Env) (x : Slice) (i : Instr) (use : Use) (pa stack : Nat) (b c : DWord) (p : Policy) : State :=
  let quad := quadOfCore e.core
  let joins := fun (d : Deferred) => use == .comm && d.isComm && d.quad == quad && d.addr == pa && sameOp d.instr i
  if s.caches.deferred.any joins then
    s.onCaches fun k => { k with deferred := updateWhere joins (fun d =>
      { d with val := combineWith i d.val b, slices := d.slices ++ [x.uid] }) k.deferred }
  else
    let (id, s) := s.fresh
    s.onCaches fun k =>
      { k with deferred := k.deferred ++ [{ id := id, quad := quad, slices := [x.uid], gang := x.gang, since := s.clock, instr := i,
                                            addr := pa, stack := stack, val := b, cmp := c, policy := p }] }

/-- Perform one update: the value returned, and poison. A comm or quant update of a shared word is held back; a comm update
returns zero (R124). -/
def State.update (s : State) (i : Instr) (e : Env) (x : Slice) (use : Use) (cp : Nat) (sc : Scope) (q : Update) (m : Mapping) :
    State × DWord × Bool :=
  let late := (use == .comm || use == .quant) && m.shared && q.bytes != 2 && !s.peekPoison m.pa q.bytes
  let (s, old, poison) : State × DWord × Bool := match if late then stackOf m.pa else none with
    | some (st, _) =>
      let old := BitVec.ofNat 64 (bytesToNat (s.peek m.pa q.bytes))
      (s.defer e x i use m.pa st q.b q.c (policyOf m.cpol cp), old, false)
    | none => s.coreRmw e.core m q.bytes cp sc fun old => rmwNew i q.bytes old q.b q.c
  if use == .comm then (s, 0, false) else (s, old, poison)

/-- The updates of a member, in lane order: for each lane the value returned. -/
def State.updateLanes (s : State) (i : Instr) (parked : Option Nat) (m : Member) (use : Use) (cp : Nat) (sc : Scope) :
    List (Update × Mapping) → State × List (Nat × DWord × Bool)
  | [] => (s, [])
  | (q, mp) :: rest =>
    let (s, v, poison) := match mp.part? with
      | some _ =>
        match s.replyWords m.slice.uid i parked q.lane q.va with
        | [lo] => (s, lo.val.setWidth 64, lo.poison)
        | lo :: hi :: _ => (s, dword lo.val hi.val, lo.poison)
        | [] => (s, 0, false)
      | none => s.update i m.env m.slice use cp sc q mp
    let masked := if q.bytes = 2 then v &&& 0xFFFF else v
    let (s, vs) := State.updateLanes s i parked m use cp sc rest
    (s, (if use == .comm then (q.lane, 0, false) else (q.lane, masked <<< q.shift, poison)) :: vs)

/-- The lane words of an atomic's result: the parts of each lane joined. -/
def resultWords (n : Nat) (vs : List (Nat × DWord × Bool)) : List (Nat × List LaneWord) :=
  lanes.map fun l =>
    let mine := vs.filter (·.1 == l)
    let v := mine.foldl (fun acc q => acc ||| q.2.1) (0 : DWord)
    let poison := mine.any (·.2.2)
    (l, if n = 2 then [{ val := lo32 v, poison := poison }, { val := hi32 v, poison := poison }] else [{ val := lo32 v, poison := poison }])

/-- The registers that an atomic gives. -/
def atomRegs (i : Instr) : Nat :=
  match i with
  | .atomb _ .addI64 _ _ _ _ => 2
  | _ => 1

/-- Perform the updates of a member; `ups` are in the order of its addresses. Its remote replies are used up. -/
def State.updateRegs (s : State) (i : Instr) (parked : Option Nat) (p : Option Pfx) (m : Member) (ups : List Update) (ms : List Mapping) :
    State × List Reg :=
  let sc := s.widen m.slice (pfxScope p)
  let order := pfxOrder p
  let s := if order.isRel then s.releaseAt m.env m.slice sc else s
  let s := if order.isAcq then s.acquireAt m.env sc else s
  let (s, vs) := s.updateLanes i parked m (pfxUse p) (pfxCp p) sc (ups.zip ms)
  (s.endRemotes m.slice.uid i parked, laneRegs (atomRegs i) (resultWords (atomRegs i) vs))

/-- The operand words that an update's remote request carries: a half's own, of a split pair. -/
def updateWords (ups : List Update) (a : LaneAddr) : List Word :=
  match ups.find? fun q => q.lane == a.lane && q.va == a.va with
  | some q => [lo32 q.b, hi32 q.b, lo32 q.c]
  | none => []

/-- The remote accesses of a slice's present instruction that await their replies. -/
def State.ownRemotes (s : State) (x : Slice) (i : Instr) : List Nat :=
  (s.outside.remotes.filter fun r => r.slice == x.uid && r.instr == i && r.parked.isNone).map (·.id)

/-- Send the remote updates of members; a release comes before them (R427). -/
def State.awaitUpdates (s : State) (i : Instr) (p : Option Pfx) (ups : Member → List Update) (ts : List (Member × Tr)) : State × Bool :=
  let s := if (pfxOrder p).isRel then ts.foldl (fun s t => s.releaseAt t.1.env t.1.slice (s.widen t.1.slice (pfxScope p))) s else s
  s.awaitRemotes i none (fun m q => updateWords (ups m) q) ts

/-- Both atomic families: operands b and c of a lane as doublewords. -/
def State.atomicOp (s : State) (i : Instr) (p : Option Pfx) (d : Dst) (a : Opnd) (h : Bool)
    (srcs : Slice → Env → List Reg) (b c : Slice → Env → Nat → DWord) : Host.Outcome State Fault Refusal :=
  let pair := fun (x : Slice) e => x.readPair e s.clock true a
  let order := pfxOrder p
  let ups := fun (x : Slice) e take => (laneAddrs (pair x e) take 0 4).flatMap fun q => updatesOf i q.lane q.va (b x e q.lane) (c x e q.lane)
  let mine := fun (m : Member) => ups m.slice m.env m.take
  let held := fun (m : Member) => heldOf h [(pair m.slice m.env).1, (pair m.slice m.env).2]
  s.runMem i p (fun x e => [(pair x e).1, (pair x e).2] ++ srcs x e)
    (fun x e take => (ups x e take).map fun q => { lane := q.lane, va := q.va, bytes := q.bytes }) (atomAlign i)
    { kind := .atomic, wr := true } (pfxCp p)
    (fun m => (!order.isRel || s.releaseReady m.slice (s.widen m.slice (pfxScope p)) (s.ownRemotes m.slice i)) &&
      (order == .rlx || m.slice.lasting.isEmpty))
    (if order.isAcq then none
     else some { regs := atomRegs i, held := held, data := fun m l =>
                   [lo32 (b m.slice m.env l), hi32 (b m.slice m.env l), lo32 (c m.slice m.env l)].map fun w => { val := w } })
    (fun s ts => s.awaitUpdates i p mine ts)
    fun s ts =>
      ts.foldl (fun s t =>
        let (s, rs) := s.updateRegs i none p t.1 (mine t.1) t.2.maps
        s.retireMem i t.1.slice.uid p d rs (held t.1)) s

def execAtom (p : Option Pfx) (o : AtomOp) (d : Dst) (a b : Opnd) (h : Bool) (s : State) : Host.Outcome State Fault Refusal :=
  s.atomicOp (.atom p o d a b h) p d a h (fun x e => [x.readOpnd e s.clock b])
    (fun x e l => ((x.readOpnd e s.clock b).val l).setWidth 64) (fun _ _ _ => 0)

def execAtomb (p : Option Pfx) (o : AtombOp) (d : Dst) (a b : Opnd) (h : Bool) (s : State) : Host.Outcome State Fault Refusal :=
  let i : Instr := .atomb p o d a b h
  let cmp := if o = .cas then p.bind (·.c) else none
  let cs := fun (x : Slice) e => match cmp with
    | some c => [x.readOpnd e s.clock c]
    | none => []
  let cv := fun (x : Slice) e l => match cmp with
    | some c => ((x.readOpnd e s.clock c).val l).setWidth 64
    | none => (0 : DWord)
  if o = .addI64 then
    let pb := fun (x : Slice) e => x.readPair e s.clock true b
    s.atomicOp i p d a h (fun x e => [(pb x e).1, (pb x e).2]) (fun x e l => pairVal (pb x e) l) (fun _ _ _ => 0)
  else
    s.atomicOp i p d a h (fun x e => x.readOpnd e s.clock b :: cs x e)
      (fun x e l => ((x.readOpnd e s.clock b).val l).setWidth 64) cv

/-! ### Fences and cache operations (R288-R291) -/

def execFence (o : Order) (sc : Scope) (s : State) : Host.Outcome State Fault Refusal :=
  s.runEach (.fence o sc) (fun _ _ => []) Slice.m0 fun s x e =>
    let w := s.widen x sc
    if !s.releaseReady x (if o.isRel then w else .slice) then (s, .stay x)
    else
      let s := if o.isRel then s.releaseAt e x w else s
      let s := if o.isAcq then s.acquireAt e w else s
      (s, .done ((x.stepLatch []).next (.fence o sc)))

/-- Write a line of a quad back and keep it, clean. -/
def State.cleanLine (s : State) (quad line : Nat) : State :=
  match s.quadLine? quad line with
  | some l => s.quadWriteBack l
  | none => s

/-- CFLUSH of a line at a scope (R289), after the writes of its quad, in their order (R110), and its updates to the line
(R127). -/
def State.flushLine (s : State) (core : Nat) (sc : Scope) (line : Nat) : State :=
  let s := if 3 ≤ sc.rank then ((s.drainQuad (quadOfCore core)).applyFor core line).cleanLine (quadOfCore core) line else s
  if 5 ≤ sc.rank then (s.dieWriteBack line false).settleMsc line else s

/-- CINV of a line at a scope (R289). -/
def State.dropLine (s : State) (core : Nat) (sc : Scope) (line : Nat) : State :=
  if 3 ≤ sc.rank then s.quadDrop (quadOfCore core) line
  else s.onCaches fun c => { c with l1 := c.l1.filter fun l => !(l.core == core && l.addr == line) }

/-- A cache operation on the line of each taking lane; windows and remote parts are left alone. -/
def State.cacheOp (s : State) (i : Instr) (p : Option Pfx) (a : Opnd) (m : BitVec 8) (f : State → Nat → Scope → Nat → State) :
    Host.Outcome State Fault Refusal :=
  let pair := fun (x : Slice) e => x.readPair e s.clock true a
  s.runStore i p (fun x e => [(pair x e).1, (pair x e).2])
    (fun x e take => laneAddrs (pair x e) take (scaled m 64) 1) 1 { kind := .load } 3 (fun _ => true) (fun _ _ => []) (fun _ => [])
    fun s q ms => ms.foldl (fun s mp => match mp.home with
      | .stack _ => f s q.env.core (s.widen q.slice (pfxScope p)) (mp.pa / 64 * 64)
      | _ => s) s

def execCflush (p : Option Pfx) (a : Opnd) (m : BitVec 8) (s : State) : Host.Outcome State Fault Refusal :=
  s.cacheOp (.cflush p a m) p a m State.flushLine

def execCinv (p : Option Pfx) (a : Opnd) (m : BitVec 8) (s : State) : Host.Outcome State Fault Refusal :=
  s.cacheOp (.cinv p a m) p a m State.dropLine

/-- The translations of lanes for an instruction that never faults: none for one that fails; and the walks to be asked for. -/
def State.quietLanes (s : State) (p : Party) : List LaneAddr → State × List (DWord × Found) × List Ask
  | [] => (s, [], [])
  | a :: rest =>
    let (s, f) := s.findQuiet p { kind := .load } a.va
    let (s, fs, asks) := State.quietLanes s p rest
    (s, (a.va, f) :: fs, (match f with | .held (.miss q) => [q] | _ => []) ++ asks)

/-- The same for every slice of a gang. -/
def State.quietAll (s : State) : List Member → State × List (Member × List (DWord × Found) × List Ask)
  | [] => (s, [])
  | m :: ms =>
    let (s, fs, asks) := s.quietLanes (m.env.party m.slice.uid) m.addrs
    let (s, qs) := State.quietAll s ms
    (s, (m, fs, asks) :: qs)

/-- Run a line operation that never faults: the gang waits while a walk of one of its lanes is under way; `perform` gets
each member with what its lanes found. -/
def State.runQuiet (s : State) (i : Instr) (p : Option Pfx) (a : Opnd) (m : BitVec 8)
    (perform : State → Member → List (DWord × Found) → State) : Host.Outcome State Fault Refusal :=
  let pair := fun (x : Slice) e => x.readPair e s.clock true a
  s.issue fun s =>
    let ms := s.members p fun x e take => laneAddrs (pair x e) take (scaled m 64) 1
    let traps := s.memTraps i (fun x e => [(pair x e).1, (pair x e).2]) 1 ms
    if traps ≠ [] then (s.clearDeclines (traps.map (·.1))).takeTraps traps
    else if ms.any fun q => q.slice.mustWait q.addrs then s
    else
      let (s, qs) := s.quietAll ms
      if qs.any fun q => !q.2.2.isEmpty then
        qs.foldl (fun s q => if q.2.2.isEmpty then s
          else (q.2.2.foldl State.openMiss s).onSlice q.1.slice.uid fun x => { x with status := .missWait }) s
      else (qs.foldl (fun s q => (perform s q.1 q.2.1).clearDeclined (.slice q.1.slice.uid)) s).partIfApart s.cur

/-- A mapping that was found. -/
def Found.map? : Found → Option Mapping
  | .ok m => some m
  | _ => none

/-- Pin a line (R118): the code returned. -/
def State.pinLine (s : State) (e : Env) (m : Mapping) : State × Nat :=
  let quad := quadOfCore e.core
  let line := m.pa / 64 * 64
  match m.home with
  | .stack _ =>
    if m.cpol = 2 then (s, 1)
    else if ((s.quadLine? quad line).bind (·.pin)).isSome then (s, 0)
    else
      let pinned := s.caches.quadLines.filter fun l => l.quad == quad && l.pin.isSome
      if 15 ≤ (pinned.filter fun l => l.addr / 64 % 32768 == line / 64 % 32768).length then (s, 1)
      else if (s.ctxOf e.ctx).pinQuota.toNat ≤ (pinned.filter fun l => l.pin == some e.ctx).length then (s, 2)
      else
        let s := s.quadFill quad line (true, true) (!m.shared) .normal
        (s.onCaches fun c =>
          { c with quadLines := updateWhere (·.at quad line) (fun l => { l with pin := some e.ctx, pinCore := e.core }) c.quadLines }, 0)
  | _ => (s, 1)

/-- Release a pin, of a line that the quad cache may hold (R118). -/
def State.unpinLine (s : State) (e : Env) (m : Mapping) : State :=
  match m.home with
  | .stack _ =>
    if m.cpol = 2 then s
    else
      s.onCaches fun c =>
        { c with quadLines := updateWhere (·.at (quadOfCore e.core) (m.pa / 64 * 64)) (fun l => { l with pin := none }) c.quadLines }
  | _ => s

/-- Go through what the taking lanes found, in gang lane order, with an operation that gives each a word. -/
def State.laneWords (s : State) (f : State → DWord → Found → State × Word) : List (DWord × Found) → State × List Word
  | [] => (s, [])
  | q :: rest =>
    let (s, w) := f s q.1 q.2
    let (s, ws) := State.laneWords s f rest
    (s, w :: ws)

/-- A line operation that never faults and writes each lane's code. -/
def State.lineOp (s : State) (i : Instr) (p : Option Pfx) (d : Dst) (a : Opnd) (m : BitVec 8)
    (f : Member → State → DWord → Found → State × Word) (h : Bool := false) : Host.Outcome State Fault Refusal :=
  let pair := fun (x : Slice) e => x.readPair e s.clock true a
  s.runQuiet i p a m fun s q fs =>
    let (s, ws) := s.laneWords (f q) fs
    s.retireMem i q.slice.uid p d (laneRegs 1 ((q.addrs.map (·.lane)).zip (ws.map fun w => [{ val := w }])))
      (heldOf h [(pair q.slice q.env).1, (pair q.slice q.env).2])

def execPin (p : Option Pfx) (d : Dst) (a : Opnd) (m : BitVec 8) (s : State) : Host.Outcome State Fault Refusal :=
  s.lineOp (.pin p d a m) p d a m fun q s _ found =>
    match found.map? with
    | some mp => let (s, code) := s.pinLine q.env mp; (s, BitVec.ofNat 32 code)
    | none => (s, 1)

def execUnpin (p : Option Pfx) (d : Dst) (a : Opnd) (m : BitVec 8) (s : State) : Host.Outcome State Fault Refusal :=
  s.lineOp (.unpin p d a m) p d a m fun q s _ found =>
    match found.map? with
    | some mp => (s.unpinLine q.env mp, 0)
    | none => (s, 0)

/-- PREF brings a line toward the slice under its policy (R291). -/
def State.prefetch (s : State) (core : Nat) (m : Mapping) (cp : Nat) : State :=
  match m.home with
  | .stack _ =>
    match policyOf m.cpol cp with
    | .uncached => s
    | .bypass | .noAlloc => (s.homeLine (m.pa / 64 * 64) (true, true) .normal).1
    | pol => (s.quadRead core (m.pa / 64 * 64) 64 (!m.shared) pol).1
  | _ => s

/-- PREF has no register result: its slices go on. -/
def execPref (p : Option Pfx) (a : Opnd) (m : BitVec 8) (s : State) : Host.Outcome State Fault Refusal :=
  s.runQuiet (.pref p a m) p a m fun s q fs =>
    let s := (fs.filterMap fun f => f.2.map?).foldl (fun s mp => s.prefetch q.env.core mp (pfxCp p)) s
    s.retireMem (.pref p a m) q.slice.uid none .zero [] []

/-! ### WAITW (R292) -/

/-- What a WAITW's read of a remote word travels as (R292, R427). -/
def watchInstr : Instr := .ld none .w32 .zero .zero 0

/-- Read the watched words of a member at their points of coherence. -/
def State.watchLanes (s : State) (m : Member) (ms : List Mapping) : State × List (Nat × List LaneWord) :=
  let (s, vs) := s.loadLanes watchInstr none m.env.core m.slice.uid .w32 3 (m.addrs.zip ms)
  (s.endRemotes m.slice.uid watchInstr none, vs)

def State.watchAll (s : State) : List (Member × Tr) → State × List (Member × List (Nat × List LaneWord))
  | [] => (s, [])
  | t :: ts =>
    let (s, v) := s.watchLanes t.1 t.2.maps
    let (s, vs) := State.watchAll s ts
    (s, (t.1, v) :: vs)

/-- The watched words differ from d, or the limit has passed. -/
def State.watchEnds (s : State) (d : Dst) (vs : List (Member × List (Nat × List LaneWord))) : Bool :=
  vs.any fun q =>
    (q.2.any fun v => (nth {} v.2 0) != (q.1.slice.readOpnd q.1.env s.clock d.asOpnd).lane v.1) ||
    (match q.1.slice.since with
     | some c => decide (q.1.slice.limit.toNat ≤ (s.clock - c).toNat)
     | none => false)

/-- A slice that waits at a WAITW, under the WAITW_LIMIT of its beginning (R349). -/
def State.watches (s : State) (x : Slice) : Slice :=
  let begun := x.since.isSome
  { x.waiting s.clock with status := .inWaitw, limit := if begun then x.limit else (s.ctxOf (s.env x).ctx).waitwLimit }

/-- WAITW: it completes when a word differs or at the limit; until then the gang waits, polling again. -/
def execWaitw (p : Option Pfx) (d : Dst) (a : Opnd) (m : BitVec 8) (s : State) : Host.Outcome State Fault Refusal :=
  let i : Instr := .waitw p d a m
  let pair := fun (x : Slice) e => x.readPair e s.clock true a
  s.runMem i p (fun x e => [(pair x e).1, (pair x e).2, x.readOpnd e s.clock d.asOpnd])
    (fun x e take => laneAddrs (pair x e) take (scaled m 4) 4) 4 { kind := .load } 3 (fun _ => true) none
    (fun s ts => s.awaitRemotes watchInstr none (fun _ _ => []) ts)
    fun s ts =>
      let (s, vs) := s.watchAll ts
      if s.watchEnds d vs then
        vs.foldl (fun s q => s.retireMem i q.1.slice.uid p d (laneRegs 1 q.2) []) s
      else { s with slices := s.slices.map fun (x : Slice) => if s.cur.contains x.uid then s.watches x else x }

/-! ### Bound registers (R293, R150) -/

def BoundRegs.of (b : BoundRegs) (quad ctx : Nat) : Bool := b.quad == quad && b.ctx == ctx

/-- Register k of a quad for a context: 0 until it is written. Contexts that share a quad have registers of their own
(DESIGN CHOICE, log 84). -/
def State.bound (s : State) (quad ctx k : Nat) : Word :=
  match s.bounds.find? (·.of quad ctx) with
  | some b => nth 0 b.regs k
  | none => 0

/-- Put the registers of a quad for a context in place. -/
def State.putBounds (s : State) (quad ctx : Nat) (ws : List Word) : State :=
  { s with bounds := { quad := quad, ctx := ctx, regs := ws } :: s.bounds.filter fun b => !b.of quad ctx }

def State.setBound (s : State) (quad ctx k : Nat) (w : Word) : State :=
  s.putBounds quad ctx (setNth (((s.bounds.find? (·.of quad ctx)).map (·.regs)).getD (List.replicate 16 0)) k w)

/-- Lanes in gang lane order, each on the origin quad's register b[3:0]: the old values. -/
def State.boundLanes (s : State) (quad ctx : Nat) (reg val : Nat → Word) (f : Word → Word → Word) : List Nat → State × List (Nat × List LaneWord)
  | [] => (s, [])
  | l :: ls =>
    let k := (reg l).toNat % 16
    let old := s.bound quad ctx k
    let s := s.setBound quad ctx k (f old (val l))
    let (s, vs) := State.boundLanes s quad ctx reg val f ls
    (s, (l, [{ val := old }]) :: vs)

/-- A bound-register instruction. -/
def State.boundOp (s : State) (i : Instr) (p : Option Pfx) (d : Option Dst) (a b : Opnd) (held : Slice → Env → List Reg)
    (f : Word → Word → Word) : Host.Outcome State Fault Refusal :=
  s.issue fun s =>
    let ms := s.members p fun _ _ _ => []
    let traps := s.memTraps i (fun x e => [x.readOpnd e s.clock a, x.readOpnd e s.clock b]) 1 ms
    if traps ≠ [] then (s.clearDeclines (traps.map (·.1))).takeTraps traps
    else
      (ms.foldl (fun s q =>
        let ra := q.slice.readOpnd q.env s.clock a
        let rb := q.slice.readOpnd q.env s.clock b
        let (s, vs) := s.boundLanes (quadOfCore q.env.origin) q.env.ctx rb.val ra.val f (maskLanes q.take)
        s.retireMem i q.slice.uid p (d.getD .zero) (if d.isSome then laneRegs 1 vs else []) (held q.slice q.env)) s).partIfApart s.cur

def execQmin (p : Option Pfx) (d : Dst) (a b : Opnd) (h : Bool) (s : State) : Host.Outcome State Fault Refusal :=
  s.boundOp (.qmin p d a b h) p (some d) a b (fun x e => heldOf h [x.readOpnd e s.clock a]) fun old v =>
    if old.toInt ≤ v.toInt then old else v

def execQmax (p : Option Pfx) (d : Dst) (a b : Opnd) (h : Bool) (s : State) : Host.Outcome State Fault Refusal :=
  s.boundOp (.qmax p d a b h) p (some d) a b (fun x e => heldOf h [x.readOpnd e s.clock a]) fun old v =>
    if v.toInt ≤ old.toInt then old else v

def execQget (p : Option Pfx) (d : Dst) (b : Opnd) (s : State) : Host.Outcome State Fault Refusal :=
  s.boundOp (.qget p d b) p (some d) .zero b (fun _ _ => []) fun old _ => old

def execQset (p : Option Pfx) (a b : Opnd) (h : Bool) (s : State) : Host.Outcome State Fault Refusal :=
  s.boundOp (.qset p a b h) p none a b (fun x e => heldOf h [x.readOpnd e s.clock a]) fun _ v => v

end Sys2Proof.Machine
end

