-- ==== Sys2Proof/Machine/Mbar.lean ====
section
/-! DEFINITION. Barrier objects: their operations, their waiters and the MBAR instructions
(spec/07_scratchpad_and_copies.md R165-R170; spec/13_instr_memory_matrix.md R303, R304). -/

namespace Sys2Proof.Machine

/-! ### The object (R165) -/

structure Mbar where
  pending : Word
  left : Nat
  expected : Nat
  phase : Bool
  state : Nat
  gen : Nat
  err : Nat
  stale : Nat
  rest : Word
  deriving DecidableEq, Repr

def Mbar.ofBytes (bs : List Byte) : Mbar :=
  let w1 := (le32 bs 4).toNat
  let w2 := (le32 bs 8).toNat
  { pending := le32 bs 0, left := field w1 16 16, expected := field w1 0 16, phase := bit w2 31, state := field w2 28 3,
    gen := field w2 20 8, err := field w2 16 4, stale := field w2 0 16, rest := le32 bs 12 }

def Mbar.bytes (m : Mbar) : List Byte :=
  wordBytes m.pending ++ u32 (m.left % 2 ^ 16 * 2 ^ 16 + m.expected % 2 ^ 16) ++
  u32 (b2n m.phase * 2 ^ 31 + m.state % 8 * 2 ^ 28 + m.gen % 256 * 2 ^ 20 + m.err % 16 * 2 ^ 16 + m.stale % 2 ^ 16) ++
  wordBytes m.rest

def mbarIdle : Nat := 0
def mbarArmed : Nat := 1
def mbarComplete : Nat := 2
def mbarInvalid : Nat := 3
def mbarOverrun : Nat := 4

/-- States 5 to 7 act as invalid (R165). -/
def Mbar.dead (m : Mbar) : Bool := m.state == mbarIdle || m.state == mbarInvalid || decide (5 ≤ m.state)

def Mbar.finished (m : Mbar) : Bool := m.state == mbarComplete || m.state == mbarOverrun

/-! ### The status word (R169) -/

/-- Status codes of o13[2:0]. -/
def stComplete : Nat := 0
def stOverrun : Nat := 1
def stInvalid : Nat := 2
def stIdle : Nat := 3
def stPending : Nat := 4

def Mbar.statusWord (m : Mbar) (status err : Nat) : Word :=
  BitVec.ofNat 32 (m.stale % 2 ^ 16 * 2 ^ 16 + b2n m.phase * 2 ^ 8 + err % 16 * 2 ^ 4 + status)

/-- What a wait with parity p reports if it returns on reading the object: status and ERR; none while it waits. -/
def Mbar.answer (m : Mbar) (p : Bool) : Option (Nat × Nat) :=
  if m.state = mbarIdle then some (stIdle, 0)
  else if m.dead then some (stInvalid, m.err)
  else if m.phase = p then none
  else if m.state = mbarOverrun then some (stOverrun, m.err)
  else if m.state = mbarComplete then some (stComplete, m.err)
  else some (stComplete, 0)

/-! ### The operations (R168) -/

/-- What an operation does: the object after it, the wait status handed to the waiters with the object as they report it
and the ERR, and whether it overran. -/
structure MbarEffect where
  obj : Mbar
  release : Option (Mbar × Nat × Nat) := none
  overran : Bool := false
  deriving DecidableEq, Repr

/-- MBAR.INIT with a count (R168, R303). -/
def Mbar.init (m : Mbar) (count : Word) : MbarEffect :=
  let n := if 65535 < count.toNat then 0 else count.toNat
  { obj := { pending := 0, left := n, expected := n, phase := false, state := if n = 0 then mbarInvalid else mbarArmed,
             gen := (m.gen + 1) % 256, err := if n = 0 then 12 else 0, stale := 0, rest := m.rest },
    release := some (m, stInvalid, 0) }

/-- MBAR.INVAL. -/
def Mbar.inval (m : Mbar) : MbarEffect :=
  { obj := { m with gen := (m.gen + 1) % 256, state := mbarInvalid, err := 0 }, release := some (m, stInvalid, 0) }

def Mbar.rearm (m : Mbar) : Mbar :=
  if m.finished then { m with left := m.expected, pending := 0, err := 0, state := mbarArmed } else m

/-- A copy's charge. -/
def Mbar.charge (m : Mbar) (b : Nat) : MbarEffect :=
  if m.dead then { obj := m }
  else
    let m := m.rearm
    if (2 ^ 31 - 1 : Int) < m.pending.toInt + b then { obj := { m with pending := 0x7FFFFFFF, state := mbarOverrun }, overran := true }
    else { obj := { m with pending := m.pending + BitVec.ofNat 32 b } }

/-- An arrival. -/
def Mbar.arrive (m : Mbar) (a : Arrival) : MbarEffect :=
  let old := match a.gen with
    | some g => g.toNat != m.gen
    | none => false
  if m.dead || old then
    { obj := if a.gen.isSome then { m with stale := Nat.min (m.stale + 1) 0xFFFF } else m }
  else
    let m := m.rearm
    let m := if m.err = 0 then { m with err := a.err } else m
    let tooMany := if a.bytes then decide (m.pending.toInt < (a.n : Int)) else decide (m.left < a.n)
    let m := match a.bytes, tooMany with
      | true, true => { m with pending := 0, state := mbarOverrun }
      | true, false => { m with pending := m.pending - BitVec.ofNat 32 a.n }
      | false, true => { m with left := 0, state := mbarOverrun }
      | false, false => { m with left := m.left - a.n }
    if m.left = 0 ∧ m.pending = 0 then
      let m := { m with phase := !m.phase, state := if m.state = mbarArmed then mbarComplete else m.state }
      { obj := m, release := some (m, if m.state = mbarOverrun then stOverrun else stComplete, m.err), overran := tooMany }
    else { obj := m, overran := tooMany }

/-! ### At the home (R166) -/

/-- A lane's wait returns with a status and ERR; the predicate is true for complete with ERR 0. -/
def waitDone (m : Mbar) (status err : Nat) : LaneWord × Bool × Bool :=
  ({ val := m.statusWord status err }, status == stComplete && err == 0, status == stComplete || status == stOverrun)

/-- A lane whose object is poisoned (R166). -/
def waitPoison : LaneWord × Bool × Bool := ({ poison := true }, false, false)

/-- Wake every waiter of an object. -/
def State.wakeMbar (s : State) (key : Nat) (w : LaneWord × Bool × Bool) : State :=
  { s with slices := s.slices.map fun (x : Slice) =>
      if x.mbar.isEmpty then x
      else { x with mbar := updateWhere (fun l => l.key == key && l.got.isNone) (fun l => { l with got := some w }) x.mbar } }

/-- Read an object at its home, as an operation of a core or of an engine of a base die. -/
def State.readMbar (s : State) (core : Option Nat) (m : Mapping) : State × Option Mbar :=
  let (s, bs, poison) := s.pkgRead core m.pa 16 (policyOf m.cpol 0)
  (s, if poison then none else some (Mbar.ofBytes bs))

/-- One operation on an object: the object before it, and its effect, unless poison stopped it. -/
def State.mbarOp (s : State) (core : Option Nat) (m : Mapping) (f : Mbar → MbarEffect) : State × Option (Mbar × MbarEffect) :=
  match s.readMbar core m with
  | (s, none) => (s.wakeMbar (memKey m.pa) waitPoison, none)
  | (s, some o) =>
    let r := f o
    let s := if r.obj = o then s else s.pkgWrite core m.pa r.obj.bytes (policyOf m.cpol 0)
    let s := match r.release with
      | some (w, status, err) => s.wakeMbar (memKey m.pa) (waitDone w status err)
      | none => s
    (s, some (o, r))

/-- The unit that posts for a party: its die, or a base die. -/
def Party.source (p : Party) : Byte := p.unit.source

/-- Post an overrun (R168, R423). -/
def State.postOverrun (s : State) (p : Party) (va : DWord) (gen : Nat) : State :=
  s.postMemory p.source 1 (some p.ctx) p.unit.core? va (BitVec.ofNat 64 gen)

/-- Post an arrival or charge lost at a poisoned object (R166). -/
def State.postLost (s : State) (p : Party) (va : DWord) (gen : Option Byte) : State :=
  s.postMemory p.source 4 (some p.ctx) p.unit.core? va (BitVec.ofNat 64 (gen.map (·.toNat) |>.getD 0))

/-- An operation by a party on the object at a mapped address: overruns and losses are posted. -/
def State.mbarAct (s : State) (p : Party) (va : DWord) (m : Mapping) (engine : Bool) (gen : Option Byte) (f : Mbar → MbarEffect) : State :=
  match s.mbarOp p.unit.core? m f with
  | (s, none) => if engine then s.postLost p va gen else s
  | (s, some (_, r)) => if r.overran then s.postOverrun p va r.obj.gen else s

/-- Take a pending arrival out: made, or its fault declined (log entry 15). -/
def State.dropArrival (s : State) (id : Nat) : State := s.onCaches fun c => { c with arrivals := c.arrivals.filter (·.id != id) }

def PendingArrival.party (f : PendingArrival) : Party := { who := .arrival f.id, unit := f.unit, ctx := f.ctx, alias_ := f.alias_ }

/-- Make an arrival at its object, or leave it until its walk has ended, its fault is served, or the bytes of a saved
workgroup are back (R22, R26, R406). -/
def State.tryArrival (s : State) (f : PendingArrival) : State :=
  match s.find f.party { kind := .atomic, wr := true } f.va with
  | (s, .ok m) => (s.mbarAct f.party f.va m f.engine f.arrival.gen fun o => o.arrive f.arrival).dropArrival f.id
  | (s, .fault sub level) =>
    let a := f.party.ask { kind := .atomic, wr := true } f.va
    s.parkFault [a] a sub level
  | (s, .held (.miss a)) => s.openMiss a
  | (s, _) => s

/-- Make the arrivals again that wait for no walk and no service, in their order. -/
def State.retryArrivals (s : State) : State :=
  s.caches.arrivals.foldl (fun s f => if s.isParked (.arrival f.id) || s.isMissing (.arrival f.id) then s else s.tryArrival f) s

/-- A new arrival at an object, for the workgroup that its maker acts for. -/
def State.arriveFor (s : State) (p : Party) (va : DWord) (engine : Bool) (a : Arrival) : State :=
  let (id, s) := s.fresh
  let f : PendingArrival :=
    { id := id, unit := p.unit, ctx := p.ctx, alias_ := p.alias_, va := va, engine := engine, arrival := a }
  (s.onCaches fun c => { c with arrivals := c.arrivals ++ [f] }).tryArrival f

/-- An arrival of an engine, which translates its object's address afresh. -/
def State.engineArriveAt (s : State) (p : Party) (va : DWord) (a : Arrival) : State :=
  match a.gen with
  | none => s.postLost p va none
  | some _ => s.arriveFor p va true a

/-- The same where a zero address names no object. -/
def State.engineArrive (s : State) (p : Party) (va : DWord) (a : Arrival) : State :=
  if va = 0 then s else s.engineArriveAt p va a

/-- The arrival that the end of a launch makes at its DONE_MBAR: a thread's, of count 1 (R359); a zero address names
none. -/
def State.doneArrive (s : State) (p : Party) (va : DWord) : State :=
  if va = 0 then s else s.arriveFor p va false { bytes := false, n := 1, gen := none, err := 0 }

/-! ### The instructions (R303, R304) -/

/-- An arrival publishes what its slice has stored by ACCST (R143). -/
def publishes (i : Instr) : Bool :=
  match i with
  | .mbarArrive _ _ _ _ => true
  | _ => false

/-- An operation of every taking lane without a result. -/
def State.mbarLanes (s : State) (i : Instr) (p : Option Pfx) (a : Opnd) (srcs : Slice → Env → List Reg) (held : Slice → Env → List Reg)
    (rel : Bool) (act : Slice → Env → Nat → Mbar → MbarEffect) (skip : Slice → Env → Nat → Bool)
    (data : Slice → Env → Nat → List LaneWord) : Host.Outcome State Fault Refusal :=
  let pair := fun (x : Slice) e => x.readPair e s.clock true a
  s.runStore i p (fun x e => [(pair x e).1, (pair x e).2] ++ srcs x e)
    (fun x e take => laneAddrs (pair x e) take 0 16) 16 { kind := .atomic, wr := true } 3
    (fun q => (!rel || s.releaseReady q.slice (s.widen q.slice (pfxScope p))) && !(publishes i && s.storesSet q.slice)) (fun q l => data q.slice q.env l)
    (fun q => held q.slice q.env)
    fun s q ms =>
      let s := if rel then s.releaseAt q.env q.slice (s.widen q.slice (pfxScope p)) else s
      (q.addrs.zip ms).foldl (fun s t =>
        if skip q.slice q.env t.1.lane then s
        else s.mbarAct (q.env.party q.slice.uid) t.1.va t.2 false none (act q.slice q.env t.1.lane)) s

def execMbarInit (a b : Opnd) (h : Bool) (s : State) : Host.Outcome State Fault Refusal :=
  let n := fun (x : Slice) e => x.readOpnd e s.clock b
  s.mbarLanes (.mbarInit a b h) none a (fun x e => [n x e])
    (fun x e => let q := x.readPair e s.clock true a; heldOf h [q.1, q.2]) false
    (fun x e l o => o.init ((n x e).val l)) (fun _ _ _ => false) (fun x e l => [(n x e).lane l])

/-- A thread arrival of a count; 0 performs nothing. -/
def execMbarArrive (p : Option Pfx) (a b : Opnd) (h : Bool) (s : State) : Host.Outcome State Fault Refusal :=
  let n := fun (x : Slice) e => x.readOpnd e s.clock b
  s.mbarLanes (.mbarArrive p a b h) p a (fun x e => [n x e])
    (fun x e => let q := x.readPair e s.clock true a; heldOf h [q.1, q.2]) (pfxOrder p).isRel
    (fun x e l o => o.arrive { bytes := false, n := ((n x e).val l).toNat, gen := none, err := 0 })
    (fun x e l => (n x e).val l == 0) (fun x e l => [(n x e).lane l])

def execMbarInval (a : Opnd) (h : Bool) (s : State) : Host.Outcome State Fault Refusal :=
  s.mbarLanes (.mbarInval a h) none a (fun _ _ => [])
    (fun x e => let q := x.readPair e s.clock true a; heldOf h [q.1, q.2]) false (fun _ _ _ o => o.inval) (fun _ _ _ => false) (fun _ _ _ => [])

/-- What a lane learns of its object: its answer, none while it waits, and the word of MBAR.TEST then. -/
structure LaneAsk where
  lane : Nat
  key : Nat
  got : Option (LaneWord × Bool × Bool)
  pending : Word := 0
  deriving DecidableEq, Repr

/-- Read the objects of a member's lanes. -/
def State.askLanes (s : State) (q : Member) (parity : Nat → Bool) : List (LaneAddr × Mapping) → State × List LaneAsk
  | [] => (s, [])
  | (a, m) :: rest =>
    let key := memKey m.pa
    let (s, r) : State × LaneAsk := match q.slice.mbar.find? (·.lane == a.lane) with
      | some l => (s, { lane := a.lane, key := key, got := l.got })
      | none =>
        match s.mbarOp q.env.core m (fun o => { obj := o }) with
        | (s, none) => (s, { lane := a.lane, key := key, got := some waitPoison })
        | (s, some (o, _)) =>
          (s, { lane := a.lane, key := key, got := (o.answer (parity a.lane)).map fun r => waitDone o r.1 r.2,
                pending := o.statusWord stPending 0 })
    let (s, rs) := State.askLanes s q parity rest
    (s, r :: rs)

def State.askAll (s : State) (parity : Slice → Env → Nat → Bool) : List (Member × Tr) → State × List (Member × List LaneAsk)
  | [] => (s, [])
  | t :: ts =>
    let (s, v) := s.askLanes t.1 (parity t.1.slice t.1.env) (t.1.addrs.zip t.2.maps)
    let (s, vs) := State.askAll s parity ts
    (s, (t.1, v) :: vs)

/-- What a lane writes on retiring: its answer, or status pending for MBAR.TEST. -/
def LaneAsk.word (r : LaneAsk) : LaneWord × Bool × Bool := r.got.getD ({ val := r.pending }, false, false)

/-- Write o13 and the predicate of the taking lanes, acquire when a completion was observed, and retire (R304). The acquire
drops what its quad holds at any scope, since the engine that arrived stands in the slice's own units while its writes
have gone to their homes (R120, R144, R145). -/
def State.mbarRetire (s : State) (i : Instr) (p : Option Pfx) (k : BitVec 3) (held : Slice → Env → List Reg) (q : Member)
    (rs : List LaneAsk) : State :=
  let s := if (pfxOrder p).isAcq && rs.any (·.word.2.2) then s.acquireAt q.env .pkg else s
  let at_ := fun l => rs.find? (·.lane == l)
  s.onSlice q.slice.uid fun x =>
    let take := maskOf fun l => (at_ l).isSome
    let pred := maskOf fun l => ((at_ l).map (·.word.2.1)).getD false
    let x := x.putSof 13 take fun l => ((at_ l).map (·.word.1)).getD {}
    let x := x.setMask k.toNat (mergeMask (x.mask k.toNat) pred take false)
    ((x.stepLatch (held q.slice q.env)).next i).retired

/-- MBAR.WAIT and MBAR.TEST: the wait ends with the last of its lanes; the test never waits. -/
def State.mbarWatch (s : State) (i : Instr) (p : Option Pfx) (k : BitVec 3) (a b : Opnd) (h test : Bool) : Host.Outcome State Fault Refusal :=
  let pair := fun (x : Slice) e => x.readPair e s.clock true a
  let parity := fun (x : Slice) e l => ((x.readOpnd e s.clock b).val l).getLsbD 0
  let held := fun (x : Slice) e => heldOf h [(pair x e).1, (pair x e).2]
  s.runMem i p (fun x e => [(pair x e).1, (pair x e).2, x.readOpnd e s.clock b])
    (fun x e take => laneAddrs (pair x e) take 0 16) 16 { kind := .atomic } 3
    (fun q => !(pfxOrder p).isAcq || q.slice.lasting.isEmpty) none (fun s _ => (s, true))
    fun s ts =>
      let (s, vs) := s.askAll parity ts
      if test || vs.all fun q => q.2.all (·.got.isSome) then vs.foldl (fun s q => s.mbarRetire i p k held q.1 q.2) s
      else
        vs.foldl (fun s q => s.onSlice q.1.slice.uid fun x =>
          { x with mbar := q.2.map fun r => { lane := r.lane, key := r.key, got := r.got } }) s.waitGang

def execMbarWait (p : Option Pfx) (k : BitVec 3) (a b : Opnd) (h : Bool) (s : State) : Host.Outcome State Fault Refusal :=
  s.mbarWatch (.mbarWait p k a b h) p k a b h false

def execMbarTest (p : Option Pfx) (k : BitVec 3) (a b : Opnd) (h : Bool) (s : State) : Host.Outcome State Fault Refusal :=
  s.mbarWatch (.mbarTest p k a b h) p k a b h true

end Sys2Proof.Machine
end

