-- ==== Sys2Proof/Machine/Control.lean ====
section
/-! DEFINITION. Branches, divergence, calls, returns and gangs (spec/14_instr_control.md R306-R320). -/

namespace Sys2Proof.Machine

/-! ### Branches (R306-R309) -/

/-- The target of a branch at an address (R228). -/
def branchTarget (pc : DWord) (o : BitVec 14) : DWord := pc + ((o.signExtend 64) <<< 1)

/-- The running path goes to a target, taking the branch (R309): overshoot, or a move with its arrival test. `limit` is
DIV_ROTATE. A PC that an entry cannot hold traps as divergence depth (R375). -/
def Slice.takeBranch (x : Slice) (entry target : DWord) (limit : Nat) : Slice ⊕ Nat :=
  let y := x.clearLocal
  let backward := decide (target.toNat ≤ x.pc.toNat)
  let y := if backward then { y with turn := y.turn + 1 } else y
  match y.topEntry with
  | none => .inl (y.land target)
  | some e =>
    if !backward && decide (e.rpc.toNat < target.toNat) then
      if !pcInReach entry target then .inr causeDepth
      else if e.otherMask = 0 then .inl (Slice.arrive 65 (y.mergePaths { e with rpc := target }))
      else .inl (y.switch { e with rpc := target } target)
    else if backward && decide (limit ≤ y.turn) && e.otherMask != 0 && !pcInReach entry target then .inr causeDepth
    else .inl (y.land target)

/-- A split at a branch (R308): the lanes of `taken` go to the target, the other active lanes to the fall-through. A target
that a rotation due there could not store traps (R375). -/
def Slice.split (x : Slice) (entry target fall : DWord) (taken : BitVec 4) (limit : Nat) : Slice ⊕ Nat :=
  let forward := decide (x.pc.toNat < target.toNat)
  let rpc := if forward then target else fall
  let run := if forward then x.m0 &&& ~~~taken else taken
  let wait := x.m0 &&& ~~~run
  let y := x.clearLocal
  let y := if forward then y else { y with turn := y.turn + 1 }
  let y' := { y with pc := if forward then fall else target, masks := setNth x.masks 0 run }
  let push :=
    if 64 ≤ x.allEntries.length || !pcInReach entry rpc then .inr causeDepth
    else
      let e : Recon := { rpc := rpc, all := x.m0, otherPc := rpc, otherMask := wait, dFmt := x.fmt, oFmt := x.fmt, fdepth := x.depth }
      .inl { y' with recon := e :: x.recon }
  if !forward && decide (limit ≤ y.turn) && !pcInReach entry target then .inr causeDepth
  else
  match x.topEntry with
  | some e =>
    if e.rpc = rpc ∧ e.otherPc = rpc then .inl (y'.setEntry { e with otherMask := e.otherMask ||| wait }) else push
  | none => push

/-- A branch of a slice whose lanes `taken`, of m0, take it. -/
def State.branch (s : State) (i : Instr) (o : BitVec 14) (e : Env) (x y : Slice) (taken : BitVec 4) : State × Out :=
  let target := branchTarget x.pc o
  let entry := e.launch.pkt.entry
  if taken = 0 then s.withRx e x ((y.stepLatch []).next i)
  else
    let limit := (s.ctxOf e.ctx).divRotate.toNat
    let r := if taken = x.m0 ∨ target = x.after i then y.takeBranch entry target limit
      else y.split entry target (x.after i) taken limit
    match r with
    | .inl z => s.withRx e x z
    | .inr cause => (s, .trap (trapAt cause x.pc))

/-- A conditional branch: which lanes of m0 take it, from the condition register. -/
def State.branchOn (s : State) (i : Instr) (o : BitVec 14) (a : Opnd) (f : BitVec 4 → BitVec 4 → BitVec 4) :
    Host.Outcome State Fault Refusal :=
  s.runEach i (fun x e => [x.readOpnd e s.clock a]) Slice.m0 fun s x e =>
    let r := x.readOpnd e s.clock a
    let cond := x.m0 &&& maskOf fun l => r.val l != 0
    s.branch i o e x x (f x.m0 cond)

def execBra (o : BitVec 14) (s : State) : Host.Outcome State Fault Refusal :=
  s.runEach (.bra o) (fun _ _ => []) Slice.m0 fun s x e => s.branch (.bra o) o e x x x.m0

def execBany (o : BitVec 14) (a : Opnd) (s : State) : Host.Outcome State Fault Refusal :=
  s.branchOn (.bany o a) o a fun m c => if c = 0 then 0 else m

def execBall (o : BitVec 14) (a : Opnd) (s : State) : Host.Outcome State Fault Refusal :=
  s.branchOn (.ball o a) o a fun m c => if c = m then m else 0

def execBnone (o : BitVec 14) (a : Opnd) (s : State) : Host.Outcome State Fault Refusal :=
  s.branchOn (.bnone o a) o a fun m c => if c = 0 then m else 0

def execBdiv (o : BitVec 14) (a : Opnd) (s : State) : Host.Outcome State Fault Refusal :=
  s.branchOn (.bdiv o a) o a fun _ c => c

end Sys2Proof.Machine

namespace Sys2Proof

/-- A BLOOP counter as a destination. -/
def Opnd.asDst : Opnd → Dst
  | .v i => .v i
  | .o i => .o i
  | _ => .zero

end Sys2Proof

namespace Sys2Proof.Machine

/-- BLOOP: the counter decrements as an ISUB of uniform 1 under m0, then the branch takes effect (R306). -/
def execBloop (o : BitVec 14) (a : Opnd) (s : State) : Host.Outcome State Fault Refusal :=
  s.runEach (.bloop o a) (fun x e => [x.readOpnd e s.clock a]) Slice.m0 fun s x e =>
    let r := x.readOpnd e s.clock a
    let r' := match affineSum .i32 false true [r] [.u 1] with
      | some q => q
      | none => mkReg r.isUniform fun l => r.val l - 1
    let y := x.writeResult a.asDst [r'] x.m0 false
    s.branch (.bloop o a) o e x y (x.m0 &&& maskOf fun l => r.val l - 1 != 0)

/-! ### Calls and returns (R312-R315) -/

/-- R185: DEMAND and ARGS that a CALL may not have. -/
def callIllegal (x : Slice) (args demand : Nat) : Bool :=
  demand == 0 || decide (12 < demand) || decide (8 * demand < args) || decide (x.frameRegs < args)

def State.callTo (s : State) (i : Instr) (x : Slice) (target : DWord) (args demand : Nat) : State × Out :=
  if callIllegal x args demand then (s, .trap (trapAt causeIllegal x.pc))
  else if target.getLsbD 0 then (s, .trap (trapOn causeMisaligned x.pc target))
  else (s, s.doCall x target (x.after i) args demand id)

def execCall (o : BitVec 14) (args demand : BitVec 4) (s : State) : Host.Outcome State Fault Refusal :=
  let i : Instr := .call o args demand
  s.runEach i (fun _ _ => []) Slice.m0 fun s x _ => s.callTo i x (branchTarget x.pc o) args.toNat demand.toNat

/-- The lowest lane of m0, as a mask. -/
def Slice.lowMask (x : Slice) : BitVec 4 := if x.m0 = 0 then 0 else 1#4 <<< lowestLane x.m0

def execCallIndirect (a : Opnd) (args demand : BitVec 4) (s : State) : Host.Outcome State Fault Refusal :=
  let i : Instr := .callIndirect a args demand
  s.runEach i (fun x e => let p := x.readPair e s.clock true a; [p.1, p.2]) Slice.lowMask fun s x e =>
    s.callTo i x (pairVal (x.readPair e s.clock true a) (lowestLane x.m0)) args.toNat demand.toNat

/-- RET (R314): with entries of the frame, or lanes that returned before, the running lanes are kept aside. -/
def execRet (s : State) : Host.Outcome State Fault Refusal :=
  s.runEach .ret (fun _ _ => []) Slice.m0 fun s x e =>
    if x.inTrapFrame then (s, .trap (trapAt causeIllegal x.pc))
    else if x.topEntry.isSome || x.returnedAt != 0 then
      let y := x.leaveLanes x.m0 (some x.depth)
      s.goOn e x { y with masks := setNth x.masks 0 0, returned := assocSet x.returned x.depth (x.returnedAt ||| x.m0) }
    else s.doRet e x x

/-- What popping frames for UNWIND comes to. -/
inductive Unwound where
  /-- the frames are popped: the slice, the return address of the last, the lanes that go on, and slots to free -/
  | popped (x : Slice) (pc : DWord) (lanes : BitVec 4) (freed : List Nat)
  /-- the outermost frame was met -/
  | outer (x : Slice) (freed : List Nat)
  /-- reading a spilled header failed -/
  | failed (g : Got Unit)
  deriving DecidableEq, Repr

/-- Pop n frames (R315); `m` collects the running lanes and those of the outermost discarded entry. -/
def State.unwindLoop (s : State) (e : Env) : Nat → Slice → DWord → BitVec 4 → List Nat → State × Unwound
  | 0, x, pc, m, freed => (s, .popped x pc m freed)
  | n + 1, x, _, m, freed =>
    let f := x.top
    let (s, h) : State × Got (Bool × DWord) := if s.frameBusy x.uid x.depth then (s, .held .busy) else match f.slot with
      | none => (s, .ok (f.outer, f.retPc))
      | some k =>
        match s.slotRead (e.party x.uid) k 0 32 with
        | (s, .ok (bs, _)) => let w := leAt bs 0 32; (s, .ok (bit w 0, BitVec.ofNat 64 (field w 1 55 * 2)))
        | (s, .fault a b c) => (s, .fault a b c)
        | (s, .held h) => (s, .held h)
        | (s, .full) => (s, .full)
    match h with
    | .ok (true, _) => (s, .outer x freed)
    | .ok (false, ret) =>
      let d := x.depth
      let gone := x.recon.takeWhile fun r => r.fdepth == d
      let m' := match gone.getLast? with
        | some r => m ||| r.all
        | none => m
      let y := { x with recon := x.recon.drop gone.length, frames := x.frames.tail, returned := x.returned.filter (·.1 != d) }
      State.unwindLoop s e n y ret m' (freed ++ f.slot.toList)
    | .fault a b c => (s, .failed (.fault a b c))
    | .held h => (s, .failed (.held h))
    | .full => (s, .failed .full)

def execUnwind (a : Opnd) (n : BitVec 8) (s : State) : Host.Outcome State Fault Refusal :=
  s.runEach (.unwind a n) (fun x e => [x.readOpnd e s.clock a]) Slice.lowMask fun s x e =>
    let code := (x.readOpnd e s.clock a).val (lowestLane x.m0)
    let trapped := match x.tstate with
      | some t => decide (x.depth < t.fdepth + 1 + n.toNat)
      | none => false
    if trapped then (s, .trap (trapAt causeIllegal x.pc))
    else
      match s.unwindLoop e n.toNat x x.pc x.m0 [] with
      | (s', .failed g) => s'.spillFailed e x g
      | (s', .outer y freed) =>
        State.freeLeft e x freed (s'.exitLanes e x y)
      | (s', .popped y pc m freed) =>
        let y := { y.clearLocal with masks := setNth y.masks 0 m }
        let y := (y.putSof 14 m fun _ => { val := code }).land pc
        State.freeLeft e x freed (s'.withTop e x y)

/-! ### Gangs (R316-R320) -/

/-- Whether a slice of a group waits with a tag. -/
def State.anyAt (s : State) (group tag : Nat) : Bool := (s.groupSlices group).any fun x => x.status == .atRegang tag

/-- A slice arrives with a tag: the first of a round begins it (R317). -/
def Group.beginRound (g : Group) (tag : Nat) (clock : DWord) (window : Word) (begun : Bool) : Group :=
  if begun then g else { g with rounds := (tag, clock, window) :: g.rounds.filter fun r => r.1 != tag }

def execRegang (tag : BitVec 8) (s : State) : Host.Outcome State Fault Refusal :=
  s.runEach (.regang tag) (fun _ _ => []) Slice.m0 fun s x e =>
    if x.topEntry.isSome || x.tstate.isSome then (s, .trap (trapAt causeIllegal x.pc))
    else
      let window := (s.ctxOf e.ctx).regangWindow
      (s.onGroup x.group fun g => g.beginRound tag.toNat s.clock window (s.anyAt x.group tag.toNat),
       .stay { x with status := .atRegang tag.toNat })

/-- Every slice of the gang goes on, changed by `f`. -/
def State.goOnAll (s : State) (i : Instr) (f : State → Slice → Slice) (after : State → State) : Host.Outcome State Fault Refusal :=
  s.issue fun s =>
    after (({ s with slices := s.slices.map fun (x : Slice) =>
      if s.cur.contains x.uid then f s ((x.stepLatch []).next i).retired else x }).partIfApart s.cur)

def execPart (s : State) : Host.Outcome State Fault Refusal :=
  s.goOnAll .part (fun _ x => x) fun s => if 1 < s.cur.length then s.partSlices s.cur else s

def execYield (s : State) : Host.Outcome State Fault Refusal :=
  s.goOnAll .yield (fun s x => { x with age := s.clock, notBefore := s.clock + 8 }) id

def execExit (s : State) : Host.Outcome State Fault Refusal :=
  s.runEach .exit (fun _ _ => []) Slice.m0 fun s x e => s.exitLanes e x x

/-- SLEEP: the gang's lowest lane gives the clocks; it stands at the next instruction meanwhile. -/
def execSleep (a : Opnd) (s : State) : Host.Outcome State Fault Refusal :=
  s.runGang (.sleep a) (fun x e => [x.readOpnd e s.clock a]) (fun _ _ => []) fun s l =>
    let n := ((l.slice.readOpnd l.env s.clock a).val l.lane).toNat
    let wake := s.clock + BitVec.ofNat 64 (Nat.min n (2 ^ 24))
    let t := s.retireGang (.sleep a) .zero [] fun _ _ => []
    ({ t with slices := t.slices.map fun (x : Slice) => if t.cur.contains x.uid then { x with status := .sleeping wake } else x }, .hold)

end Sys2Proof.Machine
end

