-- ==== Sys2Proof/Machine/Task.lean ====
section
/-! DEFINITION. Task records, deques, the range table and the task instructions (spec/14_instr_control.md R326-R334;
spec/16_scheduling.md R371-R374). An access whose translation misses waits on the miss table
(State.find) and the instruction acts again as a whole; one that stops keeps none of its effects, but for the signals of
TDONE. -/

namespace Sys2Proof.Machine

/-! ### Why an instruction stops -/

inductive Stop where
  /-- an access of a kind that does not translate -/
  | park (kind : AccessKind) (va : DWord) (subcode level : Nat)
  /-- an access that cannot be made now -/
  | held (h : Hold)
  | trap (t : TrapInfo)
  deriving DecidableEq, Repr

/-- Park a slice on a fault of an access. -/
def State.parkSlice (s : State) (e : Env) (x : Slice) (kind : AccessKind) (va : DWord) (sub level : Nat) : State × Out :=
  let a : Ask := { who := .slice x.uid, unit := .core e.core, ctx := e.ctx, va := va, kind := kind }
  (s.parkFault [a] a sub level, .stay { x with status := .faultWait })

/-- What a stop does to its slice. -/
def State.stopOut (s : State) (e : Env) (x : Slice) : Stop → State × Out
  | .park kind va sub level => s.parkSlice e x kind va sub level
  | .held h => s.stayFor x h
  | .trap t => (s, .trap t)

/-- A part-made access as a step of an instruction; without a free slot it is a frame fault, which a host-assisted
spill duty answers (R372, log entry 12). -/
def Got.step {α : Type} (g : State × Got α) (kind : AccessKind) (pc base : DWord) : Except Stop (State × α) :=
  match g with
  | (s, .ok v) => .ok (s, v)
  | (_, .fault va sub level) => .error (.park kind va sub level)
  | (_, .held h) => .error (.held h)
  | (s, .full) => .error (if s.duty 1 then .park .spill base 2 0 else .trap (trapOn causeFrame pc base))

/-- The mapping of one address. -/
def State.mapOne (s : State) (p : Party) (need : Need) (va : DWord) : Except Stop (State × Mapping) :=
  match s.find p need va with
  | (s, .ok m) => .ok (s, m)
  | (_, .fault sub level) => .error (.park need.kind va sub level)
  | (_, .held h) => .error (.held h)

/-- A read-modify-write of n bytes at a home at scope pkg: the old value, and poison. A remote home's value is free (log
entry 10). -/
def State.partRmw (s : State) (core : Nat) (m : Mapping) (n : Nat) (f : DWord → DWord) : State × DWord × Bool :=
  match m.part? with
  | some _ => let (v, s) := s.freeValue; (s, v, false)
  | none => s.coreRmw core m n 0 .pkg f

/-! ### Task records (R326) -/

structure TaskRec where
  entry : DWord
  args : List Word
  join : DWord
  succ : DWord
  ctl : DWord
  deriving DecidableEq, Repr

def TaskRec.ofBytes (bs : List Byte) : TaskRec :=
  { entry := le64 bs 0, args := (natsFrom 0 8).map fun k => le32 bs (8 + 4 * k), join := le64 bs 0x28, succ := le64 bs 0x30,
    ctl := le64 bs 0x38 }

def ctlNsucc (c : DWord) : Nat := field c.toNat 0 16
def ctlCursor (c : DWord) : Nat := field c.toNat 16 16
def ctlPred (c : DWord) : Nat := field c.toNat 32 16
def ctlStatus (c : DWord) : Nat := field c.toNat 48 4
def ctlDemand (c : DWord) : Nat := field c.toNat 52 4
def ctlGroup (c : DWord) : Bool := bit c.toNat 56

/-- A number with a field replaced. -/
def putField (n lo w v : Nat) : Nat := n - field n lo w * 2 ^ lo + v % 2 ^ w * 2 ^ lo

def ctlSet (lo w v : Nat) (c : DWord) : DWord := BitVec.ofNat 64 (putField c.toNat lo w v)
def setStatus (v : Nat) : DWord → DWord := ctlSet 48 4 v
def setCursor (v : Nat) : DWord → DWord := ctlSet 16 16 v
def setPred (v : Nat) : DWord → DWord := ctlSet 32 16 v

def taskIdle : Nat := 0
def taskWaiting : Nat := 1
def taskQueued : Nat := 2
def taskRunning : Nat := 3
def taskSignalling : Nat := 4
def taskDone : Nat := 5
def taskOrphaned : Nat := 6
def taskAbandoned : Nat := 7

def TaskRec.malformed (r : TaskRec) : Bool :=
  r.entry.getLsbD 0 || decide (ctlDemand r.ctl < 2) || decide (12 < ctlDemand r.ctl) || decide (8 ≤ ctlStatus r.ctl) ||
  decide (ctlNsucc r.ctl < ctlCursor r.ctl) || field r.ctl.toNat 57 7 != 0 || r.join.toNat % 4 != 0 || r.succ.toNat % 8 != 0

/-- Who runs a task instruction. -/
structure Tasker where
  env : Env
  party : Party
  pc : DWord
  /-- the pages on which it has accesses parked (R27) -/
  pages : List Nat := []
  deriving DecidableEq, Repr

def Tasker.of (e : Env) (x : Slice) : Tasker :=
  { env := e, party := e.party x.uid, pc := x.pc,
    pages := x.lasting.flatMap fun p => (maskLanes p.lanes).map fun l => pageOf (p.addr.get l) }

/-- An access waits behind a parked one to its page (R27). -/
def Tasker.behind (t : Tasker) (va : DWord) : Bool := t.pages.contains (pageOf va)

/-- Read bytes of a kind; poison traps (R395). -/
def State.taskRead (s : State) (t : Tasker) (kind : AccessKind) (va : DWord) (n : Nat) : Except Stop (State × List Byte) :=
  if t.behind va then .error (.held .busy)
  else
  match Got.step (s.partRead t.party kind va n) kind t.pc 0 with
  | .error e => .error e
  | .ok (s, bs, ps) => if ps.any id then .error (.trap (trapOn causePoison t.pc va)) else .ok (s, bs)

def State.readTask (s : State) (t : Tasker) (rcd : DWord) : Except Stop (State × TaskRec) :=
  match s.taskRead t .record rcd 64 with
  | .error e => .error e
  | .ok (s, bs) => .ok (s, .ofBytes bs)

/-- Change CTL of a record in one read-modify-write. -/
def State.rmwCtl (s : State) (t : Tasker) (rcd : DWord) (f : DWord → DWord) : Except Stop State :=
  if t.behind rcd then .error (.held .busy)
  else
  match s.mapOne t.party { kind := .atomic, wr := true } (rcd + 0x38) with
  | .error e => .error e
  | .ok (s, m) => .ok (s.partRmw t.env.core m 8 f).1

/-- Add to a join counter at scope pkg. -/
def State.addJoin (s : State) (t : Tasker) (join : DWord) (k : Word) : Except Stop State :=
  if join = 0 then .ok s
  else if t.behind join then .error (.held .busy)
  else
    match s.mapOne t.party { kind := .atomic, wr := true } join with
    | .error e => .error e
    | .ok (s, m) => .ok (s.partRmw t.env.core m 4 fun v => (lo32 v + k).setWidth 64).1

/-! ### Deques (R371, R372) -/

def Deque.at (core ctx : Nat) (d : Deque) : Bool := d.core == core && d.ctx == ctx

def State.dequeOf (s : State) (core ctx : Nat) : Deque := (s.engines.deques.find? (·.at core ctx)).getD { core := core, ctx := ctx }

def State.setDeque (s : State) (d : Deque) : State :=
  s.onEngines fun g => { g with deques := d :: g.deques.filter (!·.at d.core d.ctx) }

/-- The entry of a record of a width, and the record of an entry. -/
def dequeEntry (rcd : DWord) (group : Bool) : DWord := rcd ||| BitVec.ofNat 64 (b2n group)
def entryRecord (d : DWord) : DWord := d &&& ~~~1#64
def entryGroup (d : DWord) : Bool := d.getLsbD 0

/-- The bytes of an overflow segment, its entries oldest first. -/
def segmentBytes (older : Nat) (es : List DWord) : List Byte :=
  u32 older ++ u32 es.length ++ zeros 56 ++ padTo 1024 (es.flatMap fun e => u64 e.toNat)

/-- Read a segment's entries, oldest first. -/
def State.readSegment (s : State) (t : Tasker) (slot : Nat) : Except Stop (State × List DWord) :=
  match Got.step (s.slotRead t.party slot 0 1088) .spill t.pc 0 with
  | .error e => .error e
  | .ok (s, bs, _) => .ok (s, (natsFrom 0 (leAt bs 4 4 % 129)).map fun k => le64 bs (0x40 + 8 * k))

/-- Push an entry at the bottom of a core's deque. -/
def State.pushTask (s : State) (t : Tasker) (core : Nat) (entry : DWord) : Except Stop State :=
  let d := s.dequeOf core t.env.ctx
  if d.entries.length < 256 then .ok (s.setDeque { d with entries := entry :: d.entries })
  else
    match Got.step (s.claimSlots t.party 1) .spill t.pc (s.ctxOf t.env.ctx).spillBase with
    | .error e => .error e
    | .ok (s, slot) =>
      match Got.step (s.slotWrite t.party slot 0 (segmentBytes (d.segments.headD 0) (d.entries.drop 128).reverse)) .spill t.pc 0 with
      | .error e => .error e
      | .ok (s, _) => .ok (s.setDeque { d with entries := entry :: d.entries.take 128, segments := slot :: d.segments })

/-- Take the first entry of a width from a list. -/
def takeEntry (group : Bool) : List DWord → Option (DWord × List DWord)
  | [] => none
  | x :: xs => if entryGroup x = group then some (x, xs) else (takeEntry group xs).map fun r => (r.1, x :: r.2)

/-- The segment next newer than one, and the slot of the one next older, 0 for none. -/
def neighbours : List Nat → Nat → Option Nat × Nat
  | a :: b :: rest, slot => if b = slot then (some a, rest.headD 0) else neighbours (b :: rest) slot
  | _, _ => (none, 0)

/-- Write a segment after an entry was taken from it, or free it: the segment next newer then names the one next older. -/
def State.shrinkSegment (s : State) (t : Tasker) (d : Deque) (slot : Nat) (es : List DWord) : Except Stop State :=
  if es = [] then
    let (newer, older) := neighbours d.segments slot
    let linked := match newer with
      | some k => Got.step (s.slotWrite t.party k 0 (u32 older)) .spill t.pc 0
      | none => .ok (s, ())
    match linked with
    | .error e => .error e
    | .ok (s, _) =>
      match Got.step (s.markSlots t.party (s.ctxOf t.env.ctx) false [slot]) .spill t.pc 0 with
      | .error e => .error e
      | .ok (s, _) => .ok (s.setDeque { d with segments := d.segments.filter (· != slot) })
  else
    match Got.step (s.slotWrite t.party slot 4 (u32 es.length ++ zeros 56 ++ padTo 1024 (es.flatMap fun e => u64 e.toNat))) .spill t.pc 0 with
    | .error e => .error e
    | .ok (s, _) => .ok s

/-- Look through segments for an entry of a width: newest first from the bottom, or from the top oldest first. -/
def State.searchSegments (s : State) (t : Tasker) (d : Deque) (group top : Bool) : List Nat → Except Stop (State × Option DWord)
  | [] => .ok (s, none)
  | slot :: rest =>
    match s.readSegment t slot with
    | .error e => .error e
    | .ok (s, es) =>
      match takeEntry group (if top then es else es.reverse) with
      | none => State.searchSegments s t d group top rest
      | some (x, left) =>
        match s.shrinkSegment t d slot (if top then left else left.reverse) with
        | .error e => .error e
        | .ok s => .ok (s, some x)

/-- Pop the bottom-most entry of a width from a core's own deque (R329, R372). -/
def State.popTask (s : State) (t : Tasker) (core : Nat) (group : Bool) : Except Stop (State × Option DWord) :=
  let d := s.dequeOf core t.env.ctx
  let reloaded : Except Stop (State × Deque) := match d.entries, d.segments with
    | [], slot :: rest =>
      match s.readSegment t slot with
      | .error e => .error e
      | .ok (s, es) =>
        match Got.step (s.markSlots t.party (s.ctxOf t.env.ctx) false [slot]) .spill t.pc 0 with
        | .error e => .error e
        | .ok (s, _) => let d := { d with entries := es.reverse, segments := rest }; .ok (s.setDeque d, d)
    | _, _ => .ok (s, d)
  match reloaded with
  | .error e => .error e
  | .ok (s, d) =>
    match takeEntry group d.entries with
    | some (x, left) => .ok (s.setDeque { d with entries := left }, some x)
    | none => s.searchSegments t d group false d.segments

/-- Steal the topmost entry of a width from another core's deque (R372). -/
def State.stealTask (s : State) (t : Tasker) (group : Bool) (core : Nat) : Except Stop (State × Option DWord) :=
  let d := s.dequeOf core t.env.ctx
  match s.searchSegments t d group true d.segments.reverse with
  | .error e => .error e
  | .ok (s, some x) => .ok (s, some x)
  | .ok (s, none) =>
    match takeEntry group d.entries.reverse with
    | some (x, left) => .ok (s.setDeque { d with entries := left.reverse }, some x)
    | none => .ok (s, none)

/-! ### Taking a record (R329, R373) -/

def State.badRecord (s : State) (t : Tasker) (rcd ctl : DWord) : State :=
  s.postSchedule (srcDie (dieOfCore t.env.core)) 3 (some t.env.ctx) (some t.env.core) rcd ctl

/-- Take records with `take` until a well-formed one comes, or none. -/
def State.takeGood (s : State) (t : Tasker) (take : State → Except Stop (State × Option DWord)) :
    Nat → Except Stop (State × Option (DWord × TaskRec))
  | 0 => .ok (s, none)
  | n + 1 =>
    match take s with
    | .error e => .error e
    | .ok (s, none) => .ok (s, none)
    | .ok (s, some x) =>
      match s.readTask t (entryRecord x) with
      | .error e => .error e
      | .ok (s, r) =>
        if r.malformed then State.takeGood (s.badRecord t (entryRecord x) r.ctl) t take n
        else .ok (s, some (entryRecord x, r))

/-- Entries that a core's deque may hold: fuel for a take. -/
def State.dequeFuel (s : State) (core ctx : Nat) : Nat :=
  let d := s.dequeOf core ctx
  d.entries.length + 128 * d.segments.length + 1

/-- A core that a thief of a context probes: it runs the context, or keeps segments of it (R373, R405). -/
def State.probed (s : State) (core ctx : Nat) : Bool := s.runsCtx core ctx || !(s.dequeOf core ctx).segments.isEmpty

/-- Steal from the first core of a list that has a record. -/
def State.stealFrom (s : State) (t : Tasker) (group : Bool) : List Nat → Except Stop (State × Option (DWord × TaskRec))
  | [] => .ok (s, none)
  | c :: cs =>
    if s.probed c t.env.ctx then
      match s.takeGood t (fun s => s.stealTask t group c) (s.dequeFuel c t.env.ctx) with
      | .error e => .error e
      | .ok (s, some r) => .ok (s, some r)
      | .ok (s, none) => State.stealFrom s t group cs
    else State.stealFrom s t group cs

/-- Ask dies one at a time; each that is asked probes its cores from its rotating start, which moves on. -/
def State.stealFar (s : State) (t : Tasker) (group : Bool) : List Nat → Except Stop (State × Option (DWord × TaskRec))
  | [] => .ok (s, none)
  | d :: ds =>
    let k := assoc 0 s.probeNext d
    let s := { s with probeNext := assocSet s.probeNext d ((k + 1) % 8) }
    match s.stealFrom t group ((natsFrom 0 8).map fun j => 8 * d + (k + j) % 8) with
    | .error e => .error e
    | .ok (s, some r) => .ok (s, some r)
    | .ok (s, none) => State.stealFar s t group ds

/-- A steal in the order of R373; the start of the ring comes from the core's steal LFSR (log entry 6). -/
def State.steal (s : State) (t : Tasker) (group : Bool) : Except Stop (State × Option (DWord × TaskRec)) :=
  let core := t.env.core
  let v := Config.stealStep (assoc 1 s.stealLfsr core)
  let s := { s with stealLfsr := assocSet s.stealLfsr core v }
  let ring := (natsFrom 0 3).map fun k => 4 * (core / 4) + (core % 4 + 1 + (v.toNat + k) % 3) % 4
  let otherQuad := (natsFrom (8 * (core / 8)) 8).filter fun c => c / 4 != core / 4
  match s.stealFrom t group (ring ++ otherQuad) with
  | .error e => .error e
  | .ok (s, some r) => .ok (s, some r)
  | .ok (s, none) => s.stealFar t group (diesByDistance (core / 8))

/-- Find a record for a TNEXT on a core: its own deque, then a steal. -/
def State.findTask (s : State) (t : Tasker) (group steal : Bool) : Except Stop (State × Option (DWord × TaskRec)) :=
  let core := t.env.core
  match s.takeGood t (fun s => s.popTask t core group) (s.dequeFuel core t.env.ctx) with
  | .error e => .error e
  | .ok (s, some r) => .ok (s, some r)
  | .ok (s, none) =>
    if steal then s.steal t group else .ok (s, none)

/-! ### The range table (R374) -/

/-- A range of a descriptor: its first byte, its length, and whether it is written. -/
structure TaskRange where
  base : Nat
  len : Nat
  write : Bool
  deriving DecidableEq, Repr

/-- The ranges of a descriptor list; none when one has a LEN of 0 or a KIND above 1. -/
def rangesOf (bs : List Byte) (n : Nat) : Option (List TaskRange) :=
  let rs := (natsFrom 0 n).map fun k => (leAt bs (16 * k) 8, leAt bs (16 * k + 8) 4, leAt bs (16 * k + 12) 4)
  if rs.any fun r => r.2.1 == 0 || decide (1 < r.2.2) then none
  else some (rs.map fun r => { base := r.1, len := r.2.1, write := r.2.2 == 1 })

def RangeEntry.clashes (x : RangeEntry) (r : TaskRange) : Bool :=
  decide (x.base < r.base + r.len) && decide (r.base < x.base + x.len) && (x.write || r.write)

/-- Record a task's ranges: PRED, and the table with its entries; each earlier task counts once, at its first entry that
clashes. -/
def enterRanges (tab : List RangeEntry) (task : DWord) (ctx : Nat) (rs : List TaskRange) : Nat × List RangeEntry :=
  let earlier := ((tab.filter fun x => x.ctx == ctx && x.task != task && rs.any x.clashes).map (·.task)).eraseDups
  let mark := fun (acc : List RangeEntry × List DWord) (x : RangeEntry) =>
    if x.ctx = ctx ∧ earlier.contains x.task ∧ !acc.2.contains x.task ∧ rs.any x.clashes then
      (acc.1 ++ [{ x with counted := x.counted ++ [task] }], x.task :: acc.2)
    else (acc.1 ++ [x], acc.2)
  (earlier.length, (tab.foldl mark ([], [])).1 ++
    rs.map fun r => { task := task, ctx := ctx, base := r.base, len := r.len, write := r.write })

/-! ### SPAWN (R328) -/

/-- One lane of SPAWN: its code; none when the range table has no room, and the instruction waits. -/
def State.spawnOne (s : State) (t : Tasker) (rcd : DWord) : Except Stop (State × Option Nat) := do
  let (s, r) ← s.readTask t rcd
  if r.malformed then return (s, some 4)
  else if ctlStatus r.ctl = taskOrphaned then return (s, some 2)
  else if ctlStatus r.ctl ≠ taskIdle then return (s, some 3)
  else if s.duty 4 then
    let n := ctlNsucc r.ctl
    let (s, bs) ← s.taskRead t .record r.succ (16 * n)
    match rangesOf bs n with
    | none => return (s, some 4)
    | some rs =>
      if 1024 < s.engines.ranges.length + n then return (s, none)
      else
        let s ← s.addJoin t r.join 1
        let (pred, tab) := enterRanges s.engines.ranges rcd t.env.ctx rs
        let s := s.onEngines fun g => { g with ranges := tab }
        let s ← s.rmwCtl t rcd fun c => setStatus (if pred = 0 then taskQueued else taskWaiting) (setPred pred c)
        if pred = 0 then
          let s ← s.pushTask t t.env.core (dequeEntry rcd (ctlGroup r.ctl))
          return (s, some 0)
        else return (s, some 1)
  else
    let s ← s.addJoin t r.join 1
    let ready := ctlPred r.ctl = 0
    let s ← s.rmwCtl t rcd fun c => setStatus (if ready then taskQueued else taskWaiting) c
    if ready then
      let s ← s.pushTask t t.env.core (dequeEntry rcd (ctlGroup r.ctl))
      return (s, some 0)
    else return (s, some 1)

/-- The lanes of one slice. -/
def State.spawnLanes (s : State) (t : Tasker) : List (Nat × DWord) → Except Stop (State × Option (List (Nat × Nat)))
  | [] => .ok (s, some [])
  | (l, r) :: rest =>
    match s.spawnOne t r with
    | .error e => .error e
    | .ok (s, none) => .ok (s, none)
    | .ok (s, some code) =>
      match State.spawnLanes s t rest with
      | .error e => .error e
      | .ok (s, none) => .ok (s, none)
      | .ok (s, some cs) => .ok (s, some ((l, code) :: cs))

/-- What SPAWN comes to for the whole gang: the codes by slice, a wait, or a slice's stop. -/
inductive Spawned where
  | codes (s : State) (cs : List (Member × List (Nat × Nat)))
  | waits
  | stops (m : Member) (why : Stop)

def State.spawnAll (s : State) : List Member → Spawned
  | [] => .codes s []
  | m :: ms =>
    match s.spawnLanes (.of m.env m.slice) (m.addrs.map fun a => (a.lane, a.va)) with
    | .error e => .stops m e
    | .ok (_, none) => .waits
    | .ok (s, some cs) =>
      match State.spawnAll s ms with
      | .codes s rest => .codes s ((m, cs) :: rest)
      | r => r

/-- SPAWN: every lane of the gang in gang lane order, or none of them. -/
def execSpawn (d : Dst) (a : Opnd) (h : Bool) (s : State) : Host.Outcome State Fault Refusal :=
  let i : Instr := .spawn d a h
  let pair := fun (x : Slice) e => x.readPair e s.clock true a
  s.issue fun s =>
    let ms := s.members none fun x e take => laneAddrs (pair x e) take 0 64
    let traps := s.memTraps i (fun x e => [(pair x e).1, (pair x e).2]) 64 ms
    if traps ≠ [] then (s.clearDeclines (traps.map (·.1))).takeTraps traps
    else if ms.any fun m => !s.releaseReady m.slice .pkg then s
    else
      let released := ms.foldl (fun s m => s.releaseAt m.env m.slice .pkg) s
      match released.spawnAll ms with
      | .waits => released.waitGang
      | .stops m why =>
        let (s, o) := released.stopOut m.env m.slice why
        match o with
        | .trap t => s.takeTraps [(m.slice.uid, t)]
        | o => s.settleOut m.slice.uid o
      | .codes s cs =>
        (cs.foldl (fun s q => s.retireMem i q.1.slice.uid none d
          (laneRegs 1 (q.2.map fun c => (c.1, [({ val := BitVec.ofNat 32 c.2 } : LaneWord)])))
          (heldOf h [(pair q.1.slice q.1.env).1, (pair q.1.slice q.1.env).2])) s).partIfApart s.cur

/-! ### TNEXT and JOIN (R329, R330) -/

/-- Enter a taken task: ARG[0..7] in v0 to v7, the record's address in v8:v9. -/
def fillTask (rcd : DWord) (r : TaskRec) (x : Slice) : Slice :=
  let f := x.top
  let regs := r.args.map Reg.u ++ [.u (lo32 rcd), .u (hi32 rcd)]
  x.setTop { f with regs := regs ++ f.regs.drop 10 }

/-- Begin a record in a slice; with no free run the record goes back to the bottom of the local deque and the slice
blocks as at a CALL. -/
def State.beginTask (s : State) (t : Tasker) (x : Slice) (rcd : DWord) (r : TaskRec) (retPc : DWord) : Except Stop (State × Out) := do
  let demand := ctlDemand r.ctl
  match s.doCall x r.entry retPc 0 demand (fillTask rcd r) with
  | .trap i => .error (.trap i)
  | .stay y =>
    let s ← s.pushTask t t.env.core (dequeEntry rcd (ctlGroup r.ctl))
    return (s, .stay y)
  | .done y =>
    let s ← s.rmwCtl t rcd (setStatus taskRunning)
    return (s.acquireAt t.env .pkg, .done y)

/-- A gang of several slices parts at these instructions, and each slice acts alone (R327). -/
def State.runAlone (s : State) (i : Instr) (srcs : Slice → Env → List Reg) (reads : Slice → BitVec 4)
    (act : State → Slice → Env → State × Out) : Host.Outcome State Fault Refusal :=
  if 1 < s.cur.length then .next (s.partSlices s.cur) else s.runEach i srcs reads act

/-- What a slice does at a stop, with its instruction's other effects dropped. -/
def State.orStop (s : State) (e : Env) (x : Slice) (r : Except Stop (State × Out)) : State × Out :=
  match r with
  | .ok r => r
  | .error why => s.stopOut e x why

def execTnextS (d : Dst) (s : State) : Host.Outcome State Fault Refusal :=
  let i : Instr := .tnextS d
  s.runAlone i (fun _ _ => []) (fun _ => 0) fun s x e =>
    if !x.parked.isEmpty then (s, .stay x)
    else
      let t := Tasker.of e x
      s.orStop e x do
        let (s, found) ← s.findTask t false true
        match found with
        | none => return (s, .done (x.retireWith i d [.u 0] []))
        | some (rcd, r) =>
          let y := (x.stepLatch []).writeResult d [.u 1] x.m0 false
          let (s, o) ← s.beginTask t y rcd r (x.after i)
          match o with
          | .stay z => return (s, .stay { x with status := z.status, blockedSince := z.blockedSince })
          | o => return (s, o)

/-- Every live slice of a group, each with a free run, begins a thread-group task. -/
def State.beginAll (s : State) (i : Instr) (d : Dst) (rcd : DWord) (r : TaskRec) : List Nat → State
  | [] => s
  | u :: us =>
    match s.slice? u with
    | none => State.beginAll s i d rcd r us
    | some x =>
      let y := (x.stepLatch []).writeResult d [.u 1] x.m0 false
      let s := match s.doCall y r.entry (x.after i) 0 (ctlDemand r.ctl) (fillTask rcd r) with
        | .done z => (s.acquireAt (s.env x) .pkg).setSlice z.retired
        | _ => s
      State.beginAll s i d rcd r us

/-- TNEXT.g: the whole thread group, as one gang, takes a thread-group task. -/
def execTnextG (d : Dst) (s : State) : Host.Outcome State Fault Refusal :=
  let i : Instr := .tnextG d
  s.runGang i (fun _ _ => []) (fun _ _ => []) fun s l =>
    let x := l.slice
    let live := (s.groupSlices x.group).filter (·.live)
    if live.any (fun y => !s.cur.contains y.uid) || s.curSlices.any (·.tstate.isSome) then (s, .trap (trapAt causeIllegal x.pc))
    else if s.curSlices.any (!·.parked.isEmpty) then (s, .hold)
    else
      let t := Tasker.of l.env x
      match s.findTask t true true with
      | .error why =>
        match s.stopOut l.env x why with
        | (s, .trap t) => (s, .trap t)
        | (s, o) => (s.settleOut x.uid o, .hold)
      | .ok (s', none) => (s', .word d 0)
      | .ok (s', some (rcd, r)) =>
        let need := ctlDemand r.ctl
        if s.curSlices.any fun y => decide (4095 ≤ y.depth) then (s, .trap (trapOn causeFrame x.pc 0))
        else
          let short := (s'.curSlices.filter fun y => (s'.ownRun y need).isNone).map (·.uid)
          let moved : Except Stop State :=
            if short ≠ [] then s'.pushTask t l.env.core (dequeEntry rcd true) else s'.rmwCtl t rcd (setStatus taskRunning)
          match moved with
          | .error why =>
            match s.stopOut l.env x why with
            | (s, .trap t) => (s, .trap t)
            | (s, o) => (s.settleOut x.uid o, .hold)
          | .ok s'' =>
            if short ≠ [] then (short.foldl (fun s u => s.onSlice u fun y => y.block s.clock need .whole) s'', .hold)
            else (s''.beginAll i d rcd r s.cur, .hold)

/-- JOIN: it reads 0 and goes on, or takes a local slice task and runs again after it, or waits. -/
def execJoin (a : Opnd) (h : Bool) (s : State) : Host.Outcome State Fault Refusal :=
  let i : Instr := .join a h
  let pair := fun (x : Slice) e => x.readPair e s.clock true a
  s.runAlone i (fun x e => [(pair x e).1, (pair x e).2]) Slice.lowMask fun s x e =>
    let va := pairVal (pair x e) (lowestLane x.m0)
    if va.toNat % 4 ≠ 0 then (s, .trap (trapOn causeMisaligned x.pc va))
    else if !x.parked.isEmpty then (s, .stay x)
    else
      let t := Tasker.of e x
      s.orStop e x do
        let (s, bs) ← s.taskRead t .load va 4
        if le32 bs 0 = 0 then
          return (s.acquireAt e .pkg, .done ((x.stepLatch (heldOf h [(pair x e).1, (pair x e).2])).next i))
        else
          let (s, found) ← s.findTask t false false
          match found with
          | some (rcd, r) => s.beginTask t x rcd r x.pc
          | none => return (s, .stay { (x.waiting s.clock) with status := .inJoin })

/-! ### TDONE (R331-R333) -/

/-- Change a successor under TDONE or TDONE.abandon. -/
def State.signalTask (s : State) (t : Tasker) (abandon : Bool) (rcd : DWord) : Except Stop State :=
  if rcd.toNat % 64 ≠ 0 then .ok (s.badRecord t rcd 0)
  else
    match s.readTask t rcd with
    | .error e => .error e
    | .ok (s, r) =>
      let st := ctlStatus r.ctl
      let early := st = taskIdle ∨ st = taskWaiting
      if r.malformed then .ok (s.badRecord t rcd r.ctl)
      else if abandon then
        if early then s.rmwCtl t rcd (setStatus taskOrphaned) else .ok s
      else if early ∧ 0 < ctlPred r.ctl then
        let queued := ctlPred r.ctl = 1 ∧ st = taskWaiting
        match s.rmwCtl t rcd fun c => let c := setPred (ctlPred c - 1) c; if queued then setStatus taskQueued c else c with
        | .error e => .error e
        | .ok s => if queued then s.pushTask t t.env.core (dequeEntry rcd (ctlGroup r.ctl)) else .ok s
      else .ok (s.badRecord t rcd r.ctl)

def State.signalList (s : State) (t : Tasker) (abandon : Bool) : List DWord → Except Stop State
  | [] => .ok s
  | r :: rs =>
    match s.signalTask t abandon r with
    | .error e => .error e
    | .ok s => State.signalList s t abandon rs

/-- The i-th successor, or the i-th range released: the tasks that counted it (R374). -/
def State.signalNext (s : State) (t : Tasker) (abandon : Bool) (rcd : DWord) (r : TaskRec) (i : Nat) : Except Stop State :=
  let mine := fun (x : RangeEntry) => x.task == rcd && x.ctx == t.env.ctx
  if s.engines.ranges.any mine then
    match s.engines.ranges.find? mine with
    | none => .ok s
    | some x =>
      match s.signalList t abandon x.counted with
      | .error e => .error e
      | .ok s => .ok (s.onEngines fun g => { g with ranges := g.ranges.erase x })
  else
    match s.taskRead t .load (r.succ + BitVec.ofNat 64 (8 * i)) 8 with
    | .error e => .error e
    | .ok (s, bs) => s.signalTask t abandon (le64 bs 0)

/-- Signal successors from CURSOR on; each signal with its CURSOR update stands (R332). -/
def State.signalFrom (s : State) (t : Tasker) (abandon : Bool) (rcd : DWord) (r : TaskRec) : Nat → Nat → State × Option Stop
  | 0, _ => (s, none)
  | n + 1, i =>
    match s.signalNext t abandon rcd r i with
    | .error why => (s, some why)
    | .ok s' =>
      match s'.rmwCtl t rcd (setCursor (i + 1)) with
      | .error why => (s, some why)
      | .ok s => State.signalFrom s t abandon rcd r n (i + 1)

/-- Both forms of TDONE. -/
def State.endTask (s : State) (i : Instr) (d : Dst) (a : Opnd) (h abandon : Bool) : Host.Outcome State Fault Refusal :=
  let pair := fun (x : Slice) e => x.readPair e s.clock true a
  s.runAlone i (fun x e => [(pair x e).1, (pair x e).2]) Slice.lowMask fun s x e =>
    let rcd := pairVal (pair x e) (lowestLane x.m0)
    let t := Tasker.of e x
    let finish := fun (s : State) (code : Word) => (s, Out.done (x.retireWith i d [.u code] (heldOf h [(pair x e).1, (pair x e).2])))
    if rcd.toNat % 64 ≠ 0 then (s, .trap (trapOn causeMisaligned x.pc rcd))
    else if (if abandon then decide (8 ≤ x.lasting.length) else !s.releaseReady x .pkg) then (s, .stay x)
    else
      let s := if abandon then s else s.releaseAt e x .pkg
      match s.readTask t rcd with
      | .error why => s.stopOut e x why
      | .ok (s, r) =>
        let st := ctlStatus r.ctl
        if r.malformed || !(st == taskRunning || st == taskSignalling) then finish s 1
        else
          match if abandon then .ok s else s.rmwCtl t rcd (setStatus taskSignalling) with
          | .error why => s.stopOut e x why
          | .ok s =>
            match s.signalFrom t abandon rcd r (ctlNsucc r.ctl - ctlCursor r.ctl) (ctlCursor r.ctl) with
            | (s, some why) => s.stopOut e x why
            | (s, none) =>
              match s.addJoin t r.join (BitVec.allOnes 32) with
              | .error why => s.stopOut e x why
              | .ok s' =>
                match s'.rmwCtl t rcd (setStatus (if abandon then taskAbandoned else taskDone)) with
                | .error why => s.stopOut e x why
                | .ok s => finish s 0

def execTdone (d : Dst) (a : Opnd) (h : Bool) (s : State) : Host.Outcome State Fault Refusal :=
  s.endTask (.tdone d a h) d a h false

def execTdoneAbandon (d : Dst) (a : Opnd) (h : Bool) (s : State) : Host.Outcome State Fault Refusal :=
  s.endTask (.tdoneAbandon d a h) d a h true

end Sys2Proof.Machine
end

