-- ==== Sys2Proof/Machine/Copy.lean ====
section
/-! DEFINITION. Tiles, copies and copy batches (spec/07_scratchpad_and_copies.md R151-R164;
spec/13_instr_memory_matrix.md R294-R297). -/

namespace Sys2Proof.Machine

/-- A per-gang instruction that reads records: a stop drops its effects and stops the leader's slice. -/
def State.gangStop (s : State) (l : Lead) (r : Except Stop (State × GangOut)) : State × GangOut :=
  match r with
  | .ok r => r
  | .error why =>
    match s.stopOut l.env l.slice why with
    | (s, .trap t) => (s.clearDeclined (.slice l.slice.uid), .trap t)
    | (s, o) => (s.settleOut l.slice.uid o, .hold)

/-- A step of an engine, a host or a peer whose condition does not hold. -/
def notNow (name : String) : Host.Outcome State Fault Refusal := .refused (.notEnabled name)

/-- The walk that an access waits for, if one is wanted. -/
def State.askFor (s : State) (h : Hold) : State :=
  match h with
  | .miss a => s.openMiss a
  | _ => s

/-- A step of a unit that meets an access it cannot make now: it asks for the walk, if one is wanted, and comes about
later. -/
def State.waitFor (s : State) (name : String) (h : Hold) : Host.Outcome State Fault Refusal :=
  match h with
  | .miss _ => .next (s.askFor h)
  | _ => notNow name

/-! ### Tiles (R152-R155) -/

def State.tileAt (s : State) (core entry : Nat) : Option Tile :=
  s.engines.tiles.find? fun t => t.core == core && t.entry == entry

/-- The defined tile of an index of a workgroup. -/
def State.tileOf (s : State) (w : Workgroup) (index : Nat) : Option Tile :=
  if index < w.tiles then s.tileAt w.core (w.tileFirst + index) else none

def State.onTile (s : State) (id : Nat) (f : Tile → Tile) : State :=
  s.onEngines fun g => { g with tiles := updateWhere (·.id == id) f g.tiles }

/-- The reader count (R154). -/
def State.readers (s : State) (t : Tile) : Nat := (s.engines.matQueue.filter (·.tile == t.id)).length

def TileState.code : TileState → Nat
  | .empty => 0
  | .filling => 1
  | .ready => 2
  | .draining => 3

/-- The entry word (R153). -/
def Tile.word (t : Tile) : DWord :=
  BitVec.ofNat 64 (t.state.code * 2 ^ 62 + 2 ^ 61 + b2n t.flt * 2 ^ 60 + t.owner % 64 * 2 ^ 54 + t.lastToken % 8 * 2 ^ 51 +
    t.lastBatch % 2 ^ 16 * 2 ^ 35 + t.size % 2 ^ 15 * 2 ^ 14 + t.base % 2 ^ 14)

/-- A scratchpad byte's physical address. -/
def scratchPa (core off : Nat) : Nat := scratchBase + core * 2 ^ 22 + off % 2 ^ 22

def undefinedTile (l : Lead) : GangOut := .trap (trapAt causeTile l.slice.pc)

def Lead.word (l : Lead) (clock : DWord) (o : Opnd) : Word := (l.slice.readOpnd l.env clock o).val l.lane
def Lead.pair (l : Lead) (clock : DWord) (o : Opnd) : DWord := pairVal (l.slice.readPair l.env clock true o) l.lane

def Tile.overlaps (t : Tile) (base size : Nat) : Bool := decide (t.base < base + size) && decide (base < t.base + t.size)

/-- TDEF (R152, R294). -/
def execTdef (a b : Opnd) (h : Bool) (s : State) : Host.Outcome State Fault Refusal :=
  let ra := fun (x : Slice) e => x.readOpnd e s.clock a
  s.runGang (.tdef a b h) (fun x e => [ra x e, x.readOpnd e s.clock b]) (fun x e => heldOf h [ra x e]) fun s l =>
    let index := (l.word s.clock a).toNat
    let v := (l.word s.clock b).toNat
    let base := field v 0 14
    let size := field v 14 15
    let w := l.env.wg
    let mine := fun (t : Tile) => t.core == w.core && decide (w.tileFirst ≤ t.entry) && decide (t.entry < w.tileFirst + w.tiles)
    if field v 29 3 ≠ 0 ∨ size = 0 ∨ w.tiles ≤ index ∨ w.scrBytes < 256 * (base + size) ∨ (s.tileOf w index).isSome ∨
        (s.engines.tiles.any fun t => mine t && t.overlaps base size) then (s, undefinedTile l)
    else
      let (id, s) := s.fresh
      let t : Tile := { id := id, core := w.core, entry := w.tileFirst + index, owner := w.slot, base := base, size := size }
      (s.onEngines fun g => { g with tiles := g.tiles ++ [t] }, .plain)

/-- TFREE (R154, R155, R294). -/
def execTfree (a : Opnd) (h : Bool) (s : State) : Host.Outcome State Fault Refusal :=
  let ra := fun (x : Slice) e => x.readOpnd e s.clock a
  s.runGang (.tfree a h) (fun x e => [ra x e]) (fun x e => heldOf h [ra x e]) fun s l =>
    match s.tileOf l.env.wg (l.word s.clock a).toNat with
    | none => (s, undefinedTile l)
    | some t =>
      if t.state = .filling ∨ t.state = .draining then (s, .wait)
      else (s.onEngines fun g => { g with tiles := g.tiles.filter (·.id != t.id) }, .plain)

/-- TSTAT: an undefined index traps as for every tile instruction (R155, R294). -/
def execTstat (d : Dst) (a : Opnd) (h : Bool) (s : State) : Host.Outcome State Fault Refusal :=
  let ra := fun (x : Slice) e => x.readOpnd e s.clock a
  s.runGang (.tstat d a h) (fun x e => [ra x e]) (fun x e => heldOf h [ra x e]) fun s l =>
    match s.tileOf l.env.wg (l.word s.clock a).toNat with
    | none => (s, undefinedTile l)
    | some t => (s, .done d [.u (lo32 t.word), .u (hi32 t.word)])

/-! ### Copy rights and batches (R156, R162, R163) -/

/-- Whether a leader holds copy rights. -/
def Lead.copyRights (l : Lead) : Bool := l.slice.guest.isNone && l.env.group.idx == l.env.wg.producer

def noRights (l : Lead) : GangOut := .trap (trapAt causeRights l.slice.pc)

def Workgroup.token (w : Workgroup) (t : Nat) : Token := nth {} w.tokens t

def State.onToken (s : State) (wg t : Nat) (f : Token → Token) : State :=
  s.onWg wg fun w => { w with tokens := setNth w.tokens t (f (w.token t)) }

/-- The accumulator bit of a copy status 1 to 4. -/
def statusBit (k : Nat) : BitVec 4 := if k = 0 then 0 else 1#4 <<< (k - 1)

/-- Sealed batches without a copy outstanding complete (R163). -/
def Token.settle (t : Token) : Token :=
  { t with acc := (t.sealed.filter (·.2.1 == [])).foldl (fun a b => a ||| b.2.2) t.acc,
           sealed := t.sealed.filter (·.2.1 != []) }

/-- A copy of the token completes with a status. -/
def Token.complete (t : Token) (id status : Nat) : Token :=
  let b := statusBit status
  Token.settle { t with
    openBatch := t.openBatch.filter (· != id),
    openStatus := if t.openBatch.contains id then t.openStatus ||| b else t.openStatus,
    sealed := t.sealed.map fun x => if x.2.1.contains id then (x.1, x.2.1.filter (· != id), x.2.2 ||| b) else x }

/-- CSEAL: the open batch takes the next number. -/
def Token.seal (t : Token) : Token :=
  Token.settle { t with
    openBatch := [], openStatus := 0, sealed := t.sealed ++ [(t.next, t.openBatch, t.openStatus)],
    next := if t.next = 0xFFFF then 1 else t.next + 1 }

def execCseal (d : Dst) (a : Opnd) (h : Bool) (s : State) : Host.Outcome State Fault Refusal :=
  let ra := fun (x : Slice) e => x.readOpnd e s.clock a
  s.runGang (.cseal d a h) (fun x e => [ra x e]) (fun x e => heldOf h [ra x e]) fun s l =>
    let k := (l.word s.clock a).toNat % 8
    let t := l.env.wg.token k
    if !l.copyRights then (s, noRights l)
    else if 16 ≤ t.sealed.length then (s, .wait)
    else (s.onToken l.env.wg.uid k Token.seal, .word d (BitVec.ofNat 32 t.next))

/-- Tokens of an 8-bit mask. -/
def maskTokens (m : Word) : List Nat := (natsFrom 0 8).filter m.getLsbD

/-- CWAIT: the statuses of the masked tokens go to o13 of every active lane. -/
def execCwait (a : Opnd) (h : Bool) (s : State) : Host.Outcome State Fault Refusal :=
  let ra := fun (x : Slice) e => x.readOpnd e s.clock a
  s.runGang (.cwait a h) (fun x e => [ra x e]) (fun x e => heldOf h [ra x e]) fun s l =>
    let ks := maskTokens (l.word s.clock a)
    let w := l.env.wg
    if !l.copyRights then (s, noRights l)
    else if ks.any fun k => !(w.token k).sealed.isEmpty then (s, .wait)
    else
      let acc := ks.foldl (fun m k => m ||| (w.token k).acc) 0#4
      let s := ks.foldl (fun s k => s.onToken w.uid k fun t => { t with acc := 0 }) s
      let v : LaneWord := { val := acc.setWidth 32 <<< 1 }
      (s.cur.foldl (fun s u => s.onSlice u fun x => x.putSof 13 x.m0 fun _ => v) s, .plain)

def execCpoll (d : Dst) (a : Opnd) (h : Bool) (s : State) : Host.Outcome State Fault Refusal :=
  let ra := fun (x : Slice) e => x.readOpnd e s.clock a
  s.runGang (.cpoll d a h) (fun x e => [ra x e]) (fun x e => heldOf h [ra x e]) fun s l =>
    if !l.copyRights then (s, noRights l)
    else
      let ks := (maskTokens (l.word s.clock a)).filter fun k => (l.env.wg.token k).sealed.isEmpty
      (s, .word d (BitVec.ofNat 32 ((ks.map fun k => 2 ^ k).sum)))

/-! ### The validity of a copy (R157-R159) -/

end Sys2Proof.Machine

namespace Sys2Proof

def CopyDir.usesTile : CopyDir → Bool
  | .g2t | .t2g | .t2r | .t2s => true
  | _ => false

def CopyDir.usesRoof : CopyDir → Bool
  | .g2r | .t2r => true
  | _ => false

/-- Whether the first APR reads. -/
def CopyDir.reads : CopyDir → Bool
  | .t2g | .t2s => false
  | _ => true

/-- Directions into and out of a tile (R154). -/
def CopyDir.intoTile : CopyDir → Bool
  | .g2t => true
  | _ => false

def CopyDir.outOfTile : CopyDir → Bool
  | .t2g | .t2r | .t2s => true
  | _ => false

/-- The scope of the destination (R142). -/
def CopyDir.scope : CopyDir → Scope
  | .g2t | .g2r | .t2r => .core
  | .t2g | .g2g | .t2s => .pkg

end Sys2Proof

namespace Sys2Proof.Machine

/-- R295: the zero fields of a descriptor, and the fields that the direction does not use. -/
def descriptorOk (f : CopyDir) (v : Word) : Bool :=
  let n := v.toNat
  !bit n 31 && !bit n 11 && (f.usesTile || field n 3 8 == 0) && (f.usesRoof || field n 12 19 == 0)

def fmtBytes (code : Nat) : Nat := ((Fmt.ofCode code).map fun f => f.bits / 8).getD 0

def crmRst : Nat := 5

/-- R159: a conversion that may not be made. -/
def badConversion (src dst crm : Nat) : Bool :=
  src == 5 || decide (13 ≤ src) || decide (13 ≤ dst) || decide (6 ≤ crm) ||
  (crm == crmRst && !(match Fmt.ofCode src, Fmt.ofCode dst with | some a, some b => narrows a b | _, _ => false))

def toE2m1 (a : Apr) : Bool := a.conv && a.dfmt == 5

/-- Elements of an E2M1 block of a converting copy. -/
def Apr.blk (a : Apr) : Nat := if a.blk16 then 16 else 32

/-- Bytes of the dense side of a walk of n elements. -/
def Apr.denseBytes (a : Apr) (n : Nat) : Nat :=
  if toE2m1 a then ceilDiv n 2 + 2 * ceilDiv n a.blk
  else n * (if a.conv then fmtBytes a.dfmt else a.size)

/-- The local window addresses of a tile's bytes (R9, R11). -/
def tileWindow (w : Workgroup) (t : Tile) : Int × Int :=
  let lo : Int := 0xFE * 2 ^ 48 + (t.offset w : Nat)
  (lo, lo + (t.bytes : Nat))

/-- The bytes of the roof (R221). -/
def roofBytes : Nat := 0x1800000

/-- Restrictions of a copy on its first APR (R158, R159). -/
def copyUse (f : CopyDir) (w : Workgroup) (t : Option Tile) (roff : Nat) (a : Apr) : Bool :=
  let dense := a.denseBytes a.emitted
  let tileBytes := (t.map (·.bytes)).getD 0
  a.writes == f.reads || a.coords || a.skipZero || decide (13 ≤ a.fmtCode) || a.plane != 0 ||
  (!a.conv && a.convFields != 0) || (a.conv && (!f.reads || badConversion a.fmtCode a.dfmt a.crm)) ||
  ((f == .g2t || f == .t2g || f == .t2s) && decide (tileBytes < dense)) ||
  (f.usesRoof && decide (roofBytes < 64 * roff + dense)) ||
  (f == .t2r && (match a.span, t with
    | some (lo, hi), some t => decide (lo < (tileWindow w t).1) || decide ((tileWindow w t).2 < hi)
    | _, _ => false))

/-- Restrictions on the destination APR of a direction-4 copy. -/
def copyDstUse (a b : Apr) : Bool :=
  !b.writes || b.coords || b.skipZero || decide (13 ≤ b.fmtCode) || b.conv || b.convFields != 0 ||
  (if a.conv then
    b.fmtCode != a.dfmt || b.total != (if toE2m1 a then ceilDiv a.total 2 else a.total) ||
    (if toE2m1 a then b.plane.toNat % 2 != 0 else b.plane != 0)
  else b.plane != 0 || a.size != b.size || a.total != b.total)

/-- Whether a copy is valid. -/
def copyValid (f : CopyDir) (w : Workgroup) (t : Option Tile) (roff : Nat) (a : Apr) (b : Option Apr) : Bool :=
  a.check false (copyUse f w t roff) == 0 &&
  (match b with
   | some b => b.check false (copyDstUse a) == 0
   | none => true)

/-- The bytes that a copy writes, plane bytes included (R167): its charge. -/
def copyBytes (f : CopyDir) (a : Apr) (b : Option Apr) : Nat :=
  match f, b with
  | .t2g, _ | .t2s, _ => Apr.solidAmong a 5 a.emitted * a.size
  | .g2g, some b =>
    let n := a.emitted
    if toE2m1 a then Apr.solidAmong b 5 (ceilDiv n 2) * b.size + 2 * ceilDiv n a.blk else Apr.solidAmong b 5 n * b.size
  | _, _ => a.denseBytes a.emitted

/-- The rst state of a copy (R159). -/
def copySeed (seed : Word) (k : Nat) : Word :=
  let v := seed ^^^ (BitVec.ofNat 32 k * 0x9E3779B9)
  if v = 0 then 1 else v

/-! ### Matrix commands (R207, R220, R222, R298, R299) -/

/-- A matrix command word. -/
def cmdSet (c : Word) : Nat := field c.toNat 0 3
def cmdTile (c : Word) : Nat := field c.toNat 3 8
def cmdKb (c : Word) : Nat := field c.toNat 11 12
def cmdZ (c : Word) : Bool := bit c.toNat 23

def fmtA (w : Word) : Nat := field w.toNat 0 4
def fmtB (w : Word) : Nat := field w.toNat 4 4
def fmtAcc (w : Word) : Nat := field w.toNat 8 4
def fmtAmax (w : Word) : Bool := field w.toNat 12 2 == 1
def fmtBlk (w : Word) : Nat := if field w.toNat 18 3 = 1 then 16 else 32

/-- R207. -/
def matrixPair (w : Word) : Bool :=
  let f8 := fun n => n == 3 || n == 4
  fmtAcc w == 0 && ((f8 (fmtA w) && f8 (fmtB w)) || (fmtA w == 1 && fmtB w == 1) || (fmtA w == 5 && fmtB w == 5))

/-- Bytes of A that an operation reads (R220): rows, and the scale plane. -/
def aRow (fmt : Word) (k : Nat) : Nat := if fmtA fmt = 5 then k / 2 else k * (if fmtA fmt = 1 then 2 else 1)
def aExtent (fmt : Word) (k : Nat) : Nat := 96 * aRow fmt k + (if fmtA fmt = 5 then 96 * (2 * k / fmtBlk fmt) else 0)

/-- Roof lines of B (R222): elements, and scales. -/
def bLines (fmt : Word) (k : Nat) : Nat :=
  if fmtB fmt = 5 then ceilDiv k 128 + ceilDiv (2 * k / fmtBlk fmt) 64 else ceilDiv (k * (if fmtB fmt = 1 then 2 else 1)) 64

/-- The checks of R299 on a command, its tile known. -/
def matrixOk (w : Workgroup) (fmt cmd : Word) (roof aoff : Nat) (t : Tile) : Bool :=
  let k := 32 * cmdKb cmd
  matrixPair fmt && decide (cmdSet cmd < w.accs.length) && cmdKb cmd != 0 && field cmd.toNat 24 8 == 0 &&
  roof % 8192 == 0 && decide (roof / 8192 + bLines fmt k ≤ 3072) && decide (256 * aoff + aExtent fmt k ≤ t.bytes)

/-! ### COPY and COPYMM (R296, R297) -/

/-- A chain record. -/
structure Chain where
  mbar : DWord
  cmd : Word
  roof : Word
  aoff : Word
  zeros : Bool
  deriving DecidableEq, Repr

def Chain.ofBytes (bs : List Byte) : Chain :=
  { mbar := le64 bs 0, cmd := le32 bs 8, roof := le32 bs 12, aoff := le32 bs 16, zeros := zeroAt bs 20 12 }

/-- Whether a tile lets a copy issue (R154, R155). -/
def State.tileAdmits (s : State) (f : CopyDir) (t : Tile) : Bool :=
  match t.state with
  | .empty => f.intoTile
  | .filling => f.intoTile
  | .ready => s.readers t == 0
  | .draining => f.outOfTile

/-- A tile after a copy into or out of it issues. -/
def Tile.issue (t : Tile) (f : CopyDir) (token batch : Nat) : Tile :=
  let t := { t with lastToken := token, lastBatch := batch }
  if f.intoTile then { t with state := .filling, fill := t.fill + 1, flt := t.flt && t.state != .empty }
  else { t with state := .draining, drain := t.drain + 1 }

/-- A tile after a copy into or out of it completes with a status. -/
def Tile.finish (t : Tile) (f : CopyDir) (status : Nat) : Tile :=
  if f.intoTile then
    { t with fill := t.fill - 1, state := if t.fill ≤ 1 then .ready else .filling, flt := t.flt || status == 1 || status == 2 }
  else { t with drain := t.drain - 1, state := if t.drain ≤ 1 then .empty else .draining }

/-- Capture an object's GEN and charge it (R166-R168). -/
def State.chargeMbar (s : State) (p : Party) (bar : Option DWord) (n : Nat) : Except Stop (State × Option Byte) :=
  match bar with
  | none => .ok (s, some 0)
  | some va =>
    match s.mapOne p { kind := .atomic, wr := true } va with
    | .error e => .error e
    | .ok (s, m) =>
      match s.mbarOp p.unit.core? m fun o => o.charge n with
      | (s, none) => .ok (s.postLost p va none, none)
      | (s, some (o, r)) => .ok (if r.overran then s.postOverrun p va r.obj.gen else s, some (BitVec.ofNat 8 o.gen))

def Copy.party (c : Copy) : Party := { who := .copy c.id, unit := .core c.core, ctx := c.ctx, alias_ := some c.core }

/-- ERR of a copy status (R167). -/
def copyErr : Nat → Nat
  | 0 => 0
  | 1 => 6
  | 2 => 7
  | 3 => 3
  | _ => 13

/-- Hand a chained command to the matrix engine (R164). -/
def State.chainOp (s : State) (c : Copy) (w : Workgroup) (t : Tile) (x : Word × Word × Word × Word) : State :=
  let (cmd, roof, aoff, fmt) := x
  let (id, s) := s.fresh
  let op : MatOp :=
    { id := id, core := c.core, chained := true, kind := if cmdZ cmd then .mmaz else .mma, slices := c.slices, wg := c.wg,
      set := nth 0 w.accs (cmdSet cmd), tile := t.id, addr := t.offset w + 256 * aoff.toNat, len := aExtent fmt (32 * cmdKb cmd),
      kb := cmdKb cmd, roof := roof.toNat, aoff := aoff.toNat, fmt := fmt, seq := c.id, tileAt := t.offset w, tileLen := t.bytes }
  s.onEngines fun g => { g with matQueue := g.matQueue ++ [op] }

/-- A COPYMM of a slice, before a moment in its program order, whose command names a set and is not handed over (R143). -/
def State.chainBefore (s : State) (u : Nat) (w : Workgroup) (before set : Nat) : Bool :=
  s.engines.copies.any fun c => c.wg == w.uid && c.slices.contains u && decide (c.id < before) && (match c.chain with
    | some (cmd, _) => cmdSet cmd == set
    | none => false)

/-- What becomes of a chained command once its copy has landed: its copy's final status, or none while the engine's
queue is full or an earlier command of its gang on the set is still to come. -/
def State.handOver (s : State) (c : Copy) : State × Option Nat :=
  match c.chain with
  | none => (s, some c.status)
  | some x =>
    if c.status ≠ 0 then (s, some c.status)
    else
      let w := (s.wg? c.wg).getD Workgroup.none
      match s.tileOf w (cmdTile x.1) with
      | none => (s, some 4)
      | some t =>
        if w.accs.length ≤ cmdSet x.1 then (s, some 4)
        else if 8 ≤ (s.engines.matQueue.filter (·.core == c.core)).length || c.slices.any (fun u => s.chainBefore u w c.id (cmdSet x.1)) then
          (s, none)
        else (s.chainOp c w t x, some 0)

/-- A copy completes with a status (R160, R162, R167); its arrival is made while the copy still stands for its workgroup. -/
def State.finishCopy (s : State) (c : Copy) (status : Nat) : State :=
  let s := match c.mbar with
    | none => s
    | some va => s.engineArriveAt c.party va { bytes := true, n := c.charge, gen := c.gen, err := copyErr status }
  let s := s.onEngines fun g => { g with copies := g.copies.filter (·.id != c.id) }
  let s := s.onToken c.wg c.token fun t => t.complete c.id status
  if c.dir.usesTile then
    s.onEngines fun g =>
      { g with tiles := updateWhere (fun t => t.core == c.core && t.entry == c.tile) (fun t => t.finish c.dir status) g.tiles }
  else s

/-- What a copy reads before it issues. -/
structure CopyIn where
  desc : Word
  aprVa : DWord
  mbar : Option DWord
  chain : Option Chain
  deriving DecidableEq, Repr

/-- The tile of a copy's command, and whether the command passes. -/
def State.commandOk (s : State) (l : Lead) (c : Chain) : Except Stop Unit :=
  match s.tileOf l.env.wg (cmdTile c.cmd) with
  | none => .error (.trap (trapAt causeTile l.slice.pc))
  | some t =>
    if c.zeros && matrixOk l.env.wg l.slice.fmt c.cmd c.roof.toNat c.aoff.toNat t then .ok ()
    else .error (.trap (trapAt causeIllegal l.slice.pc))

/-- Issue a copy whose records are read (R296 steps 4 to 6). -/
def State.issueCopy (s : State) (l : Lead) (t : Tasker) (f : CopyDir) (q : CopyIn) (a : Apr) (b : Option Apr) :
    Except Stop (State × GangOut) := do
  let w := l.env.wg
  let n := q.desc.toNat
  let token := field n 0 3
  let tile := if f.usesTile then s.tileOf w (field n 3 8) else none
  if f.usesTile && tile.isNone then throw (.trap (trapAt causeTile l.slice.pc))
  let _ ← match q.chain with
    | some c => s.commandOk l c
    | none => .ok ()
  if (match tile with | some x => !s.tileAdmits f x | none => false) then return (s, .wait)
  let roff := field n 12 19
  let ok := copyValid f w tile roff a b
  let charge := if ok then copyBytes f a b else 0
  let (s, gen) ← s.chargeMbar t.party q.mbar charge
  let (id, s) := s.fresh
  let batch := (w.token token).next
  let entry := (tile.map (·.entry)).getD 0
  let c : Copy :=
    { id := id, slice := l.slice.uid, slices := s.cur, wg := w.uid, core := w.core, ctx := l.env.ctx, dir := f, token := token, tile := entry,
      roff := 64 * roff, desc := q.desc, apr := a, apr2 := b, mbar := q.mbar, gen := gen, charge := charge,
      chain := q.chain.map (fun c => (c.cmd, c.roof, c.aoff, l.slice.fmt)), pos := 0, slot := 0,
      rstate := copySeed (s.ctxOf l.env.ctx).seedSr w.copies, block := [], status := if ok then 0 else 3, landed := !ok }
  let s := s.onWg w.uid fun w => { w with copies := (w.copies + 1) % 2 ^ 32 }
  let s := s.onToken w.uid token fun t => { t with openBatch := t.openBatch ++ [id] }
  let s := match tile with
    | some x => s.onTile x.id fun x => x.issue f token batch
    | none => s
  let s := s.onEngines fun g => { g with copies := g.copies ++ [c] }
  return (if ok then s else s.finishCopy c 3, .plain)

/-- The records of a copy, read through the slice's path. -/
def State.startCopy (s : State) (l : Lead) (f : CopyDir) (desc : Word) (aprVa : DWord)
    (mbar : Option DWord) (chainVa : Option DWord) : Except Stop (State × GangOut) := do
  let t := Tasker.of l.env l.slice
  let (s, chain) ← match chainVa with
    | none => .ok (s, none)
    | some va =>
      if va.toNat % 16 ≠ 0 then .error (.trap (trapOn causeMisaligned l.slice.pc va))
      else
        match s.taskRead t .record va 32 with
        | .error e => .error e
        | .ok (s, bs) => .ok (s, some (Chain.ofBytes bs))
  if (match chain with | some c => !c.zeros | none => false) then throw (.trap (trapAt causeIllegal l.slice.pc))
  let (s, bs) ← s.taskRead t .record aprVa (if f = .g2g then 256 else 128)
  let a := Apr.ofBytes aprVa bs
  let b := if f = .g2g then some (Apr.ofBytes (aprVa + 128) (bs.drop 128)) else none
  let m := match chain with
    | some c => if c.mbar = 0 then none else some c.mbar
    | none => mbar
  if (m.getD 0).toNat % 16 ≠ 0 then throw (.trap (trapOn causeMisaligned l.slice.pc (m.getD 0)))
  s.issueCopy l t f { desc := desc, aprVa := aprVa, mbar := m, chain := chain } a b

/-- The copy engine of a core has room for one more (R160). -/
def State.copyRoom (s : State) (core : Nat) : Bool :=
  decide ((s.engines.copies.filter fun y => y.core == core && !y.held).length < 128)

/-- Both forms of COPY: `c` names the barrier object or the chain record. -/
def State.copyGang (s : State) (i : Instr) (f : CopyDir) (a b : Opnd) (c : Option Opnd) (h chained : Bool) :
    Host.Outcome State Fault Refusal :=
  let pair := fun (x : Slice) e => x.readPair e s.clock true a
  let third := fun (x : Slice) e => match c with
    | some o => let p := x.readPair e s.clock true o; [p.1, p.2]
    | none => []
  s.runGang i (fun x e => [(pair x e).1, (pair x e).2, x.readOpnd e s.clock b] ++ third x e)
    (fun x e => heldOf h [(pair x e).1, (pair x e).2]) fun s l =>
    let desc := l.word s.clock b
    if !l.copyRights then (s, noRights l)
    else if !descriptorOk f desc then (s, .trap (trapAt causeIllegal l.slice.pc))
    else if !s.copyRoom l.env.wg.core || s.curSlices.any (fun x => !s.releaseReady x f.scope) then
      (s, .wait)
    else
      let rel := s.curSlices.foldl (fun s x => s.releaseAt (s.env x) x f.scope) s
      let v := c.map (l.pair s.clock)
      rel.gangStop l (rel.startCopy l f desc (l.pair s.clock a) (if chained then none else v) (if chained then v else none))

def execCopy (p : Option Pfx) (f : CopyDir) (a b : Opnd) (h : Bool) (s : State) : Host.Outcome State Fault Refusal :=
  s.copyGang (.copy p f a b h) f a b (p.bind (·.c)) h false

def execCopymm (c : Opnd) (f : CopyDir) (a b : Opnd) (h : Bool) (s : State) : Host.Outcome State Fault Refusal :=
  s.copyGang (.copymm c f a b h) f a b (some c) h true

/-! ### The copy engine (R159-R161, R221) -/

/-- What an engine's access to one address comes to. -/
inductive Reach where
  | ok (m : Mapping)
  /-- it parks now -/
  | parked
  /-- it cannot be made now -/
  | held (h : Hold)
  | declined (va : DWord) (sub : Nat)
  deriving DecidableEq, Repr

/-- Translate one address for an engine; a fault parks it (R26). -/
def State.reach (s : State) (p : Party) (need : Need) (va : DWord) : State × Reach :=
  match s.declinedOf p.who with
  | some d => (s.clearDeclined p.who, .declined d.ask.va d.subcode)
  | none =>
    match s.find p need va with
    | (s, .ok m) => (s, .ok m)
    | (s, .fault sub level) => (s.parkFault [p.ask need va] (p.ask need va) sub level, .parked)
    | (s, .held h) => (s, .held h)

/-- What a copy's access comes to: a value, a park, nothing for now, or an end with status FAULT. -/
inductive Moved (α : Type) where
  | ok (a : α)
  | parked
  | held (h : Hold)
  | failed
  deriving DecidableEq, Repr

def State.copyReach (s : State) (c : Copy) (wr : Bool) (va : DWord) : State × Moved Mapping :=
  match s.reach c.party { kind := if wr then .copyWrite else .copyRead, wr := wr } va with
  | (s, .ok m) => if s.matBusy c.slice c.id m.pa 1 then (s, .held .busy) else (s, .ok m)
  | (s, .parked) => (s, .parked)
  | (s, .held h) => (s, .held h)
  | (s, .declined _ _) => (s, .failed)

/-- Read an element at an address: its bytes and poison. -/
def State.copyRead (s : State) (c : Copy) (va : DWord) (n : Nat) : State × Moved (List Byte × Bool) :=
  match s.copyReach c false va with
  | (s, .ok m) =>
    match m.part? with
    | some _ => let (s, bs) := s.freeBytes n; (s, .ok (bs, false))
    | none => let (s, bs, p) := s.coreRead c.core m n (if c.apr.noAlloc then 1 else 0); (s, .ok (bs, p))
  | (s, .parked) => (s, .parked)
  | (s, .held h) => (s, .held h)
  | (s, .failed) => (s, .failed)

/-! ### What a copy writes, gathered by pieces (R119, R223) -/

/-- A piece of the roof, by its number among all cores' pieces, as it stands. -/
def State.roofPiece (s : State) (n : Nat) : List Byte × Bool × Bool :=
  (s.roof.getBytes (64 * n) 64, s.roofPoison.contains (2 * n), s.roofPoison.contains (2 * n + 1))

/-- Bytes of B, or of its scales, lie in a roof sector. -/
def MatOp.readsRoof (q : MatOp) (sector : Nat) : Bool :=
  let r := 32 * sector
  let line := r % 2 ^ 25 / 8192
  let l0 := q.roof / 8192
  let es := if fmtB q.fmt = 5 then 16 * q.kb else 32 * q.kb * (if fmtB q.fmt = 1 then 2 else 1)
  let el := ceilDiv es 64
  let sc := if fmtB q.fmt = 5 then 64 * q.kb / fmtBlk q.fmt else 0
  let off := r % 64
  (q.kind == .mma || q.kind == .mmaz) && r / 2 ^ 25 == q.core && decide (l0 ≤ line) &&
    ((decide (line - l0 < el) && decide ((line - l0) * 64 + off < es)) ||
     (decide (el ≤ line - l0) && decide ((line - l0 - el) * 64 + off < sc)))

/-- A piece of the roof is about to be written: an operation that is to read it, and has not yet settled which of the two
it sees, keeps the old piece or goes by the new one (R223; the choice is free). -/
def State.raceRoof (s : State) (n : Nat) : State :=
  s.engines.matQueue.foldl (fun s q =>
    if (q.readsRoof (2 * n) || q.readsRoof (2 * n + 1)) && !q.snap.any (·.1 == n) then
      let (v, s) := s.freeValue
      if v.getLsbD 0 then
        let old := s.roofPiece n
        s.onEngines fun g => { g with matQueue := updateWhere (·.id == q.id) (fun o => { o with snap := (n, old) :: o.snap }) g.matQueue }
      else s
    else s) s

/-- Write bytes of one piece of the roof: a sector written whole has the poison written, another keeps what it has too. -/
def State.writeRoof (s : State) (key : Nat) (cells : List (Byte × Bool)) : State :=
  let s := s.raceRoof (key / 64)
  let whole := sectorsCovered key cells.length
  let bad := (cells.zipIdx.filter (·.1.2)).map fun c => (key + c.2) / 32
  { s with roof := s.roof.setBytes key (cells.map (·.1)),
           roofPoison := bad.foldl (fun p t => insertNat t p) (s.roofPoison.filter fun t => !whole.contains t) }

/-- Write what a copy has gathered. -/
def State.writeBuf (s : State) (core : Nat) (b : CopyBuf) : State :=
  if b.cells.isEmpty then s
  else if b.roof then s.writeRoof b.at_ b.cells
  else s.pkgWrite (some core) b.at_ (b.cells.map (·.1)) b.policy (b.cells.any (·.2))

/-- The size of the pieces in which a destination is written. -/
def CopyBuf.piece (b : CopyBuf) : Nat := if b.roof then 64 else 32

/-- Two runs of bytes lie in one piece of one destination. -/
def CopyBuf.mate (b o : CopyBuf) : Bool := o.roof == b.roof && o.at_ / b.piece == b.at_ / b.piece

/-- Bytes that follow a run, in its piece and its stream. -/
def CopyBuf.follows (b o : CopyBuf) : Bool := o.stream == b.stream && o.mate b && o.policy == b.policy && o.at_ + o.cells.length == b.at_

/-- Runs by rising address, those that meet joined. -/
def joinRuns (bs : List CopyBuf) : List CopyBuf :=
  bs.foldr (fun b out => match out with
    | o :: rest => if b.at_ + b.cells.length = o.at_ then { b with cells := b.cells ++ o.cells } :: rest else b :: out
    | [] => [b]) []

/-- Write the runs of one piece, together (R223). -/
def State.writePiece (s : State) (core : Nat) (bs : List CopyBuf) : State :=
  (joinRuns (bs.mergeSort fun a b => decide (a.at_ ≤ b.at_))).foldl (fun s b => s.writeBuf core b) s

/-- The runs of a copy, those of one piece together. -/
def pieceGroups : List CopyBuf → List (List CopyBuf)
  | [] => []
  | b :: bs =>
    match (pieceGroups bs).partition fun g => g.any b.mate with
    | (mine, others) => (b :: mine.flatten) :: others

/-- Write all that a copy has gathered. -/
def State.flushCopy (s : State) (c : Copy) : State × Copy :=
  ((pieceGroups c.bufs).foldl (fun s g => s.writePiece c.core g) s, { c with bufs := [] })

/-- The destination is the dense side: a tile or a roof. -/
def Copy.dense (c : Copy) : Bool := c.dir.usesRoof || c.dir.intoTile

/-- Gather bytes of one piece: on the dense side they wait until the piece is whole, all its streams together; elsewhere
a piece that is whole, or that its stream leaves, is written. -/
def State.gather (s : State) (c : Copy) (b : CopyBuf) : State × Copy :=
  let left := if c.dense then [] else c.bufs.filter fun o => o.stream == b.stream && !b.follows o
  let s := left.foldl (fun s o => s.writeBuf c.core o) s
  let kept := c.bufs.filter fun o => !left.contains o
  let bufs := if kept.any b.follows then updateWhere b.follows (fun o => { o with cells := o.cells ++ b.cells }) kept else kept ++ [b]
  let mine := fun (o : CopyBuf) => b.mate o && (c.dense || o.stream == b.stream)
  if ((bufs.filter mine).map fun o => o.cells.length).sum = b.piece then
    (s.writePiece c.core (bufs.filter mine), { c with bufs := bufs.filter fun o => !mine o })
  else (s, { c with bufs := bufs })

/-- Gather bytes that may lie in several pieces. -/
def State.gatherAll (s : State) (c : Copy) (b : CopyBuf) : State × Copy :=
  let size := b.piece
  let cut := fun (n : Nat) =>
    let a := Nat.max b.at_ (n * size)
    { b with at_ := a, cells := (b.cells.drop (n * size - b.at_)).take (size - a % size) }
  (natsFrom (b.at_ / size) ((b.at_ + b.cells.length - 1) / size + 1 - b.at_ / size)).foldl
    (fun (r : State × Copy) n => r.1.gather r.2 (cut n)) (s, c)

/-- Bytes of a stream of a copy for memory, at a place that has translated. -/
def State.copyPut (s : State) (c : Copy) (stream : Nat) (place : Nat × Policy) (bs : List Byte) (poison : Bool) : State × Copy :=
  s.gatherAll c { stream := stream, roof := false, at_ := place.1, policy := place.2, cells := bs.map fun b => (b, poison) }

/-- Where bytes for an address go. -/
def State.copyPlace (s : State) (c : Copy) (va : DWord) (noAlloc : Bool) : State × Moved (Nat × Policy) :=
  match s.copyReach c true va with
  | (s, .ok m) => (s, .ok (m.pa, policyOf m.cpol (if noAlloc then 1 else 0)))
  | (s, .parked) => (s, .parked)
  | (s, .held h) => (s, .held h)
  | (s, .failed) => (s, .failed)

/-- Write bytes of a stream of a copy to memory at an address. -/
def State.copyWrite (s : State) (c : Copy) (stream : Nat) (va : DWord) (bs : List Byte) (poison noAlloc : Bool) : State × Moved Copy :=
  match s.copyPlace c va noAlloc with
  | (s, .ok q) => let (s, c) := s.copyPut c stream q bs poison; (s, .ok c)
  | (s, .parked) => (s, .parked)
  | (s, .held h) => (s, .held h)
  | (s, .failed) => (s, .failed)

/-- The workgroup of a copy, and its tile. -/
def State.copyWg (s : State) (c : Copy) : Workgroup := (s.wg? c.wg).getD Workgroup.none

/-- The first dense byte of a copy: in the scratchpad, or in the roof. -/
def State.denseBase (s : State) (c : Copy) : Nat :=
  if c.dir.usesRoof then c.roff else ((s.tileAt c.core c.tile).map fun t => t.offset (s.copyWg c)).getD 0

/-- Write bytes of the dense side at an offset. -/
def State.denseWrite (s : State) (c : Copy) (stream off : Nat) (bs : List Byte) (poison : Bool) : State × Copy :=
  let at_ := s.denseBase c + off
  s.gatherAll c { stream := stream, roof := c.dir.usesRoof, at_ := if c.dir.usesRoof then c.core * 2 ^ 25 + at_ else scratchPa c.core at_,
                  cells := bs.map fun b => (b, poison) }

/-- Advance the destination walk of a direction-4 copy over one incoming element; none once it is at its end. -/
def Apr.nextDst (b : Apr) : Nat → Nat → Option (Nat × AprElem)
  | 0, _ => none
  | fuel + 1, pos =>
    if b.total ≤ pos then none
    else
      match b.elem pos with
      | .nothing => Apr.nextDst b fuel (pos + 1)
      | e => some (pos, e)

/-- Write one incoming element to the destination APR. -/
def State.dstWrite (s : State) (c : Copy) (b : Apr) (bs : List Byte) (poison : Bool) : State × Moved Copy :=
  match b.nextDst (b.total - c.pos2) c.pos2 with
  | none => (s, .ok c)
  | some (k, .at_ va) =>
    match s.copyWrite c 0 va bs poison b.noAlloc with
    | (s, .ok c) => (s, .ok { c with pos2 := k + 1 })
    | r => r
  | some (k, _) => (s, .ok { c with pos2 := k + 1 })

/-- Put one output element where the direction sends it. -/
def State.putElem (s : State) (c : Copy) (bs : List Byte) (poison : Bool) : State × Moved Copy :=
  match c.dir, c.apr2 with
  | .g2g, some b => s.dstWrite c b bs poison
  | _, _ => let (s, c) := s.denseWrite c 0 (c.slot * bs.length) bs poison; (s, .ok c)

/-- Nibbles of a block with its scale and spare bytes, and the rst state after it (R205). -/
def encodeBlock (a : Apr) (state : Word) (xs : List Nat) : List Nat × Nat × Nat × Word :=
  let rm := Rm.ofCode a.crm
  let vs := xs.map fun x => decodeVal ((Fmt.ofCode a.fmtCode).getD .f32) x
  let (e, p) := blockScale a.spol vs
  if e = 0xFF then (xs.map fun _ => 0, e, p, state)
  else
    let step := fun (acc : List Nat × Word) v =>
      let r := encodeE2m1 rm (rst24 (rstStep acc.2)) e p a.spol v
      (acc.1 ++ [r.bits % 16], if r.stepped then rstStep acc.2 else acc.2)
    let (ns, st) := vs.foldl step ([], state)
    (ns, e, p, st)

/-- Pack nibbles low first; an odd count leaves the last high nibble zero. -/
def packNibbles : List Nat → List Byte
  | a :: b :: rest => BitVec.ofNat 8 (a + 16 * b) :: packNibbles rest
  | [a] => [BitVec.ofNat 8 a]
  | [] => []

def State.setCopy (s : State) (c : Copy) : State :=
  s.onEngines fun g => { g with copies := updateWhere (·.id == c.id) (fun _ => c) g.copies }

/-- The E2M1 block at hand is to be written: it is whole, or its copy ends. -/
def Copy.blockDue (c : Copy) : Bool :=
  !c.block.isEmpty && (decide (c.apr.blk ≤ c.block.length) || c.slot + c.block.length == c.apr.emitted || c.status == 2)

/-- What the block at hand writes: its nibble bytes, its plane entry, and the rst state after it. `c.slot` counts the
elements before it. -/
def Copy.blockBytes (c : Copy) : List Byte × List Byte × Word :=
  let (ns, e, p, st) := encodeBlock c.apr c.rstate (c.block.map (·.val.toNat))
  (packNibbles ns, [BitVec.ofNat 8 e, BitVec.ofNat 8 p], st)

/-- The copy once its block is written. -/
def Copy.blockDone (c : Copy) : Copy :=
  { c with slot := c.slot + c.block.length, block := [], places := [], rstate := c.blockBytes.2.2,
           landed := decide (c.apr.total ≤ c.pos) || c.status == 2 }

/-- Translate where the rest of a block's bytes go, by direction 4: the nibbles to the destination's walk, the plane entry
to its own address. The copy keeps what has translated. -/
def State.placeBlock (s : State) (c : Copy) (b : Apr) (n : Nat) : Nat → State × Copy × Moved Unit
  | 0 => (s, c, .ok ())
  | fuel + 1 =>
    let k := c.places.length
    if n < k then (s, c, .ok ())
    else
      let next : Nat × Option DWord := if k = n then (c.pos2, some (b.plane + BitVec.ofNat 64 (2 * (c.slot / c.apr.blk)))) else
        match b.nextDst (b.total - c.pos2) c.pos2 with
        | some (j, .at_ va) => (j + 1, some va)
        | some (j, _) => (j + 1, none)
        | none => (c.pos2, none)
      match next.2 with
      | none => State.placeBlock s { c with pos2 := next.1, places := c.places ++ [none] } b n fuel
      | some va =>
        match s.copyPlace c va b.noAlloc with
        | (s, .ok q) => State.placeBlock s { c with pos2 := next.1, places := c.places ++ [some q] } b n fuel
        | (s, .parked) => (s, c, .parked)
        | (s, .held h) => (s, c, .held h)
        | (s, .failed) => (s, c, .failed)

/-- Write the bytes of a block whose places have translated. -/
def State.putPlaces (s : State) (c : Copy) : State × Copy :=
  let (bytes, plane, _) := c.blockBytes
  let poison := c.block.any (·.poison)
  let items : List (Nat × List Byte) := (bytes.map fun x => (0, [x])) ++ [(1, plane)]
  (items.zip c.places).foldl (fun (r : State × Copy) q => match q.2 with
    | some place => r.1.copyPut r.2 q.1.1 place q.1.2 poison
    | none => r) (s, c)

/-- Write the E2M1 block at hand; nothing of it is written before all its bytes have their places (R411; DESIGN CHOICE, log
97). -/
def State.putBlock (s : State) (c : Copy) : State × Moved Copy :=
  match c.dir, c.apr2 with
  | .g2g, some b =>
    let n := c.blockBytes.1.length
    match s.placeBlock c b n (n + 1) with
    | (s, d, .ok _) => let (s, d) := s.putPlaces d; (s, .ok d.blockDone)
    | (s, d, .parked) => (s.setCopy d, .parked)
    | (s, d, .held h) => (s.setCopy d, .held h)
    | (s, d, .failed) => (s.setCopy d, .failed)
  | _, _ =>
    let poison := c.block.any (·.poison)
    let (s, d) := s.denseWrite c 0 (c.slot / 2) c.blockBytes.1 poison
    let (s, d) := s.denseWrite d 1 (ceilDiv c.apr.emitted 2 + 2 * (c.slot / c.apr.blk)) c.blockBytes.2.1 poison
    (s, .ok d.blockDone)

/-- The copy after a step of its walk. -/
def Copy.advance (c : Copy) (poison : Bool) : Copy :=
  { c with pos := c.pos + 1, status := if poison then 1 else c.status, landed := c.apr.total ≤ c.pos + 1 }

/-- An element read by the first APR, as bits with its poison, on its way (R157, R159). -/
def State.copyElem (s : State) (c : Copy) (bs : List Byte) (poison : Bool) : State × Moved Copy :=
  let a := c.apr
  if toE2m1 a then
    let d : Copy := { c with block := c.block ++ [{ val := BitVec.ofNat 32 (bytesToNat bs), poison := poison }] }
    let d : Copy := d.advance poison
    (s, .ok { d with landed := d.landed && !d.blockDue })
  else
    let src := (Fmt.ofCode a.fmtCode).getD .f32
    let dst := (Fmt.ofCode a.dfmt).getD .f32
    let r := convert src dst (Rm.ofCode a.crm) false false (rst24 (rstStep c.rstate)) (bytesToNat bs)
    let out := if a.conv then natToBytes (fmtBytes a.dfmt) r.bits else bs
    match s.putElem c out poison with
    | (s, .ok d) =>
      (s, .ok { (d.advance poison) with slot := c.slot + 1, rstate := if a.conv && r.stepped then rstStep c.rstate else c.rstate })
    | r => r

/-- One element of a copy out of a tile: a dense slot goes to the writing APR. -/
def State.copyOut (s : State) (c : Copy) : State × Moved Copy :=
  let a := c.apr
  match a.elem c.pos with
  | .nothing => (s, .ok (c.advance false))
  | .pad => (s, .ok { (c.advance false) with slot := c.slot + 1 })
  | .at_ va =>
    let (s, bs, poison) := s.scratchRead (scratchPa c.core (s.denseBase c + c.slot * a.size)) a.size
    match s.copyWrite c 0 va bs poison a.noAlloc with
    | (s, .ok d) => (s, .ok { (d.advance poison) with slot := c.slot + 1 })
    | r => r

/-- One step of a copy: the write of a block that is due, or its next element. -/
def State.copyStep (s : State) (c : Copy) : State × Moved Copy :=
  let a := c.apr
  if c.blockDue then s.putBlock c
  else if !c.dir.reads then s.copyOut c
  else
    match a.elem c.pos with
    | .nothing =>
      -- a block whose last elements are skipped is complete already
      (s, .ok (c.advance false))
    | .pad => s.copyElem c (a.padBytes) false
    | .at_ va =>
      match s.copyRead c va a.size with
      | (s, .ok (bs, poison)) => s.copyElem c bs poison
      | (s, .parked) => (s, .parked)
      | (s, .held h) => (s, .held h)
      | (s, .failed) => (s, .failed)

/-- A copy after its step: what it has gathered is written once its last element is. -/
def State.settleCopy (s : State) (c : Copy) : State :=
  let (s, c) := if c.landed then s.flushCopy c else (s, c)
  s.setCopy c

/-- A declined fault ends a copy with status FAULT, every element before the faulting one written and none after it (R161):
a block of which elements have been read is written first, and of a block whose own write was declined what comes before
that byte. -/
def State.failCopy (s : State) (c : Copy) : State × Copy :=
  if c.block.isEmpty then (s, { c with status := 2, landed := true })
  else if c.blockDue then let (s, d) := s.putPlaces c; (s, { d with status := 2, landed := true })
  else (s, { c with status := 2 })

/-- The engine starts copies in issue order (R160): one that has not begun waits for the older ones of its core. -/
def State.copyStarts (s : State) (c : Copy) : Bool :=
  let begun := fun (y : Copy) => decide (0 < y.pos) || y.landed || s.isParked (.copy y.id) || (s.declinedOf (.copy y.id)).isSome
  begun c || s.engines.copies.all fun y => y.core != c.core || y.held || decide (c.id ≤ y.id) || begun y

/-- COPY_ELEMENT (R160, R161): the engine moves one element of a copy; a declined fault ends it with status FAULT. -/
def execCopyElement (id : Nat) (s : State) : Host.Outcome State Fault Refusal :=
  match s.engines.copies.find? (·.id == id) with
  | none => notNow "COPY_ELEMENT"
  | some c =>
    if c.landed || c.held || !s.copyStarts c then notNow "COPY_ELEMENT"
    else
      match s.copyStep c with
      | (t, .ok d) => .next (t.settleCopy d)
      | (t, .parked) => .next t
      | (t, .held h) => t.waitFor "COPY_ELEMENT" h
      | (t, .failed) => let (t, d) := t.failCopy ((t.engines.copies.find? (·.id == id)).getD c); .next (t.settleCopy d)

/-- COPY_COMPLETE (R160, R164). -/
def execCopyComplete (id : Nat) (s : State) : Host.Outcome State Fault Refusal :=
  match s.engines.copies.find? (·.id == id) with
  | none => notNow "COPY_COMPLETE"
  | some c =>
    if !c.landed then notNow "COPY_COMPLETE"
    else
      match s.handOver c with
      | (_, none) => notNow "COPY_COMPLETE"
      | (s, some status) => .next (s.finishCopy c status)

end Sys2Proof.Machine
end

