-- ==== Sys2Proof/Machine/Barrier.lean ====
section
/-! DEFINITION. Hardware barriers (spec/13_instr_memory_matrix.md R302; spec/16_scheduling.md R370). -/

namespace Sys2Proof.Machine

/-- Members of a BAR of a slice at a scope: live slices (R370, log entry 18). -/
def State.barMembers (s : State) (x : Slice) (sc : Scope) : List Slice :=
  let e := s.env x
  s.slices.filter fun y =>
    let f := s.env y
    let sameLaunch := f.launch.id == e.launch.id
    y.live && match sc with
      | .slice => y.uid == x.uid
      | .grp => y.group == x.group
      | .core => f.wg.uid == e.wg.uid
      | .quad => sameLaunch && quadOfCore f.origin == quadOfCore e.origin
      | .die => sameLaunch && dieOfCore f.origin == dieOfCore e.origin
      | .pkg => sameLaunch
      | .pod => f.launch.pkt.podCount != 0 && f.launch.pkt.podTag == e.launch.pkt.podTag

/-- Whether the scope of a slice, as it stands where the slice runs, includes another (R120). -/
def Env.includes (e f : Env) (sc : Scope) : Bool :=
  match sc with
  | .core => f.core == e.core
  | .quad => quadOfCore f.core == quadOfCore e.core
  | .die => dieOfCore f.core == dieOfCore e.core
  | _ => true

/-- The members that a slice's arrival at a BAR joins: those that the oldest round waiting for it counted, else those of the
round that it begins (R370). -/
def State.barRound (s : State) (x : Slice) (sc : Scope) : List Nat :=
  match minBy? (fun y => (y.since.getD 0).toNat) (s.slices.filter fun y => y.status == .atBar sc && y.barSet.contains x.uid) with
  | some y => y.barSet
  | none => (s.barMembers x sc).map (·.uid)

/-- The members of a round that still live. -/
def State.barLive (s : State) (us : List Nat) : List Slice := (us.filterMap s.slice?).filter (·.live)

/-- Whether a slice at a BAR has a member that its scope does not include, as one that is away as a guest (R134). -/
def State.barApart (s : State) (sc : Scope) (x : Slice) : Bool :=
  (s.barLive (s.barRound x sc)).any fun y => !(s.env x).includes (s.env y) (s.widen x sc)

/-- A slice arrives at a BAR. -/
def State.arriveBar (s : State) (sc : Scope) (u : Nat) : State :=
  match s.slice? u with
  | none => s
  | some x => let us := s.barRound x sc; s.onSlice u fun x => { (x.waiting s.clock) with status := .atBar sc, barSet := us }

/-- The slices that wait at a BAR of a scope for one of the issuing gang, and whose scope does not include it. -/
def State.barLeftOut (s : State) (sc : Scope) : List Slice :=
  s.slices.filter fun y => y.status == .atBar sc && !s.cur.contains y.uid && s.cur.any y.barSet.contains && s.barApart sc y

/-- BAR: a release, then an arrival of every slice of the gang. A slice already there traps whose scope does not include
one that arrives (R134). -/
def execBar (sc : Scope) (s : State) : Host.Outcome State Fault Refusal :=
  s.runGang (.bar sc) (fun _ _ => []) (fun _ _ => []) fun s l =>
    let pkt := l.env.launch.pkt
    if (decide (3 ≤ sc.rank) && !pkt.coop) || (sc == .pod && pkt.podCount == 0) || s.curSlices.any (s.barApart sc) then (s, .trap (trapAt causeIllegal l.slice.pc))
    else if s.curSlices.any fun x => !s.releaseReady x (s.widen x sc) then (s, .wait)
    else
      let s := s.curSlices.foldl (fun s x => s.releaseAt (s.env x) x (s.widen x sc)) s
      let s := s.cur.foldl (State.arriveBar · sc) s
      ((s.barLeftOut sc).foldl (fun s y => (s.partSlices [y.uid]).takeTrap y.uid (trapAt causeIllegal y.pc)) s, .hold)

/-- The parts of the pod other than this one (R430). -/
def State.otherParts (s : State) : List Nat :=
  (natsFrom 0 (field (s.word (controlBlock + 0x74)).toNat 8 6 + 1)).filter (· != s.partNumber)

/-- Parts whose arrival at a POD_TAG is in. -/
def State.arrivedParts (s : State) (tag : Word) : List Nat :=
  ((s.outside.podArrivals.filter (·.1 == tag)).map (·.2)).eraseDups

/-- Take the oldest arrival of each part at a POD_TAG. -/
def takeArrivals (tag : Word) (xs : List (Word × Nat)) : List (Word × Nat) :=
  ((xs.filter (·.1 == tag)).map (·.2)).eraseDups.foldl (fun xs p => xs.erase (tag, p)) xs

/-- Release the members of a barrier: what each has done goes before what any of them does next, a member's scope being
what it is now (R121, R134); each goes on after its BAR. -/
def State.releaseBar (s : State) (sc : Scope) (ms : List Slice) : State :=
  let s := ms.foldl (fun s x => s.releaseAt (s.env x) x (s.widen x sc)) s
  let s := ms.foldl (fun s x =>
    (s.acquireAt (s.env x) (s.widen x sc)).onSlice x.uid fun y =>
      { (((y.stepLatch []).next (.bar sc)).retired) with status := .ready, readySince := s.clock, barSet := [] }) s
  ((ms.map fun x => (x.group, x.gang)).eraseDups).foldl (fun s g =>
    s.partIfApart ((ms.filter fun x => x.group == g.1 && x.gang == g.2).map (·.uid))) s

/-- BAR_RELEASE (R370): every member has arrived. At scope pod the part's own arrival goes to the other parts first, and
the release follows when POD_COUNT - 1 of them have arrived. -/
def execBarRelease (u : Nat) (s : State) : Host.Outcome State Fault Refusal :=
  match s.slice? u with
  | none => notNow "BAR_RELEASE"
  | some x =>
    match x.status with
    | .atBar sc =>
      let ms := s.barLive x.barSet
      if !ms.all fun y => y.status == .atBar sc && y.barSet == x.barSet && s.releaseReady y (s.widen y sc) then notNow "BAR_RELEASE"
      else if sc ≠ .pod then .next (s.releaseBar sc ms)
      else
        let pkt := (s.env x).launch.pkt
        let tag := pkt.podTag
        if !s.outside.podSent.contains tag then
          let s := s.otherParts.foldl (fun s p => s.sendFrame p 3 (wordBytes tag ++ zeros 4)) s
          .next (s.onOutside fun o => { o with podSent := tag :: o.podSent })
        else if (s.arrivedParts tag).length + 1 < pkt.podCount then notNow "BAR_RELEASE"
        else
          let s := s.onOutside fun o => { o with podArrivals := takeArrivals tag o.podArrivals, podSent := o.podSent.erase tag }
          .next (s.releaseBar sc ms)
    | _ => notNow "BAR_RELEASE"

end Sys2Proof.Machine
end

