-- ==== Sys2Proof/Machine/Convert.lean ====
section
/-! DEFINITION. Conversions, block formats and the format register (spec/12_instr_lane_arith.md R266-R271). -/

namespace Sys2Proof.Machine

/-! ### CVTF and CVTI (R266, R267) -/

/-- Convert the element at a position of a word into the old destination word: the result, and what the conversion was. -/
def convertWord (src dst : Fmt) (pos : Nat) (rm : Rm) (sat ftz : Bool) (seed : Word) (a old : Word) : Word × FRes :=
  let o := pos * Nat.min src.bits dst.bits
  let os := o / src.bits * src.bits
  let od := o / dst.bits * dst.bits
  let r := convert src dst rm sat ftz (rst24 (rstStep seed)) (field a.toNat os src.bits)
  let m := (2 ^ dst.bits - 1) * 2 ^ od
  let keep : Word := if dst.bits = 32 then 0 else old &&& ~~~(BitVec.ofNat 32 m)
  (keep ||| BitVec.ofNat 32 (r.bits % 2 ^ dst.bits * 2 ^ od), r)

/-- The mode of a conversion: rst only where it narrows a float (R267). -/
def Slice.convRm (x : Slice) (p : Option Pfx) (src dst : Fmt) : Rm :=
  if narrows src dst then x.rm p else (x.rm p).noRst

def State.convOp (s : State) (i : Instr) (p : Option Pfx) (src dst : Fmt) (pos : BitVec 3) (d : Dst) (a : Opnd) (h sat : Bool) :
    Host.Outcome State Fault Refusal :=
  let whole := decide (dst.bits = 32)
  let rs := fun (x : Slice) e =>
    x.readOpnd e s.clock a :: (if whole then [] else [x.readOpnd e s.clock d.asOpnd])
  s.runLanes i p rs (home := fun x => x.convRm p src dst == .rst) (eval := fun x e =>
    let ra := x.readOpnd e s.clock a
    let old := x.readOpnd e s.clock d.asOpnd
    let rm := x.convRm p src dst
    let take := takeOf x p
    let r := fun l => convertWord src dst pos.toNat rm sat x.ftz (x.seeds.get l) (ra.val l) (old.val l)
    { dst := d, held := heldOf h [ra],
      regs := [mkReg (allUniform (rs x e) && rm != .rst) fun l => (r l).1],
      flags := Flags.all ((maskLanes take).map fun l => (r l).2.flags),
      seeds := some (L4.ofFn fun l =>
        if take.getLsbD l && (r l).2.stepped then rstStep (x.seeds.get l) else x.seeds.get l) })

def execCvtf (p : Option Pfx) (src dst : Fmt) (pos : BitVec 3) (d : Dst) (a : Opnd) (h : Bool) (s : State) :
    Host.Outcome State Fault Refusal :=
  s.convOp (.cvtf p src dst pos d a h) p src dst pos d a h false

def execCvti (p : Option Pfx) (src dst : Fmt) (pos : BitVec 3) (d : Dst) (a : Opnd) (h : Bool) (s : State) :
    Host.Outcome State Fault Refusal :=
  s.convOp (.cvti p src dst pos d a h) p src dst pos d a h (dst.isInt && saturate p)

/-! ### Lanes of a gang (R272) -/

/-- The value of a source in each participant: gang lane order and word, ascending. -/
def State.participants (s : State) (p : Option Pfx) (o : Opnd) : List (Nat × Word) :=
  s.curSlices.flatMap fun x =>
    let r := x.readOpnd (s.env x) s.clock o
    (maskLanes (takeOf x p)).map fun l => (x.laneBase + l, r.val l)

/-! ### Block formats (R268-R270) -/

/-- The scale and spare bytes of the block that holds a lane. -/
def blockOf (amax : Bool) (n : Nat) (ps : List (Nat × Word)) (lane : Nat) : Nat × Nat :=
  blockScale amax ((ps.filter fun q => q.1 / n == lane / n).map fun q => decodeFloat .f32 q.2.toNat)

def execBscale (p : Option Pfx) (d : Dst) (a : Opnd) (h : Bool) (s : State) : Host.Outcome State Fault Refusal :=
  let ps := s.participants p a
  s.runLanes (.bscale p d a h) p (fun x e => [x.readOpnd e s.clock a]) fun x e =>
    let f := fun l => let b := blockOf x.amax x.blockSize ps (x.laneBase + l); BitVec.ofNat 32 (b.1 + 256 * b.2)
    { dst := d, held := heldOf h [x.readOpnd e s.clock a], regs := [mkReg (takeOf x p == 0xF) f] }

/-- A lane's nibble (R269). -/
def packNibble (x : Slice) (p : Option Pfx) (l : Nat) (a b : Word) : FRes :=
  encodeE2m1 (x.rm p) (rst24 (rstStep (x.seeds.get l))) (field b.toNat 0 8) (field b.toNat 8 8) x.amax
    (decodeFloat .f32 a.toNat)

def execBpack (p : Option Pfx) (d : Dst) (a b : Opnd) (h : Bool) (s : State) : Host.Outcome State Fault Refusal :=
  let nibbles := s.curSlices.flatMap fun x =>
    let ra := x.readOpnd (s.env x) s.clock a
    let rb := x.readOpnd (s.env x) s.clock b
    (maskLanes (takeOf x p)).map fun l => (x.laneBase + l, packNibble x p l (ra.val l) (rb.val l))
  s.runLanes (.bpack p d a b h) p (fun x e => [x.readOpnd e s.clock a, x.readOpnd e s.clock b])
    (home := fun x => x.rm p == .rst) (eval := fun x e =>
    let mine := fun l => (nibbles.find? (·.1 == x.laneBase + l)).map (·.2)
    let word := fun l =>
      BitVec.ofNat 32 ((nibbles.filter fun q => q.1 / 8 == (x.laneBase + l) / 8).map fun q => q.2.bits * 2 ^ (4 * (q.1 % 8))).sum
    { dst := d, held := heldOf h [x.readOpnd e s.clock a],
      regs := [mkReg (takeOf x p == 0xF) word],
      flags := Flags.all (lanes.filterMap fun l => (mine l).map (·.flags)),
      seeds := some (L4.ofFn fun l => match mine l with
        | some r => if r.stepped then rstStep (x.seeds.get l) else x.seeds.get l
        | none => x.seeds.get l) })

def execBunpk (p : Option Pfx) (d : Dst) (a b : Opnd) (h : Bool) (s : State) : Host.Outcome State Fault Refusal :=
  s.runLanes (.bunpk p d a b h) p (fun x e => [x.readOpnd e s.clock a, x.readOpnd e s.clock b]) fun x e =>
    let ra := x.readOpnd e s.clock a
    let rb := x.readOpnd e s.clock b
    let r := fun l =>
      let w := (rb.val l).toNat
      roundVal .f32 .rne false 0
        (decodeE2m1 (field (ra.val l).toNat (4 * ((x.laneBase + l) % 8)) 4) (field w 0 8) (field w 8 8) x.amax)
    { dst := d, held := heldOf h [ra],
      regs := [mkReg false fun l => BitVec.ofNat 32 (r l).bits],
      flags := Flags.all ((maskLanes (takeOf x p)).map fun l => (r l).flags) }

/-! ### The format register (R271) -/

/-- The word that FMTSET writes: that of the lowest gang lane that takes the result. -/
def State.fmtWord (s : State) (a : Opnd) : Option Word := ((s.participants none a).head?).map (·.2)

def execFmtset (a : Opnd) (h : Bool) (s : State) : Host.Outcome State Fault Refusal :=
  let w := s.fmtWord a
  s.runLanes (.fmtset a h) none (fun x e => [x.readOpnd e s.clock a])
    (fun x e => { fmt := w, held := heldOf h [x.readOpnd e s.clock a] })
    (fun x _ => match w with
      | some v => if fmtOk v then none else some (trapAt causeIllegal x.pc)
      | none => none)

def execFmtget (d : Dst) (s : State) : Host.Outcome State Fault Refusal :=
  s.runLanes (.fmtget d) none (fun _ _ => []) fun x _ => { dst := d, regs := [.u x.fmt] }

end Sys2Proof.Machine
end

