-- ==== Sys2Proof/Machine/System.lean ====
section
/-! DEFINITION. Control registers, traps, events and translation invalidation (spec/15_instr_array_system.md
R348-R355). -/

namespace Sys2Proof.Machine

/-! ### Control registers (R349, R350) -/

inductive Csr where
  | epc | ecause | eaddr | fpflags | ctxId | ctxRoot | seedSr | spillBase | spillSize | pinQuota | frameWait | guestFrames
  | hopLimit | regangWindow | divRotate | waitwLimit | dutyMode | sysCtx | quantum | chunk
  | yieldCap (stack : Nat)
  | rfmHold (stack : Nat)
  | rfmCount (stack : Nat)
  deriving DecidableEq, Repr

/-- The register of a number. -/
def Csr.ofNum (n : Nat) : Option Csr :=
  if n / 16 = 0x80 then some (.yieldCap (n % 16))
  else if n / 16 = 0x81 then some (.rfmHold (n % 16))
  else if n / 16 = 0x82 then some (.rfmCount (n % 16))
  else
    match n with
    | 0x000 => some .epc
    | 0x001 => some .ecause
    | 0x002 => some .eaddr
    | 0x100 => some .fpflags
    | 0x200 => some .ctxId
    | 0x201 => some .ctxRoot
    | 0x202 => some .seedSr
    | 0x203 => some .spillBase
    | 0x204 => some .spillSize
    | 0x205 => some .pinQuota
    | 0x206 => some .frameWait
    | 0x207 => some .guestFrames
    | 0x208 => some .hopLimit
    | 0x209 => some .regangWindow
    | 0x20A => some .divRotate
    | 0x20B => some .waitwLimit
    | 0x500 => some .dutyMode
    | 0x501 => some .sysCtx
    | 0x502 => some .quantum
    | 0x503 => some .chunk
    | _ => none

/-- 64-bit registers. -/
def Csr.wide : Csr → Bool
  | .epc | .eaddr | .ctxRoot | .spillBase => true
  | _ => false

/-- What a slice that is not privileged may read. -/
def Csr.userReads : Csr → Bool
  | .epc | .ecause | .eaddr | .fpflags | .ctxId | .seedSr | .regangWindow | .divRotate | .waitwLimit => true
  | _ => false

/-- What it may write. -/
def Csr.userWrites : Csr → Bool
  | .epc | .fpflags | .seedSr | .regangWindow | .divRotate | .waitwLimit => true
  | _ => false

/-- The context whose registers a slice reaches: its own, or that of SYS_CTX for a privileged slice. -/
def Slice.csrCtx (x : Slice) (e : Env) : Nat := if e.group.firmware then x.sysCtx.toNat % 4096 else e.ctx

/-- The value of a register. -/
def State.csrRead (s : State) (e : Env) (x : Slice) (r : Csr) : DWord :=
  let c := s.ctxOf (x.csrCtx e)
  let w := fun (v : Word) => v.setWidth 64
  match r with
  | .epc => x.epc
  | .ecause => w x.ecause
  | .eaddr => x.eaddr
  | .fpflags => w e.group.fpflags
  | .ctxId => BitVec.ofNat 64 (x.csrCtx e)
  | .ctxRoot => c.root
  | .seedSr => w c.seedSr
  | .spillBase => c.spillBase
  | .spillSize => w c.spillSize
  | .pinQuota => w c.pinQuota
  | .frameWait => w c.frameWait
  | .guestFrames => w c.guestFrames
  | .hopLimit => w c.hopLimit
  | .regangWindow => w c.regangWindow
  | .divRotate => w c.divRotate
  | .waitwLimit => w c.waitwLimit
  | .dutyMode => w s.dutyMode
  | .sysCtx => w x.sysCtx
  | .quantum => w s.quantum
  | .chunk => w s.chunk
  | .yieldCap k => w (s.stackCsr k).yieldCap
  | .rfmHold k => w (s.stackCsr k).rfmHold
  | .rfmCount k => w (s.stackCsr k).rfmCount

/-- A value that may be written: in range, no reserved bit set. -/
def Csr.accepts (r : Csr) (v : DWord) : Bool :=
  let n := v.toNat
  let within := fun (lo hi : Nat) => decide (lo ≤ n) && decide (n ≤ hi)
  match r with
  | .epc => n % 2 == 0
  | .ecause => field n 24 8 == 0 && field n 12 4 == 0
  | .eaddr | .seedSr | .rfmCount _ => true
  | .fpflags => decide (n < 32)
  | .ctxId => false
  | .ctxRoot => n % 2048 == 0
  | .spillBase => n % 2048 == 0
  | .spillSize => n % 2048 == 0
  | .pinQuota => within 0 491520
  | .frameWait => within 1 (2 ^ 24)
  | .guestFrames => within 0 64
  | .hopLimit => within 1 15
  | .regangWindow => within 1 (2 ^ 24)
  | .divRotate => within 1 65535
  | .waitwLimit => within 1 (2 ^ 24)
  | .dutyMode => decide (n < 256)
  | .sysCtx => decide (n < 4096)
  | .quantum => within 4096 (2 ^ 31)
  | .chunk => within 1 65535
  | .yieldCap _ => within 1 255
  | .rfmHold _ => within 0 65535

/-- Write a register of a slice. -/
def State.csrWrite (s : State) (u : Nat) (r : Csr) (v : DWord) : State :=
  match s.slice? u with
  | none => s
  | some x =>
    let e := s.env x
    let w := lo32 v
    let ctx := fun (f : Ctx → Ctx) => s.onCtx (x.csrCtx e) f
    match r with
    | .epc => s.onSlice u fun y => { y with epc := v }
    | .ecause => s.onSlice u fun y => { y with ecause := w }
    | .eaddr => s.onSlice u fun y => { y with eaddr := v }
    | .fpflags => s.onGroup x.group fun g => { g with fpflags := w }
    | .ctxId => s
    | .ctxRoot => ctx fun c => { c with root := v }
    | .seedSr => ctx fun c => { c with seedSr := w }
    | .spillBase => ctx fun c => { c with spillBase := v }
    | .spillSize => ctx fun c => { c with spillSize := w }
    | .pinQuota => ctx fun c => { c with pinQuota := w }
    | .frameWait => ctx fun c => { c with frameWait := w }
    | .guestFrames => ctx fun c => { c with guestFrames := w }
    | .hopLimit => ctx fun c => { c with hopLimit := w }
    | .regangWindow => ctx fun c => { c with regangWindow := w }
    | .divRotate => ctx fun c => { c with divRotate := w }
    | .waitwLimit => ctx fun c => { c with waitwLimit := w }
    | .dutyMode => { s with dutyMode := w }
    | .sysCtx => s.onSlice u fun y => { y with sysCtx := w }
    | .quantum => { s with quantum := w }
    | .chunk => { s with chunk := w }
    | .yieldCap k => s.setStackCsr k fun c => { c with yieldCap := w }
    | .rfmHold k => s.setStackCsr k fun c => { c with rfmHold := w }
    | .rfmCount k => s.setStackCsr k fun c => { c with rfmCount := w }

/-- The register that the lowest lane of a slice names in B. -/
def Slice.csrNamed (x : Slice) (e : Env) (clock : DWord) (b : Opnd) : Option Csr :=
  Csr.ofNum ((x.readOpnd e clock b).val (lowestLane x.m0)).toNat

/-- CSRR: a register that each slice holds gives each its own value (log entry 16). -/
def execCsrr (d : Dst) (b : Opnd) (s : State) : Host.Outcome State Fault Refusal :=
  let i : Instr := .csrr d b
  s.runGang i (fun x e => [x.readOpnd e s.clock b]) (fun _ _ => []) fun s l =>
    let illegal := (s, GangOut.trap (trapAt causeIllegal l.slice.pc))
    match l.slice.csrNamed l.env s.clock b with
    | none => illegal
    | some r =>
      if !(l.env.group.firmware || r.userReads) then illegal
      else if r.wide && !(d.okAt .pair && d.inFrame l.slice.frameRegs 2) then illegal
      else
        let regs := fun (x : Slice) =>
          let v := s.csrRead (s.env x) x r
          if r.wide then [Reg.u (lo32 v), Reg.u (hi32 v)] else [Reg.u (lo32 v)]
        (({ s with slices := s.slices.map fun (x : Slice) =>
            if s.cur.contains x.uid then (x.retireWith i d (regs x) []).retired else x }).partIfApart s.cur, .hold)

/-- CSRW: the leader's value; a register that each slice holds is written in each. -/
def execCsrw (a b : Opnd) (h : Bool) (s : State) : Host.Outcome State Fault Refusal :=
  let i : Instr := .csrw a b h
  let wide := fun (x : Slice) e => ((x.csrNamed e s.clock b).map (·.wide)).getD false
  let regs := fun (x : Slice) e =>
    if wide x e then let p := x.readPair e s.clock true a; [p.1, p.2] else [x.readOpnd e s.clock a]
  s.runGang i (fun x e => regs x e ++ [x.readOpnd e s.clock b]) (fun x e => heldOf h (regs x e)) fun s l =>
    let illegal := (s, GangOut.trap (trapAt causeIllegal l.slice.pc))
    match l.slice.csrNamed l.env s.clock b with
    | none => illegal
    | some r =>
      let v := if r.wide then pairVal (l.slice.readPair l.env s.clock true a) l.lane
        else ((l.slice.readOpnd l.env s.clock a).val l.lane).setWidth 64
      if !(l.env.group.firmware || r.userWrites) then illegal
      else if r.wide && !(a.okAt .pair && a.inFrame l.slice.frameRegs 2) then illegal
      else if !r.accepts v then illegal
      else (s.cur.foldl (fun s u => s.csrWrite u r v) s, .plain)

/-! ### Traps by instruction (R352, R353) -/

/-- The trap of TRAP and BRK: EPC is the next instruction. -/
def codeTrap (cause : Nat) (i : Instr) (x : Slice) (b : Word) : TrapInfo :=
  { cause := cause, info := b.toNat % 256, eaddr := x.pc, epc := x.after i, fpc := x.pc }

def execTrap (b : Opnd) (s : State) : Host.Outcome State Fault Refusal :=
  s.runGang (.trap b) (fun x e => [x.readOpnd e s.clock b]) (fun _ _ => []) fun s l =>
    (s, .trap (codeTrap causeUser (.trap b) l.slice ((l.slice.readOpnd l.env s.clock b).val l.lane)))

def execBrk (b : Opnd) (s : State) : Host.Outcome State Fault Refusal :=
  s.runGang (.brk b) (fun x e => [x.readOpnd e s.clock b]) (fun _ _ => []) fun s l =>
    (s, .trap (codeTrap causeBreak (.brk b) l.slice ((l.slice.readOpnd l.env s.clock b).val l.lane)))

/-- ERET: only in the frame of trap entry. -/
def execEret (s : State) : Host.Outcome State Fault Refusal :=
  s.runEach .eret (fun _ _ => []) (fun _ => 0) fun s x e =>
    match x.tstate with
    | none => (s, .trap (trapAt causeIllegal x.pc))
    | some t =>
      if !x.inTrapFrame then (s, .trap (trapAt causeIllegal x.pc))
      else if x.epc.getLsbD 0 then (s, .trap (trapOn causeMisaligned x.pc x.epc))
      else s.withTop e x (x.returnFromTrap t)

/-! ### Events (R354) -/

/-- Software events that the arbiter's input holds (log entry 17). -/
def arbiterRoom : Nat := 16

def execEvpost (a b : Opnd) (h : Bool) (s : State) : Host.Outcome State Fault Refusal :=
  let i : Instr := .evpost a b h
  let pair := fun (x : Slice) e => x.readPair e s.clock true a
  s.runGang i (fun x e => [(pair x e).1, (pair x e).2, x.readOpnd e s.clock b])
    (fun x e => heldOf h [(pair x e).1, (pair x e).2]) fun s l =>
    let code := ((l.slice.readOpnd l.env s.clock b).val l.lane).toNat
    if 2 ^ 16 ≤ code then (s, .trap (trapAt causeIllegal l.slice.pc))
    else if s.curSlices.any (fun x => !s.releaseReady x .pkg) ||
        decide (arbiterRoom ≤ (s.outside.events.filter (·.cls == 0)).length) then (s, .wait)
    else
      let s := s.curSlices.foldl (fun s x => s.releaseAt (s.env x) x .pkg) s
      let ev : Event :=
        { source := srcDie (dieOfCore l.env.origin), cls := 0, code := code, ctx := some l.env.ctx, core := some l.env.origin,
          payload := pairVal (pair l.slice l.env) l.lane, detail := BitVec.ofNat 64 (l.env.coords l.slice) }
      (s.onOutside fun o => { o with events := o.events ++ [ev] }, .plain)

/-! ### Invalidation (R24, R355) -/

/-- Remove entries of TLBs and walk caches part-wide; accesses that translated through them are performed. -/
def State.tlbRemove (s : State) (tlb : TlbEntry → Bool) (walk : WalkEntry → Bool) : State :=
  let s := s.engines.copies.foldl (fun (s : State) c => let r := s.flushCopy c; r.1.setCopy r.2) ((s.drainWts fun _ => true).flushDeferred fun _ => true)
  s.onCaches fun c => { c with tlb := c.tlb.filter (fun t => !tlb t), walkCache := c.walkCache.filter (fun w => !walk w) }

def State.invalidate (s : State) (kind ctx va : Nat) : State :=
  match kind with
  | 0 => s.tlbRemove (fun t => t.covers ctx va) (fun w => w.ctx == ctx && w.tag == va / 2 ^ levelShift w.level)
  | 1 => s.tlbRemove (fun t => t.ctx == ctx) (fun w => w.ctx == ctx)
  | _ => s.tlbRemove (fun _ => true) (fun _ => true)

/-- Whether a remote access of a context, or of any, still has no reply. -/
def State.remotePending (s : State) (ctx : Option Nat) : Bool :=
  s.outside.remotes.any fun r => r.reply.isNone && match ctx, s.slice? r.slice with
    | some c, some x => (s.env x).ctx == c
    | _, _ => true

/-- TLBINV: it waits, the entries gone, for the remote accesses that may have translated through them. -/
def execTlbinv (a b : Opnd) (h : Bool) (s : State) : Host.Outcome State Fault Refusal :=
  let i : Instr := .tlbinv a b h
  let pair := fun (x : Slice) e => x.readPair e s.clock true a
  s.runGang i (fun x e => [(pair x e).1, (pair x e).2, x.readOpnd e s.clock b])
    (fun x e => heldOf h [(pair x e).1, (pair x e).2]) fun s l =>
    let w := ((l.slice.readOpnd l.env s.clock b).val l.lane).toNat
    if !l.env.group.firmware || field w 0 2 == 3 || field w 2 2 != 0 || field w 16 16 != 0 then
      (s, .trap (trapAt causeIllegal l.slice.pc))
    else
      let s := s.invalidate (field w 0 2) (field w 4 12) (pairVal (pair l.slice l.env) l.lane).toNat
      if s.remotePending (if field w 0 2 = 2 then none else some (field w 4 12)) then (s, .wait) else (s, .plain)

end Sys2Proof.Machine
end

