-- ==== Sys2Proof/Machine/Nmc.lean ====
section
/-! DEFINITION. Near-memory commands: NMC and NFENCE, the command queue and the sequencers of a base die
(spec/02_in_the_stack.md R38-R53; spec/15_instr_array_system.md R346, R347). -/

namespace Sys2Proof.Machine

/-! ### The record (R38-R40) -/

structure NmcRec where
  body : Nat
  rm : Nat
  aprA : DWord
  aprB : DWord
  aprD : DWord
  c0 : Word
  c1 : Word
  mbar : DWord
  result : DWord
  zeros : Bool
  deriving DecidableEq, Repr

def NmcRec.ofBytes (bs : List Byte) : NmcRec :=
  { body := (le8 bs 0).toNat, rm := (le8 bs 1).toNat, aprA := le64 bs 8, aprB := le64 bs 0x10, aprD := le64 bs 0x18,
    c0 := le32 bs 0x20, c1 := le32 bs 0x24, mbar := le64 bs 0x28, result := le64 bs 0x30,
    zeros := zeroAt bs 2 6 && zeroAt bs 0x38 8 }

def bodyMac2 : Nat := 0
def bodyMac1 : Nat := 1
def bodyAcc : Nat := 2
def bodyCpy : Nat := 3
def bodyFill : Nat := 4

/-- The operands that a body uses (R39). -/
def usesA (body : Nat) : Bool := body != bodyFill
def usesB (body : Nat) : Bool := body == bodyMac2 || body == bodyAcc
def usesD (body : Nat) : Bool := body != bodyAcc
def arithBody (body : Nat) : Bool := decide (body ≤ 2)

/-- A field of the record that is invalid: STATUS 6. -/
def NmcRec.bad (r : NmcRec) : Bool :=
  decide (4 < r.body) || decide (4 < r.rm) || !r.zeros || (r.aprA == 0) == usesA r.body || (r.aprB == 0) == usesB r.body ||
  (r.aprD == 0) == usesD r.body

/-- R40 for one operand; `wr` for D. -/
def nmcUse (body : Nat) (wr : Bool) (a : Apr) : Bool :=
  a.writes != wr || a.coords || a.skipZero || !a.noConv || (levels.any fun k => a.rule k == 3) ||
  (arithBody body && !(a.fmtCode == 0 || a.fmtCode == 1))

/-- The first failing check of a command's records: R37 code, and which record it is (R37, R40). Where products of counts
or element sizes differ, that is the first that differs from the lowest-numbered one used (DESIGN CHOICE, log 86). -/
def nmcCheck (body : Nat) (a b d : Option Apr) : Option (Nat × Nat) :=
  let one := fun (k : Nat) (x : Option Apr) => match x with
    | some x => let c := x.check false (nmcUse body (k == 2)); if c = 0 then none else some (c, k)
    | none => none
  let used := [(0, a), (1, b), (2, d)].filterMap fun p => p.2.map fun x => (p.1, x)
  -- one product of counts; for CPY one element size
  let across := match used with
    | [] => none
    | (_, x) :: rest =>
      (rest.find? fun y => y.2.total != x.total || (body == bodyCpy && y.2.size != x.size)).map fun y => (7, y.1)
  ((one 0 a).or (one 1 b)).or ((one 2 d).or across)

/-! ### Completion (R45, R167) -/

/-- ERR of a STATUS. -/
def nmcErr : Nat → Nat
  | 0 => 0
  | 1 => 6
  | 2 => 7
  | 3 => 8
  | 4 => 9
  | 5 => 10
  | 6 => 11
  | _ => 5

/-- The completion record. SUM of an ACC that ends with STATUS 2 is the sum reached before the faulting element (DESIGN
CHOICE, log 88). -/
def Cmd.record (c : Cmd) : List Byte :=
  let st := c.status.getD 0
  let sum : Word := if c.body = bodyAcc then (if st = 1 then 0x7FC00000 else c.sum) else 0
  u16 st ++ u8 (if st = 5 then c.aprErr else 0) ++ u8 (if st = 5 then c.aprWhich else 0) ++ wordBytes sum ++ u32 c.badCount ++
  u32 c.firstBad

/-- Who a command is for the accesses of its completion. -/
def Cmd.party (c : Cmd) : Party := { who := .cmd c.id, unit := c.unit, ctx := c.ctx, alias_ := c.unit.core? }

/-- The arrival of a command and its end. -/
def State.endCmd (s : State) (c : Cmd) : State :=
  let s := s.engineArrive c.party c.mbar { bytes := false, n := 1, gen := c.gen, err := nmcErr (c.status.getD 0) }
  let s := s.onEngines fun g => { g with cmds := g.cmds.filter (·.id != c.id) }
  s.onSlice c.slice fun x => { x with nmcOut := x.nmcOut.filter (· != c.id) }

/-- Write the completion record and arrive; a fault parks the command, and a declined one leaves the record unwritten. -/
def State.completeCmd (s : State) (c : Cmd) : State :=
  match s.declinedOf (.cmd c.id) with
  | some _ => (s.clearDeclined (.cmd c.id)).endCmd c
  | none =>
    match s.partWrite c.party .nmcWrite c.result c.record with
    | (s, .ok _) => s.endCmd c
    | (s, .fault va sub level) =>
      let a := c.party.ask { kind := .nmcWrite, wr := true } va
      s.parkFault [a] a sub level
    | (s, .held (.miss a)) => s.openMiss a
    | (s, _) => s

/-! ### NMC (R346) -/

/-- The deciding element: the first that is not PAD, of D, then A, then B; whether it is D's. -/
def deciding (a b d : Option Apr) : Option (DWord × Bool) :=
  let first := fun (x : Option Apr) => x.bind fun x => x.firstSolid.bind fun k =>
    match x.elem k with
    | .at_ va => some va
    | _ => none
  ((first d).map fun v => (v, true)).or (((first a).map fun v => (v, false)).or ((first b).map fun v => (v, false)))

/-- Read the record of an operand. -/
def State.readApr (s : State) (t : Tasker) (va : DWord) : Except Stop (State × Option Apr) :=
  if va = 0 then .ok (s, none)
  else
    match s.taskRead t .record va 128 with
    | .error e => .error e
    | .ok (s, bs) => .ok (s, some (Apr.ofBytes va bs))

/-- Capture an object's GEN (R166, R167), its address translated as a load's (R335): none where it is poisoned. -/
def State.captureGen (s : State) (t : Tasker) (va : DWord) : Except Stop (State × Option Byte) :=
  if va = 0 then .ok (s, some 0)
  else
    match s.mapOne t.party { kind := .load } va with
    | .error e => .error e
    | .ok (s, m) =>
      match s.mbarOp t.party.unit.core? m fun o => { obj := o } with
      | (s, none) => .ok (s, none)
      | (s, some (o, _)) => .ok (s, some (BitVec.ofNat 8 o.gen))

/-- Commands of a stack in its queue or on their way to it, and those of them that hold or need a write range. -/
def State.stackCmds (s : State) (stack : Nat) : List Cmd :=
  s.engines.cmds.filter fun c => c.stack == stack && c.unit == .base stack && c.status.isNone

/-- Write ranges of a stack in use or spoken for (R46). -/
def State.rangesUsed (s : State) (stack : Nat) : Nat :=
  (s.engines.cmds.filter fun c => c.stack == stack && c.unit == .base stack && c.aprD.isSome && (c.queued || c.status.isNone)).length

/-- Room for one more command at a stack (R42). -/
def State.cmdRoom (s : State) (stack : Nat) (needsRange : Bool) : Bool :=
  decide (((s.stackCmds stack).filter (!·.running)).length < 64) && (!needsRange || decide (s.rangesUsed stack < 64))

/-- Post a command as one of the slice's own. -/
def State.postCmd (s : State) (c : Cmd) : State :=
  let s := s.onEngines fun g => { g with cmds := g.cmds ++ [c] }
  s.onSlice c.slice fun x => { x with nmcOut := x.nmcOut ++ [c.id] }

/-- NMC, its earlier writes released. -/
def State.issueNmc (s : State) (l : Lead) (va : DWord) : Except Stop (State × GangOut) := do
  let x := l.slice
  let t := Tasker.of l.env x
  if va.toNat % 64 ≠ 0 then throw (.trap (trapOn causeMisaligned x.pc va))
  let (s, bs) ← s.taskRead t .record va 64
  let r := NmcRec.ofBytes bs
  if r.result = 0 ∨ r.result.toNat % 16 ≠ 0 then throw (.trap (trapOn causeMisaligned x.pc r.result))
  if r.mbar.toNat % 16 ≠ 0 then throw (.trap (trapOn causeMisaligned x.pc r.mbar))
  let (s, ra) ← s.readApr t r.aprA
  let (s, rb) ← s.readApr t r.aprB
  let (s, rd) ← s.readApr t r.aprD
  -- a RESULT that does not translate traps, and makes no fault record
  let s ← match s.findQuiet t.party { kind := .nmcWrite, wr := true } r.result with
    | (s, .ok _) => .ok s
    | (_, .fault sub _) => .error (.trap (trapPage sub x.pc r.result))
    | (_, .held h) => .error (.held h)
  let (s, gen) ← s.captureGen t r.mbar
  let (id, s) := s.fresh
  let c : Cmd :=
    { id := id, slice := x.uid, ctx := l.env.ctx, launch := l.env.launch.id, stack := 0, body := r.body, rm := r.rm, aprA := ra,
      aprB := rb, aprD := rd, c0 := r.c0, c1 := r.c1, mbar := r.mbar, gen := gen, result := r.result, unit := .core l.env.core }
  let atOnce := fun (s : State) (c : Cmd) => ((s.postCmd c).completeCmd c, GangOut.plain)
  if r.bad then return atOnce s { c with status := some 6 }
  match nmcCheck r.body ra rb rd with
  | some (e, k) => return atOnce s { c with status := some 5, aprErr := e, aprWhich := k }
  | none =>
    match deciding ra rb rd with
    | none => return atOnce s { c with status := some 4 }
    | some (ea, isD) =>
      let (s, m) ← s.mapOne t.party { kind := if isD then .nmcWrite else .nmcRead } ea
      match m.home with
      | .stack n =>
        if s.cmdRoom n rd.isSome then return (s.postCmd { c with stack := n, unit := .base n }, .plain)
        else return (s, .wait)
      | _ => return atOnce s { c with status := some 4 }

def execNmc (a : Opnd) (h : Bool) (s : State) : Host.Outcome State Fault Refusal :=
  let pair := fun (x : Slice) e => x.readPair e s.clock true a
  s.runGang (.nmc a h) (fun x e => [(pair x e).1, (pair x e).2]) (fun x e => heldOf h [(pair x e).1, (pair x e).2]) fun s l =>
    if s.curSlices.any fun x => !s.releaseReady x .pkg then (s, .wait)
    else
      let rel := s.curSlices.foldl (fun s x => s.releaseAt (s.env x) x .pkg) s
      match rel.gangStop l (rel.issueNmc l (l.pair s.clock a)) with
      -- while there is no room nothing but the release has happened
      | (_, .wait) => (rel, .wait)
      | r => r

/-- NFENCE (R347): the acquire waits for the slice's parked accesses too (R141). -/
def execNfence (s : State) : Host.Outcome State Fault Refusal :=
  s.runGang .nfence (fun _ _ => []) (fun _ _ => []) fun s _ =>
    if s.curSlices.any fun x => !x.nmcOut.isEmpty || !x.parked.isEmpty then (s, .wait)
    else (s.curSlices.foldl (fun s x => s.acquireAt (s.env x) .pkg) s, .plain)

/-! ### Acceptance (R41, R42, R46) -/

/-- Pages of a span, by number, within the address space; a span that goes past 2^64 goes on at 0. -/
def spanPages (sp : Option (Int × Int)) : List Nat :=
  match sp with
  | none => []
  | some (lo, hi) =>
    let run := fun (lo hi : Int) =>
      let a := lo.toNat / 4096
      natsFrom a (((min hi (2 ^ 56)).toNat + 4095) / 4096 - a)
    run lo hi ++ if 2 ^ 64 < hi then run 0 (hi - 2 ^ 64) else []

/-- The part of a page that lies in a span: offset and length. -/
def pageCut (sp : Option (Int × Int)) (page : Nat) : Option (Nat × Nat) :=
  match sp with
  | none => none
  | some (lo, hi) =>
    let cut := fun (lo hi : Int) =>
      let a := max lo (4096 * (page : Int))
      let b := min hi (4096 * (page : Int) + 4096)
      if a < b then some ((a - 4096 * page).toNat, (b - a).toNat) else none
    (cut lo hi).or (cut (lo - 2 ^ 64) (hi - 2 ^ 64))

def Cmd.spans (c : Cmd) : List (Option (Int × Int)) := [c.aprA, c.aprB, c.aprD].map fun a => a.bind Apr.span

/-- Write back and invalidate the die-cache lines of the command's spans in a page, those already on their way to the
memory-side cache first (R46). -/
def State.flushPage (s : State) (c : Cmd) (page pa : Nat) : State :=
  (c.spans.filterMap fun sp => pageCut sp page).foldl (fun s cut =>
    let inCut := fun (line : Nat) => decide (pa + cut.1 < line + 64) && decide (line < pa + cut.1 + cut.2)
    let s := (s.caches.mscQueue.filter fun r => inCut r.addr).foldl State.serveMsc s
    (s.caches.dieLines.filter fun d => inCut d.addr).foldl (fun s d => s.dieWriteBack d.addr true) s) s

/-- A page of a command's spans has translated: its lines are flushed, and D's bytes there join the write range. -/
def State.enterPage (s : State) (c : Cmd) (page pa : Nat) : State × Cmd :=
  let s := s.flushPage c page pa
  let run := (pageCut (c.aprD.bind Apr.span) page).toList.map fun cut => (pa + cut.1, cut.2)
  (s, { c with pages := page :: c.pages, writeRange := c.writeRange ++ run })

/-- What the test of a page at acceptance comes to. -/
inductive PageTest where
  /-- all pages of the spans that translate are homed here -/
  | passed
  | foreign
  /-- a walk is to be asked for -/
  | miss (a : Ask)
  | busy
  deriving DecidableEq, Repr

/-- Go through the pages of a command's spans (R41, R42); one that does not translate is passed over, and its walk makes no
record. -/
def State.testPages (s : State) (c : Cmd) : List Nat → State × Cmd × PageTest
  | [] => (s, c, .passed)
  | page :: rest =>
    if c.tested.any (·.1 == page) then State.testPages s c rest
    else
      match s.findQuiet c.party { kind := .nmcRead } (BitVec.ofNat 64 (4096 * page)) with
      | (s, .ok m) =>
        if m.home = .stack c.stack then State.testPages s { c with tested := c.tested ++ [(page, m.pa)] } rest else (s, c, .foreign)
      | (s, .fault _ _) => State.testPages s c rest
      | (s, .held (.miss a)) => (s, c, .miss a)
      | (s, .held _) => (s, c, .busy)

/-- A command enters its stack's queue: the die cache's lines of its spans are flushed, and D's bytes are its write range. -/
def State.acceptCmd (s : State) (c : Cmd) : State :=
  let (s, c) := c.tested.foldl (fun (r : State × Cmd) q => if r.2.pages.contains q.1 then r else r.1.enterPage r.2 q.1 q.2) (s, c)
  (s.onEngines fun g => { g with cmds := updateWhere (·.id == c.id) (fun _ => { c with queued := true, tested := [] }) g.cmds }).clearDeclined (.cmd c.id)

/-- R41, the first condition. -/
def Cmd.overlaps (c : Cmd) : Bool :=
  match c.aprD with
  | none => false
  | some d => [c.aprA, c.aprB].any fun o => match o with
    | some a => spansOverlap d a && !a.sameWalk d
    | none => false

def State.setCmd (s : State) (c : Cmd) : State :=
  s.onEngines fun g => { g with cmds := updateWhere (·.id == c.id) (fun _ => c) g.cmds }

/-- NMC_ACCEPT (R42): the oldest command on its way to a stack enters its queue, or completes unaccepted; it waits for the
walks of its pages. -/
def execNmcAccept (stack : Nat) (s : State) : Host.Outcome State Fault Refusal :=
  match s.engines.cmds.find? fun c => c.unit == .base stack && !c.queued && c.status.isNone with
  | none => notNow "NMC_ACCEPT"
  | some c =>
    if c.overlaps then .next (s.setCmd { c with status := some 3 })
    else if s.isMissing (.cmd c.id) then notNow "NMC_ACCEPT"
    else
      match s.testPages c (c.spans.flatMap spanPages) with
      | (t, c, .passed) => .next (t.acceptCmd c)
      | (t, c, .foreign) => .next ((t.setCmd { c with status := some 4 }).clearDeclined (.cmd c.id))
      | (t, c, .miss a) => .next ((t.setCmd c).openMiss a)
      | (_, _, .busy) => notNow "NMC_ACCEPT"

/-! ### Sequencers (R43, R44, R48-R53) -/

/-- R43: whether the span of the D of either overlaps any span of the other, whatever their contexts. -/
def Cmd.conflicts (c d : Cmd) : Bool :=
  let cd := c.aprD.bind Apr.span
  let dd := d.aprD.bind Apr.span
  d.spans.any (cutsOverlap cd) || c.spans.any (cutsOverlap dd)

/-- The oldest queued command that conflicts with no older command in flight. -/
def nextCmd : List Cmd → List Cmd → Option Cmd
  | _, [] => none
  | before, c :: rest =>
    if !c.running && c.status.isNone && !before.any c.conflicts then some c else nextCmd (before ++ [c]) rest

/-- SEQUENCER_START (R43). -/
def execSequencerStart (stack : Nat) (s : State) : Host.Outcome State Fault Refusal :=
  let q := s.engines.cmds.filter fun c => c.unit == .base stack && c.queued
  if 4 ≤ (q.filter (·.running)).length then notNow "SEQUENCER_START"
  else
    match nextCmd (q.filter (·.running)) (q.filter (!·.running)) with
    | none => notNow "SEQUENCER_START"
    | some c => .next (s.setCmd { c with running := true })

/-- A sequencer's column access at an address: false while it is held off the bank, while another command's burst goes on,
while an ordinary access waits for the bank and no burst of its own is under way, and in a burst while one waits at R29's
bound. A completed one ends its own count of yields there; the last of a burst that ordinary reads stood behind is followed
by the yield to them (R48-R50). -/
def State.columnAccess (s : State) (c : Cmd) (pa : Nat) : State × Bool :=
  match stackOf pa with
  | none => (s, true)
  | some (st, off) =>
    let (pch, bank, row) := bankOf off
    let b := s.bankAt st pch bank
    let mine := b.owner == some c.id
    let waiting := s.bankReqs b
    if b.hold.isSome || (decide (0 < b.burst) && !mine) || (b.burst == 0 && !waiting.isEmpty) || waiting.any s.overdue then (s, false)
    else
      let left := if mine then b.burst - 1 else 0
      let ends := mine && b.burst == 1 && b.behind
      let yields := b.yields.filter (·.1 != c.id)
      (s.setBank { b with row := some row, owner := some c.id, recorded := none, burst := left, behind := b.behind && !ends,
                          yields := if ends then assocSet yields c.id 1 else yields }, true)

/-- A command that is done leaves the banks it had rows in. -/
def State.leaveBanks (s : State) (id : Nat) : State :=
  s.onEngines fun g =>
    { g with banks := g.banks.map fun b =>
        let b := { b with yields := b.yields.filter (·.1 != id) }
        if b.owner = some id then { b with owner := none, recorded := none, burst := 0, behind := false } else b }

/-- What an element's access comes to. -/
inductive Elem (α : Type) where
  | ok (a : α)
  | parked
  | held (h : Hold)
  | failed
  deriving DecidableEq, Repr

/-- Translate an element of a command through its base die, NMC permission and home checked; a page met for the first
time is flushed (R44, R46). -/
def State.cmdReach (s : State) (c : Cmd) (wr : Bool) (va : DWord) : State × Cmd × Elem Mapping :=
  match s.reach c.party { kind := if wr then .nmcWrite else .nmcRead, wr := wr, special := .nmc c.stack } va with
  | (s, .ok m) =>
    if c.pages.contains (pageOf va) then (s, c, .ok m)
    else
      let (s, c) := s.enterPage c (pageOf va) (m.pa / 4096 * 4096)
      (s, c, .ok m)
  | (s, .parked) => (s, c, .parked)
  | (s, .held h) => (s, c, .held h)
  | (s, .declined _ _) => (s, c, .failed)

/-- The memory-side cache holds the chosen sectors of a line. -/
def State.mscHas (s : State) (line : Nat) (want : Bool × Bool) : Bool :=
  match s.mscLine? line with
  | some l => lessPair want l.valid == (false, false)
  | none => false

/-- Read element n of an operand: its bytes and poison; an absent operand reads as nothing. It passes the memory-side cache,
and needs the bank's row when it misses there (R46). A sector that the command itself has marked does not poison its later
elements (R52's example; DEDUCED, log 31). -/
def State.cmdRead (s : State) (c : Cmd) (a : Option Apr) : State × Cmd × Elem (List Byte × Bool) :=
  match a with
  | none => (s, c, .ok ([], false))
  | some a =>
    match a.elem c.pos with
    | .at_ va =>
      match s.cmdReach c false va with
      | (s, c, .ok m) =>
        let line := m.pa / 64 * 64
        let want := touched (m.pa % 64) a.size
        let (s, open_) := if s.mscHas line want then (s, true) else s.columnAccess c m.pa
        if open_ then
          let (s, d) := s.mscRead c.stack line want (!a.noAlloc && m.cpol == 0) true
          (s, c, .ok (d.slice (m.pa % 64) a.size, d.poisonAt (m.pa % 64) a.size && !c.marked.contains (memKey m.pa / 32)))
        else (s, c, .held .busy)
      | (s, c, .parked) => (s, c, .parked)
      | (s, c, .held h) => (s, c, .held h)
      | (s, c, .failed) => (s, c, .failed)
    | _ => (s, c, .ok (a.padBytes, false))

/-- The value of an element of F32 or BF16. -/
def aprVal (a : Option Apr) (bs : List Byte) : Val :=
  match a with
  | some x => decodeVal ((Fmt.ofCode x.fmtCode).getD .f32) (bytesToNat bs)
  | none => .num false 0 0

def wordVal (w : Word) : Val := decodeFloat .f32 w.toNat

/-- c0·x + c1·y exactly. -/
def mac2 (rm : Rm) (c0 x c1 y : Val) : Val × Bool :=
  let q := c1.mul y
  let r := sumProducts rm [(c0, x)] q.1
  (r.1, r.2 || q.2)

/-- The bytes of d_n (R39). -/
def Cmd.result_ (c : Cmd) (size : Nat) (xa xb : List Byte) : List Byte :=
  let rm := Rm.ofCode c.rm
  let fmt := (c.aprD.bind fun d => Fmt.ofCode d.fmtCode).getD .f32
  if c.body = bodyMac2 then
    natToBytes size (roundOp fmt rm false 0 (mac2 rm (wordVal c.c0) (aprVal c.aprA xa) (wordVal c.c1) (aprVal c.aprB xb))).bits
  else if c.body = bodyMac1 then
    natToBytes size (roundOp fmt rm false 0 (sumProducts rm [(wordVal c.c0, aprVal c.aprA xa)] (wordVal c.c1))).bits
  else if c.body = bodyCpy then xa
  else (List.replicate 4 (wordBytes c.c0)).flatten.take size

/-- The memory-side lines of D's span in a row are written back and invalidated before the sequencer writes there; at every
write, since its own reads may have brought them in again (R46, R47). -/
def State.clearRow (s : State) (c : Cmd) (pa : Nat) : State :=
  let row := fun (a : Nat) => (stackOf a).map fun x => (x.1, bankOf x.2)
  (s.caches.mscLines.filter fun l => row l.addr == row pa &&
      c.writeRange.any fun r => decide (r.1 < l.addr + 64) && decide (l.addr < r.1 + r.2)).foldl (fun s l =>
    ((s.settleBank l.addr).dramWrite l.addr l.dirty l.toLineData).onCaches fun k =>
      { k with mscLines := k.mscLines.filter (·.addr != l.addr) }) s

/-- Write d_n, or poison its sector (R52, R53): the controller reads the sector and writes it, and keeps the poison that it
carries. -/
def State.cmdWrite (s : State) (c : Cmd) (bs : Nat → List Byte) (poison : Bool) : State × Cmd × Elem Unit :=
  match c.aprD with
  | none => (s, c, .ok ())
  | some d =>
    match d.elem c.pos with
    | .at_ va =>
      match s.cmdReach c true va with
      | (s, c, .ok m) =>
        match s.columnAccess c m.pa with
        | (s, false) => (s, c, .held .busy)
        | (s, true) =>
          let line := m.pa / 64 * 64
          let h := m.pa % 64 / 32
          let t := memKey m.pa / 32
          let (s, l, _) := ((s.clearRow c m.pa).settleBank line).dramRead c.stack line (onlyPair h) false
          if poison then
            let fresh := if l.poisonAt (32 * h) 32 then [] else [t]
            (s.dramStore line h { l with poison := orPair l.poison (onlyPair h) }, { c with marked := c.marked ++ fresh }, .ok ())
          else (s.dramStore line h (l.put (m.pa % 64) (bs d.size) false), c, .ok ())
      | (s, c, .parked) => (s, c, .parked)
      | (s, c, .held h) => (s, c, .held h)
      | (s, c, .failed) => (s, c, .failed)
    | _ => (s, c, .ok ())

/-- The length of a command's walk. -/
def Cmd.total (c : Cmd) : Nat := ((c.aprD.or c.aprA).map (·.total)).getD 0

/-- A command after an element. -/
def Cmd.advance (c : Cmd) (poison : Bool) (xa xb : List Byte) : Cmd :=
  let bad := if poison then c.badCount + 1 else c.badCount
  let first := if poison && c.badCount == 0 then c.pos % 2 ^ 32 else c.firstBad
  let acc := c.body == bodyAcc && bad == 0
  let sum : Word := if acc then
      BitVec.ofNat 32 (roundOp .f32 (Rm.ofCode c.rm) false 0
        (sumProducts (Rm.ofCode c.rm) [(aprVal c.aprA xa, aprVal c.aprB xb)] (wordVal c.sum))).bits
    else c.sum
  { c with pos := c.pos + 1, badCount := bad, firstBad := first, sum := sum,
           status := if c.total ≤ c.pos + 1 then some (if bad = 0 then 0 else 1) else none }

/-- One element of a command. Of several operands that fault, A parks first, then B, then D (DESIGN CHOICE, log 87). -/
def State.cmdStep (s : State) (c : Cmd) : State × Cmd × Elem Cmd :=
  match s.cmdRead c c.aprA with
  | (s, c, .ok (xa, pa)) =>
    match s.cmdRead c c.aprB with
    | (s, c, .ok (xb, pb)) =>
      let poison := pa || pb
      match s.cmdWrite c (fun n => c.result_ n xa xb) poison with
      | (s, c, .ok _) => (s, c, .ok (c.advance poison xa xb))
      | (s, c, .parked) => (s, c, .parked)
      | (s, c, .held h) => (s, c, .held h)
      | (s, c, .failed) => (s, c, .failed)
    | (s, c, .parked) => (s, c, .parked)
    | (s, c, .held h) => (s, c, .held h)
    | (s, c, .failed) => (s, c, .failed)
  | (s, c, .parked) => (s, c, .parked)
  | (s, c, .held h) => (s, c, .held h)
  | (s, c, .failed) => (s, c, .failed)

/-- A command whose walk is over leaves the banks. -/
def State.setDone (s : State) (c : Cmd) : State := if c.status.isSome then (s.setCmd c).leaveBanks c.id else s.setCmd c

/-- SEQUENCER_ELEMENT (R44, R52). -/
def execSequencerElement (cmd : Nat) (s : State) : Host.Outcome State Fault Refusal :=
  match s.engines.cmds.find? fun c => c.id == cmd && c.running && c.status.isNone with
  | none => notNow "SEQUENCER_ELEMENT"
  | some c =>
    match s.cmdStep c with
    | (s, _, .ok c) => .next (s.setDone c)
    | (s, c, .parked) => .next (s.setCmd c)
    | (s, c, .failed) => .next (s.setDone { c with status := some 2, firstBad := c.pos % 2 ^ 32 })
    | (_, _, .held h) => s.waitFor "SEQUENCER_ELEMENT" h

/-- The bank where a command's row stands open and for which an ordinary request waits. -/
def State.contested (s : State) (cmd : Nat) : Option Bank :=
  s.engines.banks.find? fun b => b.owner == some cmd && b.seqOpen && b.burst == 0 && !(s.bankReqs b).isEmpty

/-- SEQUENCER_YIELD (R48): the open row is recorded and the bank precharged. -/
def execSequencerYield (cmd : Nat) (s : State) : Host.Outcome State Fault Refusal :=
  match s.contested cmd with
  | none => notNow "SEQUENCER_YIELD"
  | some b =>
    let cap := (s.stackCsr b.stack).yieldCap.toNat
    if cap ≤ assoc 0 b.yields cmd then notNow "SEQUENCER_YIELD" else .next (s.setBank (b.giveUp cap))

/-- YIELD_CAP (R49): the sequencer takes the bank for a burst. -/
def execYieldCap (cmd : Nat) (s : State) : Host.Outcome State Fault Refusal :=
  match s.contested cmd with
  | none => notNow "YIELD_CAP"
  | some b =>
    if (s.stackCsr b.stack).yieldCap.toNat ≤ assoc 0 b.yields cmd then
      .next (s.setBank { b with yields := assocSet b.yields cmd 0, burst := 8 })
    else notNow "YIELD_CAP"

/-- NMC_COMPLETE (R45). -/
def execNmcComplete (cmd : Nat) (s : State) : Host.Outcome State Fault Refusal :=
  match s.engines.cmds.find? fun c => c.id == cmd && c.status.isSome with
  | none => notNow "NMC_COMPLETE"
  | some c => if s.isParked (.cmd c.id) || s.isMissing (.cmd c.id) then notNow "NMC_COMPLETE" else .next (s.completeCmd c)

/-! ### Refresh and activation alerts (R29, R50) -/

/-- A bank is precharged: no row is open. A sequencer's row is one it opens again at its next column access. -/
def Bank.precharge (b : Bank) : Bank := { b with row := none, owner := if b.recorded.isSome || decide (0 < b.burst) then b.owner else none }

/-- REFRESH (R29): the bank's row is closed. -/
def execRefresh (stack pch bank : Nat) (s : State) : Host.Outcome State Fault Refusal :=
  if stack < 16 ∧ pch < 64 ∧ bank < 16 then .next (s.setBank (s.bankAt stack pch bank).precharge)
  else notNow "REFRESH"

/-- ACTIVATION_ALERT (R50): refresh management, and the sequencers are held off the bank. While they are held off already,
the new hold takes the place of the running one, none included where NMC_RFM_HOLD is 0 by then (DESIGN CHOICE, log 99). -/
def execActivationAlert (stack pch bank : Nat) (s : State) : Host.Outcome State Fault Refusal :=
  if stack < 16 ∧ pch < 64 ∧ bank < 16 then
    let c := s.stackCsr stack
    let hold := if c.rfmHold = 0 then none else some (s.baseClk + c.rfmHold.toNat)
    let s := s.setBank { (s.bankAt stack pch bank).precharge with hold := hold }
    .next (s.setStackCsr stack fun c => { c with rfmCount := if c.rfmCount = BitVec.allOnes 32 then c.rfmCount else c.rfmCount + 1 })
  else notNow "ACTIVATION_ALERT"

/-- RFM_HOLD_END (R50): sequencers may use the bank again; a row that one gave up is activated again once no ordinary request
waits. -/
def execRfmHoldEnd (stack pch bank : Nat) (s : State) : Host.Outcome State Fault Refusal :=
  let b := s.bankAt stack pch bank
  match b.hold with
  | none => notNow "RFM_HOLD_END"
  | some t =>
    if t ≤ s.baseClk then
      .next (s.setBank (if b.recorded.isSome && (s.bankReqs b).isEmpty then { b with hold := none, row := b.recorded, recorded := none }
        else { b with hold := none }))
    else notNow "RFM_HOLD_END"

/-! ### Ordinary requests of a base die and a home die cache (R29, R31, R51, R53, R110) -/

/-- DIE_CACHE_ACCESS (R110): the oldest write-through to a home die is performed. -/
def execDieCacheAccess (die : Nat) (s : State) : Host.Outcome State Fault Refusal :=
  match s.caches.writeThroughs.find? (·.stack == die) with
  | none => notNow "DIE_CACHE_ACCESS"
  | some w => .next ((s.onCaches fun c => { c with writeThroughs := c.writeThroughs.erase w }).performWt w)

/-- MSC_ACCESS (R31): the oldest write-back to a memory-side cache. -/
def execMscAccess (stack : Nat) (s : State) : Host.Outcome State Fault Refusal :=
  match s.caches.mscQueue.find? (·.stack == stack) with
  | none => notNow "MSC_ACCESS"
  | some r => .next (s.serveMsc r)

/-- The request that a bank serves (R29): one older than 256 base-die clocks first, then a hit of the open row, then the
oldest. -/
def State.bankChoice (s : State) (b : Bank) : Option LineReq :=
  let rs := s.bankReqs b
  ((rs.find? s.overdue).or (rs.find? b.hits)).or rs.head?

/-- A write-back reaches its bank, poison stored as the signature (R53); the row that a sequencer then gives up is activated again
after it. -/
def State.serveBank (s : State) (b : Bank) (r : LineReq) : State :=
  let b := if b.seqOpen then { b with recorded := b.row, row := none } else b
  (s.serveReq r).setBank (b.ordinary (((stackOf r.addr).map fun x => (bankOf x.2).2.2).getD 0))

/-- BANK_ACCESS (R29, R48): the bank serves a request. It waits for a sequencer that has its row open, but not beyond R29's
bound. -/
def execBankAccess (stack pch bank : Nat) (s : State) : Host.Outcome State Fault Refusal :=
  let b := s.bankAt stack pch bank
  match s.bankChoice b with
  | none => notNow "BANK_ACCESS"
  | some r => if b.seqOpen && !s.overdue r then notNow "BANK_ACCESS" else .next (s.serveBank b r)

/-- The requests that have waited 256 base-die clocks are served at once (R29). -/
def State.serveOverdue (s : State) : State :=
  (s.caches.bankQueue.filter s.overdue).foldl (fun s r =>
    match stackOf r.addr with
    | some (st, off) => if s.caches.bankQueue.contains r then s.serveBank (s.bankAt st (bankOf off).1 (bankOf off).2.1) r else s
    | none => s) s

end Sys2Proof.Machine
end

