-- ==== Sys2Proof/Machine/Region.lean ====
section
/-! DEFINITION. Regions of a stack array: images and their checks, loading, launching, release (spec/03_stack_array.md
R54-R77; spec/04_array_elements.md R84-R86; spec/15_instr_array_system.md R337-R341). -/

namespace Sys2Proof.Machine

/-! ### Geometry (R54, R55, R61, R66) -/

inductive Site where
  | word | lut | rbuf | isect | bridge | endpoint
  deriving DecidableEq, Repr

/-- The type of a site by its local index. -/
def siteType (i : Nat) : Site :=
  let x := i / 32
  let y := i % 32
  if x = 0 then (if y % 2 = 0 then .bridge else if y % 4 = 1 then .lut else .rbuf)
  else if x = 5 ∧ y % 4 = 3 then .isect
  else .word

def isEndpoint (n : Nat) : Bool := decide (2048 ≤ n)

/-- The band of a node, counted from the region's first. -/
def bandOf (n : Nat) : Nat := if isEndpoint n then (n - 2048) / 128 else n / 192

/-- Whether a region of width w has the node. -/
def nodeInRange (w n : Nat) : Bool := decide (n < 192 * w) || (isEndpoint n && decide (n < 2048 + 128 * w))

/-- Column and row of a node, columns counted from the region's first. -/
def nodePlace (n : Nat) : Nat × Nat :=
  if isEndpoint n then (6 * bandOf n, 4 * ((n - 2048) % 128 / 16)) else (6 * bandOf n + n % 192 / 32, n % 32)

def distance (a b : Nat) : Nat := (a - b) + (b - a)

def hopsOf (src dst : Nat) : Nat :=
  Nat.max 1 (distance (nodePlace src).1 (nodePlace dst).1 + distance (nodePlace src).2 (nodePlace dst).2)

/-- Opcodes of a site type (R56). -/
def Site.takes (t : Site) (opc : Nat) : Bool :=
  opc == 0 ||
  match t with
  | .word => decide (1 ≤ opc) && decide (opc ≤ 0x17)
  | .rbuf => opc == 0x18 || opc == 0x19
  | .lut => opc == 0x1B || opc == 0x1C
  | .isect => opc == 0x1A
  | .endpoint => opc == 0x1D || opc == 0x1E || opc == 0x1F
  | .bridge => opc == 0x20

/-! ### The configuration word (R64) -/

def Node.cf (n : Node) (lo w : Nat) : Nat := field n.conf.toNat lo w
def Node.opc (n : Node) : Nat := n.cf 0 6
def Node.resetOn (n : Node) : Nat := n.cf 18 3
def Node.fireOn (n : Node) : Nat := n.cf 21 3
def Node.rmCode (n : Node) : Nat := n.cf 24 3
def Node.rm (n : Node) : Rm := Rm.ofCode n.rmCode
def Node.ftz (n : Node) : Bool := bit n.conf.toNat 27
def Node.espec (n : Node) : Nat := n.cf 28 4
def Node.especBit (n : Node) (k : Nat) : Bool := bit n.espec k
def Node.const0 (n : Node) : Nat := n.cf 32 32
def Node.const1 (n : Node) : Nat := n.cf 64 32
def Node.init (n : Node) : Nat := n.cf 96 32
/-- CONST1:CONST0 as an address. -/
def Node.address (n : Node) : DWord := BitVec.ofNat 64 (n.cf 32 64)

/-- Opcodes whose in1 may be CONST0 (R85). -/
def takesK (opc : Nat) : Bool := [3, 4, 5, 6, 7, 8, 0xB, 0xE].contains opc
def Node.k (n : Node) : Bool := takesK n.opc && n.especBit 3
def Node.kc (n : Node) : Bool := n.opc == 6 && n.especBit 2

/-- Input ports, each with whether it must be driven (R84). -/
def Node.inPorts (n : Node) : List (Nat × Bool) :=
  let one := [(0, true)]
  let second := if n.k then [] else [(1, true)]
  match n.opc with
  | 0 | 0x1D => []
  | 3 | 4 | 5 | 7 | 8 | 0xB | 0xE => one ++ second
  | 6 => one ++ second ++ (if n.kc then [] else [(2, true)])
  | 0xF | 0x12 | 0x13 | 0x19 | 0x1A => [(0, true), (1, true)]
  | 0x10 => if n.especBit 0 then [(0, true), (1, true)] else [(0, true), (1, true), (2, true)]
  | 0x20 => [(0, false)]
  | _ => one

/-- Output ports, each with whether it must drive a route (R84). -/
def Node.outPorts (n : Node) : List (Nat × Bool) :=
  match n.opc with
  | 0 | 0x1E | 0x1F => []
  | 2 => [(0, true), (1, true)]
  | 0xF | 0x11 | 0x1A => [(0, true), (1, false)]
  | 0x20 => [(0, false)]
  | _ => [(0, true)]

def Node.isSink (n : Node) : Bool := n.opc == 0x1E || n.opc == 0x1F
def Node.isSrc (n : Node) : Bool := n.opc == 0x1D
def Node.isBridge (n : Node) : Bool := n.opc == 0x20

/-- The state of a node after a reset (R59, R96, R98, R101). -/
def Node.resetState (n : Node) : Node :=
  { n with seen := false, excHeld := false, s0 := BitVec.ofNat 32 n.init, s1 := if n.opc = 0x18 then 0xFF800000 else 0,
           s2 := BitVec.ofNat 32 (if n.opc = 0x1B then n.const1 else 0) }

/-! ### The image (R65-R69) -/

structure Header where
  ok : Bool
  bands : Nat
  elems : Nat
  routes : Nat
  pres : Nat
  elemOff : Nat
  routeOff : Nat
  preOff : Nat
  total : Nat
  hang : Nat
  excEntries : Nat
  deriving DecidableEq, Repr

/-- Tables as offset and length: neither empty table overlaps anything. -/
def tablesApart (a b : Nat × Nat) : Bool := a.2 == 0 || b.2 == 0 || decide (a.1 + a.2 ≤ b.1) || decide (b.1 + b.2 ≤ a.1)

/-- The header for a region of width w, with the check HEADER of R71. -/
def Header.ofBytes (w : Nat) (bs : List Byte) : Header :=
  let h : Header :=
    { ok := true, bands := (le8 bs 6).toNat, elems := leAt bs 8 2, routes := leAt bs 0xA 2, pres := leAt bs 0xC 2,
      elemOff := leAt bs 0x10 4, routeOff := leAt bs 0x14 4, preOff := leAt bs 0x18 4, total := leAt bs 0x1C 4,
      hang := leAt bs 0x20 4, excEntries := leAt bs 0x24 4 }
  let ts := [(0, 64), (h.elemOff, 24 * h.elems), (h.routeOff, 8 * h.routes), (h.preOff, 8 * h.pres)]
  let apart := ts.zipIdx.all fun a => ts.zipIdx.all fun b => a.2 == b.2 || tablesApart a.1 b.1
  let ok :=
      leAt bs 0 4 == 0x41535842 && leAt bs 4 2 == 1 && decide (1 ≤ h.bands) && decide (h.bands ≤ 8) && h.bands == w &&
      zeroAt bs 7 1 && zeroAt bs 0xE 2 && zeroAt bs 0x28 24 && decide (h.elems ≤ 320 * h.bands) && decide (h.routes ≤ 4096) &&
      decide (h.pres ≤ 4096) && decide (64 ≤ h.total) && decide (h.total ≤ 0x40000) &&
      [h.elemOff, h.routeOff, h.preOff].all (· % 8 == 0) && ts.all (fun t => decide (t.1 + t.2 ≤ h.total)) && apart
  { h with ok := ok }

/-- A preload entry: route, kind byte, payload, and whether its zero bits are zero. -/
structure Preload where
  route : Nat
  kind : Nat
  exc : Bool
  payload : Word
  zeros : Bool
  deriving DecidableEq, Repr

/-- What a load reads: nodes with whether their entry's zero bytes are zero, routes likewise, and preloads. -/
structure Tables where
  nodes : List (Node × Bool)
  routes : List (Route × Bool)
  pres : List Preload
  deriving DecidableEq, Repr

def TokKind.ofCode : Nat → TokKind
  | 0 => .data
  | 1 => .coord
  | 2 => .eor
  | 3 => .eot
  | 4 => .eoi
  | 5 => .stat
  | 6 => .dusk
  | _ => .dawn

def TokKind.code : TokKind → Nat
  | .data => 0
  | .coord => 1
  | .eor => 2
  | .eot => 3
  | .eoi => 4
  | .stat => 5
  | .dusk => 6
  | .dawn => 7

/-- The rank of a marker, 0 for another token (R58). -/
def TokKind.rank : TokKind → Nat
  | .eor => 1
  | .eot => 2
  | .eoi => 3
  | _ => 0

def Tok.rank (t : Tok) : Nat := t.kind.rank
def Tok.isMarker (t : Tok) : Bool := t.rank != 0
def Tok.data (v : Nat) (exc : Bool) : Tok := { kind := .data, exc := exc, payload := BitVec.ofNat 32 v }

def Tables.ofBytes (h : Header) (bs : List Byte) : Tables :=
  { nodes := (List.range h.elems).map fun i =>
      let o := h.elemOff + 24 * i
      ({ num := leAt bs o 2, conf := BitVec.ofNat 128 (leAt bs (o + 8) 16) }, zeroAt bs (o + 2) 6),
    routes := (List.range h.routes).map fun i =>
      let o := h.routeOff + 8 * i
      ({ src := leAt bs o 2, dst := leAt bs (o + 2) 2, srcOut := leAt bs (o + 4) 1, dstIn := leAt bs (o + 5) 1, preload := [],
         links := [] }, zeroAt bs (o + 6) 2),
    pres := (List.range h.pres).map fun i =>
      let o := h.preOff + 8 * i
      let k := leAt bs (o + 3) 1
      { route := leAt bs o 2, kind := k % 8, exc := bit k 3, payload := le32 bs (o + 4), zeros := zeroAt bs (o + 2) 1 && k < 16 } }

/-! ### The checks (R71) -/

/-- A failure: code, item, and whether the item is a route. -/
structure LoadErr where
  code : Nat
  item : Nat := 0
  route : Bool := false
  deriving DecidableEq, Repr

/-- The first failure of a check: nodes before routes, each by number. -/
def firstErr (code : Nat) (nodes routes : List Nat) : Option LoadErr :=
  match minBy? id nodes, minBy? id routes with
  | some n, _ => some { code := code, item := n }
  | none, some r => some { code := code, item := r, route := true }
  | none, none => none

def nodeNums (f : Node → Bool) (ns : List Node) : List Nat := (ns.filter f).map (·.num)

/-- Indices of the routes that satisfy a test. -/
def routeNums (f : Route → Nat → Bool) (rs : List Route) : List Nat := (rs.zipIdx.filter fun x => f x.1 x.2).map (·.2)

def nodeAt (ns : List Node) (n : Nat) : Option Node := ns.find? (·.num == n)

def checkReserved (t : Tables) : Option LoadErr :=
  firstErr 3 ((t.nodes.filter (!·.2)).map (·.1.num))
    ((t.routes.zipIdx.filter (!·.1.2)).map (·.2) ++ (t.pres.filter (!·.zeros)).map (·.route))

def checkNodes (w : Nat) (ns : List Node) : Option LoadErr :=
  firstErr 4 (nodeNums (fun n => !nodeInRange w n.num || decide (1 < (ns.filter (·.num == n.num)).length)) ns) []

def checkOpcodes (ns : List Node) : Option LoadErr := firstErr 5 (nodeNums (fun n => decide (0x20 < n.opc)) ns) []

def checkSites (ns : List Node) : Option LoadErr :=
  firstErr 6 (nodeNums (fun n => !(if isEndpoint n.num then Site.endpoint else siteType (n.num % 192)).takes n.opc) ns) []

/-- Whether an output or input port exists. -/
def hasOut (ns : List Node) (n p : Nat) : Bool := ((nodeAt ns n).map fun x => x.outPorts.any (·.1 == p)).getD false
def hasIn (ns : List Node) (n p : Nat) : Bool := ((nodeAt ns n).map fun x => x.inPorts.any (·.1 == p)).getD false

def Route.into (n p : Nat) (r : Route) : Bool := r.dst == n && r.dstIn == p
def Route.from_ (n p : Nat) (r : Route) : Bool := r.src == n && r.srcOut == p

/-- PORT. Of two routes that drive one input, or leave one output, ITEM names the later (log entry 76). -/
def checkPorts (ns : List Node) (rs : List Route) : Option LoadErr :=
  let badRoute := fun (r : Route) (i : Nat) =>
    !hasOut ns r.src r.srcOut || !hasIn ns r.dst r.dstIn ||
    (rs.take i).any fun q => q.into r.dst r.dstIn || q.from_ r.src r.srcOut
  let open_ := fun (n : Node) =>
    n.inPorts.any (fun p => p.2 && !rs.any (Route.into n.num p.1)) || n.outPorts.any fun p => p.2 && !rs.any (Route.from_ n.num p.1)
  firstErr 7 (nodeNums open_ ns) (routeNums badRoute rs)

/-- Values that FIRE_ON and RESET_ON may take (R64, R84). -/
def markersOk (n : Node) : Bool :=
  let reds := [0x14, 0x15, 0x16, 0x17, 0x18]
  let fire := if reds.contains n.opc || n.opc == 0x19 then [2, 3, 4] else [0]
  let reset := if reds.contains n.opc || n.opc == 0x11 || n.opc == 0x1B then [0, 2, 3, 4] else [0]
  fire.contains n.fireOn && reset.contains n.resetOn

def checkMarkers (ns : List Node) : Option LoadErr := firstErr 8 (nodeNums (fun n => !markersOk n) ns) []

/-! #### Formats (R72, R86) -/

def fmtPred : Nat := 13
def fmtAny : Nat := 15

/-- 1 for a float format, 2 for an integer format, 0 for another (R86). -/
def fmtClass (f : Nat) : Nat := if f ≤ 2 then 1 else if 7 ≤ f ∧ f ≤ 12 then 2 else 0

/-- The node that drives an input, with its resolved FMT_OUT. -/
def driver (ns : List Node) (rs : List Route) (n p : Nat) : Option Node := (rs.find? (Route.into n p)).bind fun r => nodeAt ns r.src

/-- One round of ANY resolution. -/
def resolveRound (ns : List Node) (rs : List Route) : List Node :=
  ns.map fun n =>
    if n.fmtOut = fmtAny ∧ n.outPorts ≠ [] then { n with fmtOut := ((driver ns rs n.num 0).map (·.fmtOut)).getD fmtAny } else n

def resolveLoop (rs : List Route) : Nat → List Node → List Node
  | 0, ns => ns
  | k + 1, ns => let ms := resolveRound ns rs; if ms = ns then ns else resolveLoop rs k ms

/-- FMT_OUT resolved, and the formats that stand on the inputs. -/
def resolveFormats (ns : List Node) (rs : List Route) : List Node :=
  let ms := resolveLoop rs (ns.length + 1) (ns.map fun n => { n with fmtOut := n.cf 14 4 })
  let inFmt := fun (n : Node) (code p : Nat) => if code = fmtAny then ((driver ms rs n.num p).map (·.fmtOut)).getD fmtAny else code
  ms.map fun n =>
    { n with fmtIn0 := inFmt n (n.cf 6 4) 0, fmtIn1 := inFmt n (n.cf 10 4) 1,
             fmtIn2 := if n.opc = 0x10 then fmtPred else inFmt n (n.cf 10 4) 2 }

/-- Nodes that remain ANY (R72). -/
def staysAny (rs : List Route) (n : Node) : Bool :=
  n.fmtOut == fmtAny && n.outPorts != [] && !(n.isBridge && !rs.any (Route.into n.num 0))

/-- Whether an element rounds, so that RM and FTZ mean something (R64, R91, R96). -/
def Node.rounds (n : Node) : Bool :=
  let fl := fmtClass n.fmtIn0 == 1
  let changes := fl && n.fmtOut != n.fmtIn0
  let narrower := fl && changes && (fmtClass n.fmtOut != 1 || !(n.fmtOut == 0))
  match n.opc with
  | 3 | 4 | 5 | 6 | 0xB | 0xC | 0xD | 0x14 | 0x18 => fl
  | 7 | 8 | 9 | 0xA => changes
  | 0x15 | 0x16 => narrower
  | 0x11 => if n.espec % 4 = 0 then fl else narrower
  | 0x19 => n.especBit 0
  | 0x1B => decide (n.fmtIn0 ≤ 6) || decide (n.fmtOut ≤ 6)
  | _ => false

def flagsOk (n : Node) : Bool :=
  decide (n.rmCode < 6) && (n.rmCode != 5 || n.opc == 0x1B) && (n.rmCode == 0 || n.rounds) &&
  (!n.ftz || n.rounds || (n.opc == 0xE && fmtClass n.fmtIn0 == 1))

/-- Opcodes for which the formats decide whether they round. -/
def roundsByFormat (opc : Nat) : Bool := (decide (3 ≤ opc) && decide (opc ≤ 0xE)) || [0x11, 0x14, 0x15, 0x16, 0x18, 0x1B].contains opc

/-- FLAGS. An element whose formats decide whether it rounds, and that reads an unresolved one, is left to code ANY; a CMP
never rounds (R91). -/
def checkFlags (rs : List Route) (ns : List Node) : Option LoadErr :=
  let open_ := fun (n : Node) =>
    n.fmtIn0 == fmtAny && ns.any (staysAny rs) && roundsByFormat n.opc && (n.opc != 0xE || n.rmCode == 0) &&
      decide (n.rmCode < 6) && (n.rmCode != 5 || n.opc == 0x1B)
  firstErr 9 (nodeNums (fun n => !flagsOk n && !open_ n) ns) []

/-- ESPEC bits that an opcode takes (R85). -/
def especMask (opc : Nat) : Nat :=
  match opc with
  | 3 | 4 | 5 | 7 | 8 => 0b1001
  | 6 => 0b1101
  | 0xB => 0b1000
  | 0xE => 0b1111
  | 0x11 => 0b0111
  | 9 | 0xA | 0x10 | 0x12 | 0x14 | 0x17 | 0x19 | 0x1A | 0x1C => 1
  | 0x1F => 0b0011
  | _ => 0

def fmtBits (code : Nat) : Nat := match (Fmt.ofCode code).map Fmt.bits with
  | some 0 | none => 32
  | some b => b

/-- The bits that CONST0, CONST1 and INIT may use. A CVT uses CONST1 under rst alone, and CONST0 at an E2M1 end alone (log
entry 77). -/
def Node.constBits (n : Node) : Nat × Nat × Nat :=
  let c0 :=
    if n.k then (if n.opc = 0xB then 32 else fmtBits n.fmtIn1)
    else match n.opc with
      | 0x18 | 0x19 | 0x1C | 0x1D | 0x1E | 0x1F | 0x20 => 32
      | 0x1A => if n.especBit 0 then fmtBits n.fmtOut else 0
      | 0x1B => if n.fmtIn0 = 5 ∨ n.fmtOut = 5 then 17 else 0
      | _ => 0
  let c1 :=
    match n.opc with
    | 6 => if n.kc then fmtBits n.fmtIn2 else 0
    | 0x1C | 0x1D | 0x1E | 0x1F => 32
    | 0x1B => if n.rmCode = 5 then 32 else 0
    | _ => 0
  let i := match n.opc with
    | 0x11 | 0x14 | 0x15 | 0x16 | 0x17 => fmtBits n.fmtOut
    | _ => 0
  (c0, c1, i)

/-- A channel identifier's fields (R78). -/
def chanPart (c : Word) : Nat := field c.toNat 26 6
def chanDie (c : Word) : Nat := field c.toNat 22 4
def chanEnd (c : Word) : Nat := field c.toNat 20 2
def chanIndex (c : Word) : Nat := field c.toNat 0 7

/-- An identifier that no channel end can have. -/
def badChannel (podSize : Nat) (c : Word) : Bool :=
  field c.toNat 7 13 != 0 || decide (2 ≤ chanEnd c) || (chanEnd c == 1 && decide (64 ≤ chanIndex c)) || decide (podSize ≤ chanPart c)

/-- The identifier of a bridge site, by band of the array and row. -/
def bridgeId (part stack band row : Nat) : Word := BitVec.ofNat 32 (part * 2 ^ 26 + stack * 2 ^ 22 + (16 * band + row / 2))

def queueId (part core q : Nat) : Word := BitVec.ofNat 32 (part * 2 ^ 26 + core / 8 * 2 ^ 22 + 2 ^ 20 + core % 8 * 8 + q)

/-- Where an image is loaded: pod size, part, stack and first band. -/
structure Spot where
  podSize : Nat
  part : Nat
  stack : Nat
  first : Nat
  deriving DecidableEq, Repr

def Spot.bridge (x : Spot) (node : Nat) : Word := bridgeId x.part x.stack (x.first + bandOf node) (node % 32)

def constsOk (x : Spot) (n : Node) : Bool :=
  let w := n.constBits
  n.espec &&& especMask n.opc == n.espec && !(n.opc == 0xE && decide (6 ≤ n.espec % 8)) && !(n.opc == 0x11 && n.espec % 4 == 3) &&
  !((n.opc == 9 || n.opc == 0xA) && n.especBit 0 && fmtClass n.fmtIn0 == 1) &&
  decide (n.const0 < 2 ^ w.1) && decide (n.const1 < 2 ^ w.2.1) && decide (n.init < 2 ^ w.2.2) &&
  !(n.opc == 0x1B && n.rmCode == 5 && n.const1 == 0) && !(n.opc == 0x1C && n.const0 % 64 != 0) &&
  !(n.isBridge && (badChannel x.podSize (BitVec.ofNat 32 n.const0) || BitVec.ofNat 32 n.const0 == x.bridge n.num))

def checkConsts (x : Spot) (ns : List Node) : Option LoadErr := firstErr 10 (nodeNums (fun n => !constsOk x n) ns) []

/-- Ports whose format the opcode does not accept: 0, 1 and 3 for in0, in1 and in2, 2 for the output (R86). -/
def Node.badFormats (n : Node) (driven : Bool) : List Nat :=
  let i0 := n.fmtIn0
  let i1 := n.fmtIn1
  let o := n.fmtOut
  let c := fmtClass i0
  let num := (if c = 0 then [0] else [])
  let in1 := if fmtClass i1 = c then [] else [1]
  let in2 := if fmtClass n.fmtIn2 = c then [] else [3]
  let out := if fmtClass o = c then [] else [2]
  let same := if o = i0 then [] else [2]
  let isFl := fun (f p : Nat) => if fmtClass f = 1 then [] else [p]
  let eq := fun (f g p : Nat) => if f = g then [] else [p]
  match n.opc with
  | 1 | 2 => same
  | 0x20 => if driven then same else []
  | 0xF | 0x12 | 0x13 => eq i1 fmtPred 1 ++ same
  | 0x10 => eq i1 i0 1 ++ same
  | 3 | 4 | 5 | 7 | 8 => num ++ in1 ++ out
  | 6 => num ++ in1 ++ in2 ++ out
  | 0x11 | 0x14 | 0x15 | 0x16 => num ++ out
  | 9 | 0xA => num ++ same
  | 0xB => isFl i0 0 ++ eq i1 7 1 ++ isFl o 2
  | 0xC | 0xD => isFl i0 0 ++ isFl o 2
  | 0xE => num ++ in1 ++ eq o fmtPred 2
  | 0x17 => eq o 8 2
  | 0x18 => eq i0 0 0 ++ eq o 0 2
  | 0x19 => eq i0 0 0 ++ eq i1 0 1 ++ eq o 0 2
  | 0x1A => (if 13 ≤ i0 then [0] else []) ++ eq i1 i0 1 ++ same
  | 0x1B => (if 12 < i0 then [0] else []) ++ (if 12 < o then [2] else [])
  | 0x1C => (if c = 2 then [] else [0]) ++ (if 12 < o then [2] else [])
  | 0x1D => if 14 < o then [2] else []
  | 0x1E | 0x1F => if 14 < i0 then [0] else []
  | _ => []

/-- FMT code of the port that a route feeds (R64, R72). -/
def portFmt (n : Node) (p : Nat) : Nat :=
  if n.opc = 0x10 ∧ p = 2 then fmtPred else if p = 0 then n.cf 6 4 else n.cf 10 4

/-- FORMAT. A port at fault without a route of its own (a bridge's open out0, an in1 that a constant replaces) is named by
the first route at the node (log entry 76). -/
def checkFormats (ns : List Node) (rs : List Route) : Option LoadErr :=
  let edge := fun (r : Route) (_ : Nat) =>
    match nodeAt ns r.src, nodeAt ns r.dst with
    | some a, some b => portFmt b r.dstIn != fmtAny && a.fmtOut != portFmt b r.dstIn
    | _, _ => false
  let unresolved := ns.any (staysAny rs)
  let bad := ns.flatMap fun n =>
    ((n.badFormats (rs.any (Route.into n.num 0))).filter fun p =>
      !(unresolved && (n.fmtIn0 == fmtAny || (p == 1 && n.fmtIn1 == fmtAny) || (p == 3 && n.fmtIn2 == fmtAny) || (p == 2 && n.fmtOut == fmtAny)))).map fun p => (n, p)
  let own := fun (x : Node × Nat) =>
    if x.2 = 2 then rs.findIdx? (Route.from_ x.1.num 0)
    else if x.2 = 0 then rs.findIdx? (Route.into x.1.num 0)
    else if x.2 = 1 then rs.findIdx? (Route.into x.1.num 1)
    else rs.findIdx? (Route.into x.1.num 2)
  let route := fun (x : Node × Nat) => (own x).or (rs.findIdx? fun r => r.src == x.1.num || r.dst == x.1.num)
  firstErr 11 [] (routeNums edge rs ++ bad.filterMap route)

def checkAny (ns : List Node) (rs : List Route) : Option LoadErr := firstErr 12 (nodeNums (staysAny rs) ns) []

/-- Band edges that a route crosses, each with its direction. -/
def Route.edges (r : Route) : List (Nat × Bool) :=
  let a := bandOf r.src
  let b := bandOf r.dst
  (natsFrom (Nat.min a b) (distance a b)).map fun e => (e, decide (a < b))

/-- R70: the routes that come as the 65th or later over an edge. -/
def checkCrossings (rs : List Route) : Option LoadErr :=
  firstErr 13 [] (routeNums (fun r i => r.edges.any fun e => decide (64 ≤ ((rs.take i).filter fun q => q.edges.contains e).length)) rs)

def Route.hops (r : Route) : Nat := hopsOf r.src r.dst

def checkPreloads (t : Tables) (rs : List Route) : Option LoadErr :=
  let bad := fun (p : Preload) (i : Nat) =>
    match rs[p.route]? with
    | none => true
    | some r => decide (3 < p.kind) || decide (4 * r.hops ≤ ((t.pres.take i).filter (·.route == p.route)).length)
  firstErr 14 [] ((t.pres.zipIdx.filter fun x => bad x.1 x.2).map (·.1.route))

/-- Tokens placed in a route, the oldest nearest to its end (R69). -/
def placeTokens (hops : Nat) (ts : List Tok) : List (List Tok) := (List.range hops).map fun h => (ts.drop (4 * (hops - 1 - h))).take 4

/-- Checks 3 to 14, and the nodes and routes of an image that passes them. -/
def checkTables (x : Spot) (w : Nat) (t : Tables) : Except LoadErr (List Node × List Route) :=
  let ns := t.nodes.map (·.1)
  let rs := t.routes.map (·.1)
  let ms := resolveFormats ns rs
  let err := (checkReserved t).or <| (checkNodes w ns).or <| (checkOpcodes ns).or <| (checkSites ns).or <| (checkPorts ns rs).or <|
    (checkMarkers ns).or <| (checkFlags rs ms).or <| (checkConsts x ms).or <| (checkFormats ms rs).or <| (checkAny ms rs).or <|
    (checkCrossings rs).or (checkPreloads t rs)
  match err with
  | some e => .error e
  | none =>
    .ok (ms.map Node.resetState,
      rs.zipIdx.map fun r =>
        let ts := (t.pres.filter (·.route == r.2)).map fun p => { kind := TokKind.ofCode p.kind, exc := p.exc, payload := p.payload : Tok }
        { r.1 with preload := ts, links := placeTokens r.1.hops ts })

/-! ### Regions in the state (R73-R75) -/

def Region.at (stack first : Nat) (r : Region) : Bool := r.stack == stack && r.first == first
def State.region? (s : State) (stack first : Nat) : Option Region := s.engines.regions.find? (·.at stack first)
def State.setRegion (s : State) (r : Region) : State :=
  s.onEngines fun g => { g with regions := updateWhere (·.at r.stack r.first) (fun _ => r) g.regions }

/-- Whether a region has a band. -/
def Region.hasBand (r : Region) (stack band : Nat) : Bool := r.stack == stack && decide (r.first ≤ band) && decide (band < r.first + r.width)

def State.regionOfBand (s : State) (stack band : Nat) : Option Region := s.engines.regions.find? (·.hasBand stack band)
def State.savedOfBand (s : State) (stack band : Nat) : Option Region := s.engines.savedRegions.find? (·.hasBand stack band)

def RegState.code : RegState → Nat
  | .empty => 0
  | .loading => 1
  | .unarmed => 2
  | .armed => 3
  | .running => 4
  | .draining => 5
  | .frozen => 6
  | .aborted => 7

/-- The status word (R74). ITEM keeps the low 12 bits of a number that it cannot hold (DESIGN CHOICE, log 100). -/
def Region.word (r : Region) : Word :=
  BitVec.ofNat 32 (r.state.code * 2 ^ 29 + (r.width - 1) % 8 * 2 ^ 26 + r.first % 8 * 2 ^ 23 + b2n r.itemRoute * 2 ^ 20 +
    r.item % 4096 * 2 ^ 8 + r.code % 256)

/-- The region word of GCTL.status, which ignores WM1 (R341): stack and band. -/
def bandWord (w : Word) : Option (Nat × Nat) :=
  let n := w.toNat
  if field n 10 22 ≠ 0 then none else some (field n 0 4, field n 4 3)

/-- A region word (R337): stack, first band and width; none when it is malformed. -/
def regionWord (w : Word) : Option (Nat × Nat × Nat) :=
  let n := w.toNat
  let first := field n 4 3
  let width := field n 7 3 + 1
  if field n 10 22 ≠ 0 ∨ 8 < first + width then none else some (field n 0 4, first, width)

def Region.node? (r : Region) (n : Nat) : Option Node := nodeAt r.nodes n
def Region.setNode (r : Region) (n : Node) : Region := { r with nodes := updateWhere (·.num == n.num) (fun _ => n) r.nodes }
def Region.endpoint? (r : Region) (n : Nat) : Option Endpoint := r.endpoints.find? (·.num == n)
def Region.setEndpoint (r : Region) (e : Endpoint) : Region :=
  { r with endpoints := updateWhere (·.num == e.num) (fun _ => e) r.endpoints }

def Region.sinks (r : Region) : List Node := r.nodes.filter Node.isSink
def Region.srcs (r : Region) : List Node := r.nodes.filter Node.isSrc
def Region.barriers (r : Region) : List Node := r.nodes.filter (·.opc == 0x1F)

/-- Nodes that take part in running (R71, R75). -/
def Region.live (r : Region) : Bool := r.state == .armed || r.state == .running || r.state == .draining

/-- Who a region's accesses are for: an endpoint's node number, or one of the numbers below. No core performs them, so the
local alias of R9 names nothing for them (DESIGN CHOICE, log 85). -/
def Region.party (r : Region) (node : Nat) : Party :=
  { who := .region r.stack r.first node, unit := .base r.stack, ctx := r.ctx, alias_ := none }

def loaderNode : Nat := 0x1000
def mapNode : Nat := 0x1001
def capNode : Nat := 0x1002

/-! ### Engine accesses of several bytes (R26) -/

/-- What an engine's access comes to. -/
inductive Eng (α : Type) where
  | ok (a : α)
  /-- it parks now -/
  | parked
  /-- it cannot be made now -/
  | held (h : Hold)
  | declined (va : DWord)
  deriving DecidableEq, Repr

/-- Translate a run of bytes for an engine. -/
def State.engMap (s : State) (p : Party) (need : Need) (va : DWord) (n : Nat) : State × Eng (List (Mapping × Nat)) :=
  match s.declinedOf p.who with
  | some d => (s.clearDeclined p.who, .declined d.ask.va)
  | none =>
    match s.mapPieces p need (piecesOf va n) with
    | (s, .ok ms) => (s, .ok ms)
    | (s, .fault a sub level) => (s.parkFault [p.ask need a] (p.ask need a) sub level, .parked)
    | (s, .held h) => (s, .held h)
    | (s, .full) => (s, .held .busy)

/-- Read bytes: with whether some of them are poisoned. -/
def State.engRead (s : State) (p : Party) (need : Need) (va : DWord) (n : Nat) : State × Eng (List Byte × Bool) :=
  match s.engMap p need va n with
  | (s, .ok ms) => let (s, bs, ps) := s.readPieces p.unit.core? 0 ms; (s, .ok (bs, ps.any id))
  | (s, .parked) => (s, .parked)
  | (s, .held h) => (s, .held h)
  | (s, .declined va) => (s, .declined va)

/-- Write bytes. -/
def State.engWrite (s : State) (p : Party) (need : Need) (va : DWord) (bs : List Byte) : State × Eng Unit :=
  match s.engMap p need va bs.length with
  | (s, .ok ms) => (s.writePieces p.unit.core? 0 ms bs, .ok ())
  | (s, .parked) => (s, .parked)
  | (s, .held h) => (s, .held h)
  | (s, .declined va) => (s, .declined va)

/-! ### Channels (R78, R79) -/

def State.channel? (s : State) (id : Word) : Option Channel := s.engines.channels.find? fun c => c.id == id && !c.saved

def State.onChannel (s : State) (id : Word) (f : Channel → Channel) : State :=
  s.onEngines fun g => { g with channels := updateWhere (fun c => c.id == id && !c.saved) f g.channels }

/-- Remove a channel end with its tokens: its peer holds its own until a connection forms again (R343). -/
def State.dropChannel (s : State) (id : Word) : State :=
  let peer := (s.channel? id).map (·.peer)
  let s := s.onEngines fun g => { g with channels := g.channels.filter fun c => !(c.id == id && !c.saved) }
  match peer with
  | some p => s.onChannel p fun c => if c.peer = id then { c with connected := false, told := false } else c
  | none => s

/-- The pod size and part number (R430). -/
def State.podSize (s : State) : Nat := field (s.word (controlBlock + 0x74)).toNat 8 6 + 1

def State.spot (s : State) (r : Region) : Spot := { podSize := s.podSize, part := s.partNumber, stack := r.stack, first := r.first }

/-- Identifiers of a region's bridges. -/
def State.bridgesOf (s : State) (r : Region) : List (Node × Word) :=
  (r.nodes.filter Node.isBridge).map fun n => (n, (s.spot r).bridge n.num)

/-! ### IMAGE_LOAD (R71, R75, R77) -/

def State.unarm (s : State) (r : Region) (e : LoadErr) : State :=
  s.setRegion { r with state := .unarmed, code := e.code, item := e.item, itemRoute := e.route }

/-- Read the LUT tables of the nodes, in order (R102). -/
def State.readTables (s : State) (r : Region) : List Node → State × Eng (List Node)
  | [] => (s, .ok [])
  | n :: ns =>
    if n.opc = 0x1C then
      match s.engRead (r.party loaderNode) { kind := .arrayRead } n.address 1024 with
      | (s, .ok (bs, poison)) =>
        if poison then (s, .declined n.address)
        else
          match State.readTables s r ns with
          | (s, .ok ms) => (s, .ok ({ n with table := (List.range 256).map fun i => le32 bs (4 * i) } :: ms))
          | x => x
      | (s, .parked) => (s, .parked)
      | (s, .held h) => (s, .held h)
      | (s, .declined va) => (s, .declined va)
    else
      match State.readTables s r ns with
      | (s, .ok ms) => (s, .ok (n :: ms))
      | x => x

/-- An image in use by a region. -/
def State.imageUsed (s : State) (x : CacheImage) : Bool :=
  s.engines.regions.any fun r => r.stack == x.stack && r.ctx == x.ctx && r.image == x.image && r.state != .empty

/-- Images that an invalidation removed go with the last region that uses them (R341). -/
def State.sweepImages (s : State) : State :=
  s.onEngines fun g => { g with configCache := g.configCache.filter fun c => !c.stale || s.imageUsed c }

/-- Enter an image into the configuration cache, or move it to the front (R77). An image in use by a region is no
victim. -/
def State.cacheImage (s : State) (c : CacheImage) : State :=
  let same := fun (x : CacheImage) => x.stack == c.stack && x.ctx == c.ctx && x.image == c.image && !x.stale
  let used := s.imageUsed
  s.onEngines fun g =>
    let rest := g.configCache.filter fun x => !same x
    let mine := rest.filter (·.stack == c.stack)
    let victim := if mine.length < 32 then none else (mine.filter fun x => !used x).getLast?
    if mine.length < 32 then { g with configCache := c :: rest }
    else
      match victim with
      | some v => { g with configCache := c :: rest.erase v }
      | none => g

/-- Arm a region with checked nodes and routes (R75): its channels at the bridges stand unconnected. -/
def State.arm (s : State) (r : Region) (h : Header) (nodes : List Node) (routes : List Route) : State :=
  let r := { r with
    state := .armed, code := 0, item := 0, itemRoute := false, hangInterval := h.hang, excEntries := h.excEntries, nodes := nodes,
    routes := routes, invs := [], invNext := 0, fired := s.baseClk, suspended := none, mapDue := none,
    endpoints := (nodes.filter fun n => n.isSrc || n.isSink).map fun n => { num := n.num } }
  let s := s.setRegion r
  (s.bridgesOf r).foldl (fun s b =>
    let c : Channel := { id := b.2, peer := BitVec.ofNat 32 b.1.const0, fmt := b.1.fmtOut }
    (s.dropChannel b.2).onEngines fun g => { g with channels := g.channels ++ [c] }) s

/-- The tables of an image, from the cache or read and checked: none of them on a failure. -/
def State.loadTables (s : State) (r : Region) (hdr : List Byte) (h : Header) : State × Eng (Except LoadErr (List Node × List Route)) :=
  match s.engines.configCache.find? fun c => c.stack == r.stack && c.ctx == r.ctx && c.image == r.image && c.header == hdr && !c.stale with
  | some c => (s, .ok (.ok (c.nodes, c.routes)))
  | none =>
    match s.engRead (r.party loaderNode) { kind := .arrayRead } r.image h.total with
    | (s, .ok (bs, poison)) =>
      (s, .ok (if poison then .error { code := 2 } else checkTables (s.spot r) r.width (Tables.ofBytes h bs)))
    | (s, .parked) => (s, .parked)
    | (s, .held h) => (s, .held h)
    | (s, .declined va) => (s, .declined va)

/-- A load of a region: `arm` says what to do with the checked tables. -/
def State.loadRegion (s : State) (r : Region) (name : String)
    (arm : State → List Byte → Header → List Node → List Route → State) : Host.Outcome State Fault Refusal :=
  match s.engRead (r.party loaderNode) { kind := .arrayRead } r.image 64 with
  | (s, .parked) => .next s
  | (_, .held h) => s.waitFor name h
  | (s, .declined _) => .next (s.unarm r { code := 2 })
  | (s, .ok (hdr, poison)) =>
    let h := Header.ofBytes r.width hdr
    if poison then .next (s.unarm r { code := 2 })
    else if !h.ok then .next (s.unarm r { code := 1 })
    else
      match s.loadTables r hdr h with
      | (s, .parked) => .next s
      | (_, .held h) => s.waitFor name h
      | (s, .declined _) => .next (s.unarm r { code := 2 })
      | (s, .ok (.error e)) => .next (s.unarm r e)
      | (s, .ok (.ok (nodes, routes))) =>
        match s.readTables r nodes with
        | (s, .parked) => .next s
        | (_, .held h) => s.waitFor name h
        | (s, .declined _) => .next (s.unarm r { code := 2 })
        | (s, .ok full) =>
          let s := s.cacheImage { stack := r.stack, ctx := r.ctx, image := r.image, header := hdr, nodes := nodes, routes := routes }
          .next (arm s hdr h full routes)

/-- IMAGE_LOAD: the load of a region that is LOADING ends its checks. -/
def execImageLoad (stack first : Nat) (s : State) : Host.Outcome State Fault Refusal :=
  match s.region? stack first with
  | none => notNow "IMAGE_LOAD"
  | some r => if r.state != .loading || r.slots != [] then notNow "IMAGE_LOAD" else s.loadRegion r "IMAGE_LOAD" fun s _ h ns rs => s.arm r h ns rs

/-! ### Invocations and their arrivals (R76, R105, R340) -/

/-- Whether an invocation has completed: every sink has consumed its EOI (R76). In a region without a sink it is every SRC
that has emitted it; in one with neither an invocation is complete at once, and the region stays RUNNING (log entry 78). -/
def Region.completed (r : Region) (v : Invocation) : Bool :=
  let ends := if r.sinks.isEmpty then r.srcs else r.sinks
  ends.all fun n => v.done.contains n.num

/-- Invocations in flight. -/
def Region.inFlight (r : Region) : List Invocation := r.invs.filter fun v => !r.completed v

/-- The ERR that a status becomes (R167). -/
def statusHang : Nat := 4
def statusAbort : Nat := 5

/-- The arrival of a SNKBAR for an invocation (R105, R167). -/
def State.barrierArrival (s : State) (r : Region) (n : Node) (v : Invocation) (err : Nat) : State :=
  let k := n.espec % 4
  s.engineArrive (r.party n.num) (nth 0 v.mbars k) { bytes := false, n := 1, gen := nth (some 0) v.gens k, err := err }

/-- The arrivals that are still to come: in-flight invocations with the ERR given, completed ones with their own. -/
def State.lateArrivals (s : State) (r : Region) (err : Nat) : State :=
  r.invs.foldl (fun s v =>
    (r.barriers.filter fun n => !v.arrived.contains n.num).foldl (fun s n =>
      s.barrierArrival r n v (if r.completed v then v.status else err)) s) s

/-- Faults and walks for a region are forgotten with it. -/
def State.forgetRegion (s : State) (stack first : Nat) : State :=
  let mine := fun (a : Ask) => match a.who with
    | .region st f _ => st == stack && f == first
    | _ => false
  s.onCaches fun c =>
    { c with faults := (c.faults.map fun f => { f with asks := f.asks.filter fun a => !mine a }).filter (·.asks != []),
             declined := c.declined.filter fun d => !mine d.ask }

/-- Whether some access of a region is parked on a fault. -/
def State.regionParked (s : State) (r : Region) : Bool :=
  s.caches.faults.any fun f => f.asks.any fun a => match a.who with
    | .region st k _ => st == r.stack && k == r.first
    | _ => false

/-- The hang is declared in full: the SNKBARs arrive with status HANG, and an event is posted. -/
def State.declareHang (s : State) (r : Region) (map : DWord) : State :=
  let s := s.lateArrivals r statusHang
  let r := { r with invs := [], mapDue := none }
  (s.setRegion r).post { source := srcBase r.stack, cls := 4, code := 1, ctx := some r.ctx, core := none, payload := map,
                         detail := r.word.setWidth 64 }

/-- Where the map of a region goes: the address of its oldest invocation in flight, else of its last launch. -/
def Region.mapAddress (r : Region) : DWord := ((r.inFlight.head?).map (·.occMap)).getD r.lastMap

/-- Free a region's bands (R75): its channels are emptied. A hang whose map is still to be written is declared without it
(log entry 79). -/
def State.freeRegion (s : State) (r : Region) : State :=
  let s := if r.mapDue.isSome then s.declareHang r r.mapAddress else s.lateArrivals r statusAbort
  let s := (s.bridgesOf r).foldl (fun s b => s.dropChannel b.2) s
  let s := s.forgetRegion r.stack r.first
  (s.onEngines fun g => { g with regions := g.regions.filter fun x => !x.at r.stack r.first }).sweepImages

/-- Abort a region (R418, R75): nodes and links are emptied, writes stand, the SNKBARs arrive, an event is posted. -/
def State.abortRegion (s : State) (r : Region) (status event : Nat) (va : DWord) : State :=
  let s := s.lateArrivals r statusAbort
  let s := s.forgetRegion r.stack r.first
  let r' := { r with
    state := .aborted, code := status, item := 0, itemRoute := false, invs := [], suspended := none,
    nodes := r.nodes.map fun n => { n.resetState with live := false, ring := [], mode := 0, stat := none, coord := none, last := [0, 0, 0] },
    routes := r.routes.map fun x => { x with links := x.links.map fun _ => [], dawn := false },
    endpoints := r.endpoints.map fun e => { num := e.num } }
  let s := s.setRegion r'
  let s := (s.bridgesOf r).foldl (fun s b => s.onChannel b.2 fun c => { c with outTok := [], inTok := [] }) s
  s.post { source := srcBase r.stack, cls := 4, code := event, ctx := some r.ctx, core := none, payload := va,
           detail := r'.word.setWidth 64 }

/-! ### GPREP and GCTL (R339, R341) -/

def execGprep (d : Dst) (a b : Opnd) (h : Bool) (s : State) : Host.Outcome State Fault Refusal :=
  let pair := fun (x : Slice) e => x.readPair e s.clock true a
  s.runGang (.gprep d a b h) (fun x e => [(pair x e).1, (pair x e).2, x.readOpnd e s.clock b])
    (fun x e => heldOf h [(pair x e).1, (pair x e).2]) fun s l =>
    let image := l.pair s.clock a
    match regionWord (l.word s.clock b) with
    | none => (s, .word d 2)
    | some (stack, first, width) =>
      if (natsFrom first width).any fun k => (s.regionOfBand stack k).isSome || (s.savedOfBand stack k).isSome then (s, .word d 1)
      else if image.toNat % 64 ≠ 0 then (s, .word d 3)
      else
        let r : Region := { stack := stack, first := first, width := width, ctx := l.env.ctx, state := .loading, image := image }
        (s.onEngines fun g => { g with regions := g.regions ++ [r] }, .word d 0)

/-- GCTL.status. A band that is not its region's first answers with the region's word (log entry 80); one that holds no
region, or none any more, answers 0 (R74; DESIGN CHOICE, log 100). -/
def execGctlStatus (d : Dst) (a : Opnd) (h : Bool) (s : State) : Host.Outcome State Fault Refusal :=
  let ra := fun (x : Slice) e => x.readOpnd e s.clock a
  s.runGang (.gctlStatus d a h) (fun x e => [ra x e]) (fun x e => heldOf h [ra x e]) fun s l =>
    match bandWord (l.word s.clock a) with
    | none => (s, .word d 0xFFFFFFFF)
    | some (stack, first) =>
      match (s.regionOfBand stack first).or (s.savedOfBand stack first) with
      | none => (s, .word d 0)
      | some r =>
        if r.ctx ≠ l.env.ctx then (s, .word d 0xFFFFFFFF)
        else (s, .word d (if (s.regionOfBand stack first).isSome then r.word else 0))

def execGctlRelease (d : Dst) (a : Opnd) (h : Bool) (s : State) : Host.Outcome State Fault Refusal :=
  let ra := fun (x : Slice) e => x.readOpnd e s.clock a
  s.runGang (.gctlRelease d a h) (fun x e => [ra x e]) (fun x e => heldOf h [ra x e]) fun s l =>
    match regionWord (l.word s.clock a) with
    | none => (s, .word d 1)
    | some (stack, first, width) =>
      match (s.regionOfBand stack first).or (s.savedOfBand stack first) with
      | none => (s, .word d 1)
      | some r =>
        if r.ctx ≠ l.env.ctx then (s, .word d 2)
        else if r.first = first && r.width == width && [RegState.unarmed, .armed, .frozen, .aborted].contains r.state &&
            (s.region? stack first).isSome then (s.freeRegion r, .word d 0)
        else (s, .word d 1)

/-- GCTL.inval: an entry that a region uses serves no load any more, and goes when the region is released. -/
def execGctlInval (d : Dst) (a : Opnd) (h : Bool) (s : State) : Host.Outcome State Fault Refusal :=
  let pair := fun (x : Slice) e => x.readPair e s.clock true a
  s.runGang (.gctlInval d a h) (fun x e => [(pair x e).1, (pair x e).2]) (fun x e => heldOf h [(pair x e).1, (pair x e).2])
    fun s l =>
    let image := l.pair s.clock a
    let s := s.onEngines fun g =>
      { g with configCache := updateWhere (fun c => c.ctx == l.env.ctx && c.image == image) (fun c => { c with stale := true }) g.configCache }
    (s.sweepImages, .word d 0)

/-! ### GLAUNCH (R340) -/

structure LaunchRec where
  region : Option (Nat × Nat × Nat)
  mbars : List DWord
  excLog : DWord
  occMap : DWord
  ok : Bool
  deriving DecidableEq, Repr

def LaunchRec.ofBytes (bs : List Byte) : LaunchRec :=
  let ms := (natsFrom 0 4).map fun k => le64 bs (8 + 8 * k)
  let log := le64 bs 0x28
  let occ := le64 bs 0x30
  { region := regionWord (le32 bs 0), mbars := ms, excLog := log, occMap := occ,
    ok := zeroAt bs 4 4 && zeroAt bs 0x38 8 && ms.all (·.toNat % 16 == 0) && log.toNat % 16 == 0 && occ.toNat % 8 == 0 }

/-- The region that a word's bands meet, in place or saved. -/
def State.regionsOn (s : State) (stack first width : Nat) : List Region :=
  (natsFrom first width).filterMap fun k => (s.regionOfBand stack k).or (s.savedOfBand stack k)

/-- Capture the GENs of the nonzero barrier objects. -/
def State.captureGens (s : State) (t : Tasker) : List DWord → Except Stop (State × List (Option Byte))
  | [] => .ok (s, [])
  | m :: ms => do
    let (s, g) ← s.captureGen t m
    let (s, gs) ← State.captureGens s t ms
    return (s, g :: gs)

/-- DAWN at every SRC, and on its output route (R63, R75). -/
def Region.injectDawn (r : Region) : Region :=
  { r with nodes := r.nodes.map fun n => if n.isSrc then { n with live := true } else n,
           routes := r.routes.map fun x =>
             if r.nodes.any fun n => n.isSrc && !n.live && x.from_ n.num 0 then { x with dawn := true } else x }

/-- The Launch event (R75). With nothing in flight before it the hang monitor's count starts anew, whatever preloads and
tokens its links have held since it was armed (R81; DESIGN CHOICE, log 101). -/
def State.launch (s : State) (r : Region) (rcd : LaunchRec) (gens : List (Option Byte)) : State :=
  let v : Invocation := { num := r.invNext, mbars := rcd.mbars, gens := gens, excLog := rcd.excLog, occMap := rcd.occMap }
  let r := if r.nodes.any (·.live) then r else r.injectDawn
  s.setRegion { r with state := .running, invs := r.invs ++ [v], invNext := r.invNext + 1, lastMap := rcd.occMap,
                       fired := if r.inFlight.isEmpty then s.baseClk else r.fired }

def State.startGraph (s : State) (l : Lead) (d : Dst) (va : DWord) : Except Stop (State × GangOut) := do
  let t := Tasker.of l.env l.slice
  let (s, bs) ← s.taskRead t .record va 64
  let rcd := LaunchRec.ofBytes bs
  match rcd.region with
  | none => return (s, .word d 3)
  | some (stack, first, width) =>
    if !rcd.ok then return (s, .word d 3)
    match s.regionsOn stack first width with
    | [] => return (s, .word d 1)
    | r :: _ =>
      if r.first ≠ first ∨ r.width ≠ width then return (s, .word d 3)
      if r.ctx ≠ l.env.ctx then return (s, .word d 2)
      if (s.region? stack first).isNone || r.state == .loading || r.state == .draining || decide (4 ≤ r.inFlight.length) then
        return (s, .wait)
      if r.state ≠ .armed ∧ r.state ≠ .running then return (s, .word d 1)
      let (s, gens) ← s.captureGens t rcd.mbars
      return (s.launch r rcd gens, .word d 0)

def execGlaunch (d : Dst) (a : Opnd) (h : Bool) (s : State) : Host.Outcome State Fault Refusal :=
  let pair := fun (x : Slice) e => x.readPair e s.clock true a
  s.runGang (.glaunch d a h) (fun x e => [(pair x e).1, (pair x e).2]) (fun x e => heldOf h [(pair x e).1, (pair x e).2]) fun s l =>
    let va := l.pair s.clock a
    if va.toNat % 64 ≠ 0 then (s, .trap (trapOn causeMisaligned l.slice.pc va))
    else if s.curSlices.any fun x => !s.releaseReady x .pkg then (s, .wait)
    else
      let rel := s.curSlices.foldl (fun s x => s.releaseAt (s.env x) x .pkg) s
      match rel.gangStop l (rel.startGraph l d va) with
      | (_, .wait) => (rel, .wait)
      | r => r

end Sys2Proof.Machine
end

