-- ==== Sys2Proof/Machine/Elements.lean ====
section
/-! DEFINITION. Elements of a stack array: how a node fires, and what each opcode computes
(spec/03_stack_array.md R59-R63; spec/04_array_elements.md R84-R102). -/

namespace Sys2Proof.Machine

/-! ### Firing (R62) -/

/-- A firing: the inputs consumed, one entry for each token, the inputs from which a STAT behind the head is taken, the
tokens emitted, and the node after it. -/
structure Firing where
  take : List Nat := []
  second : List Nat := []
  out : List (Nat × Tok) := []
  node : Node
  deriving DecidableEq, Repr

/-- Tokens that have reached an input, oldest first. -/
def Region.queue (r : Region) (n p : Nat) : List Tok := ((r.routes.find? (Route.into n p)).map fun x => x.links.getLast?.getD []).getD []

def Region.driven (r : Region) (n p : Nat) : Bool := r.routes.any (Route.into n p)

/-- Whether every connected output has room for what a firing emits. -/
def Region.hasRoom (r : Region) (n : Nat) (out : List (Nat × Tok)) : Bool :=
  out.all fun o => match r.routes.find? (Route.from_ n o.1) with
    | none => true
    | some x => decide ((x.links.headD []).length + (out.filter (·.1 == o.1)).length ≤ 4)

/-- Consume k tokens at a route's end. -/
def Route.consume (r : Route) (k : Nat) : Route :=
  if k = 0 then r else { r with links := r.links.dropLast ++ [(r.links.getLast?.getD []).drop k] }

/-- Take the token behind the head at a route's end. -/
def Route.consumeSecond (r : Route) : Route := { r with links := r.links.dropLast ++ [(r.links.getLast?.getD []).eraseIdx 1] }

/-- Append tokens at a route's start. -/
def Route.emit (r : Route) (ts : List Tok) : Route :=
  match r.links with
  | [] => r
  | l :: ls => { r with links := (l ++ ts) :: ls }

/-- The rank consumed last on each input after a firing; DUSK and STAT leave it (R59, R89). -/
def Region.lastAfter (r : Region) (n : Node) (take : List Nat) : List Nat :=
  (natsFrom 0 3).map fun p =>
    match ((r.queue n.num p).take (take.filter (· == p)).length).getLast? with
    | none => nth 0 n.last p
    | some t => if t.kind = .dusk ∨ t.kind = .stat then nth 0 n.last p else t.rank

/-- Perform a firing where its outputs have room; what an unconnected output would carry is discarded. -/
def Region.fire (r : Region) (f : Firing) : Option Region :=
  let n := f.node
  if r.hasRoom n.num f.out then
    let routes := r.routes.map fun x =>
      let x := if x.dst = n.num then x.consume (f.take.filter (· == x.dstIn)).length else x
      let x := if x.dst = n.num ∧ f.second.contains x.dstIn then x.consumeSecond else x
      if x.src = n.num then x.emit ((f.out.filter (·.1 == x.srcOut)).map (·.2)) else x
    some ({ r with routes := routes }.setNode { n with last := r.lastAfter n f.take })
  else none

/-- A node of a region that runs, if it is live and has one of these opcodes. -/
def State.runningNode (s : State) (stack first node : Nat) (opc : Nat) : Option (Region × Node) :=
  match s.region? stack first with
  | none => none
  | some r =>
    match r.node? node with
    | none => none
    | some n => if r.live && n.live && n.opc == opc then some (r, n) else none

/-! ### What every element does with COORD on a PRED input and with STAT (R87, R89) -/

/-- Control inputs (R95). -/
def Node.predInputs (n : Node) : List Nat :=
  match n.opc with
  | 0xF | 0x12 | 0x13 => [1]
  | 0x10 => if n.especBit 0 then [] else [2]
  | _ => []

def Node.toAll (n : Node) (t : Tok) : List (Nat × Tok) := n.outPorts.map fun p => (p.1, t)

/-- Elements that take a COORD and its DATA in one firing: a first-come MERGE and ISECT. -/
def Node.movesPairs (n : Node) : Bool := n.opc == 0x1A || (n.opc == 0x10 && n.especBit 0)

/-- Elements of several inputs that forward a STAT (R89). -/
def Node.joinsStats (n : Node) : Bool := n.opc == 0xF || n.opc == 0x10 || n.opc == 0x13

/-- Whether it is an input's turn for a STAT that goes out: of joined inputs the lower ones show another token first; GATE
turns to the input that it reads next; a first-come MERGE takes what comes (R83, R95; DEDUCED, log 100). -/
def Node.statTurn (n : Node) (q : Nat → List Tok) (p : Nat) : Bool :=
  if n.opc = 0x13 then (p == 1) == (n.mode == 0)
  else if n.opc = 0x10 && n.especBit 0 then true
  else n.inPorts.all fun o => decide (p ≤ o.1) || (match q o.1 with | t :: _ => t.kind != .stat | [] => false)

/-- A COORD on a PRED input, a STAT at a head, or a STAT between a COORD and its DATA where both are taken at once: it goes
before the COORD, which keeps its DATA behind it (R58). A STAT on in0 of RBUF is discarded, as R89 has it, and takes no
place in the ring (DESIGN CHOICE, log 100). -/
def Node.sweep (n : Node) (q : Nat → List Tok) : List Firing :=
  n.inPorts.filterMap fun p =>
    match q p.1 with
    | [] => none
    | t :: _ =>
      if t.kind = .coord ∧ n.predInputs.contains p.1 then some { take := [p.1], node := n }
      else if t.kind = .coord ∧ n.movesPairs ∧ (((q p.1)[1]?).map (·.kind)) = some .stat then
        some { second := [p.1], out := if n.opc = 0x10 then n.toAll (((q p.1)[1]?).getD t) else [], node := n }
      else if t.kind = .stat ∧ n.opc ≠ 1 ∧ n.opc ≠ 2 ∧ ¬(n.opc = 0x19 ∧ p.1 = 1) then
        if n.joinsStats then (if n.statTurn q p.1 then some { take := [p.1], out := n.toAll t, node := n } else none)
        else some { take := [p.1], node := n }
      else none

/-- A step of an element: the first firing that has room. -/
def State.element (s : State) (name : String) (opc stack first node : Nat) (fire : Node → (Nat → List Tok) → List Firing) :
    Host.Outcome State Fault Refusal :=
  match s.runningNode stack first node opc with
  | none => notNow name
  | some (r, n) =>
    let q := r.queue n.num
    match (n.sweep q ++ fire n q).findSome? r.fire with
    | none => notNow name
    | some r => .next (s.setRegion { r with fired := s.baseClk })

/-! ### Markers (R59, R87, R88) -/

/-- Whether a marker on an input triggers a field. -/
def Node.triggers (n : Node) (p f : Nat) (m : Tok) : Bool := f != 0 && decide (f - 1 ≤ m.rank) && decide (nth 0 n.last p < f - 1)

def headIs (k : Tok → Bool) (ts : List Tok) : Bool := match ts with
  | [] => false
  | t :: _ => k t

def Tok.isData (t : Tok) : Bool := t.kind == .data
def Tok.isCoord (t : Tok) : Bool := t.kind == .coord
def Tok.val (t : Tok) : Nat := t.payload.toNat

/-- The marker forwarded for the heads of some inputs: the highest rank, the lowest input at a tie. -/
def markerOf (q : Nat → List Tok) (ports : List Nat) : Option Tok := maxBy? Tok.rank (ports.filterMap fun p => (q p).head?)

/-- Consume a marker from each of some inputs, all of whose heads are markers. -/
def Node.joinMarkers (n : Node) (q : Nat → List Tok) (ports : List Nat) : List Firing :=
  if ports.all fun p => headIs Tok.isMarker (q p) then
    (markerOf q ports).toList.map fun m => { take := ports, out := n.toAll m, node := { n with coord := none } }
  else []

/-- A COORD before a DATA, both with the EXC of the firing (R60). -/
def withCoord (c : Option Tok) (p : Nat) (t : Tok) : List (Nat × Tok) :=
  (c.toList.map fun c => (p, { c with exc := c.exc || t.exc })) ++ [(p, t)]

/-- Joined inputs (R87): data inputs and control inputs; `f` gives the DATA emitted, by payloads in that order. -/
def Node.joined (n : Node) (q : Nat → List Tok) (dp pp : List Nat) (f : List Nat → Bool → List (Nat × Tok)) : List Firing :=
  let ports := dp ++ pp
  if dp.all fun p => headIs Tok.isCoord (q p) then
    let hs := dp.filterMap fun p => (q p).head?
    [{ take := dp, node := { n with coord := hs.head?.map fun c => { c with exc := hs.any (·.exc) } } }]
  else if ports.all fun p => headIs Tok.isData (q p) then
    let hs := ports.filterMap fun p => (q p).head?
    let exc := hs.any (·.exc) || (n.coord.map (·.exc)).getD false
    [{ take := ports, out := (f (hs.map Tok.val) exc).flatMap fun o => withCoord n.coord o.1 o.2, node := { n with coord := none } }]
  else n.joinMarkers q ports

/-- One input, COORD and markers passing at once (R88, R90). -/
def Node.unary (n : Node) (q : Nat → List Tok) (f : Tok → Tok × Node) (mark : Tok → Node) : List Firing :=
  match q 0 with
  | [] => []
  | t :: _ =>
    match t.kind with
    | .coord => [{ take := [0], out := [(0, t)], node := n }]
    | .data => let (u, m) := f t; [{ take := [0], out := [(0, u)], node := m }]
    | .eor | .eot | .eoi => [{ take := [0], out := n.toAll t, node := mark t }]
    | _ => []

/-! ### Values (R91-R94) -/

def fmtOf (code : Nat) : Fmt := (Fmt.ofCode code).getD .f32

/-- The value of a payload. -/
def Node.value (n : Node) (fmt x : Nat) : Val := if fmtClass fmt = 1 then readFloat (fmtOf fmt) n.ftz x else decodeVal (fmtOf fmt) x

def intValue (fmt x : Nat) : Int :=
  match fmtOf fmt with
  | .i32 | .i16 | .i8 => sextNat (fmtOf fmt).bits x
  | f => (x % 2 ^ f.bits : Nat)

/-- Low bits of FMT_OUT, or its range. -/
def narrowInt (fmt : Nat) (sat : Bool) (v : Int) : Nat :=
  truncInt (fmtOf fmt).bits (if sat then clampInt (fmtOf fmt).intMin (fmtOf fmt).intMax v else v)

/-- The exceptions that set EXC (R60). -/
def Flags.exc (f : Flags) : Bool := f.invalid || f.divzero || f.overflow

/-- The larger or the smaller of two values, and whether a signalling NaN raised invalid. -/
def extreme (isMax : Bool) (x y : Val) : Val × Bool :=
  let inv := x.isSig || y.isSig
  if x.isNan && y.isNan then (.nan false, inv)
  else if x.isNan then (y, inv)
  else if y.isNan then (x, inv)
  else if x.below y then (if isMax then y else x, inv)
  else (if isMax then x else y, inv)

/-- v * 2^b; beyond 2^12 either way the result over- or underflows every format. -/
def scaleVal (v : Val) (b : Int) : Val :=
  match v with
  | .num s m e => .num s m (e + clampInt (-4096) 4096 b)
  | v => v

/-- EXP2, RCP and the logarithm of RSTAT in F32 within 2 ulp (R93); the function numbers of the opaque choice are those of
R216 plus 32 (log entry 8). -/
def arrayF32 (fn : SpecialFn) (v : Val) : FRes :=
  let src := (roundVal .f32 .rne false 0 v).bits
  match fn, v with
  | _, .nan sig => { bits := Fmt.nanBits .f32, flags := { invalid := sig } }
  | .rcp, .inf neg => { bits := withSign .f32 neg 0 }
  | .rcp, .num neg m e => if m = 0 then infRes neg true else ulpResult 34 src 2 true (rcpApprox neg m e)
  | .log2, .inf neg => if neg then invalidRes else infRes false false
  | .log2, .num neg m e =>
    if m = 0 then infRes true true else if neg then invalidRes else ulpResult 38 src 2 true (log2Approx m e)
  | _, .inf neg => if neg then { bits := 0 } else infRes false false
  | _, .num neg m e => if m = 0 then { bits := oneBits } else ulpResult 37 src 2 true (exp2Approx neg m e)

/-- The same, rounded once to a format with FTZ on the result (R199); an exponential beyond the format's range is +∞, whatever
the mode (R93). -/
def arrayFn (fn : SpecialFn) (f : Fmt) (rm : Rm) (ftz : Bool) (v : Val) : FRes :=
  let y := arrayF32 fn v
  if f = .f32 then
    if ftz && isSubnormal .f32 y.bits then
      { bits := y.bits / 2 ^ 31 * 2 ^ 31, flags := { y.flags with underflow := true, inexact := true } }
    else y
  else
    let z := roundVal f rm ftz 0 (decodeFloat .f32 y.bits)
    let bits := if fn = .exp2 ∧ z.flags.overflow then f.maxBits + 1 else z.bits
    { bits := bits, flags := y.flags.or { z.flags with invalid := false } }

/-- R94. -/
def condOf : Nat → Cond
  | 0 => .eq
  | 1 => .ne
  | 2 => .lt
  | 3 => .le
  | 4 => .gt
  | _ => .ge

/-- The result of an arithmetic element of floats (R92). -/
def Node.floatResult (n : Node) (a b c : Nat) : FRes :=
  let fo := fmtOf n.fmtOut
  let x := n.value n.fmtIn0 a
  let y := n.value n.fmtIn1 b
  let z := n.value n.fmtIn2 c
  let op := fun v => roundOp fo n.rm n.ftz 0 v
  let sign := (fmtOf n.fmtIn0).signBit
  match n.opc with
  | 3 => op (sumVals n.rm [x, y])
  | 4 => op (sumVals n.rm [x, y.neg])
  | 5 => op (x.mul y)
  | 6 => op (sumProducts n.rm [(x, y)] z)
  | 7 => op (extreme true x y)
  | 8 => op (extreme false x y)
  | 9 => { bits := a % sign }
  | 0xA => { bits := (a + sign) % (2 * sign) }
  | 0xB => op (scaleVal x (sextNat 32 b), false)
  | 0xC => arrayFn .exp2 fo n.rm n.ftz x
  | 0xD => arrayFn .rcp fo n.rm n.ftz x
  | _ =>
    let un := x.isNan || y.isNan
    { bits := b2n ((condOf (n.espec % 8)).holds un (if un then .eq else x.compare y)), flags := { invalid := x.isSig || y.isSig } }

/-- The result of an arithmetic element of integers. -/
def Node.intResult (n : Node) (a b c : Nat) : Nat :=
  let x := intValue n.fmtIn0 a
  let y := intValue n.fmtIn1 b
  let z := intValue n.fmtIn2 c
  let out := narrowInt n.fmtOut (n.especBit 0)
  match n.opc with
  | 3 => out (x + y)
  | 4 => out (x - y)
  | 5 => out (x * y)
  | 6 => out (x * y + z)
  | 7 => out (max x y)
  | 8 => out (min x y)
  | 9 => out x.natAbs
  | 0xA => out (-x)
  | _ => b2n ((condOf (n.espec % 8)).holds false (Ord.compare x y))

def Node.result (n : Node) (a b c : Nat) : FRes :=
  if fmtClass n.fmtIn0 = 1 then n.floatResult a b c else { bits := n.intResult a b c }

/-- The operands of an arithmetic element, constants standing in for the ports they replace (R85). -/
def Node.operands (n : Node) (vs : List Nat) : Nat × Nat × Nat :=
  let b := if n.k then n.const0 else nth 0 vs 1
  let c := if n.kc then n.const1 else nth 0 vs (if n.k then 1 else 2)
  (nth 0 vs 0, b, c)

/-- A word-unit arithmetic element over its joined inputs. -/
def Node.arith (n : Node) (q : Nat → List Tok) : List Firing :=
  n.joined q (n.inPorts.map (·.1)) [] fun vs exc =>
    let o := n.operands vs
    let r := n.result o.1 o.2.1 o.2.2
    [(0, Tok.data r.bits (exc || r.flags.exc))]

/-- A word-unit arithmetic element of one input. -/
def Node.arithUnary (n : Node) (q : Nat → List Tok) : List Firing :=
  n.unary q (fun t => let r := n.result t.val 0 0; (Tok.data r.bits (t.exc || r.flags.exc), n)) fun _ => n

def execAdd (stack first node : Nat) (s : State) : Host.Outcome State Fault Refusal := s.element "ADD" 3 stack first node Node.arith
def execSub (stack first node : Nat) (s : State) : Host.Outcome State Fault Refusal := s.element "SUB" 4 stack first node Node.arith
def execMul (stack first node : Nat) (s : State) : Host.Outcome State Fault Refusal := s.element "MUL" 5 stack first node Node.arith
def execFma (stack first node : Nat) (s : State) : Host.Outcome State Fault Refusal := s.element "FMA" 6 stack first node Node.arith
def execMax (stack first node : Nat) (s : State) : Host.Outcome State Fault Refusal := s.element "MAX" 7 stack first node Node.arith
def execMin (stack first node : Nat) (s : State) : Host.Outcome State Fault Refusal := s.element "MIN" 8 stack first node Node.arith
def execAbs (stack first node : Nat) (s : State) : Host.Outcome State Fault Refusal := s.element "ABS" 9 stack first node Node.arithUnary
def execNeg (stack first node : Nat) (s : State) : Host.Outcome State Fault Refusal := s.element "NEG" 0xA stack first node Node.arithUnary
def execScale (stack first node : Nat) (s : State) : Host.Outcome State Fault Refusal := s.element "SCALE" 0xB stack first node Node.arith
def execExp2 (stack first node : Nat) (s : State) : Host.Outcome State Fault Refusal := s.element "EXP2" 0xC stack first node Node.arithUnary
def execRcp (stack first node : Nat) (s : State) : Host.Outcome State Fault Refusal := s.element "RCP" 0xD stack first node Node.arithUnary
def execCmp (stack first node : Nat) (s : State) : Host.Outcome State Fault Refusal := s.element "CMP" 0xE stack first node Node.arith

/-! ### Routing (R95) -/

/-- PASS and FORK2: each token unchanged. -/
def Node.passOn (n : Node) (q : Nat → List Tok) : List Firing :=
  match q 0 with
  | [] => []
  | t :: _ => if t.kind = .dusk then [] else [{ take := [0], out := n.toAll t, node := n }]

def execPass (stack first node : Nat) (s : State) : Host.Outcome State Fault Refusal := s.element "PASS" 1 stack first node Node.passOn
def execFork2 (stack first node : Nat) (s : State) : Host.Outcome State Fault Refusal := s.element "FORK2" 2 stack first node Node.passOn

def Node.steer (n : Node) (q : Nat → List Tok) : List Firing :=
  n.joined q [0] [1] fun vs exc => [(if bit (nth 0 vs 1) 0 then 0 else 1, Tok.data (nth 0 vs 0) exc)]

def execSteer (stack first node : Nat) (s : State) : Host.Outcome State Fault Refusal := s.element "STEER" 0xF stack first node Node.steer

def Node.filter (n : Node) (q : Nat → List Tok) : List Firing :=
  n.joined q [0] [1] fun vs exc => if bit (nth 0 vs 1) 0 != n.especBit 0 then [(0, Tok.data (nth 0 vs 0) exc)] else []

def execFilter (stack first node : Nat) (s : State) : Host.Outcome State Fault Refusal := s.element "FILTER" 0x12 stack first node Node.filter

/-- What one input offers MERGE: a DATA with the COORD before it, or a COORD that no DATA follows and that is dropped. -/
def mergeItem (p : Nat) (ts : List Tok) : Option (List Nat × List Tok) :=
  match ts with
  | t :: rest =>
    if t.isData then some ([p], [t])
    else if t.isCoord then
      match rest with
      | [] => none
      | u :: _ => if u.isData then some ([p, p], [t, u]) else if u.kind = .stat then none else some ([p], [])
    else none
  | [] => none

def Node.mergeOut (n : Node) (item : List Nat × List Tok) : Firing :=
  { take := item.1, out := item.2.map fun t => (0, { t with exc := item.2.any (·.exc) }), node := n }

/-- MERGE: a controlled one joins its inputs under R87, one token of each to a firing, and sends on the DATA of the input that
in2 selects, behind in0's COORD whichever it is (DEDUCED, log 100); a first-come one prefers in0. -/
def Node.merge (n : Node) (q : Nat → List Tok) : List Firing :=
  if n.especBit 0 then
    let items := [0, 1].filterMap fun p => mergeItem p (q p)
    items.map n.mergeOut ++ n.joinMarkers q [0, 1]
  else n.joined q [0, 1] [2] fun vs exc => [(0, Tok.data (if bit (nth 0 vs 2) 0 then nth 0 vs 0 else nth 0 vs 1) exc)]

def execMerge (stack first node : Nat) (s : State) : Host.Outcome State Fault Refusal := s.element "MERGE" 0x10 stack first node Node.merge

/-- GATE: a DATA on in1 opens a segment, which ends with its marker. The EXC of the DATA on in1 goes to no token of the
segment, none of which is emitted in the firing that consumed it (log entry 75). -/
def Node.gate (n : Node) (q : Nat → List Tok) : List Firing :=
  if n.mode = 0 then
    match q 1 with
    | [] => []
    | t :: _ =>
      if t.isData then [{ take := [1], node := { n with mode := if t.payload.getLsbD 0 then 2 else 1 } }]
      else if t.isMarker then [{ take := [1], node := n }]
      else []
  else
    match q 0 with
    | [] => []
    | t :: _ =>
      if t.isMarker then [{ take := [0], out := [(0, t)], node := { n with mode := 0 } }]
      else if t.isData || t.isCoord then [{ take := [0], out := if n.mode = 2 then [(0, t)] else [], node := n }]
      else []

def execGate (stack first node : Nat) (s : State) : Host.Outcome State Fault Refusal := s.element "GATE" 0x13 stack first node Node.gate

/-! ### State and reductions (R96-R98) -/

/-- An operation of a reduction or a CARRY on its state and a DATA: 0 add, 1 max, 2 min. -/
def Node.combine (n : Node) (op : Nat) (sat : Bool) (x : Nat) : FRes :=
  let st := n.s0.toNat
  if fmtClass n.fmtIn0 = 1 then
    let a := n.value n.fmtOut st
    let b := n.value n.fmtIn0 x
    roundOp (fmtOf n.fmtOut) n.rm n.ftz 0 (if op = 0 then sumVals n.rm [a, b] else extreme (op == 1) a b)
  else
    let a := intValue n.fmtOut st
    let b := intValue n.fmtIn0 x
    { bits := narrowInt n.fmtOut sat (if op = 0 then a + b else if op = 1 then max a b else min a b) }

/-- A reduction: how a DATA changes the state, with whether it flags it, and what a firing emits. -/
def Node.reduce (n : Node) (q : Nat → List Tok) (upd : Tok → Node × Bool) (emit : Bool → Tok) : List Firing :=
  match q 0 with
  | [] => []
  | t :: _ =>
    match t.kind with
    | .coord => [{ take := [0], node := n }]
    | .data =>
      let (m, fl) := upd t
      [{ take := [0], node := { m with seen := true, excHeld := n.excHeld || t.exc || fl } }]
    | .eor | .eot | .eoi =>
      let fires := n.triggers 0 n.fireOn t
      let resets := t.kind == .eoi || n.triggers 0 n.resetOn t
      [{ take := [0], out := (if fires then [(0, emit (n.excHeld || t.exc))] else []) ++ [(0, t)],
         node := if resets then n.resetState else n }]
    | _ => []

def Node.reduceBy (n : Node) (op : Nat) (q : Nat → List Tok) : List Firing :=
  n.reduce q (fun t => let r := n.combine op (n.especBit 0) t.val; ({ n with s0 := BitVec.ofNat 32 r.bits }, r.flags.exc))
    fun e => Tok.data n.s0.toNat e

def execRedadd (stack first node : Nat) (s : State) : Host.Outcome State Fault Refusal :=
  s.element "REDADD" 0x14 stack first node fun n q => n.reduceBy 0 q

def execRedmax (stack first node : Nat) (s : State) : Host.Outcome State Fault Refusal :=
  s.element "REDMAX" 0x15 stack first node fun n q => n.reduceBy 1 q

def execRedmin (stack first node : Nat) (s : State) : Host.Outcome State Fault Refusal :=
  s.element "REDMIN" 0x16 stack first node fun n q => n.reduceBy 2 q

/-- COUNT: under NZ a DATA of zero is not counted, of PRED bit 0 alone being read (R86). A flagged DATA that is not counted
has entered the state all the same, so that the count carries its EXC (R60; DESIGN CHOICE, log 100). -/
def Node.counting (n : Node) (q : Nat → List Tok) : List Firing :=
  n.reduce q (fun t =>
      let zero := if n.fmtIn0 = fmtPred then !t.payload.getLsbD 0 else t.payload == 0
      let skip := n.especBit 0 && zero
      ({ n with s0 := if skip || n.s0 == BitVec.allOnes 32 then n.s0 else n.s0 + 1 }, false))
    fun e => Tok.data n.s0.toNat e

def execCount (stack first node : Nat) (s : State) : Host.Outcome State Fault Refusal := s.element "COUNT" 0x17 stack first node Node.counting

/-- CARRY (R97). -/
def Node.carry (n : Node) (q : Nat → List Tok) : List Firing :=
  match q 0 with
  | [] => []
  | t :: _ =>
    match t.kind with
    | .coord => [{ take := [0], node := { n with coord := some t } }]
    | .data =>
      let r := n.combine (n.espec % 4) (n.especBit 2) t.val
      let exc := n.excHeld || t.exc || (n.coord.map (·.exc)).getD false || r.flags.exc
      [{ take := [0], out := withCoord n.coord 0 (Tok.data n.s0.toNat exc) ++ withCoord n.coord 1 (Tok.data r.bits exc),
         node := { n with coord := none, s0 := BitVec.ofNat 32 r.bits, seen := true, excHeld := n.excHeld || t.exc } }]
    | .eor | .eot | .eoi =>
      let m := { n with coord := none }
      [{ take := [0], out := n.toAll t, node := if t.kind = .eoi ∨ n.triggers 0 n.resetOn t then m.resetState else m }]
    | _ => []

def execCarry (stack first node : Nat) (s : State) : Host.Outcome State Fault Refusal := s.element "CARRY" 0x11 stack first node Node.carry

/-- One DATA of RSTAT (R98): the pair m (s1) and s (s0). A NaN flags the row. -/
def Node.rstatStep (n : Node) (x : Nat) : Node × Bool :=
  let m := n.s1.toNat
  let st := n.s0.toNat
  let y := fMul .f32 n.rm n.ftz x n.const0
  let yv := readFloat .f32 n.ftz y.bits
  let mv := readFloat .f32 n.ftz m
  let nan : Word := BitVec.ofNat 32 (Fmt.nanBits .f32)
  if yv.isNan || mv.isNan then ({ n with s0 := nan, s1 := nan }, true)
  else
    let up := mv.compare yv == .lt
    let d := if up then fSub .f32 n.rm n.ftz m y.bits else fSub .f32 n.rm n.ftz y.bits m
    let e := arrayFn .exp2 .f32 n.rm n.ftz (readFloat .f32 n.ftz d.bits)
    let p := if up then fMul .f32 n.rm n.ftz st e.bits else { bits := st }
    let t := if up then fAdd .f32 n.rm n.ftz p.bits oneBits else fAdd .f32 n.rm n.ftz st e.bits
    ({ n with s0 := BitVec.ofNat 32 t.bits, s1 := if up then BitVec.ofNat 32 y.bits else n.s1 },
      y.flags.exc || d.flags.exc || e.flags.exc || p.flags.exc || t.flags.exc)

/-- The STAT of a row; an empty row's -∞ takes no logarithm. -/
def Node.rstatEmit (n : Node) (exc : Bool) : Tok :=
  if !n.seen then { kind := .stat, exc := exc, payload := 0xFF800000 }
  else
    let l := arrayFn .log2 .f32 n.rm n.ftz (readFloat .f32 n.ftz n.s0.toNat)
    let r := fAdd .f32 n.rm n.ftz n.s1.toNat l.bits
    { kind := .stat, exc := exc || l.flags.exc || r.flags.exc, payload := BitVec.ofNat 32 r.bits }

def execRstat (stack first node : Nat) (s : State) : Host.Outcome State Fault Refusal :=
  s.element "RSTAT" 0x18 stack first node fun n q => n.reduce q (fun t => n.rstatStep t.val) n.rstatEmit

/-! ### The row buffer (R99) -/

/-- A DATA as it leaves the ring under the STAT of its row. -/
def Node.release (n : Node) (st t : Tok) : Tok :=
  if n.especBit 0 then
    let y := fMul .f32 .rne n.ftz t.val n.const0
    let d := sumVals n.rm [readFloat .f32 n.ftz y.bits, (readFloat .f32 n.ftz st.val).neg]
    let r := arrayFn .exp2 .f32 n.rm n.ftz d.1
    Tok.data r.bits (t.exc || st.exc || d.2 || y.flags.invalid || y.flags.overflow || r.flags.invalid || r.flags.overflow)
  else { t with exc := t.exc || st.exc }

/-- Entries of the ring in use: markers occupy none. -/
def Node.ringUsed (n : Node) : Nat := (n.ring.filter fun x => !x.1.isMarker).length

/-- The token that leaves the ring: of a row being released, or a marker that triggers nothing at its head. A marker of in1
goes with each marker emitted. -/
def Node.ringOut (n : Node) (q : Nat → List Tok) : List Firing :=
  match n.ring with
  | [] => []
  | (t, trig) :: rest =>
    if t.isMarker then
      if trig && n.stat.isNone then []
      else
        let m := { n with ring := rest, stat := if trig then none else n.stat }
        if 0 < n.mode then [{ out := [(0, t)], node := { m with mode := n.mode - 1 } }]
        else if headIs Tok.isMarker (q 1) then [{ take := [1], out := [(0, t)], node := m }]
        else []
    else
      match n.stat with
      | none => []
      | some st => [{ out := [(0, if t.isData then n.release st t else t)], node := { n with ring := rest } }]

def Node.ringIn (n : Node) (q : Nat → List Tok) : List Firing :=
  match q 0 with
  | [] => []
  | t :: _ =>
    if t.isMarker then [{ take := [0], node := { n with ring := n.ring ++ [(t, n.triggers 0 n.fireOn t)] } }]
    else if (t.isData || t.isCoord) && decide (n.ringUsed < 8192) then [{ take := [0], node := { n with ring := n.ring ++ [(t, false)] } }]
    else []

/-- in1: its DATA are discarded; a STAT starts the release of a whole row; a marker that comes before its row's STAT is
kept for the next marker emitted. -/
def Node.ringStat (n : Node) (q : Nat → List Tok) : List Firing :=
  match q 1 with
  | [] => []
  | t :: _ =>
    if t.isData || t.isCoord then [{ take := [1], node := n }]
    else if n.stat.isSome then []
    else if t.kind = .stat then (if n.ring.any (·.2) then [{ take := [1], node := { n with stat := some t } }] else [])
    else if t.isMarker then [{ take := [1], node := { n with mode := n.mode + 1 } }]
    else []

def execRbuf (stack first node : Nat) (s : State) : Host.Outcome State Fault Refusal :=
  s.element "RBUF" 0x19 stack first node fun n q => n.ringOut q ++ n.ringIn q ++ n.ringStat q

/-! ### Intersection (R100) -/

/-- A DATA where a COORD is due, or a COORD that no DATA follows. -/
def strayToken (ts : List Tok) : Bool :=
  match ts with
  | t :: rest => t.isData || (t.isCoord && match rest with | u :: _ => !u.isData && u.kind != .stat | [] => false)
  | [] => false

/-- The pair at the head of an input. -/
def pairAt (ts : List Tok) : Option (Tok × Tok) :=
  match ts with
  | c :: x :: _ => if c.isCoord && x.isData then some (c, x) else none
  | _ => none

def Node.isectEmit (n : Node) (ports : List Nat) (used : List Tok) (show_ : Bool) (c x y : Nat) : Firing :=
  let exc := used.any (·.exc)
  let co : Tok := { kind := .coord, exc := exc, payload := BitVec.ofNat 32 c }
  { take := ports, out := if show_ then [(0, co), (0, Tok.data x exc), (1, co), (1, Tok.data y exc)] else [], node := n }

def Node.isect (n : Node) (q : Nat → List Tok) : List Firing :=
  let union := n.especBit 0
  let f := n.const0
  match [0, 1].find? fun p => strayToken (q p) with
  | some p => [{ take := [p], node := n }]
  | none =>
    let m0 := headIs Tok.isMarker (q 0)
    let m1 := headIs Tok.isMarker (q 1)
    if m0 && m1 then n.joinMarkers q [0, 1]
    else
      match pairAt (q 0), pairAt (q 1) with
      | none, some (c, y) => if m0 then [n.isectEmit [1, 1] [c, y] union c.val f y.val] else []
      | some (c, x), none => if m1 then [n.isectEmit [0, 0] [c, x] union c.val x.val f] else []
      | some (c, x), some (d, y) =>
        if c.val = d.val then [n.isectEmit [0, 0, 1, 1] [c, x, d, y] true c.val x.val y.val]
        else if c.val < d.val then [n.isectEmit [0, 0] [c, x] union c.val x.val f]
        else [n.isectEmit [1, 1] [d, y] union d.val f y.val]
      | none, none => []

def execIsect (stack first node : Nat) (s : State) : Host.Outcome State Fault Refusal := s.element "ISECT" 0x1A stack first node Node.isect

/-! ### Conversion and lookup (R101, R102) -/

/-- CVT of one payload; E2M1 ends use the element's scale and spare, and take no FTZ (R199). -/
def Node.cvtRes (n : Node) (x : Nat) : FRes :=
  let sc := field n.const0 0 8
  let sp := field n.const0 8 8
  let am := bit n.const0 16
  let src := fmtOf n.fmtIn0
  let dst := fmtOf n.fmtOut
  let r := rst24 (rstStep n.s2)
  let from4 := decodeE2m1 (x % 16) sc sp am
  if dst = .e2m1 then encodeE2m1 n.rm r sc sp am (if src = .e2m1 then from4 else decodeVal src x)
  else if src = .e2m1 then
    (if dst.isInt then floatToInt dst n.rm r from4
     else if dst = .e8m0 then toE8m0 n.rm from4
     else roundVal dst n.rm false r from4)
  else convert src dst n.rm false n.ftz r x

def Node.cvt (n : Node) (q : Nat → List Tok) : List Firing :=
  n.unary q (fun t =>
      let r := n.cvtRes t.val
      (Tok.data r.bits (t.exc || r.flags.exc), if r.stepped then { n with s2 := rstStep n.s2 } else n))
    fun m => if m.kind = .eoi ∨ n.triggers 0 n.resetOn m then n.resetState else n

def execCvt (stack first node : Nat) (s : State) : Host.Outcome State Fault Refusal := s.element "CVT" 0x1B stack first node Node.cvt

def Node.lut (n : Node) (q : Nat → List Tok) : List Firing :=
  n.unary q (fun t =>
      let v := intValue n.fmtIn0 t.val
      let wrap := n.especBit 0
      let i := if wrap then (v % 256).toNat else (clampInt 0 255 v).toNat
      (Tok.data ((nth 0 n.table i).toNat % 2 ^ fmtBits n.fmtOut) (t.exc || (!wrap && (i : Int) != v)), n))
    fun _ => n

def execLut (stack first node : Nat) (s : State) : Host.Outcome State Fault Refusal := s.element "LUT" 0x1C stack first node Node.lut

/-! ### Links, DAWN and DUSK (R61, R63, R89) -/

def setRoute (rs : List Route) (i : Nat) (x : Route) : List Route := setNth rs i x

/-- ROUTE_HOP: the oldest token of a link moves to the next; an uncorrectable error there aborts the region (R419). -/
def execRouteHop (stack first route hop : Nat) (s : State) : Host.Outcome State Fault Refusal :=
  match s.region? stack first with
  | none => notNow "ROUTE_HOP"
  | some r =>
    match r.routes[route]? with
    | none => notNow "ROUTE_HOP"
    | some x =>
      if !r.live || x.links.length ≤ hop + 1 then notNow "ROUTE_HOP"
      else
        match nth [] x.links hop with
        | [] => notNow "ROUTE_HOP"
        | t :: rest =>
          if x.broken then .next (s.abortRegion r 0x41 3 0)
          else if 4 ≤ (nth [] x.links (hop + 1)).length then notNow "ROUTE_HOP"
          else
            let ls := setNth (setNth x.links hop rest) (hop + 1) (nth [] x.links (hop + 1) ++ [t])
            .next (s.setRegion { r with routes := setRoute r.routes route { x with links := ls } })

/-- DAWN goes out on every connected output of a node. -/
def Region.dawnOut (r : Region) (n : Nat) : Region :=
  { r with routes := r.routes.map fun x => if x.src = n then { x with dawn := true } else x }

def Region.wake (r : Region) (n : Node) : Region := r.setNode { n with live := true }

/-- DAWN_ARRIVAL: DAWN has crossed a route. On its first DAWN a node becomes live and forwards it; a bridge sends it on to
its channel (R63, R106). -/
def execDawnArrival (stack first route : Nat) (s : State) : Host.Outcome State Fault Refusal :=
  match s.region? stack first with
  | none => notNow "DAWN_ARRIVAL"
  | some r =>
    match r.routes[route]? with
    | none => notNow "DAWN_ARRIVAL"
    | some x =>
      if !r.live || !x.dawn then notNow "DAWN_ARRIVAL"
      else
        let r' := { r with routes := setRoute r.routes route { x with dawn := false } }
        match r.node? x.dst with
        | none => .next (s.setRegion r')
        | some n =>
          if n.isBridge then
            if n.mode % 2 = 1 then .next (s.setRegion r')
            else
              let id := (s.spot r).bridge n.num
              if (s.channel? id).any fun c => !c.outTok.isEmpty then notNow "DAWN_ARRIVAL"
              else
                .next ((s.setRegion (r'.wake { n with mode := n.mode + 1 })).onChannel id fun c =>
                  { c with outTok := [{ kind := .dawn }] })
          else if n.live then .next (s.setRegion r')
          else .next (s.setRegion ((r'.wake n).dawnOut n.num))

/-- DUSK_FORWARD (R89): a DUSK at the head of every connected input goes out on every connected output. It is no firing, yet
the hang monitor counts anew, since the region moves on (R81; DESIGN CHOICE, log 101). -/
def execDuskForward (stack first node : Nat) (s : State) : Host.Outcome State Fault Refusal :=
  match s.region? stack first with
  | none => notNow "DUSK_FORWARD"
  | some r =>
    match r.node? node with
    | none => notNow "DUSK_FORWARD"
    | some n =>
      let ports := (n.inPorts.map (·.1)).filter (r.driven n.num)
      if !r.live || !n.live || n.isBridge || n.isSink || ports.isEmpty then notNow "DUSK_FORWARD"
      else
        match ports.filterMap fun p => (r.queue n.num p).head? with
        | [] => notNow "DUSK_FORWARD"
        | t :: ts =>
          if (ts.length + 1 == ports.length) && (t :: ts).all (fun u => u.kind == .dusk) then
            match r.fire { take := ports, out := n.toAll t, node := n } with
            | none => notNow "DUSK_FORWARD"
            | some r => .next (s.setRegion { r with fired := s.baseClk })
          else notNow "DUSK_FORWARD"

end Sys2Proof.Machine
end

