-- ==== Sys2Proof/Machine/Endpoint.lean ====
section
/-! DEFINITION. Stream endpoints: SRC, SNK and SNKBAR, their invocations, the exception log and the arrivals
(spec/03_stack_array.md R76, R80; spec/04_array_elements.md R103-R105; spec/15_instr_array_system.md R340;
spec/18_faults_and_preemption.md R413, R417-R419). -/

namespace Sys2Proof.Machine

/-! ### Invocations -/

def statusExc : Nat := 1
def statusCount : Nat := 2
def statusApr : Nat := 3

def Region.onInv (r : Region) (num : Word) (f : Invocation → Invocation) : Region :=
  { r with invs := updateWhere (·.num == num) f r.invs }

/-- Of several statuses the first of R105 wins. -/
def Region.noteStatus (r : Region) (num : Word) (st : Nat) : Region := r.onInv num fun v => { v with status := Nat.max v.status st }

/-- An endpoint has come to the end of its invocation: completed invocations without a SNKBAR leave, and with the last in
flight a RUNNING region is ARMED again (R75, R76). -/
def Region.endpointDone (r : Region) (e : Endpoint) : Region :=
  let r := r.onInv e.inv fun v => { v with done := e.num :: v.done }
  let r := r.setEndpoint { num := e.num, inv := e.inv + 1, duskSeen := e.duskSeen }
  let r := if r.barriers.isEmpty then { r with invs := r.inFlight } else r
  if r.state == .running && r.inFlight.isEmpty then { r with state := .armed } else r

/-- An endpoint parks at its element (R417). -/
def State.parkEndpoint (s : State) (r : Region) (e : Endpoint) : State :=
  s.setRegion (r.setEndpoint { e with parked := true })

def Region.need (r : Region) (wr : Bool) : Need :=
  { kind := if wr then .arrayWrite else .arrayRead, wr := wr, special := .array r.stack }

/-- A declined stream fault aborts the region (R418). -/
def State.declineStream (s : State) (r : Region) (va : DWord) : State := s.abortRegion r 0x41 2 va

/-- The start of an invocation: CAP goes into its log header; a declined write is dropped (R82, R340). -/
def State.startInv (s : State) (r : Region) (num : Word) : State × Eng Unit :=
  match r.invs.find? (·.num == num) with
  | none => (s, .ok ())
  | some v =>
    if v.started || v.excLog == 0 then (s, .ok ())
    else
      let started := fun (s : State) => s.setRegion (r.onInv num fun v => { v with started := true })
      match s.engWrite (r.party capNode) (r.need true) (v.excLog + 8) (u32 r.excEntries) with
      | (s, .ok _) => (started s, .ok ())
      | (s, .declined _) => (started s, .ok ())
      | (s, .parked) => (s.setRegion r, .parked)
      | (s, .held h) => (s, .held h)

/-- The APR of an endpoint at the start of an invocation: invalid when its check fails or it is poisoned. -/
def State.readArrayApr (s : State) (r : Region) (n : Node) : State × Eng (Apr × Bool) :=
  match s.engRead (r.party n.num) (r.need false) n.address 128 with
  | (s, .ok (bs, poison)) =>
    let a := Apr.ofBytes n.address bs
    let bad := a.check true (fun a => !a.noConv)
    (s, .ok (a, !poison && bad == 0))
  | (s, .parked) => (s, .parked)
  | (s, .held h) => (s, .held h)
  | (s, .declined va) => (s, .declined va)

/-- Begin the invocation of an endpoint: `ok` says whether a valid APR serves it. -/
def State.beginEndpoint (s : State) (name : String) (r : Region) (n : Node) (e : Endpoint) (ok : Apr → Bool)
    (after : Region → Endpoint → Bool → Region) : Host.Outcome State Fault Refusal :=
  if e.inv = r.invNext then notNow name
  else
    match s.startInv r e.inv with
    | (s, .parked) => .next s
    | (_, .held h) => s.waitFor name h
    | (_, .declined _) => notNow name
    | (s, .ok _) =>
      let r := (s.region? r.stack r.first).getD r
      match s.readArrayApr r n with
      | (s, .parked) => .next (s.parkEndpoint r e)
      | (_, .held h) => s.waitFor name h
      | (s, .declined va) => .next (s.declineStream r va)
      | (s, .ok (a, valid)) =>
        let good := valid && ok a
        let e := { e with apr := some a, parked := false, pos := 0, written := 0, walkDone := !good, aprErr := b2n !good }
        let r := if good then r else r.noteStatus e.inv statusApr
        .next (s.setRegion (after r e good))

/-! ### SRC (R36, R103) -/

/-- Whether a skip suppresses every element of the iteration of a level that a walk position belongs to. -/
def Apr.iterSkipped (a : Apr) (i : List Nat) (k : Nat) : Bool :=
  levels.any fun j => a.rule j == 3 && (if k ≤ j then a.outside i j else a.inRange j == 0)

/-- The markers after a walk position (R36). -/
def Apr.marks (a : Apr) (inv : Word) (pos : Nat) : List Tok :=
  let i := a.index pos
  (a.closes pos).filterMap fun k =>
    let m := a.markKind k
    if m = 0 ∨ (k < 4 ∧ a.iterSkipped i (k + 1)) then none
    else some { kind := TokKind.ofCode m, payload := if m = 4 then inv else 0 }

/-- The tokens of one element: a value with its coordinate. -/
def Apr.emits (a : Apr) (coord : Nat) (v : Word) (poison : Bool) : List Tok :=
  if poison then (if a.coords then [{ kind := .coord, payload := BitVec.ofNat 32 coord }] else []) ++ [{ kind := .data, exc := true }]
  else (if a.coords then [{ kind := .coord, payload := BitVec.ofNat 32 coord }] else []) ++ [{ kind := .data, payload := v }]

/-- The tokens of an element's bytes: two nibbles, low first, for E2M1, each with the coordinate of the byte that R34 calls
the element; SKIPZERO looks at all bits of the element. The payload of an element wider than a word that memory holds is free
(log entry 2); a PAD's is PADVAL, which the element repeats. Of PRED it is bit 0 alone (R86). -/
def State.elementToks (s : State) (a : Apr) (pos : Nat) (bs : List Byte) (pad poison : Bool) : State × List Tok :=
  if !poison && a.skipZero && bs.all (· == 0) then (s, [])
  else if a.fmtCode = 5 then
    let b := bytesToNat bs
    (s, a.emits pos (BitVec.ofNat 32 (b % 16)) poison ++ a.emits pos (BitVec.ofNat 32 (b / 16 % 16)) poison)
  else if 4 < a.size && !pad then
    let (v, s) := s.freeValue
    (s, a.emits pos (v.setWidth 32) poison)
  else
    let v := bytesToNat (bs.take 4)
    (s, a.emits pos (BitVec.ofNat 32 (if a.fmtCode = fmtPred then v % 2 else v)) poison)

def eoiTok (inv : Word) (exc : Bool) : Tok := { kind := .eoi, exc := exc, payload := inv }

/-- One walk position of a SRC. -/
def State.walkSrc (s : State) (r : Region) (n : Node) (e : Endpoint) (a : Apr) : Host.Outcome State Fault Refusal :=
  let put := fun (s : State) (ts : List Tok) =>
    Host.Outcome.next (s.setRegion (r.setEndpoint { e with parked := false, pos := e.pos + 1, pending := ts ++ a.marks e.inv e.pos }))
  match a.elem e.pos with
  | .nothing => put s []
  | .pad => let (s, ts) := s.elementToks a e.pos a.padBytes true false; put s ts
  | .at_ va =>
    match s.reach (r.party n.num) (r.need false) va with
    | (s, .ok m) =>
      let (s, bs, poison) := s.pkgRead none m.pa a.size (policyOf m.cpol (b2n a.noAlloc))
      let (s, ts) := s.elementToks a e.pos bs false poison
      put s ts
    | (s, .parked) => .next (s.parkEndpoint r e)
    | (_, .held h) => s.waitFor "SRC" h
    | (s, .declined va _) => .next (s.declineStream r va)

/-- Emit the first pending token of a SRC. -/
def Region.emitSrc (r : Region) (n : Node) (e : Endpoint) (t : Tok) (rest : List Tok) : Option Region :=
  (r.fire { out := [(0, t)], node := n }).map fun r =>
    let e := { e with pending := rest }
    if e.walkDone && rest.isEmpty then r.endpointDone e else r.setEndpoint e

/-- SRC (R103, R413): begin an invocation, take a walk position, or emit one token; in DRAINING, DUSK after the element it
is emitting, or at once when it is parked. -/
def execSrc (stack first node : Nat) (s : State) : Host.Outcome State Fault Refusal :=
  match s.runningNode stack first node 0x1D with
  | none => notNow "SRC"
  | some (r, n) =>
    match r.endpoint? node with
    | none => notNow "SRC"
    | some e =>
      match e.pending with
      | t :: rest =>
        match r.emitSrc n e t rest with
        | none => notNow "SRC"
        | some r => .next (s.setRegion { r with fired := s.baseClk })
      | [] =>
        if r.state == .draining then
          if e.duskSeen then notNow "SRC"
          else
            match r.fire { out := [(0, { kind := .dusk, payload := r.dusk })], node := n } with
            | none => notNow "SRC"
            | some r => .next (s.setRegion { r.setEndpoint { e with duskSeen := true } with fired := s.baseClk })
        else
          match e.apr with
          | none =>
            s.beginEndpoint "SRC" r n e (fun a => !a.writes && (a.fmtCode == n.fmtOut || a.fmtCode == fmtAny)) fun r e good =>
              r.setEndpoint (if good then e else { e with pending := [eoiTok e.inv true] })
          | some a =>
            if a.total ≤ e.pos then .next (s.setRegion (r.setEndpoint { e with walkDone := true, pending := [eoiTok e.inv false] }))
            else s.walkSrc r n e a

/-! ### SNK and SNKBAR (R80, R104) -/

/-- The entry of a flagged token in the exception log (R80). -/
def logEntry (node : Nat) (inv : Word) (levels : List Nat) (payload : Word) : List Byte :=
  u16 node ++ zeros 2 ++ wordBytes inv ++ (levels.flatMap fun k => u32 k) ++ wordBytes payload

/-- A write that waits for the others of its token to translate. -/
structure Due where
  pieces : List (Mapping × Nat)
  bytes : List Byte
  /-- the access's CP: 1 for a record with NOALLOC (R33) -/
  cp : Nat := 0
  deriving DecidableEq, Repr

def State.performDue (s : State) (d : Due) : State := s.writePieces none d.cp d.pieces d.bytes

/-- The log's writes for a flagged token, translated but not made. With EXC_LOG_ENTRIES 0 and a log address, the header is
still kept: CAP is 0, and COUNT counts (log entry 83). -/
def State.logDue (s : State) (r : Region) (n : Node) (inv : Word) (levels : List Nat) (payload : Word) : State × Eng (List Due) :=
  match (r.invs.find? (·.num == inv)).map (·.excLog) with
  | none => (s, .ok [])
  | some log =>
    if log = 0 then (s, .ok [])
    else
      match s.engMap (r.party n.num) (r.need true) log 8 with
      | (s, .ok ms) =>
        let (s, bs, _) := s.readPieces none 0 ms
        let count := leAt bs 0 4
        let written := leAt bs 4 4
        let more := decide (written < r.excEntries)
        let head : Due := { pieces := ms, bytes := u32 (Nat.min (count + 1) 0xFFFFFFFF) ++ u32 (written + b2n more) }
        if more then
          let entry := logEntry n.num inv levels payload
          match s.engMap (r.party n.num) (r.need true) (log + BitVec.ofNat 64 (16 + 32 * written)) 32 with
          | (s, .ok es) => (s, .ok [{ pieces := es, bytes := entry }, head])
          | (s, .parked) => (s, .parked)
          | (s, .held h) => (s, .held h)
          | (s, .declined va) => (s, .declined va)
        else (s, .ok [head])
      | (s, .parked) => (s, .parked)
      | (s, .held h) => (s, .held h)
      | (s, .declined va) => (s, .declined va)

/-- Where a sink writes a DATA: nowhere, or bytes at an address. -/
inductive Target where
  | none
  | write (va : DWord) (bytes : List Byte)
  deriving DecidableEq, Repr

/-- The bytes of an element; those above a word are free (log entry 2). Of PRED bit 0 alone is read (R86). -/
def State.sinkBytes (s : State) (a : Apr) (v : Word) : State × List Byte :=
  let v := if a.fmtCode = fmtPred then v &&& 1 else v
  if 4 < a.size then
    let (s, up) := s.freeBytes (a.size - 4)
    (s, wordBytes v ++ up)
  else (s, (wordBytes v).take a.size)

/-- The write of a target, translated but not made. -/
def State.targetDue (s : State) (r : Region) (n : Node) (a : Apr) (t : Target) : State × Eng (List Due) :=
  let at_ := fun (va : DWord) (k : Nat) => s.engMap (r.party n.num) (r.need true) va k
  match t with
  | .none => (s, .ok [])
  | .write va bs =>
    match at_ va bs.length with
    | (s, .ok ms) => (s, .ok [{ pieces := ms, bytes := bs, cp := b2n a.noAlloc }])
    | (s, .parked) => (s, .parked)
    | (s, .held h) => (s, .held h)
    | (s, .declined va) => (s, .declined va)

/-- What a DATA does at a sink: the endpoint after it, its target, the walk position it belongs to, and a status. -/
structure Placed where
  e : Endpoint
  target : Target := .none
  pos : Option Nat := none
  status : Nat := 0
  deriving DecidableEq, Repr

/-- The next walk position of a dense walk that is not NOTHING. -/
def Apr.nextSlot (a : Apr) (pos : Nat) : Option (Nat × AprElem) := a.nextDst (a.total - pos) pos

/-- A DATA at a dense sink: the next position; E2M1 nibbles pair low first. -/
def State.placeDense (s : State) (e : Endpoint) (a : Apr) (v : Word) : State × Placed :=
  match a.nextSlot e.pos with
  | none => (s, { e := e, status := statusCount })
  | some (k, el) =>
    let done := { e with pos := k + 1, written := e.written + 1, pending := [] }
    if a.fmtCode = 5 then
      match e.pending with
      | [] => (s, { e := { e with pending := [{ kind := .data, payload := v &&& 15 }] }, pos := some k })
      | low :: _ =>
        let b := (low.payload &&& 15) ||| ((v &&& 15) <<< 4)
        (s, { e := done, pos := some k, target := match el with | .at_ va => .write va (u8 b.toNat) | _ => .none })
    else
      match el with
      | .at_ va => let (s, bs) := s.sinkBytes a v; (s, { e := done, pos := some k, target := .write va bs })
      | _ => (s, { e := done, pos := some k })

/-- The low nibble that a sparse sink of E2M1 has just put at the position of a coordinate. -/
def Endpoint.lowAt (e : Endpoint) (c : Tok) : Option Tok :=
  match e.pending with
  | [c', low] => if c'.payload == c.payload then some low else none
  | _ => none

/-- A DATA at a sparse sink: the position that its COORD names. An element of E2M1 is a byte (R34): a DATA writes its low
nibble and clears the high one, and the next DATA, when it names the same position, writes the high nibble (log entry 74). -/
def State.placeSparse (s : State) (e : Endpoint) (a : Apr) (coord : Option Tok) (v : Word) : State × Placed :=
  match coord with
  | none => (s, { e := e, status := statusCount })
  | some c =>
    let k := c.val
    if a.total ≤ k then (s, { e := e, status := statusCount })
    else
      match a.elem k with
      | .at_ va =>
        if a.fmtCode = 5 then
          let nib := v.toNat % 16
          match e.lowAt c with
          | some low =>
            let whole := u8 (low.payload.toNat % 16 + 16 * nib)
            (s, { e := { e with pending := [] }, pos := some k, target := .write va whole })
          | none =>
            let kept : List Tok := [c, { kind := .data, payload := v &&& 15 }]
            (s, { e := { e with pending := kept }, pos := some k, target := .write va (u8 nib) })
        else let (s, bs) := s.sinkBytes a v; (s, { e := e, pos := some k, target := .write va bs })
      | _ => (s, { e := e, pos := some k })

/-- Consume the head token of a sink. -/
def Region.takeSink (r : Region) (n : Node) : Region := (r.fire { take := [0], node := n }).getD r

/-- A DATA at a sink: its writes and its log entry are made together, or the sink parks. The entry of a DATA that takes no
position of the walk has five zeros for its LEVEL (R80; DESIGN CHOICE, log 100). -/
def State.sinkData (s : State) (name : String) (r : Region) (n : Node) (e : Endpoint) (a : Apr) (t : Tok) :
    Host.Outcome State Fault Refusal :=
  let bad := e.aprErr != 0
  let (s, p) : State × Placed :=
    if bad then (s, { e := e }) else if a.coords then s.placeSparse e a n.coord t.payload else s.placeDense e a t.payload
  let levelsOf := match p.pos with
    | some k => a.index k
    | none => [0, 0, 0, 0, 0]
  match s.targetDue r n a p.target with
  | (s, .parked) => .next (s.parkEndpoint r e)
  | (_, .held h) => s.waitFor name h
  | (s, .declined va) => .next (s.declineStream r va)
  | (s, .ok ds) =>
    match if t.exc then s.logDue r n e.inv levelsOf t.payload else (s, .ok []) with
    | (s, .parked) => .next (s.parkEndpoint r e)
    | (_, .held h) => s.waitFor name h
    | (s, .declined va) => .next (s.declineStream r va)
    | (s, .ok ls) =>
      let s := (ds ++ ls).foldl State.performDue s
      let r := (r.takeSink { n with coord := none }).setEndpoint { p.e with parked := false }
      let r := r.noteStatus e.inv (Nat.max p.status (if t.exc then statusExc else 0))
      .next (s.setRegion { r with fired := s.baseClk })

/-- An EOI at a sink: a last odd nibble is written, and a dense walk must have received its positions. -/
def State.sinkEnd (s : State) (name : String) (r : Region) (n : Node) (e : Endpoint) (a : Apr) : Host.Outcome State Fault Refusal :=
  let odd := e.aprErr == 0 && !a.coords && !e.pending.isEmpty
  let target : Target :=
    if odd then
      match a.nextSlot e.pos, e.pending with
      | some (_, .at_ va), t :: _ => .write va (u8 t.val)
      | _, _ => .none
    else .none
  match s.targetDue r n a target with
  | (s, .parked) => .next (s.parkEndpoint r e)
  | (_, .held h) => s.waitFor name h
  | (s, .declined va) => .next (s.declineStream r va)
  | (s, .ok ds) =>
    let s := ds.foldl State.performDue s
    let short := e.aprErr == 0 && !a.coords && e.written + b2n odd != a.emitted
    let r := if short then r.noteStatus e.inv statusCount else r
    .next (s.setRegion { (r.takeSink { n with coord := none }).endpointDone e with fired := s.baseClk })

/-- The step of a sink at its head token. -/
def State.sinkStep (s : State) (name : String) (opc stack first node : Nat) : Host.Outcome State Fault Refusal :=
  match s.runningNode stack first node opc with
  | none => notNow name
  | some (r, n) =>
    match r.endpoint? node, r.queue node 0 with
    | some e, t :: _ =>
      let skip := fun (n : Node) (e : Endpoint) =>
        Host.Outcome.next (s.setRegion { (r.takeSink n).setEndpoint e with fired := s.baseClk })
      let start := s.beginEndpoint name r n e (·.writes) fun r e _ => r.setEndpoint e
      match t.kind with
      | .eor | .eot => skip { n with coord := none } e
      | .stat | .dawn => skip n e
      | .dusk => skip n { e with duskSeen := true }
      | .coord => skip { n with coord := some t } e
      | .data =>
        match e.apr with
        | none => start
        | some a => s.sinkData name r n e a t
      | .eoi =>
        match e.apr with
        | none => start
        | some a => s.sinkEnd name r n e a
    | _, _ => notNow name

def execSnk (stack first node : Nat) (s : State) : Host.Outcome State Fault Refusal := s.sinkStep "SNK" 0x1E stack first node
def execSnkbar (stack first node : Nat) (s : State) : Host.Outcome State Fault Refusal := s.sinkStep "SNKBAR" 0x1F stack first node

/-- SNKBAR_ARRIVAL (R76, R105): the next SNKBAR of the oldest invocation, which has completed, arrives with its status. -/
def execSnkbarArrival (stack first : Nat) (s : State) : Host.Outcome State Fault Refusal :=
  match s.region? stack first with
  | none => notNow "SNKBAR_ARRIVAL"
  | some r =>
    match r.invs with
    | [] => notNow "SNKBAR_ARRIVAL"
    | v :: rest =>
      match r.barriers.filter fun n => !v.arrived.contains n.num with
      | [] => notNow "SNKBAR_ARRIVAL"
      | n :: more =>
        if !r.live || !r.completed v then notNow "SNKBAR_ARRIVAL"
        else
          let v' := { v with arrived := n.num :: v.arrived }
          let r' := { r with invs := if more.isEmpty then rest else v' :: rest }
          .next ((s.setRegion r').barrierArrival r n v v.status)

end Sys2Proof.Machine
end

