-- ==== Sys2Proof/Machine/Float.lean ====
section
/-! DEFINITION. Floating-point arithmetic, compares and functions (spec/12_instr_lane_arith.md R261-R265). -/

namespace Sys2Proof

/-- The format of an element, and bits of one (R250). -/
def FType.fmt : FType → Fmt
  | .f32 => .f32
  | .bf16x2 => .bf16
  | .f16x2 => .f16

end Sys2Proof

namespace Sys2Proof.Machine

/-- Element k of a float operand. -/
def floatElem (t : FType) (x : Word) (k : Nat) : Nat :=
  match t with
  | .f32 => x.toNat
  | _ => field x.toNat (16 * k) 16

/-- The word of the results of the elements, and their exceptions together. -/
def floatWord (t : FType) (f : Nat → FRes) : Word × Flags :=
  match t with
  | .f32 => (BitVec.ofNat 32 (f 0).bits, (f 0).flags)
  | _ => (BitVec.ofNat 32 ((f 0).bits + 2 ^ 16 * (f 1).bits), (f 0).flags.or (f 1).flags)

/-- A register and the exceptions of the lanes that take the result. -/
def floatReg (uniform : Bool) (take : BitVec 4) (f : Nat → Word × Flags) : Reg × Flags :=
  (mkReg uniform fun l => (f l).1, Flags.all ((maskLanes take).map fun l => (f l).2))

/-- A float operation on sources: `f` gives one element's result from the values of the sources' elements. -/
def State.floatOp (s : State) (i : Instr) (p : Option Pfx) (t : FType) (d : Dst) (srcs : List Opnd) (h : Bool)
    (f : Slice → List Nat → FRes) : Host.Outcome State Fault Refusal :=
  let rs := fun (x : Slice) e => srcs.map fun o => x.readOpnd e s.clock o
  s.runLanes i p rs fun x e =>
    let v := rs x e
    let r := floatReg (allUniform v) (takeOf x p) fun l =>
      floatWord t fun k => f x (v.map fun r => floatElem t (r.val l) k)
    { dst := d, held := heldOf h (v.take 1), regs := [r.1], flags := r.2 }

/-- Element values of up to three sources. -/
def arg (v : List Nat) (k : Nat) : Nat := nth 0 v k

def execFadd (p : Option Pfx) (t : FType) (d : Dst) (a b : Opnd) (h : Bool) (s : State) : Host.Outcome State Fault Refusal :=
  s.floatOp (.fadd p t d a b h) p t d [a, b] h fun x v => fAdd t.fmt (x.rm p).noRst x.ftz (arg v 0) (arg v 1)

def execFsub (p : Option Pfx) (t : FType) (d : Dst) (a b : Opnd) (h : Bool) (s : State) : Host.Outcome State Fault Refusal :=
  s.floatOp (.fsub p t d a b h) p t d [a, b] h fun x v => fSub t.fmt (x.rm p).noRst x.ftz (arg v 0) (arg v 1)

def execFmul (p : Option Pfx) (t : FType) (d : Dst) (a b : Opnd) (h : Bool) (s : State) : Host.Outcome State Fault Refusal :=
  s.floatOp (.fmul p t d a b h) p t d [a, b] h fun x v => fMul t.fmt (x.rm p).noRst x.ftz (arg v 0) (arg v 1)

def execFfma (p : Option Pfx) (t : FType) (d : Dst) (a b : Opnd) (h : Bool) (s : State) : Host.Outcome State Fault Refusal :=
  s.floatOp (.ffma p t d a b h) p t d [a, b, addend p d] h fun x v =>
    fFma t.fmt (x.rm p).noRst x.ftz (arg v 0) (arg v 1) (arg v 2)

def execFmin (p : Option Pfx) (t : FType) (d : Dst) (a b : Opnd) (h : Bool) (s : State) : Host.Outcome State Fault Refusal :=
  s.floatOp (.fmin p t d a b h) p t d [a, b] h fun x v => fMinMax false t.fmt x.ftz (arg v 0) (arg v 1)

def execFmax (p : Option Pfx) (t : FType) (d : Dst) (a b : Opnd) (h : Bool) (s : State) : Host.Outcome State Fault Refusal :=
  s.floatOp (.fmax p t d a b h) p t d [a, b] h fun x v => fMinMax true t.fmt x.ftz (arg v 0) (arg v 1)

/-- FDOT2: the halves of A and B in the source format, the addend and the result in F32 (R262). -/
def execFdot2 (p : Option Pfx) (t : FType) (d : Dst) (a b : Opnd) (h : Bool) (s : State) : Host.Outcome State Fault Refusal :=
  let rs := fun (x : Slice) e => [a, b, addend p d].map fun o => x.readOpnd e s.clock o
  s.runLanes (.fdot2 p t d a b h) p rs fun x e =>
    let v := rs x e
    let w := fun k l => ((nth (.u 0) v k).val l).toNat
    let r := floatReg (allUniform v) (takeOf x p) fun l =>
      let y := fDot2 t.fmt (x.rm p).noRst x.ftz (w 0 l) (w 1 l) (w 2 l)
      (BitVec.ofNat 32 y.bits, y.flags)
    { dst := d, held := heldOf h (v.take 1), regs := [r.1], flags := r.2 }

/-- FCMP: the bit is 1 when the relation holds in every element (R264). -/
def execFcmp (p : Option Pfx) (c : Cond) (t : FType) (k : BitVec 3) (a b : Opnd) (h : Bool) (s : State) :
    Host.Outcome State Fault Refusal :=
  s.runLanes (.fcmp p c t k a b h) p (fun x e => [x.readOpnd e s.clock a, x.readOpnd e s.clock b]) fun x e =>
    let ra := x.readOpnd e s.clock a
    let rb := x.readOpnd e s.clock b
    let elems := if t = .f32 then [0] else [0, 1]
    let res := fun l => elems.map fun n => fCmp c t.fmt x.ftz (floatElem t (ra.val l) n) (floatElem t (rb.val l) n)
    { mask := some (k, maskOf fun l => (res l).all (·.1)), held := heldOf h [ra],
      flags := Flags.all ((maskLanes (takeOf x p)).map fun l => Flags.all ((res l).map (·.2))) }

/-- FABS and FNEG touch sign bits alone (R265). -/
def signBits (t : FType) : Word := if t = .f32 then 0x80000000#32 else 0x80008000#32

def execFabs (p : Option Pfx) (t : FType) (d : Dst) (a : Opnd) (h : Bool) (s : State) : Host.Outcome State Fault Refusal :=
  s.unaryOp (.fabs p t d a h) p d a h fun x => x &&& ~~~signBits t

def execFneg (p : Option Pfx) (t : FType) (d : Dst) (a : Opnd) (h : Bool) (s : State) : Host.Outcome State Fault Refusal :=
  s.unaryOp (.fneg p t d a h) p d a h fun x => x ^^^ signBits t

/-- A special function of A (R216). -/
def State.specialOp (s : State) (fn : SpecialFn) (i : Instr) (p : Option Pfx) (t : FType) (d : Dst) (a : Opnd) (h : Bool) :
    Host.Outcome State Fault Refusal :=
  s.floatOp i p t d [a] h fun x v => specialFn fn t.fmt (x.rm p).noRst x.ftz (arg v 0)

def execFrcp (p : Option Pfx) (t : FType) (d : Dst) (a : Opnd) (h : Bool) (s : State) : Host.Outcome State Fault Refusal :=
  s.specialOp .rcp (.frcp p t d a h) p t d a h

def execFrsq (p : Option Pfx) (t : FType) (d : Dst) (a : Opnd) (h : Bool) (s : State) : Host.Outcome State Fault Refusal :=
  s.specialOp .rsq (.frsq p t d a h) p t d a h

def execFsqrt (p : Option Pfx) (t : FType) (d : Dst) (a : Opnd) (h : Bool) (s : State) : Host.Outcome State Fault Refusal :=
  s.specialOp .sqrt (.fsqrt p t d a h) p t d a h

def execFexp2 (p : Option Pfx) (t : FType) (d : Dst) (a : Opnd) (h : Bool) (s : State) : Host.Outcome State Fault Refusal :=
  s.specialOp .exp2 (.fexp2 p t d a h) p t d a h

def execFlog2 (p : Option Pfx) (t : FType) (d : Dst) (a : Opnd) (h : Bool) (s : State) : Host.Outcome State Fault Refusal :=
  s.specialOp .log2 (.flog2 p t d a h) p t d a h

def execFsin (p : Option Pfx) (t : FType) (d : Dst) (a : Opnd) (h : Bool) (s : State) : Host.Outcome State Fault Refusal :=
  s.specialOp .sin (.fsin p t d a h) p t d a h

def execFcos (p : Option Pfx) (t : FType) (d : Dst) (a : Opnd) (h : Bool) (s : State) : Host.Outcome State Fault Refusal :=
  s.specialOp .cos (.fcos p t d a h) p t d a h

def execFtanh (p : Option Pfx) (t : FType) (d : Dst) (a : Opnd) (h : Bool) (s : State) : Host.Outcome State Fault Refusal :=
  s.specialOp .tanh (.ftanh p t d a h) p t d a h

def execFsigm (p : Option Pfx) (t : FType) (d : Dst) (a : Opnd) (h : Bool) (s : State) : Host.Outcome State Fault Refusal :=
  s.specialOp .sigm (.fsigm p t d a h) p t d a h

def execFfloor (p : Option Pfx) (t : FType) (d : Dst) (a : Opnd) (h : Bool) (s : State) : Host.Outcome State Fault Refusal :=
  s.floatOp (.ffloor p t d a h) p t d [a] h fun x v => fToIntegral t.fmt .rdn false x.ftz (arg v 0)

def execFceil (p : Option Pfx) (t : FType) (d : Dst) (a : Opnd) (h : Bool) (s : State) : Host.Outcome State Fault Refusal :=
  s.floatOp (.fceil p t d a h) p t d [a] h fun x v => fToIntegral t.fmt .rup false x.ftz (arg v 0)

def execFtrunc (p : Option Pfx) (t : FType) (d : Dst) (a : Opnd) (h : Bool) (s : State) : Host.Outcome State Fault Refusal :=
  s.floatOp (.ftrunc p t d a h) p t d [a] h fun x v => fToIntegral t.fmt .rtz false x.ftz (arg v 0)

def execFrint (p : Option Pfx) (t : FType) (d : Dst) (a : Opnd) (h : Bool) (s : State) : Host.Outcome State Fault Refusal :=
  s.floatOp (.frint p t d a h) p t d [a] h fun x v => fToIntegral t.fmt (x.rm p).noRst true x.ftz (arg v 0)

/-! ### Short forms (R235): type f32 under the default mode -/

def execFaddShort (h : Bool) (b d : Fin 32) (s : State) : Host.Outcome State Fault Refusal :=
  s.floatOp (.faddShort h b d) none .f32 (shortDst d) [shortReg d, shortReg b] h fun x v =>
    fAdd .f32 (x.rm none).noRst x.ftz (arg v 0) (arg v 1)

def execFsubShort (h : Bool) (b d : Fin 32) (s : State) : Host.Outcome State Fault Refusal :=
  s.floatOp (.fsubShort h b d) none .f32 (shortDst d) [shortReg d, shortReg b] h fun x v =>
    fSub .f32 (x.rm none).noRst x.ftz (arg v 0) (arg v 1)

def execFmulShort (h : Bool) (b d : Fin 32) (s : State) : Host.Outcome State Fault Refusal :=
  s.floatOp (.fmulShort h b d) none .f32 (shortDst d) [shortReg d, shortReg b] h fun x v =>
    fMul .f32 (x.rm none).noRst x.ftz (arg v 0) (arg v 1)

def execFmaxShort (h : Bool) (b d : Fin 32) (s : State) : Host.Outcome State Fault Refusal :=
  s.floatOp (.fmaxShort h b d) none .f32 (shortDst d) [shortReg d, shortReg b] h fun x v =>
    fMinMax true .f32 x.ftz (arg v 0) (arg v 1)

def execFminShort (h : Bool) (b d : Fin 32) (s : State) : Host.Outcome State Fault Refusal :=
  s.floatOp (.fminShort h b d) none .f32 (shortDst d) [shortReg d, shortReg b] h fun x v =>
    fMinMax false .f32 x.ftz (arg v 0) (arg v 1)

end Sys2Proof.Machine
end

