-- ==== Sys2Proof/Machine/Lane.lean ====
section
/-! DEFINITION. Lane operations and mask registers (spec/12_instr_lane_arith.md R272-R278; spec/09_numbers.md R211). -/

namespace Sys2Proof.Machine

/-! ### Exchange, votes, reductions and scans (R273-R276) -/

/-- The gang lane from which a participant takes its value; one outside 0 to 31 is none. -/
def shflLane (o : ShflMode) (i : Nat) (b : Word) : Nat :=
  match o with
  | .idx => b.toNat
  | .up => if b.toNat ≤ i then i - b.toNat else 32
  | .down => i + b.toNat
  | .xor => Nat.xor i b.toNat

def execShfl (p : Option Pfx) (o : ShflMode) (d : Dst) (a b : Opnd) (h : Bool) (s : State) : Host.Outcome State Fault Refusal :=
  let ps := s.participants p a
  s.runLanes (.shfl p o d a b h) p (fun x e => [x.readOpnd e s.clock a, x.readOpnd e s.clock b]) fun x e =>
    let ra := x.readOpnd e s.clock a
    let rb := x.readOpnd e s.clock b
    { dst := d, held := heldOf h [ra],
      regs := [mkReg false fun l => (ps.lookup (shflLane o (x.laneBase + l) (rb.val l))).getD (ra.val l)] }

def voteValue (o : VoteMode) (ps : List (Nat × Word)) : Word :=
  let yes := ps.filter (·.2 != 0)
  match o with
  | .any => if yes.isEmpty then 0 else 1
  | .all => if yes.length = ps.length then 1 else 0
  | .ballot => BitVec.ofNat 32 (yes.map fun q => 2 ^ q.1).sum
  | .count => BitVec.ofNat 32 yes.length

def execVote (p : Option Pfx) (o : VoteMode) (d : Dst) (a : Opnd) (h : Bool) (s : State) : Host.Outcome State Fault Refusal :=
  let w := voteValue o (s.participants p a)
  s.runLanes (.vote p o d a h) p (fun x e => [x.readOpnd e s.clock a]) fun x e =>
    { dst := d, held := heldOf h [x.readOpnd e s.clock a], regs := [.u w] }

/-- An F32 word with the exceptions raised on the way to it. -/
structure Summed where
  word : Word
  flags : Flags := {}
  deriving DecidableEq, Repr

def addF32 (rm : Rm) (ftz : Bool) (x y : Summed) : Summed :=
  let r := fAdd .f32 rm ftz x.word.toNat y.word.toNat
  { word := BitVec.ofNat 32 r.bits, flags := (x.flags.or y.flags).or r.flags }

/-- One level of the tree of R211: neighbours combined, an absent one leaving the other. -/
def treeLevel (rm : Rm) (ftz : Bool) : List (Option Summed) → List (Option Summed)
  | x :: y :: rest =>
    (match x, y with
     | some a, some b => some (addF32 rm ftz a b)
     | none, y => y
     | x, none => x) :: treeLevel rm ftz rest
  | l => l

/-- Five levels bring 32 lanes to one. -/
def treeSum (rm : Rm) (ftz : Bool) : Nat → List (Option Summed) → Option Summed
  | 0, l => l.headD none
  | n + 1, l => treeSum rm ftz n (treeLevel rm ftz l)

/-- The minimum or maximum of values, each read under FTZ (R92, R275). -/
def extremeF32 (isMax ftz : Bool) (ps : List (Nat × Word)) : Summed :=
  match ps with
  | [] => { word := 0 }
  | (_, w) :: _ =>
    ps.foldl (fun acc q =>
      let r := fMinMax isMax .f32 ftz acc.word.toNat q.2.toNat
      { word := BitVec.ofNat 32 r.bits, flags := acc.flags.or r.flags }) { word := w }

def gredValue (o : GredOp) (rm : Rm) (ftz : Bool) (ps : List (Nat × Word)) : Summed :=
  let ints := ps.map fun q => q.2.toInt
  match o with
  | .addI32 => { word := BitVec.ofInt 32 ints.sum }
  | .minI32 => { word := BitVec.ofInt 32 (match ints with | [] => 0 | v :: vs => vs.foldl min v) }
  | .maxI32 => { word := BitVec.ofInt 32 (match ints with | [] => 0 | v :: vs => vs.foldl max v) }
  | .addF32 =>
    (treeSum rm ftz 5 ((List.range 32).map fun i => (ps.lookup i).map fun w => { word := w })).getD { word := 0 }
  | .minF32 => extremeF32 false ftz ps
  | .maxF32 => extremeF32 true ftz ps

/-- The rounding mode and FTZ of a gang: its slices hold one format register (R208). -/
def State.gangMode (s : State) (p : Option Pfx) : Rm × Bool :=
  match s.curSlices with
  | x :: _ => ((x.rm p).noRst, x.ftz)
  | [] => (.rne, false)

def execGred (p : Option Pfx) (o : GredOp) (d : Dst) (a : Opnd) (h : Bool) (s : State) : Host.Outcome State Fault Refusal :=
  let m := s.gangMode p
  let w := gredValue o m.1 m.2 (s.participants p a)
  s.runLanes (.gred p o d a h) p (fun x e => [x.readOpnd e s.clock a]) fun x e =>
    { dst := d, held := heldOf h [x.readOpnd e s.clock a], regs := [.u w.word],
      flags := if takeOf x p = 0 then {} else w.flags }

/-- The sum of the participants before a lane, or up to and including it; `none` where there is none. The first one's
value stands as it is (R211). -/
def scanSum (o : ScanOp) (rm : Rm) (ftz : Bool) (ps : List (Nat × Word)) (i : Nat) : Summed :=
  let upTo := ps.filter fun q => if o = .addI32Ex then decide (q.1 < i) else decide (q.1 ≤ i)
  match o with
  | .addF32In =>
    match upTo with
    | [] => { word := 0 }
    | q :: qs => qs.foldl (fun acc r => addF32 rm ftz acc { word := r.2 }) { word := q.2 }
  | _ => { word := (upTo.map (·.2)).foldl (· + ·) 0 }

def execScan (p : Option Pfx) (o : ScanOp) (d : Dst) (a : Opnd) (h : Bool) (s : State) : Host.Outcome State Fault Refusal :=
  let m := s.gangMode p
  let ps := s.participants p a
  s.runLanes (.scan p o d a h) p (fun x e => [x.readOpnd e s.clock a]) fun x e =>
    let r := fun l => scanSum o m.1 m.2 ps (x.laneBase + l)
    { dst := d, held := heldOf h [x.readOpnd e s.clock a], regs := [mkReg false fun l => (r l).word],
      flags := Flags.all ((maskLanes (takeOf x p)).map fun l => (r l).flags) }

/-! ### Mask registers (R278) -/

def execMset (k : BitVec 3) (a : Opnd) (h : Bool) (s : State) : Host.Outcome State Fault Refusal :=
  s.runLanes (.mset k a h) none (fun x e => [x.readOpnd e s.clock a]) fun x e =>
    let ra := x.readOpnd e s.clock a
    { mask := some (k, maskOf fun l => ra.val l != 0), held := heldOf h [ra] }

def execMget (d : Dst) (j : BitVec 3) (s : State) : Host.Outcome State Fault Refusal :=
  s.runLanes (.mget d j) none (fun _ _ => []) fun x _ =>
    { dst := d, regs := [mkReg false fun l => if (x.mask j.toNat).getLsbD l then 1 else 0] }

/-- A MASK operation on two mask registers. -/
def State.maskOp (s : State) (i : Instr) (k j l : BitVec 3) (f : BitVec 4 → BitVec 4 → BitVec 4) :
    Host.Outcome State Fault Refusal :=
  s.runLanes i none (fun _ _ => []) fun x _ => { mask := some (k, f (x.mask j.toNat) (x.mask l.toNat)) }

def execMand (k j l : BitVec 3) (s : State) : Host.Outcome State Fault Refusal :=
  s.maskOp (.mand k j l) k j l fun x y => x &&& y

def execMor (k j l : BitVec 3) (s : State) : Host.Outcome State Fault Refusal :=
  s.maskOp (.mor k j l) k j l fun x y => x ||| y

def execMnot (k j : BitVec 3) (s : State) : Host.Outcome State Fault Refusal :=
  s.maskOp (.mnot k j) k j j fun x _ => ~~~x

def execMxor (k j l : BitVec 3) (s : State) : Host.Outcome State Fault Refusal :=
  s.maskOp (.mxor k j l) k j l fun x y => x ^^^ y

end Sys2Proof.Machine
end

