-- ==== Sys2Proof/Machine/Matrix.lean ====
section
/-! DEFINITION. The matrix engine: its instructions, its queue and its operations (spec/09_numbers.md R207, R210;
spec/10_execution_units.md R217-R224; spec/13_instr_memory_matrix.md R298-R301). -/

namespace Sys2Proof.Machine

/-! ### Accumulator sets (R218) -/

/-- Elements of a set. -/
def setSize : Nat := 96 * 128

def State.accSet (s : State) (core set : Nat) : AccSet :=
  (s.engines.accs.find? fun a => a.core == core && a.set == set).getD { core := core, set := set, words := [] }

def State.putAcc (s : State) (a : AccSet) : State :=
  s.onEngines fun g => { g with accs := a :: g.accs.filter fun x => !(x.core == a.core && x.set == a.set) }

def AccSet.word (a : AccSet) (n : Nat) : Word := assoc 0 a.words n

/-- A set of the words that a function gives its elements. -/
def accOf (core set : Nat) (poison : Bool) (f : Nat → Word) : AccSet :=
  { core := core, set := set, poison := poison,
    words := (natsFrom 0 setSize).filterMap fun n => let w := f n; if w = 0 then none else some (n, w) }

/-! ### Issue (R219, R299, R300) -/

/-- Room in the engine's queue of 8. -/
def State.matRoom (s : State) (core : Nat) : Bool := decide ((s.engines.matQueue.filter (·.core == core)).length < 8)

/-- Put an operation into the queue. -/
def State.pushMat (s : State) (q : MatOp) : State :=
  let (id, s) := s.fresh
  s.onEngines fun g => { g with matQueue := g.matQueue ++ [{ q with id := id, seq := id }] }

/-- An earlier write of the gang is parked: it may be one to the tile, by a window or by a page homed on the scratchpad
(R143). -/
def State.tileStoreParked (s : State) : Bool :=
  s.curSlices.any fun x => x.lasting.any fun p => match p.instr with
    | .st _ _ _ _ _ | .atom _ _ _ _ _ _ | .atomb _ _ _ _ _ _ => true
    | _ => false

/-- A COPYMM of the gang whose command names a set is not handed over yet: a further operation of the gang on that set waits
at issue, so that the engine takes both in program order (R143; DEDUCED, log 98). -/
def State.chainAhead (s : State) (w : Workgroup) (set : Nat) : Bool :=
  s.cur.any fun u => s.chainBefore u w s.nextId set

/-- Both forms of MMA. -/
def State.mmaGang (s : State) (i : Instr) (p : Option Pfx) (a b : Opnd) (h : Bool) (kind : MatKind) : Host.Outcome State Fault Refusal :=
  let c := p.bind (·.c)
  let third := fun (x : Slice) e => match c with
    | some o => [x.readOpnd e s.clock o]
    | none => []
  s.runGang i (fun x e => [x.readOpnd e s.clock a, x.readOpnd e s.clock b] ++ third x e)
    (fun x e => heldOf h [x.readOpnd e s.clock a]) fun s l =>
    let roof := (l.word s.clock a).toNat
    let cmd := l.word s.clock b
    let aoff := match c with
      | some o => (l.word s.clock o).toNat
      | none => 0
    let w := l.env.wg
    match s.tileOf w (cmdTile cmd) with
    | none => (s, undefinedTile l)
    | some t =>
      if cmdZ cmd || !matrixOk w l.slice.fmt cmd roof aoff t then (s, .trap (trapAt causeIllegal l.slice.pc))
      else if t.state ≠ .ready || !s.matRoom w.core || s.tileStoreParked || s.chainAhead w (cmdSet cmd) then (s, .wait)
      else
        (s.pushMat { id := 0, core := w.core, kind := kind, slices := s.cur, wg := w.uid, set := nth 0 w.accs (cmdSet cmd),
                     tile := t.id, addr := t.offset w + 256 * aoff, len := aExtent l.slice.fmt (32 * cmdKb cmd),
                     kb := cmdKb cmd, roof := roof, aoff := aoff, fmt := l.slice.fmt, tileAt := t.offset w, tileLen := t.bytes }, .plain)

def execMma (p : Option Pfx) (a b : Opnd) (h : Bool) (s : State) : Host.Outcome State Fault Refusal :=
  s.mmaGang (.mma p a b h) p a b h .mma

def execMmaz (p : Option Pfx) (a b : Opnd) (h : Bool) (s : State) : Host.Outcome State Fault Refusal :=
  s.mmaGang (.mmaz p a b h) p a b h .mmaz

/-- Bytes of a set in a tile. -/
def setBytes : Nat := 4 * setSize

/-- ACCLD and ACCST. -/
def State.moveSet (s : State) (i : Instr) (b : Opnd) (kind : MatKind) : Host.Outcome State Fault Refusal :=
  s.runGang i (fun x e => [x.readOpnd e s.clock b]) (fun _ _ => []) fun s l =>
    let cmd := l.word s.clock b
    let w := l.env.wg
    match s.tileOf w (cmdTile cmd) with
    | none => (s, undefinedTile l)
    | some t =>
      if field cmd.toNat 11 21 ≠ 0 || decide (w.accs.length ≤ cmdSet cmd) || decide (t.bytes < setBytes) then
        (s, .trap (trapAt causeIllegal l.slice.pc))
      else if t.state ≠ .ready || !s.matRoom w.core || s.tileStoreParked || s.chainAhead w (cmdSet cmd) then (s, .wait)
      else
        (s.pushMat { id := 0, core := w.core, kind := kind, slices := s.cur, wg := w.uid, set := nth 0 w.accs (cmdSet cmd),
                     tile := t.id, addr := t.offset w, len := setBytes, kb := 0, roof := 0, aoff := 0, fmt := l.slice.fmt,
                     tileAt := t.offset w, tileLen := t.bytes }, .plain)

def execAccld (o : SetOpnd) (s : State) : Host.Outcome State Fault Refusal := s.moveSet (.accld o) o.b .accld

def execAccst (o : SetOpnd) (s : State) : Host.Outcome State Fault Refusal := s.moveSet (.accst o) o.b .accst

def execAccz (o : SetOpnd) (s : State) : Host.Outcome State Fault Refusal :=
  s.runGang (.accz o) (fun x e => [x.readOpnd e s.clock o.b]) (fun _ _ => []) fun s l =>
    let cmd := l.word s.clock o.b
    let w := l.env.wg
    if field cmd.toNat 3 29 ≠ 0 || decide (w.accs.length ≤ cmdSet cmd) then (s, .trap (trapAt causeIllegal l.slice.pc))
    else if !s.matRoom w.core || s.chainAhead w (cmdSet cmd) then (s, .wait)
    else
      (s.pushMat { id := 0, core := w.core, kind := .accz, slices := s.cur, wg := w.uid, set := nth 0 w.accs (cmdSet cmd),
                   tile := 0, addr := 0, len := 0, kb := 0, roof := 0, aoff := 0, fmt := l.slice.fmt }, .plain)

/-! ### The operation (R210, R217, R220, R222, R224) -/

def MatOp.k (q : MatOp) : Nat := 32 * q.kb
def MatOp.fa (q : MatOp) : Fmt := (Fmt.ofCode (fmtA q.fmt)).getD .e4m3
def MatOp.fb (q : MatOp) : Fmt := (Fmt.ofCode (fmtB q.fmt)).getD .e4m3
def MatOp.block (q : MatOp) : Bool := fmtA q.fmt == 5

/-- Elements of a K-step (R210). -/
def MatOp.width (q : MatOp) : Nat := match q.fa with
  | .bf16 => 2
  | .e2m1 => 8
  | _ => 4

/-- A byte of the scratchpad, of the roof. -/
def State.scratchByte (s : State) (core off : Nat) : Nat := (s.mem.get (scratchPa core off)).toNat

/-- The byte of the roof that an operation sees (R223). -/
def State.roofByte (s : State) (q : MatOp) (r : Nat) : Nat :=
  let key := q.core * 2 ^ 25 + r
  match q.snap.lookup (key / 64) with
  | some old => (nth 0 old.1 (key % 64)).toNat
  | none => (s.roof.get key).toNat

/-- Element (i, k) of A. -/
def State.matA (s : State) (q : MatOp) (i k : Nat) : Val :=
  let row := aRow q.fmt q.k
  let b := fun off => s.scratchByte q.core (q.addr + off)
  if q.block then
    let n := fmtBlk q.fmt
    let at_ := 96 * row + i * (2 * q.k / n) + 2 * (k / n)
    decodeE2m1 (field (b (i * row + k / 2)) (4 * (k % 2)) 4) (b at_) (b (at_ + 1)) (fmtAmax q.fmt)
  else if q.fa = .bf16 then decodeFloat .bf16 (b (i * row + 2 * k) + 256 * b (i * row + 2 * k + 1))
  else decodeFloat q.fa (b (i * row + k))

/-- The roof byte of byte x of column j. -/
def MatOp.roofAt (q : MatOp) (j x : Nat) : Nat := (q.roof / 8192 + x / 64) * 8192 + 64 * j + x % 64

/-- Element (k, j) of B. -/
def State.matB (s : State) (q : MatOp) (k j : Nat) : Val :=
  let b := fun x => s.roofByte q (q.roofAt j x)
  if q.block then
    let n := fmtBlk q.fmt
    let at_ := 64 * ceilDiv q.k 128 + 2 * (k / n)
    decodeE2m1 (field (b (k / 2)) (4 * (k % 2)) 4) (b at_) (b (at_ + 1)) (fmtAmax q.fmt)
  else if q.fb = .bf16 then decodeFloat .bf16 (b (2 * k) + 256 * b (2 * k + 1))
  else decodeFloat q.fb (b k)

/-- One K-step: the exact sum of the products and the accumulator, rounded once; an E2M1 element carries its block's
scale. -/
def State.kStep (s : State) (q : MatOp) (i j k0 : Nat) (acc : Word) : Word :=
  let ps := (natsFrom k0 q.width).map fun k => (s.matA q i k, s.matB q k j)
  BitVec.ofNat 32 (roundOp .f32 .rne false 0 (sumProducts .rne ps (decodeFloat .f32 acc.toNat))).bits

/-- The K-steps from one on, `n` of them. -/
def State.kSteps (s : State) (q : MatOp) (i j : Nat) : Nat → Nat → Word → Word
  | 0, _, acc => acc
  | n + 1, k0, acc => State.kSteps s q i j n (k0 + q.width) (s.kStep q i j k0 acc)

/-- Element n of the set after an MMA or MMAZ. -/
def State.mmaElem (s : State) (q : MatOp) (old : AccSet) (n : Nat) : Word :=
  s.kSteps q (n / 128) (n % 128) (q.k / q.width) 0 (if q.kind = .mmaz then 0 else old.word n)

/-- Whether a roof sector that an operation reads is poisoned, as it sees it. -/
def State.roofPoisonFor (s : State) (q : MatOp) : Bool :=
  (s.roofPoison.any fun t => q.readsRoof t && !q.snap.any (·.1 == t / 2)) ||
  q.snap.any fun p => (p.2.2.1 && q.readsRoof (2 * p.1)) || (p.2.2.2 && q.readsRoof (2 * p.1 + 1))

/-- Whether an operation reads poison (R224). -/
def State.matPoison (s : State) (q : MatOp) (old : AccSet) : Bool :=
  (q.kind == .mma && old.poison) || s.peekPoison (scratchPa q.core q.addr) q.len || s.roofPoisonFor q

/-- Post matrix poison (R423). -/
def State.postMatrix (s : State) (q : MatOp) : State :=
  let x := (q.slices.head?).bind s.slice?
  let coords := (x.map fun x => (s.env x).coords x).getD 0
  let ctx := (s.wg? q.wg).map fun w => s.launchCtx w.launch
  s.postMemory (srcDie (dieOfCore q.core)) 2 ctx (some q.core) (BitVec.ofNat 64 q.set) (BitVec.ofNat 64 coords)

/-- The effect of an operation on its set or its tile. -/
def State.matEffect (s : State) (q : MatOp) : State :=
  let old := s.accSet q.core q.set
  match q.kind with
  | .accz => s.putAcc (accOf q.core q.set false fun _ => 0)
  | .accld =>
    let bs := s.peek (scratchPa q.core q.addr) setBytes
    let p := s.peekPoison (scratchPa q.core q.addr) setBytes
    let s := s.putAcc (accOf q.core q.set p fun n => le32 bs (4 * n))
    if p then s.postMatrix q else s
  | .accst =>
    let pa := scratchPa q.core q.addr
    let s := s.poke pa ((natsFrom 0 setSize).flatMap fun n => wordBytes (old.word n))
    if old.poison then (s.poisonAt pa setBytes).postMatrix q else s
  | .mma | .mmaz =>
    if s.matPoison q old then (s.putAcc { old with poison := true, words := [] }).postMatrix q
    else s.putAcc (accOf q.core q.set false (s.mmaElem q old))

/-- Whether an operation may run: a chained command waits for its tile (R164). -/
def State.matReady (s : State) (q : MatOp) : Bool :=
  !q.chained || (s.engines.tiles.find? (·.id == q.tile)).all (·.state == .ready)

/-- The oldest operation of a core's engine, which takes them in the order of their arrival (R143, R219). -/
def State.matHead (s : State) (core : Nat) : Option MatOp := s.engines.matQueue.find? (·.core == core)

/-- The bytes that an operation reads of the scratchpad meet their errors (R151, R419). -/
def State.matMeet (s : State) (q : MatOp) : State :=
  match q.kind with
  | .mma | .mmaz | .accld => s.scratchMeet q.core (scratchPa q.core q.addr) q.len
  | _ => s

/-- MMA_COMPLETE (R219): the oldest operation of a core's engine stands in its set. -/
def execMmaComplete (core : Nat) (s : State) : Host.Outcome State Fault Refusal :=
  match s.matHead core with
  | none => notNow "MMA_COMPLETE"
  | some q =>
    if !s.matReady q then notNow "MMA_COMPLETE"
    else .next (((s.matMeet q).matEffect q).onEngines fun g => { g with matQueue := g.matQueue.filter (·.id != q.id) })

end Sys2Proof.Machine
end

