-- ==== Sys2Proof/Machine/Migrate.lean ====
section
/-! DEFINITION. The migration instructions (spec/14_instr_control.md R321-R325). -/

namespace Sys2Proof.Machine

/-- A slice that leaves its gang. -/
def State.ownGang (s : State) (x : Slice) : State × Slice :=
  let (g, s) := s.fresh
  (s, { x with gang := g })

/-- What a slice does at an instruction of its own whose address does not translate (R281, R22, R26). -/
def State.holdOut (s : State) (x : Slice) (t : Tr) : State × Out :=
  match t with
  | .miss => (s, .stay (if s.isMissing (.slice x.uid) then { x with status := .missWait } else x))
  | .parked => (s, .stay { x with status := .faultWait })
  | _ => (s, .stay x)

/-- MIGRATE (R322). -/
def execMigrate (d : Dst) (a : Opnd) (h : Bool) (s : State) : Host.Outcome State Fault Refusal :=
  let i : Instr := .migrate d a h
  let pair := fun (x : Slice) e => x.readPair e s.clock true a
  s.runEach i (fun x e => [(pair x e).1, (pair x e).2]) Slice.lowMask fun s x e =>
    let va := pairVal (pair x e) (lowestLane x.m0)
    let finish := fun (s : State) (code : Nat) =>
      (s, Out.done (x.retireWith i d [.u (BitVec.ofNat 32 code)] (heldOf h [(pair x e).1, (pair x e).2])))
    match s.translate (e.party x.uid) [(va, { kind := .load })] with
    | (s, .ok (m :: _)) =>
      if !m.mig || m.part?.isSome then finish s codeNoMig
      else if !e.beyond m.home then finish s codeHere
      else
        match s.seek e x m.home (some i) with
        | (s, .going y) =>
          let (s, y) := s.ownGang y
          (s, .stay { y with mig := y.mig.map fun m => { m with src := [(pair x e).1, (pair x e).2] } })
        | (s, .refused code) => finish s code
    | (s, t) => s.holdOut x t

/-- HOME (R323): a guest returns, to go on after it; at the origin it has no effect. -/
def execHome (s : State) : Host.Outcome State Fault Refusal :=
  s.runEach .home (fun _ _ => []) Slice.m0 fun s x e =>
    let y := (x.stepLatch []).next .home
    (s, .done (if x.guest.isSome then y.startReturn e.origin 1 none else y))

/-- KIND and INDEX of R324 for a home. -/
def homeFields : Home → Nat × Nat
  | .stack n => (0, n)
  | .core n => (1, n)
  | .part n => (2, n)

/-- The word that MIGQ writes for a lane (R324). -/
def migqWord (e : Env) (x : Slice) (found : Option (Home × Bool)) : Word :=
  let who := Nat.min ((x.guest.map (·.hops)).getD 0) 7 * 2 ^ 15 + b2n x.guest.isSome * 2 ^ 14
  match found with
  | some (h, mig) =>
    let (kind, index) := homeFields h
    BitVec.ofNat 32 (who + b2n (e.beyond h) * 2 ^ 13 + b2n mig * 2 ^ 12 + kind * 2 ^ 10 + index % 2 ^ 10)
  | none => BitVec.ofNat 32 (2 ^ 18 + who)

/-- The core that a window address names (R9, R11). -/
def windowCore (e : Env) (va : DWord) : Nat :=
  if va.toNat / 2 ^ 48 = 0xFE then e.origin else va.toNat % 2 ^ 48 / 2 ^ 22

/-- MIGQ (R324). A window byte held for a saved workgroup (R406) has its home all the same. -/
def execMigq (d : Dst) (a : Opnd) (h : Bool) (s : State) : Host.Outcome State Fault Refusal :=
  s.lineOp (.migq d a h) none d a 0 (fun q s va found =>
    (s, migqWord q.env q.slice (match found with
      | .ok m => some (m.home, m.mig)
      | .held _ => some (.core (windowCore q.env va), true)
      | .fault _ _ => none))) h

end Sys2Proof.Machine
end

