-- ==== Sys2Proof/Machine/Stream.lean ====
section
/-! DEFINITION. Stream queues, bridges and connections, the hang monitor, and draining and restoring a region
(spec/03_stack_array.md R78-R82; spec/04_array_elements.md R106; spec/15_instr_array_system.md R342-R345;
spec/18_faults_and_preemption.md R413-R416; spec/19_host_and_peers.md R428). -/

namespace Sys2Proof.Machine

/-! ### Tokens on the wire (R57, R428; log entry 14) -/

def Tok.bytes (t : Tok) : List Byte := natToBytes 5 (t.payload.toNat + 2 ^ 32 * t.kind.code + 2 ^ 35 * b2n t.exc)

def Tok.ofNat (n : Nat) : Tok :=
  { kind := TokKind.ofCode (field n 32 3), exc := bit n 35, payload := BitVec.ofNat 32 n }

/-- A stream entry with a token for the channel end it names. -/
def tokenEntry (id : Word) (t : Tok) : List Byte := wordBytes id ++ t.bytes ++ u8 0 ++ zeros 2

/-- A stream entry that only returns credits to the channel end it names: the identifier has the END bit 1 that no channel
end has, and the token is zero (log entry 14). -/
def creditEntry (id : Word) (k : Nat) : List Byte := wordBytes (id ||| 0x200000) ++ zeros 5 ++ u8 k ++ zeros 2

/-- Give credits back to the peer of a connected end (R79). -/
def State.returnCredits (s : State) (c : Channel) (k : Nat) : State :=
  if k = 0 || !c.connected then s
  else if chanPart c.peer = s.partNumber then
    s.onEngines fun g =>
      { g with channels := updateWhere (fun p => p.id == c.peer && p.peer == c.id && p.connected) (fun p => { p with credit := p.credit + k }) g.channels }
  else s.sendFrame (chanPart c.peer) 0 (creditEntry c.peer k)

/-! ### Queues (R342-R345) -/

/-- The queue of a core if a workgroup has bound it. -/
def State.boundQueue (s : State) (e : Env) (q : Nat) : Option Channel :=
  (s.channel? (queueId s.partNumber e.origin q)).filter fun c => c.wg == some e.wg.uid

/-- A workgroup that ends unbinds its queues. -/
def State.unbindQueues (s : State) (wg : Nat) : State :=
  let ids := (s.engines.channels.filter fun c => c.wg == some wg && !c.saved).map (·.id)
  ids.foldl State.dropChannel s

def execGbind (d : Dst) (a b : Opnd) (h : Bool) (s : State) : Host.Outcome State Fault Refusal :=
  let ra := fun (x : Slice) e => x.readOpnd e s.clock a
  s.runGang (.gbind d a b h) (fun x e => [ra x e, x.readOpnd e s.clock b]) (fun x e => heldOf h [ra x e]) fun s l =>
    let w := (l.word s.clock a).toNat
    let peer := l.word s.clock b
    let id := queueId s.partNumber l.env.origin (field w 0 3)
    let inbound := bit w 3
    let fmt := field w 4 4
    if field w 9 23 ≠ 0 then (s, .trap (trapAt causeIllegal l.slice.pc))
    else if bit w 8 then
      match s.boundQueue l.env (field w 0 3) with
      | some _ => (s.dropChannel id, .word d 0)
      | none => (s, .word d 3)
    else
      match s.channel? id with
      | some c =>
        if c.wg == some l.env.wg.uid && c.peer == peer && c.fmt == fmt && c.inbound == inbound then (s, .word d 0) else (s, .word d 1)
      | none =>
        if badChannel s.podSize peer || peer == id then (s, .word d 2)
        else
          let c : Channel := { id := id, peer := peer, fmt := fmt, inbound := inbound, wg := some l.env.wg.uid }
          (s.onEngines fun g => { g with channels := g.channels ++ [c] }, .word d 0)

/-- Tokens that a queue or a bridge holds. -/
def queueDepth : Nat := 64

def execSqpush (d : Dst) (a b : Opnd) (h : Bool) (s : State) : Host.Outcome State Fault Refusal :=
  let ra := fun (x : Slice) e => x.readOpnd e s.clock a
  s.runGang (.sqpush d a b h) (fun x e => [x.readOpnd e s.clock b]) (fun x e => heldOf h [ra x e]) fun s l =>
    let w := (l.word s.clock b).toNat
    if field w 7 25 ≠ 0 ∨ field w 4 3 = 6 then (s, .trap (trapAt causeIllegal l.slice.pc))
    else if s.curSlices.any fun x => (ra x (s.env x)).poisoned x.m0 then (s, .trap (trapAt causePoison l.slice.pc))
    else
      match (s.boundQueue l.env (field w 0 3)).filter (!·.inbound) with
      | none => (s, .word d 1)
      | some c =>
        let toks := s.curSlices.flatMap fun x => (maskLanes x.m0).map fun k =>
          ({ kind := TokKind.ofCode (field w 4 3), exc := bit w 3, payload := (ra x (s.env x)).val k } : Tok)
        if queueDepth < c.outTok.length + toks.length then (s, .wait)
        else (s.onChannel c.id fun c => { c with outTok := c.outTok ++ toks }, .word d 0)

/-- The words that SQPOP gives a lane: the payload, and o15. -/
def popWords (t : Option Tok) : Word × Word :=
  match t with
  | some t => (t.payload, BitVec.ofNat 32 (16 + 8 * b2n t.exc + t.kind.code))
  | none => (0, 0)

/-- A slice after SQPOP: `r` gives each of its taking lanes its words. -/
def Slice.popped (x : Slice) (i : Instr) (d : Dst) (r : Nat → Word × Word) : Slice :=
  let y := x.writeResult d [.g (L4.ofFn fun l => (r l).1)] x.m0 false
  (((y.putSof 15 x.m0 fun l => { val := (r l).2 }).stepLatch []).next i).retired

/-- Hand tokens to the taking lanes in gang lane order. -/
def State.handTokens (s : State) (i : Instr) (d : Dst) : List Slice → List Tok → State
  | [], _ => s
  | x :: xs, ts =>
    let ls := maskLanes x.m0
    let got := ls.zipIdx.map fun k => (k.1, popWords ts[k.2]?)
    let s := s.setSlice (x.popped i d fun l => (got.lookup l).getD (0, 0))
    State.handTokens s i d xs (ts.drop ls.length)

def execSqpop (d : Dst) (b : Opnd) (s : State) : Host.Outcome State Fault Refusal :=
  let i : Instr := .sqpop d b
  s.runGang i (fun x e => [x.readOpnd e s.clock b]) (fun _ _ => []) fun s l =>
    let w := (l.word s.clock b).toNat
    if field w 4 28 ≠ 0 then (s, .trap (trapAt causeIllegal l.slice.pc))
    else
      match (s.boundQueue l.env (field w 0 3)).filter (·.inbound) with
      | none =>
        (({ s with slices := s.slices.map fun (x : Slice) =>
            if s.cur.contains x.uid then x.popped i d fun _ => (0, 0x20) else x }).partIfApart s.cur, .hold)
      | some c =>
        let n := (s.curSlices.map fun x => (maskLanes x.m0).length).sum
        if c.inTok.length < (if bit w 3 then n else 1) then (s, .wait)
        else
          let k := Nat.min c.inTok.length n
          let s := (s.onChannel c.id fun c => { c with inTok := c.inTok.drop k }).returnCredits c k
          ((s.handTokens i d s.curSlices (c.inTok.take k)).partIfApart s.cur, .hold)

/-! ### BRIDGE (R106, R413) -/

/-- Regions of the part that a region reaches over one bridge-to-bridge connection. -/
def State.bridgedTo (s : State) (r : Region) : List (Nat × Nat) :=
  let peers := (s.bridgesOf r).filterMap fun b => (s.channel? b.2).bind fun c =>
    if c.connected && chanEnd c.peer == 0 && chanPart c.peer == s.partNumber then some c.peer else none
  (s.engines.regions.filter fun q => (s.bridgesOf q).any fun b => peers.contains b.2).map fun q => (q.stack, q.first)

/-- The regions that drain together with some. -/
def State.drainClosure (s : State) : Nat → List (Nat × Nat) → List (Nat × Nat)
  | 0, ks => ks
  | n + 1, ks =>
    let more := ks.flatMap fun k => ((s.region? k.1 k.2).map s.bridgedTo).getD []
    State.drainClosure s n (ks ++ more).eraseDups

/-- Each of some regions that runs goes to DRAINING, with every region of the part that it reaches, under a DUSK number. -/
def State.drainAll (s : State) (ks : List (Nat × Nat)) (number : Word) : State :=
  (s.drainClosure s.engines.regions.length ks).foldl (fun s k => match s.region? k.1 k.2 with
    | some r => if r.state == .running then s.setRegion { r with state := .draining, dusk := number } else s
    | none => s) s

/-- Pre-emption of regions; the DUSK number is free (log entry 2). -/
def State.startDrain (s : State) (ks : List (Nat × Nat)) : State :=
  let (v, s) := s.freeValue
  s.drainAll ks (lo32 v)

/-- A DUSK stands at the inbound side of a bridge of a running region: a region of another part that the connection reaches
drains, and this one drains with it, under its number (R413, R414; log 102). -/
def State.drainWith (s : State) (r : Region) (c : Channel) : Option State :=
  match c.inTok with
  | t :: _ => if t.kind == .dusk && r.state == .running then some (s.drainAll [(r.stack, r.first)] t.payload) else none
  | [] => none

/-- A channel end of a core. -/
def isQueueId (id : Word) : Bool := chanEnd id == 1

/-- The token that a bridge takes from its inbound side. -/
def State.bridgeIn (s : State) (r : Region) (n : Node) (c : Channel) : Host.Outcome State Fault Refusal :=
  let toQueue := isQueueId c.peer
  let taken := fun (s : State) => (s.onChannel c.id fun c => { c with inTok := c.inTok.drop 1 }).returnCredits c 1
  if n.live && r.state == .draining && toQueue then
    if n.dusk then notNow "BRIDGE"
    else
      match r.fire { out := [(0, { kind := .dusk, payload := r.dusk })], node := { n with dusk := true } } with
      | none => notNow "BRIDGE"
      | some r => .next (s.setRegion { r with fired := s.baseClk })
  else
    match s.drainWith r c with
    | some s => .next s
    | none =>
    match c.inTok with
    | [] => notNow "BRIDGE"
    | t :: _ =>
      if t.kind = .dawn then
        let r' := if 2 ≤ n.mode then r else (r.wake { n with mode := n.mode + 2 }).dawnOut n.num
        .next (taken (s.setRegion { r' with fired := s.baseClk }))
      else if !n.live then notNow "BRIDGE"
      else
        match r.fire { out := [(0, t)], node := n } with
        | none => notNow "BRIDGE"
        | some r => .next (taken (s.setRegion { r with fired := s.baseClk }))

/-- The token that a bridge sends. -/
def State.bridgeOut (s : State) (r : Region) (n : Node) (c : Channel) : Host.Outcome State Fault Refusal :=
  match r.queue n.num 0 with
  | [] => notNow "BRIDGE"
  | t :: _ =>
    if !n.live || !c.outTok.isEmpty then notNow "BRIDGE"
    else
      match r.fire { take := [0], node := n } with
      | none => notNow "BRIDGE"
      | some r =>
        let s := s.setRegion { r with fired := s.baseClk }
        if t.kind = .dusk ∧ isQueueId c.peer then .next s else .next (s.onChannel c.id fun c => { c with outTok := [t] })

/-- BRIDGE: one token in one direction; a draining bridge whose peer is a core queue emits DUSK and takes no more. -/
def execBridge (stack first node : Nat) (inbound : Bool) (s : State) : Host.Outcome State Fault Refusal :=
  match s.region? stack first with
  | none => notNow "BRIDGE"
  | some r =>
    match r.node? node with
    | none => notNow "BRIDGE"
    | some n =>
      if !r.live || !n.isBridge then notNow "BRIDGE"
      else
        match s.channel? ((s.spot r).bridge n.num) with
        | none => notNow "BRIDGE"
        | some c => if inbound then s.bridgeIn r n c else s.bridgeOut r n c

/-! ### Connections (R79) -/

/-- Whether an end sends or receives. -/
def Channel.sends (c : Channel) : Bool := !isQueueId c.id || !c.inbound
def Channel.receives (c : Channel) : Bool := !isQueueId c.id || c.inbound

def formatsAgree (f g : Nat) : Bool := f == g || f == fmtAny || g == fmtAny

/-- The event that names two ends whose formats disagree. -/
def State.disagree (s : State) (x y : Word) : State :=
  s.post { source := srcBase (chanDie x), cls := 4, code := 5, ctx := none, core := none, payload := dword x y, detail := 0 }

/-- CONNECTION_FORM: two ends name each other. In agreement they connect, each with the credit its peer has room for; in
disagreement one event names both. What a peer on another part offers is the other part's: whether it agrees is free (log
entry 2) unless this end offers ANY, which always agrees; after a disagreement it may connect once it has been bound anew. -/
def execConnectionForm (x y : Word) (s : State) : Host.Outcome State Fault Refusal :=
  match s.channel? x with
  | none => notNow "CONNECTION_FORM"
  | some c =>
    if c.peer ≠ y ∨ c.connected then notNow "CONNECTION_FORM"
    else if chanPart y ≠ s.partNumber then
      let (v, s') := s.freeValue
      if (s.pairOf (chanPart y)).lost then notNow "CONNECTION_FORM"
      else if c.told || c.fmt == fmtAny then .next (s.onChannel x fun c => { c with connected := true, credit := queueDepth })
      else if v.getLsbD 0 then .next (s'.onChannel x fun c => { c with connected := true, credit := queueDepth })
      else .next ((s'.onChannel x fun c => { c with told := true }).disagree x y)
    else
      match s.channel? y with
      | none => notNow "CONNECTION_FORM"
      | some e =>
        if e.peer ≠ x then notNow "CONNECTION_FORM"
        else if formatsAgree c.fmt e.fmt then
          .next ((s.onChannel x fun c => { c with connected := true, credit := queueDepth - e.inTok.length }).onChannel y fun e =>
            { e with connected := true, credit := queueDepth - c.inTok.length })
        else if c.told then notNow "CONNECTION_FORM"
        else
          let s := (s.onChannel x fun c => { c with told := true }).onChannel y fun e => { e with told := true }
          .next (s.disagree x y)

/-- A peer of this part that is set aside with its workgroup takes nothing (R342). -/
def State.peerTakes (s : State) (c : Channel) : Bool :=
  chanPart c.peer != s.partNumber || ((s.channel? c.peer).map fun p => p.connected && p.peer == c.id).getD false

/-- STREAM_TRANSFER: the oldest token of a connected end goes to its peer, against a credit. -/
def execStreamTransfer (x : Word) (s : State) : Host.Outcome State Fault Refusal :=
  match s.channel? x with
  | none => notNow "STREAM_TRANSFER"
  | some c =>
    match c.outTok with
    | [] => notNow "STREAM_TRANSFER"
    | t :: rest =>
      if !c.connected || c.credit = 0 || !s.peerTakes c then notNow "STREAM_TRANSFER"
      else
        let s := s.onChannel x fun c => { c with outTok := rest, credit := c.credit - 1 }
        if chanPart c.peer = s.partNumber then .next (s.onChannel c.peer fun p => { p with inTok := p.inTok ++ [t] })
        else .next (s.sendFrame (chanPart c.peer) 0 (tokenEntry c.peer t))

/-- Regions with a connection that satisfies a test, a frozen one included (R79). -/
def State.regionsWith (s : State) (p : Channel → Bool) : List Region :=
  s.engines.regions.filter fun r =>
    (r.live || r.state == .frozen) && (s.bridgesOf r).any fun b => ((s.channel? b.2).map fun c => c.connected && p c).getD false

/-- Sever the connections that satisfy a test: every region with one aborts (R79). -/
def State.severConnections (s : State) (p : Channel → Bool) : State :=
  let s := (s.regionsWith p).foldl (fun s r => match s.region? r.stack r.first with
    | some r => s.abortRegion r 0x42 4 0
    | none => s) s
  s.onEngines fun g => { g with channels := updateWhere (fun c => c.connected && p c) (fun c => { c with connected := false }) g.channels }

/-- LINK_LOSS: the link under the connection of two ends cannot recover. -/
def execLinkLoss (x y : Word) (s : State) : Host.Outcome State Fault Refusal :=
  let on := fun (c : Channel) => (c.id == x && c.peer == y) || (c.id == y && c.peer == x)
  if s.engines.channels.any fun c => c.connected && !c.saved && on c then .next (s.severConnections on) else notNow "LINK_LOSS"

/-! ### The hang monitor and the occupancy map (R81, R82) -/

/-- An endpoint's walk is unfinished: an invocation in flight has not come to its end there. -/
def Region.walkOpen (r : Region) (e : Endpoint) : Bool := e.inv != r.invNext

/-- Tokens remain (R81). A bridge is credit-blocked while it is connected and has no credit left: tokens that wait for a
connection to form do not count (DESIGN CHOICE, log 101). -/
def State.tokensRemain (s : State) (r : Region) : Bool :=
  r.routes.any (fun x => x.dawn || x.links.any (· != [])) || r.endpoints.any r.walkOpen ||
  (s.bridgesOf r).any fun b => ((s.channel? b.2).map fun c => !c.outTok.isEmpty && c.credit == 0).getD false

/-- Inputs on which a node waits: connected ports of in0 to in2 without a token. -/
def Region.waitsOn (r : Region) (n : Node) : Nat :=
  (n.inPorts.map fun p => if p.1 < 3 ∧ r.driven n.num p.1 ∧ (r.queue n.num p.1).isEmpty then 2 ^ p.1 else 0).sum

/-- Outputs that lack room. -/
def Region.fullOuts (r : Region) (n : Node) : Nat :=
  (n.outPorts.map fun p => if r.hasRoom n.num [(p.1, {kind := .data})] then 0 else 2 ^ p.1).sum

/-- The occupancy map (R82). Its WIDTH byte is W, as in a save record (R415), not the W - 1 of a status word (log entry
81). -/
def State.occMap (s : State) (r : Region) : List Byte :=
  u8 r.first ++ u8 r.width ++ zeros 2 ++ u32 (r.mapDue.getD s.baseClk) ++ u32 r.routes.length ++ u32 r.nodes.length ++
  (r.routes.zipIdx.flatMap fun x =>
    let held := x.1.links.reverse.flatten
    u16 x.2 ++ u16 held.length ++ u8 (match held with | t :: _ => t.kind.code | [] => 8) ++ zeros 3) ++
  r.nodes.flatMap fun n => u32 (n.num % 4096 + 2 ^ 12 * b2n n.live + 2 ^ 13 * r.waitsOn n + 2 ^ 16 * r.fullOuts n)

/-- Write the map of a frozen region, if there is an address for it; a declined write is dropped. -/
def State.writeMap (s : State) (r : Region) : Host.Outcome State Fault Refusal :=
  let map := r.mapAddress
  if map = 0 then .next (s.declareHang r 0)
  else
    match s.engWrite (r.party mapNode) (r.need true) map (s.occMap r) with
    | (s, .ok _) | (s, .declined _) => .next (s.declareHang r map)
    | (s, .parked) => .next s
    | (_, .held h) => s.waitFor "HANG" h

/-- HANG: the monitor's count has reached HANG_INTERVAL and the region freezes; a write of the map that parked is made
after its service. -/
def execHang (stack first : Nat) (s : State) : Host.Outcome State Fault Refusal :=
  match s.region? stack first with
  | none => notNow "HANG"
  | some r =>
    if r.state == .frozen then
      if r.mapDue.isSome then s.writeMap r else notNow "HANG"
    else if !(r.state == .running || r.state == .draining) || r.hangInterval = 0 || r.suspended.isSome || s.regionParked r ||
        !s.tokensRemain r || decide (s.baseClk < r.fired + r.hangInterval) then notNow "HANG"
    else
      let r := { r with state := .frozen, code := 0x40, item := 0, itemRoute := false, mapDue := some s.baseClk }
      (s.setRegion r).writeMap r

/-! ### Draining (R413, R414) -/

/-- Whether a sink has seen DUSK, or stands parked with DUSK behind its token. -/
def Region.sinkDrained (r : Region) (n : Node) : Bool :=
  match r.endpoint? n.num with
  | none => true
  | some e => e.duskSeen || (e.parked && ((r.queue n.num 0).drop 1).head?.any (·.kind == .dusk))

def Apr.bytes (a : Apr) : List Byte :=
  u64 a.base.toNat ++ [a.fmt, a.esize] ++ u16 a.mark.toNat ++ wordBytes a.flags ++ a.counts.flatMap wordBytes ++ u32 0 ++
  a.strides.flatMap wordBytes ++ wordBytes a.padrule ++ a.lo.flatMap wordBytes ++ a.hi.flatMap wordBytes ++ wordBytes a.padval ++
  u32 0 ++ u64 a.plane.toNat ++ u64 0

/-- A token of a save record, in 8 bytes. -/
def Tok.saved (t : Tok) : List Byte := t.bytes ++ zeros 3

/-- Pad to 8 bytes. -/
def pad8 (bs : List Byte) : List Byte := padTo ((bs.length + 7) / 8 * 8) bs

def Node.hasState (n : Node) : Bool := [0x11, 0x14, 0x15, 0x16, 0x17, 0x18, 0x19, 0x1B].contains n.opc

/-- An invocation of a save record (R415): the launch record, the GENs, the number and the status. -/
def Invocation.saved (v : Invocation) (r : Region) : List Byte :=
  u32 (r.stack + 16 * r.first + 128 * (r.width - 1)) ++ zeros 4 ++ (v.mbars.flatMap fun m => u64 m.toNat) ++ u64 v.excLog.toNat ++
  u64 v.occMap.toNat ++ zeros 8 ++ (v.gens.map fun g => g.getD 0) ++ wordBytes v.num ++ u32 v.status ++ zeros 4

/-- The token that an endpoint has pending: of a parked sink, its head, which its route's entry then leaves out. -/
def Region.pendingTok (r : Region) (e : Endpoint) : Option Tok :=
  match e.pending with
  | t :: _ => some t
  | [] => if e.parked then (r.queue e.num 0).head? else none

/-- A region save record (R415). The STATUS of an endpoint is 1 when the APR of its invocation is invalid, else 0
(DESIGN CHOICE, log 102). -/
def Region.record (r : Region) : List Byte :=
  let nodes := r.nodes.filter fun n => n.live || n.hasState
  let rings := r.nodes.filter (·.opc == 0x19)
  let pending := fun (x : Route) => r.endpoints.any fun e => e.num == x.dst && e.parked && e.pending.isEmpty && (r.node? e.num).any (·.isSink)
  let toks := fun (x : Route) => if pending x then x.links.reverse.flatten.drop 1 else x.links.reverse.flatten
  let held := r.routes.zipIdx.filter fun x => toks x.1 != []
  pad8 (u32 0x52535631 ++ u8 r.stack ++ u8 r.first ++ u8 r.width ++ u8 r.invs.length ++ u64 r.image.toNat ++ wordBytes r.invNext ++
    wordBytes r.dusk ++ u16 r.endpoints.length ++ u16 nodes.length ++ u16 held.length ++ u16 rings.length ++ zeros 32 ++
    r.invs.flatMap (·.saved r)) ++
  (r.endpoints.flatMap fun e =>
    let p := r.pendingTok e
    u16 e.num ++ u8 (b2n e.parked + 2 * b2n p.isSome + 4 * b2n e.walkDone) ++ u8 e.aprErr ++ wordBytes e.inv ++ u64 e.pos ++
    ((p.map Tok.saved).getD (zeros 8)) ++ zeros 8 ++ ((e.apr.map Apr.bytes).getD (zeros 128))) ++
  (nodes.flatMap fun n =>
    u16 n.num ++ u16 (b2n n.live + 2 * b2n n.seen + 4 * b2n n.excHeld) ++ wordBytes n.s0 ++ wordBytes n.s1 ++ wordBytes n.s2) ++
  (rings.flatMap fun n => u16 n.num ++ u16 n.ring.length ++ zeros 4 ++ n.ring.flatMap fun t => t.1.saved) ++
  held.flatMap fun x =>
    let ts := toks x.1
    u16 x.2 ++ u16 ts.length ++ zeros 4 ++ ts.flatMap Tok.saved

/-- The party of a region's save: it claims slots of the region's context. -/
def saveNode : Nat := 0x1003

/-- Claim slots for a save record and write it. -/
def State.saveRecord (s : State) (p : Party) (bs : List Byte) : State × Got (List Nat) :=
  let n := ceilDiv bs.length 2048
  match s.claimSlots p n with
  | (s, .ok k) =>
    match s.partWrite p .spill (slotVa (s.ctxOf p.ctx) k) bs with
    | (s, .ok _) => (s, .ok (natsFrom k n))
    | (s, .fault a b c) => (s.freeSlots p (natsFrom k n), .fault a b c)
    | (s, .held h) => (s.freeSlots p (natsFrom k n), .held h)
    | (s, .full) => (s, .full)
  | (s, .fault a b c) => (s, .fault a b c)
  | (s, .held h) => (s, .held h)
  | (s, .full) => (s, .full)

/-- DRAIN_COMPLETE: every sink has seen DUSK; the region is saved in its context's spill area and its bands become EMPTY. A
record that cannot be written aborts the region (log entry 20). -/
def execDrainComplete (stack first : Nat) (s : State) : Host.Outcome State Fault Refusal :=
  match s.region? stack first with
  | none => notNow "DRAIN_COMPLETE"
  | some r =>
    if r.state != .draining || !r.sinks.all r.sinkDrained then notNow "DRAIN_COMPLETE"
    else
      let p := r.party saveNode
      if (s.declinedOf p.who).isSome then .next ((s.clearDeclined p.who).abortRegion r 0x41 2 (s.ctxOf r.ctx).spillBase)
      else if s.isParked p.who then notNow "DRAIN_COMPLETE"
      else
        match s.saveRecord p r.record with
        | (s, .ok ks) =>
          let s := s.forgetRegion stack first
          .next (s.onEngines fun g =>
            { g with regions := g.regions.filter fun x => !x.at stack first,
                     savedRegions := g.savedRegions ++ [{ r with state := .empty, slots := ks, suspended := none }] }).sweepImages
        | (s, .fault va sub level) =>
          let a : Ask := { who := p.who, unit := p.unit, ctx := p.ctx, va := va, kind := .spill }
          .next (s.parkFault [a] a sub level)
        | (_, .held h) => s.waitFor "DRAIN_COMPLETE" h
        | (s, .full) => .next (s.abortRegion r 0x41 2 (s.ctxOf r.ctx).spillBase)

/-! ### Restoring (R416) -/

/-- A node of the image with its saved state. -/
def Node.restored (n old : Node) : Node :=
  { n with live := old.live, seen := old.seen, excHeld := old.excHeld, s0 := old.s0, s1 := old.s1, s2 := old.s2, last := old.last,
           ring := old.ring, mode := old.mode, stat := old.stat, coord := old.coord }

/-- The saved tokens of a route, DUSK apart, stand where preloads are placed. -/
def Route.restored (x old : Route) : Route :=
  { x with links := placeTokens x.hops (old.links.reverse.flatten.filter (·.kind != .dusk)) }

/-- DAWN afresh after a restore: from every SRC, and from every live node towards one that its DAWN had not reached (log
entry 82); of a bridge only once the far end's DAWN has come in, since a node behind it lives by that (R106). -/
def Region.injectAgain (r : Region) : Region :=
  let sends := fun (k : Nat) => ((r.node? k).map fun n => n.live && (!n.isBridge || decide (2 ≤ n.mode))).getD false
  let live := fun (k : Nat) => ((r.node? k).map (·.live)).getD false
  let isSrc := fun (k : Nat) => ((r.node? k).map (·.isSrc)).getD false
  let again := fun (x : Route) => isSrc x.src || (sends x.src && !live x.dst)
  let rs := r.routes.map fun (x : Route) => if again x then { x with dawn := true } else x
  let ns := r.nodes.map fun (n : Node) => if n.isSrc then { n with live := true } else n
  { r with routes := rs, nodes := ns }

/-- A region brought back over the configuration read again; with no invocation in flight it is ARMED (R75). -/
def State.rearm (s : State) (r : Region) (h : Header) (nodes : List Node) (routes : List Route) : State :=
  let ns := nodes.map fun n => match r.node? n.num with
    | some old => n.restored old
    | none => n
  let rs := routes.zipIdx.map fun x => match r.routes[x.2]? with
    | some old => x.1.restored old
    | none => x.1
  let back : Region := { r with
    state := if r.inFlight.isEmpty then .armed else .running, code := 0, item := 0, itemRoute := false, hangInterval := h.hang, excEntries := h.excEntries, nodes := ns,
    routes := rs, fired := s.baseClk, suspended := none,
    endpoints := r.endpoints.map fun e => { e with parked := false, duskSeen := false } }
  s.setRegion back.injectAgain

/-- Free the slots of a restored region's record, once its load has ended. -/
def State.endRestore (s : State) (stack first : Nat) : State :=
  match s.region? stack first with
  | none => s
  | some r =>
    if r.state == .loading then s else (s.freeSlots (r.party saveNode) r.slots).setRegion { r with slots := [] }

/-- The saved region that a restore is due for: in device mode of the pre-emption policy, and in host-assisted mode once
REGION_SAVE asks (R414). -/
def State.restoreDue (s : State) (stack first : Nat) : Option Region :=
  s.engines.savedRegions.find? fun r => r.at stack first && (!s.duty 7 || r.state == .loading)

/-- REGION_RESTORE: the region takes its bands again and its image is loaded; on success it runs. -/
def execRegionRestore (stack first : Nat) (s : State) : Host.Outcome State Fault Refusal :=
  let load := fun (s : State) (r : Region) =>
    match s.loadRegion r "REGION_RESTORE" fun s _ h ns rs => s.rearm r h ns rs with
    | .next s => Host.Outcome.next (s.endRestore stack first)
    | o => o
  match s.region? stack first with
  | some r => if r.state == .loading && r.slots != [] then load s r else notNow "REGION_RESTORE"
  | none =>
    match s.restoreDue stack first with
    | none => notNow "REGION_RESTORE"
    | some r =>
      let r := { r with state := .loading }
      let s := s.onEngines fun g =>
        { g with regions := g.regions ++ [r], savedRegions := g.savedRegions.filter fun x => !x.at stack first }
      load s r

end Sys2Proof.Machine
end

