-- ==== Sys2Proof/Machine/Fault.lean ====
section
/-! DEFINITION. Page walks, the service of faults, updates held back, and the mailbox through which the host commands
(spec/01_addresses_and_homes.md R22-R26; spec/05_caches_and_atomics.md R117; spec/06_memory_model.md R140, R141;
spec/18_faults_and_preemption.md R396, R417, R418; spec/19_host_and_peers.md R430, R431). -/

namespace Sys2Proof.Machine

/-! ### The mailbox (R430, R431) -/

/-- The command at the mailbox's head. -/
structure Command where
  /-- physical address of its entry -/
  entry : Nat
  code : Nat
  arg0 : Word
  arg1 : DWord
  deriving DecidableEq, Repr

/-- A ring descriptor's fields: base, entries and its counts. -/
structure Ring where
  at_ : Nat
  base : Nat
  size : Nat
  producer : Word
  consumer : Word
  deriving DecidableEq, Repr

def State.ring (s : State) (off : Nat) : Ring :=
  let a := controlBlock + off
  { at_ := a, base := (le64 (s.peek a 8) 0).toNat, size := 2 ^ Nat.min (s.word (a + 8)).toNat 16, producer := s.word (a + 12),
    consumer := s.word (a + 16) }

def State.mailbox (s : State) : Option Command :=
  let r := s.ring 0x40
  if r.producer = r.consumer then none
  else
    let e := r.base + 16 * (r.consumer.toNat % r.size)
    let bs := s.peek e 16
    some { entry := e, code := leAt bs 0 1, arg0 := le32 bs 4, arg1 := le64 bs 8 }

/-- The command at the head, if it has a code. -/
def State.command (s : State) (code : Nat) : Option Command := s.mailbox.filter (·.code == code)

/-- Answer the command at the head and go on to the next. -/
def State.answer (s : State) (c : Command) (done : Bool) : State :=
  let s := s.writeHome (c.entry + 1) (u8 (b2n (!done))) .normal
  let r := s.ring 0x40
  s.setWord (r.at_ + 16) (r.consumer + 1)

/-- Perform the command of a code at the mailbox's head: `act` refuses it or gives the state after it. -/
def State.runCommand (s : State) (name : String) (code : Nat) (act : State → Command → Option State) : Host.Outcome State Fault Refusal :=
  match s.command code with
  | none => notNow name
  | some c =>
    match act s c with
    | some s => .next (s.answer c true)
    | none => .next (s.answer c false)

/-! ### PAGE_WALK (R22, R23) -/

/-- Slices among the askers wait no more for the walk: they translate again, or wait for service. -/
def State.wakeAskers (s : State) (asks : List Ask) (st : Status) : State :=
  { s with slices := s.slices.map fun (x : Slice) =>
      if x.status == .missWait && asks.any (·.who == .slice x.uid) then { x with status := st } else x }

/-- Stream endpoints among the askers are parked (R103, R104). -/
def State.parkEndpoints (s : State) (asks : List Ask) : State :=
  s.onEngines fun g =>
    { g with regions := g.regions.map fun r =>
        { r with endpoints := r.endpoints.map fun e =>
            if asks.any (·.who == .region r.stack r.first e.num) then { e with parked := true } else e } }

/-- Requests whose walk faulted, or whose page refuses them. Slices at a load, a store or an atomic issue it again, which
parks it on the record (R396); one at a fetch or an access of the part waits for service; a replaying access keeps the
subcode. -/
def State.wakeFaulted (s : State) (asks : List Ask) (sub : Nat) : State :=
  let goes := fun (a : Ask) => match a.kind with
    | .load | .store | .atomic => true
    | _ => false
  let s := (s.wakeAskers (asks.filter goes) .ready).wakeAskers (asks.filter fun a => !goes a) .faultWait
  asks.foldl (fun s a => match a.who with
    | .parked u id => s.onSlice u fun x => { x with parked := updateWhere (·.id == id) (fun p => { p with subcode := sub }) x.parked }
    | _ => s) s

/-- Requests that were merged fault together: they park on one record, but for those that raise nothing, which learn of the
fault at once. -/
def State.faultAsks (s : State) (asks : List Ask) (sub level : Nat) : State :=
  let quiet := asks.filter (·.quiet)
  let loud := asks.filter (!·.quiet)
  let s := s.onCaches fun c => { c with declined := c.declined ++ quiet.map fun a => { ask := a, subcode := sub } }
  let s := s.wakeAskers quiet .ready
  match loud with
  | [] => s
  | a :: _ => ((s.parkFault loud a sub level).wakeFaulted loud sub).parkEndpoints loud

/-- The leaf of a page answers the requests of one entry: those that it permits translate again, the others park, those of
one subcode on one record (R25, R26). -/
def State.answerMiss (s : State) (level : Nat) (e : DWord) (m : Miss) : State :=
  let log2 := leafLog2 level (pteSpan e.toNat)
  let refused := fun (a : Ask) => permFault a.need e.toNat (homeOf e.toNat (ptePfn e.toNat * 4096 + a.va.toNat % 2 ^ log2))
  let s := s.wakeAskers (m.asks.filter fun a => (refused a).isNone) .ready
  ((m.asks.filterMap refused).eraseDups).foldl (fun s sub => s.faultAsks (m.asks.filter fun a => refused a == some sub) sub level) s

/-- PAGE_WALK: a walker takes the oldest open entry of a die. A page that is found answers every open entry it covers; a
fault makes one record on which the merged requests park (R26). -/
def execPageWalk (die : Nat) (s : State) : Host.Outcome State Fault Refusal :=
  match s.caches.misses.find? (·.die == die) with
  | none => notNow "PAGE_WALK"
  | some m =>
    let va := m.page * 4096
    let drop := fun (s : State) (p : Miss → Bool) => s.onCaches fun c => { c with misses := c.misses.filter fun x => !p x }
    match s.walk die m.ctx va with
    | (s, .leaf level e) =>
      let log2 := leafLog2 level (pteSpan e.toNat)
      let covered := fun (x : Miss) => x.die == die && x.ctx == m.ctx && x.page * 4096 / 2 ^ log2 == va / 2 ^ log2
      let ms := s.caches.misses.filter covered
      let units := ((ms.flatMap (·.asks)).map (·.unit)).eraseDups
      .next ((ms.foldl (fun s x => s.answerMiss level e x) ((drop s covered).installLeaf die m.ctx va level e units)).admitStalled)
    | (s, .fault sub level) => .next (((drop s (· == m)).faultAsks m.asks sub level).admitStalled)

/-! ### Replay (R26, R396) -/

/-- Translate the lanes of a parked access alone. -/
def State.mapLanes (s : State) (p : Party) (need : Need) : List LaneAddr → State × Got (List Mapping)
  | [] => (s, .ok [])
  | a :: rest =>
    match s.find p need a.va with
    | (s, .fault sub level) => (s, .fault a.va sub level)
    | (s, .ok m) =>
      match State.mapLanes s p need rest with
      | (s, .ok ms) => (s, .ok (m :: ms))
      | r => r
    | (s, .held h) => (s, .held h)

/-- What a parked access updates, if it is an atomic. -/
def Parked.updates (p : Parked) (l : Nat) : List Update :=
  let w := fun (k : Nat) => (nth {} (p.data.get l) k).val
  updatesOf p.instr l (p.addr.get l) (dword (w 0) (w 1)) ((w 2).setWidth 64)

def Parked.allUpdates (p : Parked) : List Update := (maskLanes p.lanes).flatMap p.updates

/-- Bytes at each lane's address of a parked access. -/
def Parked.bytes (p : Parked) : Nat :=
  match p.instr with
  | .ld _ z _ _ _ => z.bytes
  | .st _ z _ _ _ => z.bytes
  | .mbarInit _ _ _ | .mbarArrive _ _ _ _ | .mbarInval _ _ => 16
  | _ => 1

/-- The addresses of a parked access. -/
def Parked.laneAddrs (p : Parked) : List LaneAddr :=
  if isAtom p.instr then p.allUpdates.map fun q => { lane := q.lane, va := q.va, bytes := q.bytes }
  else (maskLanes p.lanes).map fun l => { lane := l, va := p.addr.get l, bytes := p.bytes }

def Parked.need (p : Parked) : Need :=
  match p.instr with
  | .st _ _ _ _ _ => { kind := .store, wr := true }
  | .atom _ _ _ _ _ _ | .atomb _ _ _ _ _ _ | .mbarInit _ _ _ | .mbarArrive _ _ _ _ | .mbarInval _ _ => { kind := .atomic, wr := true }
  | _ => { kind := .load }

/-- The result of a parked access comes to its frame and to the LRF entries that wait for it. -/
def Slice.land_ (x : Slice) (p : Parked) (d : Dst) (rs : List Reg) : Slice :=
  (x.writeBelow (x.depth - p.fdepth) d rs p.lanes (zeroing p.instr.pfx)).fillDue p.id rs p.lanes

/-- Perform a parked access whose addresses translate; stores go together (`performStores`). -/
def State.performParked (s : State) (m : Member) (p : Parked) (ms : List Mapping) : State :=
  let e := m.env
  let x := m.slice
  let rel := fun (s : State) (q : Option Pfx) => if (pfxOrder q).isRel then s.releaseAt e x (s.widen x (pfxScope q)) else s
  let count := fun (l : Nat) => (nth {} (p.data.get l) 0).val
  let objects := fun (s : State) (f : Nat → Mbar → MbarEffect) =>
    (m.addrs.zip ms).foldl (fun s t => s.mbarAct (e.party x.uid) t.1.va t.2 false none (f t.1.lane)) s
  let lines := fun (f : State → Nat → Scope → Nat → State) (q : Option Pfx) =>
    ms.foldl (fun s mp => match mp.home with
      | .stack _ => f s e.core (s.widen x (pfxScope q)) (mp.pa / 64 * 64)
      | _ => s) s
  let land := fun (d : Dst) (r : State × List Reg) => r.1.onSlice x.uid fun y => y.land_ p d r.2
  match p.instr with
  | .ld q z d _ _ => land d (s.loadRegs p.instr (some p.id) z q m ms)
  | .atom q _ d _ _ _ | .atomb q _ d _ _ _ => land d (s.updateRegs p.instr (some p.id) q m p.allUpdates ms)
  | .cflush q _ _ => lines State.flushLine q
  | .cinv q _ _ => lines State.dropLine q
  | .mbarInit _ _ _ => objects s fun l o => o.init (count l)
  | .mbarArrive q _ _ _ =>
    objects (rel s q) fun l o => if count l = 0 then { obj := o } else o.arrive { bytes := false, n := (count l).toNat, gen := none, err := 0 }
  | .mbarInval _ _ => objects s fun _ o => o.inval
  | _ => s

/-- The remote accesses of a parked load or atomic: whether their replies have come. -/
def State.awaitParked (s : State) (m : Member) (p : Parked) (ms : List Mapping) : State × Bool :=
  match p.instr with
  | .atom q _ _ _ _ _ | .atomb q _ _ _ _ _ =>
    let s := if (pfxOrder q).isRel then s.releaseAt m.env m.slice (s.widen m.slice (pfxScope q)) else s
    s.awaitRemotes p.instr (some p.id) (fun _ a => updateWords p.allUpdates a) [(m, .ok ms)]
  | .ld _ _ _ _ _ =>
    s.awaitRemotes p.instr (some p.id) (fun _ a => updateWords p.allUpdates a) [(m, .ok ms)]
  | _ => (s, true)

/-- The frame that a parked access's result goes to, resident: one that Midnight has spilled is reloaded first (R410). -/
def State.wakeFrame (s : State) (e : Env) (x : Slice) (p : Parked) : State × Got Slice :=
  let k := x.depth - p.fdepth
  match x.frames[k]? with
  | none => (s, .ok x)
  | some f =>
    match f.slot with
    | none => (s, .ok x)
    | some slot =>
      match s.ownRun x f.demand with
      | none => (s, .held .busy)
      | some b =>
        match s.reloadFrame e x slot b with
        | (s, .ok g) =>
          let y := { x with frames := setNth x.frames k g }
          match s.relink (e.party x.uid) y k with
          | (s, .ok _) => (s.freeSlots (e.party x.uid) [slot], .ok y)
          | (s, .fault a b c) => (s, .fault a b c)
          | (s, .held h) => (s, .held h)
          | (s, .full) => (s, .full)
        | (s, .fault a b c) => (s, .fault a b c)
        | (s, .held h) => (s, .held h)
        | (s, .full) => (s, .full)

/-- A parked access parks again, on a record of its own. -/
def State.parkAgain (s : State) (party : Party) (u : Nat) (p : Parked) (va : DWord) (kind : AccessKind) (sub level : Nat) : State :=
  let a : Ask := { who := party.who, unit := party.unit, ctx := party.ctx, va := va, kind := kind }
  (s.onSlice u fun y => { y with parked := updateWhere (·.id == p.id) (fun q => { q with subcode := sub }) y.parked }).parkFault [a] a sub level

/-- A slice that is saved or spilled whole: what it has parked replays after its restore (R148, R410). -/
def State.isAway (s : State) (u : Nat) : Bool := ((s.slice? u).map fun x => x.status == .saved || x.status == .spilled).getD false

/-- One slice's part of a parked instruction. -/
structure Mate where
  slice : Slice
  parked : Parked
  deriving DecidableEq, Repr

def Mate.who (m : Mate) : Requester := .parked m.slice.uid m.parked.id

/-- The parts of a parked instruction that service has not declined, in gang lane order (R115, R281). -/
def State.mates (s : State) (inst : Nat) : List Mate :=
  (((s.slices.flatMap fun x => x.parked.map fun p => ({ slice := x, parked := p } : Mate)).filter fun m =>
    m.parked.inst == inst && !m.parked.stays && (s.declinedOf m.who).isNone).sortBy fun a b => a.slice.idx ≤ b.slice.idx)

/-- Whether a part of a parked instruction waits for a walk, for service, or for the return of its slice. -/
def State.mateWaits (s : State) (m : Mate) : Bool := s.isParked m.who || s.isMissing m.who || s.isAway m.slice.uid

/-- Translate the parts of a parked instruction, each alone: their mappings, once all have them. One that faults parks
again. -/
def State.mapMates (s : State) : List Mate → State × Option (List (Mate × List Mapping))
  | [] => (s, some [])
  | m :: rest =>
    let u := m.slice.uid
    let party : Party := { (s.env m.slice).party u with who := m.who }
    let (s, mine) := match s.mapLanes party m.parked.need m.parked.laneAddrs with
      | (s, .ok ms) => (s, some ms)
      | (s, .fault va sub level) => (s.parkAgain party u m.parked va m.parked.need.kind sub level, none)
      | (s, .held (.miss a)) => (s.openMiss { a with alone := true }, none)
      | (s, _) => (s, none)
    let (s, others) := State.mapMates s rest
    (s, mine.bind fun ms => others.map fun os => (m, ms) :: os)

/-- The frames that the results of a parked instruction go to, resident. -/
def State.wakeFrames (s : State) : List Mate → State × Bool
  | [] => (s, true)
  | m :: rest =>
    let x := (s.slice? m.slice.uid).getD m.slice
    let e := s.env x
    let (s, here) := match s.wakeFrame e x m.parked with
      | (s, .ok y) => (s.setSlice y, true)
      | (s, .fault va sub level) =>
        (s.parkAgain { e.party x.uid with who := m.who } x.uid m.parked va .spill sub level, false)
      | (s, .held (.miss a)) => (s.openMiss { a with who := m.who, alone := true }, false)
      | (s, _) => (s, false)
    let (s, there) := State.wakeFrames s rest
    (s, here && there)

/-- A part of a parked instruction as a member of its gang. -/
def State.mateMember (s : State) (m : Mate) : Member :=
  let x := (s.slice? m.slice.uid).getD m.slice
  { slice := x, env := s.env x, take := m.parked.lanes, addrs := m.parked.laneAddrs }

/-- The remote accesses of a parked instruction: whether their replies have all come. -/
def State.awaitMates (s : State) : List (Mate × List Mapping) → State × Bool
  | [] => (s, true)
  | q :: rest =>
    let (s, here) := s.awaitParked (s.mateMember q.1) q.1.parked q.2
    let (s, there) := State.awaitMates s rest
    (s, here && there)

/-- The lanes of a parked store, together (R126). -/
def State.performStores (s : State) (p : Option Pfx) (z : StSize) (i : Instr) (qs : List (Mate × List Mapping)) : State :=
  let ts := qs.map fun q => (s.mateMember q.1, Tr.ok q.2)
  let s := if (pfxOrder p).isRel then ts.foldl (fun s t => s.releaseAt t.1.env t.1.slice (s.widen t.1.slice (pfxScope p))) s else s
  let data := fun (m : Member) (l : Nat) => ((qs.find? fun q => q.1.slice.uid == m.slice.uid).map fun q => q.1.parked.data.get l).getD []
  s.storeLanes i z (pfxCp p) data ts

/-- A parked instruction replays from translation: once every part of it translates, its frames are resident and its remote
replies have come, it is performed. -/
def State.replayInst (s : State) (inst : Nat) : State :=
  let ms := s.mates inst
  if ms.isEmpty || ms.any s.mateWaits then s
  else
    match s.mapMates ms with
    | (s, none) => s
    | (s, some qs) =>
      if qs.any fun q => (q.1.parked.laneAddrs.zip q.2).any fun a => s.matBusy q.1.slice.uid q.1.parked.id a.2.pa a.1.bytes then s
      else
        match s.wakeFrames ms with
        | (s, false) => s
        | (s, true) =>
          match s.awaitMates qs with
          | (s, false) => s
          | (s, true) =>
            let s := match ms.head?.map fun m => m.parked.instr with
              | some (.st p z d a m) => s.performStores p z (.st p z d a m) qs
              | _ => qs.foldl (fun s q => s.performParked (s.mateMember q.1) q.1.parked q.2) s
            ms.foldl (fun s m => s.onSlice m.slice.uid fun y => { y with parked := y.parked.filter (·.id != m.parked.id) }) s

/-- Parked instructions of which no part waits are tried again, the oldest first. -/
def State.retryHeld (s : State) : State :=
  let insts := ((s.slices.flatMap fun x => x.parked.map (·.inst)).eraseDups).sortBy fun a b => a ≤ b
  insts.foldl State.replayInst s

def State.removeFault (s : State) (id : Nat) : State := s.onCaches fun c => { c with faults := c.faults.filter (·.id != id) }

/-- A request translates again, alone: true when its page is found; else it takes a miss entry of its own. -/
def State.replayWalk (s : State) (a : Ask) : State × Bool :=
  let va := a.va.toNat
  if 0xFE * 2 ^ 48 ≤ va ∨ (s.tlbFind a.unit a.ctx va).isSome then (s, true) else (s.openMiss { a with alone := true }, false)

/-- What replay does for one parked request: a slice that stays at its instruction issues it again once its page is found;
an engine, a parked access, an arrival or the freeing of a slot goes on by itself. -/
def State.replayAsk (s : State) (a : Ask) : State :=
  match a.who with
  | .parked _ _ | .free _ | .arrival _ => s
  | .slice u =>
    let (s, found) := s.replayWalk a
    s.onSlice u fun x => if x.status == .faultWait then { x with status := if found then .ready else .missWait } else x
  | _ => (s.replayWalk a).1

def State.replayFault (s : State) (f : FaultRec) : State := f.asks.foldl State.replayAsk (s.removeFault f.id)

/-! ### Declining (R26, R418) -/

/-- What declining does for one parked request: it will meet its declined fault; a stream endpoint's region aborts. -/
def State.declineAsk (s : State) (f : FaultRec) (a : Ask) : State :=
  let entry := fun (s : State) => s.onCaches fun c => { c with declined := c.declined ++ [{ ask := a, subcode := f.subcode }] }
  match a.who with
  | .slice u => entry (s.onSlice u fun x => if x.status == .faultWait then { x with status := .ready } else x)
  | .region st fi n =>
    if loaderNode ≤ n then entry s
    else
      match s.region? st fi with
      | some r => s.declineStream r a.va
      | none => s
  | .free id => s.dropFree id
  | .arrival id => s.dropArrival id
  | _ => entry s

def State.declineFault (s : State) (f : FaultRec) : State := f.asks.foldl (fun s a => s.declineAsk f a) (s.removeFault f.id)

/-- The pending record of a SEQ, held by the host's service or the device's. -/
def State.faultOfSeq (s : State) (host : Bool) (seq : Nat) : Option FaultRec :=
  s.caches.faults.find? fun f => f.seq == some seq && f.host == host

/-- The service of a record: with a SEQ the device firmware's own, else the host's command at the mailbox's head. -/
def State.serveFault (s : State) (name : String) (code : Nat) (seq : Option Nat) (act : State → FaultRec → State) :
    Host.Outcome State Fault Refusal :=
  match seq with
  | some k =>
    match s.faultOfSeq false k with
    | some f => .next (act s f)
    | none => notNow name
  | none =>
    s.runCommand name code fun s c =>
      if s.duty 0 then (s.faultOfSeq true c.arg0.toNat).map (act s) else none

def execFaultReplay (seq : Option Nat) (s : State) : Host.Outcome State Fault Refusal :=
  s.serveFault "FAULT_REPLAY" 1 seq State.replayFault

def execFaultDecline (seq : Option Nat) (s : State) : Host.Outcome State Fault Refusal :=
  s.serveFault "FAULT_DECLINE" 2 seq State.declineFault

/-! ### Updates held back (R117, R140) -/

/-- Apply a held update of one kind. -/
def State.applyHeld (s : State) (name : String) (comm : Bool) (id : Nat) : Host.Outcome State Fault Refusal :=
  match s.caches.deferred.find? fun d => d.id == id && d.isComm == comm with
  | some d => .next (s.applyDeferred d)
  | none => notNow name

def execCombineFlush (id : Nat) (s : State) : Host.Outcome State Fault Refusal := s.applyHeld "COMBINE_FLUSH" true id

def execQuantApply (id : Nat) (s : State) : Host.Outcome State Fault Refusal := s.applyHeld "QUANT_APPLY" false id

end Sys2Proof.Machine
end

