-- ==== Sys2Proof/Machine/Fetch.lean ====
section
/-! DEFINITION. The fetch of the instruction at a slice's PC (spec/11_formats_and_assembly.md R225-R227). -/

namespace Sys2Proof.Machine

/-- What the fetch of an instruction comes to. -/
inductive Fetch where
  | ok (i : Instr)
  | illegal (why : Illegal)
  /-- a walk is to be made for an address -/
  | miss (va : DWord)
  | fault (va : DWord) (subcode level : Nat)
  | poison (va : DWord)
  deriving DecidableEq, Repr

/-- A halfword at an address, or why there is none. What the memory of a peer part holds is free (log entry 10). -/
def State.fetchHalf (s : State) (e : Env) (u : Nat) (va : DWord) : State × Except Fetch (List Byte) :=
  match s.look (e.party u) { kind := .fetch } va with
  | .ok m =>
    match m.home with
    | .part _ => let (v, s) := s.freeValue; (s, .ok (natToBytes 2 (v.toNat % 65536)))
    | _ =>
      let (s, bs, poison) := s.fetchRead e.core m.pa 2 (!m.shared) (policyOf m.cpol 0)
      (s, if poison then .error (.poison va) else .ok bs)
  | .fault sub level => (s, .error (.fault va sub level))
  | .miss | .held => (s, .error (.miss va))

/-- Fetch halfwords until they make an instruction or cannot be one; `bs` are those at hand, `n` bounds their number. -/
def State.fetchFrom (s : State) (e : Env) (u : Nat) (pc : DWord) : Nat → List Byte → State × Fetch
  | 0, _ => (s, .illegal .noSuch)
  | n + 1, bs =>
    match decode bs with
    | .ok i _ => (s, .ok i)
    | .illegal why => (s, .illegal why)
    | .more _ =>
      match s.fetchHalf e u (pc + BitVec.ofNat 64 bs.length) with
      | (s, .ok h) => State.fetchFrom s e u pc n (bs ++ h)
      | (s, .error f) => (s, f)

/-- The instruction at a slice's PC; the longest has six halfwords. -/
def State.fetch (s : State) (x : Slice) : State × Fetch := s.fetchFrom (s.env x) x.uid x.pc 7 []

end Sys2Proof.Machine
end

