-- ==== Sys2Proof/Machine/Waits.lean ====
section
/-! DEFINITION. The steps that end or bound a slice's wait: REGANG rounds, path rotation, the watchdog, SLEEP, WAITW and
JOIN (spec/14_instr_control.md R309, R317, R320, R330; spec/13_instr_memory_matrix.md R292;
spec/18_faults_and_preemption.md R397). -/

namespace Sys2Proof.Machine

/-- Whether a slice's workgroup runs and its group is not halted (R401, R404). -/
def State.mayRun (s : State) (x : Slice) : Bool :=
  let e := s.env x
  !e.group.halted && e.wg.status == .running

/-- The uids of a slice's gang. -/
def State.gangUids (s : State) (x : Slice) : List Nat := (s.gangOf x).map (·.uid)

/-! ### REGANG_RELEASE (R317) -/

/-- The slices of a group that wait with a tag, in slice order. -/
def State.waitersAt (s : State) (group tag : Nat) : List Slice :=
  ((s.groupSlices group).filter fun x => x.status == .atRegang tag).sortBy fun a b => a.idx ≤ b.idx

/-- A slice that leaves its REGANG: LRF and latch clear, past the instruction. -/
def Slice.leaveRegang (x : Slice) (tag : Nat) (clock : DWord) : Slice :=
  let y := (x.clearLocal.next (.regang (BitVec.ofNat 8 tag))).retired
  { y with status := .ready, age := clock, readySince := clock }

/-- Form one gang of the slices that stand at a PC, in slice order, with the format register of the lowest. -/
def State.formGang (s : State) (xs : List Slice) : State :=
  match xs with
  | [] => s
  | x :: _ =>
    let (g, s) := s.fresh
    xs.foldl (fun s y => s.setSlice { y with gang := g, fmt := x.fmt }) s

/-- A round of a tag ends: one gang for each distinct PC. -/
def State.endRound (s : State) (group tag : Nat) : State :=
  let xs := (s.waitersAt group tag).map fun x => x.leaveRegang tag s.clock
  let s := s.onGroup group fun g => { g with rounds := g.rounds.filter fun r => r.1 != tag }
  ((xs.map (·.pc)).eraseDups).foldl (fun s pc => s.formGang (xs.filter (·.pc == pc))) s

/-- REGANG_WINDOW, as it stood when the round of a tag began, has passed since its first arrival (R349). -/
def State.windowOver (s : State) (group tag : Nat) : Bool :=
  match ((s.group? group).bind fun g => g.rounds.lookup tag) with
  | some r => decide (r.2.toNat ≤ (s.clock - r.1).toNat)
  | none => true

def execRegangRelease (group tag : Nat) (s : State) : Host.Outcome State Fault Refusal :=
  match s.waitersAt group tag with
  | [] => notNow "REGANG_RELEASE"
  | x :: _ =>
    let all := ((s.groupSlices group).filter (·.live)).all fun y => y.status == .atRegang tag
    if s.mayRun x && (all || s.windowOver group tag) then .next (s.endRound group tag) else notNow "REGANG_RELEASE"

/-! ### PATH_ROTATION (R309) -/

/-- The entry that rotation is due at: DIV_ROTATE backward branches in this turn, and another path with lanes. -/
def State.rotationDue (s : State) (x : Slice) : Option Recon :=
  if (s.ctxOf (s.env x).ctx).divRotate.toNat ≤ x.turn then x.topEntry.filter (·.otherMask != 0) else none

/-- PATH_ROTATION; a PC that the entry cannot hold traps (R375). -/
def execPathRotation (u : Nat) (s : State) : Host.Outcome State Fault Refusal :=
  match s.slice? u with
  | none => notNow "PATH_ROTATION"
  | some x =>
    if !x.live || (s.rotationDue x).isNone then notNow "PATH_ROTATION"
    else
      let gang := s.gangOf x
      let turn := fun (s : State) (y : Slice) => match s.rotationDue y with
        | some e =>
          if pcInReach (s.env y).launch.pkt.entry y.pc then s.setSlice (y.switch e y.pc) else s.takeTrap y.uid (trapAt causeDepth y.pc)
        | none => s
      .next ((gang.foldl turn s).partIfApart (gang.map (·.uid)))

/-! ### WATCHDOG (R397) -/

/-- Whether the watchdog covers the wait of a slice: it waits at one of the instructions that R397 names. One that names a tile
waits for it unless it waits for room in its engine (DEDUCED, log 103). -/
def State.watched (s : State) (x : Slice) : Bool :=
  match x.status, (s.fetch x).2 with
  | .ready, .ok i | .atBar _, .ok i | .inJoin, .ok i =>
    match i with
    | .bar _ | .mbarWait _ _ _ _ _ | .cwait _ _ | .cseal _ _ _ | .tfree _ _ | .join _ _ | .sqpush _ _ _ _ | .sqpop _ _ | .glaunch _ _ _
    | .nfence | .evpost _ _ _ | .tlbinv _ _ _ => true
    | .copy _ _ _ _ _ | .copymm _ _ _ _ _ => s.copyRoom (s.env x).core
    | .mma _ _ _ _ | .mmaz _ _ _ _ | .accld _ | .accst _ => s.matRoom (s.env x).core
    | _ => false
  | _, _ => false

def execWatchdog (u : Nat) (s : State) : Host.Outcome State Fault Refusal :=
  match s.slice? u with
  | none => notNow "WATCHDOG"
  | some x =>
    if x.since.isSome && s.mayRun x && decide (2 ^ 32 ≤ x.waited s.clock) && s.watched x then
      .next ((s.onSlice u fun y => { y with status := .ready }).takeTrap u (trapAt causeWatchdog x.pc))
    else notNow "WATCHDOG"

/-! ### SLEEP_END, WAITW and JOIN (R320, R292, R330) -/

/-- The slices of a gang in a status go on: they issue again, or for the first time after their SLEEP. -/
def State.rouse (s : State) (x : Slice) (p : Status → Bool) : State :=
  let us := s.gangUids x
  { s with slices := s.slices.map fun (y : Slice) =>
      if us.contains y.uid && p y.status then { y with status := .ready, readySince := s.clock } else y }

def Status.isSleep : Status → Bool
  | .sleeping _ => true
  | _ => false

/-- SLEEP_END: at its clock, or earlier. -/
def execSleepEnd (u : Nat) (s : State) : Host.Outcome State Fault Refusal :=
  match s.slice? u with
  | none => notNow "SLEEP_END"
  | some x => if x.status.isSleep then .next (s.rouse x Status.isSleep) else notNow "SLEEP_END"

/-- WAITW_POLL: the gang reads its words again. -/
def execWaitwPoll (u : Nat) (s : State) : Host.Outcome State Fault Refusal :=
  match s.slice? u with
  | none => notNow "WAITW_POLL"
  | some x => if x.status == .inWaitw then .next (s.rouse x (· == .inWaitw)) else notNow "WAITW_POLL"

/-- WAITW_TIMEOUT: WAITW_LIMIT, as it stood when the wait began, has passed, and the gang's next read ends the wait. -/
def execWaitwTimeout (u : Nat) (s : State) : Host.Outcome State Fault Refusal :=
  match s.slice? u with
  | none => notNow "WAITW_TIMEOUT"
  | some x =>
    let late := match x.since with
      | some c => decide (x.limit.toNat ≤ (s.clock - c).toNat)
      | none => false
    if x.status == .inWaitw && late then .next (s.rouse x (· == .inWaitw)) else notNow "WAITW_TIMEOUT"

/-- JOIN_RECHECK: the slice reads its counter and its deque again. -/
def execJoinRecheck (u : Nat) (s : State) : Host.Outcome State Fault Refusal :=
  match s.slice? u with
  | none => notNow "JOIN_RECHECK"
  | some x => if x.status == .inJoin then .next (s.rouse x (· == .inJoin)) else notNow "JOIN_RECHECK"

end Sys2Proof.Machine
end

