-- ==== Sys2Proof/Machine/Mover.lean ====
section
/-! DEFINITION. Frame claims, Midnight, the reload of slices spilled whole, and migration
(spec/08_registers_and_frames.md R185-R191; spec/17_threads_in_motion.md R379-R393). -/

namespace Sys2Proof.Machine

/-! ### Frame-blocked slices (R379) -/

def Slice.blockedNeed (x : Slice) : Option (Nat × Block) :=
  match x.status with
  | .frameBlocked need what => some (need, what)
  | _ => none

/-- A core's own slices: those whose origin it is. -/
def State.ownSlices (s : State) (core : Nat) : List Slice := s.slices.filter fun x => x.live && (s.env x).origin == core

def State.blockedOn (s : State) (core : Nat) : List Slice := (s.ownSlices core).filter (·.blockedNeed.isSome)

/-- Midnight's requester: the slice that has waited longest, the lower slice index at a tie. -/
def State.requester (s : State) (core : Nat) : Option Slice :=
  minBy? (fun x => x.blockedSince.toNat * 16 + x.idx) (s.blockedOn core)

def State.midnight? (s : State) (core : Nat) : Option Midnight := s.engines.midnight.find? (·.core == core)

/-- Put Midnight of a core into a state, IDLE being none. -/
def State.setMidnight (s : State) (core : Nat) (m : Option Midnight) : State :=
  s.onEngines fun g => { g with midnight := g.midnight.filter (·.core != core) ++ m.toList }

/-- Midnight's attempt has ended: WAIT while another slice is blocked, else IDLE. -/
def State.restMidnight (s : State) (core : Nat) : State :=
  match s.blockedOn core with
  | [] => s.setMidnight core none
  | x :: _ => s.setMidnight core (some { core := core, state := .wait, target := x.uid })

/-- Whether Midnight works for a slice. -/
def Midnight.worksFor (m : Midnight) (u : Nat) : Bool := (m.state == .frames || m.state == .slices) && m.target == u

/-- A slice that no longer waits for granules: Midnight working for it rests. -/
def State.afterClaim (s : State) (core u : Nat) : State :=
  match s.midnight? core with
  | some m => if m.worksFor u then s.restMidnight core else s
  | none => s

/-! ### Returns (R391) -/

/-- The result of a MIGRATE whose slice has arrived or was refused; `held` are the registers of its source. -/
def Slice.finishMigrate (x : Slice) (code : Option (Instr × Nat)) (held : List Reg) : Slice :=
  match code with
  | some (i, c) =>
    match i with
    | .migrate d _ h => (x.retireWith i d [.u (BitVec.ofNat 32 c)] (heldOf h held)).retired
    | _ => x
  | none => x

/-- A slice as a continuation has it: PC, masks, format register, and the entries of its top frame above those `below`. -/
def Slice.unpacked (x : Slice) (q : Parcel) (below : List Recon) : Slice :=
  { x.clearLocal.clearSof with pc := q.pc, masks := q.masks, fmt := q.fmt, recon := q.entries ++ below, mig := none, status := .ready, stay := false }

/-- The slice back at its origin in its held frame, which is resident; its count of waiting goes on (R397), and the turn of its
path with it (R309). For KIND 2 its RET goes on from there. -/
def State.comeHome (s : State) (x : Slice) (g : Guest) (held : Frame) (kind : Nat) : State :=
  let e := s.env x
  let q := Parcel.ofBytes ((x.mig.map (·.packet)).getD []) e.launch.pkt.entry
  let y : Slice := { x.unpacked q g.entries with
    frames := { held with regs := q.over held.regs } :: g.lower, guest := none, age := s.clock, readySince := s.clock,
    since := none, wdog := x.waited s.clock }
  let s := (s.setSlice y).acquireAt { e with core := e.origin } .pkg
  if kind = 2 then
    let (s, o) := s.doRet (s.env y) y y
    s.settleOut y.uid o
  else s.setSlice (y.finishMigrate (x.mig.bind (·.code)) ((x.mig.map (·.src)).getD []))

/-- A frame fault at an arrival or a reload halts the thread group; what was tried is tried again after GROUP_RESUME. -/
def State.haltAtFrame (s : State) (x : Slice) (va : DWord) : State :=
  let t := trapOn causeFrame x.pc va
  let y := { x with ecause := t.ecause, eaddr := va, epc := x.pc, held := x.blockedNeed.or x.held,
                    status := if x.blockedNeed.isSome then .ready else x.status }
  (s.setSlice y).haltGroup y t

/-- A return waits at its origin for the granules of its held frame. -/
def State.awaitHome (s : State) (x : Slice) (g : Guest) (kind : Nat) : State :=
  s.setSlice (if x.blockedNeed.isSome then x else x.block s.clock g.held.demand (.arrival kind))

/-- The arrival of a return: the held frame is reloaded first if Midnight spilled it. -/
def State.arriveHome (s : State) (x : Slice) (g : Guest) (kind : Nat) : State :=
  let e := s.env x
  match g.held.slot with
  | none => (s.comeHome x g g.held kind).afterClaim e.origin x.uid
  | some slot =>
    match s.ownRun x g.held.demand with
    | none => s.awaitHome x g kind
    | some b =>
      match s.reloadFrame { e with core := e.origin } x slot b with
      | (s, .ok f) => ((s.freeSlots { e.party x.uid with unit := .core e.origin } [slot]).comeHome x g f kind).afterClaim e.origin x.uid
      | (s, .fault va sub level) =>
        let a : Ask := { who := .slice x.uid, unit := .core e.origin, ctx := e.ctx, va := va, kind := .spill }
        (s.awaitHome x g kind).parkFault [a] a sub level
      | (s, .held h) => (s.awaitHome x g kind).askFor h
      | (s, .full) => s.awaitHome x g kind

/-- Midnight is writing the frame that a return comes back to (R382). -/
def State.heldBusy (s : State) (x : Slice) : Bool :=
  match x.guest with
  | some g => s.frameBusy x.uid g.lower.length
  | none => false

/-- A declined parked access of a slice: it is to be met before the slice goes on. -/
def State.declinedParked (s : State) (x : Slice) : Option Declined :=
  s.caches.declined.find? fun d => match d.ask.who with
    | .parked u _ => u == x.uid
    | _ => false

/-- Whether every access of a slice that is still parked has been declined. -/
def State.onlyDeclined (s : State) (x : Slice) : Bool :=
  x.parked.all fun p => (s.declinedOf (.parked x.uid p.id)).isSome

/-- RETURN_ARRIVAL (R391): the continuation of a return comes to its origin. -/
def execReturnArrival (u : Nat) (s : State) : Host.Outcome State Fault Refusal :=
  match s.slice? u with
  | none => notNow "RETURN_ARRIVAL"
  | some x =>
    match x.status, x.mig with
    | .migrating, some m =>
      match m.phase, x.guest with
      | .returning kind, some g => if m.packet.isEmpty || s.heldBusy x then notNow "RETURN_ARRIVAL" else .next (s.arriveHome x g kind)
      | .returning _, none => .next (s.setSlice { x with status := .ready, mig := none })
      | _, _ => notNow "RETURN_ARRIVAL"
    | _, _ => notNow "RETURN_ARRIVAL"

/-! ### FRAME_CLAIM (R185, R379) -/

/-- A blocked slice has a run of granules: its instruction issues again and takes it (the slice alone, unless the whole gang
issues it as one: R311, R329), it enters its handler, or its return arrives. -/
def State.proceed (s : State) (x : Slice) (what : Block) (need base : Nat) : State :=
  let e := s.env x
  let y := { x with status := .ready, readySince := s.clock }
  match what with
  | .retry =>
    let s := (s.setSlice { y with run := some (base, need) }).afterClaim e.origin x.uid
    if 1 < (s.gangOf y).length then s.partSlices [x.uid] else s
  | .whole => (s.setSlice { y with run := some (base, need) }).afterClaim e.origin x.uid
  | .trap => (s.setSlice (y.enterHandler e.launch.pkt.trap base ((x.pendingTrap.map (·.pc)).getD x.pc))).afterClaim e.origin x.uid
  | .arrival kind =>
    match x.guest with
    | some g => s.arriveHome x g kind
    | none => (s.setSlice y).afterClaim e.origin x.uid

/-- What a blocked slice does at a frame fault (R380, R391). -/
def State.blockedFault (s : State) (x : Slice) (what : Block) (va : DWord) : State :=
  match what with
  | .arrival _ => s.haltAtFrame x va
  | _ => (s.onSlice x.uid fun y => { y with status := .ready }).takeTrap x.uid (trapOn causeFrame x.pc va)

/-- A return arrives whatever its workgroup or group is doing (R391, R401, R404). -/
def Block.isArrival : Block → Bool
  | .arrival _ => true
  | _ => false

def execFrameClaim (u : Nat) (s : State) : Host.Outcome State Fault Refusal :=
  match s.slice? u with
  | none => notNow "FRAME_CLAIM"
  | some x =>
    match x.blockedNeed with
    | none => notNow "FRAME_CLAIM"
    | some (need, what) =>
      match s.declinedOf (.slice u) with
      | some d => .next ((s.clearDeclined (.slice u)).blockedFault x what d.ask.va)
      | none =>
        if !(s.mayRun x || what.isArrival) || s.isParked (.slice u) || s.isMissing (.slice u) || s.heldBusy x then notNow "FRAME_CLAIM"
        else
          match s.ownRun x need with
          | none => notNow "FRAME_CLAIM"
          | some b => .next (s.proceed x what need b)

/-! ### Midnight (R380, R381) -/

/-- Every own resident slice of a core is frame-blocked: none issues for itself. A slice that is away as a guest is not
resident, except one whose return waits for granules. -/
def State.allBlocked (s : State) (core : Nat) : Bool :=
  ((s.ownSlices core).filter fun x => x.status != .spilled && x.status != .saved && (x.guest.isNone || x.blockedNeed.isSome) &&
    !(s.env x).group.firmware).all (·.blockedNeed.isSome)

def execMidnightTrigger (core : Nat) (s : State) : Host.Outcome State Fault Refusal :=
  match s.midnight? core, s.requester core with
  | none, none => notNow "MIDNIGHT_TRIGGER"
  | none, some x => .next (s.setMidnight core (some { core := core, state := .wait, target := x.uid }))
  | some m, r =>
    if m.state != .wait then notNow "MIDNIGHT_TRIGGER"
    else
      match r with
      | none => .next (s.setMidnight core none)
      | some x =>
        let wait := (s.ctxOf (s.env x).ctx).frameWait.toNat
        if decide (wait ≤ (s.clock - x.blockedSince).toNat) || s.allBlocked core then
          .next (s.setMidnight core (some { core := core, state := .frames, target := x.uid }))
        else notNow "MIDNIGHT_TRIGGER"

/-- Slices whose frames Midnight may write: own slices of the column, not of firmware, youngest group first, then descending
slice index. -/
def State.victimSlices (s : State) (c : Column) : List Slice :=
  let ok := fun (x : Slice) => x.live && x.status != .saved && s.columnOf x == c && !(s.env x).group.firmware
  (s.slices.filter ok).sortBy fun a b =>
    let f := (s.env a).group
    let g := (s.env b).group
    decide (g.born < f.born) || (f.born == g.born && (decide (g.idx < f.idx) || (f.idx == g.idx && decide (b.idx ≤ a.idx))))

/-- Places of a slice's frames that Midnight may spill in FRAMES, outermost first: resident and not the top. -/
def Slice.spillable (x : Slice) : List Nat :=
  (((x.homeFrames.zipIdx).filter fun f => f.1.slot.isNone && (x.guest.isSome || f.2 != 0)).map (·.2)).reverse

/-- What failed of several accesses that come about together or not at all; the state is as it was. -/
def Got.failed {α β : Type} (s : State) (g : Got α) (ok : State × Got β) : State × Got β :=
  match g with
  | .ok _ => ok
  | .fault a b c => (s, .fault a b c)
  | .held h => (s, .held h)
  | .full => (s, .full)

/-- Write a frame of a slice to a slot, and the header of the frame that it called (R187). One that cannot be written stays as
it is, nothing claimed (log entry 96). -/
def State.spillFrame (s : State) (p : Party) (x : Slice) (k : Nat) : State × Got Slice :=
  match x.homeFrames[k]? with
  | none => (s, .ok x)
  | some f =>
    match s.claimSlots p 1 with
    | (t, .ok slot) =>
      let f' := { f with slot := some slot }
      let y := x.setHomeFrames (setNth x.homeFrames k { f' with regs := [] })
      let (t, g) := t.slotWrite p slot 0 (f'.record x.homeFrames[k + 1]? (if k = 0 then x.rxSlot else none))
      let (t, h) := t.relink p y k
      g.failed s (h.failed s (t, .ok y))
    | (_, g) => g.failed s (s, .full)

/-- Write the resident frames of a slice, outermost first. -/
def State.spillFrames (s : State) (p : Party) (x : Slice) : List Nat → State × Got Slice
  | [] => (s, .ok x)
  | k :: ks =>
    match s.spillFrame p x k with
    | (s, .ok y) => State.spillFrames s p y ks
    | r => r

/-- Resident frames of a slice, outermost first. -/
def Slice.residentFrames (x : Slice) : List Nat := (((x.frames.zipIdx).filter (·.1.slot.isNone)).map (·.2)).reverse

/-- A spilled slice: its record stands in a slot, and it has a place in spill order. -/
def Slice.spilledAt (x : Slice) (slot order : Nat) (clock : DWord) (was : Slice) : Slice :=
  { x.clearLocal with status := .spilled, spill := some (slot, order), wdog := was.waited clock, since := none, mbar := [], run := none,
                      mig := none, held := was.blockedNeed }

/-- Spill a whole slice: its frame records and then its slice record, all or none of them (log entry 96); its accesses are
performed (R148), and a departure that it seeks is cancelled (log entry 91). -/
def State.spillWhole (s : State) (p : Party) (x : Slice) : State × Got Slice :=
  let e := s.env x
  match (s.releaseAt e x .pkg).spillFrames p x x.residentFrames with
  | (t, .ok y) =>
    match t.claimSlots p 1 with
    | (t, .ok slot) =>
      let (t, g) := t.slotWrite p slot 0 (y.record e.launch.pkt.entry ((y.top.slot).getD 0) (x.waited s.clock % 2 ^ 32))
      let (n, t) := t.fresh
      g.failed s (t, .ok (y.spilledAt slot n s.clock x))
    | (_, g) => g.failed s (s, .full)
  | (_, g) => g.failed s (s, .full)

/-- Victims of SLICES: not slices being saved, and not those away; lowest launch PRIO first, then as in FRAMES. -/
def State.wholeVictims (s : State) (c : Column) (target : Nat) : List Slice :=
  ((s.victimSlices c).filter fun x =>
    x.uid != target && x.guest.isNone && x.status != .spilled && (s.env x).wg.status == .running).sortBy
    fun a b => (s.env a).launch.pkt.prio ≤ (s.env b).launch.pkt.prio

/-- The frame fault that ends Midnight's attempt. -/
def State.midnightFails (s : State) (m : Midnight) (va : DWord) : State :=
  let s := s.setMidnight m.core none
  match s.slice? m.target with
  | none => s
  | some x =>
    match x.blockedNeed with
    | some (_, what) => s.blockedFault x what va
    | none => s

/-- What becomes of a spill of a frame, or of a whole slice: the victim is written; Midnight waits for a walk or for service,
the frame in its hands meanwhile; or its attempt ends (log entry 12). Once pre-emption of the core has begun, Midnight ends with
the frame. -/
def State.midnightDid (s : State) (m : Midnight) (p : Party) (busy : Option (Nat × Nat)) (r : State × Got Slice) :
    Host.Outcome State Fault Refusal :=
  let base := (s.ctxOf p.ctx).spillBase
  let waits := s.setMidnight m.core (some { m with busy := busy })
  let park := fun (va : DWord) (sub level : Nat) =>
    let a : Ask := { who := p.who, unit := p.unit, ctx := p.ctx, va := va, kind := .spill }
    waits.parkFault [a] a sub level
  match r.2 with
  | .ok x => .next ((r.1.setSlice x).setMidnight m.core (if m.stops then none else some { m with busy := none }))
  | .fault va sub level => .next (park va sub level)
  | .held h => waits.waitFor "MIDNIGHT_SPILL" h
  | .full => .next (if s.duty 1 then park base 2 0 else s.midnightFails m base)

/-- The next frame for Midnight to write in a column: the one in its hands, else the first victim in the order of R381. -/
def State.nextFrame (s : State) (m : Midnight) (c : Column) : Option (Slice × Nat) :=
  let inHand := m.busy.bind fun b => (s.slice? b.1).bind fun x =>
    let k := x.homeFrames.length - 1 - b.2
    if x.spillable.contains k then some (x, k) else none
  inHand.or ((s.victimSlices c).findSome? fun x => x.spillable.head?.map fun k => (x, k))

/-- Spill the next victim of a column: a frame in FRAMES, a whole slice in SLICES; with no frame left SLICES begins. -/
def State.spillNext (s : State) (m : Midnight) (p : Party) (c : Column) : Host.Outcome State Fault Refusal :=
  if m.state == .frames then
    match s.nextFrame m c with
    | some (x, k) => s.midnightDid m p (some (x.uid, x.homeFrames.length - 1 - k)) (s.spillFrame p x k)
    | none => .next (s.setMidnight m.core (some { m with state := .slices, busy := none }))
  else
    match s.wholeVictims c m.target with
    | [] => notNow "MIDNIGHT_SPILL"
    | x :: _ => if !s.accessesDone x then notNow "MIDNIGHT_SPILL" else s.midnightDid m p none (s.spillWhole p x)

def execMidnightSpill (core : Nat) (s : State) : Host.Outcome State Fault Refusal :=
  match s.midnight? core with
  | none => notNow "MIDNIGHT_SPILL"
  | some m =>
    if m.state != .frames && m.state != .slices then notNow "MIDNIGHT_SPILL"
    else
      match (s.slice? m.target).bind fun t => t.blockedNeed.map fun b => (t, b.1) with
      | none => .next (s.restMidnight core)
      | some (t, need) =>
        let e := s.env t
        let p : Party := { who := .midnight core, unit := .core core, ctx := e.ctx, alias_ := some core }
        let c := s.columnOf t
        match s.declinedOf p.who with
        | some d => .next ((s.clearDeclined p.who).midnightFails m d.ask.va)
        | none =>
          if s.isParked p.who || (m.busy.isNone && (s.freeRun c need 0 (256 - s.guestGranules e.ctx)).isSome) then notNow "MIDNIGHT_SPILL"
          else s.spillNext m p c

/-! ### SLICE_RELOAD (R383) -/

/-- Whether a slice is the one that has waited longest, spilled, in its column. -/
def State.nextReload (s : State) (x : Slice) : Bool :=
  let c := s.columnOf x
  let order := fun (y : Slice) => (y.spill.map fun k => k.2).getD (0 : Nat)
  s.slices.all fun y => !(y.status == .spilled && s.columnOf y == c) || decide (order x ≤ order y)

/-- Read a slice record and the top frame's record, which it names, back into a column, and free both slots. -/
def State.reloadSlice (s : State) (p : Party) (x : Slice) (slot base : Nat) : State × Got Slice :=
  match s.slotRead p slot 0 sliceRecordBytes with
  | (s, .ok (bs, ps)) =>
    let top := leAt bs 0xC 4
    match s.slotRead p top 0 frameRecordBytes with
    | (s, .ok (fs, qs)) =>
      let y := (x.setTop (Frame.ofRecord fs qs base)).ofRecord bs ps (s.env x).launch.pkt.entry
      (s.freeSlots p [slot, top], .ok { y.clearLocal with spill := none })
    | (s, .fault a b c) => (s, .fault a b c)
    | (s, .held h) => (s, .held h)
    | (s, .full) => (s, .full)
  | (s, .fault a b c) => (s, .fault a b c)
  | (s, .held h) => (s, .held h)
  | (s, .full) => (s, .full)

/-- A slice that a trap has stopped goes on from EPC as ERET would have it, with no trap frame to free (R353, R401). -/
def Slice.unstop (x : Slice) : Slice :=
  if x.stopped then
    let y := { x.clearLocal with stopped := false }
    let y := match y.tstate with
      | some t => { y with masks := setNth y.masks 0 t.m0, fmt := t.fmt, tstate := none }
      | none => y
    y.land x.epc
  else x

/-- A slice that is back: ready, or still waiting for the granules that it waited for. -/
def Slice.back (x : Slice) (clock : DWord) (halted : Bool) : Slice :=
  let y := { x with readySince := clock, age := clock, held := none, status := .ready }
  match x.held with
  | some (need, what) => y.block clock need what
  | none => if halted then y else y.unstop

def execSliceReload (u : Nat) (s : State) : Host.Outcome State Fault Refusal :=
  match s.slice? u with
  | none => notNow "SLICE_RELOAD"
  | some x =>
    match x.status, x.spill with
    | .spilled, some (slot, _) =>
      let e := s.env x
      match s.declinedOf (.slice u) with
      | some d => .next ((s.clearDeclined (.slice u)).haltAtFrame x d.ask.va)
      | none =>
        if !s.mayRun x || s.isParked (.slice u) || !s.nextReload x || (s.blockedOn e.origin).any (fun y => s.columnOf y == s.columnOf x) then
          notNow "SLICE_RELOAD"
        else
          match s.ownRun x x.top.demand with
          | none => notNow "SLICE_RELOAD"
          | some b =>
            match s.reloadSlice (e.party u) x slot b with
            | (s, .ok y) => .next (((s.setSlice (y.back s.clock false)).partSlices [u]).acquireAt e .pkg)
            | (s, .fault va sub level) =>
              let a : Ask := { who := .slice u, unit := .core e.origin, ctx := e.ctx, va := va, kind := .spill }
              .next (s.parkFault [a] a sub level)
            | (s, .held h) => s.waitFor "SLICE_RELOAD" h
            | (_, .full) => notNow "SLICE_RELOAD"
    | _, _ => notNow "SLICE_RELOAD"

/-! ### Departures (R385, R386) -/

/-- A core on which a workgroup is being pre-empted. -/
def State.preempting (s : State) (core : Nat) : Bool := s.wgs.any fun w => w.core == core && w.status == .stopping

/-- Guest slots of a core that are held: by guests, and by reservations. -/
def State.guestSlotHeld (s : State) (core slot : Nat) : Bool :=
  s.slices.any fun x =>
    x.live && ((match x.guest with | some g => g.host == core && g.slot == slot | none => false) ||
      match x.mig with
      | some m => m.dest == core && (match m.phase with
        | .granted k _ | .departing k _ | .flying k _ => k == slot
        | _ => false)
      | none => false)

/-- The guest slot and run that admission gives: the lowest slot whose column has a free run within its reserve. -/
def State.guestPlace (s : State) (core ctx demand : Nat) : Option (Nat × Nat) :=
  (natsFrom 0 32).findSome? fun k =>
    if s.guestSlotHeld core k then none
    else (s.freeRun (guestColumn core k) demand (256 - s.guestGranules ctx) 256).map fun b => (k, b)

/-- The host's admission table (R386): whether its entry for a core allows a guest of a context more. -/
def State.tableAdmits (s : State) (core ctx : Nat) : Bool :=
  let base := (le64 (s.peek (controlBlock + 0x60) 8) 0).toNat
  let e := leAt (s.peek (base + 8 * core) 8) 0 8
  let maxg := field e 24 6
  let guests := ((natsFrom 0 32).filter fun k => s.guestSlotHeld core k).length
  field e 30 34 == 0 && field e 13 11 == 0 && decide (maxg ≤ 32) && bit e 12 && field e 0 12 == ctx && decide (guests < maxg)

/-- MIGRATION_REQUEST: the destination's answer. -/
def State.admission (s : State) (ctx demand dest : Nat) : MigPhase :=
  if s.preempting dest then .refused codePreempt
  else if !s.runsCtx dest ctx || (s.duty 2 && !s.tableAdmits dest ctx) then .refused codeAdmit
  else
    match s.guestPlace dest ctx demand with
    | some (slot, base) => .granted slot base
    | none => .refused codeAdmit

def State.setPhase (s : State) (u : Nat) (ph : MigPhase) : State :=
  s.onSlice u fun x => { x with mig := x.mig.map fun m => { m with phase := ph } }

def execMigrationRequest (u : Nat) (s : State) : Host.Outcome State Fault Refusal :=
  match s.slice? u with
  | none => notNow "MIGRATION_REQUEST"
  | some x =>
    match x.mig with
    | none => notNow "MIGRATION_REQUEST"
    | some m =>
      if m.phase == .requested then .next (s.setPhase u (s.admission (s.env x).ctx x.top.demand m.dest)) else notNow "MIGRATION_REQUEST"

/-- MIGRATION_GRANT: the answer is back; after a refusal a MIGRATE ends with its code, and a memory instruction issues again
to be served where it is. -/
def execMigrationGrant (u : Nat) (s : State) : Host.Outcome State Fault Refusal :=
  match s.slice? u with
  | none => notNow "MIGRATION_GRANT"
  | some x =>
    match x.mig with
    | none => notNow "MIGRATION_GRANT"
    | some m =>
      match m.phase with
      | .granted slot base => .next (s.setPhase u (.departing slot base))
      | .refused code =>
        let y := { x with status := .ready, mig := none, readySince := s.clock }
        match m.code with
        | some (i, _) =>
          .next (s.setSlice (y.finishMigrate (some (i, code)) m.src))
        | none => .next (s.setSlice { y with stay := true })
      | _ => notNow "MIGRATION_GRANT"

/-- The frame that a host gives a guest (R389): every register uniform zero until the continuation has brought its own. -/
def Frame.hosted (f : Frame) (base : Nat) : Frame :=
  { f with base := base, outer := false, migrated := true, slot := none, regs := List.replicate (8 * f.demand) (.u 0) }

/-- A slice that becomes a guest, or hops. -/
def Slice.depart (x : Slice) (host slot base : Nat) : Slice :=
  let ents := x.topEntries
  let g : Guest := match x.guest with
    | some g => { g with host := host, slot := slot, hops := g.hops + 1 }
    | none => { host := host, slot := slot, hops := 1, held := x.top, lower := x.frames.tail, entries := x.recon.drop ents.length }
  { x.clearLocal.clearSof with guest := some g, frames := [x.top.hosted base], recon := ents }

/-- Put the continuation of a slice on its way. -/
def Slice.send (x : Slice) (m : Migration) (ph : MigPhase) (packet : List Byte) : Slice :=
  { x with mig := some { m with phase := ph, packet := packet } }

/-- A departure: the slice's accesses are performed at scope pkg (R147), and its continuation is sent. -/
def State.sendAway (s : State) (x : Slice) (m : Migration) (slot base : Nat) : State :=
  let e := s.env x
  let (s, live) := s.liveSet e x
  let hops := (x.guest.map (·.hops)).getD 0 + 1
  (s.releaseAt e x .pkg).setSlice ((x.depart m.dest slot base).send m (.flying slot base) (x.continuation e 0 hops live))

/-- The same of a return of a KIND (R388, R391). -/
def State.sendBack (s : State) (x : Slice) (m : Migration) (kind : Nat) : State :=
  let e := s.env x
  let (s, live) := if kind = 2 then (s, natsFrom 0 x.top.args) else s.liveSet e x
  (s.releaseAt e x .pkg).setSlice (x.send m (.returning kind) (x.continuation e kind 0 live))

/-- CONTINUATION_SEND: every earlier access is performed, and the slice departs, for a host or for home. An access that service
declined is met first: the departure is given up, as it is in a halted group (R401); a slice that comes home meets it there. -/
def execContinuationSend (u : Nat) (s : State) : Host.Outcome State Fault Refusal :=
  match s.slice? u with
  | none => notNow "CONTINUATION_SEND"
  | some x =>
    match x.mig with
    | none => notNow "CONTINUATION_SEND"
    | some m =>
      match m.phase with
      | .departing slot base =>
        if (s.declinedParked x).isSome || (s.env x).group.halted then .next (s.setSlice { x with status := .ready, mig := none })
        else if !x.parked.isEmpty || !s.accessesDone x then notNow "CONTINUATION_SEND"
        else .next (s.sendAway x m slot base)
      | .returning kind =>
        if x.guest.isNone || !m.packet.isEmpty || !s.onlyDeclined x || !s.accessesDone x then notNow "CONTINUATION_SEND"
        else .next (s.sendBack x m kind)
      | _ => notNow "CONTINUATION_SEND"

/-- The guest at its host, as its continuation has it. -/
def Slice.lodge (x : Slice) (q : Parcel) (clock : DWord) : Slice :=
  { (x.unpacked q []).setTop { x.top with regs := q.over x.top.regs } with age := clock, readySince := clock }

/-- CONTINUATION_ARRIVAL: the guest's first moment at its host. Where pre-emption of the host began after its grant (R393), or
its group has halted meanwhile (R401), it goes home at once, to its seeking instruction. -/
def execContinuationArrival (u : Nat) (s : State) : Host.Outcome State Fault Refusal :=
  match s.slice? u with
  | none => notNow "CONTINUATION_ARRIVAL"
  | some x =>
    match x.mig with
    | none => notNow "CONTINUATION_ARRIVAL"
    | some m =>
      match m.phase with
      | .flying _ _ =>
        let e := s.env x
        let y := x.lodge (Parcel.ofBytes m.packet e.launch.pkt.entry) s.clock
        .next ((s.acquireAt e .pkg).setSlice (if m.evicted || e.group.halted then y.startReturn e.origin 1 none else y.finishMigrate m.code m.src))
      | _ => notNow "CONTINUATION_ARRIVAL"

end Sys2Proof.Machine
end

