-- ==== Sys2Proof/Machine/Switch.lean ====
section
/-! DEFINITION. Save records of several slots, and the context switch of a core (spec/18_faults_and_preemption.md R402, R405,
R407). -/

namespace Sys2Proof.Machine

/-! ### What stops a save -/

/-- Why a save does not complete: an access to the spill area faults, it is held, or no slot is free (R407). -/
inductive SaveErr where
  | fault (va : DWord) (subcode level : Nat)
  | held (h : Hold)
  | full
  deriving DecidableEq, Repr

def Got.save {α : Type} (g : State × Got α) : Except SaveErr (State × α) :=
  match g with
  | (s, .ok a) => .ok (s, a)
  | (_, .fault va sub level) => .error (.fault va sub level)
  | (_, .held h) => .error (.held h)
  | (_, .full) => .error .full

/-- The party of a save. -/
def saveParty (wg core ctx : Nat) : Party := { who := .save wg, unit := .core core, ctx := ctx, alias_ := none }

/-! ### Records of several slots (R407) -/

/-- Poison the sectors of a record at byte offsets from a slot. -/
def State.poisonSlots (s : State) (p : Party) (slot : Nat) : List Nat → Except SaveErr State
  | [] => .ok s
  | off :: rest =>
    match s.find p { kind := .spill, wr := true } (slotVa (s.ctxOf p.ctx) slot + BitVec.ofNat 64 off) with
    | (s, .ok m) =>
      let (s, bs, _) := s.pkgRead p.unit.core? m.pa 32 (policyOf m.cpol 0)
      State.poisonSlots (s.pkgWrite p.unit.core? m.pa bs (policyOf m.cpol 0) true) p slot rest
    | (_, .fault sub level) => .error (.fault (slotVa (s.ctxOf p.ctx) slot) sub level)
    | (_, .held h) => .error (.held h)

/-- Claim the lowest run of slots for a record and write it, poison with it: the first slot and the slots. -/
def State.writeRecord (s : State) (p : Party) (bs : List Byte) (poisoned : List Nat) : Except SaveErr (State × List Nat) := do
  let (s, ks) ← Got.save (s.saveRecord p bs)
  let s ← s.poisonSlots p (ks.headD 0) poisoned
  return (s, ks)

/-- A record that may be absent: its first slot is 0 then. -/
def State.writeIf (s : State) (p : Party) (present : Bool) (bs : List Byte) (poisoned : List Nat) : Except SaveErr (State × List Nat) :=
  if present then s.writeRecord p bs poisoned else .ok (s, [])

/-! ### The context switch (R405) -/

/-- Entries of a deque, oldest first, in segments of 128. -/
def segmentsOf : Nat → List DWord → List (List DWord)
  | 0, _ => []
  | n + 1, es => if es.isEmpty then [] else es.take 128 :: segmentsOf n (es.drop 128)

/-- Write segments above a chain, the oldest first. -/
def State.writeSegments (s : State) (p : Party) (chain : List Nat) : List (List DWord) → Except SaveErr (State × List Nat)
  | [] => .ok (s, chain)
  | es :: rest => do
    let (s, k) ← s.writeRecord p (segmentBytes (chain.headD 0) es) []
    State.writeSegments s p (k.headD 0 :: chain) rest

/-- A context leaves a core: deque, pins, roof and, with the last core of a quad, the bound registers. -/
def State.switchOut (s : State) (p : Party) (core : Nat) : Except SaveErr State := do
  let ctx := p.ctx
  let d := s.dequeOf core ctx
  let (s, chain) ← s.writeSegments p d.segments (segmentsOf d.entries.length d.entries.reverse)
  let s := if d.entries.isEmpty then s else s.setDeque { d with entries := [], segments := chain }
  let s := s.onCaches fun c => { c with quadLines := updateWhere (fun l => l.pin == some ctx && l.pinCore == core) (fun l => { l with pin := none }) c.quadLines }
  let key := core * 2 ^ 25
  let sick := ((natsFrom 0 (roofBytes / 32)).filter fun k => s.roofPoison.contains (key / 32 + k)).map (32 * ·)
  let (s, roof) ← s.writeRecord p (s.roof.getBytes key roofBytes) sick
  let quad := quadOfCore core
  let last := (natsFrom (4 * quad) 4).all fun c => c == core || !s.runsCtx c ctx
  let (s, bounds) ← s.writeIf p last ((natsFrom 0 16).flatMap fun k => wordBytes (s.bound quad ctx k)) []
  let units : List SavedUnit := [{ ctx := ctx, isRoof := true, index := core, slot := roof.headD 0 }] ++
    (if last then [{ ctx := ctx, isRoof := false, index := quad, slot := bounds.headD 0 }] else [])
  return { s with savedUnits := s.savedUnits ++ units }

/-! ### What a context finds again on a core (R405) -/

/-- The party that saves and restores a core's units for a context. -/
def coreParty (core ctx : Nat) : Party := { who := .core core, unit := .core core, ctx := ctx, alias_ := none }

/-- The units saved for a context that return with its first workgroup on a core: the roof, and the bound registers when
no core of the quad runs it. -/
def State.unitsDue (s : State) (core ctx : Nat) : List SavedUnit :=
  if s.runsCtx core ctx then []
  else
    let quadFree := (natsFrom (4 * quadOfCore core) 4).all fun c => !s.runsCtx c ctx
    s.savedUnits.filter fun u => u.ctx == ctx && (if u.isRoof then u.index == core else quadFree && u.index == quadOfCore core)

def roofSlots : Nat := 12288

/-- Put a roof's bytes and poison in place. -/
def State.putRoof (s : State) (core : Nat) (bs : List Byte) (ps : List Bool) : State :=
  let key := core * 2 ^ 25
  let mine := fun (t : Nat) => decide (key / 32 ≤ t) && decide (t < (key + roofBytes) / 32)
  { s with
    roof := s.roof.setBytes key bs,
    roofPoison := (natsFrom 0 (roofBytes / 32)).foldl (fun p t => if ps.getD (32 * t) false then insertNat (key / 32 + t) p else p)
      (s.roofPoison.filter fun t => !mine t) }

/-- Read saved units back and free their slots. -/
def State.restoreUnits (s : State) (p : Party) : List SavedUnit → State × Got Unit
  | [] => (s, .ok ())
  | u :: us =>
    match s.slotRead p u.slot 0 (if u.isRoof then 2048 * roofSlots else 64) with
    | (s, .ok (bs, ps)) =>
      let s := if u.isRoof then s.putRoof u.index bs ps else s.putBounds u.index u.ctx ((natsFrom 0 16).map fun k => le32 bs (4 * k))
      let s := s.freeSlots p (natsFrom u.slot (if u.isRoof then roofSlots else 1))
      State.restoreUnits { s with savedUnits := s.savedUnits.filter fun v => v != u } p us
    | (s, .fault a b c) => (s, .fault a b c)
    | (s, .held h) => (s, .held h)
    | (s, .full) => (s, .full)

/-- Contexts whose units still stand in a core though none of their workgroups is resident there: workgroups of theirs have been
saved there, and the last that ran has ended since. -/
def State.unitsLeft (s : State) (core ctx : Nat) : List Nat :=
  (((s.wgs.filter fun w => w.core == core && w.status == .saved).map fun w => s.launchCtx w.launch).eraseDups).filter fun c =>
    c != ctx && !s.runsCtx core c && !s.savedUnits.any fun u => u.ctx == c && u.isRoof && u.index == core

/-- What bringing a context's units to a core comes to. -/
inductive Brought where
  | here (s : State)
  /-- an access of a party stops it, and nothing comes about -/
  | stopped (p : Party) (e : SaveErr)

/-- The request that a stopped record makes, if it makes one: it parks on its fault, or asks for a walk. -/
def State.requestFor (s : State) (p : Party) (e : SaveErr) : Option State :=
  match e with
  | .fault va sub level =>
    let a : Ask := { who := p.who, unit := p.unit, ctx := p.ctx, va := va, kind := .spill }
    some (s.parkFault [a] a sub level)
  | .held (.miss a) => some (s.openMiss a)
  | _ => none

/-- The units of some contexts leave a core. -/
def State.switchEach (s : State) (core : Nat) : List Nat → Brought
  | [] => .here s
  | c :: cs =>
    match s.switchOut (coreParty core c) core with
    | .ok t => State.switchEach t core cs
    | .error e => .stopped (coreParty core c) e

/-- The units of other contexts leave a core, and those of a context come back to it (R402, R405). An access that was declined is
tried again. -/
def State.bringUnits (s : State) (core ctx : Nat) : Brought :=
  match (s.clearDeclined (.core core)).switchEach core (s.unitsLeft core ctx) with
  | .stopped p e => .stopped p e
  | .here t =>
    match Got.save (t.restoreUnits (coreParty core ctx) (t.unitsDue core ctx)) with
    | .ok (t, _) => .here t
    | .error e => .stopped (coreParty core ctx) e

/-- The same for several cores together. -/
def State.bringAll (s : State) (ctx : Nat) : List Nat → Brought
  | [] => .here s
  | core :: rest =>
    match s.bringUnits core ctx with
    | .here t => State.bringAll t ctx rest
    | r => r

end Sys2Proof.Machine
end

