-- ==== Sys2Proof/Machine/Launcher.lean ====
section
/-! DEFINITION. Launch queues, distribution, dispatch, stealing, completion and the time-slicer
(spec/16_scheduling.md R357-R369). -/

namespace Sys2Proof.Machine

/-! ### Queue blocks (R357) -/

/-- A queue block's fields. -/
structure Queue where
  ring : Nat
  ctx : Nat
  size : Nat
  enable : Bool
  stopped : Bool
  tail : Word
  head : Word
  deriving DecidableEq, Repr

def State.queueOf (s : State) (q : Nat) : Queue :=
  let bs := s.peek (queueBlock q) 64
  { ring := leAt bs 0 8, ctx := leAt bs 8 2 % 4096, size := 2 ^ Nat.min (leAt bs 0xA 1) 31, enable := bit (leAt bs 0xB 1) 0,
    stopped := bit (leAt bs 0xB 1) 1, tail := le32 bs 0x10, head := le32 bs 0x14 }

def Queue.hasWork (x : Queue) : Bool := x.enable && !x.stopped && x.tail != x.head

/-- The queue that the reader serves next (R358): descending priority, in turn within a priority. -/
def State.readerQueue (s : State) : Option Nat :=
  [3, 2, 1, 0].findSome? fun p =>
    ((natsFrom 0 8).map fun j => 8 * p + (assoc 0 s.queueNext p + j) % 8).find? fun q => (s.queueOf q).hasWork

def State.served (s : State) (q : Nat) : State := { s with queueNext := assocSet s.queueNext (q / 8) ((q % 8 + 1) % 8) }

/-- Stop a queue with a code in ERR (R358, R361). -/
def State.stopQueue (s : State) (q : Nat) (code : Nat) : State :=
  let s := s.setWord (queueBlock q + 0x20) (BitVec.ofNat 32 code)
  let ctl := leAt (s.peek (queueBlock q + 0xB) 1) 0 1
  s.writeHome (queueBlock q + 0xB) (u8 (if bit ctl 1 then ctl else ctl + 2)) .normal

def State.setHead (s : State) (q : Nat) (n : Word) : State := s.setWord (queueBlock q + 0x14) n

/-! ### The packet (R360, R361) -/

def Packet.ofBytes (bs : List Byte) : Packet :=
  let flags := leAt bs 0x20 4
  { entry := le64 bs 0, gridX := leAt bs 8 4, gridY := leAt bs 0xC 4, gridZ := leAt bs 0x10 4, slices := leAt bs 0x14 1,
    groups := leAt bs 0x15 1, producer := leAt bs 0x16 1, demand := leAt bs 0x17 1, scratch := leAt bs 0x18 4,
    acc := leAt bs 0x1C 1, prio := leAt bs 0x1D 1, tiles := leAt bs 0x1E 2, coop := bit flags 0, migrate := bit flags 1,
    strict := bit flags 2, overlap := bit flags 3, partMask := le16 bs 0x24, podCount := leAt bs 0x26 2, trap := le64 bs 0x28,
    args := le64 bs 0x30, doneMbar := le64 bs 0x38, launchId := le32 bs 0x40, podTag := le32 bs 0x44 }

/-- Workgroups of a launch. -/
def Packet.grid (p : Packet) : Nat := p.gridX * p.gridY * p.gridZ

/-- Check 2. -/
def packetZeros (bs : List Byte) : Bool := leAt bs 0x20 4 / 16 == 0 && zeroAt bs 0x48 56

/-- Check 3. -/
def Packet.inRange (p : Packet) : Bool :=
  p.entry.toNat % 64 == 0 && decide (1 ≤ p.gridX) && decide (1 ≤ p.gridY) && decide (1 ≤ p.gridZ) && decide (p.grid < 2 ^ 32) &&
  decide (1 ≤ p.slices) && decide (p.slices ≤ 8) && decide (1 ≤ p.groups) && decide (p.groups ≤ 16) && decide (p.producer < p.groups) &&
  decide (1 ≤ p.demand) && decide (p.demand ≤ 12) && decide (p.scratch ≤ 2 ^ 22) && decide (p.acc ≤ 8) && decide (p.prio ≤ 3) &&
  decide (p.tiles ≤ 256) && (p.podCount == 0 || (p.coop && decide (2 ≤ p.podCount) && decide (p.podCount ≤ 64))) &&
  p.trap.toNat % 2 == 0 && p.doneMbar.toNat % 16 == 0 && (p.migrate || !p.strict)

/-- The participating dies in ascending order (R362). -/
def Packet.dies (p : Packet) : List Nat :=
  if p.partMask = 0 then natsFrom 0 16 else (natsFrom 0 16).filter p.partMask.getLsbD

/-! ### What a workgroup claims (R363) -/

/-- Workgroups of launches that hold resources of a core; the firmware's group is none (R402). -/
def State.resident (s : State) (core : Nat) : List Workgroup :=
  s.wgs.filter fun w => w.core == core && w.status != .saved && !w.firmware

/-- Whether a core holds firmware's reserve (R434). -/
def firmwareCore (core : Nat) : Bool := core % 8 == 0

/-- Whether a range is apart from each range of a list. -/
def apartFrom (lo n : Nat) (rs : List (Nat × Nat)) : Bool := rs.all fun r => r.2 == 0 || decide (lo + n ≤ r.1) || decide (r.1 + r.2 ≤ lo)

/-- The lowest free run of n below a limit: it begins at 0 or where a held range ends. -/
def lowestRun (n limit : Nat) (rs : List (Nat × Nat)) : Option Nat :=
  if n = 0 then some 0
  else minBy? id ((0 :: rs.map fun r => r.1 + r.2).filter fun lo => decide (lo + n ≤ limit) && apartFrom lo n rs)

def roundScratch (n : Nat) : Nat := ceilDiv n 4096 * 4096

def State.freeSlot (s : State) (core : Nat) : Option Nat :=
  (natsFrom 0 (if firmwareCore core then 63 else 64)).find? fun k => !(s.resident core).any (·.slot == k)

def State.freeScratch (s : State) (core bytes : Nat) : Option Nat :=
  lowestRun bytes (if firmwareCore core then 0x3C0000 else 0x400000) ((s.resident core).map fun w => (w.scrBase, w.scrBytes))

def State.freeTiles (s : State) (core n : Nat) : Option Nat :=
  lowestRun n 256 ((s.resident core).map fun w => (w.tileFirst, w.tiles))

def State.freeAccs (s : State) (core n : Nat) : Option (List Nat) :=
  let xs := (natsFrom 0 8).filter fun k => !(s.resident core).any (·.accs.contains k)
  if n ≤ xs.length then some (xs.take n) else none

/-- Free gang places of a pipe of a core; firmware holds place 0 of pipe 0 of a core 0. -/
def State.freePlaces (s : State) (core pipe : Nat) : List Nat :=
  (natsFrom 0 16).filter fun k =>
    !(firmwareCore core && pipe == 0 && k == 0) &&
    !s.groups.any fun g => g.pipe == pipe && g.place == k && (s.resident core).any (·.uid == g.wg)

/-- The lowest free run of a column outside the guest reserve, unless Midnight works on the column (R380). -/
def State.openRun (s : State) (c : Column) (ctx need : Nat) : Option Nat :=
  if s.barred c 0 then none else s.freeRun c need 0 (256 - s.guestGranules ctx)

/-- The lowest free runs of a pipe's first columns. -/
def State.columnRuns (s : State) (core pipe ctx slices demand : Nat) : Option (List Nat) :=
  (natsFrom 0 slices).mapM fun j => s.openRun { core := core, pipe := pipe, slot := j } ctx demand

/-- The pipe of a thread group: that with the most free places among those that can take it, the lowest at a tie. -/
def State.pipeFor (s : State) (core ctx slices demand : Nat) : Option (Nat × Nat × List Nat) :=
  maxBy? (fun c => (s.freePlaces core c.1).length)
    ((natsFrom 0 4).filterMap fun p =>
      match s.freePlaces core p, s.columnRuns core p ctx slices demand with
      | k :: _, some bs => some (p, k, bs)
      | _, _ => none)

/-! ### The start of slices (R201, R364) -/

/-- R201. -/
def seedOf (seedSr : Word) (work group slice lane : Nat) : Word :=
  let v := seedSr ^^^ (BitVec.ofNat 32 (512 * work + 32 * group + 4 * slice + lane) * 0x9E3779B9)
  if v = 0 then 1 else v

/-- The outermost frame at dispatch. -/
def Frame.outermost (base demand : Nat) (args : DWord) : Frame :=
  { Frame.new base demand 0 0 with outer := true, regs := [.u (lo32 args), .u (hi32 args)] ++ List.replicate (8 * demand - 2) (.u 0) }

/-- A slice at dispatch. -/
def Slice.start (uid group idx gang : Nat) (clock : DWord) (ctx : Nat) (p : Packet) (base : Nat) (seeds : L4 Word) : Slice :=
  { uid := uid, group := group, idx := idx, gang := gang, age := clock, readySince := clock, pc := p.entry,
    frames := [Frame.outermost base p.demand p.args], sof := List.replicate 16 (L4.ofFn fun _ => {}), lrf := List.replicate 4 (.u 0),
    seeds := seeds, sysCtx := BitVec.ofNat 32 ctx }

/-- Add a thread group with its slices, as one gang. -/
def State.addGroup (s : State) (w : Workgroup) (ctx : Nat) (p : Packet) (idx : Nat) : Option State :=
  match s.pipeFor w.core ctx p.slices p.demand with
  | none => none
  | some (pipe, place, bases) =>
    let (g, s) := s.fresh
    let (gang, s) := s.fresh
    let seed := (s.ctxOf ctx).seedSr
    let first := s.nextId
    let xs := bases.zipIdx.map fun b =>
      Slice.start (first + b.2) g b.2 gang s.clock ctx p b.1 (L4.ofFn fun l => seedOf seed w.work idx b.2 l)
    some { s with
      nextId := first + bases.length, groups := s.groups ++ [{ uid := g, wg := w.uid, idx := idx, pipe := pipe, place := place, born := g }],
      slices := s.slices ++ xs }

def State.addGroups (s : State) (w : Workgroup) (ctx : Nat) (p : Packet) : List Nat → Option State
  | [] => some s
  | k :: ks => (s.addGroup w ctx p k).bind fun s => State.addGroups s w ctx p ks

/-- Bytes of a range of the map read as zero, without poison. -/
def State.zeroRange (s : State) (pa n : Nat) : State :=
  { s with mem := s.mem.filter (fun c => !(decide (pa ≤ c.1) && decide (c.1 < pa + n))),
           poison := s.poison.filter (fun t => !(decide (pa / 32 ≤ t) && decide (t < (pa + n) / 32))),
           latentWords := s.latentWords.filter (fun w => !(decide (pa / 4 ≤ w) && decide (w < (pa + n) / 4))) }

/-- The state in which a fresh workgroup finds its allocation, sets and tiles (R364). -/
def State.clearFor (s : State) (w : Workgroup) : State :=
  let s := s.zeroRange (scratchPa w.core 0 + w.scrBase) w.scrBytes
  s.onEngines fun g =>
    { g with accs := g.accs.filter (fun a => !(a.core == w.core && w.accs.contains a.set)),
             tiles := g.tiles.filter fun t => !(t.core == w.core && decide (w.tileFirst ≤ t.entry) && decide (t.entry < w.tileFirst + w.tiles)) }

/-- R363, R364: dispatch workgroup `work` of a launch to a core, if everything it claims is free there. A core runs one
context (R402). -/
def State.place (s : State) (l : Launch) (work core : Nat) : Option State :=
  let p := l.pkt
  if (s.resident core).any fun w => s.launchCtx w.launch != l.ctx then none
  else
    match s.freeSlot core, s.freeScratch core (roundScratch p.scratch), s.freeTiles core p.tiles, s.freeAccs core p.acc with
    | some slot, some scr, some tile, some accs =>
      let (u, s) := s.fresh
      let w : Workgroup :=
        { uid := u, launch := l.id, work := work, core := core, slot := slot, scrBase := scr, scrBytes := roundScratch p.scratch,
          tileFirst := tile, tiles := p.tiles, accs := accs, producer := p.producer, tokens := List.replicate 8 {}, born := u }
      ({ s with wgs := s.wgs ++ [w] }.clearFor w).addGroups w l.ctx p (natsFrom 0 p.groups)
    | _, _, _, _ => none

/-- The part with every core empty, for the checks FIT and COOPFIT. -/
def State.emptied (s : State) : State := { State.reset with ctxs := s.ctxs }

/-- Workgroups of a launch that an empty core holds at once, 64 at most. -/
def State.capacity (s : State) (l : Launch) (core : Nat) : Nat → Nat
  | 0 => 0
  | n + 1 =>
    match s.place l 0 core with
    | some t => State.capacity t l core n + 1
    | none => 0

/-- Checks 5 and 6. A core other than a die's first has the most room. -/
def State.packetFits (s : State) (l : Launch) : Bool :=
  let e := { s.emptied with launches := [l] }
  (e.place l 0 1).isSome

def State.coopFits (s : State) (l : Launch) : Bool :=
  let e := { s.emptied with launches := [l] }
  !l.pkt.coop || decide (l.pkt.grid ≤ l.pkt.dies.length * (e.capacity l 0 64 + 7 * e.capacity l 1 64))

/-- The first check of R361 that a packet fails. -/
def State.packetError (s : State) (q : Nat) (l : Launch) (bs : List Byte) (readable : Bool) : Option Nat :=
  if !readable then some 1
  else if !packetZeros bs then some 2
  else if !l.pkt.inRange then some 3
  else if q / 8 < l.pkt.prio then some 4
  else if !s.packetFits l then some 5
  else if !s.coopFits l then some 6
  else if l.ctx = 0 ∨ (s.ctx? l.ctx).isNone then some 7
  else none

/-- Read a packet: its bytes, and whether the read met neither poison nor a bad address. -/
def State.readPacket (s : State) (ring n : Nat) : State × List Byte × Bool :=
  let pa := ring + 128 * n
  match placeOf pa with
  | .homed _ _ | .striped _ _ =>
    if ring % 128 ≠ 0 then (s, zeros 128, false)
    else
      let (s, a, p) := s.readHome pa 64 .normal
      let (s, b, q) := s.readHome (pa + 64) 64 .normal
      (s, a ++ b, !p && !q)
  | _ => (s, zeros 128, false)

/-- PACKET_ACCEPT (R358, R361, R362). -/
def execPacketAccept (queue : Nat) (s : State) : Host.Outcome State Fault Refusal :=
  if s.outside.fw.recovery || s.readerQueue != some queue then notNow "PACKET_ACCEPT"
  else
    let x := s.queueOf queue
    let s := s.served queue
    let event := fun (s : State) (code : Nat) (detail : DWord) =>
      s.postSchedule (srcDie 0) code none none (BitVec.ofNat 64 queue) detail
    if x.size < (x.tail - x.head).toNat then
      let head := x.tail - BitVec.ofNat 32 x.size
      .next (event ((s.setHead queue head).stopQueue queue 8) 4 (dword x.head head))
    else
      let (s, bs, readable) := s.readPacket x.ring (x.head.toNat % x.size)
      let (id, s) := s.fresh
      let l : Launch := { id := id, queue := queue, seq := x.head, ctx := x.ctx, pkt := Packet.ofBytes bs,
                          chunk := Nat.max 1 s.chunk.toNat, noSteal := s.duty 5 }
      let t := s.setHead queue (x.head + 1)
      match s.packetError queue l bs readable with
      | some code => .next (event (t.stopQueue queue code) 1 (x.head.setWidth 64))
      | none => .next { t.freshCode with launches := t.launches ++ [l] }

/-! ### Chunks (R362) -/

def Launch.chunks (l : Launch) : Nat := ceilDiv l.pkt.grid l.chunk

/-- The die that dispatches a chunk: its thief, else its owner. -/
def Launch.dieOf (l : Launch) (k : Nat) : Nat :=
  match l.stolen.lookup k with
  | some d => d
  | .none => nth 0 l.pkt.dies (k % l.pkt.dies.length)

def Launch.chunkStarted (l : Launch) (k : Nat) : Bool := l.started.any fun w => w / l.chunk == k

/-- Chunks of a die, ascending. -/
def Launch.dieChunks (l : Launch) (d : Nat) : List Nat := (natsFrom 0 l.chunks).filter fun k => l.dieOf k == d

/-- Unstarted chunks of a die. -/
def Launch.freshChunks (l : Launch) (d : Nat) : List Nat :=
  if l.terminated then [] else (l.dieChunks d).filter fun k => !l.chunkStarted k

/-- The next workgroup of a launch that a die dispatches. -/
def Launch.nextWork (l : Launch) (d : Nat) : Option Nat :=
  (l.dieChunks d).findSome? fun k =>
    (natsFrom (k * l.chunk) l.chunk).find? fun w => decide (w < l.pkt.grid) && !l.started.contains w

/-! ### Which launch may dispatch (R359, R365, R366, R414) -/

/-- Accepted launches in the order of R365: PRIO, then acceptance. -/
def State.byPriority (s : State) : List Launch :=
  s.launches.sortBy fun a b => decide (b.pkt.prio < a.pkt.prio) || (a.pkt.prio == b.pkt.prio && decide (a.id ≤ b.id))

/-- R359: the launches before it in its queue have completed, or, under OVERLAP, have dispatched every workgroup. -/
def State.inTurn (s : State) (l : Launch) : Bool :=
  s.launches.all fun p => !(p.queue == l.queue && decide (p.id < l.id)) ||
    (l.pkt.overlap && (p.terminated || decide (p.pkt.grid ≤ p.started.length)))

def State.savedOf (s : State) (l : Nat) : List Workgroup := s.wgs.filter fun w => w.launch == l && w.status == .saved

/-- A region that is still to be saved, or to be restored, before its context dispatches or resumes anything (R414). -/
def State.regionsDue (s : State) (ctx : Nat) : Bool :=
  !s.duty 7 && (s.engines.savedRegions.any (·.ctx == ctx) ||
    s.engines.regions.any fun r => r.ctx == ctx && (r.state == .draining || (r.state == .loading && r.slots != [])))

/-- Whether a launch may dispatch unstarted workgroups: none while one of its own is being pre-empted or is saved (R366). -/
def State.mayDispatch (s : State) (l : Launch) : Bool :=
  !l.terminated && s.inTurn l && !(s.wgs.any fun w => w.launch == l.id && w.status != .running) && !s.regionsDue l.ctx

/-- The cores of a die, beginning after the last one chosen. -/
def State.coresFrom (s : State) (die : Nat) : List Nat := (natsFrom 0 8).map fun j => 8 * die + (assoc 0 s.dieNext die + j) % 8

/-! ### WORKGROUP_DISPATCH (R362-R366, R369) -/

/-- The launch that some workgroups were pre-empted for has taken its room. -/
def State.roomTaken (s : State) (l : Nat) : State :=
  { s with wgs := s.wgs.map fun (w : Workgroup) => if w.yieldsTo == some l then { w with yieldsTo := none } else w }

def State.noteStart (s : State) (l work die core : Nat) : State :=
  let s := (s.onLaunch l fun x => { x with started := x.started ++ [work], waits := x.waits.filter (·.1 != die) }).roomTaken l
  { s with dieNext := assocSet s.dieNext die ((core % 8 + 1) % 8) }

/-- The core of a die that takes a workgroup, in the order of R363, with its claim. A core whose saved units are parked
on a fault takes none of that context. -/
def State.coreFor (s : State) (l : Launch) (work die : Nat) : Option (Nat × State) :=
  (s.coresFrom die).findSome? fun c => if s.isParked (.core c) then none else (s.place l work c).map fun t => (c, t)

/-- What a dispatch comes to: workgroups have started; it waits for what its cores are to have first; or none fits. -/
def State.startWith (s : State) (b : Brought) (start : State → Option State) : Option State :=
  match b with
  | .here t => start t
  | .stopped p e => (s.clearDeclined p.who).requestFor p e

/-- Start a workgroup of a launch on a core. Its start is an acquire at scope pkg, so that it sees what launches before it have
written (R359, R457). -/
def State.startOn (s : State) (l : Launch) (work die core : Nat) : Option State :=
  (s.place l work core).map fun t => (t.noteStart l.id work die core).flashInvalidate (quadOfCore core)

/-- Dispatch one workgroup of a launch on a die; none when no core fits it. -/
def State.dispatchOne (s : State) (l : Launch) (work die : Nat) : Option State :=
  (s.coreFor l work die).bind fun c => s.startWith (s.bringUnits c.1 l.ctx) fun t => t.startOn l work die c.1

/-- The cores that the workgroups of a cooperative launch take together, each on its own die; none where they do not all fit. -/
def State.planAll (s : State) (l : Launch) : List Nat → Option (List (Nat × Nat × Nat))
  | [] => some []
  | w :: ws =>
    let die := l.dieOf (w / l.chunk)
    (s.coreFor l w die).bind fun c => (State.planAll (c.2.noteStart l.id w die c.1) l ws).map fun r => (w, die, c.1) :: r

/-- Start planned workgroups. -/
def State.startAll (s : State) (l : Launch) : List (Nat × Nat × Nat) → Option State
  | [] => some s
  | (w, die, c) :: rest => (s.startOn l w die c).bind fun t => State.startAll t l rest

/-- A cooperative launch: every workgroup at once, or nothing (R369). -/
def State.dispatchAll (s : State) (l : Launch) : Option State :=
  (s.planAll l (natsFrom 0 l.pkt.grid)).bind fun r =>
    s.startWith (s.bringAll l.ctx ((r.map fun x => x.2.2).eraseDups)) fun t => t.startAll l r

/-- The granules that a saved slice needs at once for its top frame, none where it stays spilled or has exited. -/
def Slice.backNeed (x : Slice) : Nat := if x.status == .saved && (x.spill.map (·.2)).getD 0 == 0 then x.top.demand else 0

/-- The lowest free run for each slice of a group in the columns of a pipe. -/
def State.backRuns (s : State) (core pipe ctx : Nat) (xs : List Slice) : Option (List (Nat × Nat)) :=
  (xs.filter fun x => x.backNeed != 0).mapM fun x =>
    (s.openRun { core := core, pipe := pipe, slot := x.idx } ctx x.backNeed).map fun b => (x.uid, b)

/-- Put a slice's top frame at a run. -/
def Slice.stand (x : Slice) (base : Nat) : Slice := x.setTop { x.top with base := base, slot := none }

/-- Give the groups of a saved workgroup pipes, places and runs again, each as at dispatch (R363, R366): where their slices'
top frames come to stand. -/
def State.regroup (s : State) (w : Workgroup) (ctx : Nat) : List Group → Option (State × List (Nat × Nat))
  | [] => some (s, [])
  | g :: gs =>
    let xs := s.groupSlices g.uid
    match maxBy? (fun (c : Nat × Nat × List (Nat × Nat)) => (s.freePlaces w.core c.1).length)
        ((natsFrom 0 4).filterMap fun p =>
          match s.freePlaces w.core p, s.backRuns w.core p ctx xs with
          | k :: _, some bs => some (p, k, bs)
          | _, _ => none) with
    | none => none
    | some (pipe, place, bs) =>
      let s := s.onGroup g.uid fun g => { g with pipe := pipe, place := place }
      let s := bs.foldl (fun s b => s.onSlice b.1 fun x => x.stand b.2) s
      (State.regroup s w ctx gs).map fun r => (r.1, bs ++ r.2)

/-- The groups of a workgroup in index order. -/
def State.groupsOf (s : State) (w : Nat) : List Group := (s.groups.filter fun g => g.wg == w).sortBy fun a b => a.idx ≤ b.idx

/-- A saved workgroup with its slot, pipes and places taken on its core again. -/
def State.seat (s : State) (w : Workgroup) : Option (State × List (Nat × Nat)) :=
  match s.freeSlot w.core with
  | none => none
  | some k =>
    let gs := s.groupsOf w.uid
    let s := gs.foldl (fun s g => s.onGroup g.uid fun g => { g with place := 16 }) s
    (s.onWg w.uid fun v => { v with status := .running, slot := k }).regroup w (s.launchCtx w.launch) gs

/-- A saved workgroup's claims that its core must have free (R366): slot, allocation, tile entries, accumulator sets, queues,
places and granules. -/
def State.fitsBack (s : State) (w : Workgroup) : Bool :=
  let queues := (s.engines.channels.filter fun c => c.wg == some w.uid).map (·.id)
  let rs := s.resident w.core
  let ctx := s.launchCtx w.launch
  rs.all (fun x => s.launchCtx x.launch == ctx) && !s.isParked (.core w.core) &&
  !(s.engines.channels.any fun c => !c.saved && queues.contains c.id) && (s.seat w).isSome &&
  apartFrom w.scrBase w.scrBytes (rs.map fun x => (x.scrBase, x.scrBytes)) && apartFrom w.tileFirst w.tiles (rs.map fun x => (x.tileFirst, x.tiles)) &&
  w.accs.all fun a => !rs.any (·.accs.contains a)

/-- A saved workgroup yields its room to the launch that it was pre-empted for, while that waits on the die and would fit
the core (R365, R456; log entry 21). -/
def State.yields (s : State) (w : Workgroup) : Bool :=
  match w.yieldsTo.bind s.launch? with
  | none => false
  | some l =>
    match s.savedOf l.id with
    | [] => s.mayDispatch l && ((l.nextWork (dieOfCore w.core)).bind fun k => s.place l k w.core).isSome
    | vs => vs.any fun v => v.core == w.core && s.fitsBack v

/-- Whether saved workgroups all find their claims free, each beside those before it (R369). -/
def State.fitTogether (s : State) : List Workgroup → Bool
  | [] => true
  | w :: ws => s.fitsBack w && (match s.seat w with
    | some t => State.fitTogether t.1 ws
    | none => false)

/-- The saved workgroups that come back together with one: itself, or its whole cooperative launch. -/
def State.backTogether (s : State) (w : Workgroup) : List Workgroup :=
  if ((s.launch? w.launch).map (·.pkt.coop)).getD false then s.savedOf w.launch else [w]

/-- Whether a saved workgroup may be resumed: it is the first dispatched of its launch's pre-empted ones, those still being
saved among them, and everything that comes back with it fits; a cooperative launch comes back once it is saved whole (R365,
R366, R369, R414). -/
def State.resumeDue (s : State) (w : Workgroup) : Bool :=
  w.status == .saved && !s.regionsDue (s.launchCtx w.launch) &&
  (s.wgs.all fun v => v.launch != w.launch || v.status == .running || decide (w.born ≤ v.born)) &&
  !(((s.launch? w.launch).map (·.pkt.coop)).getD false && s.wgs.any fun v => v.launch == w.launch && v.status == .stopping) &&
  s.fitTogether (s.backTogether w) && (s.backTogether w).all fun v => !s.yields v

/-- Pre-empted workgroups of a die come before anything new (R365). -/
def State.resumesFirst (s : State) (die : Nat) : Bool := s.wgs.any fun w => dieOfCore w.core == die && s.resumeDue w

/-- Whether a launch has workgroups that it could start with a step of a die: its next there, or, of a cooperative one that the
die takes part in, all of them. -/
def State.couldStart (s : State) (l : Launch) (die : Nat) : Option State :=
  if !s.mayDispatch l then none
  else if l.pkt.coop then if l.started = [] ∧ l.pkt.dies.contains die then s.dispatchAll l else none
  else (l.nextWork die).bind fun w => s.dispatchOne l w die

/-- Whether something comes before a launch on a die (R365): a pre-empted workgroup, or a launch of higher PRIO, or accepted
earlier, that could start there. -/
def State.comesFirst (s : State) (l : Launch) (die : Nat) : Bool :=
  s.resumesFirst die || s.launches.any fun o =>
    decide (l.pkt.prio < o.pkt.prio ∨ (l.pkt.prio = o.pkt.prio ∧ o.id < l.id)) && (s.couldStart o die).isSome

/-- The first launch, in the order of R365, that could start something with a step of a die starts it; a cooperative one takes
its dies together, each where nothing comes before it (R365, R369). -/
def State.dispatchFirst (s : State) (die : Nat) : List Launch → Option State
  | [] => none
  | l :: ls =>
    match s.couldStart l die with
    | none => State.dispatchFirst s die ls
    | some t => if l.pkt.coop && l.pkt.dies.any (s.comesFirst l) then none else some t

def execWorkgroupDispatch (die : Nat) (s : State) : Host.Outcome State Fault Refusal :=
  match if s.resumesFirst die then none else s.dispatchFirst die s.byPriority with
  | some s => .next s
  | none => notNow "WORKGROUP_DISPATCH"

/-! ### CHUNK_STEAL (R362) -/

/-- Launches that a thief may steal from: of a context, and not static. -/
def State.stealable (s : State) (ctx : Nat) : List Launch :=
  s.byPriority.filter fun l => l.ctx == ctx && !l.noSteal && !l.terminated

/-- A distributor that is dry for a context: no chunk of its own or stolen is unstarted. -/
def State.dryFor (s : State) (die ctx : Nat) : Bool := s.launches.all fun l => l.ctx != ctx || (l.freshChunks die).isEmpty

/-- The victim's grant: the launch and the chunks, highest-numbered first. -/
def State.grant (s : State) (ctx victim : Nat) : Option (Launch × List Nat) :=
  (s.stealable ctx).findSome? fun l =>
    let ks := l.freshChunks victim
    if ks.isEmpty then none else some (l, ks.reverse.take (ceilDiv ks.length 2))

/-- The first grant for a thief: a context that it may steal for, and the nearest victim with chunks among the dies that
take part in the launch. -/
def State.theft (s : State) (die : Nat) : Option (Launch × List Nat) :=
  ((s.byPriority.map (·.ctx)).eraseDups).findSome? fun ctx =>
    if s.dryFor die ctx then
      (diesByDistance die).findSome? fun v => (s.grant ctx v).filter fun g => g.1.pkt.dies.contains die
    else none

def execChunkSteal (die : Nat) (s : State) : Host.Outcome State Fault Refusal :=
  match s.theft die with
  | none => notNow "CHUNK_STEAL"
  | some (l, ks) =>
    .next (s.onLaunch l.id fun x => { x with stolen := ks.map (fun k => (k, die)) ++ x.stolen.filter (fun k => !ks.contains k.1) })

/-! ### The end of workgroups and launches (R319, R342, R359) -/

/-- A workgroup has ended: its slices have exited, their remote accesses have been answered, their parked accesses are
performed or declined, and its copies and matrix operations are done. -/
def State.wgOver (s : State) (w : Workgroup) : Bool :=
  w.status == .running && !w.firmware &&
  (s.wgSlices w.uid).all (fun x => x.status == .exited && x.remoteOut.isEmpty && x.parked.all fun p => (s.declinedOf (.parked x.uid p.id)).isSome) &&
  !s.engines.copies.any (·.wg == w.uid) && !s.engines.matQueue.any (·.wg == w.uid)

/-- Give back what a workgroup holds; its slices' accesses are performed first (R319). -/
def State.releaseWg (s : State) (w : Workgroup) : State :=
  let us := (s.wgSlices w.uid).map (·.uid)
  let others := s.wgs.filter fun v => v.uid != w.uid
  let s := (s.drainQuad (quadOfCore w.core)).flushDeferred fun d => d.slices.any us.contains
  let s := s.unbindQueues w.uid
  let s := us.foldl (fun s u => s.onCaches fun c =>
    { c with declined := c.declined.filter fun d => match d.ask.who with
        | .parked v _ => v != u
        | .slice v => v != u
        | _ => true }) s
  let s := s.onEngines fun g =>
    { g with tiles := g.tiles.filter fun t => !(t.core == w.core && decide (w.tileFirst ≤ t.entry) && decide (t.entry < w.tileFirst + w.tiles)),
             accs := g.accs.filter fun a => !(a.core == w.core && w.accs.contains a.set) }
  let s := s.onLaunch w.launch fun l => { l with exited := l.exited + 1 }
  { s with
    slices := s.slices.filter (fun x => !us.contains x.uid), groups := s.groups.filter (fun g => g.wg != w.uid),
    wgs := others }

/-- Release workgroups that have ended, one after another. -/
def State.reapFrom (s : State) : Nat → State
  | 0 => s
  | n + 1 =>
    match s.wgs.find? s.wgOver with
    | some w => State.reapFrom (s.releaseWg w) n
    | none => s

/-- Workgroups that have ended give back their resources. -/
def State.reap (s : State) : State := s.reapFrom s.wgs.length

/-- A launch that is over: every workgroup has exited, or it was terminated and none is left; the accesses of its slices
and its near-memory commands are performed. -/
def State.launchOver (s : State) (l : Launch) : Bool :=
  (if l.terminated then decide (l.started.length ≤ l.exited) else decide (l.pkt.grid ≤ l.exited)) &&
  !s.wgs.any (·.launch == l.id) && !s.engines.cmds.any (·.launch == l.id)

/-- The party of a launch's completion: the host's side of die 0. -/
def launchParty (ctx : Nat) : Party := { who := .host, unit := .die 0, ctx := ctx, alias_ := none }

def execLaunchComplete (launch : Nat) (s : State) : Host.Outcome State Fault Refusal :=
  match s.launch? launch with
  | none => notNow "LAUNCH_COMPLETE"
  | some l =>
    if !s.launchOver l then notNow "LAUNCH_COMPLETE"
    else
      let s := s.drainWts fun _ => true
      let a := queueBlock l.queue + 0x18
      let s := s.setWord a (s.word a + 1)
      let s := s.doneArrive (launchParty l.ctx) l.pkt.doneMbar
      .next { s with launches := s.launches.filter fun x => x.id != launch }

/-! ### TIME_SLICE (R368, R369, R402) -/

/-- Workgroups that a time-slicer may remove for a priority: running, of a lower PRIO, and not spared (R407). -/
def State.removable (s : State) (core prio : Nat) : List Workgroup :=
  (s.resident core).filter fun w =>
    w.status == .running && decide (((s.launch? w.launch).map (·.pkt.prio)).getD 0 < prio) &&
    (w.spare == 0 || decide (w.spare.toNat ≤ s.clock.toNat))

/-- The order of removal: lowest PRIO first, then the most recently dispatched. -/
def State.removalOrder (s : State) (ws : List Workgroup) : List Workgroup :=
  let prio := fun (w : Workgroup) => ((s.launch? w.launch).map (·.pkt.prio)).getD 0
  ws.sortBy fun a b => decide (prio a < prio b) || (prio a == prio b && decide (b.born ≤ a.born))

/-- The part without some workgroups, to try a claim. -/
def State.without (s : State) (ws : List Nat) : State :=
  { s with
    slices := s.slices.filter (fun x => !(s.groups.any fun g => g.uid == x.group && ws.contains g.wg)),
    wgs := s.wgs.filter fun w => !ws.contains w.uid }

/-- The choices of n elements of a list, those of earlier elements first. -/
def choicesOf {α : Type} : Nat → List α → List (List α)
  | 0, _ => [[]]
  | _ + 1, [] => []
  | n + 1, x :: xs => (choicesOf n xs).map (x :: ·) ++ choicesOf (n + 1) xs

/-- The fewest workgroups whose removal makes room, the earliest in the order of removal. -/
def State.victimsIn (s : State) (fits : State → Bool) (order : List Workgroup) : Option (List Nat) :=
  let us := order.map (·.uid)
  if !fits (s.without us) then none
  else (natsFrom 1 us.length).findSome? fun n => (choicesOf n us).find? fun ws => fits (s.without ws)

/-- A workgroup that waits on a die: an unstarted one of a launch, or a saved one with the core it needs; its wait's
start. -/
structure Waiter where
  prio : Nat
  cores : List Nat
  since : Option DWord
  launch : Option (Launch × Nat)
  saved : Option Workgroup
  deriving DecidableEq, Repr

/-- Whether a waiter fits a core. -/
def Waiter.fits (x : Waiter) (core : Nat) (s : State) : Bool :=
  match x.launch, x.saved with
  | some (l, w), _ => (s.place l w core).isSome
  | none, some w => s.fitsBack w
  | none, none => false

/-- The workgroups that wait on a die, in the order of R365. -/
def State.waiters (s : State) (die : Nat) : List Waiter :=
  let saved := (s.wgs.filter fun w => w.status == .saved && dieOfCore w.core == die).map fun w =>
    ({ prio := ((s.launch? w.launch).map (·.pkt.prio)).getD 0, cores := [w.core], since := w.waits, launch := none, saved := some w } : Waiter)
  let fresh := (s.byPriority.filter s.mayDispatch).filterMap fun l => (l.nextWork die).map fun w =>
    ({ prio := l.pkt.prio, cores := natsFrom (8 * die) 8, since := l.waits.lookup die, launch := some (l, w), saved := none } : Waiter)
  saved ++ fresh

/-- The launch of a waiter. -/
def Waiter.launchId (x : Waiter) : Option Nat :=
  match x.launch, x.saved with
  | some (l, _), _ => some l.id
  | none, some w => some w.launch
  | none, none => none

/-- Note the start of a wait. -/
def State.noteWait (s : State) (die : Nat) (x : Waiter) : State :=
  match x.launch, x.saved with
  | some (l, _), _ => s.onLaunch l.id fun y => { y with waits := (die, s.clock) :: y.waits }
  | none, some w => s.onWg w.uid fun v => { v with waits := some s.clock }
  | none, none => s

/-- Whether PREEMPT_QUANTUM has passed since a wait's start and since the die's last pre-emption. -/
def State.quantumPast (s : State) (die : Nat) (since : DWord) : Bool :=
  decide (s.quantum.toNat ≤ (s.clock - since).toNat) &&
  (match s.lastPreempt.lookup die with
   | some c => decide (s.quantum.toNat ≤ (s.clock - c).toNat)
   | none => true)

/-- A cooperative launch is pre-empted whole (R369). -/
def State.wholeCoops (s : State) (ws : List Nat) : List Nat :=
  (ws.flatMap fun u =>
    match s.wg? u with
    | none => []
    | some w =>
      if ((s.launch? w.launch).map (·.pkt.coop)).getD false then (s.wgs.filter fun v => v.launch == w.launch && v.status == .running).map (·.uid)
      else [u]).eraseDups

/-- Pre-emption of a core begins: a slice on its way there, or granted its place, is to be sent home at its arrival (R393). -/
def Slice.evictTo (x : Slice) (core : Nat) : Slice :=
  { x with mig := x.mig.map fun (m : Migration) => match m.phase with
    | .granted _ _ | .departing _ _ | .flying _ _ => if m.dest == core then { m with evicted := true } else m
    | _ => m }

/-- The same for Midnight of the core: it ends, with the frame that it is writing (R380). -/
def State.stopMidnight (s : State) (core : Nat) : State :=
  s.setMidnight core (((s.midnight? core).filter fun m => m.busy.isSome).map fun m => { m with stops := true })

/-- Issue stops for workgroups (R404 step 1), which yield to a launch. -/
def State.stopWgs (s : State) (ws : List Nat) (for_ : Option Nat) : State :=
  ws.foldl (fun s u => match s.wg? u with
    | some w =>
      let s := (s.onWg u fun v => { v with status := .stopping, yieldsTo := for_ }).stopMidnight w.core
      { s with slices := s.slices.map fun (x : Slice) => x.evictTo w.core }
    | none => s) s

/-- The pre-emption that a waiter is due: the lowest core on which removals make room, and the removals. -/
def State.preemption (s : State) (x : Waiter) : Option (List Nat) :=
  x.cores.findSome? fun c => s.victimsIn (x.fits c) (s.removalOrder (s.removable c x.prio))

def execTimeSlice (die : Nat) (s : State) : Host.Outcome State Fault Refusal :=
  if s.duty 7 || s.wgs.any (fun w => w.status == .stopping && dieOfCore w.core == die) then notNow "TIME_SLICE"
  else
    let ws := (s.waiters die).filter fun x => !x.cores.any fun c => x.fits c s
    match ws.find? (·.since.isNone) with
    | some x => .next (s.noteWait die x)
    | none =>
      match ws.findSome? fun x => if s.quantumPast die (x.since.getD s.clock) then (s.preemption x).map fun us => (us, x) else none with
      | some (us, x) => .next (s.stopWgs (s.wholeCoops us) x.launchId)
      | none => notNow "TIME_SLICE"

end Sys2Proof.Machine
end

