-- ==== Sys2Proof/Machine/Saver.lean ====
section
/-! DEFINITION. The pre-emption of a workgroup: its save, the context switch, and its resumption
(spec/18_faults_and_preemption.md R402-R412). -/

namespace Sys2Proof.Machine

/-! ### The parts of a workgroup (R408-R411) -/

/-- Offsets of poisoned sectors among n bytes at a physical address. -/
def State.poisonIn (s : State) (pa n : Nat) : List Nat :=
  ((natsFrom 0 (n / 32)).filter fun k => s.poison.contains (pa / 32 + k)).map (32 * ·)

/-- The words of accumulator sets, in ascending physical order. -/
def State.accBytes (s : State) (core : Nat) (sets : List Nat) : List Byte :=
  sets.flatMap fun k => (natsFrom 0 setSize).flatMap fun n => wordBytes ((s.accSet core k).word n)

/-- Poisoned sectors of saved sets: every one of a poisoned set. -/
def State.accPoison (s : State) (core : Nat) (sets : List Nat) : List Nat :=
  sets.zipIdx.flatMap fun k => if (s.accSet core k.1).poison then (natsFrom 0 (setBytes / 32)).map fun j => k.2 * setBytes + 32 * j else []

/-- A token word (R408). -/
def Token.word (t : Token) : Nat :=
  let pend := t.sealed.foldl (fun a b => a ||| b.2.2) t.openStatus
  pend.toNat * 2 ^ 41 + t.acc.toNat * 2 ^ 37 + b2n (!t.openBatch.isEmpty) * 2 ^ 36 + t.sealed.length % 16 * 2 ^ 32 +
  (match t.sealed with | b :: _ => b.1 | [] => 0) % 2 ^ 16 * 2 ^ 16 + t.next % 2 ^ 16

/-- The batch of a copy: 0 while in the open batch. -/
def Token.batchOf (t : Token) (id : Nat) : Nat := ((t.sealed.find? fun b => b.2.1.contains id).map (·.1)).getD 0

/-- A parked-access record (R410). -/
def Parked.record (p : Parked) : List Byte :=
  wordBytes ((p.instr.pfx.map Pfx.word).getD 0) ++ wordBytes (baseWord p.instr) ++ u8 p.lanes.toNat ++ u8 p.subcode ++ u16 p.fdepth ++ u32 0 ++
  (p.addr.toList.flatMap fun a => u64 a.toNat) ++ (p.data.toList.flatMap fun ws => (padTo 16 (ws.flatMap fun w => wordBytes w.val)).take 16) ++ zeros 16

/-- A parked-copy record (R411). -/
def Copy.record (c : Copy) (t : Token) : List Byte :=
  u8 c.dir.code.toNat ++ u8 c.token ++ u16 (t.batchOf c.id) ++ wordBytes c.desc ++ u64 (c.mbar.getD 0).toNat ++ [c.gen.getD 0] ++ u8 (b2n c.chain.isSome) ++ zeros 2 ++
  (match c.chain with
   | some (cmd, roof, aoff, _) => wordBytes cmd ++ wordBytes roof ++ wordBytes aoff
   | none => zeros 12) ++
  u64 (c.pos - b2n c.blockDue) ++ wordBytes (if c.apr.conv && c.apr.crm == crmRst then c.rstate else 0) ++ zeros 84 ++ c.apr.bytes ++
  ((c.apr2.map Apr.bytes).getD (zeros 128))

/-- The binding word of a queue (R343). -/
def Channel.binding (c : Channel) : Nat := chanIndex c.id % 8 + 8 * b2n c.inbound + 16 * c.fmt

/-- A queue record (R408). -/
def queueRecord (c : Option Channel) : List Byte :=
  match c with
  | none => zeros 528
  | some c =>
    let ts := if c.inbound then c.inTok else c.outTok
    u32 c.binding ++ wordBytes c.peer ++ u32 ts.length ++ u32 0 ++ padTo 512 ((ts.take 64).flatMap Tok.saved)

/-- A slice state block (R409). -/
def Slice.block_ (x : Slice) (rcd park : Nat) : List Byte :=
  let t := x.tstate.getD { m0 := 0, fmt := 0, fdepth := 0 }
  let midnight := decide (0 < (x.spill.map (·.2)).getD 0)
  u32 rcd ++ u32 park ++ u8 x.parked.length ++
  u8 (b2n (!x.live) + 2 * b2n midnight + 4 * b2n x.tstate.isSome + 16 * t.m0.toNat) ++ u16 t.fdepth ++ wordBytes x.fmt ++
  u32 (((x.masks.tail).zipIdx.map fun m => m.1.toNat * 2 ^ (4 * m.2)).sum) ++ wordBytes t.fmt ++ u32 x.nmcOut.length ++ u32 0 ++
  (x.seeds.toList.flatMap wordBytes) ++ zeros 16

/-- A thread-group block (R409). -/
def State.groupBlock (s : State) (g : Group) (slots : List (Nat × Nat × Nat)) : List Byte :=
  let xs := s.groupSlices g.uid
  let gang := fun (j : Nat) => match xs.find? (·.idx == j) with
    | some x => if x.live then ((minBy? id ((xs.filter fun y => y.live && y.gang == x.gang).map (·.idx))).getD j) else 0xFF
    | none => 0xFF
  wordBytes g.fpflags ++ zeros 4 ++ ((natsFrom 0 8).flatMap fun j => u8 (gang j)) ++ zeros 48 ++
  (natsFrom 0 8).flatMap fun j => match xs.find? (·.idx == j) with
    | some x => let k := (slots.lookup x.uid).getD (0, 0); x.block_ k.1 k.2
    | none => padTo 64 (zeros 9 ++ u8 1)

/-! ### Saving slices (R191, R404) -/

/-- Save one slice: its frame records, slice record and parked accesses; its slots are the slice record's and the parked
records'. A slice spilled whole keeps its record (R409). -/
def State.saveSlice (s : State) (p : Party) (x : Slice) : Except SaveErr (State × Nat × List Nat) := do
  let e := s.env x
  let (s, parks) ← s.writeIf p (!x.parked.isEmpty) (x.parked.flatMap Parked.record) []
  if !x.live then return (s, 0, parks)
  else if x.status == .spilled then
    let s := s.setSlice { x with status := .saved }
    return (s, (x.spill.map (·.1)).getD 0, parks)
  else
    let (s, y) ← Got.save (s.spillFrames p x x.residentFrames)
    let wdog := x.waited s.clock
    let (s, k) ← s.writeRecord p (y.record e.launch.pkt.entry (y.top.slot.getD 0) (wdog % 2 ^ 32)) []
    let slot := k.headD 0
    let s := s.setSlice { y.clearLocal with
      status := .saved, spill := some (slot, 0), wdog := wdog, since := none, mbar := [], run := none, held := x.blockedNeed }
    return (s, slot, parks)

/-- Save slices: for each the slots of its slice record and of its parked records, and the slots to be freed at restore. -/
def State.saveSlices (s : State) (p : Party) : List Nat → Except SaveErr (State × List (Nat × Nat × Nat) × List Nat)
  | [] => .ok (s, [], [])
  | u :: us =>
    match s.slice? u with
    | none => State.saveSlices s p us
    | some x => do
      let (s, k, parks) ← s.saveSlice p x
      let (s, more, slots) ← State.saveSlices s p us
      return (s, (u, k, parks.headD 0) :: more, parks ++ slots)

/-! ### Regions of a context that leaves (R414) -/

/-- Regions that drain when a context leaves the last core of the part (R414). -/
def State.drainLeft (s : State) (ctx : Nat) : State :=
  if s.duty 7 || (natsFrom 0 128).any (fun c => s.runsCtx c ctx) then s
  else
    match (s.engines.regions.filter fun r => r.ctx == ctx && r.state == .running).map fun r => (r.stack, r.first) with
    | [] => s
    | ks => s.startDrain ks

/-! ### WORKGROUP_SAVE (R404, R407) -/

/-- Slices that are to come home before the save: the workgroup's own, and, with the last workgroup of its context on the
core, the guests there (R404 steps 1, 3 and 4). -/
def State.toRecall (s : State) (w : Workgroup) : List Slice :=
  let mine := fun (x : Slice) => (s.env x).wg.uid == w.uid
  let last := (s.resident w.core).all (·.uid == w.uid)
  s.slices.filter fun x =>
    x.live && (mine x || (last && (match x.guest with | some g => g.host == w.core | none => false))) &&
    (match x.mig.map fun (m : Migration) => m.phase with
     | none => x.guest.isSome
     | some (.flying _ _) | some (.returning _) => false
     | some _ => true)

/-- Cancel a departure that has not been sent, and send a guest home. -/
def Slice.recall (x : Slice) (origin : Nat) : Slice :=
  let y := if x.mig.isSome then { x with mig := none, status := .ready } else x
  if y.guest.isSome then y.startReturn origin 1 none else y

/-- Whether every slice that the save concerns stands at home, and no continuation is on its way. -/
def State.allHome (s : State) (w : Workgroup) : Bool :=
  let last := (s.resident w.core).all (·.uid == w.uid)
  s.slices.all fun x => !x.live ||
    (((s.env x).wg.uid != w.uid || (x.guest.isNone && x.mig.isNone && x.status != .remote && x.remoteOut.isEmpty)) &&
     (!last || !((match x.guest with | some g => g.host == w.core | none => false) ||
       (match x.mig with
        | some m => m.dest == w.core && (match m.phase with | .flying _ _ => true | _ => false)
        | none => false))))

/-- Copies of a workgroup that are parked on a fault and not yet set aside. -/
def State.parkedCopies (s : State) (w : Workgroup) : List Copy :=
  s.engines.copies.filter fun c => c.wg == w.uid && !c.held && !c.landed && s.isParked (.copy c.id)

/-- Withdraw a requester from the fault records and the misses; one without a request is gone. -/
def State.withdraw (s : State) (who : Requester) : State :=
  s.onCaches fun c =>
    { c with faults := (c.faults.map fun f => { f with asks := f.asks.filter (·.who != who) }).filter fun f => f.asks != [],
             misses := (c.misses.map fun m => { m with asks := m.asks.filter (·.who != who) }).filter fun m => m.asks != [],
             stalled := c.stalled.filter (·.who != who) }

/-- Set a parked copy aside (R404 step 2); the bytes that it has gathered are written first. -/
def State.holdCopy (s : State) (id : Nat) : State :=
  match s.engines.copies.find? (·.id == id) with
  | none => s
  | some c =>
    let (s, c) := s.flushCopy c
    (s.withdraw (.copy id)).onEngines fun g => { g with copies := updateWhere (·.id == id) (fun _ => { c with held := true }) g.copies }

/-- The header of a save record (R408). -/
def Workgroup.header (w : Workgroup) (l : Launch) (groups scr acc tg copy ncopy queue tile : Nat) : List Byte :=
  u32 0x57535631 ++ u8 w.core ++ u8 w.slot ++ u8 groups ++ u8 ((w.accs.map (2 ^ ·)).sum) ++ u32 w.work ++ u8 l.queue ++ zeros 3 ++
  wordBytes l.seq ++ u32 w.scrBase ++ u32 w.scrBytes ++ u16 w.tileFirst ++ u16 w.tiles ++ u32 scr ++ u32 acc ++ u32 tg ++ u32 copy ++
  u16 ncopy ++ zeros 2 ++ u32 queue ++ u32 tile ++ u32 w.copies ++ ((natsFrom 0 8).flatMap fun k => u64 (w.token k).word)

/-- Write everything of a workgroup and free what it held; with the last of its context the core switches. A full
saved-allocation table abandons the save (R406; DESIGN CHOICE, log 29). -/
def State.saveAll (s : State) (w : Workgroup) : Except SaveErr State := do
  let l := (s.launch? w.launch).getD Launch.none
  let p := saveParty w.uid w.core l.ctx
  let xs := s.wgSlices w.uid
  let s := xs.foldl (fun s x => if x.live then s.releaseAt (s.env x) x .pkg else s) s
  let s := ((s.drainQuad (quadOfCore w.core)).flushDeferred fun d => xs.any fun x => d.slices.contains x.uid).quadClean (quadOfCore w.core)
  let scrPa := scratchPa w.core 0 + w.scrBase
  let s := s.meetRange w.core scrPa w.scrBytes
  let (s, head) ← Got.save (s.claimSlots p 1)
  let (s, scr) ← s.writeIf p (w.scrBytes != 0) (s.peek scrPa w.scrBytes) (s.poisonIn scrPa w.scrBytes)
  let sets := w.accs.sortBy (· ≤ ·)
  let (s, acc) ← s.writeIf p (!sets.isEmpty) (s.accBytes w.core sets) (s.accPoison w.core sets)
  let (s, slots, parks) ← s.saveSlices p (xs.map (·.uid))
  let gs := s.groupsOf w.uid
  let (s, tg) ← s.writeRecord p (gs.flatMap fun g => s.groupBlock g slots) []
  let cs := s.engines.copies.filter (·.wg == w.uid)
  let (s, copy) ← s.writeIf p (!cs.isEmpty) (cs.flatMap fun c => c.record (w.token c.token)) []
  let qs := s.engines.channels.filter fun c => c.wg == some w.uid && !c.saved
  let (s, queue) ← s.writeIf p (!qs.isEmpty) ((natsFrom 0 8).flatMap fun q => queueRecord (qs.find? fun c => chanIndex c.id % 8 == q)) []
  let tiles := s.engines.tiles.filter fun t => t.core == w.core && decide (w.tileFirst ≤ t.entry) && decide (t.entry < w.tileFirst + w.tiles)
  let entry := fun (k : Nat) => ((tiles.find? fun t => t.entry == w.tileFirst + k).map fun t => t.word.toNat).getD 0
  let (s, tile) ← s.writeIf p (w.tiles != 0) ((natsFrom 0 w.tiles).flatMap fun k => u64 (entry k)) []
  let header := w.header l gs.length (scr.headD 0) (acc.headD 0) (tg.headD 0) (copy.headD 0) cs.length (queue.headD 0) (tile.headD 0)
  let (s, _) ← Got.save (s.slotWrite p head 0 (padTo 2048 header))
  let s ← if (s.resident w.core).all (·.uid == w.uid) then s.switchOut p w.core else .ok s
  if w.scrBytes != 0 && decide (64 ≤ (s.heldScratch.filter (·.1 == w.core)).length) then throw .full
  let s := s.onEngines fun g =>
    { g with tiles := g.tiles.filter (fun t => !tiles.contains t), savedTiles := g.savedTiles ++ tiles.map fun t => (w.uid, t),
             accs := g.accs.filter (fun a => !(a.core == w.core && w.accs.contains a.set)),
             channels := updateWhere (fun c => c.wg == some w.uid) (fun c => { c with saved := true }) g.channels }
  let s := s.onWg w.uid fun v => { v with
    status := .saved, saveSlot := some head, saveSlots := [head] ++ scr ++ acc ++ tg ++ copy ++ queue ++ tile ++ parks, waits := none }
  let s := { s with
    heldScratch := if w.scrBytes = 0 then s.heldScratch else s.heldScratch ++ [(w.core, w.scrBase, w.scrBytes)],
    lastPreempt := assocSet s.lastPreempt (dieOfCore w.core) s.clock }
  return s.drainLeft l.ctx

/-- The workgroups whose save ends with one's: itself, or every one of its cooperative launch that is being saved. -/
def State.savedTogether (s : State) (w : Workgroup) : List Workgroup :=
  if ((s.launch? w.launch).map (·.pkt.coop)).getD false then s.wgs.filter fun v => v.launch == w.launch && v.status == .stopping else [w]

/-- Abandon a save (R407): the workgroup goes on in place, its copies with it, and the failure is posted. -/
def State.abandonSave (s : State) (w : Workgroup) : State :=
  let s := (s.savedTogether w).foldl (fun s v =>
    let s := s.onEngines fun g => { g with copies := updateWhere (fun c => c.wg == v.uid) (fun c => { c with held := false }) g.copies }
    s.onWg v.uid fun v => { v with status := .running, spare := s.clock + s.quantum.setWidth 64, yieldsTo := none }) s
  s.postSchedule (srcDie (dieOfCore w.core)) 2 (some (s.launchCtx w.launch)) (some w.core) (BitVec.ofNat 64 w.work) (BitVec.ofNat 64 w.core)

def execWorkgroupSave (wg : Nat) (s : State) : Host.Outcome State Fault Refusal :=
  match s.wg? wg with
  | none => notNow "WORKGROUP_SAVE"
  | some w =>
    if w.status != .stopping then notNow "WORKGROUP_SAVE"
    else if (s.declinedOf (.save wg)).isSome then .next ((s.clearDeclined (.save wg)).abandonSave w)
    else if s.isParked (.save wg) then notNow "WORKGROUP_SAVE"
    else
      match s.toRecall w, s.parkedCopies w with
      | [], [] =>
        if !s.allHome w || ((s.midnight? w.core).any fun m => m.busy.isSome) || s.engines.copies.any (fun c => c.wg == wg && !c.held) || s.engines.matQueue.any (·.wg == wg) then
          notNow "WORKGROUP_SAVE"
        else
          match s.saveAll w with
          | .ok s => .next s
          | .error .full => .next (s.abandonSave w)
          | .error (.held h) => s.waitFor "WORKGROUP_SAVE" h
          | .error (.fault va sub level) =>
            let a : Ask := { who := .save wg, unit := .core w.core, ctx := s.launchCtx w.launch, va := va, kind := .spill }
            .next (s.parkFault [a] a sub level)
      | xs, cs =>
        let s := xs.foldl (fun s x => s.setSlice (x.recall (s.env x).origin)) s
        .next (cs.foldl (fun s c => s.holdCopy c.id) s)

/-! ### WORKGROUP_RESUME (R366, R412) -/

/-- A token after restore (R408): the statuses of completed copies come in with its oldest outstanding batch. -/
def Token.restored (t : Token) : Token :=
  let pend := t.sealed.foldl (fun a b => a ||| b.2.2) t.openStatus
  match t.sealed with
  | b :: rest => { t with sealed := (b.1, b.2.1, pend) :: rest.map (fun b => (b.1, b.2.1, 0)), openStatus := 0 }
  | [] => { t with openStatus := pend }

/-- Put a saved allocation back, poison with it. -/
def State.putScratch (s : State) (pa : Nat) (bs : List Byte) (ps : List Bool) : State :=
  let s := s.poke pa bs
  s.addPoison (((natsFrom 0 (bs.length / 32)).filter fun k => ps.getD (32 * k) false).map (pa / 32 + ·))

/-- Put saved accumulator sets back. -/
def State.putSets (s : State) (core : Nat) (bs : List Byte) (ps : List Bool) : List Nat → State
  | [] => s
  | k :: ks =>
    let s := s.putAcc (accOf core k ((ps.take setBytes).any id) fun n => le32 bs (4 * n))
    State.putSets s core (bs.drop setBytes) (ps.drop setBytes) ks

/-- Bring slices back from their records: `bases` are the runs of their top frames. -/
def State.reloadAll (s : State) (p : Party) (old : State) (bases : List (Nat × Nat)) : List Slice → Except SaveErr State
  | [] => .ok s
  | x :: xs =>
    if x.status != .saved then State.reloadAll s p old bases xs
    else
      match bases.lookup x.uid, x.spill with
      | some b, some (slot, _) =>
        match s.reloadSlice p x slot b with
        | (s, .ok y) => State.reloadAll (s.setSlice (y.back s.clock (s.env y).group.halted)) p old bases xs
        | (_, .fault va sub level) => .error (.fault va sub level)
        | (_, .held h) => .error (.held h)
        | (_, .full) => .error .full
      | _, _ => State.reloadAll (s.setSlice { x with status := .spilled }) p old bases xs

/-- Restore a workgroup (R412). -/
def State.restoreAll (s : State) (w : Workgroup) : Except SaveErr State := do
  let l := (s.launch? w.launch).getD Launch.none
  let p := saveParty w.uid w.core l.ctx
  let (s, hdr, _) ← Got.save (s.slotRead p (w.saveSlot.getD 0) 0 128)
  let xs := s.wgSlices w.uid
  let scrPa := scratchPa w.core 0 + w.scrBase
  let (s, scr, ps) ← if w.scrBytes = 0 then .ok (s, [], []) else Got.save (s.slotRead p (leAt hdr 0x20 4) 0 w.scrBytes)
  let sets := w.accs.sortBy (· ≤ ·)
  let (s, acc, qs) ← if sets = [] then .ok (s, [], []) else Got.save (s.slotRead p (leAt hdr 0x24 4) 0 (setBytes * sets.length))
  let s := (s.putScratch scrPa scr ps).putSets w.core acc qs sets
  let s := s.onEngines fun g =>
    { g with tiles := g.tiles ++ (g.savedTiles.filter (·.1 == w.uid)).map (fun t => { t.2 with owner := (s.freeSlot w.core).getD t.2.owner }), savedTiles := g.savedTiles.filter (·.1 != w.uid),
             copies := updateWhere (fun c => c.wg == w.uid) (fun c => { c with held := false }) g.copies,
             channels := updateWhere (fun c => c.wg == some w.uid) (fun c => { c with saved := false }) g.channels }
  match s.seat w with
  | none => throw (.held .busy)
  | some (t, bases) =>
    let t ← t.reloadAll p s bases xs
    let t := t.freeSlots p w.saveSlots
    let t := t.onWg w.uid fun v => { v with tokens := v.tokens.map Token.restored, saveSlot := none, saveSlots := [], waits := none, yieldsTo := none }
    let t := { t with heldScratch := t.heldScratch.erase (w.core, w.scrBase, w.scrBytes) }
    let t := xs.foldl (fun t x => x.parked.foldl (fun t p => t.withdraw (.parked x.uid p.id)) (t.withdraw (.slice x.uid))) t
    match xs.head? with
    | some x => return t.acquireAt (t.env x) .pkg
    | none => return t

/-- Restore workgroups together. -/
def State.restoreEach (s : State) : List Workgroup → Except (Workgroup × SaveErr) State
  | [] => .ok s
  | w :: ws =>
    match s.restoreAll w with
    | .ok s => State.restoreEach s ws
    | .error e => .error (w, e)

def execWorkgroupResume (wg : Nat) (s : State) : Host.Outcome State Fault Refusal :=
  match s.wg? wg with
  | none => notNow "WORKGROUP_RESUME"
  | some w =>
    let ws := s.backTogether w
    if !s.resumeDue w || ws.any (fun v => s.isParked (.save v.uid)) then notNow "WORKGROUP_RESUME"
    else
      let s := ws.foldl (fun s v => s.clearDeclined (.save v.uid)) s
      match s.bringAll (s.launchCtx w.launch) ((ws.map (·.core)).eraseDups) with
      | .stopped p e =>
        match (s.clearDeclined p.who).requestFor p e with
        | some t => .next t
        | none => notNow "WORKGROUP_RESUME"
      | .here t =>
        match t.restoreEach ws with
        | .ok s => .next ((s.roomTaken w.launch).retryHeld)
        | .error (v, .fault va sub level) =>
          let a : Ask := { who := .save v.uid, unit := .core v.core, ctx := s.launchCtx v.launch, va := va, kind := .spill }
          .next (s.parkFault [a] a sub level)
        | .error (_, .held h) => s.waitFor "WORKGROUP_RESUME" h
        | .error (_, .full) => notNow "WORKGROUP_RESUME"

end Sys2Proof.Machine
end

