-- ==== Sys2Proof/Machine/Events.lean ====
section
/-! DEFINITION. The event arbiter (spec/18_faults_and_preemption.md R420-R423; spec/19_host_and_peers.md R430, R432). -/

namespace Sys2Proof.Machine

/-- The host ring that takes a record, by its offset in the control block; none where the device's own service takes it. -/
def State.ringFor (s : State) (e : Event) (f : Option FaultRec) : Option Nat :=
  let frame : Bool := match f with
    | some f => f.kind == .spill && f.subcode == 2 && f.level == 0
    | none => false
  match e.cls with
  | 1 => if frame then (if s.duty 1 then some 0 else none) else if s.duty 0 then some 0x20 else none
  | 4 => if s.duty 3 then some 0 else none
  | _ => if s.duty 6 then some 0 else none

/-- R422. -/
def Event.record (e : Event) (seq : Word) (dropped : Nat) (time : Nat) : List Byte :=
  wordBytes seq ++ u8 e.cls ++ [e.source] ++ u16 e.code ++ u16 (match e.ctx with | some c => c % 4096 | none => 0xFFFF) ++
  u8 (e.core.getD 0xFF) ++ u8 (Nat.min dropped 255) ++ u32 time ++ u64 e.payload.toNat ++ u64 e.detail.toNat

/-- The fault record or halted group that an event reports learns its number and who serves it. A frame fault of the
host-assisted spill duty is served by SPILL_GROW, not by its number. -/
def State.numberReported (s : State) (e : Event) (seq : Word) (host frame : Bool) : State :=
  let s := match e.fault with
    | some id => if frame then s else s.onCaches fun c =>
        { c with faults := updateWhere (·.id == id) (fun f => { f with seq := some seq.toNat, host := host }) c.faults }
    | none => s
  match e.group with
  | some g => s.onGroup g fun g => { g with haltSeq := some seq.toNat, haltHost := host }
  | none => s

/-- Write a record into a host ring that has room. -/
def State.ringWrite (s : State) (off : Nat) (bs : List Byte) : Option State :=
  let r := s.ring off
  if r.size ≤ (r.producer - r.consumer).toNat then none
  else
    let s := s.writeHome (r.base + 32 * (r.producer.toNat % r.size)) bs .normal
    some (s.setWord (r.at_ + 12) (r.producer + 1))

/-- EVENT_SEQUENCE (R420): the arbiter takes a source's oldest event and numbers it; a host ring without room makes it
wait. A record for the device's own service leaves no trace in memory (log entry 23). -/
def execEventSequence (source : Nat) (s : State) : Host.Outcome State Fault Refusal :=
  let src : Byte := BitVec.ofNat 8 source
  match s.outside.events.find? (·.source == src) with
  | none => notNow "EVENT_SEQUENCE"
  | some e =>
    let f := e.fault.bind fun id => s.caches.faults.find? (·.id == id)
    let seq := s.outside.evSeq
    let bs := e.record seq (assoc 0 s.outside.dropped src) (s.clock.toNat / 1024 % 2 ^ 32)
    let taken := fun (s : State) => s.onOutside fun o =>
      { o with events := o.events.erase e, evSeq := seq + 1, dropped := o.dropped.filter (·.1 != src) }
    let ring := s.ringFor e f
    let frame := ring == some 0 && e.cls == 1
    match ring with
    | none => .next ((taken s).numberReported e seq false false)
    | some off =>
      match s.ringWrite off bs with
      | none => notNow "EVENT_SEQUENCE"
      | some s => .next ((taken s).numberReported e seq true frame)

end Sys2Proof.Machine
end

