-- ==== Sys2Proof/Machine/Crypto.lean ====
section
/-! DEFINITION. The functions that spec/19_host_and_peers.md R435 and R436 name: SHA-512 (FIPS 180-4) and Ed25519 (RFC 8032).
The spec names them and gives no text of its own; they are as those standards have them (log entry 7). A digest, a key and a
signature are numbers whose least significant byte comes first. -/

namespace Sys2Proof.Machine

/-! ### SHA-512 -/

/-- The greatest number whose k-th power is at most n, given `acc` above the b bits still to settle. -/
def rootOf (k n : Nat) : Nat → Nat → Nat
  | 0, acc => acc
  | b + 1, acc => rootOf k n b (if (acc + 2 ^ b) ^ k ≤ n then acc + 2 ^ b else acc)

/-- The first 64 bits of the fraction of a prime's k-th root. -/
def rootBits (k p : Nat) : DWord := BitVec.ofNat 64 (rootOf k (p * 2 ^ (64 * k)) 70 0)

def firstPrimes : List Nat := (natsFrom 2 408).filter fun n => (natsFrom 2 (n - 2)).all fun d => n % d != 0

def shaStart : List DWord := (firstPrimes.take 8).map (rootBits 2)
def shaRounds : List DWord := firstPrimes.map (rootBits 3)

/-- The words of a schedule, newest first, n of them still to come. -/
def shaSchedule : Nat → List DWord → List DWord
  | 0, ws => ws.reverse
  | n + 1, ws =>
    let x := nth 0 ws 14
    let y := nth 0 ws 1
    let s0 := x.rotateRight 1 ^^^ x.rotateRight 8 ^^^ (x >>> 7)
    let s1 := y.rotateRight 19 ^^^ y.rotateRight 61 ^^^ (y >>> 6)
    shaSchedule n ((s1 + nth 0 ws 6 + s0 + nth 0 ws 15) :: ws)

def shaRound (st : List DWord) (kw : DWord) : List DWord :=
  match st with
  | [a, b, c, d, e, f, g, h] =>
    let t1 := h + (e.rotateRight 14 ^^^ e.rotateRight 18 ^^^ e.rotateRight 41) + ((e &&& f) ^^^ (~~~e &&& g)) + kw
    let t2 := (a.rotateRight 28 ^^^ a.rotateRight 34 ^^^ a.rotateRight 39) + ((a &&& b) ^^^ (a &&& c) ^^^ (b &&& c))
    [t1 + t2, a, b, c, d + t1, e, f, g]
  | _ => st

/-- Take a block of 128 bytes. -/
def shaBlock (st : List DWord) (bs : List Byte) : List DWord :=
  let w := (natsFrom 0 16).map fun k => BitVec.ofNat 64 (bytesToNat ((bs.drop (8 * k)).take 8).reverse)
  let kw := (shaRounds.zip (shaSchedule 64 w.reverse)).map fun p => p.1 + p.2
  (st.zip (kw.foldl shaRound st)).map fun p => p.1 + p.2

def sha512 (msg : List Byte) : BitVec 512 :=
  let padded := msg ++ [0x80] ++ zeros ((239 - msg.length % 128) % 128) ++ (natToBytes 16 (8 * msg.length)).reverse
  let st := (natsFrom 0 (padded.length / 128)).foldl (fun st k => shaBlock st ((padded.drop (128 * k)).take 128)) shaStart
  BitVec.ofNat 512 (bytesToNat (st.flatMap fun w => (u64 w.toNat).reverse))

/-! ### Ed25519 -/

def edP : Nat := 2 ^ 255 - 19
def edL : Nat := 2 ^ 252 + 27742317777372353535851937790883648493

/-- b ^ e modulo m, for e of at most n bits. -/
def powMod (m b : Nat) : Nat → Nat → Nat
  | 0, _ => 1
  | n + 1, e =>
    let h := powMod m b n (e / 2)
    if e % 2 = 1 then h * h % m * b % m else h * h % m

def edInv (x : Nat) : Nat := powMod edP x 255 (edP - 2)
def edD : Nat := (edP - 121665) * edInv 121666 % edP

/-- A point in extended coordinates. -/
structure EdPoint where
  x : Nat
  y : Nat
  z : Nat
  t : Nat
  deriving DecidableEq, Repr

def EdPoint.zero : EdPoint := { x := 0, y := 1, z := 1, t := 0 }

def EdPoint.add (p q : EdPoint) : EdPoint :=
  let a := (p.y + edP - p.x) * (q.y + edP - q.x) % edP
  let b := (p.y + p.x) * (q.y + q.x) % edP
  let c := 2 * p.t * q.t * edD % edP
  let d := 2 * p.z * q.z % edP
  let e := b + edP - a
  let f := d + edP - c
  let g := d + c
  let h := b + a
  { x := e * f % edP, y := g * h % edP, z := f * g % edP, t := e * h % edP }

/-- A point times a number of at most n bits. -/
def EdPoint.times (p : EdPoint) : Nat → Nat → EdPoint
  | 0, _ => .zero
  | n + 1, k =>
    let h := EdPoint.times p n (k / 2)
    let d := h.add h
    if k % 2 = 1 then d.add p else d

def EdPoint.same (p q : EdPoint) : Bool := p.x * q.z % edP == q.x * p.z % edP && p.y * q.z % edP == q.y * p.z % edP

/-- A point as 32 bytes: y, and the least bit of x in bit 255. -/
def EdPoint.encode (p : EdPoint) : Nat :=
  let i := edInv p.z
  p.y * i % edP + 2 ^ 255 * (p.x * i % edP % 2)

def EdPoint.decode (n : Nat) : Option EdPoint :=
  let y := n % 2 ^ 255
  let sign := n / 2 ^ 255 % 2
  let x2 := (y * y + edP - 1) * edInv (edD * (y * y) % edP + 1) % edP
  let r := powMod edP x2 253 ((edP + 3) / 8)
  let x := if r * r % edP = x2 then r else r * powMod edP 2 254 ((edP - 1) / 4) % edP
  if edP ≤ y ∨ x * x % edP ≠ x2 ∨ (x = 0 ∧ sign = 1) then none
  else
    let x := if x % 2 = sign then x else edP - x
    some { x := x, y := y, z := 1, t := x * y % edP }

/-- The base point, whose y is 4/5. -/
def edBase : EdPoint := (EdPoint.decode (4 * edInv 5 % edP)).getD .zero

/-- The challenge of a signature: the digest of R, the public key and the message. -/
def edChallenge (r key : Nat) (msg : List Byte) : Nat := (sha512 (natToBytes 32 r ++ natToBytes 32 key ++ msg)).toNat % edL

/-- Whether a signature by a public key over a message is valid. -/
def ed25519Ok (key : BitVec 256) (sig : BitVec 512) (msg : List Byte) : Bool :=
  let r := sig.toNat % 2 ^ 256
  let s := sig.toNat / 2 ^ 256
  match EdPoint.decode key.toNat, EdPoint.decode r with
  | some a, some p =>
    let k := edChallenge r key.toNat msg
    decide (s < edL) && ((edBase.times 253 s).times 4 8).same ((p.add (a.times 253 k)).times 4 8)
  | _, _ => false

/-- The secret scalar of a seed. -/
def edScalar (seed : BitVec 256) : Nat :=
  (sha512 (natToBytes 32 seed.toNat)).toNat % 2 ^ 254 / 8 * 8 + 2 ^ 254

/-- The public key of a seed. -/
def ed25519Key (seed : BitVec 256) : BitVec 256 := BitVec.ofNat 256 (edBase.times 256 (edScalar seed)).encode

/-- The signature of a message by a seed's key. -/
def ed25519Sign (seed : BitVec 256) (msg : List Byte) : BitVec 512 :=
  let half := (sha512 (natToBytes 32 seed.toNat)).toNat / 2 ^ 256
  let r := (sha512 (natToBytes 32 half ++ msg)).toNat % edL
  let rr := (edBase.times 253 r).encode
  let s := (r + edChallenge rr (ed25519Key seed).toNat msg * edScalar seed) % edL
  BitVec.ofNat 512 (rr + 2 ^ 256 * s)

end Sys2Proof.Machine
end

