-- ==== Sys2Proof/Machine/Host.lean ====
section
/-! DEFINITION. RoCEv2 requests, the mailbox commands, contexts, firmware, reset and power
(spec/19_host_and_peers.md R424-R426, R430-R437; spec/18_faults_and_preemption.md R401). -/

namespace Sys2Proof.Machine

/-! ### Windows (R425, R430) -/

structure Window where
  index : Nat
  base : DWord
  len : Nat
  ctx : Nat
  rights : Nat
  deriving DecidableEq, Repr

/-- The window that an R_Key names: the lowest whose entry holds it. Window 0 is the host area, by physical address. -/
def State.window (s : State) (key : Word) : Option Window :=
  let at_ := fun (k : Nat) => controlBlock + 0x80 + 32 * k
  ((natsFrom 0 64).find? fun k => s.word (at_ k + 24) == key).map fun k =>
    if k = 0 then { index := 0, base := BitVec.ofNat 64 homedBase, len := 2 ^ 20, ctx := 0, rights := 7 }
    else
      let bs := s.peek (at_ k) 32
      { index := k, base := le64 bs 0, len := leAt bs 8 8, ctx := leAt bs 16 2, rights := leAt bs 18 1 }

/-- The party of a host request; no core performs it, so the local alias of R9 names nothing for it (DESIGN CHOICE, log
85). -/
def hostParty (ctx : Nat) : Party := { who := .host, unit := .die 0, ctx := ctx, alias_ := none }

/-- Translate pieces of a window: physical in window 0, else as a load or store under its context. -/
def State.mapWindow (s : State) (w : Window) (need : Need) (va : DWord) (n : Nat) : State × Got (List (Mapping × Nat)) :=
  if w.index = 0 then
    (s, .ok ((piecesOf va n).map fun p => ({ pa := p.1.toNat, home := .stack 0, pte := 2 ^ 5 }, p.2)))
  else s.mapPieces (hostParty w.ctx) need (piecesOf va n)

def State.sendOut (s : State) (rs : List Sent) : State := s.onOutside fun o => { o with sent := o.sent ++ rs }

/-- An answer of a port; where the request's packet came marked for congestion, which is the network's doing and so a free
value, a notification goes with it (R424; log entry 105). -/
def State.reply (s : State) (r : Sent) : State :=
  let (v, s) := s.freeValue
  s.sendOut (r :: if v.getLsbD 0 then [.notify] else [])

/-- The record of a translation fault that parks nobody (R25, R423): a host's or a peer's access. -/
def State.postFault (s : State) (ctx : Nat) (va : DWord) (k : AccessKind) (sub level : Nat) : State :=
  s.post { source := srcIo 0, cls := 1, code := sub, ctx := some ctx, core := none, payload := va,
           detail := BitVec.ofNat 64 (k.code + 16 * level + 65536 * (Config.requesterCode 0).toNat) }

/-- An untranslatable host access: a class 1 event without a record, and a NAK (R425). -/
def State.hostFault (s : State) (w : Window) (va : DWord) (sub level : Nat) : State :=
  (s.postFault w.ctx va .window sub level).reply .nakAccess

/-- The window of a request, if every check passes; in recovery window 0 alone works (R435). -/
def State.windowFor (s : State) (key : Word) (off : DWord) (n right : Nat) : Option Window :=
  (s.window key).filter fun w => bit w.rights right && decide (off.toNat + n ≤ w.len) && (w.index == 0 || !s.outside.fw.recovery)

/-- Make a host access of n bytes at an offset of a window. -/
def State.hostAccess (s : State) (name : String) (key : Word) (off : DWord) (n right : Nat) (wr : Bool)
    (act : State → List (Mapping × Nat) → State) : Host.Outcome State Fault Refusal :=
  match s.windowFor key off n right with
  | none => .next (s.reply .nakAccess)
  | some w =>
    match s.mapWindow w { kind := .window, wr := wr } (w.base + off) n with
    | (s, .ok ms) => .next (act s ms)
    | (s, .fault va sub level) => .next (s.hostFault w va sub level)
    | (_, _) => notNow name

/-- RDMA_WRITE: performed, then acknowledged. -/
def execRdmaWrite (key : Word) (off : DWord) (data : List Byte) (s : State) : Host.Outcome State Fault Refusal :=
  s.hostAccess "RDMA_WRITE" key off data.length 1 true fun s ms => (s.writePieces none 0 ms data).reply .ack

/-- RDMA_READ: poisoned bytes come as free values (log entry 24). -/
def execRdmaRead (key : Word) (off : DWord) (len : Nat) (s : State) : Host.Outcome State Fault Refusal :=
  s.hostAccess "RDMA_READ" key off len 0 false fun s ms =>
    let (s, bs, ps) := s.readPieces none 0 ms
    let (s, free) := s.freeBytes bs.length
    s.reply (.data ((bs.zip free).zip ps |>.map fun b => if b.2 then b.1.2 else b.1.1))

/-- An 8-byte read-modify-write of the host at its home. -/
def State.hostAtomic (s : State) (name : String) (key : Word) (off : DWord) (f : DWord → DWord) : Host.Outcome State Fault Refusal :=
  match s.windowFor key off 8 2 with
  | none => .next (s.reply .nakAccess)
  | some w =>
    if (w.base + off).toNat % 8 ≠ 0 then .next (s.reply .nakAccess)
    else s.hostAccess name key off 8 2 true fun s ms =>
      match ms with
      | (m, _) :: _ =>
        let (s, old, poison) := match m.part? with
          | some _ => let (v, s) := s.freeValue; (s, v, false)
          | none => match m.home with
            | .stack _ => s.homeRmw m.pa 8 (policyOf m.cpol 0) f
            | _ => s.scratchRmw m.pa 8 f
        let (s, bs) := s.freeBytes 8
        s.reply (.data (if poison then bs else u64 old.toNat))
      | [] => s

def execAtomicFetchAdd (key : Word) (off : DWord) (add : DWord) (s : State) : Host.Outcome State Fault Refusal :=
  s.hostAtomic "ATOMIC_FETCH_ADD" key off fun v => v + add

def execAtomicCompareSwap (key : Word) (off : DWord) (cmp swap : DWord) (s : State) : Host.Outcome State Fault Refusal :=
  s.hostAtomic "ATOMIC_COMPARE_SWAP" key off fun v => if v = cmp then swap else v

def execInvalidRequestNak (_op : BadRequest) (s : State) : Host.Outcome State Fault Refusal := .next (s.reply .nakInvalid)

/-- CONGESTION_NOTIFICATION: a congestion notification slows the sender of the port that it came to for the queue pair it
names; the step names neither, so both are free values (R424; log entry 105). -/
def execCongestionNotification (s : State) : Host.Outcome State Fault Refusal :=
  let (v, s) := s.freeValue
  .next (s.sendOut [.slow (v.toNat % 8) (v.toNat / 8 % 2 ^ 24)])

/-! ### Halted groups (R401) -/

/-- A slice of a group that is resumed: one that a trap has stopped runs from EPC as ERET would have it, another from the
instruction where it stands; what a declined reload or arrival interrupted is tried again (R380, R383). -/
def Slice.resumed (x : Slice) (clock : DWord) : Slice :=
  match x.status, x.held with
  | .ready, some (need, what) => { x.block clock need what with held := none }
  | .ready, none => { x.unstop with readySince := clock }
  | _, _ => x

/-- Resume a halted group. -/
def State.resumeGroup (s : State) (g : Group) : State :=
  let s := s.onGroup g.uid fun g => { g with halted := false, haltSeq := none, haltHost := false }
  { s with slices := s.slices.map fun (x : Slice) => if x.group == g.uid then x.resumed s.clock else x }

def State.haltedBy (s : State) (host : Bool) (seq : Nat) : Option Group :=
  s.groups.find? fun g => g.halted && g.haltSeq == some seq && g.haltHost == host

/-- GROUP_RESUME: with a SEQ the device firmware's own service, else the host's command. -/
def execGroupResume (seq : Option Nat) (s : State) : Host.Outcome State Fault Refusal :=
  match seq with
  | some k =>
    match s.haltedBy false k with
    | some g => .next (s.resumeGroup g)
    | none => notNow "GROUP_RESUME"
  | none => s.runCommand "GROUP_RESUME" 3 fun s c => if s.duty 6 then (s.haltedBy true c.arg0.toNat).map s.resumeGroup else none

/-- End a slice where it stands. -/
def State.endAt (s : State) (x : Slice) : State :=
  if x.live then let (s, y) := s.endSlice (s.env x) x; s.setSlice y else s

/-- Cancel near-memory commands that have not started: they complete with STATUS 7 (R45). -/
def State.cancelCmds (s : State) (p : Cmd → Bool) : State :=
  (s.engines.cmds.filter fun c => p c && !c.running && c.status.isNone).foldl (fun s c =>
    let c := { c with status := some 7 }
    (s.setCmd c).completeCmd c) s

/-- Terminate a launch (R401): every slice ends, and its unstarted near-memory commands complete with STATUS 7. -/
def State.terminate (s : State) (l : Launch) : State :=
  let xs := (s.wgs.filter (·.launch == l.id)).flatMap fun w => s.wgSlices w.uid
  let s := xs.foldl (fun s x => s.endAt ((s.slice? x.uid).getD x)) s
  (s.cancelCmds fun c => c.launch == l.id).onLaunch l.id fun x => { x with terminated := true }

/-- TERMINATE: with a SEQ the device firmware's own service of a halted group, whose launch it ends; else the host's
command. -/
def execTerminate (seq : Option Nat) (s : State) : Host.Outcome State Fault Refusal :=
  match seq with
  | some k =>
    match (s.haltedBy false k).bind fun g => (s.wg? g.wg).bind fun w => s.launch? w.launch with
    | some l => .next (s.terminate l)
    | none => notNow "TERMINATE"
  | none =>
    s.runCommand "TERMINATE" 4 fun s c =>
      (s.launches.find? fun l => l.queue == c.arg0.toNat && l.seq.toNat == c.arg1.toNat).map s.terminate

/-! ### Pre-emption, spill growth and regions (R431) -/

/-- The launch that room on a core is wanted for: the first waiter of its die above a priority (log entry 25). -/
def State.wantedBy (s : State) (w : Workgroup) : Option Nat :=
  let prio := ((s.launch? w.launch).map (·.pkt.prio)).getD 0
  ((s.waiters (dieOfCore w.core)).find? fun x => decide (prio < x.prio) && x.cores.contains w.core).bind Waiter.launchId

/-- PREEMPT: a command that names no running workgroup has no effect. -/
def execPreempt (s : State) : Host.Outcome State Fault Refusal :=
  s.runCommand "PREEMPT" 5 fun s c =>
    if !s.duty 7 then none
    else
      match s.wgs.find? fun w => w.core == c.arg0.toNat && w.work == c.arg1.toNat && w.status == .running with
      | some w => some (s.stopWgs (s.wholeCoops [w.uid]) (s.wantedBy w))
      | none => some s

/-- Frame-fault records that the spill duty's host answers. -/
def FaultRec.isFrame (f : FaultRec) (ctx : Nat) : Bool := f.ctx == ctx && f.kind == .spill && f.subcode == 2 && f.level == 0

/-- SPILL_GROW: a larger spill area; the faulted instructions replay. -/
def execSpillGrow (s : State) : Host.Outcome State Fault Refusal :=
  s.runCommand "SPILL_GROW" 6 fun s c =>
    let ctx := c.arg0.toNat % 4096
    match s.ctx? ctx with
    | none => none
    | some x =>
      if !s.duty 1 || decide (c.arg1.toNat ≤ x.spillSize.toNat) || decide (2 ^ 32 ≤ c.arg1.toNat) || c.arg1.toNat % 2048 != 0 then none
      else
        let s := s.onCtx ctx fun x => { x with spillSize := lo32 c.arg1 }
        some ((s.caches.faults.filter fun f => f.isFrame ctx).foldl State.replayFault s)

/-- The region that a command's stack and word name exactly. -/
def State.namedRegion (_s : State) (c : Command) (rs : List Region) : Option Region :=
  match regionWord (lo32 c.arg1) with
  | none => none
  | some (_, first, width) => rs.find? fun r => r.at (c.arg0.toNat % 16) first && r.width == width

/-- Ask for the restore of a saved region. -/
def State.askRestore (s : State) (r : Region) : State :=
  s.onEngines fun g => { g with savedRegions := updateWhere (Region.at r.stack r.first) (fun r => { r with state := .loading }) g.savedRegions }

/-- REGION_END: release frees the bands as R75 has it; restore asks for a saved region's return. -/
def execRegionEnd (s : State) : Host.Outcome State Fault Refusal :=
  s.runCommand "REGION_END" 7 fun s c =>
    if !s.duty 3 then none
    else if c.arg0.getLsbD 8 then (s.namedRegion c s.engines.savedRegions).map s.askRestore
    else ((s.namedRegion c s.engines.regions).filter fun r => [RegState.unarmed, .armed, .frozen, .aborted].contains r.state).map s.freeRegion

/-- REGION_SAVE: save drains a RUNNING region, restore asks for a saved one's return. -/
def execRegionSave (s : State) : Host.Outcome State Fault Refusal :=
  s.runCommand "REGION_SAVE" 13 fun s c =>
    if !s.duty 7 then none
    else if c.arg0.getLsbD 8 then (s.namedRegion c s.engines.savedRegions).map s.askRestore
    else ((s.namedRegion c s.engines.regions).filter (·.state == .running)).map fun r => s.startDrain [(r.stack, r.first)]

/-! ### Firmware (R435, R436) -/

/-- Write bytes at a physical address, line by line. -/
def State.writeRun (s : State) (pa : Nat) (bs : List Byte) : State :=
  s.writePieces none 0 ((piecesOf (BitVec.ofNat 64 pa) bs.length).map fun p => ({ pa := p.1.toNat, home := .stack 0, pte := 2 ^ 5 }, p.2)) bs

/-- The digest that an image's signature covers: bytes 0x00 to 0x2F and the body. -/
def imageDigest (bs : List Byte) : BitVec 512 := sha512 (bs.take 0x30 ++ (bs.drop 0x80).take (leAt bs 0xC 4))

/-- A digest in memory order. -/
def digestBytes (d : BitVec 512) : List Byte := natToBytes 64 d.toNat

/-- The conditions under which an image is accepted. -/
def imageAccepted (bs : List Byte) : Bool :=
  let key := BitVec.ofNat 256 (leAt bs 0x10 32)
  sha512 (natToBytes 32 key.toNat) == Config.fusedKeyDigest && decide (Config.fusedMinSvn ≤ leAt bs 8 4) &&
  ed25519Ok key (BitVec.ofNat 512 (leAt bs 0x30 64)) (digestBytes (imageDigest bs))

/-- MEAS after an accepted image (R435). -/
def measured (meas : BitVec 512) (image : List Byte) : BitVec 512 := sha512 (digestBytes meas ++ digestBytes (imageDigest image))

/-- Boot (R435): the firmware image from flash is checked, then the die firmware in the same way; each accepted image enters
the measurement, which starts from 64 zero bytes, and a rejected one leaves the part in recovery. -/
def Firmware.boot (f : Firmware) : Firmware :=
  let image := if f.flash = [] then Config.factoryImage else f.flash
  if imageAccepted image then
    let m := measured 0 image
    let f := { f with svn := leAt image 8 4 }
    if imageAccepted Config.dieFirmware then { f with meas := measured m Config.dieFirmware, recovery := false }
    else { f with meas := m, recovery := true }
  else { f with meas := 0, svn := 0, recovery := true }

/-- RESET (R437): every register, cache, array and region at its reset value; then boot. The step counters of the model go
on. -/
def execReset (s : State) : Host.Outcome State Fault Refusal :=
  .next { State.reset with
    agenda := s.agenda, ticks := s.ticks, free := s.free, outside := { fw := s.outside.fw.boot } }

/-- ATTEST (R436): after the nonce, MEAS, SVN, the serial, the identity key and its signature. -/
def execAttest (s : State) : Host.Outcome State Fault Refusal :=
  s.runCommand "ATTEST" 8 fun s c =>
    let pa := c.arg1.toNat
    let f := s.outside.fw
    let body := digestBytes f.meas ++ u32 f.svn ++ u64 Config.serial.toNat
    let seed := Config.identitySeed f.meas
    let sig := ed25519Sign seed (digestBytes (sha512 (s.peek pa 32 ++ body)))
    some (s.writeRun (pa + 32) (body ++ natToBytes 32 (ed25519Key seed).toNat ++ natToBytes 64 sig.toNat))

/-- FLASH_IMAGE (R435): the image in the host area is checked and written to flash. -/
def execFlashImage (s : State) : Host.Outcome State Fault Refusal :=
  s.runCommand "FLASH_IMAGE" 9 fun s c =>
    let n := c.arg0.toNat
    let image := s.peek (homedBase + 0x80000) n
    if 0x80000 < n ∨ !imageAccepted image then none
    else some (s.onOutside fun o => { o with fw := { o.fw with flash := image } })

/-- DUTY_SET (R432). -/
def execDutySet (s : State) : Host.Outcome State Fault Refusal :=
  s.runCommand "DUTY_SET" 12 fun s _ => some { s with dutyMode := s.word (controlBlock + 0x70) &&& 0xFF }

/-! ### Contexts (R433) -/

/-- A descriptor's fields, zero standing for the reset value where R433 says so. -/
def Ctx.ofDescriptor (id : Nat) (bs : List Byte) : Ctx :=
  let c : Ctx := { id := id }
  let f := fun (off : Nat) (d : Word) => if le32 bs off = 0 then d else le32 bs off
  { id := id, root := le64 bs 0, spillBase := le64 bs 8, spillSize := le32 bs 0x10, pinQuota := f 0x14 c.pinQuota,
    frameWait := f 0x18 c.frameWait, guestFrames := f 0x1C c.guestFrames, hopLimit := f 0x20 c.hopLimit, seedSr := le32 bs 0x24,
    regangWindow := f 0x28 c.regangWindow, divRotate := f 0x2C c.divRotate, waitwLimit := f 0x30 c.waitwLimit }

/-- Slots that hold the bitmap (R189). -/
def Ctx.bitmapSlots (c : Ctx) : Nat := ceilDiv c.slots 16384

/-- R16, R189, R350. -/
def Ctx.checked (c : Ctx) : Bool :=
  let w := fun (v : Word) => v.setWidth 64
  Csr.accepts .ctxRoot c.root && (stackOf c.root.toNat).isSome && Csr.accepts .spillBase c.spillBase && Csr.accepts .spillSize (w c.spillSize) &&
  decide (c.bitmapSlots < c.slots) && Csr.accepts .pinQuota (w c.pinQuota) && Csr.accepts .frameWait (w c.frameWait) &&
  Csr.accepts .guestFrames (w c.guestFrames) && Csr.accepts .hopLimit (w c.hopLimit) && Csr.accepts .regangWindow (w c.regangWindow) &&
  Csr.accepts .divRotate (w c.divRotate) && Csr.accepts .waitwLimit (w c.waitwLimit)

/-- A context's empty bitmap: its own slots are in use. -/
def Ctx.bitmap (c : Ctx) : List Byte := padTo (2048 * c.bitmapSlots) (natToBytes (ceilDiv c.bitmapSlots 8) (2 ^ c.bitmapSlots - 1))

/-- The context that a CTX_SETUP command gives, unless it is refused. -/
def State.newContext (s : State) (c : Command) : Option Ctx :=
  let id := c.arg0.toNat % 4096
  let pa := c.arg1.toNat
  let bs := s.peek pa 64
  if id = 0 ∨ (s.ctx? id).isSome ∨ (stackOf pa).isNone ∨ pa % 64 ≠ 0 ∨ s.peekPoison pa 64 ∨ !zeroAt bs 0x34 12 then none
  else (some (Ctx.ofDescriptor id bs)).filter Ctx.checked

/-- CTX_SETUP: the bitmap is written through the new context's own translation; where that faults the command waits for
service, and a declined fault refuses it (log entry 26). -/
def execCtxSetup (s : State) : Host.Outcome State Fault Refusal :=
  match s.command 10 with
  | none => notNow "CTX_SETUP"
  | some c =>
    match s.newContext c with
    | none => .next (s.answer c false)
    | some x =>
      let p := hostParty x.id
      if (s.declinedOf .host).isSome then .next ((s.clearDeclined .host).answer c false)
      else if s.isParked .host then notNow "CTX_SETUP"
      else
        let t := { s with ctxs := s.ctxs ++ [x] }
        match t.partWrite p .spill x.spillBase x.bitmap with
        | (t, .ok _) => .next (t.answer c true)
        | (_, .fault va sub level) =>
          let a : Ask := { who := .host, unit := p.unit, ctx := x.id, va := va, kind := .spill }
          .next (s.parkFault [a] a sub level)
        | (_, _) => notNow "CTX_SETUP"

/-- Whether a teardown is refused. -/
def State.teardownRefused (s : State) (ctx : Nat) : Bool :=
  (s.ctx? ctx).isNone || s.launches.any (·.ctx == ctx) ||
  (natsFrom 0 32).any fun q => (s.queueOf q).enable && (s.queueOf q).ctx == ctx

/-- Abort and release the regions of a context. -/
def State.endRegions (s : State) (ctx : Nat) : State :=
  let s := (s.engines.regions.filter fun r => r.ctx == ctx && (r.state == .running || r.state == .draining)).foldl
    (fun s r => s.abortRegion r 0x41 2 0) s
  let s := (s.engines.regions.filter (·.ctx == ctx)).foldl State.freeRegion s
  s.onEngines fun g => { g with savedRegions := g.savedRegions.filter (·.ctx != ctx), configCache := g.configCache.filter (·.ctx != ctx) }

/-- Everything of a context goes, its commands apart. -/
def State.clearContext (s : State) (ctx : Nat) : State :=
  let s := s.invalidate 1 ctx 0
  let s := s.onEngines fun g => { g with deques := g.deques.filter (·.ctx != ctx), ranges := g.ranges.filter (·.ctx != ctx) }
  { s with ctxs := s.ctxs.filter fun (c : Ctx) => c.id != ctx, savedUnits := s.savedUnits.filter fun (u : SavedUnit) => u.ctx != ctx,
           bounds := s.bounds.filter fun (b : BoundRegs) => b.ctx != ctx }

/-- CTX_TEARDOWN: regions and unstarted commands first; while commands that have started run, the teardown waits. -/
def execCtxTeardown (s : State) : Host.Outcome State Fault Refusal :=
  match s.command 11 with
  | none => notNow "CTX_TEARDOWN"
  | some c =>
    let ctx := c.arg0.toNat % 4096
    if s.teardownRefused ctx then .next (s.answer c false)
    else
      let idle := !s.engines.regions.any (·.ctx == ctx) && !s.engines.savedRegions.any (·.ctx == ctx) &&
        !s.engines.cmds.any fun d => d.ctx == ctx && !d.running && d.status.isNone
      let t := (s.endRegions ctx).cancelCmds fun d => d.ctx == ctx
      if t.engines.cmds.any (·.ctx == ctx) then (if idle then notNow "CTX_TEARDOWN" else .next t)
      else .next ((t.clearContext ctx).answer c true)

/-! ### Power and counters (R419, R430, R437) -/

def execPowerThrottle (s : State) : Host.Outcome State Fault Refusal :=
  if 1600 ≤ s.dieMHz then .next { s with dieMHz := s.dieMHz - 100 } else notNow "POWER_THROTTLE"

def execThrottleRelease (s : State) : Host.Outcome State Fault Refusal :=
  if s.dieMHz < 3000 then .next { s with dieMHz := Nat.min 3000 (s.dieMHz + 100) } else notNow "THROTTLE_RELEASE"

/-- COUNTER_REPORT: once a second the corrected-error counters go to CNT_ADDR, one n32 each in the order held (log entry
22). -/
def execCounterReport (s : State) : Host.Outcome State Fault Refusal :=
  let pa := leAt (s.peek (controlBlock + 0x78) 8) 0 8
  if s.baseClk < s.outside.reported + 2000000000 then notNow "COUNTER_REPORT"
  else
    let bs := s.outside.corrected.flatMap fun k => u32 k.2
    .next ((if (stackOf pa).isSome then s.writeRun pa bs else s).onOutside fun o => { o with reported := s.baseClk })

end Sys2Proof.Machine
end

