-- ==== Sys2Proof/Machine/Peers.lean ====
section
/-! DEFINITION. Frames of the Norzen tunnel: their acceptance, streams, remote accesses, pod barriers, resends and the loss of
a pair (spec/19_host_and_peers.md R427-R429; log entry 14). -/

namespace Sys2Proof.Machine

/-! ### Frames (R428, R429) -/

/-- A received frame's header and body. -/
structure Datagram where
  kind : Nat
  src : Nat
  seq : Word
  ack : Word
  body : List Byte
  deriving DecidableEq, Repr

/-- The frame that bytes hold, if its header is one that R428 describes and it is meant for this part. -/
def State.parseFrame (s : State) (bs : List Byte) : Option Datagram :=
  let n := leAt bs 6 2
  if 16 ≤ bs.length ∧ leAt bs 0 2 = 0x4E5A ∧ leAt bs 2 1 = 1 ∧ leAt bs 3 1 ≤ 4 ∧ leAt bs 4 1 < 64 ∧ leAt bs 5 1 = s.partNumber ∧
      n ≤ 4096 ∧ bs.length = 16 + n then
    some { kind := leAt bs 3 1, src := leAt bs 4 1, seq := le32 bs 8, ack := le32 bs 12, body := bs.drop 16 }
  else none

/-- Whether a frame is accepted: its pair stands and it is the next in order. -/
def State.accepts (s : State) (f : Datagram) : Bool :=
  let x := s.pairOf f.src
  !x.lost && f.seq == x.expect

/-- A frame number before another, modulo 2^32. -/
def seqBefore (a b : Word) : Bool := decide (2 ^ 31 ≤ (a - b).toNat)

/-- Take the acknowledgement of a frame: frames before it need no resend. -/
def State.takeAck (s : State) (f : Datagram) : State :=
  let x := s.pairOf f.src
  s.setPair { x with unacked := x.unacked.filter fun u => !seqBefore u.1 f.ack }

/-- Accept a frame of a kind: `act` performs it, and it is acknowledged. -/
def State.acceptFrame (s : State) (name : String) (kind : Nat) (bs : List Byte) (act : State → Datagram → Option State) :
    Host.Outcome State Fault Refusal :=
  match s.parseFrame bs with
  | none => notNow name
  | some f =>
    if f.kind ≠ kind ∨ !s.accepts f then notNow name
    else
      let s := s.takeAck f
      let x := s.pairOf f.src
      match act (s.setPair { x with expect := x.expect + 1 }) f with
      | some s => .next (s.sendAck f.src)
      | none => notNow name

/-! ### Streams -/

/-- The connected end of a peer part that an identifier names, set aside or not. -/
def Channel.joins (id : Word) (part : Nat) (c : Channel) : Bool := c.id == id && c.connected && chanPart c.peer == part

/-- Apply a stream entry: credits, and a token unless it only returns credits; reserved bits of the token are ignored
(R57). -/
def State.streamEntry (s : State) (src : Nat) (bs : List Byte) : State :=
  let id := le32 bs 0 &&& ~~~0x200000#32
  let t := leAt bs 4 5
  let only := (le32 bs 0).getLsbD 21
  match s.engines.channels.find? (Channel.joins id src) with
  | none => s
  | some c =>
    let c' := { c with credit := c.credit + leAt bs 9 1, inTok := if only then c.inTok else c.inTok ++ [Tok.ofNat t] }
    s.onEngines fun g => { g with channels := g.channels.map fun d => if d == c then c' else d }

def State.streamEntries (s : State) (src : Nat) (bs : List Byte) : Nat → State
  | 0 => s
  | n + 1 => State.streamEntries (s.streamEntry src (bs.take 12)) src (bs.drop 12) n

def execNorzenStream (frame : List Byte) (s : State) : Host.Outcome State Fault Refusal :=
  s.acceptFrame "NORZEN_STREAM" 0 frame fun s f => some (s.streamEntries f.src f.body (f.body.length / 12))

/-! ### Memory requests (R427) -/

/-- A request's fields. -/
structure Request where
  id : Word
  ctx : Nat
  instr : Option Instr
  pa : Nat
  /-- one half of a split pair (R116) -/
  half : Bool
  data : List Word
  deriving DecidableEq, Repr

/-- The instruction of a request's prefix and base words. -/
def requestInstr (bs : List Byte) : Option Instr :=
  let pw := (bs.drop 8).take 4
  let w := (bs.drop 12).take 4 ++ zeros 8
  match decode (if bytesToNat pw = 0 then w else pw ++ w) with
  | .ok i _ => some i
  | _ => none

def Request.ofBytes (bs : List Byte) : Request :=
  { id := le32 bs 0, ctx := leAt bs 4 2, half := leAt bs 6 1 == 1, instr := requestInstr bs, pa := leAt bs 16 8, data := (natsFrom 0 6).map fun k => le32 bs (24 + 4 * k) }

/-- What a request comes to: the words of its reply, poison, or a fault subcode. -/
inductive Answer where
  | words (ws : List Word)
  | poison
  | fault (subcode : Nat)
  deriving DecidableEq, Repr

/-- The body of a reply. -/
def Answer.bytes (a : Answer) (id : Word) : List Byte :=
  wordBytes id ++
  match a with
  | .words ws => u8 0 ++ zeros 3 ++ padTo 16 (ws.flatMap wordBytes)
  | .poison => u8 1 ++ zeros 19
  | .fault sub => u8 (2 + sub) ++ zeros 19

/-- What a carried instruction does: bytes, and whether it reads (0), writes (1) or updates (2). -/
def carried (i : Instr) : Option (Nat × Nat) :=
  match i with
  | .ld _ z _ _ _ => some (z.bytes, 0)
  | .st _ z _ _ _ => some (z.bytes, 1)
  | .atom _ _ _ _ _ _ => some (4, 2)
  | .atomb _ o _ _ _ _ => some (if o = .addI64 then 8 else 4, 2)
  | _ => none

/-- A read-modify-write of a peer at a home. -/
def State.peerRmw (s : State) (m : Mapping) (n : Nat) (f : DWord → DWord) : State × DWord × Bool :=
  match m.home with
  | .stack _ => s.homeRmw m.pa n (policyOf m.cpol 0) f
  | .core _ => s.scratchRmw m.pa n f
  | .part _ => let (v, s) := s.freeValue; (s, v, false)

/-- The updates of an atomic at their mapped addresses: the old value they give together. -/
def State.peerUpdates (s : State) (i : Instr) : List (Update × Mapping) → State × DWord × Bool
  | [] => (s, 0, false)
  | (q, m) :: rest =>
    let (s, v, poison) := s.peerRmw m q.bytes fun old => rmwNew i q.bytes old q.b q.c
    let (s, w, p) := State.peerUpdates s i rest
    (s, ((if q.bytes = 2 then v &&& 0xFFFF else v) <<< q.shift) ||| w, poison || p)

/-- The updates of a carried atomic: a half of a split pair comes by itself (R116). -/
def carriedUpdates (i : Instr) (half : Bool) (va b c : DWord) : List Update :=
  if half then [{ lane := 0, va := va, bytes := 2, shift := 0, b := b, c := c }] else updatesOf i 0 va b c

/-- Perform a carried access at mapped addresses. -/
def State.performCarried (s : State) (i : Instr) (q : Request) (va : DWord) (ms : List (Mapping × Nat)) : State × Answer :=
  match i with
  | .ld _ z _ _ _ =>
    let (s, bs, ps) := s.readPieces none 0 ms
    (s, if ps.any id then .poison else .words ((loadWords z bs false).map (·.val)))
  | .st _ z _ _ _ => (s.writePieces none 0 ms (storeBytes z (q.data.map fun w => { val := w })), .words [])
  | _ =>
    let w := fun (k : Nat) => nth 0 q.data k
    let us := carriedUpdates i q.half va (dword (w 0) (w 1)) ((w 2).setWidth 64)
    let (s, v, poison) := s.peerUpdates i (us.zip (ms.map (·.1)))
    (s, if poison then .poison else .words [lo32 v, hi32 v])

/-- The window 1 to 15 of a request's address: it must belong to the requester's context and allow the access; in recovery none
works (R435). -/
def State.peerWindow (s : State) (q : Request) (n right : Nat) : Option Window :=
  let k := q.pa / 2 ^ 48 % 16
  let bs := s.peek (controlBlock + 0x80 + 32 * k) 32
  let w : Window := { index := k, base := le64 bs 0, len := leAt bs 8 8, ctx := leAt bs 16 2, rights := leAt bs 18 1 }
  if 1 ≤ k ∧ s.outside.fw.recovery = false ∧ w.ctx = q.ctx ∧ bit w.rights right ∧ q.pa % 2 ^ 48 + n ≤ w.len then some w else none

/-- The pieces that a carried access translates. -/
def carriedPieces (i : Instr) (half : Bool) (va : DWord) (n : Nat) : List (DWord × Nat) :=
  match i with
  | .atom _ _ _ _ _ _ | .atomb _ _ _ _ _ _ => (carriedUpdates i half va 0 0).map fun q => (q.va, q.bytes)
  | _ => piecesOf va n

/-- Answer a request; none while the bytes are held for a saved workgroup. -/
def State.answerRequest (s : State) (q : Request) : Option (State × Answer) :=
  match q.instr.bind fun i => (carried i).map fun c => (i, c) with
  | none => some (s, .fault 0)
  | some (i, n, right) =>
    match s.peerWindow q n right with
    | none => some (s, .fault 1)
    | some w =>
      let va := w.base + BitVec.ofNat 64 (q.pa % 2 ^ 48)
      match s.mapPieces (hostParty w.ctx) { kind := .remote, wr := right != 0 } (carriedPieces i q.half va n) with
      | (s, .ok ms) => some (s.performCarried i q va ms)
      | (s, .fault va sub level) => some (s.postFault w.ctx va .remote sub level, .fault sub)
      | (_, _) => none

def execNorzenMemoryRequest (frame : List Byte) (s : State) : Host.Outcome State Fault Refusal :=
  s.acceptFrame "NORZEN_MEMORY_REQUEST" 1 frame fun s f =>
    let q := Request.ofBytes f.body
    (s.answerRequest q).map fun r => r.1.sendFrame f.src 2 (r.2.bytes q.id)

/-! ### Replies -/

/-- A slice whose remote replies are all in goes on. -/
def State.remoteReady (s : State) (u : Nat) : State :=
  if s.outside.remotes.any fun r => r.slice == u && r.parked.isNone && r.reply.isNone then s
  else s.onSlice u fun x => if x.status == .remote then { x with status := .ready, readySince := s.clock } else x

/-- Forget a remote access. -/
def State.dropRemote (s : State) (r : Remote) : State :=
  (s.onOutside fun o => { o with remotes := o.remotes.filter (·.id != r.id) }).onSlice r.slice fun x =>
    { x with remoteOut := x.remoteOut.filter (· != r.id) }

/-- A remote access's answer reaches its slice: a store is done; a load or atomic has its words, or poison; a fault is met as
a declined one (R427). -/
def State.takeAnswer (s : State) (r : Remote) (a : Answer) : State :=
  let keep := fun (v : Option (List Word)) => s.onOutside fun o =>
    { o with remotes := updateWhere (·.id == r.id) (fun r => { r with reply := some v }) o.remotes }
  match a with
  | .fault sub =>
    if Instr.isStore r.instr then
      (s.dropRemote r).onSlice r.slice fun x =>
        { x with pendingTrap := x.pendingTrap.or (some { cause := pageCause sub, subcode := sub, eaddr := r.addr, pc := r.pc }) }
    else
      match s.slice? r.slice with
      | none => s.dropRemote r
      | some x =>
        let e := s.env x
        let who : Requester := match r.parked with
          | some id => .parked r.slice id
          | none => .slice r.slice
        let ask : Ask := { who := who, unit := .core e.core, ctx := e.ctx, va := r.addr, kind := .remote }
        let s := s.endRemotes r.slice r.instr r.parked
        let s := s.onCaches fun c => { c with declined := c.declined ++ [{ ask := ask, subcode := sub }] }
        s.remoteReady r.slice
  | .words ws => if Instr.isStore r.instr then s.dropRemote r else (keep (some ws)).remoteReady r.slice
  | .poison => if Instr.isStore r.instr then s.dropRemote r else (keep none).remoteReady r.slice

/-- The answer in a reply's body for an instruction. -/
def answerOf (i : Instr) (bs : List Byte) : Answer :=
  let n := match i with
    | .ld _ z _ _ _ => z.width.count
    | .atomb _ .addI64 _ _ _ _ => 2
    | _ => 1
  match leAt bs 4 1 with
  | 0 => .words ((natsFrom 0 n).map fun k => le32 bs (8 + 4 * k))
  | 1 => .poison
  | k => .fault (k - 2)

def execNorzenMemoryReply (frame : List Byte) (s : State) : Host.Outcome State Fault Refusal :=
  s.acceptFrame "NORZEN_MEMORY_REPLY" 2 frame fun s f =>
    match s.outside.remotes.find? fun r => r.id == (le32 f.body 0).toNat && r.part == f.src with
    | some r => some (s.takeAnswer r (answerOf r.instr f.body))
    | none => some s

/-! ### Pod barriers, acknowledgements, drops and resends -/

def execNorzenPodBarrier (frame : List Byte) (s : State) : Host.Outcome State Fault Refusal :=
  s.acceptFrame "NORZEN_POD_BARRIER" 3 frame fun s f =>
    some (s.onOutside fun o => { o with podArrivals := o.podArrivals ++ [(le32 f.body 0, f.src)] })

def execNorzenAck (frame : List Byte) (s : State) : Host.Outcome State Fault Refusal :=
  match s.parseFrame frame with
  | none => notNow "NORZEN_ACK"
  | some f => if f.kind = 4 ∧ s.accepts f then .next (s.takeAck f) else notNow "NORZEN_ACK"

/-- NORZEN_FRAME_DROP: a frame that is malformed, or out of order, is dropped. -/
def execNorzenFrameDrop (frame : List Byte) (s : State) : Host.Outcome State Fault Refusal :=
  match s.parseFrame frame with
  | none => .next s
  | some f => if s.accepts f then notNow "NORZEN_FRAME_DROP" else .next s

/-- 16 µs in base-die clocks (R5). -/
def resendClocks : Nat := 32000

/-- Frames of a pair that are due to be sent again. -/
def State.dueFrames (s : State) (x : Pair) : List (Word × List Byte × Nat × Nat) :=
  x.unacked.filter fun u => decide (u.2.2.1 + resendClocks ≤ s.baseClk)

/-- FRAME_RESEND: frames not acknowledged after 16 µs go out again. -/
def execFrameResend (part : Nat) (s : State) : Host.Outcome State Fault Refusal :=
  let x := s.pairOf part
  let due := s.dueFrames x
  if x.lost || due.isEmpty || due.any (fun u => decide (32 ≤ u.2.2.2)) then notNow "FRAME_RESEND"
  else
    let s := s.setPair { x with unacked := x.unacked.map fun u => if due.contains u then (u.1, u.2.1, s.baseClk, u.2.2.2 + 1) else u }
    .next (s.onOutside fun o => { o with sent := o.sent ++ due.flatMap fun u => s.datagram part u.2.1 })

/-! ### The loss of a pair (R429) -/

/-- A remote access over a lost pair: poison, or a dropped store with its event (log entry 27). -/
def State.loseRemote (s : State) (r : Remote) : State :=
  if Instr.isStore r.instr then
    let e := (s.slice? r.slice).map s.env
    (s.dropRemote r).dropStore (e.map (·.ctx)) (e.map (·.core)) r.pa
  else s.takeAnswer r .poison

/-- PAIR_LOST: a frame has been sent again 32 times without progress. -/
def execPairLost (part : Nat) (s : State) : Host.Outcome State Fault Refusal :=
  let x := s.pairOf part
  if x.lost || !(s.dueFrames x).any (fun u => decide (32 ≤ u.2.2.2)) then notNow "PAIR_LOST"
  else
    let s := s.setPair { x with lost := true, unacked := [] }
    let s := s.severConnections fun c => chanPart c.peer == part
    let s := (s.outside.remotes.filter fun r => r.part == part && r.reply.isNone).foldl State.loseRemote s
    let inPod := s.otherParts.contains part
    .next ((s.launches.filter fun l => l.pkt.podCount != 0 && inPod && !l.terminated).foldl State.terminate s)

end Sys2Proof.Machine
end

