-- ==== Sys2Proof/Machine/Dispatch.lean ====
section
/-! DEFINITION. One arm per instruction and machine step: each calls its meaning. -/

namespace Sys2Proof.Machine

def exec (i : Instr) (s : State) : Host.Outcome State Fault Refusal :=
  match i with
  | .iadd p t d a b h => Sys2Proof.Machine.execIadd p t d a b h s
  | .isub p t d a b h => Sys2Proof.Machine.execIsub p t d a b h s
  | .imul p t d a b h => Sys2Proof.Machine.execImul p t d a b h s
  | .imulh p t d a b h => Sys2Proof.Machine.execImulh p t d a b h s
  | .imad p t d a b h => Sys2Proof.Machine.execImad p t d a b h s
  | .imin p t d a b h => Sys2Proof.Machine.execImin p t d a b h s
  | .imax p t d a b h => Sys2Proof.Machine.execImax p t d a b h s
  | .icmp p c t k a b h => Sys2Proof.Machine.execIcmp p c t k a b h s
  | .and p d a b h => Sys2Proof.Machine.execAnd p d a b h s
  | .or p d a b h => Sys2Proof.Machine.execOr p d a b h s
  | .xor p d a b h => Sys2Proof.Machine.execXor p d a b h s
  | .andn p d a b h => Sys2Proof.Machine.execAndn p d a b h s
  | .orn p d a b h => Sys2Proof.Machine.execOrn p d a b h s
  | .xnor p d a b h => Sys2Proof.Machine.execXnor p d a b h s
  | .not p d a h => Sys2Proof.Machine.execNot p d a h s
  | .shl p d a b h => Sys2Proof.Machine.execShl p d a b h s
  | .shr p d a b h => Sys2Proof.Machine.execShr p d a b h s
  | .sha p d a b h => Sys2Proof.Machine.execSha p d a b h s
  | .rotl p d a b h => Sys2Proof.Machine.execRotl p d a b h s
  | .rotr p d a b h => Sys2Proof.Machine.execRotr p d a b h s
  | .popc p d a h => Sys2Proof.Machine.execPopc p d a h s
  | .clz p d a h => Sys2Proof.Machine.execClz p d a h s
  | .ctz p d a h => Sys2Proof.Machine.execCtz p d a h s
  | .brev p d a h => Sys2Proof.Machine.execBrev p d a h s
  | .bfe p d a b h => Sys2Proof.Machine.execBfe p d a b h s
  | .bfi p d a b h => Sys2Proof.Machine.execBfi p d a b h s
  | .perm p d a b h => Sys2Proof.Machine.execPerm p d a b h s
  | .sel p k d a b h => Sys2Proof.Machine.execSel p k d a b h s
  | .lea p z d a b h => Sys2Proof.Machine.execLea p z d a b h s
  | .div p uns d a b h => Sys2Proof.Machine.execDiv p uns d a b h s
  | .rem p uns d a b h => Sys2Proof.Machine.execRem p uns d a b h s
  | .iabs p d a h => Sys2Proof.Machine.execIabs p d a h s
  | .ineg p d a h => Sys2Proof.Machine.execIneg p d a h s
  | .sext8 p d a h => Sys2Proof.Machine.execSext8 p d a h s
  | .sext16 p d a h => Sys2Proof.Machine.execSext16 p d a h s
  | .zext8 p d a h => Sys2Proof.Machine.execZext8 p d a h s
  | .zext16 p d a h => Sys2Proof.Machine.execZext16 p d a h s
  | .mov p d a h => Sys2Proof.Machine.execMov p d a h s
  | .iaddi p t d a imm => Sys2Proof.Machine.execIaddi p t d a imm s
  | .andi p d a imm => Sys2Proof.Machine.execAndi p d a imm s
  | .ori p d a imm => Sys2Proof.Machine.execOri p d a imm s
  | .xori p d a imm => Sys2Proof.Machine.execXori p d a imm s
  | .shli p d a n => Sys2Proof.Machine.execShli p d a n s
  | .shri p d a n => Sys2Proof.Machine.execShri p d a n s
  | .shai p d a n => Sys2Proof.Machine.execShai p d a n s
  | .rotli p d a n => Sys2Proof.Machine.execRotli p d a n s
  | .rotri p d a n => Sys2Proof.Machine.execRotri p d a n s
  | .icmpi p c t k a imm => Sys2Proof.Machine.execIcmpi p c t k a imm s
  | .fadd p t d a b h => Sys2Proof.Machine.execFadd p t d a b h s
  | .fsub p t d a b h => Sys2Proof.Machine.execFsub p t d a b h s
  | .fmul p t d a b h => Sys2Proof.Machine.execFmul p t d a b h s
  | .ffma p t d a b h => Sys2Proof.Machine.execFfma p t d a b h s
  | .fmin p t d a b h => Sys2Proof.Machine.execFmin p t d a b h s
  | .fmax p t d a b h => Sys2Proof.Machine.execFmax p t d a b h s
  | .fcmp p c t k a b h => Sys2Proof.Machine.execFcmp p c t k a b h s
  | .fabs p t d a h => Sys2Proof.Machine.execFabs p t d a h s
  | .fneg p t d a h => Sys2Proof.Machine.execFneg p t d a h s
  | .frcp p t d a h => Sys2Proof.Machine.execFrcp p t d a h s
  | .frsq p t d a h => Sys2Proof.Machine.execFrsq p t d a h s
  | .fsqrt p t d a h => Sys2Proof.Machine.execFsqrt p t d a h s
  | .fexp2 p t d a h => Sys2Proof.Machine.execFexp2 p t d a h s
  | .flog2 p t d a h => Sys2Proof.Machine.execFlog2 p t d a h s
  | .fsin p t d a h => Sys2Proof.Machine.execFsin p t d a h s
  | .fcos p t d a h => Sys2Proof.Machine.execFcos p t d a h s
  | .ftanh p t d a h => Sys2Proof.Machine.execFtanh p t d a h s
  | .fsigm p t d a h => Sys2Proof.Machine.execFsigm p t d a h s
  | .ffloor p t d a h => Sys2Proof.Machine.execFfloor p t d a h s
  | .fceil p t d a h => Sys2Proof.Machine.execFceil p t d a h s
  | .ftrunc p t d a h => Sys2Proof.Machine.execFtrunc p t d a h s
  | .frint p t d a h => Sys2Proof.Machine.execFrint p t d a h s
  | .fdot2 p t d a b h => Sys2Proof.Machine.execFdot2 p t d a b h s
  | .cvtf p src dst pos d a h => Sys2Proof.Machine.execCvtf p src dst pos d a h s
  | .cvti p src dst pos d a h => Sys2Proof.Machine.execCvti p src dst pos d a h s
  | .bscale p d a h => Sys2Proof.Machine.execBscale p d a h s
  | .bpack p d a b h => Sys2Proof.Machine.execBpack p d a b h s
  | .bunpk p d a b h => Sys2Proof.Machine.execBunpk p d a b h s
  | .fmtset a h => Sys2Proof.Machine.execFmtset a h s
  | .fmtget d => Sys2Proof.Machine.execFmtget d s
  | .shfl p o d a b h => Sys2Proof.Machine.execShfl p o d a b h s
  | .vote p o d a h => Sys2Proof.Machine.execVote p o d a h s
  | .gred p o d a h => Sys2Proof.Machine.execGred p o d a h s
  | .mset k a h => Sys2Proof.Machine.execMset k a h s
  | .mget d j => Sys2Proof.Machine.execMget d j s
  | .mand k j l => Sys2Proof.Machine.execMand k j l s
  | .mor k j l => Sys2Proof.Machine.execMor k j l s
  | .mnot k j => Sys2Proof.Machine.execMnot k j s
  | .mxor k j l => Sys2Proof.Machine.execMxor k j l s
  | .scan p o d a h => Sys2Proof.Machine.execScan p o d a h s
  | .nop => Sys2Proof.Machine.execNop s
  | .movShort h b d => Sys2Proof.Machine.execMovShort h b d s
  | .iaddShort h b d => Sys2Proof.Machine.execIaddShort h b d s
  | .isubShort h b d => Sys2Proof.Machine.execIsubShort h b d s
  | .imulShort h b d => Sys2Proof.Machine.execImulShort h b d s
  | .andShort h b d => Sys2Proof.Machine.execAndShort h b d s
  | .orShort h b d => Sys2Proof.Machine.execOrShort h b d s
  | .xorShort h b d => Sys2Proof.Machine.execXorShort h b d s
  | .shlShort h b d => Sys2Proof.Machine.execShlShort h b d s
  | .shrShort h b d => Sys2Proof.Machine.execShrShort h b d s
  | .shaShort h b d => Sys2Proof.Machine.execShaShort h b d s
  | .faddShort h b d => Sys2Proof.Machine.execFaddShort h b d s
  | .fsubShort h b d => Sys2Proof.Machine.execFsubShort h b d s
  | .fmulShort h b d => Sys2Proof.Machine.execFmulShort h b d s
  | .fmaxShort h b d => Sys2Proof.Machine.execFmaxShort h b d s
  | .fminShort h b d => Sys2Proof.Machine.execFminShort h b d s
  | .iaddi5Short h imm d => Sys2Proof.Machine.execIaddi5Short h imm d s
  | .bra o => Sys2Proof.Machine.execBra o s
  | .bany o a => Sys2Proof.Machine.execBany o a s
  | .ball o a => Sys2Proof.Machine.execBall o a s
  | .bnone o a => Sys2Proof.Machine.execBnone o a s
  | .bloop o a => Sys2Proof.Machine.execBloop o a s
  | .bdiv o a => Sys2Proof.Machine.execBdiv o a s
  | .call o args demand => Sys2Proof.Machine.execCall o args demand s
  | .callIndirect a args demand => Sys2Proof.Machine.execCallIndirect a args demand s
  | .ret => Sys2Proof.Machine.execRet s
  | .unwind a n => Sys2Proof.Machine.execUnwind a n s
  | .regang tag => Sys2Proof.Machine.execRegang tag s
  | .part => Sys2Proof.Machine.execPart s
  | .yield => Sys2Proof.Machine.execYield s
  | .exit => Sys2Proof.Machine.execExit s
  | .sleep a => Sys2Proof.Machine.execSleep a s
  | .migrate d a h => Sys2Proof.Machine.execMigrate d a h s
  | .home => Sys2Proof.Machine.execHome s
  | .migq d a h => Sys2Proof.Machine.execMigq d a h s
  | .ld p z d a imm => Sys2Proof.Machine.execLd p z d a imm s
  | .st p z d a imm => Sys2Proof.Machine.execSt p z d a imm s
  | .atom p o d a b h => Sys2Proof.Machine.execAtom p o d a b h s
  | .atomb p o d a b h => Sys2Proof.Machine.execAtomb p o d a b h s
  | .fence o z => Sys2Proof.Machine.execFence o z s
  | .cflush p a imm => Sys2Proof.Machine.execCflush p a imm s
  | .cinv p a imm => Sys2Proof.Machine.execCinv p a imm s
  | .pin p d a imm => Sys2Proof.Machine.execPin p d a imm s
  | .unpin p d a imm => Sys2Proof.Machine.execUnpin p d a imm s
  | .pref p a imm => Sys2Proof.Machine.execPref p a imm s
  | .waitw p d a imm => Sys2Proof.Machine.execWaitw p d a imm s
  | .qmin p d a b h => Sys2Proof.Machine.execQmin p d a b h s
  | .qmax p d a b h => Sys2Proof.Machine.execQmax p d a b h s
  | .qget p d b => Sys2Proof.Machine.execQget p d b s
  | .qset p a b h => Sys2Proof.Machine.execQset p a b h s
  | .spawn d a h => Sys2Proof.Machine.execSpawn d a h s
  | .join a h => Sys2Proof.Machine.execJoin a h s
  | .tdone d a h => Sys2Proof.Machine.execTdone d a h s
  | .tdoneAbandon d a h => Sys2Proof.Machine.execTdoneAbandon d a h s
  | .tnextS d => Sys2Proof.Machine.execTnextS d s
  | .tnextG d => Sys2Proof.Machine.execTnextG d s
  | .glaunch d a h => Sys2Proof.Machine.execGlaunch d a h s
  | .gprep d a b h => Sys2Proof.Machine.execGprep d a b h s
  | .gbind d a b h => Sys2Proof.Machine.execGbind d a b h s
  | .sqpush d a b h => Sys2Proof.Machine.execSqpush d a b h s
  | .sqpop d b => Sys2Proof.Machine.execSqpop d b s
  | .nmc a h => Sys2Proof.Machine.execNmc a h s
  | .nfence => Sys2Proof.Machine.execNfence s
  | .gctlStatus d a h => Sys2Proof.Machine.execGctlStatus d a h s
  | .gctlRelease d a h => Sys2Proof.Machine.execGctlRelease d a h s
  | .gctlInval d a h => Sys2Proof.Machine.execGctlInval d a h s
  | .copy p f a b h => Sys2Proof.Machine.execCopy p f a b h s
  | .copymm c f a b h => Sys2Proof.Machine.execCopymm c f a b h s
  | .tdef a b h => Sys2Proof.Machine.execTdef a b h s
  | .tfree a h => Sys2Proof.Machine.execTfree a h s
  | .tstat d a h => Sys2Proof.Machine.execTstat d a h s
  | .cseal d a h => Sys2Proof.Machine.execCseal d a h s
  | .cwait a h => Sys2Proof.Machine.execCwait a h s
  | .cpoll d a h => Sys2Proof.Machine.execCpoll d a h s
  | .mma p a b h => Sys2Proof.Machine.execMma p a b h s
  | .mmaz p a b h => Sys2Proof.Machine.execMmaz p a b h s
  | .accld o => Sys2Proof.Machine.execAccld o s
  | .accst o => Sys2Proof.Machine.execAccst o s
  | .accz o => Sys2Proof.Machine.execAccz o s
  | .bar z => Sys2Proof.Machine.execBar z s
  | .mbarInit a b h => Sys2Proof.Machine.execMbarInit a b h s
  | .mbarArrive p a b h => Sys2Proof.Machine.execMbarArrive p a b h s
  | .mbarWait p k a b h => Sys2Proof.Machine.execMbarWait p k a b h s
  | .mbarInval a h => Sys2Proof.Machine.execMbarInval a h s
  | .mbarTest p k a b h => Sys2Proof.Machine.execMbarTest p k a b h s
  | .csrr d b => Sys2Proof.Machine.execCsrr d b s
  | .csrw a b h => Sys2Proof.Machine.execCsrw a b h s
  | .trap b => Sys2Proof.Machine.execTrap b s
  | .eret => Sys2Proof.Machine.execEret s
  | .evpost a b h => Sys2Proof.Machine.execEvpost a b h s
  | .tlbinv a b h => Sys2Proof.Machine.execTlbinv a b h s
  | .brk b => Sys2Proof.Machine.execBrk b s
  | .pageWalk die => Sys2Proof.Machine.execPageWalk die s
  | .faultReplay seq => Sys2Proof.Machine.execFaultReplay seq s
  | .faultDecline seq => Sys2Proof.Machine.execFaultDecline seq s
  | .mscAccess stack => Sys2Proof.Machine.execMscAccess stack s
  | .refresh stack pch bank => Sys2Proof.Machine.execRefresh stack pch bank s
  | .activationAlert stack pch bank => Sys2Proof.Machine.execActivationAlert stack pch bank s
  | .rfmHoldEnd stack pch bank => Sys2Proof.Machine.execRfmHoldEnd stack pch bank s
  | .nmcAccept stack => Sys2Proof.Machine.execNmcAccept stack s
  | .sequencerStart stack => Sys2Proof.Machine.execSequencerStart stack s
  | .sequencerElement cmd => Sys2Proof.Machine.execSequencerElement cmd s
  | .sequencerYield cmd => Sys2Proof.Machine.execSequencerYield cmd s
  | .yieldCap cmd => Sys2Proof.Machine.execYieldCap cmd s
  | .nmcComplete cmd => Sys2Proof.Machine.execNmcComplete cmd s
  | .imageLoad stack first => Sys2Proof.Machine.execImageLoad stack first s
  | .routeHop stack first route hop => Sys2Proof.Machine.execRouteHop stack first route hop s
  | .dawnArrival stack first route => Sys2Proof.Machine.execDawnArrival stack first route s
  | .duskForward stack first node => Sys2Proof.Machine.execDuskForward stack first node s
  | .pass stack first node => Sys2Proof.Machine.execPass stack first node s
  | .fork2 stack first node => Sys2Proof.Machine.execFork2 stack first node s
  | .add stack first node => Sys2Proof.Machine.execAdd stack first node s
  | .sub stack first node => Sys2Proof.Machine.execSub stack first node s
  | .mul stack first node => Sys2Proof.Machine.execMul stack first node s
  | .fma stack first node => Sys2Proof.Machine.execFma stack first node s
  | .max stack first node => Sys2Proof.Machine.execMax stack first node s
  | .min stack first node => Sys2Proof.Machine.execMin stack first node s
  | .abs stack first node => Sys2Proof.Machine.execAbs stack first node s
  | .neg stack first node => Sys2Proof.Machine.execNeg stack first node s
  | .scale stack first node => Sys2Proof.Machine.execScale stack first node s
  | .exp2 stack first node => Sys2Proof.Machine.execExp2 stack first node s
  | .rcp stack first node => Sys2Proof.Machine.execRcp stack first node s
  | .cmp stack first node => Sys2Proof.Machine.execCmp stack first node s
  | .steer stack first node => Sys2Proof.Machine.execSteer stack first node s
  | .merge stack first node => Sys2Proof.Machine.execMerge stack first node s
  | .carry stack first node => Sys2Proof.Machine.execCarry stack first node s
  | .filter stack first node => Sys2Proof.Machine.execFilter stack first node s
  | .gate stack first node => Sys2Proof.Machine.execGate stack first node s
  | .redadd stack first node => Sys2Proof.Machine.execRedadd stack first node s
  | .redmax stack first node => Sys2Proof.Machine.execRedmax stack first node s
  | .redmin stack first node => Sys2Proof.Machine.execRedmin stack first node s
  | .count stack first node => Sys2Proof.Machine.execCount stack first node s
  | .rstat stack first node => Sys2Proof.Machine.execRstat stack first node s
  | .rbuf stack first node => Sys2Proof.Machine.execRbuf stack first node s
  | .isect stack first node => Sys2Proof.Machine.execIsect stack first node s
  | .cvt stack first node => Sys2Proof.Machine.execCvt stack first node s
  | .lut stack first node => Sys2Proof.Machine.execLut stack first node s
  | .src stack first node => Sys2Proof.Machine.execSrc stack first node s
  | .snk stack first node => Sys2Proof.Machine.execSnk stack first node s
  | .snkbar stack first node => Sys2Proof.Machine.execSnkbar stack first node s
  | .snkbarArrival stack first => Sys2Proof.Machine.execSnkbarArrival stack first s
  | .bridge stack first node inbound => Sys2Proof.Machine.execBridge stack first node inbound s
  | .connectionForm x y => Sys2Proof.Machine.execConnectionForm x y s
  | .streamTransfer x => Sys2Proof.Machine.execStreamTransfer x s
  | .linkLoss x y => Sys2Proof.Machine.execLinkLoss x y s
  | .hang stack first => Sys2Proof.Machine.execHang stack first s
  | .drainComplete stack first => Sys2Proof.Machine.execDrainComplete stack first s
  | .regionRestore stack first => Sys2Proof.Machine.execRegionRestore stack first s
  | .combineFlush id => Sys2Proof.Machine.execCombineFlush id s
  | .quantApply id => Sys2Proof.Machine.execQuantApply id s
  | .copyElement id => Sys2Proof.Machine.execCopyElement id s
  | .copyComplete id => Sys2Proof.Machine.execCopyComplete id s
  | .mmaComplete core => Sys2Proof.Machine.execMmaComplete core s
  | .packetAccept queue => Sys2Proof.Machine.execPacketAccept queue s
  | .workgroupDispatch die => Sys2Proof.Machine.execWorkgroupDispatch die s
  | .chunkSteal die => Sys2Proof.Machine.execChunkSteal die s
  | .launchComplete launch => Sys2Proof.Machine.execLaunchComplete launch s
  | .timeSlice die => Sys2Proof.Machine.execTimeSlice die s
  | .workgroupSave wg => Sys2Proof.Machine.execWorkgroupSave wg s
  | .workgroupResume wg => Sys2Proof.Machine.execWorkgroupResume wg s
  | .barRelease uid => Sys2Proof.Machine.execBarRelease uid s
  | .regangRelease group tag => Sys2Proof.Machine.execRegangRelease group tag s
  | .pathRotation uid => Sys2Proof.Machine.execPathRotation uid s
  | .watchdog uid => Sys2Proof.Machine.execWatchdog uid s
  | .sleepEnd uid => Sys2Proof.Machine.execSleepEnd uid s
  | .waitwPoll uid => Sys2Proof.Machine.execWaitwPoll uid s
  | .waitwTimeout uid => Sys2Proof.Machine.execWaitwTimeout uid s
  | .joinRecheck uid => Sys2Proof.Machine.execJoinRecheck uid s
  | .midnightTrigger core => Sys2Proof.Machine.execMidnightTrigger core s
  | .midnightSpill core => Sys2Proof.Machine.execMidnightSpill core s
  | .frameClaim uid => Sys2Proof.Machine.execFrameClaim uid s
  | .sliceReload uid => Sys2Proof.Machine.execSliceReload uid s
  | .migrationRequest uid => Sys2Proof.Machine.execMigrationRequest uid s
  | .migrationGrant uid => Sys2Proof.Machine.execMigrationGrant uid s
  | .continuationSend uid => Sys2Proof.Machine.execContinuationSend uid s
  | .continuationArrival uid => Sys2Proof.Machine.execContinuationArrival uid s
  | .returnArrival uid => Sys2Proof.Machine.execReturnArrival uid s
  | .eventSequence source => Sys2Proof.Machine.execEventSequence source s
  | .rdmaWrite key off data => Sys2Proof.Machine.execRdmaWrite key off data s
  | .rdmaRead key off len => Sys2Proof.Machine.execRdmaRead key off len s
  | .atomicFetchAdd key off add => Sys2Proof.Machine.execAtomicFetchAdd key off add s
  | .atomicCompareSwap key off cmp swap => Sys2Proof.Machine.execAtomicCompareSwap key off cmp swap s
  | .invalidRequestNak op => Sys2Proof.Machine.execInvalidRequestNak op s
  | .norzenStream frame => Sys2Proof.Machine.execNorzenStream frame s
  | .norzenMemoryRequest frame => Sys2Proof.Machine.execNorzenMemoryRequest frame s
  | .norzenMemoryReply frame => Sys2Proof.Machine.execNorzenMemoryReply frame s
  | .norzenPodBarrier frame => Sys2Proof.Machine.execNorzenPodBarrier frame s
  | .norzenAck frame => Sys2Proof.Machine.execNorzenAck frame s
  | .frameResend part => Sys2Proof.Machine.execFrameResend part s
  | .pairLost part => Sys2Proof.Machine.execPairLost part s
  | .groupResume seq => Sys2Proof.Machine.execGroupResume seq s
  | .terminate seq => Sys2Proof.Machine.execTerminate seq s
  | .preempt => Sys2Proof.Machine.execPreempt s
  | .spillGrow => Sys2Proof.Machine.execSpillGrow s
  | .regionEnd => Sys2Proof.Machine.execRegionEnd s
  | .attest => Sys2Proof.Machine.execAttest s
  | .flashImage => Sys2Proof.Machine.execFlashImage s
  | .ctxSetup => Sys2Proof.Machine.execCtxSetup s
  | .ctxTeardown => Sys2Proof.Machine.execCtxTeardown s
  | .dutySet => Sys2Proof.Machine.execDutySet s
  | .regionSave => Sys2Proof.Machine.execRegionSave s
  | .reset => Sys2Proof.Machine.execReset s
  | .powerThrottle => Sys2Proof.Machine.execPowerThrottle s
  | .throttleRelease => Sys2Proof.Machine.execThrottleRelease s
  | .counterReport => Sys2Proof.Machine.execCounterReport s
  | .dieCacheAccess die => Sys2Proof.Machine.execDieCacheAccess die s
  | .bankAccess stack pch bank => Sys2Proof.Machine.execBankAccess stack pch bank s
  | .congestionNotification => Sys2Proof.Machine.execCongestionNotification s
  | .norzenFrameDrop frame => Sys2Proof.Machine.execNorzenFrameDrop frame s

end Sys2Proof.Machine
end

