-- ==== Sys2Proof/Machine/Errors.lean ====
section
/-! DEFINITION. Errors that the part's own checks find, and how each is contained (spec/08_registers_and_frames.md R192;
spec/18_faults_and_preemption.md R419). Those of the banks and scratchpads are met by their reads (Mem). -/

namespace Sys2Proof.Machine

/-- Count in a unit's counter of corrected errors. -/
def State.countError (s : State) (counter : Nat) : State :=
  s.onOutside fun o => { o with corrected := assocSet o.corrected counter (assoc 0 o.corrected counter + 1) }

/-- A register whose word for a lane has become poisoned: a compact one holds word 0, and as affine word 1. -/
def Reg.poisonLane (r : Reg) (l : Nat) : Reg :=
  match r with
  | .uniform u => .uniform { u with poison := true }
  | .affine b st => if l = 0 then .affine { b with poison := true } st else .affine b { st with poison := true }
  | .general w => .general (w.set l { w.get l with poison := true })

/-- R192: an uncorrectable error in a lane word sets its poison and raises nothing. -/
def Slice.poisonWord (x : Slice) (p : RegPlace) (l : Nat) : Slice :=
  let hit := fun (r : Reg) => r.poisonLane l
  match p with
  | .frame d k => { x with frames := modifyNth d (fun f => { f with regs := modifyNth k hit f.regs }) x.frames }
  | .sof k => { x with sof := modifyNth k (fun w => w.set l { w.get l with poison := true }) x.sof }
  | .lrf k => { x with lrf := modifyNth k hit x.lrf }
  | .latch k => { x with latch := modifyNth k (fun q => (hit q.1, q.2)) x.latch }

/-- A line with a sector poisoned. -/
def LineData.poisonSector (d : LineData) (h : Nat) : LineData :=
  { d with poison := if h = 0 then (true, d.poison.2) else (d.poison.1, true) }

def CacheAt.source : CacheAt → Byte
  | .l1 c => srcDie (dieOfCore c)
  | .quad q => srcDie (dieOfQuad q)
  | .die n => srcDie n
  | .msc n => srcBase n

/-- A sector of a cached line is poisoned at its level (R107). -/
def State.poisonCached (s : State) (c : CacheAt) (line h : Nat) : State :=
  match c with
  | .l1 n => s.onCaches fun c =>
    { c with l1 := updateWhere (fun l => l.core == n && l.addr == line) (fun x => { x with toLineData := x.toLineData.poisonSector h }) c.l1 }
  | .quad q => s.onCaches fun c =>
    { c with quadLines := updateWhere (·.at q line) (fun x => { x with toLineData := x.toLineData.poisonSector h }) c.quadLines }
  | .die _ => s.onCaches fun c =>
    { c with dieLines := updateWhere (·.addr == line) (fun x => { x with toLineData := x.toLineData.poisonSector h }) c.dieLines }
  | .msc _ => s.onCaches fun c =>
    { c with mscLines := updateWhere (·.addr == line) (fun x => { x with toLineData := x.toLineData.poisonSector h }) c.mscLines }

/-- Drop a line that cannot be told any more, with its bytes: whether it was dirty. A pinned line keeps its way (R118). -/
def State.loseLine (s : State) (c : CacheAt) (line : Nat) : State × Bool :=
  match c with
  | .l1 n => (s.onCaches fun c => { c with l1 := c.l1.filter fun l => !(l.core == n && l.addr == line) }, false)
  | .quad q =>
    match s.quadLine? q line with
    | none => (s, false)
    | some l => ((s.onCaches fun c => { c with quadLines := updateWhere (·.at q line) (fun x => { x with dirty := false }) c.quadLines }).quadOut q line, l.dirty)
  | .die _ =>
    (s.onCaches fun c => { c with dieLines := c.dieLines.filter (·.addr != line) }, s.caches.dieLines.any fun l => l.addr == line && l.dirty)
  | .msc _ =>
    (s.onCaches fun c => { c with mscLines := c.mscLines.filter (·.addr != line) },
     s.caches.mscLines.any fun l => l.addr == line && anyPair l.dirty)

/-- End every launch whose context holds a core of a die (R419). -/
def State.endOnDie (s : State) (die : Nat) : State :=
  let ctxs := (s.wgs.filter fun w => dieOfCore w.core == die && w.status != .saved).map fun w => s.launchCtx w.launch
  (s.launches.filter fun l => ctxs.contains l.ctx && !l.terminated).foldl State.terminate s

def CacheAt.onDie : CacheAt → Nat
  | .l1 c => dieOfCore c
  | .quad q => dieOfQuad q
  | .die n | .msc n => n

/-- R419: the containment of one error. -/
def State.meetError (s : State) (e : HwError) : State :=
  match e with
  | .corrected n => s.countError n
  | .laneWord u p l => s.onSlice u fun x => x.poisonWord p l
  | .cacheData c line h => (s.poisonCached c line h).postMemory c.source 3 none none (BitVec.ofNat 64 (line + 32 * h)) 1
  | .cacheTag c line =>
    match s.loseLine c line with
    | (s, false) => s.postMemory c.source 3 none none (BitVec.ofNat 64 line) 2
    | (s, true) => (s.postMemory c.source 3 none none (BitVec.ofNat 64 line) 3).endOnDie c.onDie
  | .tlb t n => (s.onCaches fun c => { c with tlb := c.tlb.filter (· != t) }).countError n
  | .walkCache w n => (s.onCaches fun c => { c with walkCache := c.walkCache.filter (· != w) }).countError n
  | .roof n => { s with roofPoison := insertNat n s.roofPoison }
  | .acc core k => s.putAcc { s.accSet core k with poison := true }
  | .groupState u =>
    match s.slice? u with
    | none => s
    | some x =>
      let t := trapAt causePoison x.pc
      let env := s.env x
      ((s.setSlice { x with ecause := t.ecause, eaddr := t.eaddr, epc := x.pc }).haltGroup x t).postMemory
        (srcDie (dieOfCore env.origin)) 3 (some env.ctx) (some env.origin) 0 10
  | .element st first =>
    match s.region? st first with
    | none => s
    | some r => s.abortRegion r 0x41 3 0

/-- The errors of a step. -/
def State.meetErrors (s : State) : State := s.errors.foldl State.meetError { s with errors := [] }

end Sys2Proof.Machine
end

