-- ==== Sys2Proof/Machine/Sched.lean ====
section
/-! DEFINITION. Who moves next: the choice of a gang by each pipe, the fetch of its instruction, and the steps of the
part's units (spec/16_scheduling.md R367; spec/11_formats_and_assembly.md R225-R227; spec/18_faults_and_preemption.md R396;
log entry 1). -/

namespace Sys2Proof.Machine

/-! ### Fetches that wait (R226) -/

/-- Slices of the gang wait for a walk of a page of code. -/
def State.fetchMiss (s : State) (xs : List Slice) (va : DWord) : State :=
  xs.foldl (fun s x =>
    let e := s.env x
    (s.openMiss { who := .slice x.uid, unit := .core e.core, ctx := e.ctx, va := va, kind := .fetch }).onSlice x.uid
      fun y => { y with status := .missWait }) s

/-- The gang parks on the fault of its fetch. -/
def State.fetchFault (s : State) (xs : List Slice) (va : DWord) (sub level : Nat) : State :=
  match xs.map fun x => ({ who := .slice x.uid, unit := .core (s.env x).core, ctx := (s.env x).ctx, va := va, kind := .fetch } : Ask) with
  | [] => s
  | a :: as =>
    let s := s.parkFault (a :: as) a sub level
    xs.foldl (fun s x => s.onSlice x.uid fun y => { y with status := .faultWait }) s

/-! ### Traps met before an instruction issues (R396) -/

/-- The trap of a parked access that service declined: EADDR the faulting address, EPC the resume point, and the access
forgotten, having performed nothing. -/
def State.trapParked (s : State) (x : Slice) (d : Declined) : State :=
  let id := match d.ask.who with
    | .parked _ k => k
    | _ => 0
  let fpc := ((x.parked.find? (·.id == id)).map (·.pc)).getD x.pc
  let s := (s.clearDeclined d.ask.who).setSlice (({ x with parked := x.parked.filter (·.id != id) } : Slice).fillDue id [] 0)
  s.takeTrap x.uid { cause := pageCause d.subcode, subcode := d.subcode, eaddr := d.ask.va, epc := x.pc, fpc := fpc }

/-- A fetch whose fault was declined. -/
def State.declinedFetch (s : State) (x : Slice) : Option Declined :=
  (s.declinedOf (.slice x.uid)).filter fun d => d.ask.kind == .fetch

/-- What a slice has to meet before its next instruction. -/
def State.boundaryTrap (s : State) (x : Slice) : Option (State → State) :=
  match x.pendingTrap, s.declinedParked x, s.declinedFetch x with
  | some p, _, _ => some fun s => s.takePending x p
  | none, some d, _ => some fun s => s.trapParked x d
  | none, none, some d => some fun s => (s.clearDeclined (.slice x.uid)).takeTrap x.uid (trapPage d.subcode x.pc d.ask.va)
  | none, none, none => none

/-- Traps that some of the issuers meet at this boundary; the others issue later, alone. -/
def State.boundaryTraps (s : State) (xs : List Slice) : Option State :=
  match xs.filterMap s.boundaryTrap with
  | [] => none
  | fs => some (fs.foldl (fun s f => f s) (if 1 < xs.length then s.partSlices (xs.map (·.uid)) else s))

/-! ### Gangs that may issue (R367) -/

/-- The core and pipe from which a slice issues: its group's, or, of a guest, its issue place's (R386). -/
def State.pipeOf (s : State) (x : Slice) : Nat × Nat :=
  match x.guest with
  | some g => (g.host, g.slot / 8)
  | none => ((s.env x).origin, (s.env x).group.pipe)

/-- The slices that issue with a slice: a guest alone; else its gang, less what Midnight has spilled. -/
def State.issuers (s : State) (x : Slice) : List Slice :=
  if x.guest.isSome then [x] else (s.gangOf x).filter fun y => y.guest.isNone && y.status != .spilled

/-- The next instruction of a slice waits for a register that a parked access is still to bring (R396). -/
def State.isInterlocked (s : State) (x : Slice) : Bool :=
  (x.parked.any fun p => p.instr.parkedDst.isSome) &&
  match (s.fetch x).2 with
  | .ok i => x.interlocked i
  | _ => false

/-- A slice issues its next instruction unless it waits, sleeps, is blocked, moves, or is stopped. -/
def State.sliceReady (s : State) (x : Slice) : Bool :=
  x.status == .ready && x.mig.isNone && s.mayRun x && decide (x.notBefore.toNat ≤ s.clock.toNat) && (s.rotationDue x).isNone &&
  !s.isInterlocked x

def State.gangReady (s : State) (xs : List Slice) : Bool := !xs.isEmpty && xs.all s.sliceReady

def State.pipe? (s : State) (core pipe : Nat) (scalar : Bool) : Option Pipe :=
  s.pipes.find? fun p => p.core == core && p.pipe == pipe && p.scalar == scalar

/-- The gang that issued there in the previous clock, while it has issued fewer than 32 instructions in a row. -/
def State.goesOn (s : State) (core pipe : Nat) (scalar : Bool) (x : Slice) : Bool :=
  match s.pipe? core pipe scalar with
  | some p => p.gang == x.gang && decide ((s.clock - p.last).toNat ≤ 1) && decide (p.row < 32)
  | none => false

/-- The record of what a pipe, or its scalar path, issued; the gang's count of unissued clocks starts again. -/
def State.noteIssue (s : State) (x : Slice) (us : List Nat) (scalar : Bool) : State :=
  let at_ := s.pipeOf x
  let row := match s.pipe? at_.1 at_.2 scalar with
    | some p => if p.gang = x.gang ∧ (s.clock - p.last).toNat ≤ 1 then p.row + 1 else 1
    | none => 1
  { s with
    pipes := { core := at_.1, pipe := at_.2, gang := x.gang, row := row, last := s.clock, scalar := scalar } ::
      s.pipes.filter (fun p => !(p.core == at_.1 && p.pipe == at_.2 && p.scalar == scalar)),
    slices := s.slices.map fun (y : Slice) => if us.contains y.uid then { y with readySince := s.clock } else y }

/-! ### Issue -/

/-- What a gang that issues does: what it meets at the boundary first; else its next instruction is fetched and executed. -/
def State.runNext (s : State) (x : Slice) (xs : List Slice) (us : List Nat) : Host.Outcome State Fault Refusal :=
  match s.boundaryTraps xs with
  | some s => .next s
  | none =>
    let (s, f) := s.fetch x
    let trap := fun (t : TrapInfo) => ({ s with cur := us }).takeTraps (us.map fun u => (u, t))
    match f with
    | .ok i => exec i { s with cur := us }
    | .illegal _ => .next (trap (trapAt causeIllegal x.pc))
    | .poison va => .next (trap (trapOn causePoison x.pc va))
    | .miss va => .next (s.fetchMiss xs va)
    | .fault va sub level => .next (s.fetchFault xs va sub level)

/-- A gang issues, on its pipe or on the pipe's scalar path. -/
def State.issueGang (s : State) (us : List Nat) (scalar : Bool) : Host.Outcome State Fault Refusal :=
  let xs := us.filterMap s.slice?
  match xs with
  | [] => .refused .noGang
  | x :: _ =>
    if !s.gangReady xs then .refused .noGang
    else (s.noteIssue x us scalar).runNext x xs us

/-! ### The pipe's choice (R367, R215) -/

/-- What the next instruction of a ready gang would do; nothing where it would wait on. -/
def State.tryNext (s : State) (xs : List Slice) : Option State :=
  match xs with
  | [] => none
  | x :: _ =>
    match s.runNext x xs (xs.map (·.uid)) with
    | .next t => if ({ t with cur := [] } : State) = s then none else some t
    | _ => some s

/-- A gang that waits at its instruction, or at its issue limit, is not ready until it can go on. -/
def State.stalls (s : State) (xs : List Slice) : Bool :=
  (xs.any fun x => x.since.isSome || !x.parked.isEmpty || !x.remoteOut.isEmpty) && (s.tryNext xs).isNone

/-- Ready and unissued for 64 consecutive clocks. -/
def State.starved (s : State) (x : Slice) : Bool := decide (64 ≤ (s.clock - x.readySince).toNat)

/-- The slices, one for each ready gang, that a pipe chooses among. -/
def State.readyOn (s : State) (core pipe : Nat) : List Slice :=
  s.slices.filter fun x => x.live && s.pipeOf x == (core, pipe) && s.gangReady (s.issuers x) && !s.stalls (s.issuers x) &&
    ((s.issuers x).map (·.uid)).head? == some x.uid

/-- R367: the choice among ready gangs by the first rule that yields one. -/
def State.choose (s : State) (core pipe : Nat) (scalar : Bool) (xs : List Slice) : Option Slice :=
  let age := fun (x : Slice) => x.age.toNat
  ((minBy? age (xs.filter s.starved)).or (xs.find? (s.goesOn core pipe scalar))).or
    (minBy? (fun x => (3 - (s.env x).launch.pkt.prio) * 2 ^ 64 + age x) xs)

def State.pipeChoice (s : State) (core pipe : Nat) : Option Slice := s.choose core pipe false (s.readyOn core pipe)

end Sys2Proof.Machine

namespace Sys2Proof

/-- Instructions with a register result of the classes that the scalar path takes (R214, R215). -/
def Instr.onScalarPath (i : Instr) : Bool :=
  match i with
  | .iadd .. | .isub .. | .imul .. | .imulh .. | .imad .. | .imin .. | .imax .. | .and .. | .or .. | .xor .. | .andn ..
  | .orn .. | .xnor .. | .not .. | .shl .. | .shr .. | .sha .. | .rotl .. | .rotr .. | .popc .. | .clz .. | .ctz ..
  | .brev .. | .bfe .. | .bfi .. | .perm .. | .sel .. | .lea .. | .iabs .. | .ineg .. | .sext8 .. | .sext16 ..
  | .zext8 .. | .zext16 .. | .mov .. | .iaddi .. | .andi .. | .ori .. | .xori .. | .shli .. | .shri .. | .shai ..
  | .rotli .. | .rotri .. | .fadd .. | .fsub .. | .fmul .. | .ffma .. | .fmin .. | .fmax .. | .fabs .. | .fneg ..
  | .ffloor .. | .fceil .. | .ftrunc .. | .frint .. | .fdot2 .. | .cvtf .. | .cvti .. | .fmtget .. | .movShort ..
  | .iaddShort .. | .isubShort .. | .imulShort .. | .andShort .. | .orShort .. | .xorShort .. | .shlShort ..
  | .shrShort .. | .shaShort .. | .faddShort .. | .fsubShort .. | .fmulShort .. | .fmaxShort .. | .fminShort ..
  | .iaddi5Short .. => true
  | _ => false

/-- The source registers of such an instruction, each with its number of registers. -/
def Instr.resultSources (i : Instr) : List (Opnd × Nat) :=
  let v := fun (n : Fin 32) => (Opnd.v ⟨n.val, by omega⟩, 1)
  match i with
  | .movShort _ b _ => [v b]
  | .iaddShort _ b d | .isubShort _ b d | .imulShort _ b d | .andShort _ b d | .orShort _ b d | .xorShort _ b d | .shlShort _ b d
  | .shrShort _ b d | .shaShort _ b d | .faddShort _ b d | .fsubShort _ b d | .fmulShort _ b d | .fmaxShort _ b d
  | .fminShort _ b d => [v b, v d]
  | .iaddi5Short _ _ d => [v d]
  | .cvtf _ _ y _ d a _ | .cvti _ _ y _ d a _ => (a, 1) :: (if y.bits < 32 then [(d.asOpnd, 1)] else [])
  | i =>
    match i.uses with
    | none => []
    | some u => u.srcs.map (fun x => (x.1, x.2.count)) ++
      (match u.pfx.bind (·.c), u.c with | some c, some w => [(c, w.count)] | _, _ => [])

end Sys2Proof

namespace Sys2Proof.Machine

/-- Whether the result of an instruction of those classes is uniform in a slice (R176): every source is, and the operation is
lane-invariant. -/
def State.uniformResult (s : State) (i : Instr) (x : Slice) : Bool :=
  (i.resultSources.all fun o => (natsFrom 0 o.2).all fun k => (x.readOpnd (s.env x) s.clock (o.1.plus k)).isUniform) &&
  (match i with
   | .sel p k _ _ _ _ => let take := takeOf x p; let m := x.mask k.toNat; m &&& take == take || m &&& take == 0
   | .cvtf p a b _ _ _ _ | .cvti p a b _ _ _ _ => x.convRm p a b != .rst
   | _ => true)

/-- Whether the next instruction of a ready gang runs on the scalar path. -/
def State.scalarNext (s : State) (xs : List Slice) : Bool :=
  match xs with
  | [] => false
  | x :: _ =>
    match (s.fetch x).2 with
    | .ok i => i.onScalarPath && xs.all (s.uniformResult i)
    | _ => false

/-- What the scalar path takes in the clock in which the pipe issues another gang. -/
def State.scalarChoice (s : State) (core pipe : Nat) : Option Slice :=
  match s.pipeChoice core pipe with
  | none => none
  | some c => s.choose core pipe true ((s.readyOn core pipe).filter fun x => x.uid != c.uid && s.scalarNext (s.issuers x))

/-! ### Steps of the units -/

/-- What a step comes to. -/
abbrev Res := Host.Outcome State Fault Refusal

/-- Node steps, by operation. -/
def State.nodeSteps (s : State) (st first n : Nat) : List Res :=
  [execPass, execFork2, execAdd, execSub, execMul, execFma, execMax, execMin, execAbs, execNeg, execScale, execExp2, execRcp,
   execCmp, execSteer, execMerge, execCarry, execFilter, execGate, execRedadd, execRedmax, execRedmin, execCount, execRstat,
   execRbuf, execIsect, execCvt, execLut, execSrc, execSnk, execSnkbar, execDuskForward].map (fun f => f st first n s) ++
  [execBridge st first n true s, execBridge st first n false s]

def State.regionSteps (s : State) (r : Region) : List Res :=
  [execImageLoad r.stack r.first s, execSnkbarArrival r.stack r.first s, execHang r.stack r.first s, execDrainComplete r.stack r.first s] ++
  (r.nodes.flatMap fun n => s.nodeSteps r.stack r.first n.num) ++
  r.routes.zipIdx.flatMap fun t =>
    execDawnArrival r.stack r.first t.2 s :: (natsFrom 0 t.1.links.length).map fun h => execRouteHop r.stack r.first t.2 h s

def State.bankSteps (s : State) (b : Bank) : List Res :=
  [execRefresh b.stack b.pch b.bank s, execActivationAlert b.stack b.pch b.bank s, execRfmHoldEnd b.stack b.pch b.bank s]

def State.cmdSteps (s : State) (c : Cmd) : List Res :=
  [execSequencerElement c.id s, execSequencerYield c.id s, execYieldCap c.id s, execNmcComplete c.id s]

def State.sliceSteps (s : State) (x : Slice) : List Res :=
  [execBarRelease, execPathRotation, execWatchdog, execSleepEnd, execWaitwPoll, execWaitwTimeout, execJoinRecheck, execFrameClaim,
   execSliceReload, execMigrationRequest, execMigrationGrant, execContinuationSend, execContinuationArrival,
   execReturnArrival].map (fun f => f x.uid s) ++
  (match x.status with
   | .atRegang tag => [execRegangRelease x.group tag s]
   | _ => [])

def State.dieSteps (s : State) (d : Nat) : List Res :=
  [execPageWalk d s, execDieCacheAccess d s, execWorkgroupDispatch d s, execChunkSteal d s, execTimeSlice d s, execMscAccess d s,
   execNmcAccept d s, execSequencerStart d s]

def State.coreSteps (s : State) (c : Nat) : List Res := [execMmaComplete c s, execMidnightTrigger c s, execMidnightSpill c s]

/-- Commands of the host's mailbox, and the work of firmware. -/
def State.firmwareSteps (s : State) : List Res :=
  [execFaultReplay .none s, execFaultDecline .none s, execGroupResume .none s, execTerminate .none s, execPreempt s, execSpillGrow s,
   execRegionEnd s, execRegionSave s, execAttest s, execFlashImage s, execCtxSetup s, execCtxTeardown s, execDutySet s,
   execCounterReport s]

/-- The device firmware's answers to records that it serves. -/
def State.serviceSteps (s : State) : List Res :=
  (s.caches.faults.filterMap fun f => if f.host then none else f.seq).flatMap
    (fun k => [execFaultReplay (some k) s, execFaultDecline (some k) s]) ++
  (s.groups.filterMap fun g => if g.haltHost then none else g.haltSeq).flatMap
    fun k => [execGroupResume (some k) s, execTerminate (some k) s]

/-- Requests that wait at banks. -/
def State.queuedSteps (s : State) : List Res :=
  s.caches.bankQueue.filterMap fun r => (stackOf r.addr).map fun b => let k := bankOf b.2; execBankAccess b.1 k.1 k.2.1 s

/-- Every step that a unit of the part might take, of itself (log entry 1). Requests of hosts and peers, the loss of a link,
throttling and reset come from outside. -/
def State.unitSteps (s : State) : List Res :=
  (natsFrom 0 16).flatMap s.dieSteps ++ (natsFrom 0 128).flatMap s.coreSteps ++
  s.readerQueue.toList.map (fun q => execPacketAccept q s) ++ s.launches.map (fun l => execLaunchComplete l.id s) ++
  s.wgs.flatMap (fun w => [execWorkgroupSave w.uid s, execWorkgroupResume w.uid s]) ++
  s.slices.flatMap s.sliceSteps ++ s.queuedSteps ++ s.engines.banks.flatMap s.bankSteps ++ s.engines.cmds.flatMap s.cmdSteps ++
  s.engines.regions.flatMap s.regionSteps ++ s.engines.savedRegions.map (fun r => execRegionRestore r.stack r.first s) ++
  s.engines.channels.map (fun c => execStreamTransfer c.id s) ++
  s.engines.channels.flatMap (fun c => s.engines.channels.map fun d => execConnectionForm c.id d.id s) ++
  s.caches.deferred.flatMap (fun d => [execCombineFlush d.id s, execQuantApply d.id s]) ++
  s.engines.copies.flatMap (fun c => [execCopyElement c.id s, execCopyComplete c.id s]) ++
  (s.outside.events.map fun e => execEventSequence e.source.toNat s) ++
  s.outside.pairs.flatMap (fun p => [execFrameResend p.part s, execPairLost p.part s]) ++ s.serviceSteps ++ s.firmwareSteps

/-! ### The choice -/

/-- What a move does. -/
def State.perform (s : State) (m : Move) : Host.Outcome State Fault Refusal :=
  match m with
  | .issue us => s.issueGang us false
  | .scalar us => s.issueGang us true
  | .unit i => exec i s

/-- The gangs that the pipes choose. -/
def State.issueMoves (s : State) : List Move :=
  ((s.slices.filter (·.live)).map s.pipeOf).eraseDups.flatMap fun (p : Nat × Nat) =>
    let us := fun (x : Slice) => (s.issuers x).map (·.uid)
    ((s.pipeChoice p.1 p.2).map fun x => .issue (us x)).toList ++ ((s.scalarChoice p.1 p.2).map fun x => .scalar (us x)).toList

def isNext {α β γ : Type} (o : Host.Outcome α β γ) : Bool :=
  match o with
  | .next _ => true
  | _ => false

/-- What the moves that are open come to. -/
def State.openMoves (s : State) : List Res := (s.issueMoves.map s.perform ++ s.unitSteps).filter isNext

/-- The moves that R378 and R367 bound, each with the clock since which it has been due: a rotation, the release of a REGANG round
that all have reached or whose window is over, the steps that unblock a slice which waits for granules, and the issue of a gang
that is starved. -/
def State.boundMoves (s : State) : List (Nat × Res) :=
  let xs := s.slices.filter (·.live)
  let blocked := xs.filter fun x => x.blockedNeed.isSome
  xs.map (fun x => (0, execPathRotation x.uid s)) ++
  xs.flatMap (fun x => match x.status with
    | .atRegang tag => [(((((s.group? x.group).bind fun g => g.rounds.lookup tag).map fun r => r.1.toNat).getD 0), execRegangRelease x.group tag s)]
    | _ => []) ++
  blocked.flatMap (fun x => let c := (s.env x).origin
    [execFrameClaim x.uid s, execMidnightTrigger c s, execMidnightSpill c s].map fun r => (x.blockedSince.toNat, r)) ++
  s.issueMoves.filterMap fun m => match m with
    | .issue (u :: us) => ((s.slice? u).filter s.starved).map fun x => (x.readySince.toNat, s.perform (.issue (u :: us)))
    | _ => none

/-- Of those that are open, the one due for longest. -/
def State.dueMove (s : State) : Option Res := (minBy? (·.1) (s.boundMoves.filter fun r => isNext r.2)).map (·.2)

/-- The next move: the head of the agenda; else, every other time, the move that is due for longest; else one of the moves that
are open, if any (log entry 1). -/
def State.move (s : State) : Host.Outcome State Fault Refusal :=
  match s.agenda with
  | m :: rest => ({ s with agenda := rest }).perform m
  | [] =>
    match if s.ticks % 2 = 0 then s.dueMove else none with
    | some r => r
    | none =>
      match s.openMoves with
      | [] => .next s
      | ms => nth (.next s) ms (Config.pick s.ticks % ms.length)

/-- R340: a region without an endpoint writes CAP into the log of an invocation by itself. -/
def State.startIdle (s : State) : State :=
  s.engines.regions.foldl (fun s r =>
    if r.state == .running && r.endpoints.isEmpty && !s.regionParked r then
      match r.invs.find? fun v => !v.started && v.excLog != 0 with
      | some v =>
        match s.startInv r v.num with
        | (s, .held h) => s.askFor h
        | (s, _) => s
      | none => s
    else s) s

/-- R81: the hang monitor of a region is suspended while a fault is pending for it, and counts on after. -/
def State.watchRegions (s : State) : State :=
  s.onEngines fun g =>
    { g with regions := g.regions.map fun r =>
        match r.suspended, s.regionParked r with
        | none, true => { r with suspended := some (s.baseClk - r.fired) }
        | some n, false => { r with suspended := none, fired := s.baseClk - n }
        | _, _ => r }

/-- Updates that have been held back for 256 clocks are applied (R117, R140). -/
def State.applyDue (s : State) (clock : DWord) : State := s.flushDeferred fun d => decide (256 ≤ (clock - d.since).toNat)

/-- A slice whose gang is not ready is not counted as unissued (R367); the clock since which one is frame-blocked stands apart
(R379). -/
def State.watchReady (s : State) : State :=
  { s with slices := s.slices.map fun (x : Slice) =>
      if s.gangReady (s.issuers x) && !s.stalls (s.issuers x) then x else { x with readySince := s.clock } }

/-- Time has passed: n clocks of the compute dies. -/
def State.pass (s : State) (n : Nat) : State :=
  let part := s.basePart + 2000 * n
  { s with clock := s.clock + BitVec.ofNat 64 n, baseClk := s.baseClk + part / s.dieMHz, basePart := part % s.dieMHz }

/-- After a move: errors are contained; accesses held for want of something are tried again; what watches the slices and the
regions does so; workgroups that have ended give back what they hold; no gang is issuing; time passes, and the requests that
have then waited their longest at a bank are served. -/
def State.finish (s : State) (ticks : Nat) : State :=
  let n := Config.clocksOfStep ticks
  let s := (s.applyDue (s.clock + BitVec.ofNat 64 n)).meetErrors.retryFrees.retryArrivals.retryHeld.syncSlices
  { (s.startIdle.watchRegions.watchReady.reap.pass n).serveOverdue with cur := [], ticks := ticks + 1 }

def State.stepOnce (s : State) : Host.Outcome State Fault Refusal :=
  match ({ s with cur := [] }).move with
  | .next t => .next (t.finish s.ticks)
  | .fault r => .fault r
  | .refused r => .refused r

/-! ### The part with an instruction to run -/

/-- Where the instruction stands: byte 0x10000 of stack 0, at the same virtual address. -/
def probeVa : DWord := 0x10000
def probePa : Nat := homedBase + 0x10000

/-- A leaf entry for that page: readable, writable, executable, homed in stack 0. -/
def probePte : DWord := BitVec.ofNat 64 (1 + 2 + 4 + 8 + probePa)

/-- A launch of one slice with the instruction's bytes at its entry, and the slice next to issue. -/
def State.withProgram (s : State) (bs : List Byte) : State :=
  let n := s.nextId
  let p : Packet := { Packet.blank with entry := probeVa, demand := 12 }
  let s := s.writeHome probePa (padTo 64 bs) .normal
  let entry : TlbEntry := { unit := .core 1, ctx := 1, page := probeVa.toNat, log2 := 12, pte := probePte }
  let x : Slice := Slice.start (n + 3) (n + 2) 0 (n + 4) s.clock 1 p 0 ⟨1, 1, 1, 1⟩
  let w : Workgroup :=
    { uid := n + 1, launch := n, work := 0, core := 1, slot := 0, scrBase := 0, scrBytes := 0, tileFirst := 0, tiles := 0,
      accs := [], producer := 0, tokens := List.replicate 8 {}, born := n + 1 }
  { s with
    agenda := [.issue [n + 3]], nextId := n + 5,
    caches := { s.caches with tlb := entry :: s.caches.tlb, quadLines := s.caches.quadLines.filter (·.addr != probePa) },
    launches := s.launches ++ [{ id := n, queue := 0, seq := 0, ctx := 1, pkt := p, chunk := 1, started := [0] }],
    wgs := s.wgs ++ [w], groups := s.groups ++ [{ uid := n + 2, wg := n + 1, idx := 0, pipe := 0, place := 0, born := n + 2 }],
    slices := s.slices ++ [x] }

end Sys2Proof.Machine
end

