-- ==== Sys2Proof/Machine/Step.lean ====
section
/-! DEFINITION. One step of the part, and the part with an instruction placed where its next step fetches. -/

namespace Sys2Proof.Machine

/-- One step (log entry 1): the next move, and what follows every move. -/
def step (s : State) : Host.Outcome State Fault Refusal := s.stepOnce

/-- The part with an instruction placed (log entry 30): a launch of one slice, ready to issue it in the next step. -/
def State.withFetchWord (s : State) (nbits w : Nat) : State :=
  s.withProgram (natToBytes (nbits / 8) w ++ natToBytes 12 0)

end Sys2Proof.Machine
end

