-- ==== Sys2Proof/Safety.lean ====
section
/-! DEFINITION. Runs of the part, and what a run keeps to. -/

namespace Sys2Proof.Machine

/-- `n` steps lead from one state to another. -/
def State.leadsTo (s : State) : Nat → State → Prop
  | 0, t => s = t
  | n + 1, t => ∃ u, step s = .next u ∧ u.leadsTo n t

/-- A state that some run from reset meets, with whatever inputs its agenda brought. -/
def State.reachable (t : State) : Prop := ∃ n, State.reset.leadsTo n t

/-- A run is safe while no step ends in a fault; a refusal only says that an agenda asked for a step that was not open. -/
def State.safe (s : State) : Prop := ∀ n t r, s.leadsTo n t → step t ≠ .fault r

/-- Between two steps no gang is issuing, and no workgroup that has ended still holds what it was given (R319, R342). -/
def State.settled (s : State) : Prop := s.cur = [] ∧ ∀ w ∈ s.wgs, s.wgOver w = false

/-- Both memories are in their canonical form. -/
def State.memOk (s : State) : Prop := s.mem.wf = true ∧ s.roof.wf = true

/-! ### What an instruction of lanes does to a slice (R173, R177, R249) -/

/-- All of a state but its slices, its thread groups and the counter of names: memories, caches, engines, control registers,
workgroups, launches, the host's and peers' side, and the clock. -/
def State.others (s : State) : State := { s with slices := [], groups := [], nextId := 0 }

/-- All of a slice but its frames, o registers, LRF with what is due there, latch, mask registers, rst states and format
register. -/
def Slice.others (x : Slice) : Slice :=
  { x with frames := [], sof := [], lrf := [], lrfDue := [], latch := [], masks := [], seeds := ⟨0, 0, 0, 0⟩, fmt := 0 }

/-- The word of a lane in frame register i, and in o register j. -/
def Slice.vWord (x : Slice) (i l : Nat) : LaneWord := (nth (.u 0) x.top.regs i).lane l
def Slice.oWord (x : Slice) (j l : Nat) : LaneWord := (nth (L4.ofFn fun _ => {}) x.sof j).get l

/-- A lane's word after a result: the result where the lane takes it, else the old word, or under zeroing 0. -/
def mergedWord (take z : Bool) (old new : LaneWord) : LaneWord := if take then new else if z then {} else old

/-- The first frame register a destination names, and the first o register. -/
def vFirst : Dst → Option Nat
  | .v k => some k.val
  | _ => none
def oFirst : Dst → Option Nat
  | .o k => some k.val
  | _ => none

/-- Register i of a file after a result of n registers, the first of them to register `first` of it, lane by lane. -/
def afterResult (first : Option Nat) (n : Nat) (take : BitVec 4) (z : Bool) (old : Nat → Nat → LaneWord)
    (new : Nat → Nat → LaneWord) (i l : Nat) : LaneWord :=
  match first with
  | some k => if k ≤ i ∧ i < k + n then mergedWord (take.getLsbD l) z (old i l) (new (i - k) l) else old i l
  | none => old i l

/-- What of the LRF is still due after n registers are pushed. -/
def dueAfter : Nat → List (Option (Nat × Nat)) → List (Option (Nat × Nat))
  | 0, due => due
  | n + 1, due => dueShift (dueAfter n due) none

/-- w is x with a result of n registers in d and pushed into the LRF (R173), the source `held` in the latch (R174), the mask
registers `masks`, rst states `seeds` and format register `fmt`; the rest is as it was. -/
structure Slice.Took (x w : Slice) (d : Dst) (n : Nat) (take : BitVec 4) (z : Bool) (new : Nat → Nat → LaneWord) (held : List Reg)
    (masks : List (BitVec 4)) (seeds : L4 Word) (fmt : Word) : Prop where
  vRegs : ∀ i l, l < 4 → i < x.top.regs.length → w.vWord i l = afterResult (vFirst d) n take z x.vWord new i l
  oRegs : ∀ j l, l < 4 → j < x.sof.length → w.oWord j l = afterResult (oFirst d) n take z x.oWord new j l
  lrf : ∀ k l, l < 4 → k < 4 → (nth (.u 0) w.lrf k).lane l =
    if k < n then (if take.getLsbD l then new k l else {}) else (nth (.u 0) x.lrf (k - n)).lane l
  due : w.lrfDue = dueAfter n x.lrfDue
  latch : w.latch = (x.stepLatch held).latch
  masks : w.masks = masks
  seeds : w.seeds = seeds
  fmt : w.fmt = fmt
  frames : w.frames.tail = x.frames.tail ∧ { w.top with regs := x.top.regs } = x.top ∧ w.top.regs.length = x.top.regs.length
  rest : w.others = x.others

/-- A gang retires an instruction of lanes: each of its slices took a result as `res` says and went on to the next PC, where
paths may merge (R309) and the gang may part (R311); every other slice is as it was, and so is everything else: the
memories, caches, engines, control registers, workgroups and launches. Thread groups may differ. -/
structure State.LaneStep (s t : State) (i : Instr) (res : Slice → Env → Slice → Prop) : Prop where
  gang : ∀ x ∈ s.curSlices, ∃ w g, t.slice? x.uid = some { (w.land (x.after i)).retired with gang := g } ∧ res x (s.env x) w
  others : ∀ u, u ∉ s.cur → t.slice? u = s.slice? u
  bytes : ∀ a, t.mem.get a = s.mem.get a
  rest : t.others = s.others

/-- Word k of a number that one, two or four registers hold, low word first (R237). -/
def nthWord (v k : Nat) : Word := BitVec.ofNat 32 (v / 2 ^ (32 * k))

/-- w is x with a number of a typed operation for each lane in d: one word, or two of a pair (R250). -/
def Slice.TookInt (x w : Slice) (p : Option Pfx) (t : IType) (d : Dst) (f : Nat → Nat) (held : List Reg) : Prop :=
  x.Took w d t.width.count (takeOf x p) (zeroing p) (fun k l => { val := nthWord (f l) k }) held x.masks x.seeds x.fmt

/-- w is x with a word for each lane in d. -/
def Slice.TookWord (x w : Slice) (p : Option Pfx) (d : Dst) (f : Nat → Word) (held : List Reg) : Prop :=
  x.Took w d 1 (takeOf x p) (zeroing p) (fun _ l => { val := f l }) held x.masks x.seeds x.fmt

/-- w is x with mask register k written in the lanes that take the result (R255). -/
def Slice.TookMask (x w : Slice) (p : Option Pfx) (k : BitVec 3) (bits : BitVec 4) (held : List Reg) : Prop :=
  x.Took w .zero 0 (takeOf x p) (zeroing p) (fun _ _ => {}) held
    (setNth x.masks k.toNat (mergeMask (x.mask k.toNat) bits (takeOf x p) (zeroing p))) x.seeds x.fmt

/-- A slice issues an instruction without a trap: no declined access of it waits, its registers lie in its frame (R184), it is
not firmware at an instruction that firmware may not issue (R403), and no lane of `reads` meets poison in `srcs` (R192). -/
structure State.Able (s : State) (i : Instr) (x : Slice) (srcs : List Reg) (reads : BitVec 4) : Prop where
  declined : s.declinedOf (.slice x.uid) = none
  inFrame : i.inFrame x.frameRegs = true
  allowed : ((s.env x).group.firmware && i.firmwareIllegal) = false
  clean : ∀ r ∈ srcs, r.poisoned reads = false

/-- Every slice of a gang that is there may issue an instruction of lanes. -/
def State.GangAble (s : State) (i : Instr) (p : Option Pfx) (srcs : Slice → Env → List Reg) : Prop :=
  s.cur ≠ [] ∧ ∀ x ∈ s.curSlices, s.Able i x (srcs x (s.env x)) (takeOf x p)

/-- The sources that a list of operands names, and the value of one of them in a lane. -/
def State.reads (s : State) (os : List Opnd) (x : Slice) (e : Env) : List Reg := os.map fun o => x.readOpnd e s.clock o
def State.opVal (s : State) (o : Opnd) (x : Slice) (e : Env) (l : Nat) : Word := (x.readOpnd e s.clock o).val l

/-- R249: a gang that may issue the instruction executes it, giving each lane of d a word; no exception is raised. -/
def State.Computes (s : State) (i : Instr) (p : Option Pfx) (d : Dst) (srcs : List Opnd) (h : Bool) (f : Slice → Env → Nat → Word) : Prop :=
  s.GangAble i p (s.reads srcs) → ∃ t, exec i s = .next t ∧ t.groups = s.groups ∧
    s.LaneStep t i fun x e w => x.TookWord w p d (f x e) (heldOf h ((s.reads srcs x e).take 1))

/-- R255, R278: the same for an instruction that writes mask register k. -/
def State.Marks (s : State) (i : Instr) (p : Option Pfx) (k : BitVec 3) (srcs : Slice → Env → List Reg) (held : Slice → Env → List Reg)
    (bits : Slice → Env → BitVec 4) : Prop :=
  s.GangAble i p srcs → ∃ t, exec i s = .next t ∧ t.groups = s.groups ∧
    s.LaneStep t i fun x e w => x.TookMask w p k (bits x e) (held x e)

/-- R249, R209: a word for each lane, and the exceptions of the lanes that take it ORed into FPFLAGS of their group. -/
def State.Floats (s : State) (i : Instr) (p : Option Pfx) (d : Dst) (srcs : List Opnd) (h : Bool)
    (f : Slice → Env → Nat → Word × Flags) : Prop :=
  s.GangAble i p (s.reads srcs) → ∃ t, exec i s = .next t ∧
    t.groups = (s.raiseAll (s.curSlices.map fun x =>
      (x.group, Flags.all ((maskLanes (takeOf x p)).map fun l => (f x (s.env x) l).2)))).groups ∧
    s.LaneStep t i fun x e w => x.TookWord w p d (fun l => (f x e l).1) (heldOf h ((s.reads srcs x e).take 1))

/-- A base word with such fields is an illegal encoding under every prefix word. -/
def illegalPrefixed (bad : Fields → Bool) : Prop :=
  ∀ (p w : Word) (rest : List Byte), p.getLsbD 0 = true → isPrefix p = true → w.getLsbD 0 = true → isPrefix w = false →
    bad (Fields.ofWord w) = true → ∃ why, decode (wordBytes p ++ wordBytes w ++ rest) = .illegal why

/-- A base word with such fields is an illegal encoding, with a prefix and without. -/
def illegalWords (bad : Fields → Bool) : Prop :=
  (∀ (w : Word) (rest : List Byte), w.getLsbD 0 = true → isPrefix w = false → bad (Fields.ofWord w) = true →
    ∃ why, decode (wordBytes w ++ rest) = .illegal why) ∧ illegalPrefixed bad

/-- The base word of an instruction has these fields MAJ and FN, and others as `more` says. -/
def fieldsAre (i : Instr) (maj : BitVec 6) (fn : BitVec 3) (more : Fields → Prop) : Prop :=
  ∃ f, i.base = .word f ∧ f.maj = maj ∧ f.fn = fn ∧ more f

/-! ### Gangs that act otherwise -/

/-- A slice x issues an instruction as a gang of its own: it meets no trap at issue, `reads` being the lanes that read the
registers of `srcs`, and it need not go home first. -/
structure State.Alone (s : State) (i : Instr) (x : Slice) (srcs : List Reg) (reads : BitVec 4) : Prop where
  cur : s.cur = [x.uid]
  here : s.slice? x.uid = some x
  home : x.guest = none ∨ i.sendsHome = false
  able : s.Able i x srcs reads

/-- A gang issues an instruction for which its leader lane alone reads operands (R280): l is the leader, and no slice meets
a trap at issue or has to go home first. -/
structure State.Led (s : State) (i : Instr) (srcs : Slice → Env → List Reg) (l : Lead) : Prop where
  cur : s.cur ≠ []
  lead : s.lead = some l
  home : l.slice.guest = none ∨ i.sendsHome = false
  able : ∀ x ∈ s.curSlices, s.Able i x (srcs x (s.env x)) (if x.uid = l.slice.uid then 1#4 <<< l.lane else 0)

/-- Every slice of the gang comes to be as `res` says, its gang apart, and everything else is as it was. -/
structure State.GangStep (s t : State) (res : Slice → Slice → Prop) : Prop where
  gang : ∀ x ∈ s.curSlices, ∃ y g, t.slice? x.uid = some { y with gang := g } ∧ res x y
  others : ∀ u, u ∉ s.cur → t.slice? u = s.slice? u
  groups : t.groups = s.groups
  bytes : ∀ a, t.mem.get a = s.mem.get a
  rest : t.others = s.others

/-! ### Accesses of memory (R280, R281) -/

/-- A state without its slices, names, memory, caches, banks and error events: what no access of memory reaches. -/
def State.apart (s : State) : State :=
  { s.others with
    caches := {}, engines := { s.engines with banks := [] }, mem := [], poison := [], latent := [], latentWords := [], signed := [],
    outside := { s.outside with events := [], dropped := [] } }

/-- A slice that stands no more at an instruction whose access had parked: it issues it again (R27, R281). -/
def Slice.stood (x : Slice) : Slice := { x with parked := x.lasting }

/-- A slice retires an instruction of memory: it takes a result of n registers and goes on; nothing changes beside it but the
memory and the caches. -/
structure State.MemStep (s t : State) (i : Instr) (p : Option Pfx) (x : Slice) (d : Dst) (n : Nat) (new : Nat → Nat → LaneWord)
    (held : List Reg) : Prop where
  slice : ∃ w, x.Took w d n (takeOf x p) (zeroing p) new held x.masks x.seeds x.fmt ∧
    t.slice? x.uid = some ((w.land (x.after i)).retired)
  others : ∀ u, u ≠ x.uid → t.slice? u = s.slice? u
  groups : t.groups = s.groups
  rest : t.apart = s.apart

/-- An access of a slice can be performed: no parked access stands before it (R27), every address translates to a home in this
part, no matrix operation issued before has still to finish with the bytes (R301), and no migration is due (R284). -/
structure State.Reaches (s : State) (x : Slice) (need : Need) (cp : Nat) (as : List LaneAddr) (tr : DWord → Mapping) : Prop where
  room : x.mustWait as = false
  free : s.isParked (.slice x.uid) = false
  maps : ∀ a ∈ as, s.look ((s.env x).party x.uid) need a.va = .ok (tr a.va)
  near : ∀ a ∈ as, (tr a.va).part? = none
  idle : ∀ a ∈ as, s.matBusy x.uid s.nextId (tr a.va).pa a.bytes = false
  stays : migAsk (s.env x) cp = .no ∨ migTarget (s.env x) (as.map fun a => (a.va, tr a.va)) = none
  replied : ∀ r ∈ s.outside.remotes, r.slice ≠ x.uid

/-- The valid sectors of a copy of a line are those of another, poison with them. -/
def LineData.Agrees (l m : LineData) (valid : Bool × Bool) : Prop := l.data.length = 64 ∧ l.over m valid = l

/-- The caches are at rest for a quad: memory has its form, every line that its cache, the L1s under it, the die caches or the
memory-side caches hold is clean and agrees with the bank, no write or update is on its way, no near-memory command is writing, and no
sector meets an error. -/
structure State.Coherent (s : State) (quad : Nat) : Prop where
  canon : s.memOk
  lines : ∀ l ∈ s.caches.quadLines, l.quad = quad → l.dirty = false ∧ l.Agrees (s.dramLine l.addr) l.valid
  l1 : ∀ l ∈ s.caches.l1, quadOfCore l.core = quad → l.Agrees (s.dramLine l.addr) l.valid ∧
    ∃ q ∈ s.caches.quadLines, q.at quad l.addr = true ∧ lessPair l.valid q.valid = (false, false)
  die : ∀ l ∈ s.caches.dieLines, l.dirty = false ∧ l.Agrees (s.dramLine l.addr) l.valid
  msc : ∀ l ∈ s.caches.mscLines, l.dirty = (false, false) ∧ l.Agrees (s.dramLine l.addr) l.valid
  queues : s.caches.mscQueue = [] ∧ s.caches.bankQueue = []
  writes : ∀ w ∈ s.caches.writeThroughs, quadOfCore w.core ≠ quad
  updates : ∀ d ∈ s.caches.deferred, d.quad ≠ quad
  ranges : ∀ c ∈ s.engines.cmds, c.writeRange = []
  sound : s.latent = [] ∧ s.latentWords = []

/-- A byte as the home of its address holds it. -/
def State.byteAt (s : State) (pa : Nat) : Byte := nth 0 (s.peek pa 1) 0

/-- An image is read for a region and passes its checks (R71): its header, the nodes with their tables, its routes, and the
state after, with the image in the configuration cache (R77). -/
def State.Loads (s : State) (r : Region) (h : Header) (nodes : List Node) (routes : List Route) (t : State) : Prop :=
  ∃ hdr s1 s2 s3 plain, s.engRead (r.party loaderNode) { kind := .arrayRead } r.image 64 = (s1, .ok (hdr, false)) ∧
    h = Header.ofBytes r.width hdr ∧ h.ok = true ∧ s1.loadTables r hdr h = (s2, .ok (.ok (plain, routes))) ∧
    s2.readTables r plain = (s3, .ok nodes) ∧
    t = s3.cacheImage { stack := r.stack, ctx := r.ctx, image := r.image, header := hdr, nodes := plain, routes := routes }

/-- Whether n bytes at a physical address take in the byte at another, under either of its names (R14). -/
def holds (pa n a : Nat) : Prop := memKey pa ≤ memKey a ∧ memKey a < memKey pa + n

end Sys2Proof.Machine
end

