-- ==== Sys2Proof/Certificates/Slice0/Obligations.lean ====
section
/-! DEFINITION. The statements about the model, for the provers. -/

section

open Sys2Proof Sys2Proof.Machine

/-- For every well-formed instruction that has an encoding, with every operand at every value the encoding admits,
decoding its bytes followed by any others gives the instruction and the number of its bytes. (R225, R229, R230, R231,
R232, R236, R237, R238, R239) -/
def Obligations.EncodedInstructionsDecode : Prop :=
  ∀ (i : Instr) (bs rest : List Byte), i.wf = true → encode i = some bs → decode (bs ++ rest) = .ok i bs.length

/-- Whenever bytes decode to an instruction, that instruction is well-formed, its length is the one it occupies (2, 4, 8
or 12 bytes), and encoding it gives exactly the bytes it was decoded from: no bit of an encoding is ignored. (R225,
R234, R240) -/
def Obligations.DecodedInstructionsAreWellFormed : Prop :=
  ∀ (bs : List Byte) (i : Instr) (n : Nat), decode bs = .ok i n →
    i.wf = true ∧ n = i.length ∧ n ∈ [2, 4, 8, 12] ∧ n ≤ bs.length ∧ encode i = some (bs.take n)

/-- The words worked out in the spec decode to the instructions written beside them: a short IADD, a load with an offset,
a fused multiply-add with a held source and a prefix, an add of a literal, a saturating packed add, a compare, FRSQ, a
mask AND, a reduction, an exchange and a conversion. (R235, R240, R251, R255, R264, R266, R273, R275, R278) -/
def Obligations.WordsOfTheSpecDecode : Prop :=
  decode (natToBytes 2 0x1C62) = .ok (.iaddShort false 7 3) 2 ∧
  decode (natToBytes 4 0x20203261) = .ok (.ld none .w32 (.v 6) (.v 8) 16) 4 ∧
  decode (natToBytes 8 0x1424242F0002C87F) = .ok (.ffma (some { c := some (.v 11), rm := 1 }) .f32 (.v 4) (.v 9) (.v 10) true) 8 ∧
  decode (natToBytes 8 0x000186A0FE081001) = .ok (.iadd none .i32 (.v 2) (.v 2) (.lit 100000) false) 8 ∧
  decode (natToBytes 8 0x0E182B010000087F) = .ok (.iadd (some { rm := 1 }) .i8x4 (.v 5) (.v 6) (.v 7) false) 8 ∧
  decode (natToBytes 4 0x0404900F) = .ok (.icmp none .lt .i32 2 (.v 1) (.v 2) false) 4 ∧
  decode (natToBytes 4 0x06142037) = .ok (.frsq none .f32 (.v 4) (.v 5) false) 4 ∧
  decode (natToBytes 4 0x04041947) = .ok (.mand 3 1 2) 4 ∧
  decode (natToBytes 4 0x000C11C5) = .ok (.gred none .addF32 (.v 2) (.v 3) false) 4 ∧
  decode (natToBytes 8 0x00000001FE2851C1) = .ok (.shfl none .xor (.v 10) (.v 10) (.lit 1) false) 8 ∧
  decode (natToBytes 4 0x2220183B) = .ok (.cvtf none .f32 .bf16 1 (.v 3) (.v 8) false) 4

/-- A 32-bit word whose major opcode and function are not listed in the opcode map is refused, alone and under any prefix;
so are a prefix before a prefix or before a 16-bit instruction, and the halfword 0x8000. (R234, R235, R239, R240) -/
def Obligations.ReservedEncodingsAreRefused : Prop :=
  let listed : Nat → Nat → Bool := fun maj fn =>
    match maj with
    | 0x08 | 0x0A | 0x0E | 0x33 | 0x34 | 0x3E => decide (fn ≤ 6)
    | 0x09 | 0x12 | 0x1F | 0x2B | 0x3B => decide (fn ≤ 4)
    | 0x0D | 0x20 | 0x21 | 0x35 | 0x36 => decide (fn ≤ 3)
    | 0x0F | 0x25 | 0x26 | 0x27 | 0x2D | 0x2E | 0x2F | 0x3D => false
    | 0x11 | 0x14 | 0x15 | 0x16 | 0x17 | 0x18 | 0x19 | 0x1A | 0x1B | 0x24 | 0x2C => decide (fn ≤ 2)
    | 0x1C => fn == 1 || fn == 2
    | 0x1D | 0x30 => decide (fn ≤ 6)
    | 0x1E | 0x22 | 0x23 | 0x28 | 0x38 | 0x3A | 0x3C => decide (fn ≤ 5)
    | 0x29 | 0x2A | 0x39 => decide (fn ≤ 1)
    | 0x31 => [0, 2, 4, 5, 6].contains fn
    | _ => true
  (∀ (w : Word) (rest : List Byte), w.getLsbD 0 = true → isPrefix w = false →
    listed (w.extractLsb' 1 6).toNat (w.extractLsb' 7 3).toNat = false →
    (∃ why, decode (wordBytes w ++ rest) = .illegal why) ∧
    ∀ p : Word, p.getLsbD 0 = true → isPrefix p = true → ∃ why, decode (wordBytes p ++ wordBytes w ++ rest) = .illegal why) ∧
  (∀ (p q : Word) (rest : List Byte), p.getLsbD 0 = true → isPrefix p = true → q.getLsbD 0 = false ∨ isPrefix q = true →
    decode (wordBytes p ++ wordBytes q ++ rest) = .illegal .prefixWord) ∧
  (∀ rest : List Byte, decode (0x00 :: 0x80 :: rest) = .illegal .shortHold)

/-- When the agenda lets a gang issue, on its pipe or on the pipe's scalar path, the gang is ready, none of its slices has
a trap to take first, and the fetch at its PC gives instruction i, then the step is exec of i for that gang, after the
pipe has noted the issue, followed by what ends every step: workgroups that have ended give back what they hold, no
gang is issuing, and the clock goes on. The agenda is the model's own (log entry 1). (R225, R311, R367, R396) -/
def Obligations.StepRunsTheDecodedInstruction : Prop :=
  ∀ (s u : State) (us : List Nat) (rest : List Move) (x : Slice) (xs : List Slice) (i : Instr) (scalar : Bool),
    let s0 : State := { s with cur := [], agenda := rest }
    s.agenda = (if scalar then .scalar us else .issue us) :: rest → us.filterMap s0.slice? = x :: xs → s0.gangReady (x :: xs) = true →
    (s0.noteIssue x us scalar).boundaryTraps (x :: xs) = none → (s0.noteIssue x us scalar).fetch x = (u, .ok i) →
    step s = match exec i { u with cur := us } with
      | .next t => .next (t.finish s.ticks)
      | .fault r => .fault r
      | .refused r => .refused r

/-- When a quad's caches are at rest and every halfword of an instruction's encoding, at an even PC, translates for the
fetch of a slice to a stack of this part that holds it as the encoding has it, without poison, the fetch gives that
instruction and changes nothing but caches and banks: every byte of memory reads as before. (R225, R226) -/
def Obligations.FetchDecodesTheBytesAtThePc : Prop :=
  ∀ (s : State) (x : Slice) (i : Instr) (bs : List Byte), decode bs = .ok i bs.length →
    s.Coherent (quadOfCore (s.env x).core) → x.pc.getLsbD 0 = false →
    (∀ k, 2 * k < bs.length → ∃ m n, s.look ((s.env x).party x.uid) { kind := .fetch } (x.pc + BitVec.ofNat 64 (2 * k)) = .ok m ∧
      m.home = .stack n ∧ s.peek m.pa 2 = (bs.drop (2 * k)).take 2 ∧ s.peekPoison m.pa 2 = false) →
    ∃ t, s.fetch x = (t, .ok i) ∧ t.apart = s.apart ∧ t.slices = s.slices ∧ t.groups = s.groups ∧ t.nextId = s.nextId ∧
      ∀ a, t.byteAt a = s.byteAt a

/-- From every state, reached or not, a step that answers a next state leaves one in which no gang is issuing, every
workgroup whose slices have exited and whose copies and matrix operations are done has given back its place, and
exactly one step more has been counted. (R319, R342, R359) -/
def Obligations.EveryStepSettles : Prop :=
  ∀ s t : State, step s = .next t → t.settled ∧ t.ticks = s.ticks + 1

/-- From every state whose memory and roof store are in canonical form (addresses strictly rising, no entry equal to what
an unlisted address reads as), a step that answers a next state leaves them in it; so equal memories are equal data
after every step. That an unlisted byte reads as 0 is the choice of log entry 4. (R8, R221) -/
def Obligations.EveryStepKeepsMemory : Prop :=
  ∀ s t : State, s.memOk → step s = .next t → t.memOk

/-- State.reset satisfies the invariant that every step keeps, and both its memories are in their canonical form. (R437) -/
def Obligations.ResetIsSettled : Prop :=
  State.reset.settled ∧ State.reset.memOk

/-- After reset DUTYMODE is 0, PREEMPT_QUANTUM 262,144 and CHUNK 1, there is no context, and one that is named has the
reset values of R350 (CTX_ROOT, SEED_SR, SPILL_BASE and SPILL_SIZE 0, PIN_QUOTA 4,096, FRAME_WAIT 2,048, GUEST_FRAMES
16, HOP_LIMIT 4, REGANG_WINDOW 4,096, DIV_ROTATE 64, WAITW_LIMIT 16,384), there is no slice, launch, region or copy
and every cache is empty; one thread group of firmware stands on pipe 0 of core 0 of each die, with workgroup slot 63
and the top 256 KiB of its scratchpad, and no other; a slice starts with the format register 0x33 and a stack with a
yield cap of 32, an RFM hold of 512 and an RFM count of 0. The clock rate after reset is the model's reading of R437
(log entry 3). (R350, R432, R437, R206, R434) -/
def Obligations.ResetValues : Prop :=
  State.reset.dutyMode = 0 ∧ State.reset.quantum = 262144 ∧ State.reset.chunk = 1 ∧ State.reset.ctxs = [] ∧
  (∀ c, State.reset.ctxOf c = ⟨c, 0, 0, 0, 0, 4096, 2048, 16, 4, 4096, 64, 16384⟩) ∧
  State.reset.slices = [] ∧ State.reset.launches = [] ∧
  State.reset.wgs.map (fun w => (w.core, w.slot, w.scrBase, w.scrBytes, w.firmware)) =
    (List.range 16).map (fun d => (8 * d, 63, 0x3C0000, 0x40000, true)) ∧
  State.reset.groups.map (fun g => (g.pipe, g.firmware, (State.reset.wg? g.wg).map (·.core))) = (List.range 16).map (fun d => (0, true, some (8 * d))) ∧
  State.reset.caches = {} ∧ State.reset.engines = {} ∧ State.reset.stackCsrs = [] ∧
  (({} : StackCsr) = { yieldCap := 32, rfmHold := 512, rfmCount := 0 }) ∧
  (∀ (u g i n : Nat) (clock : DWord) (ctx : Nat) (p : Packet) (base : Nat) (seeds : L4 Word),
    let x := Slice.start u g i n clock ctx p base seeds
    x.fmt = 0x33 ∧ x.epc = 0 ∧ x.ecause = 0 ∧ x.eaddr = 0 ∧ x.pc = p.entry)

/-- For every instruction that has an encoding, in every state in which a gang is issuing, executing it answers a next
state: ordinary data, traps and waits never end a run. And no instruction and no machine step ever ends in a fault, in
any state. (R226, R240, R395) -/
def Obligations.InstructionsNeverStop : Prop :=
  (∀ (i : Instr) (s : State), i.base ≠ .step → s.cur ≠ [] → ∃ t, exec i s = .next t) ∧
  (∀ (i : Instr) (s : State) (r : Fault), exec i s ≠ .fault r)

/-- A gang that may issue IADD, ISUB, IMUL, IMULH, IMIN or IMAX of any type executes it: every slice takes, in the lanes
that take the result, the elements R252 computes from its sources, clamped under the saturate bit where the
instruction takes one, goes on to the next PC, and everything else in the machine, every byte of memory included, is
as it was. (R252) -/
def Obligations.IntegerOperations : Prop :=
  ∀ (s : State) (p : Option Pfx) (t : IType) (d : Dst) (a b : Opnd) (h : Bool),
    ∀ cf ∈ [(Instr.iadd, fun (x y : Int) => x + y), (.isub, fun x y => x - y), (.imul, fun x y => x * y),
        (.imulh, fun x y => Int.fdiv (x * y) (2 ^ t.bits)), (.imin, min), (.imax, max)],
      (s.GangAble (cf.1 p t d a b h) p fun x e => x.readInt e s.clock t a ++ x.readInt e s.clock t b) →
      ∃ q, exec (cf.1 p t d a b h) s = .next q ∧ q.groups = s.groups ∧
        s.LaneStep q (cf.1 p t d a b h) fun x e w =>
          x.TookInt w p t d
            (fun l => intElems t (saturate p) (fun u v _ => cf.2 u v) (regsVal (x.readInt e s.clock t a) l)
              (regsVal (x.readInt e s.clock t b) l) 0)
            (heldOf h (x.readInt e s.clock t a))

/-- For every integer type and operation f, element k of the operand that the shared form computes is f of elements k of
its sources: clamped to the range of the type when saturation is asked for, and else congruent to it modulo 2 to the
element width. (R250, R251) -/
def Obligations.IntegerElements : Prop :=
  ∀ (t : IType) (f : Int → Int → Int → Int) (a b c k : Nat), k < t.total / t.bits →
    let v := f (intElem t a k) (intElem t b k) (intElem t c k)
    intElem t (intElems t true f a b c) k = max t.low (min t.high v) ∧
    (intElem t (intElems t false f a b c) k - v) % (2 ^ t.bits) = 0 ∧
    t.low ≤ intElem t a k ∧ intElem t a k ≤ t.high

/-- A gang that may issue IMAD or IADDI of any type executes it. IMAD takes its addend from the C field, or from the old
destination when there is none. IADDI adds the sign-extended immediate to every element. Nothing but each slice's
results, latch, LRF and PC changes. (R252) -/
def Obligations.MultiplyAddAndImmediateAdd : Prop :=
  (∀ (s : State) (p : Option Pfx) (t : IType) (d : Dst) (a b : Opnd) (h : Bool),
    let c := ((p.bind (·.c))).getD d.asOpnd
    (s.GangAble (.imad p t d a b h) p fun x e => x.readInt e s.clock t a ++ x.readInt e s.clock t b ++ x.readInt e s.clock t c) →
    ∃ q, exec (.imad p t d a b h) s = .next q ∧ q.groups = s.groups ∧
      s.LaneStep q (.imad p t d a b h) fun x e w =>
        x.TookInt w p t d
          (fun l => intElems t (saturate p) (fun u v z => u * v + z) (regsVal (x.readInt e s.clock t a) l)
            (regsVal (x.readInt e s.clock t b) l) (regsVal (x.readInt e s.clock t c) l))
          (heldOf h (x.readInt e s.clock t a))) ∧
  (∀ (s : State) (p : Option Pfx) (t : IType) (d : Dst) (a : Opnd) (m : BitVec 8),
    (s.GangAble (.iaddi p t d a m) p fun x e => x.readInt e s.clock t a) →
    ∃ q, exec (.iaddi p t d a m) s = .next q ∧ q.groups = s.groups ∧
      s.LaneStep q (.iaddi p t d a m) fun x e w =>
        x.TookInt w p t d
          (fun l => intElems t (saturate p) (fun u v _ => u + v) (regsVal (x.readInt e s.clock t a) l)
            (((List.range (t.total / t.bits)).map fun k => (m.toInt % (2 ^ t.bits : Int)).toNat * 2 ^ (k * t.bits)).sum) 0)
          [])

/-- A gang that may issue AND, OR, XOR, ANDN, ORN, XNOR, SHL, SHR, SHA, ROTL, ROTR, DIV or REM executes it: each lane that
takes the result gets the word R253, R256 or R257 gives it, a division by zero giving 0xFFFF_FFFF and its remainder
the dividend, without a trap. Nothing but results, latch, LRF and PC changes. FN of IDIV tells DIV.i32, DIV.n32,
REM.i32 and REM.n32 apart, and none of them takes the saturate bit. (R253) -/
def Obligations.WordOperations : Prop :=
  (∀ (s : State) (p : Option Pfx) (d : Dst) (a b : Opnd) (h : Bool),
    ∀ cf ∈ [(Instr.and, fun (x y : Word) => x &&& y), (.or, fun x y => x ||| y), (.xor, fun x y => x ^^^ y),
        (.andn, fun x y => x &&& ~~~y), (.orn, fun x y => x ||| ~~~y), (.xnor, fun x y => ~~~(x ^^^ y)),
        (.shl, fun x y => x <<< (y.toNat % 32)), (.shr, fun x y => x >>> (y.toNat % 32)),
        (.sha, fun x y => x.sshiftRight (y.toNat % 32)),
        (.rotl, fun x y => x <<< (y.toNat % 32) ||| x >>> (32 - y.toNat % 32)),
        (.rotr, fun x y => x >>> (y.toNat % 32) ||| x <<< (32 - y.toNat % 32)),
        (fun p d a b h => .div p false d a b h, fun x y => if y = 0 then 0xFFFFFFFF else x.sdiv y),
        (fun p d a b h => .div p true d a b h, fun x y => if y = 0 then 0xFFFFFFFF else x / y),
        (fun p d a b h => .rem p false d a b h, fun x y => if y = 0 then x else x.srem y),
        (fun p d a b h => .rem p true d a b h, fun x y => if y = 0 then x else x % y)],
      s.Computes (cf.1 p d a b h) p d [a, b] h fun x e l => cf.2 (s.opVal a x e l) (s.opVal b x e l)) ∧
  (∀ (p : Option Pfx) (d : Dst) (a b : Opnd) (h : Bool),
    ∀ c ∈ [(Instr.div p false d a b h, 0#3), (.div p true d a b h, 1#3), (.rem p false d a b h, 2#3), (.rem p true d a b h, 3#3)],
      fieldsAre c.1 0x0D c.2 (fun f => f.d = d.code ∧ f.a = a.code ∧ f.b = b.code) ∧ (c.1.wf = true → saturate p = false))

/-- A gang that may issue NOT, POPC, CLZ, CTZ, BREV, IABS, INEG, SEXT8, SEXT16, ZEXT8, ZEXT16 or MOV executes it, each
lane that takes the result getting the word of R254, R256 or R258; minus 2^31 has itself as absolute value and
negation, or 0x7FFF_FFFF under the saturate bit. The counts of CLZ and CTZ are at most 32, every bit counted is clear,
and the bit after them, where there is one, is set. (R254, R256, R258) -/
def Obligations.UnaryWordOperations : Prop :=
  (∀ (s : State) (p : Option Pfx) (d : Dst) (a : Opnd) (h : Bool),
    ∀ cf ∈ [(Instr.not, fun (x : Word) => ~~~x), (.popc, fun x => BitVec.ofNat 32 ((List.range 32).countP x.getLsbD)),
        (.clz, fun x => BitVec.ofNat 32 (clearRun (wordBits x).reverse)), (.ctz, fun x => BitVec.ofNat 32 (clearRun (wordBits x))),
        (.brev, fun x => x.reverse),
        (.iabs, fun x => if x = 0x80000000 then (if saturate p then 0x7FFFFFFF else x) else if x.msb then -x else x),
        (.ineg, fun x => if x = 0x80000000 then (if saturate p then 0x7FFFFFFF else x) else -x),
        (.sext8, fun x => (x.setWidth 8).signExtend 32), (.sext16, fun x => (x.setWidth 16).signExtend 32),
        (.zext8, fun x => x &&& 0xFF), (.zext16, fun x => x &&& 0xFFFF), (.mov, fun x => x)],
      s.Computes (cf.1 p d a h) p d [a] h fun x e l => cf.2 (s.opVal a x e l)) ∧
  (∀ x : Word,
    (clearRun (wordBits x) ≤ 32 ∧ (∀ i < clearRun (wordBits x), x.getLsbD i = false) ∧
      (clearRun (wordBits x) < 32 → x.getLsbD (clearRun (wordBits x)) = true)) ∧
    (clearRun (wordBits x).reverse ≤ 32 ∧ (∀ i < clearRun (wordBits x).reverse, x.getLsbD (31 - i) = false) ∧
      (clearRun (wordBits x).reverse < 32 → x.getLsbD (31 - clearRun (wordBits x).reverse) = true)))

/-- A gang that may issue ANDI, ORI, XORI, SHLI, SHRI, SHAI, ROTLI or ROTRI executes it, each lane that takes the result
getting the word R256 or R257 gives it. (R256, R257) -/
def Obligations.ImmediateOperations : Prop :=
  ∀ (s : State) (p : Option Pfx) (d : Dst) (a : Opnd),
    (∀ m : BitVec 8, ∀ cf ∈ [(Instr.andi, fun (x : Word) => x &&& m.setWidth 32), (.ori, fun x => x ||| m.setWidth 32),
        (.xori, fun x => x ^^^ m.setWidth 32)],
      s.Computes (cf.1 p d a m) p d [a] false fun x e l => cf.2 (s.opVal a x e l)) ∧
    (∀ n : BitVec 5, ∀ cf ∈ [(Instr.shli, fun (x : Word) => x <<< n.toNat), (.shri, fun x => x >>> n.toNat),
        (.shai, fun x => x.sshiftRight n.toNat), (.rotli, fun x => x <<< n.toNat ||| x >>> (32 - n.toNat)),
        (.rotri, fun x => x >>> n.toNat ||| x <<< (32 - n.toNat))],
      s.Computes (cf.1 p d a n) p d [a] false fun x e l => cf.2 (s.opVal a x e l))

/-- A gang that may issue BFE, BFI, PERM, SEL or LEA executes it. The length of a field is min(c[5:0], 32 - pos), or 32 -
pos without a C source; BFI keeps the old bits outside the field; PERM picks bytes of a and C; SEL picks a or b by a
mask register; LEA adds a shifted signed index to a pair, modulo 2^64. (R258) -/
def Obligations.FieldAndPermuteOperations : Prop :=
  (∀ (s : State) (p : Option Pfx) (d : Dst) (a b : Opnd) (h : Bool),
    let c := (p.bind (·.c))
    let len := fun x e l => min (match c with | some o => (s.opVal o x e l).toNat % 64 | none => 32) (32 - (s.opVal b x e l).toNat % 32)
    s.Computes (.bfe p d a b h) p d ([a, b] ++ c.toList) h (fun x e l =>
      BitVec.ofNat 32 ((s.opVal a x e l).toNat / 2 ^ ((s.opVal b x e l).toNat % 32) % 2 ^ len x e l)) ∧
    s.Computes (.bfi p d a b h) p d ([a, b] ++ c.toList ++ [d.asOpnd]) h (fun x e l =>
      let pos := (s.opVal b x e l).toNat % 32
      let m := BitVec.ofNat 32 ((2 ^ len x e l - 1) * 2 ^ pos)
      (s.opVal d.asOpnd x e l &&& ~~~m) ||| ((s.opVal a x e l <<< pos) &&& m)) ∧
    s.Computes (.perm p d a b h) p d ([a, b] ++ c.toList) h (fun x e l =>
      let src := natToBytes 8 (dword (s.opVal a x e l) (match c with | some o => s.opVal o x e l | none => 0)).toNat
      BitVec.ofNat 32 (bytesToNat ((List.range 4).map fun i =>
        if (s.opVal b x e l).getLsbD (4 * i + 3) then 0 else nth 0 src ((s.opVal b x e l).toNat / 2 ^ (4 * i) % 8))))) ∧
  (∀ (s : State) (p : Option Pfx) (k : BitVec 3) (d : Dst) (a b : Opnd) (h : Bool),
    s.Computes (.sel p k d a b h) p d [a, b] h fun x e l =>
      if (x.mask k.toNat).getLsbD l then s.opVal a x e l else s.opVal b x e l) ∧
  (∀ (s : State) (p : Option Pfx) (n : BitVec 3) (d : Dst) (a b : Opnd) (h : Bool),
    let pa := fun (x : Slice) e => x.readPair e s.clock true a
    (s.GangAble (.lea p n d a b h) p fun x e => [(pa x e).1, (pa x e).2, x.readOpnd e s.clock b]) →
    ∃ t, exec (.lea p n d a b h) s = .next t ∧ t.groups = s.groups ∧
      s.LaneStep t (.lea p n d a b h) fun x e w =>
        x.TookInt w p .i64 d (fun l => (pairVal (pa x e) l + ((s.opVal b x e l).signExtend 64 <<< n.toNat)).toNat)
          (heldOf h [(pa x e).1, (pa x e).2]))

/-- A gang that may issue ICMP or ICMPI executes it: in each slice, bit l of mask register k becomes 1 when the relation
holds for every element of lane l, for the lanes that take the result; the other bits are kept, or cleared under
zeroing. Nothing else but latch and PC changes. D holds the mask register and the code of the condition, and mask
register 0 and codes above 5 are illegal encodings. (R255) -/
def Obligations.ComparesWriteMasks : Prop :=
  (∀ (s : State) (p : Option Pfx) (c : Cond) (t : IType) (k : BitVec 3) (a : Opnd),
    let rel := fun (u v : Int) => match c with
      | .eq => u == v | .ne => u != v | .lt => decide (u < v) | .le => decide (u ≤ v) | .gt => decide (v < u) | .ge => decide (v ≤ u)
      | _ => c.holds false (compare u v)
    (∀ (b : Opnd) (h : Bool),
      s.Marks (.icmp p c t k a b h) p k (fun x e => x.readInt e s.clock t a ++ x.readInt e s.clock t b)
        (fun x e => heldOf h (x.readInt e s.clock t a))
        (fun x e => maskOf fun l => (List.range (t.total / t.bits)).all fun n =>
          rel (intElem t (regsVal (x.readInt e s.clock t a) l) n) (intElem t (regsVal (x.readInt e s.clock t b) l) n))) ∧
    (∀ m : BitVec 8,
      s.Marks (.icmpi p c t k a m) p k (fun x e => x.readInt e s.clock t a) (fun _ _ => [])
        (fun x e => maskOf fun l => (List.range (t.total / t.bits)).all fun n =>
          rel (intElem t (regsVal (x.readInt e s.clock t a) l) n) (intElem t (immElems t m) n)))) ∧
  (∀ (p : Option Pfx) (t : IType) (k : BitVec 3) (a b : Opnd) (h : Bool) (m : BitVec 8),
    ∀ c ∈ [(Cond.eq, 0#4), (.ne, 1#4), (.lt, 2#4), (.le, 3#4), (.gt, 4#4), (.ge, 5#4)],
      fieldsAre (.icmp p c.1 t k a b h) 0x07 t.code (fun f => f.d.extractLsb' 0 3 = k ∧ f.d.extractLsb' 3 4 = c.2) ∧
      fieldsAre (.icmpi p c.1 t k a m) 0x13 t.code (fun f => f.d.extractLsb' 0 3 = k ∧ f.d.extractLsb' 3 4 = c.2)) ∧
  illegalWords (fun f => (f.maj == 0x07 || f.maj == 0x13) && (f.d.extractLsb' 0 3 == 0 || decide (5 < (f.d.extractLsb' 3 4).toNat)))

/-- A gang that may issue a MASK instruction executes it: MSET sets the bits of active lanes from nonzero tests, MGET
writes 0 or 1 per active lane, MAND, MOR, MNOT and MXOR combine mask registers in the active lanes. NOP advances the
PC and changes no register. The mask fields hold the mask numbers; a mask field above 7, the destination m0, FN 6 and
7 and every prefix on MASK are illegal encodings. (R278) -/
def Obligations.MaskOperations : Prop :=
  (∀ (s : State) (k : BitVec 3) (a : Opnd) (h : Bool),
    s.Marks (.mset k a h) none k (s.reads [a]) (fun x e => heldOf h (s.reads [a] x e)) fun x e =>
      maskOf fun l => s.opVal a x e l != 0) ∧
  (∀ (s : State) (d : Dst) (j : BitVec 3),
    s.Computes (.mget d j) none d [] false fun x _ l => if (x.mask j.toNat).getLsbD l then 1 else 0) ∧
  (∀ (s : State) (k j m : BitVec 3),
    s.Marks (.mand k j m) none k (fun _ _ => []) (fun _ _ => []) (fun x _ => x.mask j.toNat &&& x.mask m.toNat) ∧
    s.Marks (.mor k j m) none k (fun _ _ => []) (fun _ _ => []) (fun x _ => x.mask j.toNat ||| x.mask m.toNat) ∧
    s.Marks (.mnot k j) none k (fun _ _ => []) (fun _ _ => []) (fun x _ => ~~~(x.mask j.toNat)) ∧
    s.Marks (.mxor k j m) none k (fun _ _ => []) (fun _ _ => []) (fun x _ => x.mask j.toNat ^^^ x.mask m.toNat)) ∧
  (∀ s : State, s.GangAble .nop none (fun _ _ => []) → ∃ t, exec .nop s = .next t ∧ t.groups = s.groups ∧
    s.LaneStep t .nop fun x _ w => x.Took w .zero 0 x.m0 false (fun _ _ => {}) [] x.masks x.seeds x.fmt) ∧
  (∀ (k j m : BitVec 3) (d : Dst) (a : Opnd) (h : Bool),
    fieldsAre (.mset k a h) 0x23 0 (fun f => f.d.toNat = k.toNat ∧ f.a = a.code ∧ f.b = 0) ∧
    fieldsAre (.mget d j) 0x23 1 (fun f => f.d = d.code ∧ f.a.toNat = j.toNat ∧ f.b = 0) ∧
    fieldsAre (.mnot k j) 0x23 4 (fun f => f.d.toNat = k.toNat ∧ f.a.toNat = j.toNat ∧ f.b = 0) ∧
    ∀ c ∈ [(Instr.mand, 2#3), (.mor, 3#3), (.mxor, 5#3)],
      fieldsAre (c.1 k j m) 0x23 c.2 (fun f => f.d.toNat = k.toNat ∧ f.a.toNat = j.toNat ∧ f.b.toNat = m.toNat)) ∧
  illegalWords (fun f => f.maj == 0x23 && (decide (6 ≤ f.fn.toNat) ||
    (f.fn != 1 && (f.d.extractLsb' 0 3 == 0 || decide (7 < f.d.toNat))) || (f.fn != 0 && decide (7 < f.a.toNat)) ||
    ((f.fn == 2 || f.fn == 3 || f.fn == 5) && decide (7 < f.b.toNat)) || ((f.fn == 0 || f.fn == 1 || f.fn == 4) && f.b != 0))) ∧
  illegalPrefixed (fun f => f.maj == 0x23)

/-- A gang that may issue a short form executes it, and leaves each slice the result, latch, LRF and the rest that R235
gives: MOV of the B register, i32 sums, differences and products, logic, shifts, FADD, FSUB, FMUL, FMAX and FMIN of
f32 under the default mode of D and B, and the sum of D and a signed 5-bit immediate, in the lanes of m0. (R235) -/
def Obligations.ShortForms : Prop :=
  ∀ (s : State) (h : Bool) (b d : Fin 32),
    let D := Dst.v ⟨d.val, Nat.lt_trans d.isLt (by decide)⟩
    let od := Opnd.v ⟨d.val, Nat.lt_trans d.isLt (by decide)⟩
    let ob := Opnd.v ⟨b.val, Nat.lt_trans b.isLt (by decide)⟩
    s.Computes (.movShort h b d) none D [ob] h (fun x e l => s.opVal ob x e l) ∧
    (∀ cf ∈ [(Instr.iaddShort, fun (u v : Word) => u + v), (.isubShort, fun u v => u - v), (.imulShort, fun u v => u * v),
        (.andShort, fun u v => u &&& v), (.orShort, fun u v => u ||| v), (.xorShort, fun u v => u ^^^ v),
        (.shlShort, fun u v => u <<< (v.toNat % 32)), (.shrShort, fun u v => u >>> (v.toNat % 32)),
        (.shaShort, fun u v => u.sshiftRight (v.toNat % 32))],
      s.Computes (cf.1 h b d) none D [od, ob] h fun x e l => cf.2 (s.opVal od x e l) (s.opVal ob x e l)) ∧
    (∀ i : BitVec 5, s.Computes (.iaddi5Short h i d) none D [od] h fun x e l => s.opVal od x e l + i.signExtend 32) ∧
    (∀ cf ∈ [(Instr.faddShort, fun (x : Slice) u v => fAdd .f32 (x.rm none).noRst x.ftz u v),
        (.fsubShort, fun x u v => fSub .f32 (x.rm none).noRst x.ftz u v), (.fmulShort, fun x u v => fMul .f32 (x.rm none).noRst x.ftz u v),
        (.fmaxShort, fun x u v => fMinMax true .f32 x.ftz u v), (.fminShort, fun x u v => fMinMax false .f32 x.ftz u v)],
      s.Floats (cf.1 h b d) none D [od, ob] h fun x e l =>
        let r := cf.2 x (s.opVal od x e l).toNat (s.opVal ob x e l).toNat
        (BitVec.ofNat 32 r.bits, r.flags))

/-- A gang that may issue FADD, FSUB, FMUL, FFMA, FMIN, FMAX or FDOT2 executes it: each lane that takes the result gets
the elements of the exact result rounded once under the mode in force, and the exceptions of those lanes, and of no
others, are ORed into FPFLAGS of their group. Nothing else changes. (R262) -/
def Obligations.FloatOperations : Prop :=
  ∀ (s : State) (p : Option Pfx) (t : FType) (d : Dst) (a b : Opnd) (h : Bool),
    let c := ((p.bind (·.c))).getD d.asOpnd
    let el := fun o x e l k => floatElem t (s.opVal o x e l) k
    (∀ cf ∈ [(Instr.fadd, fun (x : Slice) u v => fAdd t.fmt (x.rm p).noRst x.ftz u v),
        (.fsub, fun x u v => fSub t.fmt (x.rm p).noRst x.ftz u v), (.fmul, fun x u v => fMul t.fmt (x.rm p).noRst x.ftz u v),
        (.fmin, fun x u v => fMinMax false t.fmt x.ftz u v), (.fmax, fun x u v => fMinMax true t.fmt x.ftz u v)],
      s.Floats (cf.1 p t d a b h) p d [a, b] h fun x e l => floatWord t fun k => cf.2 x (el a x e l k) (el b x e l k)) ∧
    s.Floats (.ffma p t d a b h) p d [a, b, c] h (fun x e l =>
      floatWord t fun k => fFma t.fmt (x.rm p).noRst x.ftz (el a x e l k) (el b x e l k) (el c x e l k)) ∧
    s.Floats (.fdot2 p t d a b h) p d [a, b, c] h (fun x e l =>
      let r := fDot2 t.fmt (x.rm p).noRst x.ftz (s.opVal a x e l).toNat (s.opVal b x e l).toNat (s.opVal c x e l).toNat
      (BitVec.ofNat 32 r.bits, r.flags))

/-- A gang that may issue FABS or FNEG executes it on the sign bits alone, raising nothing; one that may issue a special
function or FFLOOR, FCEIL, FTRUNC or FRINT executes it per element, and the exceptions of the lanes that take the
result are ORed into FPFLAGS. (R216, R265) -/
def Obligations.FloatFunctions : Prop :=
  ∀ (s : State) (p : Option Pfx) (t : FType) (d : Dst) (a : Opnd) (h : Bool),
    let sign : Word := if t = .f32 then 0x80000000 else 0x80008000
    s.Computes (.fabs p t d a h) p d [a] h (fun x e l => s.opVal a x e l &&& ~~~sign) ∧
    s.Computes (.fneg p t d a h) p d [a] h (fun x e l => s.opVal a x e l ^^^ sign) ∧
    (∀ cf ∈ [(Instr.frcp, SpecialFn.rcp), (.frsq, .rsq), (.fsqrt, .sqrt), (.fexp2, .exp2), (.flog2, .log2), (.fsin, .sin),
        (.fcos, .cos), (.ftanh, .tanh), (.fsigm, .sigm)],
      s.Floats (cf.1 p t d a h) p d [a] h fun x e l =>
        floatWord t fun k => specialFn cf.2 t.fmt (x.rm p).noRst x.ftz (floatElem t (s.opVal a x e l) k)) ∧
    (∀ cf ∈ [(Instr.ffloor, fun (_ : Slice) => (Rm.rdn, false)), (.fceil, fun _ => (.rup, false)), (.ftrunc, fun _ => (.rtz, false)),
        (.frint, fun x => ((x.rm p).noRst, true))],
      s.Floats (cf.1 p t d a h) p d [a] h fun x e l =>
        floatWord t fun k => fToIntegral t.fmt (cf.2 x).1 (cf.2 x).2 x.ftz (floatElem t (s.opVal a x e l) k))

/-- A gang that may issue FCMP executes it: bit l of the mask register becomes 1 when the relation holds in every element
of lane l; the exceptions of the lanes that take the result go to FPFLAGS; nothing else but latch and PC changes.
(R264) -/
def Obligations.FloatCompares : Prop :=
  ∀ (s : State) (p : Option Pfx) (c : Cond) (t : FType) (k : BitVec 3) (a b : Opnd) (h : Bool),
    let res := fun x e l => (if t = .f32 then [0] else [0, 1]).map fun n =>
      fCmp c t.fmt x.ftz (floatElem t (s.opVal a x e l) n) (floatElem t (s.opVal b x e l) n)
    s.GangAble (.fcmp p c t k a b h) p (s.reads [a, b]) →
    ∃ q, exec (.fcmp p c t k a b h) s = .next q ∧
      q.groups = (s.raiseAll (s.curSlices.map fun x => (x.group, Flags.all ((maskLanes (takeOf x p)).map fun l =>
        Flags.all ((res x (s.env x) l).map (·.2)))))).groups ∧
      s.LaneStep q (.fcmp p c t k a b h) fun x e w =>
        x.TookMask w p k (maskOf fun l => (res x e l).all (·.1)) (heldOf h [x.readOpnd e s.clock a])

/-- For F32, BF16 and F16 and every mode: a sum, difference, product or fused multiply-add with a NaN among its operands
gives the canonical NaN of the format; a sum, difference or product raises invalid exactly when an operand is a
signalling NaN, and no other exception. (R196, R262) -/
def Obligations.NanRules : Prop :=
  ∀ f ∈ [Fmt.f32, .bf16, .f16], ∀ (rm : Rm) (ftz : Bool) (a b c : Nat),
    ((decodeFloat f a).isNan = true ∨ (decodeFloat f b).isNan = true →
      ∀ op ∈ [fAdd, fSub, fMul],
        (op f rm ftz a b).bits = f.nanBits ∧
        (op f rm ftz a b).flags = { invalid := (decodeFloat f a).isSig || (decodeFloat f b).isSig }) ∧
    ((decodeFloat f a).isNan = true ∨ (decodeFloat f b).isNan = true ∨ (decodeFloat f c).isNan = true →
      (fFma f rm ftz a b c).bits = f.nanBits)

/-- A gang that may issue CVTF or CVTI, none of its slices being a guest at a conversion that rounds stochastically,
executes it: each lane that takes the result gets the converted element in its field and its old bits elsewhere (a
32-bit destination is written whole); a stochastic rounding steps the states of exactly the lanes that take the
result; the exceptions of those lanes go to FPFLAGS. (R266) -/
def Obligations.Conversions : Prop :=
  ∀ (s : State) (p : Option Pfx) (src dst : Fmt) (pos : BitVec 3) (d : Dst) (a : Opnd) (h : Bool),
    ∀ cf ∈ [(Instr.cvtf, false), (.cvti, dst.isInt && saturate p)],
      let i := cf.1 p src dst pos d a h
      let srcs := a :: (if dst.bits = 32 then [] else [d.asOpnd])
      let r := fun (x : Slice) e l => convertWord src dst pos.toNat (x.convRm p src dst) cf.2 x.ftz (x.seeds.get l)
        (s.opVal a x e l) (s.opVal d.asOpnd x e l)
      s.GangAble i p (s.reads srcs) → (∀ x ∈ s.curSlices, x.convRm p src dst = .rst → x.guest = none) →
      ∃ t, exec i s = .next t ∧
        t.groups = (s.raiseAll (s.curSlices.map fun x =>
          (x.group, Flags.all ((maskLanes (takeOf x p)).map fun l => (r x (s.env x) l).2.flags)))).groups ∧
        s.LaneStep t i fun x e w =>
          x.Took w d 1 (takeOf x p) (zeroing p) (fun _ l => { val := (r x e l).1 }) (heldOf h [x.readOpnd e s.clock a]) x.masks
            (L4.ofFn fun l => if (takeOf x p).getLsbD l && (r x e l).2.stepped then rstStep (x.seeds.get l) else x.seeds.get l) x.fmt

/-- A gang that may issue SHFL or VOTE executes it. SHFL gives a participant the value of a held by participant j, and its
own where j is no participant. VOTE gives every participant one uniform value computed from the participants alone.
(R273, R274) -/
def Obligations.LaneExchange : Prop :=
  (∀ (s : State) (p : Option Pfx) (o : ShflMode) (d : Dst) (a b : Opnd) (h : Bool),
    s.Computes (.shfl p o d a b h) p d [a, b] h fun x e l =>
      let i : Int := 4 * x.idx + l
      let n := (s.opVal b x e l).toNat
      let j : Int := match o with
        | .idx => n
        | .up => i - n
        | .down => i + n
        | .xor => Nat.xor (4 * x.idx + l) n
      if 0 ≤ j ∧ j < 32 then ((s.participants p a).lookup j.toNat).getD (s.opVal a x e l) else s.opVal a x e l) ∧
  (∀ (s : State) (p : Option Pfx) (o : VoteMode) (d : Dst) (a : Opnd) (h : Bool),
    let ps := s.participants p a
    s.Computes (.vote p o d a h) p d [a] h fun _ _ _ =>
      match o with
      | .any => if ps.any (·.2 != 0) then 1 else 0
      | .all => if ps.all (·.2 != 0) then 1 else 0
      | .ballot => BitVec.ofNat 32 ((ps.filter (·.2 != 0)).map fun q => 2 ^ q.1).sum
      | .count => BitVec.ofNat 32 (ps.countP (·.2 != 0)))

/-- A gang that may issue GRED or SCAN executes it: integer sums are modulo 2^32 over the participants, the float sum is
the tree of R211, SCAN sums the participants before a lane or up to it. The exceptions of float sums go to FPFLAGS of
groups with a lane that takes the result. (R211, R275, R276) -/
def Obligations.Reductions : Prop :=
  (∀ (s : State) (p : Option Pfx) (o : GredOp) (d : Dst) (a : Opnd) (h : Bool),
    let ps := s.participants p a
    let v := gredValue o (s.gangMode p).1 (s.gangMode p).2 ps
    s.GangAble (.gred p o d a h) p (s.reads [a]) →
    ∃ t, exec (.gred p o d a h) s = .next t ∧
      t.groups = (s.raiseAll (s.curSlices.map fun x => (x.group, if takeOf x p = 0 then {} else v.flags))).groups ∧
      (o = .addI32 → v.word = (ps.map (·.2)).sum ∧ t.groups = s.groups) ∧
      s.LaneStep t (.gred p o d a h) fun x e w => x.TookWord w p d (fun _ => v.word) (heldOf h [x.readOpnd e s.clock a])) ∧
  (∀ (s : State) (p : Option Pfx) (o : ScanOp) (d : Dst) (a : Opnd) (h : Bool),
    let ps := s.participants p a
    s.Floats (.scan p o d a h) p d [a] h fun x _ l =>
      let i := 4 * x.idx + l
      match o with
      | .addI32Ex => (((ps.filter fun q => decide (q.1 < i)).map (·.2)).sum, {})
      | .addI32In => (((ps.filter fun q => decide (q.1 ≤ i)).map (·.2)).sum, {})
      | .addF32In => let r := scanSum .addF32In (s.gangMode p).1 (s.gangMode p).2 ps i; (r.word, r.flags))

/-- A gang that may issue BSCALE, BPACK or BUNPK (no slice of it a guest at a stochastic BPACK) executes it: BSCALE gives
each lane the scale and spare byte of its block and raises nothing; BPACK gives each lane the word of eight
neighbouring lanes' nibbles, steps the states of the lanes that rounded stochastically and raises their exceptions;
BUNPK gives each lane its nibble's value in F32. (R204, R205, R268, R269, R270) -/
def Obligations.BlockFormats : Prop :=
  (∀ (s : State) (p : Option Pfx) (d : Dst) (a : Opnd) (h : Bool),
    s.Computes (.bscale p d a h) p d [a] h fun x _ l =>
      let b := blockOf x.amax x.blockSize (s.participants p a) (x.laneBase + l)
      BitVec.ofNat 32 (b.1 + 256 * b.2)) ∧
  (∀ (s : State) (p : Option Pfx) (d : Dst) (a b : Opnd) (h : Bool),
    let nibbles := s.curSlices.flatMap fun x => (maskLanes (takeOf x p)).map fun l =>
      (x.laneBase + l, packNibble x p l (s.opVal a x (s.env x) l) (s.opVal b x (s.env x) l))
    let mine := fun (x : Slice) l => (nibbles.find? (·.1 == x.laneBase + l)).map (·.2)
    s.GangAble (.bpack p d a b h) p (s.reads [a, b]) → (∀ x ∈ s.curSlices, x.rm p = .rst → x.guest = none) →
    ∃ t, exec (.bpack p d a b h) s = .next t ∧
      t.groups = (s.raiseAll (s.curSlices.map fun x => (x.group, Flags.all (lanes.filterMap fun l => (mine x l).map (·.flags))))).groups ∧
      s.LaneStep t (.bpack p d a b h) fun x e w =>
        x.Took w d 1 (takeOf x p) (zeroing p)
          (fun _ l => { val := BitVec.ofNat 32 ((nibbles.filter fun q =>
            q.1 / 8 == (x.laneBase + l) / 8).map fun q => q.2.bits * 2 ^ (4 * (q.1 % 8))).sum })
          (heldOf h [x.readOpnd e s.clock a]) x.masks
          (L4.ofFn fun l => match mine x l with
            | some r => if r.stepped then rstStep (x.seeds.get l) else x.seeds.get l
            | none => x.seeds.get l) x.fmt) ∧
  (∀ (s : State) (p : Option Pfx) (d : Dst) (a b : Opnd) (h : Bool),
    s.Floats (.bunpk p d a b h) p d [a, b] h fun x e l =>
      let w := (s.opVal b x e l).toNat
      let r := roundVal .f32 .rne false 0
        (decodeE2m1 ((s.opVal a x e l).toNat / 2 ^ (4 * ((x.laneBase + l) % 8)) % 16) (w % 256) (w / 256 % 256) x.amax)
      (BitVec.ofNat 32 r.bits, r.flags))

/-- A gang that may issue FMTSET executes it when the value of its lowest lane that takes the result is accepted: every
slice of it then holds that value (or its own still, when no lane takes the result), no register changes and nothing
is pushed; when the value is rejected every slice takes an illegal-instruction trap. FMTGET gives each lane its
slice's format register. (R271) -/
def Obligations.FormatRegister : Prop :=
  (∀ (s : State) (a : Opnd) (h : Bool), s.GangAble (.fmtset a h) none (s.reads [a]) →
    let w := ((s.participants none a).head?).map (·.2)
    ((∀ v, w = some v → fmtOk v = true) → ∃ t, exec (.fmtset a h) s = .next t ∧ t.groups = s.groups ∧
      s.LaneStep t (.fmtset a h) fun x e y =>
        x.Took y .zero 0 x.m0 false (fun _ _ => {}) (heldOf h [x.readOpnd e s.clock a]) x.masks x.seeds (w.getD x.fmt)) ∧
    (∀ v, w = some v → fmtOk v = false →
      exec (.fmtset a h) s = .next ((s.clearDeclines (s.curSlices.map (·.uid))).takeTraps
        (s.curSlices.map fun x => (x.uid, { cause := 1, eaddr := x.pc, epc := x.pc, fpc := x.pc }))))) ∧
  (∀ w : Word, fmtOk w = true ↔
    (w.toNat / 2 ^ 18 % 8 ≤ 1 ∧ w.toNat / 2 ^ 15 % 8 ≤ 5 ∧ w.toNat / 2 ^ 12 % 4 ≤ 1 ∧ w.toNat / 2 ^ 21 = 0)) ∧
  (∀ (s : State) (d : Dst), s.Computes (.fmtget d) none d [] false fun x _ _ => x.fmt)

/-- A slice that issues alone, whose running path stands in no entry of its frame and has an active lane, executes BRA by
going to the target, the base word's address plus twice the signed offset; BANY goes there when the condition is
nonzero in some active lane, BALL when it is in every one, BNONE when it is in none, and falls through otherwise. A
taken branch clears LRF and latch, and one that does not go forward counts in the turn; nothing else changes. (R228,
R306, R309) -/
def Obligations.BranchesWithoutDivergence : Prop :=
  ∀ (s : State) (x : Slice) (o : BitVec 14), x.topEntry = none → x.m0 ≠ 0 →
    let target := x.pc + (o.signExtend 64) * 2
    let go := ({ x.clearLocal with pc := target, turn := if target.toNat ≤ x.pc.toNat then x.turn + 1 else x.turn } : Slice).retired
    (s.Alone (.bra o) x [] x.m0 → exec (.bra o) s = .next (s.setSlice go)) ∧
    (∀ a : Opnd,
      let cond := x.m0 &&& maskOf fun l => s.opVal a x (s.env x) l != 0
      ∀ cf ∈ [(Instr.bany, decide (cond ≠ 0)), (.ball, decide (cond = x.m0)), (.bnone, decide (cond = 0))],
        s.Alone (cf.1 o a) x (s.reads [a] x (s.env x)) x.m0 →
        exec (cf.1 o a) s = .next (s.setSlice
          (if cf.2 then go else ({ x.stepLatch [] with pc := x.after (cf.1 o a) } : Slice).retired)))

/-- A slice that issues alone, whose running path stands in no entry of its frame, executes BDIV, and BLOOP after
decrementing its counter in the active lanes, thus: with no lane to take the branch it falls through; with all of
them, or a target that is the next instruction, it goes to the target; with some, fewer than eight entries standing
and a reconvergence point an entry can hold, it pushes an entry whose reconvergence point is the later of the two
places, and runs the path that is earlier. (R306, R308, R375) -/
def Obligations.DivergentBranches : Prop :=
  ∀ (s : State) (x : Slice) (o : BitVec 14) (a : Opnd), x.topEntry = none → x.m0 ≠ 0 → x.allEntries.length < 8 →
    let target := x.pc + (o.signExtend 64) * 2
    let turned := fun (y : Slice) => if target.toNat ≤ x.pc.toNat then y.turn + 1 else y.turn
    let after := fun (i : Instr) (y : Slice) (taken : BitVec 4) =>
      if taken = 0 then ({ y.stepLatch [] with pc := x.after i } : Slice)
      else if taken = x.m0 ∨ target = x.after i then ({ y.clearLocal with pc := target, turn := turned y } : Slice)
      else if x.pc.toNat < target.toNat then
        { y.clearLocal with
          pc := x.after i, masks := setNth y.masks 0 (x.m0 &&& ~~~taken),
          recon := { rpc := target, all := x.m0, otherPc := target, otherMask := taken, dFmt := y.fmt, oFmt := y.fmt, fdepth := y.depth } :: y.recon }
      else
        { y.clearLocal with
          pc := target, masks := setNth y.masks 0 taken, turn := y.turn + 1,
          recon := { rpc := x.after i, all := x.m0, otherPc := x.after i, otherMask := x.m0 &&& ~~~taken, dFmt := y.fmt, oFmt := y.fmt, fdepth := y.depth } :: y.recon }
    let entry := (s.env x).launch.pkt.entry
    let fits := fun i => pcInReach entry target = true ∧ pcInReach entry (x.after i) = true
    (s.Alone (.bdiv o a) x (s.reads [a] x (s.env x)) x.m0 → fits (.bdiv o a) →
      exec (.bdiv o a) s = .next (s.setSlice
        (after (.bdiv o a) x (x.m0 &&& maskOf fun l => s.opVal a x (s.env x) l != 0)).retired)) ∧
    (s.Alone (.bloop o a) x (s.reads [a] x (s.env x)) x.m0 → fits (.bloop o a) →
      ∃ r : Reg, (∀ l, l < 4 → r.lane l = { val := s.opVal a x (s.env x) l - 1 }) ∧
        exec (.bloop o a) s = .next (s.setSlice
          (after (.bloop o a) (x.writeResult a.asDst [r] x.m0 false)
            (x.m0 &&& maskOf fun l => s.opVal a x (s.env x) l - 1 != 0)).retired))

/-- A slice that issues alone executes a call, direct or through a pair, when DEMAND is 1 to 12, ARGS fit both frames, the
target is even, the depth allows and a free run of DEMAND granules stands in its column: a frame is pushed at that run
whose first ARGS registers are the caller's last and whose others are zero, with the address after the call to return
to; LRF and latch are cleared; the PC is the target; nothing else changes. (R185, R227, R312, R313) -/
def Obligations.CallsEnterAFrame : Prop :=
  ∀ (s : State) (x : Slice) (args demand : BitVec 4) (base : Nat),
    demand ≠ 0 → demand.toNat ≤ 12 → args.toNat ≤ 8 * demand.toNat → args.toNat ≤ x.frameRegs → x.depth < 4095 →
    s.ownRun x demand.toNat = some base →
    let entered := fun (i : Instr) (target : DWord) =>
      ({ x.clearLocal with
        pc := target,
        frames := { base := base, demand := demand.toNat, args := args.toNat, retPc := x.after i, regs :=
          x.top.regs.drop (x.top.regs.length - args.toNat) ++ List.replicate (8 * demand.toNat - args.toNat) (.u 0) } :: x.frames } : Slice).retired
    (∀ o : BitVec 14, let target := x.pc + (o.signExtend 64) * 2
      s.Alone (.call o args demand) x [] x.m0 → target.getLsbD 0 = false →
      exec (.call o args demand) s = .next (s.setSlice (entered (.call o args demand) target))) ∧
    (∀ a : Opnd, let p := x.readPair (s.env x) s.clock true a
      s.Alone (.callIndirect a args demand) x [p.1, p.2] x.lowMask → (pairVal p (lowestLane x.m0)).getLsbD 0 = false →
      exec (.callIndirect a args demand) s =
        .next (s.setSlice (entered (.callIndirect a args demand) (pairVal p (lowestLane x.m0)))))

/-- A slice that issues alone, at home, outside a handler, with no entry, no lane kept aside and no frame that Midnight is
writing, executes RET from an inner frame into a resident caller: the ARGS window returns to the caller's last
registers and the PC is the return address. UNWIND of n resident inner frames, n at least 1, leaves the code of the
lowest active lane in o14 of the active lanes and goes to the return address of the last frame. EXIT of a slice in its
outermost frame with every access performed ends it, after a release at pkg, its slots freed; RET there does the same.
(R186, R314, R315, R319) -/
def Obligations.ReturnsUnwindAndExit : Prop :=
  ∀ (s : State) (x : Slice), x.recon = [] → x.returned = [] → x.tstate = none → x.guest = none → (∀ k, s.frameBusy x.uid k = false) →
    (∀ f caller rest, x.frames = f :: caller :: rest → f.outer = false → caller.slot = none → s.Alone .ret x [] x.m0 →
      exec .ret s = .next (s.setSlice ({ x.clearLocal with
        pc := f.retPc,
        frames := { caller with regs := caller.regs.take (caller.regs.length - f.args) ++ f.regs.take f.args } :: rest } : Slice).retired)) ∧
    (∀ (a : Opnd) (n : BitVec 8) (gone : List Frame) (f new : Frame) (rest : List Frame),
      x.frames = gone ++ f :: new :: rest → gone.length + 1 = n.toNat → (∀ g ∈ gone ++ [f], g.slot = none ∧ g.outer = false) →
      new.slot = none → s.Alone (.unwind a n) x (s.reads [a] x (s.env x)) x.lowMask →
      exec (.unwind a n) s = .next (s.setSlice ((({ x.clearLocal with frames := new :: rest, masks := setNth x.masks 0 x.m0, pc := f.retPc } : Slice).putSof
        14 x.m0 fun _ => { val := s.opVal a x (s.env x) (lowestLane x.m0) }).retired))) ∧
    (∀ f, x.frames = [f] → x.parked = [] → s.accessesDone x = true → ∀ i ∈ [Instr.exit, .ret], s.Alone i x [] x.m0 →
      exec i s = .next (((s.releaseAt (s.env x) x .pkg).freeSlots ((s.env x).party x.uid)
        (f.slot.toList ++ x.rxSlot.toList ++ (x.spill.map (·.1)).toList)).setSlice ({ x.clearLocal with
          status := .exited, frames := [], rxSlot := none, mig := none, spill := none, held := none, masks := setNth x.masks 0 0 } : Slice).retired))

/-- A slice alone, in no entry and no handler, executes REGANG by waiting with its tag, and the first of a round begins
it: its clock and REGANG_WINDOW as it stands then are noted. A gang executes PART by going on with a gang of its own
for each slice, YIELD by going on as the youngest gang and not issuing for 8 clocks, and SLEEP, its operand taken from
the leader's lane, by standing at the next instruction until min(n, 2^24) clocks have passed. Nothing else changes.
(R317, R318, R320) -/
def Obligations.GangControl : Prop :=
  (∀ (s : State) (x : Slice) (tag : BitVec 8), x.topEntry = none → x.tstate = none → s.Alone (.regang tag) x [] x.m0 →
    let begun := (s.groupSlices x.group).any fun y => y.status == .atRegang tag.toNat
    let window := (s.ctxOf (s.env x).ctx).regangWindow
    exec (.regang tag) s = .next ((s.onGroup x.group fun g => if begun then g else
      { g with rounds := (tag.toNat, s.clock, window) :: g.rounds.filter fun r => r.1 != tag.toNat }).setSlice { x with status := .atRegang tag.toNat })) ∧
  (∀ s : State, s.cur ≠ [] → s.cur.Nodup →
    (∃ t, exec .part s = .next t ∧ s.GangStep t (fun x y => y = ((x.stepLatch []).next .part).retired) ∧
      (1 < s.cur.length → ∀ x ∈ s.curSlices, ∀ y ∈ s.curSlices, x.uid ≠ y.uid →
        (t.slice? x.uid).map (·.gang) ≠ (t.slice? y.uid).map (·.gang))) ∧
    (∃ t, exec .yield s = .next t ∧
      s.GangStep t (fun x y => y = { ((x.stepLatch []).next .yield).retired with age := s.clock, notBefore := s.clock + 8 }))) ∧
  (∀ (s : State) (a : Opnd) (l : Lead), s.Led (.sleep a) (s.reads [a]) l →
    ∃ t, exec (.sleep a) s = .next t ∧ s.GangStep t fun x y =>
      y = { ((x.stepLatch []).next (.sleep a)).retired with
        status := .sleeping (s.clock + BitVec.ofNat 64 (min (s.opVal a l.slice l.env l.lane).toNat (2 ^ 24))) })

/-- A slice alone executes MIGRATE of an address that translates: on a page that does not allow migration, or of another
part, it gets code 2; at a home it is already at, code 1; else it seeks migration, and either waits for the answer in
a gang of its own or gets the code of the refusal. HOME goes on to the next PC, and a guest then returns to its
origin. (R322, R323, R324, R385) -/
def Obligations.MigrationInstructions : Prop :=
  (∀ (s t : State) (x : Slice) (d : Dst) (a : Opnd) (h : Bool) (m : Mapping) (ms : List Mapping),
    let i : Instr := .migrate d a h
    let p := x.readPair (s.env x) s.clock true a
    let va := pairVal p (lowestLane x.m0)
    s.Alone i x [p.1, p.2] x.lowMask → s.translate ((s.env x).party x.uid) [(va, { kind := .load })] = (t, .ok (m :: ms)) →
    (m.mig = false ∨ m.part?.isSome = true → exec i s = .next (t.setSlice (x.retireWith i d [.u 2] (heldOf h [p.1, p.2])).retired)) ∧
    (m.mig = true → m.part? = none → (s.env x).beyond m.home = false →
      exec i s = .next (t.setSlice (x.retireWith i d [.u 1] (heldOf h [p.1, p.2])).retired)) ∧
    (m.mig = true → m.part? = none → (s.env x).beyond m.home = true →
      exec i s = .next (match t.seek (s.env x) x m.home (some i) with
        | (w, .going y) =>
          w.fresh.2.setSlice { y with gang := w.fresh.1, mig := y.mig.map fun g => { g with src := [p.1, p.2] } }
        | (w, .refused code) => w.setSlice (x.retireWith i d [.u (BitVec.ofNat 32 code)] (heldOf h [p.1, p.2])).retired))) ∧
  (∀ (s : State) (x : Slice), s.Alone .home x [] x.m0 →
    let y := ((x.stepLatch []).next .home).retired
    exec .home s = .next (s.setSlice (if x.guest.isSome then
      { y with status := .migrating, mig := some { phase := .returning 1, dest := (s.env x).origin, code := none } } else y)))

/-- A gang whose leader names a control register that it may read executes CSRR: every slice goes on with the value of the
register in d, two words where it is 64 bits wide, and everything else is as it was; a register that each slice holds
gives each its own (log entry 16). One that names a register that it may write, with a value in range, executes CSRW:
the register is written for every slice, and each goes on with no register changed. A number without a register, a
right that is lacking, a 64-bit register with no pair for it, and a value out of range trap in every slice as illegal
instruction. What CSRW writes reads back, and the write changes no memory, cache or engine and no register of a frame.
(R349, R350) -/
def Obligations.ControlRegisters : Prop :=
  (∀ (s : State) (d : Dst) (b : Opnd) (l : Lead), s.Led (.csrr d b) (s.reads [b]) l →
    let named := Csr.ofNum (s.opVal b l.slice l.env (lowestLane l.slice.m0)).toNat
    let allowed := fun (r : Csr) => (l.env.group.firmware || r.userReads) && (!r.wide || (d.okAt .pair && d.inFrame l.slice.frameRegs 2))
    (∀ r, named = some r → allowed r = true → ∃ t, exec (.csrr d b) s = .next t ∧ s.GangStep t fun x y =>
      let v := s.csrRead (s.env x) x r
      y = (x.retireWith (.csrr d b) d (if r.wide then [.u (v.setWidth 32), .u ((v >>> 32).setWidth 32)] else [.u (v.setWidth 32)]) []).retired) ∧
    ((∀ r, named = some r → allowed r = false) →
      exec (.csrr d b) s = .next (s.takeTraps (s.cur.map fun u => (u, trapAt 1 l.slice.pc))))) ∧
  (∀ (s : State) (a b : Opnd) (h : Bool) (l : Lead),
    let i : Instr := .csrw a b h
    let isWide := fun (x : Slice) e => (((x.csrNamed e s.clock b).map (·.wide)).getD false)
    let srcs := fun (x : Slice) e =>
      if isWide x e then (let p := x.readPair e s.clock true a; [p.1, p.2]) else [x.readOpnd e s.clock a]
    let named := Csr.ofNum (s.opVal b l.slice l.env (lowestLane l.slice.m0)).toNat
    let value := fun (r : Csr) => if r.wide then pairVal (l.slice.readPair l.env s.clock true a) l.lane
      else (s.opVal a l.slice l.env l.lane).setWidth 64
    let allowed := fun (r : Csr) => (l.env.group.firmware || r.userWrites) && (!r.wide || (a.okAt .pair && a.inFrame l.slice.frameRegs 2)) &&
      r.accepts (value r)
    s.Led i (fun x e => srcs x e ++ [x.readOpnd e s.clock b]) l →
    (∀ r, named = some r → allowed r = true →
      exec i s = .next ((s.cur.foldl (fun t u => t.csrWrite u r (value r)) s).retireGang i .zero [] fun x e => heldOf h (srcs x e))) ∧
    ((∀ r, named = some r → allowed r = false) → exec i s = .next (s.takeTraps (s.cur.map fun u => (u, trapAt 1 l.slice.pc))))) ∧
  (∀ (s : State) (x : Slice) (r : Csr) (v : DWord), s.slice? x.uid = some x → (s.group? x.group).isSome = true → r ≠ .ctxId →
    (r.wide = false → v.toNat < 2 ^ 32) →
    let t := s.csrWrite x.uid r v
    t.mem = s.mem ∧ t.caches = s.caches ∧ t.engines = s.engines ∧ t.wgs = s.wgs ∧ t.launches = s.launches ∧
    ∀ y, t.slice? x.uid = some y → y.frames = x.frames ∧ y.masks = x.masks ∧ y.pc = x.pc ∧ (r ≠ .sysCtx → t.csrRead (t.env y) y r = v))

/-- A slice at home that takes a trap, its launch having a handler, no handler running, the cause being none of watchdog,
breakpoint and (under an error duty) poison, and a free run of two granules standing in its column, enters the
handler: EPC, ECAUSE and EADDR are written, m0, the format register and the frame depth are saved, a frame of two
granules is pushed with ECAUSE in v0, zero in v1, EPC in v2:v3, EADDR in v4:v5 and the address of the trapping
instruction in v6:v7, its other registers zero; LRF and latch are cleared; and the PC is the handler's address.
Without such a run the slice waits for two granules to enter it. (R399) -/
def Obligations.TrapEntry : Prop :=
  ∀ (s : State) (x : Slice) (t : TrapInfo) (base : Nat), s.slice? x.uid = some x → x.guest = none → x.tstate = none → x.depth < 4095 →
    (s.env x).launch.pkt.trap ≠ 0 → t.cause ≠ 11 → t.cause ≠ 13 → (t.cause = 10 → s.duty 6 = false) →
    let w := s.fresh.2
    let cause := BitVec.ofNat 32 (t.cause % 256 + t.subcode % 16 * 2 ^ 8 + t.info % 256 * 2 ^ 16)
    let y : Slice := { x with gang := s.fresh.1, since := none, wdog := 0, stay := false, mbar := [], run := none, ecause := cause, eaddr := t.eaddr, epc := t.epc,
                              pendingTrap := none, status := .ready, parked := x.lasting, tstate := some { m0 := x.m0, fmt := x.fmt, fdepth := x.depth } }
    let found := (w.onSlice x.uid fun z => { z with gang := s.fresh.1 }).ownRun y 2
    (found = none → s.takeTrap x.uid t = w.setSlice { y with
      status := .frameBlocked 2 .trap, blockedSince := s.clock,
      pendingTrap := some { cause := t.cause, subcode := t.subcode, eaddr := t.eaddr, pc := t.fpc } }) ∧
    (found = some base → s.takeTrap x.uid t = w.setSlice { y with
      lrf := List.replicate 4 (.u 0), lrfDue := [], latch := [], pc := (s.env x).launch.pkt.trap,
      frames := { base := base, demand := 2, retPc := t.epc, regs :=
        [.u cause, .u 0, .u (t.epc.setWidth 32), .u ((t.epc >>> 32).setWidth 32), .u (t.eaddr.setWidth 32), .u ((t.eaddr >>> 32).setWidth 32),
         .u (t.fpc.setWidth 32), .u ((t.fpc >>> 32).setWidth 32)] ++ List.replicate 8 (.u 0) } :: x.frames })

/-- A gang executes TRAP and BRK by taking a trap in each of its slices, of cause 12 or 13 and the code of the leader's
lane, with the instruction's address in EADDR and the next one in EPC. Where each slice is at home, in no handler, and
its launch has one, TRAP completes: each slice has ECAUSE, EADDR, EPC and the handler state written, and stands at the
handler in its trap frame, or waits for the two granules of it; one that issues alone and finds them enters at once,
all of its state as told. BRK of a slice alone at home completes: its group halts, FAULTS of its queue is counted, one
event of class 2 and code 2 is posted, and the slice is stopped at EPC, whether its launch has a handler or none. A
slice alone executes ERET in its trap frame, when EPC is even, the frame under it is resident and not being spilled
and no reconvergence entry stands: the trap frame goes, m0 and the format register are those saved at entry, the
handler state ends, LRF and latch are cleared, the PC is EPC, and all else is as it was. ERET outside the trap frame
traps as illegal instruction, and with an odd EPC as misaligned. (R352, R353, R395, R396, R400) -/
def Obligations.TrapInstructions : Prop :=
  (∀ (s : State) (b : Opnd) (l : Lead), ∀ cf ∈ [(Instr.trap, 12), (.brk, 13)], s.Led (cf.1 b) (s.reads [b]) l →
    exec (cf.1 b) s = .next (s.takeTraps (s.cur.map fun u => (u,
      { cause := cf.2, info := (s.opVal b l.slice l.env l.lane).toNat % 256, eaddr := l.slice.pc, epc := l.slice.after (cf.1 b), fpc := l.slice.pc })))) ∧
  (∀ (s : State) (b : Opnd) (l : Lead), s.Led (.trap b) (s.reads [b]) l → s.cur.Nodup →
    (∀ x ∈ s.curSlices, x.guest = none ∧ x.tstate = none ∧ x.depth < 4095 ∧ (s.env x).launch.pkt.trap ≠ 0) →
    let cause := BitVec.ofNat 32 (12 + (s.opVal b l.slice l.env l.lane).toNat % 256 * 2 ^ 16)
    ∃ t, exec (.trap b) s = .next t ∧ ∀ x ∈ s.curSlices, ∃ y, t.slice? x.uid = some y ∧
      y.ecause = cause ∧ y.eaddr = l.slice.pc ∧ y.epc = l.slice.after (.trap b) ∧ y.tstate = some { m0 := x.m0, fmt := x.fmt, fdepth := x.depth } ∧
      ((y.status = .ready ∧ y.pc = (s.env x).launch.pkt.trap ∧ y.depth = x.depth + 1 ∧
          (∀ k < 4, (nth (.u 0) y.top.regs 0).lane k = { val := cause })) ∨
        (y.status = .frameBlocked 2 .trap ∧ y.pc = x.pc ∧ y.frames = x.frames))) ∧
  (∀ (s : State) (b : Opnd) (l : Lead), s.Led (.trap b) (s.reads [b]) l → s.cur = [l.slice.uid] →
    let x := l.slice
    x.guest = none → x.tstate = none → x.depth < 4095 → (s.env x).launch.pkt.trap ≠ 0 →
    let w := s.fresh.2
    let cause := BitVec.ofNat 32 (12 + (s.opVal b x l.env l.lane).toNat % 256 * 2 ^ 16)
    let y : Slice := { x with gang := s.fresh.1, since := none, wdog := 0, stay := false, mbar := [], run := none, ecause := cause, eaddr := x.pc,
                              epc := x.after (.trap b), pendingTrap := none, status := .ready, parked := x.lasting,
                              tstate := some { m0 := x.m0, fmt := x.fmt, fdepth := x.depth } }
    ∀ base, (w.onSlice x.uid fun z => { z with gang := s.fresh.1 }).ownRun y 2 = some base →
      exec (.trap b) s = .next (w.setSlice { y with
        lrf := List.replicate 4 (.u 0), lrfDue := [], latch := [], pc := (s.env x).launch.pkt.trap,
        frames := { base := base, demand := 2, retPc := y.epc, regs :=
          [.u cause, .u 0, .u (y.epc.setWidth 32), .u ((y.epc >>> 32).setWidth 32), .u (x.pc.setWidth 32), .u ((x.pc >>> 32).setWidth 32),
           .u (x.pc.setWidth 32), .u ((x.pc >>> 32).setWidth 32)] ++ List.replicate 8 (.u 0) } :: x.frames })) ∧
  (∀ (s : State) (b : Opnd) (l : Lead) (g : Group), s.Led (.brk b) (s.reads [b]) l → s.cur = [l.slice.uid] →
    let x := l.slice
    x.guest = none → s.group? x.group = some g → g.halted = false →
    let cause := BitVec.ofNat 32 (13 + (s.opVal b x l.env l.lane).toNat % 256 * 2 ^ 16)
    let counted := s.countFault l.env.launch.queue
    let source := srcDie (dieOfCore l.env.origin)
    (counted.outside.events.filter fun e => e.source == source && e.cls != 0).length < 16 →
    ∃ t, exec (.brk b) s = .next t ∧
      t.slice? x.uid = some { x with
        gang := s.fresh.1, since := none, wdog := 0, stay := false, mbar := [], run := none, ecause := cause, eaddr := x.pc, epc := x.after (.brk b),
        pendingTrap := none, status := .ready, parked := x.lasting, pc := x.after (.brk b), stopped := true } ∧
      t.group? x.group = some { g with halted := true, haltSeq := none } ∧ t.mem = counted.mem ∧
      t.outside.events = counted.outside.events ++
        [{ source := source, cls := 2, code := 2, ctx := some l.env.ctx, core := some l.env.origin, payload := x.after (.brk b),
           detail := dword cause (BitVec.ofNat 32 (l.env.coords x)), group := some g.uid }]) ∧
  (∀ (s : State) (x : Slice), s.Alone .eret x [] 0 → (∀ k, s.frameBusy x.uid k = false) →
    (∀ f caller rest t, x.frames = f :: caller :: rest → caller.slot = none → x.tstate = some t → x.inTrapFrame = true →
      x.epc.getLsbD 0 = false → x.recon = [] →
      exec .eret s = .next (s.setSlice ({ x.clearLocal with
        frames := caller :: rest, masks := setNth x.masks 0 t.m0, fmt := t.fmt, tstate := none, pc := x.epc,
        returned := x.returned.filter fun r => decide (r.1 ≤ t.fdepth) } : Slice).retired)) ∧
    (x.inTrapFrame = false → exec .eret s = .next (s.takeTrap x.uid (trapAt 1 x.pc))) ∧
    (x.inTrapFrame = true → x.epc.getLsbD 0 = true → exec .eret s = .next (s.takeTrap x.uid (trapOn 2 x.pc x.epc))))

/-- A slice that issues alone a lane instruction (an integer, logic or memory form named here) takes a poison trap at the
instruction when a lane that takes the result would read a poisoned word, and an illegal-instruction trap when a named
register lies outside its frame; the state it traps in is the state before the instruction. (R184, R192, R249, R396) -/
def Obligations.LaneTraps : Prop :=
  ∀ (s : State) (x : Slice) (p : Option Pfx) (d : Dst) (a b : Opnd) (h : Bool), s.cur = [x.uid] → s.slice? x.uid = some x →
    s.declinedOf (.slice x.uid) = none →
    ∀ c ∈ [Instr.and, .or, .xor, .andn, .orn, .xnor, .shl, .shr, .sha, .rotl, .rotr],
      let trapped := fun cause => Host.Outcome.next ((s.clearDeclined (.slice x.uid)).takeTrap x.uid (trapAt cause x.pc))
      ((c p d a b h).inFrame x.frameRegs = false → exec (c p d a b h) s = trapped 1) ∧
      ((c p d a b h).inFrame x.frameRegs = true → (∃ l, l < 4 ∧ (takeOf x p).getLsbD l = true ∧
          (((x.readOpnd (s.env x) s.clock a).lane l).poison = true ∨ ((x.readOpnd (s.env x) s.clock b).lane l).poison = true)) →
        exec (c p d a b h) s = trapped 10)

/-- A gang whose slices have nothing outstanding that a release at the scope waits for executes BAR by releasing at the
scope and waiting there, every slice of it, each with the members of the round it joins or begins; a slice that waits
there already, and whose scope does not take in one that arrives, traps as illegal instruction; for the gang itself, a
scope of quad or wider without a cooperative launch, pod without a pod, or a scope that does not take in a member
where it runs, traps as illegal instruction. (R134, R302, R369, R370) -/
def Obligations.BarrierArrival : Prop :=
  ∀ (s : State) (sc : Scope) (l : Lead), s.Led (.bar sc) (fun _ _ => []) l →
    let allowed := (decide (sc.rank < 3) || l.env.launch.pkt.coop) && (decide (sc ≠ .pod) || decide (l.env.launch.pkt.podCount ≠ 0)) &&
      s.curSlices.all fun x => (s.barLive (s.barRound x sc)).all fun y => (s.env x).includes (s.env y) (s.widen x sc)
    (allowed = true → (∀ x ∈ s.curSlices, s.releaseReady x (s.widen x sc) = true) →
      let r := s.curSlices.foldl (fun t x => t.releaseAt (t.env x) x (t.widen x sc)) s
      let there := r.cur.foldl (fun t u => match t.slice? u with
        | some x => t.onSlice u fun y => { (y.waiting t.clock) with status := .atBar sc, barSet := t.barRound x sc }
        | none => t) r
      exec (.bar sc) s = .next ((there.slices.filter fun y => y.status == .atBar sc && !there.cur.contains y.uid &&
          there.cur.any y.barSet.contains && (there.barLive (there.barRound y sc)).any fun z => !(there.env y).includes (there.env z) (there.widen y sc)).foldl
        (fun t y => (t.partSlices [y.uid]).takeTrap y.uid (trapAt 1 y.pc)) there)) ∧
    (allowed = false → exec (.bar sc) s = .next (s.takeTraps (s.cur.map fun u => (u, trapAt 1 l.slice.pc))))

/-- A gang that may release and finds room at the arbiter executes EVPOST with a code below 2^16: it releases at pkg, one
event of class 0 with its context, core, payload and coordinates is posted, and its slices go on. A larger code traps
as illegal instruction. A gang of firmware executes TLBINV of kind 0, 1 or 2: every write on its way and every update
held back is performed, the entries of the address, of the context, or all of them leave the TLBs and walk caches and
the others stay, and its slices go on once no remote access of the context, or of any, is without a reply; until then
they wait. A user slice and a malformed word trap as illegal instruction. (R24, R354, R355) -/
def Obligations.EventsAndInvalidation : Prop :=
  (∀ (s : State) (a b : Opnd) (h : Bool) (l : Lead),
    let i : Instr := .evpost a b h
    let pair := fun (x : Slice) e => x.readPair e s.clock true a
    let held := fun (x : Slice) e => heldOf h [(pair x e).1, (pair x e).2]
    s.Led i (fun x e => [(pair x e).1, (pair x e).2, x.readOpnd e s.clock b]) l →
    ((s.opVal b l.slice l.env l.lane).toNat < 2 ^ 16 → (∀ x ∈ s.curSlices, s.releaseReady x .pkg = true) →
      (s.outside.events.filter (·.cls == 0)).length < arbiterRoom →
      let r := s.curSlices.foldl (fun t x => t.releaseAt (t.env x) x .pkg) s
      exec i s = .next ((r.onOutside fun o => { o with events := o.events ++
        [{ source := srcDie (dieOfCore l.env.origin), cls := 0, code := (s.opVal b l.slice l.env l.lane).toNat, ctx := some l.env.ctx,
           core := some l.env.origin, payload := pairVal (pair l.slice l.env) l.lane, detail := BitVec.ofNat 64 (l.env.coords l.slice) }] }).retireGang
        i .zero [] held)) ∧
    (2 ^ 16 ≤ (s.opVal b l.slice l.env l.lane).toNat → exec i s = .next (s.takeTraps (s.cur.map fun u => (u, trapAt 1 l.slice.pc))))) ∧
  (∀ (s : State) (a b : Opnd) (h : Bool) (l : Lead),
    let i : Instr := .tlbinv a b h
    let pair := fun (x : Slice) e => x.readPair e s.clock true a
    let held := fun (x : Slice) e => heldOf h [(pair x e).1, (pair x e).2]
    let w := (s.opVal b l.slice l.env l.lane).toNat
    let va := (pairVal (pair l.slice l.env) l.lane).toNat
    let ctx := w / 16 % 2 ^ 12
    let ok := l.env.group.firmware && decide (w % 4 ≤ 2) && decide (w / 4 % 4 = 0) && decide (w / 2 ^ 16 % 2 ^ 16 = 0)
    s.Led i (fun x e => [(pair x e).1, (pair x e).2, x.readOpnd e s.clock b]) l →
    (ok = false → exec i s = .next (s.takeTraps (s.cur.map fun u => (u, trapAt 1 l.slice.pc)))) ∧
    (ok = true →
      let t := s.invalidate (w % 4) ctx va
      let waits := t.remotePending (if w % 4 = 2 then none else some ctx)
      (waits = false → exec i s = .next (t.retireGang i .zero [] held)) ∧ (waits = true → exec i s = .next t.waitGang) ∧
      t.caches.writeThroughs = [] ∧ t.caches.deferred = [] ∧
      (∀ e, e ∈ t.caches.tlb ↔ e ∈ s.caches.tlb ∧
        (if w % 4 = 0 then e.covers ctx va = false else w % 4 = 1 ∧ e.ctx ≠ ctx)) ∧
      (∀ e, e ∈ t.caches.walkCache ↔ e ∈ s.caches.walkCache ∧
        (if w % 4 = 0 then ¬(e.ctx = ctx ∧ e.tag = va / 2 ^ levelShift e.level) else w % 4 = 1 ∧ e.ctx ≠ ctx))))

/-- A slice that issues alone executes LD when its taking lanes' addresses, the pair A plus the scaled immediate, are
naturally aligned and can be reached in this part, and no access of it is parked if the load is an acquire: it retires
with a result in d of the size's registers, and nothing changes beside it but memory and caches. Where the caches are
at rest for its quad, no byte of memory changes, and each taking lane's words are the bytes that the home of its
address holds, zero- or sign-extended, poisoned when their sector is. (R113, R281, R282) -/
def Obligations.Loads : Prop :=
  ∀ (s : State) (x : Slice) (p : Option Pfx) (z : LdSize) (d : Dst) (a : Opnd) (m : BitVec 8) (tr : DWord → Mapping),
    let i : Instr := .ld p z d a m
    let e := s.env x
    let pair := x.readPair e s.clock true a
    let as := laneAddrs pair (takeOf x p) (scaled m z.bytes) z.bytes
    s.Alone i x [pair.1, pair.2] (takeOf x p) → (∀ q ∈ as, q.va.toNat % z.bytes = 0) → s.Reaches x { kind := .load } (pfxCp p) as tr →
    ((pfxOrder p).isAcq = true → x.lasting = []) →
    ∃ t new, exec i s = .next t ∧ s.MemStep t i p x.stood d z.width.count new [] ∧
      (s.Coherent (quadOfCore e.core) → (∀ b, t.byteAt b = s.byteAt b) ∧
        ∀ l k, l < 4 → k < z.width.count → (takeOf x p).getLsbD l = true →
          let pa := (tr (pairVal pair l + scaled m z.bytes)).pa
          new k l = nth {} (loadWords z (s.peek pa z.bytes) (s.peekPoison pa z.bytes)) k)

/-- A slice that issues alone executes ST when its taking lanes' addresses are naturally aligned and can be reached in
this part, and nothing that a release waits for is outstanding, if it is one: it retires without a register result,
and nothing changes beside it but memory and caches. Where the caches are at rest for its quad and the store is no
release, every byte of memory outside the stored bytes is as before, and a store of one lane is what the core then
reads there. Bytes of a scratchpad that several lanes write come from the highest of them. (R110, R126, R281, R283) -/
def Obligations.Stores : Prop :=
  ∀ (s : State) (x : Slice) (p : Option Pfx) (z : StSize) (d a : Opnd) (m : BitVec 8) (tr : DWord → Mapping),
    let i : Instr := .st p z d a m
    let e := s.env x
    let pair := x.readPair e s.clock true a
    let take := takeOf x p
    let va := fun l => pairVal pair l + scaled m z.bytes
    let as := laneAddrs pair take (scaled m z.bytes) z.bytes
    let bytes := fun l => storeBytes z (wordsAt (x.storeRegs e s.clock d z.width.count) l)
    s.Alone i x ([pair.1, pair.2] ++ x.storeRegs e s.clock d z.width.count) take → (∀ q ∈ as, q.va.toNat % z.bytes = 0) →
    s.Reaches x { kind := .store, wr := true } (pfxCp p) as tr →
    ((pfxOrder p).isRel = true → s.releaseReady x (s.widen x (pfxScope p)) = true) →
    ∃ t, exec i s = .next t ∧ s.MemStep t i p x.stood .zero 0 (fun _ _ => {}) [] ∧
      ((pfxOrder p).isRel = false → s.Coherent (quadOfCore e.core) →
        (∀ b, (∀ l ∈ maskLanes take, ¬ holds (tr (va l)).pa z.bytes b) → t.byteAt b = s.byteAt b) ∧
        (∀ l, maskLanes take = [l] → (t.coreRead e.core (tr (va l)) z.bytes (pfxCp p)).2.1 = bytes l)) ∧
      ((pfxOrder p).isRel = false → s.memOk → (∀ l ∈ maskLanes take, ∃ c, (tr (va l)).home = .core c) →
        ∀ b l, l ∈ maskLanes take → holds (tr (va l)).pa z.bytes b →
          (∀ l' ∈ maskLanes take, l < l' → ¬ holds (tr (va l')).pa z.bytes b) →
          t.byteAt b = nth 0 (bytes l) (memKey b - memKey (tr (va l)).pa))

/-- A slice that issues alone executes every operation of ATOM and ATOMB when its taking lanes' addresses are aligned as
the operation asks and can be reached in this part, with an order no access of it is parked, and nothing that a
release waits for is outstanding, if it is one: it retires with one register, or a pair for add.i64, and nothing
changes beside it but memory and caches. For one lane without an order whose bytes are clean, the caches at rest for
its quad, and whose update is neither split nor deferred, the result is the old value (zero under use comm), the core
then reads the new one there, and every other byte of memory is as before. (R114, R116, R286, R287) -/
def Obligations.Atomics : Prop :=
  ∀ (s : State) (x : Slice) (p : Option Pfx) (d : Dst) (a b : Opnd) (h : Bool) (tr : DWord → Mapping),
    let e := s.env x
    let pair := x.readPair e s.clock true a
    let pb := x.readPair e s.clock true b
    let rb := x.readOpnd e s.clock b
    let rc := fun (o : AtombOp) => if o = .cas then (p.bind (·.c)).map fun c => x.readOpnd e s.clock c else none
    let word := fun (r : Reg) (l : Nat) => ((r.val l).setWidth 64 : DWord)
    let spec := fun (i : Instr) (n : Nat) (srcs : List Reg) (bv cv : Nat → DWord) =>
      let ups := (laneAddrs pair (takeOf x p) 0 4).flatMap fun q => updatesOf i q.lane q.va (bv q.lane) (cv q.lane)
      let as := ups.map fun q => ({ lane := q.lane, va := q.va, bytes := q.bytes } : LaneAddr)
      s.Alone i x ([pair.1, pair.2] ++ srcs) (takeOf x p) → (∀ q ∈ as, q.va.toNat % atomAlign i = 0) →
      s.Reaches x { kind := .atomic, wr := true } (pfxCp p) as tr →
      (pfxOrder p ≠ .rlx → x.lasting = []) → ((pfxOrder p).isRel = true → s.releaseReady x (s.widen x (pfxScope p)) = true) →
      ∃ t new, exec i s = .next t ∧ s.MemStep t i p x.stood d n new (heldOf h [pair.1, pair.2]) ∧
        ∀ q : Update, ups = [q] → pfxOrder p = .rlx → s.Coherent (quadOfCore e.core) → s.peekPoison (tr q.va).pa q.bytes = false →
          ((pfxUse p ≠ .comm ∧ pfxUse p ≠ .quant) ∨ (tr q.va).shared = false) →
          let old := BitVec.ofNat 64 (bytesToNat (s.peek (tr q.va).pa q.bytes))
          (∀ k, k < n → new k q.lane = { val := if pfxUse p = .comm then 0 else if k = 0 then lo32 old else hi32 old }) ∧
          (t.coreRead e.core (tr q.va) q.bytes (pfxCp p)).2.1 = natToBytes q.bytes (rmwNew i q.bytes old (bv q.lane) (cv q.lane)).toNat ∧
          ∀ b, ¬ holds (tr q.va).pa q.bytes b → t.byteAt b = s.byteAt b
    (∀ o, spec (.atom p o d a b h) 1 [rb] (word rb) fun _ => 0) ∧
    (∀ o, o ≠ .addI64 → spec (.atomb p o d a b h) 1 (rb :: (rc o).toList) (word rb) fun l => ((rc o).map fun r => word r l).getD 0) ∧
    spec (.atomb p .addI64 d a b h) 2 [pb.1, pb.2] (pairVal pb) fun _ => 0

/-- A slice that issues alone executes each. FENCE, once nothing that it waits for is outstanding, leaves no write of its
quad on its way when it releases at die scope or wider, and no valid shared line in its quad when it acquires there.
CFLUSH leaves the lanes' lines in its quad clean, CINV leaves none of them valid there, both at quad scope or wider.
Once no walk is to be made for their lanes and no parked access stands before them (R27), PREF goes on, PIN writes a
code 0 to 2, UNPIN 0, and MIGQ the fields of R324 for lanes whose translations their core's TLB holds, or a single
lane whose translation is at hand; none of the last four can fault. Nothing changes beside the slice but memory and
caches. (R112, R118, R288, R289, R290, R291, R324) -/
def Obligations.LineOperations : Prop :=
  ∀ (s : State) (x : Slice) (p : Option Pfx) (d : Dst) (a : Opnd) (m : BitVec 8) (h : Bool),
    let e := s.env x
    let pair := x.readPair e s.clock true a
    let quad := quadOfCore e.core
    let as := laneAddrs pair (takeOf x p) (scaled m 64) 1
    (∀ o sc, s.Alone (.fence o sc) x [] x.m0 → s.releaseReady x (if o.isRel then s.widen x sc else .slice) = true →
      ∃ t, exec (.fence o sc) s = .next t ∧ s.MemStep t (.fence o sc) none x .zero 0 (fun _ _ => {}) [] ∧
        (4 ≤ (s.widen x sc).rank → o.isRel = true → ∀ w ∈ t.caches.writeThroughs, quadOfCore w.core ≠ quad) ∧
        (4 ≤ (s.widen x sc).rank → o.isAcq = true → ∀ l ∈ t.caches.quadLines, l.quad = quad → l.isPrivate = false → l.valid = (false, false))) ∧
    (∀ tr, s.Reaches x { kind := .load } 3 as tr →
      (s.Alone (.cflush p a m) x [pair.1, pair.2] (takeOf x p) →
        ∃ t, exec (.cflush p a m) s = .next t ∧ s.MemStep t (.cflush p a m) p x.stood .zero 0 (fun _ _ => {}) [] ∧
          (3 ≤ (s.widen x (pfxScope p)).rank → ∀ q ∈ as, ∀ n, (tr q.va).home = .stack n → ∀ l,
            t.quadLine? quad ((tr q.va).pa / 64 * 64) = some l → l.dirty = false)) ∧
      (s.Alone (.cinv p a m) x [pair.1, pair.2] (takeOf x p) →
        ∃ t, exec (.cinv p a m) s = .next t ∧ s.MemStep t (.cinv p a m) p x.stood .zero 0 (fun _ _ => {}) [] ∧
          (3 ≤ (s.widen x (pfxScope p)).rank → ∀ q ∈ as, ∀ n, (tr q.va).home = .stack n → ∀ l,
            t.quadLine? quad ((tr q.va).pa / 64 * 64) = some l → l.valid = (false, false)))) ∧
    let who := e.party x.uid
    let known := fun (qs : List LaneAddr) => x.mustWait qs = false ∧ ∀ q ∈ qs,
      match s.look who { kind := .load } q.va with
      | .miss => (s.quietFault who.who q.va).isSome = true
      | .ok _ => qs.length = 1 ∨ s.caches.tlb.any (fun v => v.unit == who.unit && v.covers who.ctx q.va.toNat) = true ∨
          ∀ v ∈ s.caches.tlb, v.covers who.ctx q.va.toNat = false
      | _ => True
    (s.Alone (.pin p d a m) x [pair.1, pair.2] (takeOf x p) → known as →
      ∃ t new, exec (.pin p d a m) s = .next t ∧ s.MemStep t (.pin p d a m) p x d 1 new [] ∧
        ∀ l, l < 4 → (takeOf x p).getLsbD l = true → (new 0 l).poison = false ∧ (new 0 l).val.toNat ≤ 2) ∧
    (s.Alone (.unpin p d a m) x [pair.1, pair.2] (takeOf x p) → known as →
      ∃ t, exec (.unpin p d a m) s = .next t ∧ s.MemStep t (.unpin p d a m) p x d 1 (fun _ _ => {}) []) ∧
    (s.Alone (.pref p a m) x [pair.1, pair.2] (takeOf x p) → known as →
      ∃ t, exec (.pref p a m) s = .next t ∧ s.MemStep t (.pref p a m) p x .zero 0 (fun _ _ => {}) []) ∧
    (s.Alone (.migq d a h) x [pair.1, pair.2] x.m0 → known (laneAddrs pair x.m0 (scaled 0 64) 1) →
      ∃ t new, exec (.migq d a h) s = .next t ∧ s.MemStep t (.migq d a h) none x d 1 new (heldOf h [pair.1, pair.2]) ∧
        ∀ tr : DWord → Mapping, (∀ l ∈ maskLanes x.m0, s.look (e.party x.uid) { kind := .load } (pairVal pair l) = .ok (tr (pairVal pair l))) →
          ∀ l ∈ maskLanes x.m0, (maskLanes x.m0 = [l] ∨ ∀ k ∈ maskLanes x.m0, s.caches.tlb.any (fun v =>
              v.unit == (e.party x.uid).unit && v.covers (e.party x.uid).ctx (pairVal pair k).toNat) = true) → let mp := tr (pairVal pair l)
            new 0 l = { val := BitVec.ofNat 32 (min ((x.guest.map (·.hops)).getD 0) 7 * 2 ^ 15 + b2n x.guest.isSome * 2 ^ 14 +
              b2n (e.beyond mp.home) * 2 ^ 13 + b2n mp.mig * 2 ^ 12 +
              match mp.home with
              | .stack n => n % 1024
              | .core n => 1024 + n % 1024
              | .part n => 2048 + n % 1024) })

/-- A slice that issues alone executes WAITW, its addresses aligned and reachable and the caches at rest for its quad, as
soon as a taking lane's word differs from its d: each taking lane receives its word, and no byte of memory changes. It
executes QMIN, QMAX, QGET and QSET always: each taking lane, in lane order, receives what register b[3:0] of the
origin quad held for its context and changes that register; all else is as before. (R292, R293, R150) -/
def Obligations.WatchedWordsAndBoundRegisters : Prop :=
  ∀ (s : State) (x : Slice) (p : Option Pfx) (d : Dst) (a b : Opnd) (m : BitVec 8) (h : Bool),
    let e := s.env x
    (∀ tr : DWord → Mapping,
      let i : Instr := .waitw p d a m
      let pair := x.readPair e s.clock true a
      let as := laneAddrs pair (takeOf x p) (scaled m 4) 4
      let word := fun l => let pa := (tr (pairVal pair l + scaled m 4)).pa
        ({ val := le32 (s.peek pa 4) 0, poison := s.peekPoison pa 4 } : LaneWord)
      s.Alone i x [pair.1, pair.2, x.readOpnd e s.clock d.asOpnd] (takeOf x p) → (∀ q ∈ as, q.va.toNat % 4 = 0) →
      s.Reaches x { kind := .load } 3 as tr → s.Coherent (quadOfCore e.core) →
      (∃ l ∈ maskLanes (takeOf x p), word l ≠ (x.readOpnd e s.clock d.asOpnd).lane l) →
      ∃ t, exec i s = .next t ∧ s.MemStep t i p x.stood d 1 (fun _ l => word l) [] ∧ ∀ b, t.byteAt b = s.byteAt b) ∧
    (let quad := quadOfCore e.origin
      let ra := x.readOpnd e s.clock a
      let rb := x.readOpnd e s.clock b
      let reg := fun l => (rb.val l).toNat % 16
      (∀ r ∈ s.bounds, r.regs.length = 16) →
      ∀ c ∈ [(Instr.qmin p d a b h, (fun (o v : Word) => if o.toInt ≤ v.toInt then o else v), some d, heldOf h [ra]),
          (.qmax p d a b h, (fun o v => if v.toInt ≤ o.toInt then o else v), some d, heldOf h [ra]),
          (.qget p d b, (fun o _ => o), some d, []), (.qset p a b h, (fun _ v => v), none, heldOf h [ra])],
        s.Alone c.1 x (match c.1 with | .qget _ _ _ => [.u 0, rb] | _ => [ra, rb]) (takeOf x p) →
        let after := fun (ls : List Nat) (k : Nat) => ls.foldl (fun w l => if reg l = k then c.2.1 w (ra.val l) else w) (s.bound quad e.ctx k)
        ∃ t, exec c.1 s = .next t ∧
          ({ s with bounds := t.bounds } : State).MemStep t c.1 p x (c.2.2.1.getD .zero) (if c.2.2.1.isSome then 1 else 0)
            (fun _ l => { val := after ((maskLanes (takeOf x p)).takeWhile (· != l)) (reg l) }) c.2.2.2 ∧
          (∀ k, k < 16 → t.bound quad e.ctx k = after (maskLanes (takeOf x p)) k) ∧
          (∀ q c k, (q, c) ≠ (quad, e.ctx) → t.bound q c k = s.bound q c k) ∧ ∀ b, t.byteAt b = s.byteAt b)

/-- A slice alone with no parked access executes TNEXT.s: with no task found it writes 0; a task found, with a free run,
is RUNNING, and is entered with its arguments in v0 to v7 and its record in v8:v9, 1 having been written in the
caller. TNEXT.g of a whole thread group, no slice of it in a handler or with a parked access, writes 0 when it finds
none; a task found, each slice with a free run, is RUNNING, and every slice acquires and is entered with it as for
TNEXT.s; a gang that is not all of its group traps as illegal instruction. JOIN of a counter that reads 0 acquires and
goes on. TDONE writes 1 for a record malformed or not running, and else, its successors signalled, its counter
decremented and its status set, 0; TDONE.abandon the same with its own status. SPAWN of a slice writes each lane its
code: 4 malformed, 2 orphaned, 3 not idle, 0 queued, 1 waiting. (R328, R329, R330, R331, R333) -/
def Obligations.TaskInstructions : Prop :=
  ∀ (s : State),
    (∀ (x : Slice) (d : Dst), let i : Instr := .tnextS d
      let e := s.env x
      x.parked = [] → s.Alone i x [] 0 →
      (∀ s1, s.findTask (Tasker.of e x) false true = .ok (s1, none) →
        exec i s = .next (s1.setSlice (x.retireWith i d [.u 0] []).retired)) ∧
      (∀ s1 s2 rcd r base, s.findTask (Tasker.of e x) false true = .ok (s1, some (rcd, r)) →
        let y := (x.stepLatch []).writeResult d [.u 1] x.m0 false
        y.depth < 4095 → s1.ownRun y (ctlDemand r.ctl) = some base → s1.rmwCtl (Tasker.of e x) rcd (setStatus 3) = .ok s2 →
        exec i s = .next ((s2.acquireAt e .pkg).setSlice
          { fillTask rcd r (y.pushFrame base (ctlDemand r.ctl) 0 (x.after i)) with pc := r.entry }.retired))) ∧
    (∀ (d : Dst) (l : Lead) s1, let i : Instr := .tnextG d
      let whole := ∀ y ∈ s.groupSlices l.slice.group, y.live = true → y.uid ∈ s.cur
      s.Led i (fun _ _ => []) l →
      (¬whole → exec i s = .next (s.takeTraps (s.cur.map fun u => (u, trapAt 1 l.slice.pc)))) ∧
      (whole → (∀ y ∈ s.curSlices, y.tstate = none ∧ y.parked = []) →
        (s.findTask (Tasker.of l.env l.slice) true true = .ok (s1, none) → exec i s = .next (s1.retireGang i d [.u 0] fun _ _ => [])) ∧
        (∀ s2 rcd r, s.findTask (Tasker.of l.env l.slice) true true = .ok (s1, some (rcd, r)) → (∀ y ∈ s.curSlices, y.depth < 4095) →
          (∀ y ∈ s1.curSlices, (s1.ownRun y (ctlDemand r.ctl)).isSome = true) → s1.rmwCtl (Tasker.of l.env l.slice) rcd (setStatus 3) = .ok s2 →
          let begin_ := fun (w : State) (u : Nat) =>
            match w.slice? u with
            | none => w
            | some x =>
              let y := (x.stepLatch []).writeResult d [.u 1] x.m0 false
              match if y.depth < 4095 then w.ownRun y (ctlDemand r.ctl) else none with
              | some base => (w.acquireAt (w.env x) .pkg).setSlice
                  { fillTask rcd r (y.pushFrame base (ctlDemand r.ctl) 0 (x.after i)) with pc := r.entry }.retired
              | none => w
          exec i s = .next (s.cur.foldl begin_ s2)))) ∧
    (∀ (x : Slice) (a : Opnd) (h : Bool) s1 bs, let i : Instr := .join a h
      let e := s.env x
      let p := x.readPair e s.clock true a
      let va := pairVal p (lowestLane x.m0)
      s.Alone i x [p.1, p.2] x.lowMask → va.toNat % 4 = 0 → x.parked = [] → s.taskRead (Tasker.of e x) .load va 4 = .ok (s1, bs) →
      le32 bs 0 = 0 → exec i s = .next ((s1.acquireAt e .pkg).setSlice ((x.stepLatch (heldOf h [p.1, p.2])).next i).retired)) ∧
    (∀ (x : Slice) (d : Dst) (a : Opnd) (h : Bool) s1 r,
      let e := s.env x
      let t := Tasker.of e x
      let p := x.readPair e s.clock true a
      let rcd := pairVal p (lowestLane x.m0)
      rcd.toNat % 64 = 0 →
      ∀ c ∈ [(Instr.tdone d a h, false, s.releaseAt e x .pkg), (.tdoneAbandon d a h, true, s)],
        s.Alone c.1 x [p.1, p.2] x.lowMask → (if c.2.1 then x.lasting.length < 8 else s.releaseReady x .pkg = true) → c.2.2.readTask t rcd = .ok (s1, r) →
        let done := fun (w : State) (code : Word) => Host.Outcome.next (w.setSlice (x.retireWith c.1 d [.u code] (heldOf h [p.1, p.2])).retired)
        ((r.malformed = true ∨ (ctlStatus r.ctl ≠ 3 ∧ ctlStatus r.ctl ≠ 4)) → exec c.1 s = done s1 1) ∧
        (r.malformed = false → (ctlStatus r.ctl = 3 ∨ ctlStatus r.ctl = 4) → ∀ s2 s3 s4 s5,
          (if c.2.1 then Except.ok s1 else s1.rmwCtl t rcd (setStatus 4)) = .ok s2 →
          s2.signalFrom t c.2.1 rcd r (ctlNsucc r.ctl - ctlCursor r.ctl) (ctlCursor r.ctl) = (s3, none) →
          s3.addJoin t r.join (-1) = .ok s4 → s4.rmwCtl t rcd (setStatus (if c.2.1 then 7 else 5)) = .ok s5 →
          exec c.1 s = done s5 0)) ∧
    (∀ (x : Slice) (d : Dst) (a : Opnd) (h : Bool) s1 cs, let i : Instr := .spawn d a h
      let e := s.env x
      let t := Tasker.of e x
      let p := x.readPair e s.clock true a
      let as := laneAddrs p x.m0 0 64
      s.Alone i x [p.1, p.2] x.m0 → (∀ q ∈ as, q.va.toNat % 64 = 0) → s.releaseReady x .pkg = true →
      (s.releaseAt e x .pkg).spawnLanes t (as.map fun q => (q.lane, q.va)) = .ok (s1, some cs) →
      exec i s = .next ((s1.retireMem i x.uid none d (laneRegs 1 (cs.map fun c => (c.1, [({ val := BitVec.ofNat 32 c.2 } : LaneWord)])))
        (heldOf h [p.1, p.2])).partIfApart s.cur)) ∧
    (∀ (t : Tasker) (rcd : DWord) s1 r, s.readTask t rcd = .ok (s1, r) →
      (r.malformed = true → s.spawnOne t rcd = .ok (s1, some 4)) ∧
      (r.malformed = false → ctlStatus r.ctl = 6 → s.spawnOne t rcd = .ok (s1, some 2)) ∧
      (r.malformed = false → ctlStatus r.ctl ≠ 6 → ctlStatus r.ctl ≠ 0 → s.spawnOne t rcd = .ok (s1, some 3)) ∧
      (r.malformed = false → ctlStatus r.ctl = 0 → s1.duty 4 = false → ∀ s2 s3 s4, s1.addJoin t r.join 1 = .ok s2 →
        (s2.rmwCtl t rcd fun c => setStatus (if ctlPred r.ctl = 0 then 2 else 1) c) = .ok s3 →
        (ctlPred r.ctl = 0 → s3.pushTask t t.env.core (dequeEntry rcd (ctlGroup r.ctl)) = .ok s4 → s.spawnOne t rcd = .ok (s4, some 0)) ∧
        (ctlPred r.ctl ≠ 0 → s.spawnOne t rcd = .ok (s3, some 1))))

/-- A gang executes GPREP by a code: 2 for a malformed region word, 1 when a band is not empty or is held, 3 for an image
not aligned, and else 0, the region standing LOADING. GCTL.status gives the status word of the region that holds the
band, 0 with none, all ones for a malformed word or another context's region; GCTL.release frees a region named
exactly that is UNARMED, ARMED, FROZEN or ABORTED with code 0, and else gives 1, or 2 for another context's;
GCTL.inval drops the entries of the image, those in use once no region uses them. GLAUNCH, its accesses released and
its record read, gives 3 for a bad record, 1 or 2 for a region not there, not running or not its own, and with fewer
than four invocations in flight 0, the invocation queued. (R339, R340, R341, R74) -/
def Obligations.ArrayInstructions : Prop :=
  ∀ (s : State) (d : Dst) (a b : Opnd) (h : Bool) (l : Lead),
    let pair := fun (x : Slice) e => x.readPair e s.clock true a
    let ra := fun (x : Slice) e => x.readOpnd e s.clock a
    let two := fun (x : Slice) e => heldOf h [(pair x e).1, (pair x e).2]
    let one := fun (x : Slice) e => heldOf h [ra x e]
    (let i : Instr := .gprep d a b h
      let gives := fun (w : State) (code : Word) => exec i s = .next (w.retireGang i d [.u code] two)
      s.Led i (fun x e => [(pair x e).1, (pair x e).2, x.readOpnd e s.clock b]) l →
      (regionWord (l.word s.clock b) = none → gives s 2) ∧
      (∀ st f w, regionWord (l.word s.clock b) = some (st, f, w) →
        let busy := ∃ k, f ≤ k ∧ k < f + w ∧ ((s.regionOfBand st k).isSome = true ∨ (s.savedOfBand st k).isSome = true)
        (busy → gives s 1) ∧ (¬busy → (l.pair s.clock a).toNat % 64 ≠ 0 → gives s 3) ∧
        (¬busy → (l.pair s.clock a).toNat % 64 = 0 →
          let r : Region := { stack := st, first := f, width := w, ctx := l.env.ctx, state := .loading, image := l.pair s.clock a }
          gives (s.onEngines fun g => { g with regions := g.regions ++ [r] }) 0))) ∧
    (let i : Instr := .gctlStatus d a h
      let gives := fun (code : Word) => exec i s = .next (s.retireGang i d [.u code] one)
      s.Led i (fun x e => [ra x e]) l →
      (bandWord (l.word s.clock a) = none → gives (BitVec.allOnes 32)) ∧
      (∀ st f, bandWord (l.word s.clock a) = some (st, f) →
        (s.regionOfBand st f = none → s.savedOfBand st f = none → gives 0) ∧
        (∀ r, s.regionOfBand st f = some r → gives (if r.ctx = l.env.ctx then r.word else BitVec.allOnes 32)) ∧
        (∀ r, s.regionOfBand st f = none → s.savedOfBand st f = some r → gives (if r.ctx = l.env.ctx then 0 else BitVec.allOnes 32)))) ∧
    (let i : Instr := .gctlRelease d a h
      let gives := fun (w : State) (code : Word) => exec i s = .next (w.retireGang i d [.u code] one)
      s.Led i (fun x e => [ra x e]) l →
      (regionWord (l.word s.clock a) = none → gives s 1) ∧
      (∀ st f w, regionWord (l.word s.clock a) = some (st, f, w) →
        (s.regionOfBand st f = none → s.savedOfBand st f = none → gives s 1) ∧
        (∀ r, s.regionOfBand st f = some r → r.ctx ≠ l.env.ctx → gives s 2) ∧
        (∀ r, s.regionOfBand st f = some r → r.ctx = l.env.ctx →
          let free := r.first = f ∧ r.width = w ∧ r.state ∈ [RegState.unarmed, .armed, .frozen, .aborted] ∧ (s.region? st f).isSome = true
          (free → gives (s.freeRegion r) 0) ∧ (¬free → gives s 1)))) ∧
    (∀ (w : State) (r : Region), (w.freeRegion r).region? r.stack r.first = none) ∧
    (let i : Instr := .gctlInval d a h
      let named := fun (c : CacheImage) => c.ctx == l.env.ctx && c.image == l.pair s.clock a
      s.Led i (fun x e => [(pair x e).1, (pair x e).2]) l →
      exec i s = .next ((s.onEngines fun g => { g with configCache := (updateWhere named (fun c => { c with stale := true }) g.configCache).filter fun c => !c.stale || s.imageUsed c }).retireGang i d [.u 0] two)) ∧
    (let i : Instr := .glaunch d a h
      let va := l.pair s.clock a
      let rel := s.curSlices.foldl (fun t x => t.releaseAt (t.env x) x .pkg) s
      s.Led i (fun x e => [(pair x e).1, (pair x e).2]) l → va.toNat % 64 = 0 → (∀ x ∈ s.curSlices, s.releaseReady x .pkg = true) →
      ∀ s1 bs, rel.taskRead (Tasker.of l.env l.slice) .record va 64 = .ok (s1, bs) →
        let rcd := LaunchRec.ofBytes bs
        let gives := fun (w : State) (code : Word) => exec i s = .next (w.retireGang i d [.u code] two)
        ((rcd.region = none ∨ rcd.ok = false) → gives s1 3) ∧
        (∀ st f w, rcd.region = some (st, f, w) → rcd.ok = true →
          (s1.regionsOn st f w = [] → gives s1 1) ∧
          (∀ r rs, s1.regionsOn st f w = r :: rs →
            ((r.first ≠ f ∨ r.width ≠ w) → gives s1 3) ∧
            (r.first = f → r.width = w → r.ctx ≠ l.env.ctx → gives s1 2) ∧
            (r.first = f → r.width = w → r.ctx = l.env.ctx → (s1.region? st f).isSome = true → r.inFlight.length < 4 →
              (r.state ∈ [RegState.empty, .unarmed, .frozen, .aborted] → gives s1 1) ∧
              (r.state ∈ [RegState.armed, .running] → ∀ s2 gens,
                s1.captureGens (Tasker.of l.env l.slice) rcd.mbars = .ok (s2, gens) → gives (s2.launch r rcd gens) 0)))))

/-- A gang executes GBIND of a well-formed binding word by a code: for UNBIND 0 when its workgroup has bound the queue,
which is emptied and unbound, and else 3; for a bound queue 0 when everything agrees and else 1; for a free one 2 for
an identifier that no peer can have and else 0, the queue bound. SQPUSH to a queue not bound outbound by the workgroup
writes 1; with room for a token of each active lane, it appends them in lane order and writes 0. SQPOP of a queue not
bound inbound gives every active lane 0 and NOTBOUND; with enough tokens held, it takes them, returns their credits
and hands them out in lane order. A nonzero zero bit is an illegal instruction. (R343, R344, R345) -/
def Obligations.StreamQueues : Prop :=
  ∀ (s : State) (d : Dst) (a b : Opnd) (h : Bool) (l : Lead),
    let ra := fun (x : Slice) e => x.readOpnd e s.clock a
    let one := fun (x : Slice) e => heldOf h [ra x e]
    let quiet := fun (w : State) => w.takeTraps (w.cur.map fun u => (u, trapAt 1 l.slice.pc))
    (let i : Instr := .gbind d a b h
      let w := (l.word s.clock a).toNat
      let peer := l.word s.clock b
      let id := queueId s.partNumber l.env.origin (field w 0 3)
      let gives := fun (t : State) (code : Word) => exec i s = .next (t.retireGang i d [.u code] one)
      s.Led i (fun x e => [ra x e, x.readOpnd e s.clock b]) l →
      (field w 9 23 ≠ 0 → exec i s = .next (quiet s)) ∧
      (field w 9 23 = 0 → bit w 8 = true →
        ((s.boundQueue l.env (field w 0 3)).isSome = true → gives (s.dropChannel id) 0) ∧
        (s.boundQueue l.env (field w 0 3) = none → gives s 3)) ∧
      (field w 9 23 = 0 → bit w 8 = false →
        (∀ c, s.channel? id = some c →
          let same := c.wg = some l.env.wg.uid ∧ c.peer = peer ∧ c.fmt = field w 4 4 ∧ c.inbound = bit w 3
          (same → gives s 0) ∧ (¬same → gives s 1)) ∧
        (s.channel? id = none → (badChannel s.podSize peer = true ∨ peer = id) → gives s 2) ∧
        (s.channel? id = none → badChannel s.podSize peer = false → peer ≠ id →
          let q : Channel := { id := id, peer := peer, fmt := field w 4 4, inbound := bit w 3, wg := some l.env.wg.uid }
          gives (s.onEngines fun g => { g with channels := g.channels ++ [q] }) 0))) ∧
    (let i : Instr := .sqpush d a b h
      let w := (l.word s.clock b).toNat
      let toks := s.curSlices.flatMap fun x => (maskLanes x.m0).map fun k =>
        ({ kind := TokKind.ofCode (field w 4 3), exc := bit w 3, payload := (ra x (s.env x)).val k } : Tok)
      s.Led i (fun x e => [x.readOpnd e s.clock b]) l →
      ((field w 7 25 ≠ 0 ∨ field w 4 3 = 6) → exec i s = .next (quiet s)) ∧
      (field w 7 25 = 0 → field w 4 3 ≠ 6 → (∀ x ∈ s.curSlices, (ra x (s.env x)).poisoned x.m0 = false) →
        ((∀ c, s.boundQueue l.env (field w 0 3) = some c → c.inbound = true) → exec i s = .next (s.retireGang i d [.u 1] one)) ∧
        (∀ c, s.boundQueue l.env (field w 0 3) = some c → c.inbound = false → c.outTok.length + toks.length ≤ 64 →
          exec i s = .next ((s.onChannel c.id fun c => { c with outTok := c.outTok ++ toks }).retireGang i d [.u 0] one)))) ∧
    (let i : Instr := .sqpop d b
      let w := (l.word s.clock b).toNat
      let n := (s.curSlices.map fun x => (maskLanes x.m0).length).sum
      s.Led i (fun x e => [x.readOpnd e s.clock b]) l →
      (field w 4 28 ≠ 0 → exec i s = .next (quiet s)) ∧
      (field w 4 28 = 0 → (∀ c, s.boundQueue l.env (field w 0 3) = some c → c.inbound = false) →
        ∃ t, exec i s = .next t ∧ s.GangStep t fun x y => y = x.popped i d fun _ => (0, 0x20)) ∧
      (field w 4 28 = 0 → ∀ c, s.boundQueue l.env (field w 0 3) = some c → c.inbound = true →
        (if bit w 3 then n else 1) ≤ c.inTok.length →
        let k := min c.inTok.length n
        exec i s = .next ((((s.onChannel c.id fun c => { c with inTok := c.inTok.drop k }).returnCredits c k).handTokens i d s.curSlices
          (c.inTok.take k)).partIfApart s.cur)))

/-- A gang whose accesses are released executes NMC of a record that it can read, its pointers aligned and its result
translating: a bad record completes with STATUS 6, records that fail their checks with 5, and no deciding element or a
home that is no stack with 4; else, with room there, the command goes to its stack. NFENCE with none outstanding, and
no access parked, acquires and goes on. NMC_ACCEPT queues the oldest command on its way, or gives it STATUS 3 or 4;
SEQUENCER_START starts the oldest that conflicts with none before it; SEQUENCER_ELEMENT performs one element, a
declined fault giving STATUS 2, and a command whose walk is over leaves its banks; SEQUENCER_YIELD and YIELD_CAP treat
a contested bank by its yields; NMC_COMPLETE ends a command with a status. (R40, R42, R43, R44, R45, R48, R49, R346,
R347) -/
def Obligations.NearMemoryCommands : Prop :=
  (∀ (s : State) (a : Opnd) (h : Bool) (l : Lead),
    let i : Instr := .nmc a h
    let pair := fun (x : Slice) e => x.readPair e s.clock true a
    let va := l.pair s.clock a
    let x := l.slice
    let t := Tasker.of l.env x
    let rel := s.curSlices.foldl (fun w y => w.releaseAt (w.env y) y .pkg) s
    s.Led i (fun x e => [(pair x e).1, (pair x e).2]) l → (∀ y ∈ s.curSlices, s.releaseReady y .pkg = true) → va.toNat % 64 = 0 →
    ∀ s1 bs s2 ra s3 rb s4 rd s5 m s6 gen, rel.taskRead t .record va 64 = .ok (s1, bs) →
      let r := NmcRec.ofBytes bs
      r.result ≠ 0 → r.result.toNat % 16 = 0 → r.mbar.toNat % 16 = 0 →
      s1.readApr t r.aprA = .ok (s2, ra) → s2.readApr t r.aprB = .ok (s3, rb) → s3.readApr t r.aprD = .ok (s4, rd) →
      s4.findQuiet t.party { kind := .nmcWrite, wr := true } r.result = (s5, .ok m) → s5.captureGen t r.mbar = .ok (s6, gen) →
      let w := s6.fresh.2
      let c : Cmd :=
        { id := s6.fresh.1, slice := x.uid, ctx := l.env.ctx, launch := l.env.launch.id, stack := 0, body := r.body, rm := r.rm, aprA := ra,
          aprB := rb, aprD := rd, c0 := r.c0, c1 := r.c1, mbar := r.mbar, gen := gen, result := r.result, unit := .core l.env.core }
      let goes := fun (w : State) => exec i s = .next (w.retireGang i .zero [] fun x e => heldOf h [(pair x e).1, (pair x e).2])
      let ends := fun (w : State) (c : Cmd) => goes ((w.postCmd c).completeCmd c)
      (r.bad = true → ends w { c with status := some 6 }) ∧
      (∀ e k, r.bad = false → nmcCheck r.body ra rb rd = some (e, k) → ends w { c with status := some 5, aprErr := e, aprWhich := k }) ∧
      (r.bad = false → nmcCheck r.body ra rb rd = none →
        (deciding ra rb rd = none → ends w { c with status := some 4 }) ∧
        (∀ ea isD s7 mp, deciding ra rb rd = some (ea, isD) →
          w.mapOne t.party { kind := if isD then .nmcWrite else .nmcRead } ea = .ok (s7, mp) →
          ((∀ n, mp.home ≠ .stack n) → ends s7 { c with status := some 4 }) ∧
          (∀ n, mp.home = .stack n → s7.cmdRoom n rd.isSome = true → goes (s7.postCmd { c with stack := n, unit := .base n }))))) ∧
  (∀ (s : State) (l : Lead), s.Led .nfence (fun _ _ => []) l → (∀ x ∈ s.curSlices, x.nmcOut = [] ∧ x.parked = []) →
    exec .nfence s = .next ((s.curSlices.foldl (fun w x => w.acquireAt (w.env x) .pkg) s).retireGang .nfence .zero [] fun _ _ => [])) ∧
  (∀ (s : State) (c : Cmd) (stack : Nat), s.engines.cmds.find? (fun c => c.unit == .base stack && !c.queued && c.status.isNone) = some c →
    (c.overlaps = true → exec (.nmcAccept stack) s = .next (s.setCmd { c with status := some 3 })) ∧
    (c.overlaps = false → s.isMissing (.cmd c.id) = false → ∀ t c', let tested := s.testPages c (c.spans.flatMap spanPages)
      (tested = (t, c', .passed) → exec (.nmcAccept stack) s = .next (t.acceptCmd c')) ∧
      (tested = (t, c', .foreign) → exec (.nmcAccept stack) s = .next ((t.setCmd { c' with status := some 4 }).clearDeclined (.cmd c'.id))))) ∧
  (∀ (s : State) (c : Cmd), (∀ q ∈ c.tested, q.1 ∈ c.pages) → (s.acceptCmd c).engines.cmds =
    updateWhere (·.id == c.id) (fun _ => { c with queued := true, tested := [] }) s.engines.cmds) ∧
  (∀ (s : State) (c : Cmd) (stack : Nat), let q := s.engines.cmds.filter fun c => c.unit == .base stack && c.queued
    (q.filter (·.running)).length < 4 → nextCmd (q.filter (·.running)) (q.filter (!·.running)) = some c →
    exec (.sequencerStart stack) s = .next (s.setCmd { c with running := true })) ∧
  (∀ (s : State) (c : Cmd), s.engines.cmds.find? (fun q => q.id == c.id && q.running && q.status.isNone) = some c →
    (∀ s1 c1 c2, s.cmdStep c = (s1, c1, .ok c2) → exec (.sequencerElement c.id) s = .next (s1.setDone c2)) ∧
    (∀ s1 c1, s.cmdStep c = (s1, c1, .parked) → exec (.sequencerElement c.id) s = .next (s1.setCmd c1)) ∧
    (∀ s1 c1, s.cmdStep c = (s1, c1, .failed) →
      exec (.sequencerElement c.id) s = .next ((s1.setCmd { c1 with status := some 2, firstBad := c1.pos % 2 ^ 32 }).leaveBanks c1.id))) ∧
  (∀ (c : Cmd) (p : Bool) (xa xb : List Byte), let t := c.advance p xa xb
    t.pos = c.pos + 1 ∧ t.badCount = c.badCount + (if p then 1 else 0) ∧ (p = true → c.badCount = 0 → t.firstBad = c.pos % 2 ^ 32) ∧
    (c.total ≤ c.pos + 1 → t.status = some (if t.badCount = 0 then 0 else 1)) ∧ (c.pos + 1 < c.total → t.status = none)) ∧
  (∀ (s : State) (cmd : Nat) (b : Bank), s.contested cmd = some b →
    let n := assoc 0 b.yields cmd
    (n < (s.stackCsr b.stack).yieldCap.toNat →
      exec (.sequencerYield cmd) s = .next (s.setBank { b with row := none, recorded := b.row, yields := assocSet b.yields cmd (n + 1) })) ∧
    ((s.stackCsr b.stack).yieldCap.toNat ≤ n →
      exec (.yieldCap cmd) s = .next (s.setBank { b with yields := assocSet b.yields cmd 0, burst := 8 }))) ∧
  (∀ (s w : State) (c : Cmd) (u : Unit), s.engines.cmds.find? (fun q => q.id == c.id && q.status.isSome) = some c →
    s.isParked (.cmd c.id) = false → s.isMissing (.cmd c.id) = false → s.declinedOf (.cmd c.id) = none → s.partWrite c.party .nmcWrite c.result c.record = (w, .ok u) →
    exec (.nmcComplete c.id) s = .next (w.endCmd c) ∧ ∀ q ∈ (w.endCmd c).engines.cmds, q.id ≠ c.id)

/-- PAGE_WALK takes the oldest open miss of a die: a leaf found is installed for every miss it covers, and a fault makes
one record on which the merged requests that raise it park; stalled requests are then let in. FAULT_REPLAY and
FAULT_DECLINE of a pending record that the device serves replay or decline everything parked on it, and those of the
host do so and answer the command. DIE_CACHE_ACCESS, MSC_ACCESS and BANK_ACCESS perform the request that waits first,
a bank serving one older than 256 base-die clocks, then a hit of the open row, then the oldest; a bank with a
sequencer's row open serves none but the first kind, and a row given up is opened again after it unless sequencers are
held off. REFRESH closes a bank's row; ACTIVATION_ALERT closes it, holds the sequencers off for RFM_HOLD and counts in
RFM_COUNT without wrapping; RFM_HOLD_END lets them on again, with a row given up that nothing waits before. (R22, R23,
R26, R29, R31, R50, R110) -/
def Obligations.BaseDieSteps : Prop :=
  ∀ (s : State) (stack pch bank : Nat),
    (∀ m, s.caches.misses.find? (·.die == stack) = some m →
      (∀ s1 level e, s.walk stack m.ctx (m.page * 4096) = (s1, .leaf level e) →
        let log2 := leafLog2 level (pteSpan e.toNat)
        let covered := fun (x : Miss) => x.die == stack && x.ctx == m.ctx && x.page * 4096 / 2 ^ log2 == m.page * 4096 / 2 ^ log2
        let ms := s1.caches.misses.filter covered
        let filled := (s1.onCaches fun c => { c with misses := c.misses.filter fun x => !covered x }).installLeaf stack m.ctx (m.page * 4096) level e
          ((ms.flatMap (·.asks)).map (·.unit)).eraseDups
        exec (.pageWalk stack) s = .next ((ms.foldl (fun t x => t.answerMiss level e x) filled).admitStalled)) ∧
      (∀ s1 sub level, s.walk stack m.ctx (m.page * 4096) = (s1, .fault sub level) →
        exec (.pageWalk stack) s = .next (((s1.onCaches fun c => { c with misses := c.misses.filter fun x => !(x == m) }).faultAsks m.asks sub level).admitStalled))) ∧
    (∀ level e (m : Miss), let log2 := leafLog2 level (pteSpan e.toNat)
      (∀ a ∈ m.asks, permFault a.need e.toNat (homeOf e.toNat (ptePfn e.toNat * 4096 + a.va.toNat % 2 ^ log2)) = none) →
      s.answerMiss level e m = s.wakeAskers m.asks .ready) ∧
    (∀ a as sub level, (∀ x ∈ a :: as, x.quiet = false) →
      (s.faultAsks (a :: as) sub level).caches.faults.length = s.caches.faults.length + 1) ∧
    (∀ k f, s.faultOfSeq false k = some f →
      exec (.faultReplay (some k)) s = .next (s.replayFault f) ∧ exec (.faultDecline (some k)) s = .next (s.declineFault f)) ∧
    (∀ c, s.duty 0 = true → ∀ f, s.faultOfSeq true c.arg0.toNat = some f →
      (s.command 1 = some c → exec (.faultReplay none) s = .next ((s.replayFault f).answer c true)) ∧
      (s.command 2 = some c → exec (.faultDecline none) s = .next ((s.declineFault f).answer c true))) ∧
    (∀ w, s.caches.writeThroughs.find? (·.stack == stack) = some w →
      exec (.dieCacheAccess stack) s = .next ((s.onCaches fun c => { c with writeThroughs := c.writeThroughs.erase w }).performWt w)) ∧
    (∀ r, s.caches.mscQueue.find? (·.stack == stack) = some r →
      exec (.mscAccess stack) s =
        .next ((s.onCaches fun c => { c with mscQueue := c.mscQueue.erase r }).mscPut r.stack r.addr r.sectors r.toLineData)) ∧
    (let b := s.bankAt stack pch bank
      ∀ r, s.bankChoice b = some r → (b.seqOpen = false ∨ r.since + 256 ≤ s.baseClk) →
        let row := ((stackOf r.addr).map fun x => (bankOf x.2).2.2).getD 0
        let gave := if b.seqOpen then b.row else b.recorded
        exec (.bankAccess stack pch bank) s = .next ((s.serveReq r).setBank
          (if gave = none then { b with row := some row, owner := none }
          else if b.hold = none then { b with row := gave, recorded := none } else { b with row := some row, recorded := gave }))) ∧
    (stack < 16 → pch < 64 → bank < 16 →
      exec (.refresh stack pch bank) s = .next (s.setBank (s.bankAt stack pch bank).precharge) ∧ (s.bankAt stack pch bank).precharge.row = none ∧
      ∃ t, exec (.activationAlert stack pch bank) s = .next t ∧ (t.bankAt stack pch bank).row = none ∧
        (t.bankAt stack pch bank).hold = (if (s.stackCsr stack).rfmHold = 0 then none
          else some (s.baseClk + (s.stackCsr stack).rfmHold.toNat)) ∧
        (t.stackCsr stack).rfmCount.toNat = min ((s.stackCsr stack).rfmCount.toNat + 1) (2 ^ 32 - 1)) ∧
    (let b := s.bankAt stack pch bank
      ∀ e, b.hold = some e → e ≤ s.baseClk →
      exec (.rfmHoldEnd stack pch bank) s = .next (s.setBank
        (if b.recorded.isSome && (s.bankReqs b).isEmpty then { b with hold := none, row := b.recorded, recorded := none }
        else { b with hold := none })))

/-- A live node of a running region executes its element, whatever its opcode, by the first firing that its outputs have
room for: its inputs are consumed, its tokens emitted, its state replaced, and nothing changes but its region. A join
of two integers emits one DATA with the sum, difference, product, maximum or minimum in the output format, flagged if
an input was; PASS and FORK2 emit a token unchanged on every output. ROUTE_HOP moves the oldest token of a link with
room behind it; DAWN_ARRIVAL makes a node live and goes on from it; DUSK_FORWARD sends DUSK on once it heads every
input. (R59, R61, R62, R63, R87, R89, R92, R95) -/
def Obligations.ArrayElements : Prop :=
  (∀ (s : State) (st fi node : Nat) (r r' : Region) (n : Node),
    ∀ c ∈ ([(Instr.add, 3, Node.arith), (.sub, 4, Node.arith), (.mul, 5, Node.arith), (.fma, 6, Node.arith), (.max, 7, Node.arith),
        (.min, 8, Node.arith), (.abs, 9, Node.arithUnary), (.neg, 0xA, Node.arithUnary), (.scale, 0xB, Node.arith), (.exp2, 0xC, Node.arithUnary),
        (.rcp, 0xD, Node.arithUnary), (.cmp, 0xE, Node.arith), (.pass, 1, Node.passOn), (.fork2, 2, Node.passOn), (.steer, 0xF, Node.steer),
        (.filter, 0x12, Node.filter), (.merge, 0x10, Node.merge), (.gate, 0x13, Node.gate), (.carry, 0x11, Node.carry),
        (.redadd, 0x14, fun n q => n.reduceBy 0 q), (.redmax, 0x15, fun n q => n.reduceBy 1 q), (.redmin, 0x16, fun n q => n.reduceBy 2 q),
        (.count, 0x17, Node.counting), (.rstat, 0x18, fun n q => n.reduce q (fun t => n.rstatStep t.val) n.rstatEmit),
        (.rbuf, 0x19, fun n q => n.ringOut q ++ n.ringIn q ++ n.ringStat q), (.isect, 0x1A, Node.isect), (.cvt, 0x1B, Node.cvt),
        (.lut, 0x1C, Node.lut)] : List ((Nat → Nat → Nat → Instr) × Nat × (Node → (Nat → List Tok) → List Firing))),
      s.runningNode st fi node c.2.1 = some (r, n) →
      (n.sweep (r.queue n.num) ++ c.2.2 n (r.queue n.num)).findSome? r.fire = some r' →
      exec (c.1 st fi node) s = .next (s.setRegion { r' with fired := s.baseClk })) ∧
  (∀ (n : Node) (q : Nat → List Tok) (e0 e1 : Bool) (x y : Word) (r0 r1 : List Tok),
    n.k = false → n.coord = none → fmtClass n.fmtIn0 = 2 → q 0 = { kind := .data, exc := e0, payload := x } :: r0 →
    q 1 = { kind := .data, exc := e1, payload := y } :: r1 →
    let a := intValue n.fmtIn0 x.toNat
    let b := intValue n.fmtIn1 y.toNat
    ∀ c ∈ [(3, a + b), (4, a - b), (5, a * b), (7, max a b), (8, min a b)], n.opc = c.1 →
      n.arith q = [{ take := [0, 1], out := [(0, Tok.data (narrowInt n.fmtOut (n.especBit 0) c.2) (e0 || e1))], node := { n with coord := none } }]) ∧
  (∀ (n : Node) (q : Nat → List Tok) (t : Tok) (ts : List Tok), q 0 = t :: ts → t.kind ≠ .dusk →
    n.passOn q = [{ take := [0], out := n.outPorts.map fun p => (p.1, t), node := n }]) ∧
  (∀ (s : State) (st fi route hop : Nat) (r : Region) (x : Route) (t : Tok) (ts : List Tok), s.region? st fi = some r →
    r.routes[route]? = some x → r.live = true → hop + 1 < x.links.length → x.broken = false → nth [] x.links hop = t :: ts →
    (nth [] x.links (hop + 1)).length < 4 →
    let y : Route := { x with links := setNth (setNth x.links hop ts) (hop + 1) (nth [] x.links (hop + 1) ++ [t]) }
    exec (.routeHop st fi route hop) s = .next (s.setRegion { r with routes := setNth r.routes route y })) ∧
  (∀ (s : State) (st fi route : Nat) (r : Region) (x : Route) (n : Node), s.region? st fi = some r → r.routes[route]? = some x →
    r.live = true → x.dawn = true → r.node? x.dst = some n → n.isBridge = false →
    let r' := { r with routes := setNth r.routes route { x with dawn := false } }
    (n.live = true → exec (.dawnArrival st fi route) s = .next (s.setRegion r')) ∧
    (n.live = false → exec (.dawnArrival st fi route) s = .next (s.setRegion ((r'.setNode { n with live := true }).dawnOut n.num)))) ∧
  (∀ (s : State) (st fi node : Nat) (r r' : Region) (n : Node) (t : Tok), s.region? st fi = some r → r.node? node = some n →
    r.live = true → n.live = true → n.isBridge = false → n.isSink = false →
    let ports := (n.inPorts.map (·.1)).filter (r.driven n.num)
    ports ≠ [] → (∀ p ∈ ports, ∃ u us, r.queue n.num p = u :: us ∧ u.kind = .dusk) → ports.head?.bind (fun p => (r.queue n.num p).head?) = some t →
    r.fire { take := ports, out := n.toAll t, node := n } = some r' →
    exec (.duskForward st fi node) s = .next (s.setRegion { r' with fired := s.baseClk }))

/-- IMAGE_LOAD of a LOADING region arms it when its image is read and passes its checks, and leaves it UNARMED with code 1
for a bad header. SRC emits its next pending token, takes a walk position, or ends its walk with EOI; SNK and SNKBAR
write a DATA at the next position of a dense walk, keep a COORD, pass markers, and note DUSK; SNKBAR_ARRIVAL makes the
next arrival of the oldest completed invocation. BRIDGE moves one token in one direction; CONNECTION_FORM connects two
ends that name each other and agree, STREAM_TRANSFER moves the oldest token against a credit, LINK_LOSS severs. HANG
freezes a region; DRAIN_COMPLETE saves a drained one and empties its bands; REGION_RESTORE brings it back, running.
(R71, R75, R76, R79, R81, R103, R104, R105, R106, R413, R414, R416) -/
def Obligations.ArrayRegionSteps : Prop :=
  ∀ (s : State) (st fi : Nat) (r : Region),
    (s.region? st fi = some r →
      (r.state = .loading → r.slots = [] →
        (∀ h nodes routes t, s.Loads r h nodes routes t → exec (.imageLoad st fi) s = .next (t.arm r h nodes routes)) ∧
        (∀ s1 hdr, s.engRead (r.party loaderNode) { kind := .arrayRead } r.image 64 = (s1, .ok (hdr, false)) →
          (Header.ofBytes r.width hdr).ok = false →
          exec (.imageLoad st fi) s = .next (s1.setRegion { r with state := .unarmed, code := 1, item := 0, itemRoute := false }))) ∧
      (∀ v rest n more, r.invs = v :: rest → (r.barriers.filter fun n => !v.arrived.contains n.num) = n :: more → r.live = true →
        r.completed v = true →
        let left := if more = [] then rest else { v with arrived := n.num :: v.arrived } :: rest
        exec (.snkbarArrival st fi) s = .next ((s.setRegion { r with invs := left }).barrierArrival r n v v.status)) ∧
      (∀ (n : Node) (c : Channel), r.node? n.num = some n → r.live = true → n.isBridge = true → n.live = true → s.channel? ((s.spot r).bridge n.num) = some c →
        (∀ t ts r', c.inTok = t :: ts → t.kind ≠ .dawn → (t.kind ≠ .dusk ∨ r.state ≠ .running) → (r.state ≠ .draining ∨ isQueueId c.peer = false) →
          r.fire { out := [(0, t)], node := n } = some r' →
          let taken := fun (c : Channel) => { c with inTok := c.inTok.drop 1 }
          exec (.bridge st fi n.num true) s = .next (((s.setRegion { r' with fired := s.baseClk }).onChannel c.id taken).returnCredits c 1)) ∧
        (∀ t ts r', r.queue n.num 0 = t :: ts → c.outTok = [] → (t.kind ≠ .dusk ∨ isQueueId c.peer = false) →
          r.fire { take := [0], node := n } = some r' →
          exec (.bridge st fi n.num false) s = .next ((s.setRegion { r' with fired := s.baseClk }).onChannel c.id fun c => { c with outTok := [t] }))) ∧
      ((r.state = .running ∨ r.state = .draining) → r.hangInterval ≠ 0 → r.suspended = none → s.regionParked r = false →
        s.tokensRemain r = true → r.fired + r.hangInterval ≤ s.baseClk →
        let q : Region := { r with state := .frozen, code := 0x40, item := 0, itemRoute := false, mapDue := some s.baseClk }
        let w := s.setRegion q
        (q.mapAddress = 0 → exec (.hang st fi) s = .next (w.declareHang q 0)) ∧
        (∀ map t, q.mapAddress = map → map ≠ 0 →
          w.engWrite (q.party mapNode) (q.need true) map (w.occMap q) = (t, .ok ()) → exec (.hang st fi) s = .next (t.declareHang q map))) ∧
      (∀ t ks, r.state = .draining → r.sinks.all r.sinkDrained = true → s.declinedOf (r.party saveNode).who = none →
        s.isParked (r.party saveNode).who = false → s.saveRecord (r.party saveNode) r.record = (t, .ok ks) →
        ∃ u, exec (.drainComplete st fi) s = .next u ∧ u.region? st fi = none ∧
          u.engines.savedRegions = t.engines.savedRegions ++ [{ r with state := .empty, slots := ks, suspended := none }])) ∧
    (s.region? st fi = none → s.restoreDue st fi = some r →
      let q : Region := { r with state := .loading }
      let kept := fun (x : Region) => !x.at st fi
      let w := s.onEngines fun g => { g with regions := g.regions ++ [q], savedRegions := g.savedRegions.filter kept }
      ∀ h nodes routes t, w.Loads q h nodes routes t →
        exec (.regionRestore st fi) s = .next ((t.rearm q h nodes routes).endRestore st fi)) ∧
    (∀ (n : Node) (e : Endpoint), s.runningNode st fi n.num 0x1D = some (r, n) → r.endpoint? n.num = some e →
      (∀ t ts r', e.pending = t :: ts → r.emitSrc n e t ts = some r' → exec (.src st fi n.num) s = .next (s.setRegion { r' with fired := s.baseClk })) ∧
      (∀ a, e.pending = [] → r.state ≠ .draining → e.apr = some a →
        (a.total ≤ e.pos → exec (.src st fi n.num) s = .next (s.setRegion (r.setEndpoint { e with walkDone := true, pending := [eoiTok e.inv false] }))) ∧
        (e.pos < a.total → a.elem e.pos = .nothing →
          exec (.src st fi n.num) s = .next (s.setRegion (r.setEndpoint { e with parked := false, pos := e.pos + 1, pending := a.marks e.inv e.pos }))) ∧
        (∀ va s1 m s2 bs p, e.pos < a.total → a.elem e.pos = .at_ va → s.reach (r.party n.num) (r.need false) va = (s1, .ok m) →
          a.size ≤ 4 → a.fmtCode ≠ 5 → s1.pkgRead none m.pa a.size (policyOf m.cpol (b2n a.noAlloc)) = (s2, bs, p) →
          let zero := p = false ∧ a.skipZero = true ∧ bs.all (· == 0) = true
          let v := if a.fmtCode = 13 then bytesToNat (bs.take 4) % 2 else bytesToNat (bs.take 4)
          let out := (if zero then [] else a.emits e.pos (BitVec.ofNat 32 v) p) ++ a.marks e.inv e.pos
          exec (.src st fi n.num) s = .next (s2.setRegion (r.setEndpoint { e with parked := false, pos := e.pos + 1, pending := out }))))) ∧
    (∀ c ∈ [(Instr.snk, 0x1E), (.snkbar, 0x1F)], ∀ (n : Node) (e : Endpoint) (t : Tok) (ts : List Tok),
      s.runningNode st fi n.num c.2 = some (r, n) → r.endpoint? n.num = some e → r.queue n.num 0 = t :: ts →
      let skips := fun (m : Node) (e : Endpoint) => exec (c.1 st fi n.num) s = .next (s.setRegion { (r.takeSink m).setEndpoint e with fired := s.baseClk })
      (t.kind ∈ [TokKind.eor, .eot] → skips { n with coord := none } e) ∧ (t.kind ∈ [TokKind.stat, .dawn] → skips n e) ∧ (t.kind = .dusk → skips n { e with duskSeen := true }) ∧
      (t.kind = .coord → skips { n with coord := some t } e) ∧
      (∀ a k va s1 ms, t.kind = .data → t.exc = false → e.apr = some a → e.aprErr = 0 → a.coords = false → a.fmtCode ≠ 5 → a.size ≤ 4 →
        a.nextSlot e.pos = some (k, .at_ va) →
        let bs := (wordBytes (if a.fmtCode = 13 then t.payload &&& 1 else t.payload)).take a.size
        s.engMap (r.party n.num) (r.need true) va bs.length = (s1, .ok ms) →
        let done : Endpoint := { e with pos := k + 1, written := e.written + 1, pending := [], parked := false }
        let q := ((r.takeSink { n with coord := none }).setEndpoint done).noteStatus e.inv 0
        exec (c.1 st fi n.num) s = .next ((s1.writePieces none (b2n a.noAlloc) ms bs).setRegion { q with fired := s.baseClk }))) ∧
    (∀ x y c d, s.channel? x = some c → s.channel? y = some d → c.peer = y → d.peer = x → c.connected = false → chanPart y = s.partNumber →
      formatsAgree c.fmt d.fmt = true →
      let joined := fun (other c : Channel) => { c with connected := true, credit := 64 - other.inTok.length }
      exec (.connectionForm x y) s = .next ((s.onChannel x (joined d)).onChannel y (joined c))) ∧
    (∀ x c t ts, s.channel? x = some c → c.outTok = t :: ts → c.connected = true → c.credit ≠ 0 → s.peerTakes c = true → chanPart c.peer = s.partNumber →
      let sent := fun (c : Channel) => { c with outTok := ts, credit := c.credit - 1 }
      let got := fun (p : Channel) => { p with inTok := p.inTok ++ [t] }
      exec (.streamTransfer x) s = .next ((s.onChannel x sent).onChannel c.peer got)) ∧
    (∀ x y, let on := fun (c : Channel) => (c.id == x && c.peer == y) || (c.id == y && c.peer == x)
      (∃ c ∈ s.engines.channels, c.connected = true ∧ c.saved = false ∧ on c = true) →
      exec (.linkLoss x y) s = .next (s.severConnections on))

/-- A gang executes TDEF of a free index and a range that fits and overlaps no tile: the tile is defined, EMPTY. TFREE of
a tile neither FILLING nor DRAINING undefines it; TSTAT gives its word; an index not defined traps. With copy rights,
CSEAL closes the open batch and writes its number, CWAIT with no sealed batch left takes the statuses into o13, CPOLL
writes which tokens have none; without, they trap. COPY and COPYMM, their records read and their tile admitting them,
put a copy in flight in the open batch, or complete it with status 3 where it is not valid. A matrix command with a
READY tile, room and no parked store of its gang to a window enters its core's queue. COPY_ELEMENT, COPY_COMPLETE,
MMA_COMPLETE, COMBINE_FLUSH and QUANT_APPLY perform what waits. (R152, R154, R155, R160, R163, R218, R219, R294, R296,
R298, R299, R300) -/
def Obligations.TileCopyAndMatrix : Prop :=
  ∀ (s : State) (d : Dst) (a b : Opnd) (h : Bool) (l : Lead),
    let ra := fun (x : Slice) e => x.readOpnd e s.clock a
    let rb := fun (x : Slice) e => x.readOpnd e s.clock b
    let pair := fun (x : Slice) e => x.readPair e s.clock true a
    let one := fun (x : Slice) e => heldOf h [ra x e]
    let w := l.env.wg
    let A := l.word s.clock a
    let B := l.word s.clock b
    let traps := fun cause => Host.Outcome.next (s.takeTraps (s.cur.map fun u => (u, trapAt cause l.slice.pc)))
    (s.Led (.tdef a b h) (fun x e => [ra x e, rb x e]) l →
      let base := field B.toNat 0 14
      let size := field B.toNat 14 15
      field B.toNat 29 3 = 0 → size ≠ 0 → A.toNat < w.tiles → 256 * (base + size) ≤ w.scrBytes → s.tileOf w A.toNat = none →
      (∀ t ∈ s.engines.tiles, t.core = w.core → w.tileFirst ≤ t.entry → t.entry < w.tileFirst + w.tiles → t.overlaps base size = false) →
      let t : Tile := { id := s.fresh.1, core := w.core, entry := w.tileFirst + A.toNat, owner := w.slot, base := base, size := size }
      exec (.tdef a b h) s = .next ((s.fresh.2.onEngines fun g => { g with tiles := g.tiles ++ [t] }).retireGang (.tdef a b h) .zero [] one)) ∧
    (∀ t, s.tileOf w A.toNat = some t →
      (s.Led (.tfree a h) (fun x e => [ra x e]) l → t.state ≠ .filling → t.state ≠ .draining →
        let other := fun (q : Tile) => q.id != t.id
        exec (.tfree a h) s = .next ((s.onEngines fun g => { g with tiles := g.tiles.filter other }).retireGang (.tfree a h) .zero [] one)) ∧
      (s.Led (.tstat d a h) (fun x e => [ra x e]) l →
        exec (.tstat d a h) s = .next (s.retireGang (.tstat d a h) d [.u (t.word.setWidth 32), .u ((t.word >>> 32).setWidth 32)] one))) ∧
    (s.tileOf w A.toNat = none → ∀ i ∈ [Instr.tfree a h, .tstat d a h], s.Led i (fun x e => [ra x e]) l → exec i s = traps 9) ∧
    (∀ i ∈ [Instr.cseal d a h, .cwait a h, .cpoll d a h], l.copyRights = false → s.Led i (fun x e => [ra x e]) l → exec i s = traps 8) ∧
    (l.copyRights = true →
      (s.Led (.cseal d a h) (fun x e => [ra x e]) l → let t := w.token (A.toNat % 8)
        t.sealed.length < 16 →
        exec (.cseal d a h) s = .next ((s.onToken w.uid (A.toNat % 8) Token.seal).retireGang (.cseal d a h) d [.u (BitVec.ofNat 32 t.next)] one)) ∧
      (s.Led (.cwait a h) (fun x e => [ra x e]) l → (∀ k, k < 8 → A.getLsbD k = true → (w.token k).sealed = []) →
        let acc := (maskTokens A).foldl (fun m k => m ||| (w.token k).acc) 0#4
        let cleared := (maskTokens A).foldl (fun q k => q.onToken w.uid k fun t => { t with acc := 0 }) s
        let told := cleared.cur.foldl (fun q u => q.onSlice u fun x => x.putSof 13 x.m0 fun _ => { val := acc.setWidth 32 <<< 1 }) cleared
        exec (.cwait a h) s = .next (told.retireGang (.cwait a h) .zero [] one)) ∧
      (s.Led (.cpoll d a h) (fun x e => [ra x e]) l → ∃ v : Word, exec (.cpoll d a h) s = .next (s.retireGang (.cpoll d a h) d [.u v] one) ∧
        ∀ k, v.getLsbD k = (decide (k < 8) && A.getLsbD k && (w.token k).sealed.isEmpty))) ∧
    (∀ (p : Option Pfx) (c : Opnd) (f : CopyDir) s0 s1 bs s2 gen ch m,
      let third := fun (o : Option Opnd) (x : Slice) e => match o with
        | some o => let p := x.readPair e s.clock true o; [p.1, p.2]
        | none => []
      let va := l.pair s.clock a
      let t := Tasker.of l.env l.slice
      let rel := s.curSlices.foldl (fun q x => q.releaseAt (q.env x) x f.scope) s
      let tile := if f.usesTile then s1.tileOf w (field B.toNat 3 8) else none
      let r1 := Apr.ofBytes va bs
      let r2 := if f = .g2g then some (Apr.ofBytes (va + 128) (bs.drop 128)) else none
      let ok := copyValid f w tile (field B.toNat 12 19) r1 r2
      let charge := if ok then copyBytes f r1 r2 else 0
      ∀ i ∈ [Instr.copy p f a b h, .copymm c f a b h],
        let o := match i with | .copy _ _ _ _ _ => p.bind (·.c) | _ => some c
        s.Led i (fun x e => [(pair x e).1, (pair x e).2, rb x e] ++ third o x e) l → l.copyRights = true → descriptorOk f B = true →
        (s.engines.copies.filter fun y => y.core == w.core && !y.held).length < 128 → (∀ x ∈ s.curSlices, s.releaseReady x f.scope = true) →
        (match i with
          | .copy _ _ _ _ _ => s0 = rel ∧ ch = none ∧ m = o.map fun o => l.pair s.clock o
          | _ => ∃ cb, (l.pair s.clock c).toNat % 16 = 0 ∧ rel.taskRead t .record (l.pair s.clock c) 32 = .ok (s0, cb) ∧ ch = some (Chain.ofBytes cb) ∧
              (Chain.ofBytes cb).zeros = true ∧ m = if (Chain.ofBytes cb).mbar = 0 then none else some (Chain.ofBytes cb).mbar) →
        s0.taskRead t .record va (if f = .g2g then 256 else 128) = .ok (s1, bs) → (m.getD 0).toNat % 16 = 0 →
        (f.usesTile = true → ∃ q, tile = some q ∧ s1.tileAdmits f q = true) → (∀ q, ch = some q → s1.commandOk l q = .ok ()) →
        s1.chargeMbar t.party m charge = .ok (s2, gen) →
        ∃ q : State, exec i s = .next (q.retireGang i .zero [] fun x e => heldOf h [(pair x e).1, (pair x e).2]) ∧
          (ok = true → ∃ y : Copy, q.engines.copies = s2.engines.copies ++ [y] ∧ y.dir = f ∧ y.token = field B.toNat 0 3 ∧ y.apr = r1 ∧ y.apr2 = r2 ∧
            y.mbar = m ∧ y.gen = gen ∧ y.charge = charge ∧ y.pos = 0 ∧ y.status = 0 ∧ y.landed = false) ∧
          (ok = false → ∀ y ∈ q.engines.copies, y ∈ s2.engines.copies)) ∧
    (∀ (p : Option Pfx) t, let cs := p.bind (·.c)
      let aoff := (cs.map fun o => (l.word s.clock o).toNat).getD 0
      s.tileOf w (cmdTile B) = some t → t.state = .ready → s.matRoom w.core = true → s.tileStoreParked = false →
      s.chainAhead w (cmdSet B) = false →
      (∀ c ∈ [(Instr.mma p a b h, MatKind.mma), (.mmaz p a b h, .mmaz)],
        s.Led c.1 (fun x e => [ra x e, rb x e] ++ (cs.map fun o => x.readOpnd e s.clock o).toList) l → cmdZ B = false →
        matrixOk w l.slice.fmt B A.toNat aoff t = true →
        let q : MatOp := ⟨0, w.core, false, c.2, s.cur, w.uid, nth 0 w.accs (cmdSet B), t.id, t.offset w + 256 * aoff,
          aExtent l.slice.fmt (32 * cmdKb B), cmdKb B, A.toNat, aoff, l.slice.fmt, 0, t.offset w, t.bytes, []⟩
        exec c.1 s = .next ((s.pushMat q).retireGang c.1 .zero [] one)) ∧
      (∀ c ∈ [(Instr.accld ⟨p, b⟩, MatKind.accld), (.accst ⟨p, b⟩, .accst)], s.Led c.1 (fun x e => [rb x e]) l → field B.toNat 11 21 = 0 →
        cmdSet B < w.accs.length → 49152 ≤ t.bytes →
        let q : MatOp := ⟨0, w.core, false, c.2, s.cur, w.uid, nth 0 w.accs (cmdSet B), t.id, t.offset w, 49152, 0, 0, 0, l.slice.fmt,
          0, t.offset w, t.bytes, []⟩
        exec c.1 s = .next ((s.pushMat q).retireGang c.1 .zero [] fun _ _ => []))) ∧
    (∀ p, s.Led (.accz ⟨p, b⟩) (fun x e => [rb x e]) l → field B.toNat 3 29 = 0 → cmdSet B < w.accs.length → s.matRoom w.core = true → s.chainAhead w (cmdSet B) = false →
      let q : MatOp := ⟨0, w.core, false, .accz, s.cur, w.uid, nth 0 w.accs (cmdSet B), 0, 0, 0, 0, 0, 0, l.slice.fmt, 0, 0, 0, []⟩
      exec (.accz ⟨p, b⟩) s = .next ((s.pushMat q).retireGang (.accz ⟨p, b⟩) .zero [] fun _ _ => [])) ∧
    (∀ c, s.engines.copies.find? (·.id == c.id) = some c →
      (c.landed = false → c.held = false → s.copyStarts c = true →
        (∀ s1 c1, s.copyStep c = (s1, .ok c1) → exec (.copyElement c.id) s = .next (s1.settleCopy c1)) ∧
        (∀ s1, s.copyStep c = (s1, .parked) → exec (.copyElement c.id) s = .next s1) ∧
        (∀ s1 d, s.copyStep c = (s1, .failed) → s1.engines.copies.find? (·.id == c.id) = some d →
          (d.block = [] → exec (.copyElement c.id) s = .next (s1.settleCopy { d with status := 2, landed := true })) ∧
          (d.block ≠ [] → d.blockDue = false → exec (.copyElement c.id) s = .next (s1.settleCopy { d with status := 2 })) ∧
          (d.block ≠ [] → d.blockDue = true →
            exec (.copyElement c.id) s = .next ((s1.putPlaces d).1.settleCopy { (s1.putPlaces d).2 with status := 2, landed := true })))) ∧
      (∀ s1 k, c.landed = true → s.handOver c = (s1, some k) →
        exec (.copyComplete c.id) s = .next (s1.finishCopy c k) ∧ ∀ y ∈ (s1.finishCopy c k).engines.copies, y.id ≠ c.id)) ∧
    (∀ q core, s.matHead core = some q → s.matReady q = true →
      ∃ t, exec (.mmaComplete core) s = .next t ∧ (∀ y ∈ t.engines.matQueue, y.id ≠ q.id) ∧
        (q.kind = .accz → ∀ n, (t.accSet q.core q.set).word n = 0) ∧ (q.kind = .accst → t.engines.accs = s.engines.accs)) ∧
    (∀ y, (s.caches.deferred.find? (fun d => d.id == y.id && d.isComm == true) = some y → exec (.combineFlush y.id) s = .next (s.applyDeferred y)) ∧
      (s.caches.deferred.find? (fun d => d.id == y.id && d.isComm == false) = some y → exec (.quantApply y.id) s = .next (s.applyDeferred y)))

/-- A slice that issues alone, its addresses aligned and reachable, and nothing outstanding that an arrival publishes,
executes INIT, ARRIVE and INVAL: it goes on with no register changed and nothing beside it but memory, caches, events
and waiters. Of one lane whose object is clean, homed in a stack, the caches at rest for its quad, the object
afterwards is what the operation gives: INIT arms it with the count, a count of 0 or above 65,535 making it invalid;
ARRIVE lowers what is left and completes the phase at zero; INVAL makes it invalid. TEST always, and WAIT once every
lane's object answers, write each lane's status to o13 and whether it completed without error to the mask register.
(R165, R166, R167, R168, R169, R303, R304) -/
def Obligations.BarrierObjects : Prop :=
  ∀ (s : State) (x : Slice) (a b : Opnd) (h : Bool) (p : Option Pfx) (k : BitVec 3) (tr : DWord → Mapping),
    let e := s.env x
    let pair := x.readPair e s.clock true a
    let rb := x.readOpnd e s.clock b
    let held := heldOf h [pair.1, pair.2]
    let quad := quadOfCore e.core
    x.mbar = [] →
    (∀ c ∈ [(Instr.mbarInit a b h, none, [rb], fun l (o : Mbar) => (o.init (rb.val l)).obj),
        (.mbarArrive p a b h, p, [rb], fun l o => if rb.val l = 0 then o else (o.arrive { bytes := false, n := (rb.val l).toNat, gen := none, err := 0 }).obj),
        (.mbarInval a h, none, [], fun _ o => o.inval.obj)],
      let take := takeOf x c.2.1
      let as := laneAddrs pair take 0 16
      s.Alone c.1 x ([pair.1, pair.2] ++ c.2.2.1) take → (∀ q ∈ as, q.va.toNat % 16 = 0) →
      s.Reaches x { kind := .atomic, wr := true } 3 as tr → ((pfxOrder c.2.1).isRel = true → s.releaseReady x (s.widen x (pfxScope c.2.1)) = true) →
      (publishes c.1 = true → s.storesSet x = false) →
      ∃ t, exec c.1 s = .next t ∧ t.apart = s.apart ∧ t.groups = s.groups ∧ t.slice? x.uid = some (((x.stood.stepLatch held).next c.1).retired) ∧
        (∀ u y, u ≠ x.uid → s.slice? u = some y → ∃ m, t.slice? u = some { y with mbar := m }) ∧
        (∀ l, maskLanes take = [l] → (pfxOrder c.2.1).isRel = false → s.Coherent quad →
          let pa := (tr (pairVal pair l)).pa
          (stackOf pa).isSome = true → s.peekPoison pa 16 = false → Mbar.ofBytes (t.peek pa 16) = c.2.2.2 l (Mbar.ofBytes (s.peek pa 16)))) ∧
    (∀ (o : Mbar) (n : Word), (o.init n).obj.pending = 0 ∧
      (if n = 0 ∨ 65535 < n.toNat then (o.init n).obj.state = 3 ∧ (o.init n).obj.err = 12
        else (o.init n).obj.state = 1 ∧ (o.init n).obj.left = n.toNat ∧ (o.init n).obj.expected = n.toNat ∧ (o.init n).obj.phase = false)) ∧
    (∀ (o : Mbar) (n : Nat), o.state = 1 → o.pending = 0 → n ≤ o.left →
      let q := (o.arrive { bytes := false, n := n, gen := none, err := 0 }).obj
      q.left = o.left - n ∧ (n < o.left → q.state = 1 ∧ q.phase = o.phase) ∧ (n = o.left → q.state = 2 ∧ q.phase = !o.phase)) ∧
    (∀ i ∈ [Instr.mbarWait p k a b h, .mbarTest p k a b h],
      let take := takeOf x p
      let as := laneAddrs pair take 0 16
      let object := fun l => Mbar.ofBytes (s.peek (tr (pairVal pair l)).pa 16)
      let got := fun l => (object l).answer ((rb.val l).getLsbD 0)
      let word := fun l => match got l with
        | some r => (object l).statusWord r.1 r.2
        | none => (object l).statusWord 4 0
      let pred := maskOf fun l => take.getLsbD l && (got l).any fun r => r.1 == 0 && r.2 == 0
      s.Alone i x [pair.1, pair.2, rb] take → (∀ q ∈ as, q.va.toNat % 16 = 0) → s.Reaches x { kind := .atomic } 3 as tr →
      ((pfxOrder p).isAcq = true → x.lasting = []) → s.Coherent quad →
      (∀ l ∈ maskLanes take, let pa := (tr (pairVal pair l)).pa
        (stackOf pa).isSome = true ∧ s.peekPoison pa 16 = false) →
      ((match i with | .mbarTest _ _ _ _ _ => True | _ => ∀ l ∈ maskLanes take, (got l).isSome = true)) →
      ∃ t, exec i s = .next t ∧ t.apart = s.apart ∧ t.slice? x.uid = some (((((x.stood.putSof 13 take fun l => { val := word l }).setMask k.toNat
        (mergeMask (x.mask k.toNat) pred take false)).stepLatch held).next i).retired) ∧ ∀ j, t.byteAt j = s.byteAt j)

/-- WATCHDOG takes its trap after 2^32 clocks of a wait that it covers; SLEEP_END, WAITW_POLL, WAITW_TIMEOUT and
JOIN_RECHECK make the waiting slices of a gang issue again; PATH_ROTATION after DIV_ROTATE backward branches runs the
other path of every slice of the gang that is due, or traps it where its entry cannot hold the PC; REGANG_RELEASE ends
a round that is full or whose window has passed; BAR_RELEASE follows when every member of its round that lives has
arrived. PACKET_ACCEPT accepts a packet that passes its checks, else stops its queue; WORKGROUP_DISPATCH starts the
next workgroup of the first launch, or all of a cooperative one, where no resume comes first; CHUNK_STEAL takes half
of a victim's unstarted chunks, the highest first; LAUNCH_COMPLETE ends a launch that is over; TIME_SLICE notes a wait
or removes workgroups of lower PRIO; WORKGROUP_SAVE and WORKGROUP_RESUME save and restore a workgroup for which
nothing stands in the way. (R292, R302, R309, R317, R320, R330, R358, R361, R362, R368, R370, R397) -/
def Obligations.SchedulingAndWaits : Prop :=
  ∀ s : State,
    let wake := fun (x : Slice) (p : Status → Bool) (y : Slice) =>
      if (s.gangUids x).contains y.uid && p y.status then { y with status := .ready, readySince := s.clock } else y
    let rouse := fun (x : Slice) (p : Status → Bool) => { s with slices := s.slices.map (wake x p) }
    (∀ u x, s.slice? u = some x →
      let c := s.ctxOf (s.env x).ctx
      (∀ since, x.since = some since → 2 ^ 32 ≤ (s.clock - since).toNat → (s.env x).group.halted = false → (s.env x).wg.status = .running →
        (s.watched x = true → let q := s.onSlice u fun y => { y with status := .ready }
          exec (.watchdog u) s = .next (q.takeTrap u (trapAt 11 x.pc))) ∧
        (s.watched x = false → exec (.watchdog u) s = .refused (.notEnabled "WATCHDOG"))) ∧
      (∀ n, x.status = .sleeping n → exec (.sleepEnd u) s = .next (rouse x Status.isSleep)) ∧
      (x.status = .inWaitw → exec (.waitwPoll u) s = .next (rouse x (· == .inWaitw)) ∧
        ∀ since, x.since = some since → x.limit.toNat ≤ (s.clock - since).toNat → exec (.waitwTimeout u) s = .next (rouse x (· == .inWaitw))) ∧
      (x.status = .inJoin → exec (.joinRecheck u) s = .next (rouse x (· == .inJoin))) ∧
      (∀ e, x.topEntry = some e → c.divRotate.toNat ≤ x.turn → e.otherMask ≠ 0 → x.live = true →
        let y := x.switch e x.pc
        let inReach := fun (t : State) (z : Slice) => pcInReach (t.env z).launch.pkt.entry z.pc
        let turn := fun (t : State) (z : Slice) => match t.rotationDue z with
          | some d => if inReach t z then t.setSlice (z.switch d z.pc) else t.takeTrap z.uid (trapAt 7 z.pc)
          | none => t
        exec (.pathRotation u) s = .next (((s.gangOf x).foldl turn s).partIfApart (s.gangUids x)) ∧
        (inReach s x = true → turn s x = s.setSlice y) ∧
        y.pc = e.otherPc ∧ y.fmt = e.oFmt ∧ y.masks = setNth x.masks 0 e.otherMask ∧ y.turn = 0 ∧
        y.recon = { e with otherPc := x.pc, otherMask := x.m0, oFmt := x.fmt } :: x.recon.tail) ∧
      (∀ sc, x.status = .atBar sc →
        let ms := s.barLive x.barSet
        ((∀ y ∈ ms, y.status = .atBar sc ∧ y.barSet = x.barSet ∧ s.releaseReady y (s.widen y sc) = true) → sc ≠ .pod → exec (.barRelease u) s = .next (s.releaseBar sc ms)) ∧
        ((∃ y ∈ ms, y.status ≠ .atBar sc) → exec (.barRelease u) s = .refused (.notEnabled "BAR_RELEASE")))) ∧
    (∀ group tag x xs, s.waitersAt group tag = x :: xs → (s.env x).group.halted = false → (s.env x).wg.status = .running →
      ((∀ y ∈ s.groupSlices group, y.live = true → y.status = .atRegang tag) ∨
        (∀ g r, s.group? group = some g → g.rounds.lookup tag = some r → r.2.toNat ≤ (s.clock - r.1).toNat)) →
      ∃ t, exec (.regangRelease group tag) s = .next t ∧ t.wgs = s.wgs ∧ t.mem = s.mem ∧
        ∀ y ∈ x :: xs, ∃ z, t.slice? y.uid = some z ∧ z.status = .ready ∧ z.since = none) ∧
    (∀ q, s.outside.fw.recovery = false → s.readerQueue = some q →
      let x := s.queueOf q
      (x.tail - x.head).toNat ≤ x.size → ∀ s1 bs readable, (s.served q).readPacket x.ring (x.head.toNat % x.size) = (s1, bs, readable) →
      let l : Launch := ⟨s1.fresh.1, q, x.head, x.ctx, Packet.ofBytes bs, Nat.max 1 s1.chunk.toNat, [], [], 0, [], s1.duty 5, false⟩
      let r := s1.fresh.2.setHead q (x.head + 1)
      (s1.fresh.2.packetError q l bs readable = none →
        exec (.packetAccept q) s = .next { r.freshCode with launches := r.launches ++ [l] }) ∧
      (∀ code, s1.fresh.2.packetError q l bs readable = some code →
        exec (.packetAccept q) s = .next ((r.stopQueue q code).postSchedule (srcDie 0) 1 none none (BitVec.ofNat 64 q) (x.head.setWidth 64)))) ∧
    (∀ die l ls, s.resumesFirst die = false → s.byPriority = l :: ls → s.mayDispatch l = true →
      (l.pkt.coop = false → ∀ w c q r t, l.nextWork die = some w → s.coreFor l w die = some (c, q) → s.bringUnits c l.ctx = .here r →
        r.startOn l w die c = some t → exec (.workgroupDispatch die) s = .next t) ∧
      (l.pkt.coop = true → ∀ t, l.started = [] → die ∈ l.pkt.dies → (∀ d ∈ l.pkt.dies, s.comesFirst l d = false) → s.dispatchAll l = some t →
        exec (.workgroupDispatch die) s = .next t)) ∧
    (∀ l w die c t, s.place l w c = some t → s.startOn l w die c = some ((t.noteStart l.id w die c).flashInvalidate (quadOfCore c))) ∧
    (∀ die l ks, s.theft die = some (l, ks) →
      let took := fun (x : Launch) => { x with stolen := ks.map (fun k => (k, die)) ++ x.stolen.filter (fun k => !ks.contains k.1) }
      exec (.chunkSteal die) s = .next (s.onLaunch l.id took) ∧ l.noSteal = false ∧ l.terminated = false ∧
      ∃ v ∈ diesByDistance die, ks = (l.freshChunks v).reverse.take (((l.freshChunks v).length + 1) / 2)) ∧
    (∀ id l, s.launch? id = some l → s.launchOver l = true →
      let q := s.drainWts fun _ => true
      let a := queueBlock l.queue + 0x18
      let r := (q.setWord a (q.word a + 1)).doneArrive (launchParty l.ctx) l.pkt.doneMbar
      exec (.launchComplete id) s = .next { r with launches := r.launches.filter fun x => x.id != id }) ∧
    (∀ die, s.duty 7 = false → (∀ w ∈ s.wgs, dieOfCore w.core = die → w.status ≠ .stopping) →
      let ws := (s.waiters die).filter fun x => !x.cores.any fun c => x.fits c s
      (∀ x, ws.find? (·.since.isNone) = some x → exec (.timeSlice die) s = .next (s.noteWait die x)) ∧
      (∀ x xs c us, ws = x :: xs → (∀ y ∈ ws, y.since.isSome = true) → x.since = some c → s.quantumPast die c = true → s.preemption x = some us →
        exec (.timeSlice die) s = .next (s.stopWgs (s.wholeCoops us) x.launchId) ∧
        ∀ u ∈ us, ∃ w ∈ s.wgs, w.uid = u ∧ w.status = .running ∧ ((s.launch? w.launch).map (·.pkt.prio)).getD 0 < x.prio)) ∧
    (∀ u w, s.wg? u = some w → w.status = .stopping → s.declinedOf (.save u) = none → s.isParked (.save u) = false →
      s.toRecall w = [] → s.parkedCopies w = [] → s.allHome w = true → (∀ c ∈ s.engines.copies, c.wg = u → c.held = true) →
      (∀ q ∈ s.engines.matQueue, q.wg ≠ u) →
      (∀ m, s.midnight? w.core = some m → m.busy = none) →
      (∀ t, s.saveAll w = .ok t → exec (.workgroupSave u) s = .next t) ∧
      (s.saveAll w = .error .full → exec (.workgroupSave u) s = .next (s.abandonSave w))) ∧
    (∀ u w, s.wg? u = some w → s.resumeDue w = true → (∀ v ∈ s.backTogether w, s.isParked (.save v.uid) = false) →
      let q := (s.backTogether w).foldl (fun q v => q.clearDeclined (.save v.uid)) s
      ∀ r t, q.bringAll (q.launchCtx w.launch) (((s.backTogether w).map (·.core)).eraseDups) = .here r → r.restoreEach (s.backTogether w) = .ok t →
      exec (.workgroupResume u) s = .next ((t.roomTaken w.launch).retryHeld))

/-- FRAME_CLAIM gives a blocked slice the lowest free run of its column and it proceeds: a CALL alone, with the run kept
for it. MIDNIGHT_TRIGGER moves Midnight from IDLE to WAIT when a slice is blocked, back when none is, and to FRAMES
once FRAME_WAIT has passed or all own slices are blocked; MIDNIGHT_SPILL writes the next victim, or moves to SLICES
when no frame is left. SLICE_RELOAD brings a slice back into a free run, parted from its gang. MIGRATION_REQUEST
answers a request: refused with PREEMPT or ADMIT, or granted the lowest guest slot and run. MIGRATION_GRANT lets the
slice depart, or ends its MIGRATE with the code. CONTINUATION_SEND sends the continuation once the slice's accesses
are performed; CONTINUATION_ARRIVAL unpacks it at its host, where it runs on or, evicted, turns home; RETURN_ARRIVAL
brings it back into its held frame. (R185, R379, R380, R381, R383, R385, R386, R387, R389, R391, R393) -/
def Obligations.FrameAndMigrationSteps : Prop :=
  ∀ s : State,
    (∀ core, (∀ x, s.midnight? core = none → s.requester core = some x →
        exec (.midnightTrigger core) s = .next (s.setMidnight core (some { core := core, state := .wait, target := x.uid }))) ∧
      (∀ m, s.midnight? core = some m → m.state = .wait → s.requester core = none → exec (.midnightTrigger core) s = .next (s.setMidnight core none)) ∧
      (∀ m x, s.midnight? core = some m → m.state = .wait → s.requester core = some x →
        (s.ctxOf (s.env x).ctx).frameWait.toNat ≤ (s.clock - x.blockedSince).toNat ∨ s.allBlocked core = true →
        exec (.midnightTrigger core) s = .next (s.setMidnight core (some { core := core, state := .frames, target := x.uid }))) ∧
      (∀ m t need what, s.midnight? core = some m → s.slice? m.target = some t → t.status = .frameBlocked need what →
        let e := s.env t
        let p : Party := { who := .midnight core, unit := .core core, ctx := e.ctx, alias_ := some core }
        let c := s.columnOf t
        s.declinedOf (.midnight core) = none → s.isParked (.midnight core) = false → (m.busy = none → s.freeRun c need 0 (256 - s.guestGranules e.ctx) = none) →
        let written := fun (q : State) (y : Slice) => Host.Outcome.next ((q.setSlice y).setMidnight core (if m.stops then none else some { m with busy := none }))
        (∀ x k s1 y, m.state = .frames → m.core = core → s.nextFrame m c = some (x, k) → s.spillFrame p x k = (s1, .ok y) →
          exec (.midnightSpill core) s = written s1 y) ∧
        (∀ x k, m.busy = none → ((s.victimSlices c).findSome? fun x => x.spillable.head?.map fun k => (x, k)) = some (x, k) → s.nextFrame m c = some (x, k)) ∧
        (m.state = .frames → m.core = core → m.busy = none → (∀ x ∈ s.victimSlices c, x.spillable = []) →
          exec (.midnightSpill core) s = .next (s.setMidnight core (some { m with state := .slices }))) ∧
        (∀ x xs s1 y, m.state = .slices → m.core = core → s.wholeVictims c m.target = x :: xs → s.accessesDone x = true → s.spillWhole p x = (s1, .ok y) →
          exec (.midnightSpill core) s = written s1 y ∧ y.status = .spilled ∧ x.uid ≠ m.target ∧ x.guest = none))) ∧
    (∀ u x, s.slice? u = some x →
      let e := s.env x
      (∀ need what b, x.status = .frameBlocked need what → s.declinedOf (.slice u) = none → e.group.halted = false → e.wg.status = .running →
        s.isParked (.slice u) = false → s.isMissing (.slice u) = false → s.heldBusy x = false → s.ownRun x need = some b →
        exec (.frameClaim u) s = .next (s.proceed x what need b) ∧
        (what = .retry → let q := (s.setSlice { x with status := .ready, readySince := s.clock, run := some (b, need) }).afterClaim e.origin u
          s.proceed x what need b = if 1 < (q.gangOf x).length then q.partSlices [u] else q)) ∧
      (∀ slot k b s1 y, x.status = .spilled → x.spill = some (slot, k) → s.declinedOf (.slice u) = none →
        e.group.halted = false → e.wg.status = .running → s.isParked (.slice u) = false → s.nextReload x = true →
        (∀ z ∈ s.blockedOn e.origin, s.columnOf z ≠ s.columnOf x) → s.ownRun x x.top.demand = some b →
        s.reloadSlice (e.party u) x slot b = (s1, .ok y) →
        exec (.sliceReload u) s = .next (((s1.setSlice (y.back s1.clock false)).partSlices [u]).acquireAt e .pkg)) ∧
      (∀ m, x.mig = some m → m.phase = .requested →
        let answer := fun ph => Host.Outcome.next (s.setPhase u ph)
        let admitted := s.runsCtx m.dest e.ctx = true ∧ (s.duty 2 = true → s.tableAdmits m.dest e.ctx = true)
        ((∃ w ∈ s.wgs, w.core = m.dest ∧ w.status = .stopping) → exec (.migrationRequest u) s = answer (.refused 6)) ∧
        ((∀ w ∈ s.wgs, w.core = m.dest → w.status ≠ .stopping) →
          (¬admitted → exec (.migrationRequest u) s = answer (.refused 3)) ∧
          (admitted → s.guestPlace m.dest e.ctx x.top.demand = none → exec (.migrationRequest u) s = answer (.refused 3)) ∧
          (∀ k b, admitted → s.guestPlace m.dest e.ctx x.top.demand = some (k, b) →
            exec (.migrationRequest u) s = answer (.granted k b) ∧ k < 32 ∧ s.guestSlotHeld m.dest k = false))) ∧
      (∀ m, x.mig = some m →
        (∀ k b, m.phase = .granted k b → exec (.migrationGrant u) s = .next (s.setPhase u (.departing k b))) ∧
        (∀ code, m.phase = .refused code →
          let y := { x with status := .ready, mig := none, readySince := s.clock }
          (m.code = none → exec (.migrationGrant u) s = .next (s.setSlice { y with stay := true })) ∧
          (∀ d a h n, m.code = some (.migrate d a h, n) →
            exec (.migrationGrant u) s = .next (s.setSlice (y.retireWith (.migrate d a h) d [.u (BitVec.ofNat 32 code)] (heldOf h m.src)).retired))) ∧
        (∀ k b, m.phase = .departing k b → s.declinedParked x = none → e.group.halted = false → x.parked = [] → s.accessesDone x = true →
          let r := s.liveSet e x
          let hops := (x.guest.map (·.hops)).getD 0 + 1
          let y := x.depart m.dest k b
          exec (.continuationSend u) s = .next ((r.1.releaseAt e x .pkg).setSlice (y.send m (.flying k b) (x.continuation e 0 hops r.2))) ∧
          y.guest.map (fun g => (g.host, g.slot, g.hops)) = some (m.dest, k, hops) ∧
          ∀ i, i < 8 * x.top.demand → nth (.u 9) y.top.regs i = .u 0) ∧
        (∀ k b, m.phase = .flying k b →
          let y := x.lodge (Parcel.ofBytes m.packet e.launch.pkt.entry) s.clock
          let q := s.acquireAt e .pkg
          (m.evicted = false → e.group.halted = false → exec (.continuationArrival u) s = .next (q.setSlice (y.finishMigrate m.code m.src))) ∧
          ((m.evicted = true ∨ e.group.halted = true) → exec (.continuationArrival u) s = .next (q.setSlice (y.startReturn e.origin 1 none)))) ∧
        (∀ k g, m.phase = .returning k → x.guest = some g →
          (m.packet = [] → s.onlyDeclined x = true → s.accessesDone x = true → exec (.continuationSend u) s = .next (s.sendBack x m k)) ∧
          (m.packet ≠ [] → x.status = .migrating → s.heldBusy x = false → exec (.returnArrival u) s = .next (s.arriveHome x g k) ∧
            (g.held.slot = none → s.arriveHome x g k = (s.comeHome x g g.held k).afterClaim e.origin u)))))


/-- EVENT_SEQUENCE takes a source's oldest event, numbers it and writes its record to a host ring with room, when a host
takes it. A request whose window, rights or bounds fail is answered with a remote-access NAK. A congestion
notification may go with any answer. A write that maps is performed and then acknowledged; a read that meets no poison
answers its bytes; window 0 always maps; an aligned atomic of window 0 on clean memory updates its doubleword and
answers the old value. SEND, RECV, unreliable transport and immediate data get an invalid-request NAK. A stream,
request, reply or barrier frame that is next in order of a standing pair is accepted, performed and acknowledged; an
acknowledgement in order of a standing pair is taken; a frame of a lost pair or out of order is dropped.
Unacknowledged frames go out again after 16 us of the base die's clock, and after 32 times the pair is lost. (R420,
R422, R424, R425, R427, R428, R429, R370) -/
def Obligations.HostAndPeerSteps : Prop :=
  ∀ s : State,
    let answers := fun (r : Sent) => s.reply r
    (∀ (src : Byte) e, s.outside.events.find? (·.source == src) = some e →
      let seq := s.outside.evSeq
      let f := e.fault.bind fun id => s.caches.faults.find? (·.id == id)
      let taken := fun (q : State) => q.onOutside fun o => { o with events := o.events.erase e, evSeq := seq + 1, dropped := o.dropped.filter (·.1 != src) }
      let entry := e.record seq (assoc 0 s.outside.dropped src) (s.clock.toNat / 1024 % 2 ^ 32)
      (s.ringFor e f = none → exec (.eventSequence src.toNat) s = .next ((taken s).numberReported e seq false false)) ∧
      (∀ off, s.ringFor e f = some off → let r := s.ring off
        (r.producer - r.consumer).toNat < r.size →
        let q := (s.writeHome (r.base + 32 * (r.producer.toNat % r.size)) entry .normal).setWord (r.at_ + 12) (r.producer + 1)
        exec (.eventSequence src.toNat) s = .next ((taken q).numberReported e seq true (off == 0 && e.cls == 1))) ∧
      ((s.duty 6 = false ∧ s.duty 0 = false ∧ s.duty 1 = false ∧ s.duty 3 = false) → s.ringFor e f = none)) ∧
    (∀ (key : Word) (off v w : DWord) (data : List Byte) n,
      (s.windowFor key off data.length 1 = none → exec (.rdmaWrite key off data) s = .next (answers .nakAccess)) ∧
      (s.windowFor key off n 0 = none → exec (.rdmaRead key off n) s = .next (answers .nakAccess)) ∧
      (s.windowFor key off 8 2 = none →
        exec (.atomicFetchAdd key off v) s = .next (answers .nakAccess) ∧ exec (.atomicCompareSwap key off v w) s = .next (answers .nakAccess)) ∧
      (∀ x ms s1, s.windowFor key off data.length 1 = some x → s.mapWindow x { kind := .window, wr := true } (x.base + off) data.length = (s1, .ok ms) →
        exec (.rdmaWrite key off data) s = .next ((s1.writePieces none 0 ms data).reply .ack)) ∧
      (∀ x need, x.index = 0 → ∃ ms, s.mapWindow x need (x.base + off) n = (s, .ok ms)) ∧
      (∀ x ms s1 s2 bs, s.windowFor key off n 0 = some x → s.mapWindow x { kind := .window } (x.base + off) n = (s1, .ok ms) →
        s1.readPieces none 0 ms = (s2, bs, bs.map fun _ => false) → ∃ q : State, exec (.rdmaRead key off n) s = .next (q.reply (.data bs)) ∧ q.mem = s2.mem) ∧
      (∀ x s1 old, s.windowFor key off 8 2 = some x → x.index = 0 → (x.base + off).toNat % 8 = 0 → ∀ f : DWord → DWord,
        s.homeRmw (x.base + off).toNat 8 .normal f = (s1, old, false) →
        ∀ i ∈ [Instr.atomicFetchAdd key off v, .atomicCompareSwap key off v w],
          (f = match i with | .atomicFetchAdd _ _ _ => fun o => o + v | _ => fun o => if o = v then w else o) →
          ∃ q : State, exec i s = .next (q.reply (.data (u64 old.toNat))) ∧ q.mem = s1.mem)) ∧
    (∀ op, exec (.invalidRequestNak op) s = .next (answers .nakInvalid)) ∧
    (∀ r, (s.reply r).outside.sent = s.outside.sent ++ [r] ∨ (s.reply r).outside.sent = s.outside.sent ++ [r, .notify]) ∧
    (∃ port pair, port < 8 ∧ exec .congestionNotification s = .next (s.freeValue.2.sendOut [.slow port pair])) ∧
    (∀ bs f, s.parseFrame bs = some f →
      let p := s.pairOf f.src
      let ready := (s.takeAck f).setPair { (s.takeAck f).pairOf f.src with expect := ((s.takeAck f).pairOf f.src).expect + 1 }
      (p.lost = false → f.kind = 4 → f.seq = p.expect → exec (.norzenAck bs) s = .next (s.takeAck f)) ∧
      (p.lost = true ∨ f.seq ≠ p.expect → exec (.norzenFrameDrop bs) s = .next s ∧
        ∀ i ∈ [Instr.norzenStream bs, .norzenMemoryRequest bs, .norzenMemoryReply bs, .norzenPodBarrier bs, .norzenAck bs], ∀ t, exec i s ≠ .next t) ∧
      (p.lost = false → f.seq = p.expect →
        (f.kind = 0 → exec (.norzenStream bs) s = .next ((ready.streamEntries f.src f.body (f.body.length / 12)).sendAck f.src)) ∧
        (f.kind = 1 → ∀ q a, ready.answerRequest (Request.ofBytes f.body) = some (q, a) →
          exec (.norzenMemoryRequest bs) s = .next ((q.sendFrame f.src 2 (a.bytes (le32 f.body 0))).sendAck f.src)) ∧
        (f.kind = 2 → ∀ r, (ready.outside.remotes.find? fun r => r.id == (le32 f.body 0).toNat && r.part == f.src) = some r →
          exec (.norzenMemoryReply bs) s = .next ((ready.takeAnswer r (answerOf r.instr f.body)).sendAck f.src)) ∧
        (f.kind = 3 → let q := ready.onOutside fun o => { o with podArrivals := o.podArrivals ++ [(le32 f.body 0, f.src)] }
          exec (.norzenPodBarrier bs) s = .next (q.sendAck f.src)))) ∧
    (∀ bs, s.parseFrame bs = none → exec (.norzenFrameDrop bs) s = .next s) ∧
    (∀ part, let x := s.pairOf part
      let late := fun (u : Word × List Byte × Nat × Nat) => u.2.2.1 + 32000 ≤ s.baseClk
      x.lost = false → (∃ u ∈ x.unacked, late u) →
      ((∀ u ∈ x.unacked, late u → u.2.2.2 < 32) → ∃ t, exec (.frameResend part) s = .next t ∧
        t.outside.sent = s.outside.sent ++ (s.dueFrames x).flatMap (fun u => s.datagram part u.2.1) ∧
        (t.pairOf part).unacked = x.unacked.map fun u => if decide (late u) then (u.1, u.2.1, s.baseClk, u.2.2.2 + 1) else u) ∧
      ((∃ u ∈ x.unacked, late u ∧ 32 ≤ u.2.2.2) →
        let q := (s.setPair { x with lost := true, unacked := [] }).severConnections fun c => chanPart c.peer == part
        let r := (q.outside.remotes.filter fun r => r.part == part && r.reply.isNone).foldl State.loseRemote q
        exec (.pairLost part) s = .next ((r.launches.filter fun l => l.pkt.podCount != 0 && r.otherParts.contains part && !l.terminated).foldl State.terminate r)))

/-- With a command of its code at the mailbox's head, each command step performs it and writes STATUS 0, or refuses it
with STATUS 1: in the duty mode that leaves it to the device, or where what it names is not there. GROUP_RESUME and
TERMINATE of the device's own service act on a halted group. DUTY_SET copies DUTY_REQ; CTX_SETUP adds the context of
its descriptor; CTX_TEARDOWN removes everything of it. RESET leaves the reset state, firmware booted; it keeps only
the model's own counters and agenda. The clock falls by 100 MHz to no less than 1500 MHz and rises to no more than
3000 MHz, 3000 being its reset value; once a second of the base die's clock the counters are written. (R401, R419,
R430, R431, R432, R433, R435, R436, R437) -/
def Obligations.CommandsResetAndPower : Prop :=
  ∀ s : State,
    let done := fun (i : Instr) (c : Command) (t : State) => exec i s = .next (t.answer c true)
    let refused := fun (i : Instr) (c : Command) => exec i s = .next (s.answer c false)
    (∀ c, s.command 3 = some c →
      (s.duty 6 = false → refused (.groupResume none) c) ∧
      (s.duty 6 = true → (s.haltedBy true c.arg0.toNat = none → refused (.groupResume none) c) ∧
        ∀ g, s.haltedBy true c.arg0.toNat = some g → done (.groupResume none) c (s.resumeGroup g))) ∧
    (∀ k g, s.haltedBy false k = some g →
      let runs := fun (x : Group) => { x with halted := false, haltSeq := none, haltHost := false }
      exec (.groupResume (some k)) s = .next (s.resumeGroup g) ∧ (s.resumeGroup g).groups = (s.onGroup g.uid runs).groups ∧
      ∀ w l, s.wg? g.wg = some w → s.launch? w.launch = some l → exec (.terminate (some k)) s = .next (s.terminate l)) ∧
    (∀ c, s.command 4 = some c →
      let named := s.launches.find? fun l => l.queue == c.arg0.toNat && l.seq.toNat == c.arg1.toNat
      (named = none → refused (.terminate none) c) ∧ (∀ l, named = some l → done (.terminate none) c (s.terminate l))) ∧
    (∀ c, s.command 5 = some c →
      let named := s.wgs.find? fun w => w.core == c.arg0.toNat && w.work == c.arg1.toNat && w.status == .running
      (s.duty 7 = false → refused .preempt c) ∧
      (s.duty 7 = true → (named = none → done .preempt c s) ∧
        ∀ w, named = some w → done .preempt c (s.stopWgs (s.wholeCoops [w.uid]) (s.wantedBy w)))) ∧
    (∀ c, s.command 6 = some c → let id := c.arg0.toNat % 4096
      (s.duty 1 = false → refused .spillGrow c) ∧
      (∀ x, s.ctx? id = some x → (c.arg1.toNat ≤ x.spillSize.toNat → refused .spillGrow c) ∧
        (s.duty 1 = true → x.spillSize.toNat < c.arg1.toNat → c.arg1.toNat < 2 ^ 32 → c.arg1.toNat % 2048 = 0 →
          let t := s.onCtx id fun x => { x with spillSize := lo32 c.arg1 }
          done .spillGrow c ((t.caches.faults.filter fun f => f.isFrame id).foldl State.replayFault t)))) ∧
    (∀ c code i duty, (code, i, duty) ∈ [(7, Instr.regionEnd, 3), (13, .regionSave, 7)] → s.command code = some c →
      (s.duty duty = false → refused i c) ∧
      (s.duty duty = true →
        (c.arg0.getLsbD 8 = true → (s.namedRegion c s.engines.savedRegions = none → refused i c) ∧
          ∀ r, s.namedRegion c s.engines.savedRegions = some r → done i c (s.askRestore r)) ∧
        (c.arg0.getLsbD 8 = false → ∀ r, s.namedRegion c s.engines.regions = some r →
          (i = .regionEnd → r.state ∈ [RegState.unarmed, .armed, .frozen, .aborted] → done i c (s.freeRegion r)) ∧
          (i = .regionSave → r.state = .running → done i c (s.startDrain [(r.stack, r.first)])) ∧
          (i = .regionSave → r.state ≠ .running → refused i c)))) ∧
    (∀ c, s.command 8 = some c → let f := s.outside.fw
      let body := digestBytes f.meas ++ u32 f.svn ++ u64 Config.serial.toNat
      let seed := Config.identitySeed f.meas
      let told := digestBytes (sha512 (s.peek c.arg1.toNat 32 ++ body))
      done .attest c (s.writeRun (c.arg1.toNat + 32) (body ++ natToBytes 32 (ed25519Key seed).toNat ++ natToBytes 64 (ed25519Sign seed told).toNat))) ∧
    (∀ c, s.command 9 = some c → let image := s.peek (homedBase + 0x80000) c.arg0.toNat
      (0x80000 < c.arg0.toNat ∨ imageAccepted image = false → refused .flashImage c) ∧
      (c.arg0.toNat ≤ 0x80000 → imageAccepted image = true →
        let flash := fun (o : Outside) => { o with fw := { o.fw with flash := image } }
        done .flashImage c (s.onOutside flash))) ∧
    (∀ c, s.command 12 = some c → let t := { s with dutyMode := s.word (controlBlock + 0x70) &&& 0xFF }
      done .dutySet c t) ∧
    (∀ c, s.command 10 = some c →
      (s.newContext c = none → refused .ctxSetup c) ∧
      (∀ x t u, s.newContext c = some x → s.declinedOf .host = none → s.isParked .host = false →
        let q := { s with ctxs := s.ctxs ++ [x] }
        q.partWrite (hostParty x.id) .spill x.spillBase x.bitmap = (t, .ok u) → done .ctxSetup c t ∧ x.id = c.arg0.toNat % 4096 ∧ x.id ≠ 0 ∧ s.ctx? x.id = none)) ∧
    (∀ c, s.command 11 = some c → let id := c.arg0.toNat % 4096
      (s.teardownRefused id = true → refused .ctxTeardown c) ∧
      (s.teardownRefused id = false → let t := (s.endRegions id).cancelCmds fun d => d.ctx == id
        (∀ d ∈ t.engines.cmds, d.ctx ≠ id) → done .ctxTeardown c (t.clearContext id) ∧
          (t.clearContext id).ctxs = t.ctxs.filter (fun x => x.id != id) ∧
          (∀ u ∈ (t.clearContext id).savedUnits, u.ctx ≠ id) ∧ ∀ b ∈ (t.clearContext id).bounds, b.ctx ≠ id)) ∧
    (∃ t, exec .reset s = .next t ∧ t.outside.fw = s.outside.fw.boot ∧ t.agenda = s.agenda ∧ t.ticks = s.ticks ∧ t.free = s.free ∧
      { t with outside := State.reset.outside, agenda := State.reset.agenda, ticks := State.reset.ticks, free := State.reset.free } = State.reset) ∧
    (1600 ≤ s.dieMHz → exec .powerThrottle s = .next { s with dieMHz := s.dieMHz - 100 }) ∧
    (s.dieMHz < 3000 → exec .throttleRelease s = .next { s with dieMHz := min 3000 (s.dieMHz + 100) }) ∧
    (s.outside.reported + 2000000000 ≤ s.baseClk → ∃ t, exec .counterReport s = .next t ∧ t.outside.reported = s.baseClk)

end
end

