-- ==== Sys2Proof/Laws/Gang.lean ====
section
/-! SUPPORT. What the operations over a gang come to: a lane instruction, one that each slice performs for itself, and one
that the gang performs as a whole. -/

namespace Sys2Proof.Machine

/-! ### Lookups -/

theorem State.slice?_uid {s : State} {u : Nat} {x : Slice} (h : s.slice? u = some x) : x.uid = u := by
  simpa using List.find?_some h

theorem State.slice?_of_cur {s : State} {x : Slice} (h : x ∈ s.curSlices) : s.slice? x.uid = some x ∧ x.uid ∈ s.cur := by
  simp only [State.curSlices, List.mem_filterMap] at h
  obtain ⟨u, hu, hx⟩ := h
  have := State.slice?_uid hx
  subst this
  exact ⟨hx, hu⟩

theorem find?_map_uid (xs : List Slice) (f : Slice → Slice) (hf : ∀ x, (f x).uid = x.uid) (u : Nat) :
    (xs.map f).find? (·.uid == u) = (xs.find? (·.uid == u)).map f := by
  induction xs with
  | nil => rfl
  | cons x xs ih =>
    by_cases h : x.uid = u
    · simp [hf, h]
    · simp [hf, h, ih]

/-- Slices changed one by one, each keeping its uid. -/
theorem State.slice?_map (s : State) (f : Slice → Slice) (hf : ∀ x, (f x).uid = x.uid) (u : Nat) :
    ({ s with slices := s.slices.map f } : State).slice? u = (s.slice? u).map f :=
  find?_map_uid _ _ hf _

theorem State.slice?_onSlice (s : State) (v : Nat) (f : Slice → Slice) (hf : ∀ x, (f x).uid = x.uid) (u : Nat) :
    (s.onSlice v f).slice? u = (s.slice? u).map fun x => if x.uid = v then f x else x := by
  rw [State.onSlice, updateWhere, State.slice?_map]
  · simp
  · intro x; split <;> simp [hf]

theorem State.onSlice_rest (s : State) (v : Nat) (f : Slice → Slice) : s.onSlice v f = { s with slices := (s.onSlice v f).slices } := rfl

/-! ### Gangs part -/

theorem State.others_onSlice (s : State) (v : Nat) (f : Slice → Slice) : (s.onSlice v f).others = s.others := rfl
theorem State.others_onGroup (s : State) (v : Nat) (f : Group → Group) : (s.onGroup v f).others = s.others := rfl
theorem State.others_fresh (s : State) : s.fresh.2.others = s.others := rfl

/-- A slice whose gang number alone may change. -/
def State.Regangs (s t : State) (us : List Nat) : Prop :=
  (∀ u x, s.slice? u = some x → ∃ g, t.slice? u = some { x with gang := g }) ∧
  (∀ u, u ∉ us → t.slice? u = s.slice? u) ∧ t.groups = s.groups ∧ t.others = s.others

theorem State.Regangs.refl (s : State) (us : List Nat) : s.Regangs s us := ⟨fun _ x h => ⟨x.gang, h⟩, fun _ _ => rfl, rfl, rfl⟩

theorem State.partSlices_regangs (us : List Nat) (s : State) : s.Regangs (s.partSlices us) us := by
  induction us generalizing s with
  | nil => exact .refl s []
  | cons v us ih =>
    obtain ⟨h1, h2, h3, h4⟩ := ih (s.fresh.2.onSlice v fun x => { x with gang := s.fresh.1 })
    have step : ∀ u, (s.fresh.2.onSlice v fun x => { x with gang := s.fresh.1 }).slice? u =
        (s.slice? u).map fun x => if x.uid = v then { x with gang := s.fresh.1 } else x := fun u => by
      rw [State.slice?_onSlice]
      · rfl
      · intro x; rfl
    refine ⟨fun u x hx => ?_, fun u hu => ?_, h3, h4⟩
    · have := step u
      rw [hx, Option.map_some] at this
      obtain ⟨g, hg⟩ := h1 u _ this
      refine ⟨g, hg.trans ?_⟩
      split <;> rfl
    · simp only [List.mem_cons, not_or] at hu
      refine (h2 u hu.2).trans ?_
      rw [step]
      cases h : s.slice? u with
      | none => rfl
      | some x => simp [State.slice?_uid h, hu.1]

theorem State.partIfApart_regangs (us : List Nat) (s : State) : s.Regangs (s.partIfApart us) us := by
  unfold State.partIfApart
  split
  · exact .refl s us
  · split
    · exact .refl s us
    · exact s.partSlices_regangs us

/-! ### Flags -/

theorem State.raise_slices (s : State) (g : Nat) (f : Flags) : (s.raise g f).slices = s.slices ∧ (s.raise g f).others = s.others := by
  unfold State.raise; split <;> exact ⟨rfl, rfl⟩

theorem State.raiseAll_slices (xs : List (Nat × Flags)) (s : State) :
    (s.raiseAll xs).slices = s.slices ∧ (s.raiseAll xs).others = s.others := by
  induction xs generalizing s with
  | nil => exact ⟨rfl, rfl⟩
  | cons x xs ih =>
    have h := ih (s.raise x.1 x.2)
    exact ⟨h.1.trans (s.raise_slices x.1 x.2).1, h.2.trans (s.raise_slices x.1 x.2).2⟩

/-- What is raised does not depend on the slices. -/
theorem State.raiseAll_groups (xs : List (Nat × Flags)) (s t : State) (h : s.groups = t.groups) :
    (s.raiseAll xs).groups = (t.raiseAll xs).groups := by
  induction xs generalizing s t with
  | nil => exact h
  | cons x xs ih =>
    refine ih (s.raise x.1 x.2) (t.raise x.1 x.2) ?_
    unfold State.raise
    split
    · exact h
    · show updateWhere _ _ _ = updateWhere _ _ _
      rw [h]

/-- Nothing is raised by instructions without exceptions. -/
theorem State.raiseAll_clean (xs : List (Nat × Flags)) (s : State) (h : ∀ x ∈ xs, x.2.word = 0) : s.raiseAll xs = s := by
  induction xs generalizing s with
  | nil => rfl
  | cons x xs ih =>
    have hx : s.raise x.1 x.2 = s := if_pos (h x (by simp))
    show (s.raise x.1 x.2).raiseAll xs = s
    rw [hx]
    exact ih s fun y hy => h y (by simp [hy])

/-! ### Lane instructions (R249) -/

theorem Slice.setTop_frames (x : Slice) (f : Frame) : (x.setTop f).frames = f :: x.frames.tail := rfl
theorem Slice.setTop_top (x : Slice) (f : Frame) : (x.setTop f).top = f := rfl

theorem State.slice?_of_slices {s t : State} (h : s.slices = t.slices) (u : Nat) : s.slice? u = t.slice? u := by
  unfold State.slice?; rw [h]

theorem Slice.arrive_uid (n : Nat) (x : Slice) : (Slice.arrive n x).uid = x.uid := by
  induction n generalizing x with
  | zero => rfl
  | succ n ih =>
    unfold Slice.arrive
    split
    · rfl
    · split
      · rfl
      · split
        · rw [ih]; rfl
        · rfl

theorem Slice.land_uid (x : Slice) (pc : DWord) : (x.land pc).uid = x.uid := Slice.arrive_uid _ _

theorem Slice.writeReg_uid (x : Slice) (d : Dst) (n : Nat) (r : Reg) (take : BitVec 4) (z : Bool) :
    (x.writeReg d n r take z).uid = x.uid := by cases d <;> rfl

theorem foldl_uid {α : Type} (f : Slice → α → Slice) (hf : ∀ x a, (f x a).uid = x.uid) (as : List α) (x : Slice) :
    (as.foldl f x).uid = x.uid := by
  induction as generalizing x with
  | nil => rfl
  | cons a as ih => rw [List.foldl_cons, ih, hf]

theorem Slice.writeResult_uid (x : Slice) (d : Dst) (rs : List Reg) (take : BitVec 4) (z : Bool) :
    (x.writeResult d rs take z).uid = x.uid :=
  (foldl_uid (fun (x : Slice) r => x.pushLrf r take) (fun _ _ => rfl) _ _).trans
    (foldl_uid (fun (x : Slice) (r : Reg × Nat) => x.writeReg d r.2 r.1 take z) (fun x r => x.writeReg_uid d r.2 r.1 take z) _ _)

theorem Slice.commit_uid (x : Slice) (i : Instr) (p : Option Pfx) (v : Eval) : (x.commit i p v).uid = x.uid := by
  unfold Slice.commit
  show (Slice.land _ _).uid = _
  rw [Slice.land_uid]
  simp only [Slice.stepLatch]
  split <;> split <;> simp [Slice.writeResult_uid, Slice.setMask]

/-- A lane instruction at which no slice traps is committed by the whole gang. -/
theorem State.runLanes_next {s : State} {i : Instr} {p : Option Pfx} {srcs : Slice → Env → List Reg} {eval : Slice → Env → Eval}
    {extra : Slice → Env → Option TrapInfo} {home : Slice → Bool} (h : s.GangAble i p srcs)
    (hx : ∀ x ∈ s.curSlices, extra x (s.env x) = none) (hg : ∀ x ∈ s.curSlices, (x.guest.isSome && home x) = false) :
    s.runLanes i p srcs eval extra home = .next (s.commitAll i p eval) := by
  have traps : s.laneTraps i p srcs extra = [] := by
    refine List.filterMap_eq_nil_iff.2 fun x hm => ?_
    have a := h.2 x hm
    have hi : s.issueTrap i x (s.env x) (srcs x (s.env x)) (takeOf x p) = none := by
      unfold State.issueTrap
      have : (srcs x (s.env x)).any (·.poisoned (takeOf x p)) = false := by
        simpa using a.clean
      simp [a.declined, a.inFrame, a.allowed, this]
    rw [hi, hx x hm]; rfl
  have away : (s.curSlices.filter fun x => x.guest.isSome && home x) = [] := List.filter_eq_nil_iff.2 fun x hm => by simp [hg x hm]
  simp [State.runLanes, State.issue, h.1, traps, away]

theorem State.commitAll_spec (s : State) (i : Instr) (p : Option Pfx) (eval : Slice → Env → Eval) :
    (∀ x ∈ s.curSlices, ∃ g, (s.commitAll i p eval).slice? x.uid = some { x.commit i p (eval x (s.env x)) with gang := g }) ∧
    (∀ u, u ∉ s.cur → (s.commitAll i p eval).slice? u = s.slice? u) ∧
    (s.commitAll i p eval).others = s.others ∧
    ((s.commitAll i p eval).groups = (s.raiseAll (s.curSlices.map fun x => (x.group, (eval x (s.env x)).flags))).groups) ∧
    ((∀ x ∈ s.curSlices, (eval x (s.env x)).flags.word = 0) → (s.commitAll i p eval).groups = s.groups) := by
  let f : Slice → Slice := fun x => if s.cur.contains x.uid then x.commit i p (eval x (s.env x)) else x
  let t : State := { s with slices := s.slices.map f }
  let fl := s.curSlices.map fun x => (x.group, (eval x (s.env x)).flags)
  have hc : s.commitAll i p eval = (t.raiseAll fl).partIfApart s.cur := rfl
  have hf : ∀ x, (f x).uid = x.uid := fun x => by
    show (if _ then _ else _ : Slice).uid = _
    split <;> simp [Slice.commit_uid]
  have ht : ∀ u, (t.raiseAll fl).slice? u = (s.slice? u).map f := fun u => by
    rw [State.slice?_of_slices (t.raiseAll_slices fl).1]
    exact s.slice?_map f hf u
  obtain ⟨h1, h2, h3, h4⟩ := (t.raiseAll fl).partIfApart_regangs s.cur
  rw [hc]
  refine ⟨fun x hx => ?_, fun u hu => ?_, h4.trans (t.raiseAll_slices fl).2, h3.trans (State.raiseAll_groups _ _ _ rfl), fun hclean => ?_⟩
  · obtain ⟨hs, hu⟩ := State.slice?_of_cur hx
    refine h1 x.uid _ ?_
    rw [ht, hs, Option.map_some]
    show some (if _ then _ else _) = _
    rw [if_pos (by simpa using hu)]
  · rw [h2 u hu, ht]
    cases h : s.slice? u with
    | none => rfl
    | some x =>
      rw [Option.map_some]
      show some (if _ then _ else _) = _
      rw [State.slice?_uid h, if_neg (by simpa using hu)]
  · rw [h3, t.raiseAll_clean fl fun q hq => ?_]
    obtain ⟨x, hx, rfl⟩ := List.mem_map.1 hq
    exact hclean x hx

end Sys2Proof.Machine
end

