-- ==== Sys2Proof/Laws/Registers.lean ====
section
/-! SUPPORT. Registers: what a result leaves in them, lane by lane. -/

namespace Sys2Proof.Machine

theorem L4.get_ofFn {α : Type} (f : Nat → α) {l : Nat} (h : l < 4) : (L4.ofFn f).get l = f l := by
  match l, h with
  | 0, _ | 1, _ | 2, _ | 3, _ => rfl

theorem nth_setNth {α : Type} (d : α) (xs : List α) (i j : Nat) (v : α) (h : j < xs.length) :
    nth d (setNth xs i v) j = if j = i then v else nth d xs j := by
  induction xs generalizing i j with
  | nil => simp at h
  | cons x xs ih =>
    cases i with
    | zero => cases j <;> simp [setNth, nth]
    | succ i =>
      cases j with
      | zero => simp [setNth, nth]
      | succ j =>
        have := ih i j (by simpa using h)
        simpa [setNth, nth] using this

theorem length_setNth {α : Type} (xs : List α) (i : Nat) (v : α) : (setNth xs i v).length = xs.length := by
  induction xs generalizing i with
  | nil => rfl
  | cons x xs ih => cases i <;> simp [setNth, ih]

theorem getLsbD_full {l : Nat} (h : l < 4) : (0xF#4).getLsbD l = true := by
  match l, h with
  | 0, _ | 1, _ | 2, _ | 3, _ => rfl

/-- The lanes of a register after a result under a mask. -/
theorem Reg.lane_merge (old new : Reg) (take : BitVec 4) (z : Bool) {l : Nat} (h : l < 4) :
    (old.merge new take z).lane l = mergedWord (take.getLsbD l) z (old.lane l) (new.lane l) := by
  unfold Reg.merge mergedWord
  split
  · next ht => subst ht; simp [getLsbD_full h]
  · split
    · exact L4.get_ofFn _ h
    · exact L4.get_ofFn _ h

theorem Reg.expand_get (r : Reg) {l : Nat} (h : l < 4) : r.expand.get l = r.lane l := L4.get_ofFn _ h

/-- What writing registers to a destination leaves as it is. -/
structure Slice.SameLocal (x w : Slice) : Prop where
  frames : w.frames.tail = x.frames.tail ∧ { w.top with regs := x.top.regs } = x.top ∧ w.top.regs.length = x.top.regs.length
  sof : w.sof.length = x.sof.length
  lrf : w.lrf = x.lrf
  due : w.lrfDue = x.lrfDue
  latch : w.latch = x.latch
  masks : w.masks = x.masks
  seeds : w.seeds = x.seeds
  fmt : w.fmt = x.fmt
  rest : w.others = x.others

theorem Slice.SameLocal.trans {x y z : Slice} (h : x.SameLocal y) (k : y.SameLocal z) : x.SameLocal z where
  frames := ⟨k.frames.1.trans h.frames.1, by
      have h1 := h.frames.2.1
      have k1 := k.frames.2.1
      rw [← h1, ← k1], k.frames.2.2.trans h.frames.2.2⟩
  sof := k.sof.trans h.sof
  lrf := k.lrf.trans h.lrf
  due := k.due.trans h.due
  latch := k.latch.trans h.latch
  masks := k.masks.trans h.masks
  seeds := k.seeds.trans h.seeds
  fmt := k.fmt.trans h.fmt
  rest := k.rest.trans h.rest

theorem Slice.SameLocal.refl (x : Slice) : x.SameLocal x := ⟨⟨rfl, rfl, rfl⟩, rfl, rfl, rfl, rfl, rfl, rfl, rfl, rfl⟩

theorem Slice.writeReg_same (x : Slice) (d : Dst) (n : Nat) (r : Reg) (take : BitVec 4) (z : Bool) : x.SameLocal (x.writeReg d n r take z) := by
  cases d with
  | v i => exact ⟨⟨rfl, rfl, length_setNth _ _ _⟩, rfl, rfl, rfl, rfl, rfl, rfl, rfl, rfl⟩
  | o i => exact ⟨⟨rfl, rfl, rfl⟩, length_setNth _ _ _, rfl, rfl, rfl, rfl, rfl, rfl, rfl⟩
  | zero => exact .refl x

theorem Slice.writeReg_v (x : Slice) (d : Dst) (n : Nat) (r : Reg) (take : BitVec 4) (z : Bool) {i l : Nat} (hl : l < 4)
    (hi : i < x.top.regs.length) : (x.writeReg d n r take z).vWord i l = match d with
      | .v k => if i = k.val + n then mergedWord (take.getLsbD l) z (x.vWord i l) (r.lane l) else x.vWord i l
      | _ => x.vWord i l := by
  cases d with
  | v k =>
    show (nth (.u 0) (setNth x.top.regs (k.val + n) ((nth (.u 0) x.top.regs (k.val + n)).merge r take z)) i : Reg).lane l = _
    rw [nth_setNth _ _ _ _ _ hi]
    by_cases h : i = k.val + n
    · subst h
      simp only [if_true]
      exact Reg.lane_merge _ _ _ _ hl
    · simp only [h, if_false]; rfl
  | o k => rfl
  | zero => rfl

theorem Slice.writeReg_o (x : Slice) (d : Dst) (n : Nat) (r : Reg) (take : BitVec 4) (z : Bool) {j l : Nat} (hl : l < 4)
    (hj : j < x.sof.length) : (x.writeReg d n r take z).oWord j l = match d with
      | .o k => if j = k.val + n then mergedWord (take.getLsbD l) z (x.oWord j l) (r.lane l) else x.oWord j l
      | _ => x.oWord j l := by
  cases d with
  | v k => rfl
  | o k =>
    show (nth (L4.ofFn fun _ => {}) (setNth x.sof (k.val + n) (((.general (nth (L4.ofFn fun _ => {}) x.sof (k.val + n)) : Reg).merge r take z).expand)) j : L4 LaneWord).get l = _
    rw [nth_setNth _ _ _ _ _ hj]
    by_cases h : j = k.val + n
    · subst h
      simp only [if_true]
      rw [Reg.expand_get _ hl]
      exact Reg.lane_merge _ _ _ _ hl
    · simp only [h, if_false]; rfl
  | zero => rfl

/-- One write after another: register i of a file whose first write goes to register k. -/
theorem merge_cons (k : Nat) (r : Reg) (rs : List Reg) (take : BitVec 4) (z : Bool) (old : LaneWord) (i l : Nat) :
    (if k + 1 ≤ i ∧ i < k + 1 + rs.length then
        mergedWord (take.getLsbD l) z (if i = k then mergedWord (take.getLsbD l) z old (r.lane l) else old) ((nth (.u 0) rs (i - (k + 1))).lane l)
      else (if i = k then mergedWord (take.getLsbD l) z old (r.lane l) else old)) =
    if k ≤ i ∧ i < k + (rs.length + 1) then mergedWord (take.getLsbD l) z old ((nth (.u 0) (r :: rs) (i - k)).lane l) else old := by
  by_cases h : i = k
  · subst h
    rw [if_neg (by omega), if_pos rfl, if_pos (by omega), Nat.sub_self]; rfl
  · by_cases h1 : k + 1 ≤ i ∧ i < k + 1 + rs.length
    · obtain ⟨q, rfl⟩ : ∃ q, i = k + 1 + q := ⟨i - (k + 1), by omega⟩
      rw [if_pos h1, if_neg h, if_pos (by omega), show k + 1 + q - (k + 1) = q by omega, show k + 1 + q - k = q + 1 by omega]; rfl
    · rw [if_neg h1, if_neg h, if_neg (by omega)]

/-- Registers written one after another from register m of the destination on. -/
theorem Slice.writeRegs (d : Dst) (take : BitVec 4) (z : Bool) (rs : List Reg) (m : Nat) (x : Slice) :
    let w := (rs.zipIdx m).foldl (fun (x : Slice) (r : Reg × Nat) => x.writeReg d r.2 r.1 take z) x
    x.SameLocal w ∧
    (∀ i l, l < 4 → i < x.top.regs.length → w.vWord i l =
      afterResult ((vFirst d).map (· + m)) rs.length take z x.vWord (fun k l => (nth (.u 0) rs k).lane l) i l) ∧
    (∀ j l, l < 4 → j < x.sof.length → w.oWord j l =
      afterResult ((oFirst d).map (· + m)) rs.length take z x.oWord (fun k l => (nth (.u 0) rs k).lane l) j l) := by
  induction rs generalizing m x with
  | nil =>
    refine ⟨.refl x, fun i l _ _ => ?_, fun j l _ _ => ?_⟩
    · cases d with
      | v k => exact (if_neg (by simp)).symm
      | _ => rfl
    · cases d with
      | o k => exact (if_neg (by simp)).symm
      | _ => rfl
  | cons r rs ih =>
    obtain ⟨h1, h2, h3⟩ := ih (m + 1) (x.writeReg d m r take z)
    have hs := x.writeReg_same d m r take z
    refine ⟨hs.trans h1, fun i l hl hi => ?_, fun j l hl hj => ?_⟩
    · refine (h2 i l hl (by rw [hs.frames.2.2]; exact hi)).trans ?_
      cases d with
      | v k =>
        show (if _ then _ else _) = if _ then _ else _
        rw [x.writeReg_v (.v k) m r take z hl hi]
        exact merge_cons (k.val + m) r rs take z _ i l
      | _ => exact x.writeReg_v _ m r take z hl hi
    · refine (h3 j l hl (by rw [hs.sof]; exact hj)).trans ?_
      cases d with
      | o k =>
        show (if _ then _ else _) = if _ then _ else _
        rw [x.writeReg_o (.o k) m r take z hl hj]
        exact merge_cons (k.val + m) r rs take z _ j l
      | _ => exact x.writeReg_o _ m r take z hl hj

theorem lrfReg_lane (r : Reg) (take : BitVec 4) {l : Nat} (h : l < 4) :
    (lrfReg r take).lane l = if take.getLsbD l then r.lane l else {} := by
  unfold lrfReg
  split
  · next ht => subst ht; simp [getLsbD_full h]
  · exact L4.get_ofFn _ h

theorem Slice.pushAll (take : BitVec 4) (rs : List Reg) (x : Slice) :
    let w := rs.reverse.foldl (fun (x : Slice) r => x.pushLrf r take) x
    w = { x with lrf := w.lrf, lrfDue := dueAfter rs.length x.lrfDue } ∧ (rs ≠ [] → w.lrf = (rs.map fun r => lrfReg r take).take 4 ++ x.lrf.take (4 - rs.length)) ∧
    (rs = [] → w.lrf = x.lrf) := by
  induction rs with
  | nil => exact ⟨rfl, fun h => absurd rfl h, fun _ => rfl⟩
  | cons r rs ih =>
    simp only [List.reverse_cons, List.foldl_append, List.foldl_cons, List.foldl_nil] at ih ⊢
    obtain ⟨h1, h2, h3⟩ := ih
    refine ⟨?_, fun _ => ?_, fun h => by simp at h⟩
    · show _ = { x with lrf := _, lrfDue := dueShift (dueAfter rs.length x.lrfDue) none }
      rw [h1]; rfl
    · show lrfReg r take :: List.take 3 (_ : Slice).lrf = _
      by_cases hr : rs = []
      · subst hr; simp
      · rw [h2 hr]
        simp only [List.map_cons, List.take_succ_cons, List.cons_append, List.length_cons, List.cons.injEq, true_and]
        rw [List.take_append, List.take_take, List.take_take]
        simp only [List.length_take, List.length_map]
        congr 2
        omega

/-- A result of registers whose lanes are known. -/
theorem afterResult_congr {first : Option Nat} {n : Nat} {take : BitVec 4} {z : Bool} {old new new' : Nat → Nat → LaneWord} {i l : Nat}
    (h : ∀ k, k < n → new k l = new' k l) : afterResult first n take z old new i l = afterResult first n take z old new' i l := by
  cases first with
  | none => rfl
  | some k =>
    show (if _ then _ else _) = if _ then _ else _
    refine if_ctx_congr Iff.rfl (fun hk => ?_) fun _ => rfl
    rw [h _ (by omega)]

theorem afterResult_zero {first : Option Nat} {take : BitVec 4} {z : Bool} {old new : Nat → Nat → LaneWord} {i l : Nat} :
    afterResult first 0 take z old new i l = old i l := by
  cases first with
  | none => rfl
  | some k => exact if_neg (by omega)

/-- A slice after a result: the registers written, then pushed. -/
theorem Slice.writeResult_took (x : Slice) (d : Dst) (rs : List Reg) (take : BitVec 4) (z : Bool) (new : Nat → Nat → LaneWord)
    (hn : rs.length ≤ 4) (hv : ∀ k l, l < 4 → k < rs.length → (nth (.u 0) rs k).lane l = new k l) :
    let w := if rs.isEmpty then x else x.writeResult d rs take z
    (∀ i l, l < 4 → i < x.top.regs.length → w.vWord i l = afterResult (vFirst d) rs.length take z x.vWord new i l) ∧
    (∀ j l, l < 4 → j < x.sof.length → w.oWord j l = afterResult (oFirst d) rs.length take z x.oWord new j l) ∧
    (∀ k l, l < 4 → k < 4 → (nth (.u 0) w.lrf k).lane l =
      if k < rs.length then (if take.getLsbD l then new k l else {}) else (nth (.u 0) x.lrf (k - rs.length)).lane l) ∧
    w.lrfDue = dueAfter rs.length x.lrfDue ∧ x.SameLocal { w with lrf := x.lrf, lrfDue := x.lrfDue } := by
  by_cases hr : rs = []
  · subst hr
    exact ⟨fun i l _ _ => afterResult_zero.symm, fun j l _ _ => afterResult_zero.symm, fun k l _ _ => by simp, rfl, .refl x⟩
  · have hw : (if rs.isEmpty then x else x.writeResult d rs take z) = x.writeResult d rs take z := by simp [hr]
    rw [hw]
    obtain ⟨a1, a2, a3⟩ := Slice.writeRegs d take z rs 0 x
    set y := (rs.zipIdx 0).foldl (fun (x : Slice) (r : Reg × Nat) => x.writeReg d r.2 r.1 take z) x with hy
    obtain ⟨b1, b2, _⟩ := Slice.pushAll take rs y
    have he : x.writeResult d rs take z = rs.reverse.foldl (fun (x : Slice) r => x.pushLrf r take) y := rfl
    rw [he, b1]
    refine ⟨fun i l hl hi => (a2 i l hl hi).trans ?_, fun j l hl hj => (a3 j l hl hj).trans ?_, fun k l hl hk => ?_, ?_, ?_⟩
    · rw [show (vFirst d).map (· + 0) = (vFirst d) by simp]
      exact afterResult_congr fun k hk => hv k l hl hk
    · rw [show (oFirst d).map (· + 0) = (oFirst d) by simp]
      exact afterResult_congr fun k hk => hv k l hl hk
    · show (nth (.u 0) (_ : Slice).lrf k).lane l = _
      rw [b2 hr, List.take_of_length_le (by simpa using hn)]
      by_cases h : k < rs.length
      · rw [if_pos h, ← hv k l hl h]
        have : nth (.u 0) ((rs.map fun r => lrfReg r take) ++ y.lrf.take (4 - rs.length)) k = lrfReg (nth (.u 0) rs k) take := by
          simp only [nth, List.getD_eq_getElem?_getD]
          rw [List.getElem?_append_left (by simpa using h), List.getElem?_map, List.getElem?_eq_getElem h]; rfl
        rw [this, lrfReg_lane _ _ hl]
      · rw [if_neg h]
        have : nth (.u 0) ((rs.map fun r => lrfReg r take) ++ y.lrf.take (4 - rs.length)) k = nth (.u 0) x.lrf (k - rs.length) := by
          simp only [nth, List.getD_eq_getElem?_getD]
          rw [List.getElem?_append_right (by simpa using Nat.le_of_not_lt h), List.length_map, List.getElem?_take, if_pos (by omega), a1.lrf]
        rw [this]
    · show dueAfter rs.length y.lrfDue = _
      rw [a1.due]
    · exact ⟨a1.frames, a1.sof, rfl, rfl, a1.latch, a1.masks, a1.seeds, a1.fmt, a1.rest⟩

/-- A slice after a lane instruction has taken its result, and gone on. -/
theorem Slice.commit_took (x : Slice) (i : Instr) (p : Option Pfx) (v : Eval) (new : Nat → Nat → LaneWord) (hn : v.regs.length ≤ 4)
    (hv : ∀ k l, l < 4 → k < v.regs.length → (nth (.u 0) v.regs k).lane l = new k l) :
    ∃ w, x.commit i p v = (w.land (x.after i)).retired ∧
      x.Took w v.dst v.regs.length (takeOf x p) (zeroing p) new v.held
        (match v.mask with | some (k, m) => setNth x.masks k.toNat (mergeMask (x.mask k.toNat) m (takeOf x p) (zeroing p)) | none => x.masks)
        (v.seeds.getD x.seeds) (v.fmt.getD x.fmt) := by
  obtain ⟨h1, h2, h3, hd, h4⟩ := x.writeResult_took v.dst v.regs (takeOf x p) (zeroing p) new hn hv
  set y := if v.regs.isEmpty then x else x.writeResult v.dst v.regs (takeOf x p) (zeroing p) with hy
  let ms := match v.mask with
    | some (k, m) => setNth x.masks k.toNat (mergeMask (x.mask k.toNat) m (takeOf x p) (zeroing p))
    | none => x.masks
  let w : Slice := { y with masks := ms, seeds := v.seeds.getD x.seeds, fmt := v.fmt.getD x.fmt, latch := (x.stepLatch v.held).latch }
  have hm : y.masks = x.masks := h4.masks
  have hs : y.seeds = x.seeds := h4.seeds
  have hf : y.fmt = x.fmt := h4.fmt
  have hl : y.latch = x.latch := h4.latch
  have hpc : y.pc = x.pc := by
    have := congrArg Slice.pc h4.rest
    exact this
  let q : Slice := match v.mask with
    | some (k, m) => y.setMask k.toNat (mergeMask (x.mask k.toNat) m (takeOf x p) (zeroing p))
    | none => y
  have hq : q = { y with masks := ms } := by
    cases hmask : v.mask with
    | none => simp only [q, ms, hmask, ← hm]
    | some km =>
      obtain ⟨k, m⟩ := km
      simp only [q, ms, hmask, Slice.setMask, hm]
  refine ⟨w, ?_, ?_⟩
  · have e : x.commit i p v =
      ((({ q with seeds := v.seeds.getD q.seeds, fmt := v.fmt.getD q.fmt } : Slice).stepLatch v.held).next i).retired := rfl
    have hw : ({ q with seeds := v.seeds.getD q.seeds, fmt := v.fmt.getD q.fmt } : Slice).stepLatch v.held = w := by
      rw [hq]; simp [Slice.stepLatch, w, hs, hf, hl]
    rw [e, hw]
    congr 1
    unfold Slice.next
    congr 1
    simp [Slice.after, w, hpc]
  · exact ⟨h1, h2, h3, hd, rfl, rfl, rfl, rfl, h4.frames, h4.rest⟩

end Sys2Proof.Machine
end

