-- ==== Sys2Proof/Laws/Lanes.lean ====
section
/-! SUPPORT. What the shared forms of lane instructions do: one lemma for each form. -/

namespace Sys2Proof.Machine

theorem afterResult_take {first : Option Nat} {n : Nat} {take : BitVec 4} {z : Bool} {old new new' : Nat → Nat → LaneWord} {i l : Nat}
    (h : ∀ k, k < n → take.getLsbD l = true → new k l = new' k l) :
    afterResult first n take z old new i l = afterResult first n take z old new' i l := by
  cases first with
  | none => rfl
  | some k =>
    show (if _ then _ else _) = if _ then _ else _
    refine if_ctx_congr Iff.rfl (fun hk => ?_) fun _ => rfl
    unfold mergedWord
    split
    · next ht => exact h _ (by omega) ht
    · rfl

/-- Only the lanes that take a result count. -/
theorem Slice.Took.congr {x w : Slice} {d : Dst} {n : Nat} {take : BitVec 4} {z : Bool} {new new' : Nat → Nat → LaneWord} {held : List Reg}
    {masks : List (BitVec 4)} {seeds : L4 Word} {fmt : Word} (h : x.Took w d n take z new held masks seeds fmt)
    (hn : ∀ k l, l < 4 → k < n → take.getLsbD l = true → new k l = new' k l) : x.Took w d n take z new' held masks seeds fmt :=
  { h with
    vRegs := fun i l hl hi => (h.vRegs i l hl hi).trans (afterResult_take fun k hk ht => hn k l hl hk ht)
    oRegs := fun j l hl hj => (h.oRegs j l hl hj).trans (afterResult_take fun k hk ht => hn k l hl hk ht)
    lrf := fun k l hl hk => by
      rw [h.lrf k l hl hk]
      split
      · next hk' =>
        split
        · next ht => exact hn k l hl hk' ht
        · rfl
      · rfl }

/-- A lane instruction that no slice traps at, as a whole. -/
theorem State.runLanes_step {s : State} {i : Instr} {p : Option Pfx} {srcs : Slice → Env → List Reg} {eval : Slice → Env → Eval}
    {extra : Slice → Env → Option TrapInfo} {home : Slice → Bool} {res : Slice → Env → Slice → Prop} (h : s.GangAble i p srcs)
    (hx : ∀ x ∈ s.curSlices, extra x (s.env x) = none) (hg : ∀ x ∈ s.curSlices, (x.guest.isSome && home x) = false)
    (hres : ∀ x ∈ s.curSlices, ∃ w, x.commit i p (eval x (s.env x)) = (w.land (x.after i)).retired ∧ res x (s.env x) w) :
    ∃ t, s.runLanes i p srcs eval extra home = .next t ∧ s.LaneStep t i res ∧
      t.groups = (s.raiseAll (s.curSlices.map fun x => (x.group, (eval x (s.env x)).flags))).groups ∧
      ((∀ x ∈ s.curSlices, (eval x (s.env x)).flags.word = 0) → t.groups = s.groups) := by
  refine ⟨_, s.runLanes_next h hx hg, ?_, (s.commitAll_spec i p eval).2.2.2⟩
  obtain ⟨h1, h2, h3, _⟩ := s.commitAll_spec i p eval
  refine ⟨fun x hm => ?_, h2, fun a => ?_, h3⟩
  · obtain ⟨g, hg⟩ := h1 x hm
    obtain ⟨w, hw, hr⟩ := hres x hm
    exact ⟨w, g, by rw [hg, hw], hr⟩
  · have := congrArg State.mem h3
    exact congrArg (fun m => Memory.get m a) this

/-! ### Results -/

theorem Reg.val_uniform {r : Reg} (h : r.isUniform = true) (l : Nat) : r.val l = r.val 0 := by
  cases r with
  | uniform u => rfl
  | affine b st => simp [Reg.isUniform] at h
  | general w => simp [Reg.isUniform] at h

theorem allUniform_val {rs : List Reg} (h : allUniform rs = true) {r : Reg} (hr : r ∈ rs) (l : Nat) : r.val l = r.val 0 :=
  Reg.val_uniform (by simpa using List.all_eq_true.1 h r hr) l

theorem mkReg_lane {u : Bool} {f : Nat → Word} (h : u = true → ∀ l, l < 4 → f l = f 0) {l : Nat} (hl : l < 4) :
    (mkReg u f).lane l = { val := f l } := by
  cases u with
  | true => simp [mkReg, Reg.u, Reg.lane, h rfl l hl]
  | false =>
    show L4.get ((L4.ofFn f).map _) l = _
    match l, hl with
    | 0, _ | 1, _ | 2, _ | 3, _ => rfl

/-- A slice after a lane instruction with one result word. -/
theorem Slice.commit_word (x : Slice) (i : Instr) (p : Option Pfx) (v : Eval) (r : Reg) (f : Nat → Word)
    (hv : v = { dst := v.dst, held := v.held, regs := [r], flags := v.flags })
    (hr : ∀ l, l < 4 → (takeOf x p).getLsbD l = true → r.lane l = { val := f l }) :
    ∃ w, x.commit i p v = (w.land (x.after i)).retired ∧ x.TookWord w p v.dst f v.held := by
  obtain ⟨w, hw, ht⟩ := x.commit_took i p v (fun _ l => r.lane l) (by rw [hv]; simp) (by
    rw [hv]; intro k l _ hk
    have : k = 0 := by simpa using hk
    subst this; rfl)
  refine ⟨w, hw, ?_⟩
  have e1 : v.regs.length = 1 := by rw [hv]; rfl
  have e2 : v.mask = none := by rw [hv]
  have e3 : v.seeds = none := by rw [hv]
  have e4 : v.fmt = none := by rw [hv]
  rw [e1, e2, e3, e4] at ht
  exact ht.congr fun k l hl _ htk => hr l hl htk

/-- A slice after a lane instruction that writes a mask register. -/
theorem Slice.commit_mask (x : Slice) (i : Instr) (p : Option Pfx) (v : Eval) (k : BitVec 3) (bits : BitVec 4)
    (hv : v = { mask := some (k, bits), held := v.held, flags := v.flags }) :
    ∃ w, x.commit i p v = (w.land (x.after i)).retired ∧ x.TookMask w p k bits v.held := by
  obtain ⟨w, hw, ht⟩ := x.commit_took i p v (fun _ _ => {}) (by rw [hv]; simp) (by rw [hv]; intro k l _ hk; simp at hk)
  refine ⟨w, hw, ?_⟩
  have e1 : v.regs.length = 0 := by rw [hv]; rfl
  have e2 : v.mask = some (k, bits) := by rw [hv]
  have e3 : v.seeds = none := by rw [hv]
  have e4 : v.fmt = none := by rw [hv]
  have e5 : v.dst = .zero := by rw [hv]
  rw [e1, e2, e3, e4, e5] at ht
  exact ht

/-- A lane instruction with a word for each lane and no exception. -/
theorem State.runWord {s : State} {i : Instr} {p : Option Pfx} {d : Dst} {srcs : Slice → Env → List Reg}
    {held : Slice → Env → List Reg} {reg : Slice → Env → Reg} (f : Slice → Env → Nat → Word) (able : s.GangAble i p srcs)
    (hr : ∀ x ∈ s.curSlices, ∀ l, l < 4 → (takeOf x p).getLsbD l = true → (reg x (s.env x)).lane l = { val := f x (s.env x) l }) :
    ∃ t, s.runLanes i p srcs (fun x e => { dst := d, held := held x e, regs := [reg x e] }) = .next t ∧ t.groups = s.groups ∧
      s.LaneStep t i fun x e w => x.TookWord w p d (f x e) (held x e) := by
  obtain ⟨t, h1, h2, _, h3⟩ := State.runLanes_step (extra := fun _ _ => none) (home := fun _ => false)
    (eval := fun x e => { dst := d, held := held x e, regs := [reg x e] })
    (res := fun x e w => x.TookWord w p d (f x e) (held x e)) able (fun _ _ => rfl) (fun x _ => by simp)
    (fun x hx => x.commit_word i p _ _ (f x (s.env x)) rfl (hr x hx))
  exact ⟨t, h1, h3 fun _ _ => rfl, h2⟩

/-- A lane instruction that writes a mask register, without exception. -/
theorem State.runMask {s : State} {i : Instr} {p : Option Pfx} {k : BitVec 3} {srcs held : Slice → Env → List Reg}
    {bits : Slice → Env → BitVec 4} (able : s.GangAble i p srcs) :
    ∃ t, s.runLanes i p srcs (fun x e => { mask := some (k, bits x e), held := held x e }) = .next t ∧ t.groups = s.groups ∧
      s.LaneStep t i fun x e w => x.TookMask w p k (bits x e) (held x e) := by
  obtain ⟨t, h1, h2, _, h3⟩ := State.runLanes_step (extra := fun _ _ => none) (home := fun _ => false)
    (eval := fun x e => { mask := some (k, bits x e), held := held x e })
    (res := fun x e w => x.TookMask w p k (bits x e) (held x e)) able (fun _ _ => rfl) (fun x _ => by simp)
    (fun x _ => x.commit_mask i p _ k _ rfl)
  exact ⟨t, h1, h3 fun _ _ => rfl, h2⟩

/-! ### The shared forms (R252, R256) -/

theorem State.unaryOp_step {s : State} {i : Instr} {p : Option Pfx} {d : Dst} {a : Opnd} {h : Bool} {f : Word → Word}
    (able : s.GangAble i p fun x e => [x.readOpnd e s.clock a]) :
    ∃ t, s.unaryOp i p d a h f = .next t ∧ t.groups = s.groups ∧
      s.LaneStep t i fun x e w =>
        x.TookWord w p d (fun l => f ((x.readOpnd e s.clock a).val l)) (heldOf h [x.readOpnd e s.clock a]) :=
  State.runWord _ able fun _ _ _ hl _ => mkReg_lane (fun hu l _ => by rw [Reg.val_uniform hu l]) hl

theorem State.wordOp_step {s : State} {i : Instr} {p : Option Pfx} {d : Dst} {a b : Opnd} {h : Bool} {f : Word → Word → Word}
    (able : s.GangAble i p fun x e => [x.readOpnd e s.clock a, x.readOpnd e s.clock b]) :
    ∃ t, s.wordOp i p d a b h f = .next t ∧ t.groups = s.groups ∧
      s.LaneStep t i fun x e w =>
        x.TookWord w p d (fun l => f ((x.readOpnd e s.clock a).val l) ((x.readOpnd e s.clock b).val l))
          (heldOf h [x.readOpnd e s.clock a]) :=
  State.runWord _ able fun x _ _ hl _ => mkReg_lane (fun hu l _ => by
    rw [allUniform_val hu (r := x.readOpnd (s.env x) s.clock a) (by simp) l,
      allUniform_val hu (r := x.readOpnd (s.env x) s.clock b) (by simp) l]) hl

theorem State.ternaryOp_step {s : State} {i : Instr} {p : Option Pfx} {d : Dst} {a b c : Opnd} {h : Bool} {f : Word → Word → Word → Word}
    (able : s.GangAble i p fun x e => [x.readOpnd e s.clock a, x.readOpnd e s.clock b, x.readOpnd e s.clock c]) :
    ∃ t, s.ternaryOp i p d a b c h f = .next t ∧ t.groups = s.groups ∧
      s.LaneStep t i fun x e w =>
        x.TookWord w p d (fun l => f ((x.readOpnd e s.clock a).val l) ((x.readOpnd e s.clock b).val l)
          ((x.readOpnd e s.clock c).val l)) (heldOf h [x.readOpnd e s.clock a]) :=
  State.runWord _ able fun x _ _ hl _ => mkReg_lane (fun hu l _ => by
    rw [allUniform_val hu (r := x.readOpnd (s.env x) s.clock a) (by simp) l,
      allUniform_val hu (r := x.readOpnd (s.env x) s.clock b) (by simp) l,
      allUniform_val hu (r := x.readOpnd (s.env x) s.clock c) (by simp) l]) hl

theorem State.movOp_step {s : State} {i : Instr} {p : Option Pfx} {d : Dst} {a : Opnd} {h : Bool}
    (able : s.GangAble i p fun x e => [x.readOpnd e s.clock a]) :
    ∃ t, s.movOp i p d a h = .next t ∧ t.groups = s.groups ∧
      s.LaneStep t i fun x e w =>
        x.TookWord w p d (fun l => (x.readOpnd e s.clock a).val l) (heldOf h [x.readOpnd e s.clock a]) :=
  State.runWord _ able fun x hx l hl ht => by
    have := (able.2 x hx).clean _ List.mem_cons_self
    have hp : ((x.readOpnd (s.env x) s.clock a).lane l).poison = false := by
      have h1 := List.any_eq_false.1 this l (by simp [lanes]; omega)
      simpa [ht] using h1
    show (x.readOpnd (s.env x) s.clock a).lane l = _
    rw [Reg.val]
    cases hw : (x.readOpnd (s.env x) s.clock a).lane l with
    | mk v q => rw [hw] at hp; simp at hp; rw [hp]

theorem State.maskOp_step {s : State} {i : Instr} {k j m : BitVec 3} {f : BitVec 4 → BitVec 4 → BitVec 4}
    (able : s.GangAble i none fun _ _ => []) :
    ∃ t, s.maskOp i k j m f = .next t ∧ t.groups = s.groups ∧
      s.LaneStep t i fun x _ w => x.TookMask w none k (f (x.mask j.toNat) (x.mask m.toNat)) [] :=
  State.runMask able

/-! ### Typed integer operations (R250-R252) -/

theorem field_zero_lt {n w : Nat} (h : n < 2 ^ w) : field n 0 w = n := by
  simp [field, Nat.mod_eq_of_lt h]

/-- A 32-bit element operation without saturation. -/
theorem intElems_32 (t : IType) (ht : t.bits = 32) (ht' : t.total = 32) (a b : Word) :
    BitVec.ofNat 32 (intElems t false (fun x y _ => x + y) a.toNat b.toNat 0) = a + b ∧
    BitVec.ofNat 32 (intElems t false (fun x y _ => x - y) a.toNat b.toNat 0) = a - b := by
  have hv : ∀ w : Word, (intElem t w.toNat 0) % (2 ^ 32 : Int) = (w.toNat : Int) % 2 ^ 32 := fun w => by
    unfold intElem
    simp only [ht, Nat.zero_mul, field_zero_lt w.isLt]
    split
    · unfold sextNat; split <;> omega
    · rfl
  have ha := hv a
  have hb := hv b
  constructor
  · apply BitVec.eq_of_toNat_eq
    simp only [intElems, ht, ht', truncInt, BitVec.toNat_ofNat, BitVec.toNat_add]
    simp only [show 32 / 32 = 1 from rfl, List.range_one, List.map_cons, List.map_nil, List.sum_cons, List.sum_nil, Nat.zero_mul,
      Nat.pow_zero, Nat.mul_one, Nat.add_zero, Bool.false_eq_true, if_false]
    omega
  · apply BitVec.eq_of_toNat_eq
    simp only [intElems, ht, ht', truncInt, BitVec.toNat_ofNat, BitVec.toNat_sub]
    simp only [show 32 / 32 = 1 from rfl, List.range_one, List.map_cons, List.map_nil, List.sum_cons, List.sum_nil, Nat.zero_mul,
      Nat.pow_zero, Nat.mul_one, Nat.add_zero, Bool.false_eq_true, if_false]
    have := a.isLt
    have := b.isLt
    omega

theorem mkInt_lane {t : IType} {u : Bool} {f : Nat → Nat} (h : u = true → ∀ l, l < 4 → f l = f 0) :
    (mkInt t u f).length = t.width.count ∧
    ∀ k l, l < 4 → k < t.width.count → (nth (.u 0) (mkInt t u f) k).lane l = { val := nthWord (f l) k } := by
  have one : t.width.count = 1 → mkInt t u f = [mkReg u fun l => BitVec.ofNat 32 (f l)] := by cases t <;> simp [mkInt, IType.width, Width.count]
  have two : t.width.count = 2 → mkInt t u f = [mkReg u fun l => BitVec.ofNat 32 (f l), mkReg u fun l => BitVec.ofNat 32 (f l / 2 ^ 32)] := by
    cases t <;> simp [mkInt, IType.width, Width.count]
  have ht : t.width.count = 1 ∨ t.width.count = 2 := by cases t <;> simp [IType.width, Width.count]
  rcases ht with e | e
  · rw [one e, e]
    refine ⟨rfl, fun k l hl hk => ?_⟩
    obtain rfl : k = 0 := by omega
    show (mkReg _ _).lane l = _
    rw [mkReg_lane (fun hu l hl => by rw [h hu l hl]) hl]
    simp [nthWord]
  · rw [two e, e]
    refine ⟨rfl, fun k l hl hk => ?_⟩
    obtain rfl | rfl : k = 0 ∨ k = 1 := by omega
    · show (mkReg _ _).lane l = _
      rw [mkReg_lane (fun hu l hl => by rw [h hu l hl]) hl]
      simp [nthWord]
    · show (mkReg _ _).lane l = _
      rw [mkReg_lane (fun hu l hl => by rw [h hu l hl]) hl]
      simp [nthWord]

theorem regsVal_uniform {rs : List Reg} (h : allUniform rs = true) (l : Nat) : regsVal rs l = regsVal rs 0 := by
  match rs with
  | [] => rfl
  | [r] => exact congrArg BitVec.toNat (allUniform_val h (by simp) l)
  | [lo, hi] =>
    show (dword _ _).toNat = (dword _ _).toNat
    rw [allUniform_val h (r := lo) (by simp) l, allUniform_val h (r := hi) (by simp) l]
  | a :: b :: c :: r => exact congrArg BitVec.toNat (allUniform_val h (r := a) (by simp) l)

theorem allUniform_append {xs ys : List Reg} (h : allUniform (xs ++ ys) = true) : allUniform xs = true ∧ allUniform ys = true := by
  simpa [allUniform, List.all_append] using h

/-- An affine sum or difference gives every lane its sum or difference. -/
theorem affineSum_lane {t : IType} {sat sub : Bool} {a b : List Reg} {r : Reg} (h : affineSum t sat sub a b = some r) :
    sat = false ∧ t.bits = 32 ∧ t.total = 32 ∧ ∃ x y, a = [x] ∧ b = [y] ∧
      ∀ l, r.lane l = { val := if sub then x.val l - y.val l else x.val l + y.val l } := by
  unfold affineSum at h
  split at h
  · cases h
  · next hc =>
    simp only [Bool.or_eq_true, bne_iff_ne, ne_eq, not_or, Bool.not_eq_true, Decidable.not_not] at hc
    refine ⟨hc.1.1, hc.2, hc.1.2, ?_⟩
    split at h
    · next p st u =>
      cases h
      refine ⟨_, _, rfl, rfl, fun l => ?_⟩
      cases sub
      · simp [Reg.lane, Reg.val]; ring
      · simp [Reg.lane, Reg.val]; ring
    · next u p st =>
      cases h
      refine ⟨_, _, rfl, rfl, fun l => ?_⟩
      cases sub
      · simp [Reg.lane, Reg.val]; ring
      · simp [Reg.lane, Reg.val]; ring
    · cases h

/-- A slice after a typed integer operation. -/
theorem Slice.commit_int (x : Slice) (i : Instr) (p : Option Pfx) (t : IType) (v : Eval) (f : Nat → Nat)
    (hv : v = { dst := v.dst, held := v.held, regs := v.regs, flags := v.flags }) (hn : v.regs.length = t.width.count)
    (hr : ∀ k l, l < 4 → k < t.width.count → (nth (.u 0) v.regs k).lane l = { val := nthWord (f l) k }) :
    ∃ w, x.commit i p v = (w.land (x.after i)).retired ∧ x.TookInt w p t v.dst f v.held := by
  have h4 : t.width.count ≤ 4 := by cases t <;> simp [IType.width, Width.count]
  obtain ⟨w, hw, ht⟩ := x.commit_took i p v _ (by omega) fun k l hl hk => hr k l hl (by omega)
  refine ⟨w, hw, ?_⟩
  have e2 : v.mask = none := by rw [hv]
  have e3 : v.seeds = none := by rw [hv]
  have e4 : v.fmt = none := by rw [hv]
  rw [hn, e2, e3, e4] at ht
  exact ht

/-- A typed lane instruction without exception. -/
theorem State.runInt {s : State} {i : Instr} {p : Option Pfx} {t : IType} {d : Dst} {srcs held regs : Slice → Env → List Reg}
    (f : Slice → Env → Nat → Nat) (able : s.GangAble i p srcs)
    (hr : ∀ x e, (regs x e).length = t.width.count ∧
      ∀ k l, l < 4 → k < t.width.count → (nth (.u 0) (regs x e) k).lane l = { val := nthWord (f x e l) k }) :
    ∃ q, s.runLanes i p srcs (fun x e => { dst := d, held := held x e, regs := regs x e }) = .next q ∧ q.groups = s.groups ∧
      s.LaneStep q i fun x e w => x.TookInt w p t d (f x e) (held x e) := by
  obtain ⟨q, h1, h2, _, h3⟩ := State.runLanes_step (extra := fun _ _ => none) (home := fun _ => false)
    (eval := fun x e => { dst := d, held := held x e, regs := regs x e })
    (res := fun x e w => x.TookInt w p t d (f x e) (held x e)) able (fun _ _ => rfl) (fun x _ => by simp)
    (fun x _ => x.commit_int i p t _ (f x (s.env x)) rfl (hr x _).1 (hr x _).2)
  exact ⟨q, h1, h3 fun _ _ => rfl, h2⟩

theorem State.intOp_step {s : State} {i : Instr} {p : Option Pfx} {t : IType} {d : Dst} {a b : Opnd} {h : Bool}
    {f : Int → Int → Int → Int} {sum : Option Bool}
    (hsum : ∀ sub, sum = some sub → f = fun x y _ => if sub then x - y else x + y)
    (able : s.GangAble i p fun x e => x.readInt e s.clock t a ++ x.readInt e s.clock t b) :
    ∃ q, s.intOp i p t d a b h f sum = .next q ∧ q.groups = s.groups ∧
      s.LaneStep q i fun x e w =>
        x.TookInt w p t d (fun l => intElems t (saturate p) f (regsVal (x.readInt e s.clock t a) l) (regsVal (x.readInt e s.clock t b) l) 0)
          (heldOf h (x.readInt e s.clock t a)) := by
  refine State.runInt _ able fun x e => ?_
  have plain := mkInt_lane (t := t) (u := allUniform (x.readInt e s.clock t a ++ x.readInt e s.clock t b))
    (f := fun l => intElems t (saturate p) f (regsVal (x.readInt e s.clock t a) l) (regsVal (x.readInt e s.clock t b) l) 0)
    fun hu l _ => by
      simp only [regsVal_uniform (allUniform_append hu).1 l, regsVal_uniform (allUniform_append hu).2 l]
  cases sum with
  | none => exact plain
  | some sub =>
    show (match affineSum t (saturate p) sub (x.readInt e s.clock t a) (x.readInt e s.clock t b) with
      | some r => [r] | none => _).length = _ ∧ _
    cases ha : affineSum t (saturate p) sub (x.readInt e s.clock t a) (x.readInt e s.clock t b) with
    | none => simpa [ha] using plain
    | some r =>
      obtain ⟨h1, h2, h3, u, v, hu, hv, hl⟩ := affineSum_lane ha
      have hw : t.width.count = 1 := by cases t <;> simp_all [IType.width, Width.count, IType.bits]
      refine ⟨by simp [hw], fun k l _ hk => ?_⟩
      obtain rfl : k = 0 := by omega
      have e := intElems_32 t h2 h3 (u.val l) (v.val l)
      simp only [Option.bind_some, ha]
      show r.lane l = _
      rw [hl l, hsum sub rfl, h1, hu, hv]
      cases sub
      · simp only [nthWord, regsVal, Bool.false_eq_true, if_false, Nat.mul_zero, Nat.pow_zero, Nat.div_one]
        rw [← e.1]
      · simp only [nthWord, regsVal, if_true, Nat.mul_zero, Nat.pow_zero, Nat.div_one]
        rw [← e.2]

/-! ### Float operations (R209, R262-R265) -/

/-- A slice of each gang member raises the exceptions of the lanes that take the result. -/
theorem State.runFloat {s : State} {i : Instr} {p : Option Pfx} {d : Dst} {srcs held : Slice → Env → List Reg}
    {uniform : Slice → Env → Bool} (f : Slice → Env → Nat → Word × Flags) (able : s.GangAble i p srcs)
    (hu : ∀ x e, uniform x e = true → ∀ l, l < 4 → f x e l = f x e 0) :
    ∃ t, s.runLanes i p srcs (fun x e =>
        { dst := d, held := held x e, regs := [(floatReg (uniform x e) (takeOf x p) (f x e)).1],
          flags := (floatReg (uniform x e) (takeOf x p) (f x e)).2 }) = .next t ∧
      t.groups = (s.raiseAll (s.curSlices.map fun x =>
        (x.group, Flags.all ((maskLanes (takeOf x p)).map fun l => (f x (s.env x) l).2)))).groups ∧
      s.LaneStep t i fun x e w => x.TookWord w p d (fun l => (f x e l).1) (held x e) := by
  obtain ⟨t, h1, h2, h3, _⟩ := State.runLanes_step (extra := fun _ _ => none) (home := fun _ => false)
    (eval := fun x e =>
        { dst := d, held := held x e, regs := [(floatReg (uniform x e) (takeOf x p) (f x e)).1],
          flags := (floatReg (uniform x e) (takeOf x p) (f x e)).2 })
    (res := fun x e w => x.TookWord w p d (fun l => (f x e l).1) (held x e)) able (fun _ _ => rfl) (fun x _ => by simp)
    (fun x _ => x.commit_word i p _ _ _ rfl fun l hl _ => mkReg_lane (fun h l hl => by rw [hu x _ h l hl]) hl)
  exact ⟨t, h1, h3, h2⟩

theorem State.floatOp_step {s : State} {i : Instr} {p : Option Pfx} {t : FType} {d : Dst} {srcs : List Opnd} {h : Bool}
    {f : Slice → List Nat → FRes} (able : s.GangAble i p fun x e => srcs.map fun o => x.readOpnd e s.clock o) :
    ∃ q, s.floatOp i p t d srcs h f = .next q ∧
      q.groups = (s.raiseAll (s.curSlices.map fun x => (x.group, Flags.all ((maskLanes (takeOf x p)).map fun l =>
        (floatWord t fun k => f x (srcs.map fun o => floatElem t ((x.readOpnd (s.env x) s.clock o).val l) k)).2)))).groups ∧
      s.LaneStep q i fun x e w =>
        x.TookWord w p d (fun l => (floatWord t fun k => f x (srcs.map fun o => floatElem t ((x.readOpnd e s.clock o).val l) k)).1)
          (heldOf h ((srcs.map fun o => x.readOpnd e s.clock o).take 1)) := by
  have := State.runFloat (d := d) (held := fun x e => heldOf h ((srcs.map fun o => x.readOpnd e s.clock o).take 1))
    (uniform := fun x e => allUniform (srcs.map fun o => x.readOpnd e s.clock o))
    (fun x e l => floatWord t fun k => f x (srcs.map fun o => floatElem t ((x.readOpnd e s.clock o).val l) k)) able
    fun x e hu l _ => by
      congr 1; funext k; congr 1
      refine List.map_congr_left fun o ho => ?_
      rw [allUniform_val hu (List.mem_map_of_mem ho) l]
  simpa only [State.floatOp, List.map_map, Function.comp_def] using this

end Sys2Proof.Machine
end

