-- ==== Sys2Proof/Laws/Memory.lean ====
section
/-! SUPPORT. Memory: what a read gives after a write, and that writes keep the canonical form. -/

namespace Sys2Proof.Machine

theorem Memory.get_dropWhile (m : Memory) {a b : Nat} (h : a ≤ b) :
    Memory.get (m.dropWhile fun (c : Nat × Byte) => decide (c.1 < a)) b = Memory.get m b := by
  induction m with
  | nil => rfl
  | cons c m ih =>
    obtain ⟨x, v⟩ := c
    by_cases hx : x < a
    · rw [List.dropWhile_cons_of_pos (by simpa using hx), ih]
      have h1 : x ≠ b := by omega
      have h2 : ¬ b < x := by omega
      simp [Memory.get, h1, h2]
    · rw [List.dropWhile_cons_of_neg (by simpa using hx)]

theorem Memory.set_split (m : Memory) (a : Nat) (v : Byte) :
    Memory.set m a v = m.takeWhile (fun (c : Nat × Byte) => decide (c.1 < a)) ++
      Memory.set (m.dropWhile fun (c : Nat × Byte) => decide (c.1 < a)) a v := by
  induction m with
  | nil => rfl
  | cons c m ih =>
    obtain ⟨x, w⟩ := c
    by_cases hx : x < a
    · rw [List.dropWhile_cons_of_pos (by simpa using hx), List.takeWhile_cons_of_pos (by simpa using hx)]
      have h1 : x ≠ a := by omega
      have h2 : ¬ a < x := by omega
      simp only [Memory.set, h1, h2, if_false, List.cons_append, ih]
    · rw [List.dropWhile_cons_of_neg (by simpa using hx), List.takeWhile_cons_of_neg (by simpa using hx)]
      rfl

/-- Bytes are read one at a time. -/
theorem Memory.getBytes_eq (m : Memory) (a n : Nat) :
    Memory.getBytes m a n = (List.range n).map fun i => Memory.get m (a + i) := by
  induction n generalizing m a with
  | zero => rfl
  | succ n ih =>
    rw [Memory.getBytes, ih, List.range_succ_eq_map, List.map_cons, List.map_map]
    refine congrArg₂ _ (m.get_dropWhile (Nat.le_refl a)) (List.map_congr_left fun i _ => ?_)
    rw [m.get_dropWhile (by omega)]
    simp [Nat.add_assoc, Nat.add_comm 1]

theorem Memory.getBytes_length (m : Memory) (a n : Nat) : (Memory.getBytes m a n).length = n := by
  simp [Memory.getBytes_eq]

theorem Memory.getBytes_succ (m : Memory) (a n : Nat) :
    Memory.getBytes m a (n + 1) = Memory.get m a :: Memory.getBytes m (a + 1) n := by
  simp [Memory.getBytes_eq, List.range_succ_eq_map, Nat.add_assoc, Nat.add_comm 1]

/-! ### The canonical form -/

theorem Memory.wfFrom_le {m : Memory} {lo lo' : Nat} (h : m.wfFrom lo = true) (hl : lo' ≤ lo) : m.wfFrom lo' = true := by
  cases m with
  | nil => rfl
  | cons c m =>
    simp only [Memory.wfFrom, Bool.and_eq_true, decide_eq_true_eq] at h ⊢
    exact ⟨⟨by omega, h.1.2⟩, h.2⟩

/-- Memory in its form from an address on lists nothing below it. -/
theorem Memory.get_below {m : Memory} {lo a : Nat} (h : m.wfFrom lo = true) (ha : a < lo) : m.get a = 0 := by
  cases m with
  | nil => rfl
  | cons c m =>
    simp only [Memory.wfFrom, Bool.and_eq_true, decide_eq_true_eq] at h
    have h1 : c.1 ≠ a := by omega
    have h2 : a < c.1 := by omega
    simp [Memory.get, h1, h2]

theorem Memory.set_wfFrom {m : Memory} {lo a : Nat} (v : Byte) (h : m.wfFrom lo = true) (ha : lo ≤ a) :
    (m.set a v).wfFrom lo = true := by
  induction m generalizing lo with
  | nil =>
    unfold Memory.set
    split
    · rfl
    · next hv => simpa [Memory.wfFrom, ha] using hv
  | cons c m ih =>
    obtain ⟨x, b⟩ := c
    have hw := h
    simp only [Memory.wfFrom, Bool.and_eq_true, decide_eq_true_eq] at h
    obtain ⟨⟨h1, h2⟩, h3⟩ := h
    unfold Memory.set
    split
    · next hx =>
      subst hx
      split
      · exact Memory.wfFrom_le h3 (by omega)
      · next hv => simpa [Memory.wfFrom, ha, h3] using hv
    · next hx =>
      split
      · next hlt =>
        split
        · exact hw
        · next hv =>
          have : a + 1 ≤ x := hlt
          simp only [Memory.wfFrom, Bool.and_eq_true, decide_eq_true_eq]
          exact ⟨⟨ha, by simpa using hv⟩, ⟨this, h2⟩, h3⟩
      · simp only [Memory.wfFrom, Bool.and_eq_true, decide_eq_true_eq]
        exact ⟨⟨h1, h2⟩, ih h3 (by omega)⟩

/-- A write of a byte keeps the canonical form. -/
theorem Memory.set_wf {m : Memory} (a : Nat) (v : Byte) (h : m.wf = true) : (m.set a v).wf = true :=
  Memory.set_wfFrom v h (Nat.zero_le a)

/-- A read after a write of a byte. -/
theorem Memory.get_set {m : Memory} {lo : Nat} (a b : Nat) (v : Byte) (h : m.wfFrom lo = true) :
    (m.set a v).get b = if b = a then v else m.get b := by
  have cons_self : ∀ (x : Nat) (w : Byte) (r : Memory), Memory.get ((x, w) :: r) x = w := fun x w r => by simp [Memory.get]
  have cons_above : ∀ (x y : Nat) (w : Byte) (r : Memory), x < y → Memory.get ((x, w) :: r) y = Memory.get r y := fun x y w r h => by
    have h1 : x ≠ y := by omega
    have h2 : ¬ y < x := by omega
    simp [Memory.get, h1, h2]
  have cons_below : ∀ (x y : Nat) (w : Byte) (r : Memory), y < x → Memory.get ((x, w) :: r) y = 0 := fun x y w r h => by
    have h1 : x ≠ y := by omega
    simp [Memory.get, h1, h]
  induction m generalizing lo with
  | nil =>
    unfold Memory.set
    split
    · next hv => subst hv; simp [Memory.get]
    · rcases Nat.lt_trichotomy a b with hb | hb | hb
      · rw [cons_above a b v [] hb, if_neg (by omega)]
      · subst hb; rw [cons_self, if_pos rfl]
      · rw [cons_below a b v [] hb, if_neg (by omega)]; rfl
  | cons c m ih =>
    obtain ⟨x, w⟩ := c
    simp only [Memory.wfFrom, Bool.and_eq_true, decide_eq_true_eq] at h
    obtain ⟨⟨_, _⟩, h3⟩ := h
    unfold Memory.set
    split
    · next hx =>
      subst hx
      rcases Nat.lt_trichotomy x b with hb | hb | hb
      · rw [if_neg (show b ≠ x by omega), cons_above x b w m hb]
        split
        · rfl
        · exact cons_above x b v m hb
      · subst hb
        rw [if_pos rfl]
        split
        · next hv => rw [hv]; exact Memory.get_below h3 (by omega)
        · exact cons_self x v m
      · rw [if_neg (show b ≠ x by omega), cons_below x b w m hb]
        split
        · exact Memory.get_below h3 (by omega)
        · exact cons_below x b v m hb
    · split
      · next hlt =>
        split
        · next hv =>
          split
          · next hb => rw [hb, hv]; exact cons_below x a w m hlt
          · rfl
        · rcases Nat.lt_trichotomy a b with hb | hb | hb
          · rw [cons_above a b v _ hb, if_neg (by omega)]
          · subst hb; rw [cons_self, if_pos rfl]
          · rw [cons_below a b v _ hb, if_neg (by omega), cons_below x b w m (by omega)]
      · next hx hlt =>
        rcases Nat.lt_trichotomy x b with hb | hb | hb
        · rw [cons_above x b w _ hb, cons_above x b w _ hb]; exact ih h3
        · subst hb; rw [cons_self, cons_self, if_neg hx]
        · rw [cons_below x b w _ hb, cons_below x b w _ hb, if_neg (by omega)]

/-! ### Bytes at rising addresses -/

/-- Bytes below the first address written stay in front. -/
theorem Memory.setBytes_append (l m : Memory) (a : Nat) (bs : List Byte) (h : ∀ c ∈ l, c.1 < a) :
    Memory.setBytes (l ++ m) a bs = l ++ m.setBytes a bs := by
  cases bs with
  | nil => rfl
  | cons b bs =>
    have hd : (l ++ m).dropWhile (fun (c : Nat × Byte) => decide (c.1 < a)) = m.dropWhile fun (c : Nat × Byte) => decide (c.1 < a) :=
      List.dropWhile_append_of_pos fun c hc => by simpa using h c hc
    have ht : (l ++ m).takeWhile (fun (c : Nat × Byte) => decide (c.1 < a)) = l ++ m.takeWhile fun (c : Nat × Byte) => decide (c.1 < a) :=
      List.takeWhile_append_of_pos fun c hc => by simpa using h c hc
    simp only [Memory.setBytes, hd, ht, List.append_assoc]

theorem Memory.set_front {m : Memory} {a : Nat} (b : Byte) (h : ∀ c ∈ m.head?, a ≤ c.1) :
    m.set a b = if b = 0 then (match m with | [] => [] | (x, v) :: rest => if x = a then rest else (x, v) :: rest)
      else (a, b) :: (match m with | [] => [] | (x, v) :: rest => if x = a then rest else (x, v) :: rest) := by
  cases m with
  | nil => rfl
  | cons c m =>
    obtain ⟨x, v⟩ := c
    have hx : a ≤ x := h (x, v) rfl
    by_cases e : x = a
    · simp [Memory.set, e]
    · have : a < x := by omega
      simp [Memory.set, e, this]

/-- Bytes are written one at a time. -/
theorem Memory.setBytes_cons (m : Memory) (a : Nat) (b : Byte) (bs : List Byte) :
    m.setBytes a (b :: bs) = (m.set a b).setBytes (a + 1) bs := by
  have hfront : ∀ c ∈ (m.dropWhile fun (c : Nat × Byte) => decide (c.1 < a)).head?, a ≤ c.1 := fun c hc => by
    have := List.head?_dropWhile_not (fun (c : Nat × Byte) => decide (c.1 < a)) m
    rw [Option.mem_def] at hc
    rw [hc] at this
    simpa using this
  have hlow : ∀ c ∈ m.takeWhile (fun (c : Nat × Byte) => decide (c.1 < a)), c.1 < a + 1 := fun c hc => by
    have := List.mem_takeWhile_imp hc
    simp at this; omega
  rw [Memory.set_split, Memory.set_front b hfront]
  simp only [Memory.setBytes]
  generalize m.dropWhile (fun (c : Nat × Byte) => decide (c.1 < a)) = D at *
  generalize m.takeWhile (fun (c : Nat × Byte) => decide (c.1 < a)) = T at *
  rw [Memory.setBytes_append _ _ _ _ hlow]
  congr 1
  cases D with
  | nil =>
    split
    · rfl
    · exact (Memory.setBytes_append [(a, b)] _ (a + 1) bs (by simp)).symm
  | cons d D =>
    split
    · rfl
    · exact (Memory.setBytes_append [(a, b)] _ (a + 1) bs (by simp)).symm

/-- A write of bytes keeps the canonical form. -/
theorem Memory.setBytes_wf {m : Memory} (a : Nat) (bs : List Byte) (h : m.wf = true) : (m.setBytes a bs).wf = true := by
  induction bs generalizing m a with
  | nil => exact h
  | cons b bs ih => rw [Memory.setBytes_cons]; exact ih (a + 1) (m.set_wf a b h)

/-- A read after a write of bytes. -/
theorem Memory.get_setBytes {m : Memory} (a : Nat) (bs : List Byte) (b : Nat) (h : m.wf = true) :
    (m.setBytes a bs).get b = if a ≤ b ∧ b < a + bs.length then nth 0 bs (b - a) else m.get b := by
  induction bs generalizing m a with
  | nil => rw [if_neg (by simp)]; rfl
  | cons v bs ih =>
    rw [Memory.setBytes_cons, ih (a + 1) (m.set_wf a v h), Memory.get_set a b v h]
    simp only [List.length_cons]
    by_cases h1 : b = a
    · subst h1
      rw [if_neg (by omega), if_pos rfl, if_pos (by omega), Nat.sub_self]; rfl
    · by_cases h2 : a + 1 ≤ b ∧ b < a + 1 + bs.length
      · obtain ⟨k, rfl⟩ : ∃ k, b = a + 1 + k := ⟨b - (a + 1), by omega⟩
        rw [if_pos h2, if_pos (by omega), show a + 1 + k - (a + 1) = k by omega, show a + 1 + k - a = k + 1 by omega]; rfl
      · rw [if_neg h2, if_neg h1, if_neg (by omega)]

/-- Memory cleared over a range keeps the canonical form. -/
theorem Memory.filter_wf {m : Memory} (p : Host.Cell → Bool) (h : m.wf = true) : Memory.wf (m.filter p) = true := by
  have : ∀ (m : Memory) lo, m.wfFrom lo = true → Memory.wfFrom lo (m.filter p) = true := by
    intro m
    induction m with
    | nil => intro _ _; rfl
    | cons c m ih =>
      intro lo h
      obtain ⟨x, v⟩ := c
      simp only [Memory.wfFrom, Bool.and_eq_true, decide_eq_true_eq] at h
      obtain ⟨⟨h1, h2⟩, h3⟩ := h
      rw [List.filter_cons]
      split
      · simp only [Memory.wfFrom, Bool.and_eq_true, decide_eq_true_eq]
        exact ⟨⟨h1, h2⟩, ih _ h3⟩
      · exact Memory.wfFrom_le (ih _ h3) (by omega)
  exact this m 0 h

/-- Equal reads make equal memories. -/
theorem Memory.ext_get {m n : Memory} (hm : m.wf = true) (hn : n.wf = true) (h : ∀ a, m.get a = n.get a) : m = n := by
  have key : ∀ (m n : Memory) lo, m.wfFrom lo = true → n.wfFrom lo = true → (∀ a, m.get a = n.get a) → m = n := by
    intro m
    induction m with
    | nil =>
      intro n lo _ hn h
      cases n with
      | nil => rfl
      | cons c n =>
        simp only [Memory.wfFrom, Bool.and_eq_true, decide_eq_true_eq] at hn
        have := h c.1
        simp [Memory.get] at this
        simp [← this] at hn
    | cons c m ih =>
      intro n lo hm hn h
      have hm' := hm
      simp only [Memory.wfFrom, Bool.and_eq_true, decide_eq_true_eq] at hm
      cases n with
      | nil =>
        have := h c.1
        simp [Memory.get] at this
        simp [this] at hm
      | cons d n =>
        have hn' := hn
        simp only [Memory.wfFrom, Bool.and_eq_true, decide_eq_true_eq] at hn
        obtain ⟨x, v⟩ := c
        obtain ⟨y, w⟩ := d
        simp only at hm hn
        have hxy : x = y := by
          rcases Nat.lt_trichotomy x y with hlt | he | hlt
          · have := h x
            have h1 : y ≠ x := by omega
            simp [Memory.get, h1, hlt] at this
            simp [this] at hm
          · exact he
          · have := h y
            have h1 : x ≠ y := by omega
            simp [Memory.get, h1, hlt] at this
            simp [← this] at hn
        subst hxy
        have hv : v = w := by simpa [Memory.get] using h x
        subst hv
        refine congrArg _ (ih n (x + 1) hm.2 hn.2 fun a => ?_)
        have := h a
        by_cases e : x = a
        · subst e
          rw [Memory.get_below hm.2 (by omega), Memory.get_below hn.2 (by omega)]
        · by_cases hlt : a < x
          · rw [Memory.get_below hm.2 (by omega), Memory.get_below hn.2 (by omega)]
          · simpa [Memory.get, e, hlt] using this
  exact key m n 0 hm hn h

end Sys2Proof.Machine
end

