-- ==== Sys2Proof/Laws/Run.lean ====
section
/-! SUPPORT. What an instruction comes to that a slice performs for itself, and one that a gang performs as a whole. -/

namespace Sys2Proof.Machine

theorem State.partIfApart_one (s : State) (u : Nat) : s.partIfApart [u] = s := by
  unfold State.partIfApart
  cases h : s.slice? u with
  | none => simp [h]
  | some x => by_cases hl : x.live <;> simp [h, hl]

/-- The traps at issue are those that `Able` shuts out. -/
theorem State.Able.issueTrap {s : State} {i : Instr} {x : Slice} {srcs : List Reg} {reads : BitVec 4} (h : s.Able i x srcs reads) :
    s.issueTrap i x (s.env x) srcs reads = none := by
  unfold State.issueTrap
  have : srcs.any (·.poisoned reads) = false := by simpa using h.clean
  simp [h.declined, h.inFrame, h.allowed, this]

theorem guest_home {x : Slice} {i : Instr} (h : x.guest = none ∨ i.sendsHome = false) : (x.guest.isSome && i.sendsHome) = false := by
  rcases h with h | h <;> simp [h]

/-- A slice alone performs an instruction for itself. -/
theorem State.runEach_alone {s : State} {i : Instr} {x : Slice} {srcs : Slice → Env → List Reg} {reads : Slice → BitVec 4}
    (act : State → Slice → Env → State × Out) (h : s.Alone i x (srcs x (s.env x)) (reads x)) :
    s.runEach i srcs reads act = .next ((act s x (s.env x)).1.settleOut x.uid (act s x (s.env x)).2) := by
  have hs : s.sliceAct i srcs reads act x.uid = (act s x (s.env x)).1.settleOut x.uid (act s x (s.env x)).2 := by
    simp only [State.sliceAct, h.here, h.able.issueTrap, guest_home h.home, Bool.false_eq_true, if_false]
  simp only [State.runEach, State.issue, h.cur, List.foldl_cons, List.foldl_nil, hs, State.partIfApart_one]
  simp

/-- A gang performs an instruction as a whole. -/
theorem State.runGang_led {s : State} {i : Instr} {l : Lead} {srcs : Slice → Env → List Reg} (held : Slice → Env → List Reg)
    (act : State → Lead → State × GangOut) (h : s.Led i srcs l) :
    s.runGang i srcs held act = .next (match act s l with
      | (s, .done d rs) => s.retireGang i d rs held
      | (s, .wait) => s.waitGang
      | (s, .hold) => s
      | (s, .trap t) => s.takeTraps (s.cur.map fun u => (u, t))) := by
  have ht : s.gangTrap i srcs l = none := List.findSome?_eq_none_iff.2 fun x hx => (h.able x hx).issueTrap
  simp only [State.runGang, State.issue, h.cur, if_false, h.lead, ht, guest_home h.home, Bool.false_eq_true] <;> rfl

/-- A slice whose path stands in no entry of its frame goes to a PC and nothing else. -/
theorem Slice.land_free {x : Slice} (h : x.topEntry = none) (pc : DWord) : x.land pc = { x with pc := pc } := by
  have : ({ x with pc := pc } : Slice).topEntry = none := h
  unfold Slice.land Slice.arrive
  simp [this]

/-- Slices of a gang changed one by one, each keeping its uid, and parted where they come apart. -/
theorem State.mapGang_step (s : State) (f : Slice → Slice) (hf : ∀ x, (f x).uid = x.uid) :
    s.GangStep (({ s with slices := s.slices.map fun (x : Slice) => if s.cur.contains x.uid then f x else x }).partIfApart s.cur)
      fun x y => y = f x := by
  let k : Slice → Slice := fun x => if s.cur.contains x.uid then f x else x
  let t : State := { s with slices := s.slices.map k }
  have hk : ∀ x, (k x).uid = x.uid := fun x => by
    show (if _ then _ else _ : Slice).uid = _
    split <;> simp [hf]
  obtain ⟨h1, h2, h3, h4⟩ := t.partIfApart_regangs s.cur
  have ht : ∀ u, t.slice? u = (s.slice? u).map k := fun u => s.slice?_map k hk u
  refine ⟨fun x hx => ?_, fun u hu => ?_, h3, fun a => ?_, h4⟩
  · obtain ⟨hs, hu⟩ := State.slice?_of_cur hx
    have : k x = f x := if_pos (by simpa using hu)
    obtain ⟨g, hg⟩ := h1 x.uid (f x) (by rw [ht, hs, Option.map_some, this])
    exact ⟨f x, g, hg, rfl⟩
  · refine (h2 u hu).trans ?_
    rw [ht]
    cases h : s.slice? u with
    | none => rfl
    | some x =>
      have : k x = x := if_neg (by rw [State.slice?_uid h]; simpa using hu)
      rw [Option.map_some, this]
  · have := congrArg State.mem h4
    exact congrArg (fun m => Memory.get m a) this

/-- Entries that need no slot. -/
theorem State.withRx_same (s : State) (e : Env) (x y : Slice) (h : x.recon = y.recon ∨ (x.lateEntries.isEmpty ∧ y.lateEntries.isEmpty)) :
    s.withRx e x y = (s, .done y) := by unfold State.withRx; rw [if_pos h]

/-- A branch on a path that stands in no entry, and on which the lanes agree. -/
theorem State.branch_free (s : State) (i : Instr) (o : BitVec 14) (e : Env) (x y : Slice) (taken : BitVec 4)
  (hr : y.recon = x.recon) (hd : y.topEntry = none) (hp : y.pc = x.pc)
   (h : taken = 0 ∨ taken = x.m0 ∨ branchTarget x.pc o = x.after i) :
   s.branch i o e x y taken = (s, .done (if taken = 0 then { y.stepLatch [] with pc := x.after i } else
     ({ y.clearLocal with pc := branchTarget x.pc o, turn := if (branchTarget x.pc o).toNat ≤ x.pc.toNat then y.turn + 1 else y.turn } : Slice))) := by
  unfold State.branch
  have ha : y.after i = x.after i := by unfold Slice.after; rw [hp]
  by_cases h0 : taken = 0
  · simp only [h0, if_true]
    have h2 : (y.stepLatch []).topEntry = none := hd
    have : (y.stepLatch []).next i = { y.stepLatch [] with pc := x.after i } := by
      unfold Slice.next; rw [Slice.land_free h2]; rw [← ha]; rfl
    rw [this]
    exact State.withRx_same _ _ _ _ (Or.inl hr.symm)
  · have h' : taken = x.m0 ∨ branchTarget x.pc o = x.after i := by tauto
    simp only [h0, if_false, h', if_true]
    unfold Slice.takeBranch
    have : y.clearLocal.topEntry = none := hd
    by_cases hb : (branchTarget x.pc o).toNat ≤ x.pc.toNat
    · have hb' : (branchTarget x.pc o).toNat ≤ y.pc.toNat := by rw [hp]; exact hb
      have h3 : ({ y.clearLocal with turn := y.clearLocal.turn + 1 } : Slice).topEntry = none := hd
      simp only [hb, hb', decide_true, if_true]
      simp only [h3]
      rw [Slice.land_free h3]
      exact State.withRx_same _ _ _ _ (Or.inl hr.symm)
    · have hb' : ¬ (branchTarget x.pc o).toNat ≤ y.pc.toNat := by rw [hp]; exact hb
      simp only [hb, hb', decide_false, Bool.false_eq_true, if_false, this]
      rw [Slice.land_free this]
      exact State.withRx_same _ _ _ _ (Or.inl hr.symm)

end Sys2Proof.Machine
end

