-- ==== Sys2Proof/Laws/State.lean ====
section
/-! SUPPORT. What each update of the state and of a slice leaves in each field: one lemma per field per update. -/

namespace Sys2Proof.Machine

/-! ### `onCaches` -/

@[simp] theorem State.onCaches_agenda (s : State) (f : Caches → Caches) : (s.onCaches f).agenda = s.agenda := rfl
@[simp] theorem State.onCaches_ticks (s : State) (f : Caches → Caches) : (s.onCaches f).ticks = s.ticks := rfl
@[simp] theorem State.onCaches_free (s : State) (f : Caches → Caches) : (s.onCaches f).free = s.free := rfl
@[simp] theorem State.onCaches_cur (s : State) (f : Caches → Caches) : (s.onCaches f).cur = s.cur := rfl
@[simp] theorem State.onCaches_nextId (s : State) (f : Caches → Caches) : (s.onCaches f).nextId = s.nextId := rfl
@[simp] theorem State.onCaches_clock (s : State) (f : Caches → Caches) : (s.onCaches f).clock = s.clock := rfl
@[simp] theorem State.onCaches_dieMHz (s : State) (f : Caches → Caches) : (s.onCaches f).dieMHz = s.dieMHz := rfl
@[simp] theorem State.onCaches_baseClk (s : State) (f : Caches → Caches) : (s.onCaches f).baseClk = s.baseClk := rfl
@[simp] theorem State.onCaches_basePart (s : State) (f : Caches → Caches) : (s.onCaches f).basePart = s.basePart := rfl
@[simp] theorem State.onCaches_mem (s : State) (f : Caches → Caches) : (s.onCaches f).mem = s.mem := rfl
@[simp] theorem State.onCaches_poison (s : State) (f : Caches → Caches) : (s.onCaches f).poison = s.poison := rfl
@[simp] theorem State.onCaches_latent (s : State) (f : Caches → Caches) : (s.onCaches f).latent = s.latent := rfl
@[simp] theorem State.onCaches_latentWords (s : State) (f : Caches → Caches) : (s.onCaches f).latentWords = s.latentWords := rfl
@[simp] theorem State.onCaches_errors (s : State) (f : Caches → Caches) : (s.onCaches f).errors = s.errors := rfl
@[simp] theorem State.onCaches_signed (s : State) (f : Caches → Caches) : (s.onCaches f).signed = s.signed := rfl
@[simp] theorem State.onCaches_roof (s : State) (f : Caches → Caches) : (s.onCaches f).roof = s.roof := rfl
@[simp] theorem State.onCaches_roofPoison (s : State) (f : Caches → Caches) : (s.onCaches f).roofPoison = s.roofPoison := rfl
@[simp] theorem State.onCaches_caches (s : State) (f : Caches → Caches) : (s.onCaches f).caches = f s.caches := rfl
@[simp] theorem State.onCaches_engines (s : State) (f : Caches → Caches) : (s.onCaches f).engines = s.engines := rfl
@[simp] theorem State.onCaches_outside (s : State) (f : Caches → Caches) : (s.onCaches f).outside = s.outside := rfl
@[simp] theorem State.onCaches_bounds (s : State) (f : Caches → Caches) : (s.onCaches f).bounds = s.bounds := rfl
@[simp] theorem State.onCaches_ctxs (s : State) (f : Caches → Caches) : (s.onCaches f).ctxs = s.ctxs := rfl
@[simp] theorem State.onCaches_dutyMode (s : State) (f : Caches → Caches) : (s.onCaches f).dutyMode = s.dutyMode := rfl
@[simp] theorem State.onCaches_quantum (s : State) (f : Caches → Caches) : (s.onCaches f).quantum = s.quantum := rfl
@[simp] theorem State.onCaches_chunk (s : State) (f : Caches → Caches) : (s.onCaches f).chunk = s.chunk := rfl
@[simp] theorem State.onCaches_stackCsrs (s : State) (f : Caches → Caches) : (s.onCaches f).stackCsrs = s.stackCsrs := rfl
@[simp] theorem State.onCaches_slices (s : State) (f : Caches → Caches) : (s.onCaches f).slices = s.slices := rfl
@[simp] theorem State.onCaches_groups (s : State) (f : Caches → Caches) : (s.onCaches f).groups = s.groups := rfl
@[simp] theorem State.onCaches_wgs (s : State) (f : Caches → Caches) : (s.onCaches f).wgs = s.wgs := rfl
@[simp] theorem State.onCaches_launches (s : State) (f : Caches → Caches) : (s.onCaches f).launches = s.launches := rfl
@[simp] theorem State.onCaches_pipes (s : State) (f : Caches → Caches) : (s.onCaches f).pipes = s.pipes := rfl
@[simp] theorem State.onCaches_lastPreempt (s : State) (f : Caches → Caches) : (s.onCaches f).lastPreempt = s.lastPreempt := rfl
@[simp] theorem State.onCaches_savedUnits (s : State) (f : Caches → Caches) : (s.onCaches f).savedUnits = s.savedUnits := rfl
@[simp] theorem State.onCaches_dieNext (s : State) (f : Caches → Caches) : (s.onCaches f).dieNext = s.dieNext := rfl
@[simp] theorem State.onCaches_queueNext (s : State) (f : Caches → Caches) : (s.onCaches f).queueNext = s.queueNext := rfl
@[simp] theorem State.onCaches_stealLfsr (s : State) (f : Caches → Caches) : (s.onCaches f).stealLfsr = s.stealLfsr := rfl
@[simp] theorem State.onCaches_probeNext (s : State) (f : Caches → Caches) : (s.onCaches f).probeNext = s.probeNext := rfl
@[simp] theorem State.onCaches_heldScratch (s : State) (f : Caches → Caches) : (s.onCaches f).heldScratch = s.heldScratch := rfl

/-! ### `onEngines` -/

@[simp] theorem State.onEngines_agenda (s : State) (f : Engines → Engines) : (s.onEngines f).agenda = s.agenda := rfl
@[simp] theorem State.onEngines_ticks (s : State) (f : Engines → Engines) : (s.onEngines f).ticks = s.ticks := rfl
@[simp] theorem State.onEngines_free (s : State) (f : Engines → Engines) : (s.onEngines f).free = s.free := rfl
@[simp] theorem State.onEngines_cur (s : State) (f : Engines → Engines) : (s.onEngines f).cur = s.cur := rfl
@[simp] theorem State.onEngines_nextId (s : State) (f : Engines → Engines) : (s.onEngines f).nextId = s.nextId := rfl
@[simp] theorem State.onEngines_clock (s : State) (f : Engines → Engines) : (s.onEngines f).clock = s.clock := rfl
@[simp] theorem State.onEngines_dieMHz (s : State) (f : Engines → Engines) : (s.onEngines f).dieMHz = s.dieMHz := rfl
@[simp] theorem State.onEngines_baseClk (s : State) (f : Engines → Engines) : (s.onEngines f).baseClk = s.baseClk := rfl
@[simp] theorem State.onEngines_basePart (s : State) (f : Engines → Engines) : (s.onEngines f).basePart = s.basePart := rfl
@[simp] theorem State.onEngines_mem (s : State) (f : Engines → Engines) : (s.onEngines f).mem = s.mem := rfl
@[simp] theorem State.onEngines_poison (s : State) (f : Engines → Engines) : (s.onEngines f).poison = s.poison := rfl
@[simp] theorem State.onEngines_latent (s : State) (f : Engines → Engines) : (s.onEngines f).latent = s.latent := rfl
@[simp] theorem State.onEngines_latentWords (s : State) (f : Engines → Engines) : (s.onEngines f).latentWords = s.latentWords := rfl
@[simp] theorem State.onEngines_errors (s : State) (f : Engines → Engines) : (s.onEngines f).errors = s.errors := rfl
@[simp] theorem State.onEngines_signed (s : State) (f : Engines → Engines) : (s.onEngines f).signed = s.signed := rfl
@[simp] theorem State.onEngines_roof (s : State) (f : Engines → Engines) : (s.onEngines f).roof = s.roof := rfl
@[simp] theorem State.onEngines_roofPoison (s : State) (f : Engines → Engines) : (s.onEngines f).roofPoison = s.roofPoison := rfl
@[simp] theorem State.onEngines_caches (s : State) (f : Engines → Engines) : (s.onEngines f).caches = s.caches := rfl
@[simp] theorem State.onEngines_engines (s : State) (f : Engines → Engines) : (s.onEngines f).engines = f s.engines := rfl
@[simp] theorem State.onEngines_outside (s : State) (f : Engines → Engines) : (s.onEngines f).outside = s.outside := rfl
@[simp] theorem State.onEngines_bounds (s : State) (f : Engines → Engines) : (s.onEngines f).bounds = s.bounds := rfl
@[simp] theorem State.onEngines_ctxs (s : State) (f : Engines → Engines) : (s.onEngines f).ctxs = s.ctxs := rfl
@[simp] theorem State.onEngines_dutyMode (s : State) (f : Engines → Engines) : (s.onEngines f).dutyMode = s.dutyMode := rfl
@[simp] theorem State.onEngines_quantum (s : State) (f : Engines → Engines) : (s.onEngines f).quantum = s.quantum := rfl
@[simp] theorem State.onEngines_chunk (s : State) (f : Engines → Engines) : (s.onEngines f).chunk = s.chunk := rfl
@[simp] theorem State.onEngines_stackCsrs (s : State) (f : Engines → Engines) : (s.onEngines f).stackCsrs = s.stackCsrs := rfl
@[simp] theorem State.onEngines_slices (s : State) (f : Engines → Engines) : (s.onEngines f).slices = s.slices := rfl
@[simp] theorem State.onEngines_groups (s : State) (f : Engines → Engines) : (s.onEngines f).groups = s.groups := rfl
@[simp] theorem State.onEngines_wgs (s : State) (f : Engines → Engines) : (s.onEngines f).wgs = s.wgs := rfl
@[simp] theorem State.onEngines_launches (s : State) (f : Engines → Engines) : (s.onEngines f).launches = s.launches := rfl
@[simp] theorem State.onEngines_pipes (s : State) (f : Engines → Engines) : (s.onEngines f).pipes = s.pipes := rfl
@[simp] theorem State.onEngines_lastPreempt (s : State) (f : Engines → Engines) : (s.onEngines f).lastPreempt = s.lastPreempt := rfl
@[simp] theorem State.onEngines_savedUnits (s : State) (f : Engines → Engines) : (s.onEngines f).savedUnits = s.savedUnits := rfl
@[simp] theorem State.onEngines_dieNext (s : State) (f : Engines → Engines) : (s.onEngines f).dieNext = s.dieNext := rfl
@[simp] theorem State.onEngines_queueNext (s : State) (f : Engines → Engines) : (s.onEngines f).queueNext = s.queueNext := rfl
@[simp] theorem State.onEngines_stealLfsr (s : State) (f : Engines → Engines) : (s.onEngines f).stealLfsr = s.stealLfsr := rfl
@[simp] theorem State.onEngines_probeNext (s : State) (f : Engines → Engines) : (s.onEngines f).probeNext = s.probeNext := rfl
@[simp] theorem State.onEngines_heldScratch (s : State) (f : Engines → Engines) : (s.onEngines f).heldScratch = s.heldScratch := rfl

/-! ### `onOutside` -/

@[simp] theorem State.onOutside_agenda (s : State) (f : Outside → Outside) : (s.onOutside f).agenda = s.agenda := rfl
@[simp] theorem State.onOutside_ticks (s : State) (f : Outside → Outside) : (s.onOutside f).ticks = s.ticks := rfl
@[simp] theorem State.onOutside_free (s : State) (f : Outside → Outside) : (s.onOutside f).free = s.free := rfl
@[simp] theorem State.onOutside_cur (s : State) (f : Outside → Outside) : (s.onOutside f).cur = s.cur := rfl
@[simp] theorem State.onOutside_nextId (s : State) (f : Outside → Outside) : (s.onOutside f).nextId = s.nextId := rfl
@[simp] theorem State.onOutside_clock (s : State) (f : Outside → Outside) : (s.onOutside f).clock = s.clock := rfl
@[simp] theorem State.onOutside_dieMHz (s : State) (f : Outside → Outside) : (s.onOutside f).dieMHz = s.dieMHz := rfl
@[simp] theorem State.onOutside_baseClk (s : State) (f : Outside → Outside) : (s.onOutside f).baseClk = s.baseClk := rfl
@[simp] theorem State.onOutside_basePart (s : State) (f : Outside → Outside) : (s.onOutside f).basePart = s.basePart := rfl
@[simp] theorem State.onOutside_mem (s : State) (f : Outside → Outside) : (s.onOutside f).mem = s.mem := rfl
@[simp] theorem State.onOutside_poison (s : State) (f : Outside → Outside) : (s.onOutside f).poison = s.poison := rfl
@[simp] theorem State.onOutside_latent (s : State) (f : Outside → Outside) : (s.onOutside f).latent = s.latent := rfl
@[simp] theorem State.onOutside_latentWords (s : State) (f : Outside → Outside) : (s.onOutside f).latentWords = s.latentWords := rfl
@[simp] theorem State.onOutside_errors (s : State) (f : Outside → Outside) : (s.onOutside f).errors = s.errors := rfl
@[simp] theorem State.onOutside_signed (s : State) (f : Outside → Outside) : (s.onOutside f).signed = s.signed := rfl
@[simp] theorem State.onOutside_roof (s : State) (f : Outside → Outside) : (s.onOutside f).roof = s.roof := rfl
@[simp] theorem State.onOutside_roofPoison (s : State) (f : Outside → Outside) : (s.onOutside f).roofPoison = s.roofPoison := rfl
@[simp] theorem State.onOutside_caches (s : State) (f : Outside → Outside) : (s.onOutside f).caches = s.caches := rfl
@[simp] theorem State.onOutside_engines (s : State) (f : Outside → Outside) : (s.onOutside f).engines = s.engines := rfl
@[simp] theorem State.onOutside_outside (s : State) (f : Outside → Outside) : (s.onOutside f).outside = f s.outside := rfl
@[simp] theorem State.onOutside_bounds (s : State) (f : Outside → Outside) : (s.onOutside f).bounds = s.bounds := rfl
@[simp] theorem State.onOutside_ctxs (s : State) (f : Outside → Outside) : (s.onOutside f).ctxs = s.ctxs := rfl
@[simp] theorem State.onOutside_dutyMode (s : State) (f : Outside → Outside) : (s.onOutside f).dutyMode = s.dutyMode := rfl
@[simp] theorem State.onOutside_quantum (s : State) (f : Outside → Outside) : (s.onOutside f).quantum = s.quantum := rfl
@[simp] theorem State.onOutside_chunk (s : State) (f : Outside → Outside) : (s.onOutside f).chunk = s.chunk := rfl
@[simp] theorem State.onOutside_stackCsrs (s : State) (f : Outside → Outside) : (s.onOutside f).stackCsrs = s.stackCsrs := rfl
@[simp] theorem State.onOutside_slices (s : State) (f : Outside → Outside) : (s.onOutside f).slices = s.slices := rfl
@[simp] theorem State.onOutside_groups (s : State) (f : Outside → Outside) : (s.onOutside f).groups = s.groups := rfl
@[simp] theorem State.onOutside_wgs (s : State) (f : Outside → Outside) : (s.onOutside f).wgs = s.wgs := rfl
@[simp] theorem State.onOutside_launches (s : State) (f : Outside → Outside) : (s.onOutside f).launches = s.launches := rfl
@[simp] theorem State.onOutside_pipes (s : State) (f : Outside → Outside) : (s.onOutside f).pipes = s.pipes := rfl
@[simp] theorem State.onOutside_lastPreempt (s : State) (f : Outside → Outside) : (s.onOutside f).lastPreempt = s.lastPreempt := rfl
@[simp] theorem State.onOutside_savedUnits (s : State) (f : Outside → Outside) : (s.onOutside f).savedUnits = s.savedUnits := rfl
@[simp] theorem State.onOutside_dieNext (s : State) (f : Outside → Outside) : (s.onOutside f).dieNext = s.dieNext := rfl
@[simp] theorem State.onOutside_queueNext (s : State) (f : Outside → Outside) : (s.onOutside f).queueNext = s.queueNext := rfl
@[simp] theorem State.onOutside_stealLfsr (s : State) (f : Outside → Outside) : (s.onOutside f).stealLfsr = s.stealLfsr := rfl
@[simp] theorem State.onOutside_probeNext (s : State) (f : Outside → Outside) : (s.onOutside f).probeNext = s.probeNext := rfl
@[simp] theorem State.onOutside_heldScratch (s : State) (f : Outside → Outside) : (s.onOutside f).heldScratch = s.heldScratch := rfl

/-! ### `fresh` -/

@[simp] theorem State.fresh_agenda (s : State) : s.fresh.2.agenda = s.agenda := rfl
@[simp] theorem State.fresh_ticks (s : State) : s.fresh.2.ticks = s.ticks := rfl
@[simp] theorem State.fresh_free (s : State) : s.fresh.2.free = s.free := rfl
@[simp] theorem State.fresh_cur (s : State) : s.fresh.2.cur = s.cur := rfl
@[simp] theorem State.fresh_nextId (s : State) : s.fresh.2.nextId = s.nextId + 1 := rfl
@[simp] theorem State.fresh_clock (s : State) : s.fresh.2.clock = s.clock := rfl
@[simp] theorem State.fresh_dieMHz (s : State) : s.fresh.2.dieMHz = s.dieMHz := rfl
@[simp] theorem State.fresh_baseClk (s : State) : s.fresh.2.baseClk = s.baseClk := rfl
@[simp] theorem State.fresh_basePart (s : State) : s.fresh.2.basePart = s.basePart := rfl
@[simp] theorem State.fresh_mem (s : State) : s.fresh.2.mem = s.mem := rfl
@[simp] theorem State.fresh_poison (s : State) : s.fresh.2.poison = s.poison := rfl
@[simp] theorem State.fresh_latent (s : State) : s.fresh.2.latent = s.latent := rfl
@[simp] theorem State.fresh_latentWords (s : State) : s.fresh.2.latentWords = s.latentWords := rfl
@[simp] theorem State.fresh_errors (s : State) : s.fresh.2.errors = s.errors := rfl
@[simp] theorem State.fresh_signed (s : State) : s.fresh.2.signed = s.signed := rfl
@[simp] theorem State.fresh_roof (s : State) : s.fresh.2.roof = s.roof := rfl
@[simp] theorem State.fresh_roofPoison (s : State) : s.fresh.2.roofPoison = s.roofPoison := rfl
@[simp] theorem State.fresh_caches (s : State) : s.fresh.2.caches = s.caches := rfl
@[simp] theorem State.fresh_engines (s : State) : s.fresh.2.engines = s.engines := rfl
@[simp] theorem State.fresh_outside (s : State) : s.fresh.2.outside = s.outside := rfl
@[simp] theorem State.fresh_bounds (s : State) : s.fresh.2.bounds = s.bounds := rfl
@[simp] theorem State.fresh_ctxs (s : State) : s.fresh.2.ctxs = s.ctxs := rfl
@[simp] theorem State.fresh_dutyMode (s : State) : s.fresh.2.dutyMode = s.dutyMode := rfl
@[simp] theorem State.fresh_quantum (s : State) : s.fresh.2.quantum = s.quantum := rfl
@[simp] theorem State.fresh_chunk (s : State) : s.fresh.2.chunk = s.chunk := rfl
@[simp] theorem State.fresh_stackCsrs (s : State) : s.fresh.2.stackCsrs = s.stackCsrs := rfl
@[simp] theorem State.fresh_slices (s : State) : s.fresh.2.slices = s.slices := rfl
@[simp] theorem State.fresh_groups (s : State) : s.fresh.2.groups = s.groups := rfl
@[simp] theorem State.fresh_wgs (s : State) : s.fresh.2.wgs = s.wgs := rfl
@[simp] theorem State.fresh_launches (s : State) : s.fresh.2.launches = s.launches := rfl
@[simp] theorem State.fresh_pipes (s : State) : s.fresh.2.pipes = s.pipes := rfl
@[simp] theorem State.fresh_lastPreempt (s : State) : s.fresh.2.lastPreempt = s.lastPreempt := rfl
@[simp] theorem State.fresh_savedUnits (s : State) : s.fresh.2.savedUnits = s.savedUnits := rfl
@[simp] theorem State.fresh_dieNext (s : State) : s.fresh.2.dieNext = s.dieNext := rfl
@[simp] theorem State.fresh_queueNext (s : State) : s.fresh.2.queueNext = s.queueNext := rfl
@[simp] theorem State.fresh_stealLfsr (s : State) : s.fresh.2.stealLfsr = s.stealLfsr := rfl
@[simp] theorem State.fresh_probeNext (s : State) : s.fresh.2.probeNext = s.probeNext := rfl
@[simp] theorem State.fresh_heldScratch (s : State) : s.fresh.2.heldScratch = s.heldScratch := rfl

/-! ### `freeValue` -/

@[simp] theorem State.freeValue_agenda (s : State) : s.freeValue.2.agenda = s.agenda := rfl
@[simp] theorem State.freeValue_ticks (s : State) : s.freeValue.2.ticks = s.ticks := rfl
@[simp] theorem State.freeValue_free (s : State) : s.freeValue.2.free = s.free + 1 := rfl
@[simp] theorem State.freeValue_cur (s : State) : s.freeValue.2.cur = s.cur := rfl
@[simp] theorem State.freeValue_nextId (s : State) : s.freeValue.2.nextId = s.nextId := rfl
@[simp] theorem State.freeValue_clock (s : State) : s.freeValue.2.clock = s.clock := rfl
@[simp] theorem State.freeValue_dieMHz (s : State) : s.freeValue.2.dieMHz = s.dieMHz := rfl
@[simp] theorem State.freeValue_baseClk (s : State) : s.freeValue.2.baseClk = s.baseClk := rfl
@[simp] theorem State.freeValue_basePart (s : State) : s.freeValue.2.basePart = s.basePart := rfl
@[simp] theorem State.freeValue_mem (s : State) : s.freeValue.2.mem = s.mem := rfl
@[simp] theorem State.freeValue_poison (s : State) : s.freeValue.2.poison = s.poison := rfl
@[simp] theorem State.freeValue_latent (s : State) : s.freeValue.2.latent = s.latent := rfl
@[simp] theorem State.freeValue_latentWords (s : State) : s.freeValue.2.latentWords = s.latentWords := rfl
@[simp] theorem State.freeValue_errors (s : State) : s.freeValue.2.errors = s.errors := rfl
@[simp] theorem State.freeValue_signed (s : State) : s.freeValue.2.signed = s.signed := rfl
@[simp] theorem State.freeValue_roof (s : State) : s.freeValue.2.roof = s.roof := rfl
@[simp] theorem State.freeValue_roofPoison (s : State) : s.freeValue.2.roofPoison = s.roofPoison := rfl
@[simp] theorem State.freeValue_caches (s : State) : s.freeValue.2.caches = s.caches := rfl
@[simp] theorem State.freeValue_engines (s : State) : s.freeValue.2.engines = s.engines := rfl
@[simp] theorem State.freeValue_outside (s : State) : s.freeValue.2.outside = s.outside := rfl
@[simp] theorem State.freeValue_bounds (s : State) : s.freeValue.2.bounds = s.bounds := rfl
@[simp] theorem State.freeValue_ctxs (s : State) : s.freeValue.2.ctxs = s.ctxs := rfl
@[simp] theorem State.freeValue_dutyMode (s : State) : s.freeValue.2.dutyMode = s.dutyMode := rfl
@[simp] theorem State.freeValue_quantum (s : State) : s.freeValue.2.quantum = s.quantum := rfl
@[simp] theorem State.freeValue_chunk (s : State) : s.freeValue.2.chunk = s.chunk := rfl
@[simp] theorem State.freeValue_stackCsrs (s : State) : s.freeValue.2.stackCsrs = s.stackCsrs := rfl
@[simp] theorem State.freeValue_slices (s : State) : s.freeValue.2.slices = s.slices := rfl
@[simp] theorem State.freeValue_groups (s : State) : s.freeValue.2.groups = s.groups := rfl
@[simp] theorem State.freeValue_wgs (s : State) : s.freeValue.2.wgs = s.wgs := rfl
@[simp] theorem State.freeValue_launches (s : State) : s.freeValue.2.launches = s.launches := rfl
@[simp] theorem State.freeValue_pipes (s : State) : s.freeValue.2.pipes = s.pipes := rfl
@[simp] theorem State.freeValue_lastPreempt (s : State) : s.freeValue.2.lastPreempt = s.lastPreempt := rfl
@[simp] theorem State.freeValue_savedUnits (s : State) : s.freeValue.2.savedUnits = s.savedUnits := rfl
@[simp] theorem State.freeValue_dieNext (s : State) : s.freeValue.2.dieNext = s.dieNext := rfl
@[simp] theorem State.freeValue_queueNext (s : State) : s.freeValue.2.queueNext = s.queueNext := rfl
@[simp] theorem State.freeValue_stealLfsr (s : State) : s.freeValue.2.stealLfsr = s.stealLfsr := rfl
@[simp] theorem State.freeValue_probeNext (s : State) : s.freeValue.2.probeNext = s.probeNext := rfl
@[simp] theorem State.freeValue_heldScratch (s : State) : s.freeValue.2.heldScratch = s.heldScratch := rfl

/-! ### `setSlice` -/

@[simp] theorem State.setSlice_agenda (s : State) (x : Slice) : (s.setSlice x).agenda = s.agenda := rfl
@[simp] theorem State.setSlice_ticks (s : State) (x : Slice) : (s.setSlice x).ticks = s.ticks := rfl
@[simp] theorem State.setSlice_free (s : State) (x : Slice) : (s.setSlice x).free = s.free := rfl
@[simp] theorem State.setSlice_cur (s : State) (x : Slice) : (s.setSlice x).cur = s.cur := rfl
@[simp] theorem State.setSlice_nextId (s : State) (x : Slice) : (s.setSlice x).nextId = s.nextId := rfl
@[simp] theorem State.setSlice_clock (s : State) (x : Slice) : (s.setSlice x).clock = s.clock := rfl
@[simp] theorem State.setSlice_dieMHz (s : State) (x : Slice) : (s.setSlice x).dieMHz = s.dieMHz := rfl
@[simp] theorem State.setSlice_baseClk (s : State) (x : Slice) : (s.setSlice x).baseClk = s.baseClk := rfl
@[simp] theorem State.setSlice_basePart (s : State) (x : Slice) : (s.setSlice x).basePart = s.basePart := rfl
@[simp] theorem State.setSlice_mem (s : State) (x : Slice) : (s.setSlice x).mem = s.mem := rfl
@[simp] theorem State.setSlice_poison (s : State) (x : Slice) : (s.setSlice x).poison = s.poison := rfl
@[simp] theorem State.setSlice_latent (s : State) (x : Slice) : (s.setSlice x).latent = s.latent := rfl
@[simp] theorem State.setSlice_latentWords (s : State) (x : Slice) : (s.setSlice x).latentWords = s.latentWords := rfl
@[simp] theorem State.setSlice_errors (s : State) (x : Slice) : (s.setSlice x).errors = s.errors := rfl
@[simp] theorem State.setSlice_signed (s : State) (x : Slice) : (s.setSlice x).signed = s.signed := rfl
@[simp] theorem State.setSlice_roof (s : State) (x : Slice) : (s.setSlice x).roof = s.roof := rfl
@[simp] theorem State.setSlice_roofPoison (s : State) (x : Slice) : (s.setSlice x).roofPoison = s.roofPoison := rfl
@[simp] theorem State.setSlice_caches (s : State) (x : Slice) : (s.setSlice x).caches = s.caches := rfl
@[simp] theorem State.setSlice_engines (s : State) (x : Slice) : (s.setSlice x).engines = s.engines := rfl
@[simp] theorem State.setSlice_outside (s : State) (x : Slice) : (s.setSlice x).outside = s.outside := rfl
@[simp] theorem State.setSlice_bounds (s : State) (x : Slice) : (s.setSlice x).bounds = s.bounds := rfl
@[simp] theorem State.setSlice_ctxs (s : State) (x : Slice) : (s.setSlice x).ctxs = s.ctxs := rfl
@[simp] theorem State.setSlice_dutyMode (s : State) (x : Slice) : (s.setSlice x).dutyMode = s.dutyMode := rfl
@[simp] theorem State.setSlice_quantum (s : State) (x : Slice) : (s.setSlice x).quantum = s.quantum := rfl
@[simp] theorem State.setSlice_chunk (s : State) (x : Slice) : (s.setSlice x).chunk = s.chunk := rfl
@[simp] theorem State.setSlice_stackCsrs (s : State) (x : Slice) : (s.setSlice x).stackCsrs = s.stackCsrs := rfl
@[simp] theorem State.setSlice_slices (s : State) (x : Slice) : (s.setSlice x).slices = updateWhere (·.uid == x.uid) (fun _ => x) s.slices := rfl
@[simp] theorem State.setSlice_groups (s : State) (x : Slice) : (s.setSlice x).groups = s.groups := rfl
@[simp] theorem State.setSlice_wgs (s : State) (x : Slice) : (s.setSlice x).wgs = s.wgs := rfl
@[simp] theorem State.setSlice_launches (s : State) (x : Slice) : (s.setSlice x).launches = s.launches := rfl
@[simp] theorem State.setSlice_pipes (s : State) (x : Slice) : (s.setSlice x).pipes = s.pipes := rfl
@[simp] theorem State.setSlice_lastPreempt (s : State) (x : Slice) : (s.setSlice x).lastPreempt = s.lastPreempt := rfl
@[simp] theorem State.setSlice_savedUnits (s : State) (x : Slice) : (s.setSlice x).savedUnits = s.savedUnits := rfl
@[simp] theorem State.setSlice_dieNext (s : State) (x : Slice) : (s.setSlice x).dieNext = s.dieNext := rfl
@[simp] theorem State.setSlice_queueNext (s : State) (x : Slice) : (s.setSlice x).queueNext = s.queueNext := rfl
@[simp] theorem State.setSlice_stealLfsr (s : State) (x : Slice) : (s.setSlice x).stealLfsr = s.stealLfsr := rfl
@[simp] theorem State.setSlice_probeNext (s : State) (x : Slice) : (s.setSlice x).probeNext = s.probeNext := rfl
@[simp] theorem State.setSlice_heldScratch (s : State) (x : Slice) : (s.setSlice x).heldScratch = s.heldScratch := rfl

/-! ### `onSlice` -/

@[simp] theorem State.onSlice_agenda (s : State) (u : Nat) (f : Slice → Slice) : (s.onSlice u f).agenda = s.agenda := rfl
@[simp] theorem State.onSlice_ticks (s : State) (u : Nat) (f : Slice → Slice) : (s.onSlice u f).ticks = s.ticks := rfl
@[simp] theorem State.onSlice_free (s : State) (u : Nat) (f : Slice → Slice) : (s.onSlice u f).free = s.free := rfl
@[simp] theorem State.onSlice_cur (s : State) (u : Nat) (f : Slice → Slice) : (s.onSlice u f).cur = s.cur := rfl
@[simp] theorem State.onSlice_nextId (s : State) (u : Nat) (f : Slice → Slice) : (s.onSlice u f).nextId = s.nextId := rfl
@[simp] theorem State.onSlice_clock (s : State) (u : Nat) (f : Slice → Slice) : (s.onSlice u f).clock = s.clock := rfl
@[simp] theorem State.onSlice_dieMHz (s : State) (u : Nat) (f : Slice → Slice) : (s.onSlice u f).dieMHz = s.dieMHz := rfl
@[simp] theorem State.onSlice_baseClk (s : State) (u : Nat) (f : Slice → Slice) : (s.onSlice u f).baseClk = s.baseClk := rfl
@[simp] theorem State.onSlice_basePart (s : State) (u : Nat) (f : Slice → Slice) : (s.onSlice u f).basePart = s.basePart := rfl
@[simp] theorem State.onSlice_mem (s : State) (u : Nat) (f : Slice → Slice) : (s.onSlice u f).mem = s.mem := rfl
@[simp] theorem State.onSlice_poison (s : State) (u : Nat) (f : Slice → Slice) : (s.onSlice u f).poison = s.poison := rfl
@[simp] theorem State.onSlice_latent (s : State) (u : Nat) (f : Slice → Slice) : (s.onSlice u f).latent = s.latent := rfl
@[simp] theorem State.onSlice_latentWords (s : State) (u : Nat) (f : Slice → Slice) : (s.onSlice u f).latentWords = s.latentWords := rfl
@[simp] theorem State.onSlice_errors (s : State) (u : Nat) (f : Slice → Slice) : (s.onSlice u f).errors = s.errors := rfl
@[simp] theorem State.onSlice_signed (s : State) (u : Nat) (f : Slice → Slice) : (s.onSlice u f).signed = s.signed := rfl
@[simp] theorem State.onSlice_roof (s : State) (u : Nat) (f : Slice → Slice) : (s.onSlice u f).roof = s.roof := rfl
@[simp] theorem State.onSlice_roofPoison (s : State) (u : Nat) (f : Slice → Slice) : (s.onSlice u f).roofPoison = s.roofPoison := rfl
@[simp] theorem State.onSlice_caches (s : State) (u : Nat) (f : Slice → Slice) : (s.onSlice u f).caches = s.caches := rfl
@[simp] theorem State.onSlice_engines (s : State) (u : Nat) (f : Slice → Slice) : (s.onSlice u f).engines = s.engines := rfl
@[simp] theorem State.onSlice_outside (s : State) (u : Nat) (f : Slice → Slice) : (s.onSlice u f).outside = s.outside := rfl
@[simp] theorem State.onSlice_bounds (s : State) (u : Nat) (f : Slice → Slice) : (s.onSlice u f).bounds = s.bounds := rfl
@[simp] theorem State.onSlice_ctxs (s : State) (u : Nat) (f : Slice → Slice) : (s.onSlice u f).ctxs = s.ctxs := rfl
@[simp] theorem State.onSlice_dutyMode (s : State) (u : Nat) (f : Slice → Slice) : (s.onSlice u f).dutyMode = s.dutyMode := rfl
@[simp] theorem State.onSlice_quantum (s : State) (u : Nat) (f : Slice → Slice) : (s.onSlice u f).quantum = s.quantum := rfl
@[simp] theorem State.onSlice_chunk (s : State) (u : Nat) (f : Slice → Slice) : (s.onSlice u f).chunk = s.chunk := rfl
@[simp] theorem State.onSlice_stackCsrs (s : State) (u : Nat) (f : Slice → Slice) : (s.onSlice u f).stackCsrs = s.stackCsrs := rfl
@[simp] theorem State.onSlice_slices (s : State) (u : Nat) (f : Slice → Slice) : (s.onSlice u f).slices = updateWhere (·.uid == u) f s.slices := rfl
@[simp] theorem State.onSlice_groups (s : State) (u : Nat) (f : Slice → Slice) : (s.onSlice u f).groups = s.groups := rfl
@[simp] theorem State.onSlice_wgs (s : State) (u : Nat) (f : Slice → Slice) : (s.onSlice u f).wgs = s.wgs := rfl
@[simp] theorem State.onSlice_launches (s : State) (u : Nat) (f : Slice → Slice) : (s.onSlice u f).launches = s.launches := rfl
@[simp] theorem State.onSlice_pipes (s : State) (u : Nat) (f : Slice → Slice) : (s.onSlice u f).pipes = s.pipes := rfl
@[simp] theorem State.onSlice_lastPreempt (s : State) (u : Nat) (f : Slice → Slice) : (s.onSlice u f).lastPreempt = s.lastPreempt := rfl
@[simp] theorem State.onSlice_savedUnits (s : State) (u : Nat) (f : Slice → Slice) : (s.onSlice u f).savedUnits = s.savedUnits := rfl
@[simp] theorem State.onSlice_dieNext (s : State) (u : Nat) (f : Slice → Slice) : (s.onSlice u f).dieNext = s.dieNext := rfl
@[simp] theorem State.onSlice_queueNext (s : State) (u : Nat) (f : Slice → Slice) : (s.onSlice u f).queueNext = s.queueNext := rfl
@[simp] theorem State.onSlice_stealLfsr (s : State) (u : Nat) (f : Slice → Slice) : (s.onSlice u f).stealLfsr = s.stealLfsr := rfl
@[simp] theorem State.onSlice_probeNext (s : State) (u : Nat) (f : Slice → Slice) : (s.onSlice u f).probeNext = s.probeNext := rfl
@[simp] theorem State.onSlice_heldScratch (s : State) (u : Nat) (f : Slice → Slice) : (s.onSlice u f).heldScratch = s.heldScratch := rfl

/-! ### `onGroup` -/

@[simp] theorem State.onGroup_agenda (s : State) (g : Nat) (f : Group → Group) : (s.onGroup g f).agenda = s.agenda := rfl
@[simp] theorem State.onGroup_ticks (s : State) (g : Nat) (f : Group → Group) : (s.onGroup g f).ticks = s.ticks := rfl
@[simp] theorem State.onGroup_free (s : State) (g : Nat) (f : Group → Group) : (s.onGroup g f).free = s.free := rfl
@[simp] theorem State.onGroup_cur (s : State) (g : Nat) (f : Group → Group) : (s.onGroup g f).cur = s.cur := rfl
@[simp] theorem State.onGroup_nextId (s : State) (g : Nat) (f : Group → Group) : (s.onGroup g f).nextId = s.nextId := rfl
@[simp] theorem State.onGroup_clock (s : State) (g : Nat) (f : Group → Group) : (s.onGroup g f).clock = s.clock := rfl
@[simp] theorem State.onGroup_dieMHz (s : State) (g : Nat) (f : Group → Group) : (s.onGroup g f).dieMHz = s.dieMHz := rfl
@[simp] theorem State.onGroup_baseClk (s : State) (g : Nat) (f : Group → Group) : (s.onGroup g f).baseClk = s.baseClk := rfl
@[simp] theorem State.onGroup_basePart (s : State) (g : Nat) (f : Group → Group) : (s.onGroup g f).basePart = s.basePart := rfl
@[simp] theorem State.onGroup_mem (s : State) (g : Nat) (f : Group → Group) : (s.onGroup g f).mem = s.mem := rfl
@[simp] theorem State.onGroup_poison (s : State) (g : Nat) (f : Group → Group) : (s.onGroup g f).poison = s.poison := rfl
@[simp] theorem State.onGroup_latent (s : State) (g : Nat) (f : Group → Group) : (s.onGroup g f).latent = s.latent := rfl
@[simp] theorem State.onGroup_latentWords (s : State) (g : Nat) (f : Group → Group) : (s.onGroup g f).latentWords = s.latentWords := rfl
@[simp] theorem State.onGroup_errors (s : State) (g : Nat) (f : Group → Group) : (s.onGroup g f).errors = s.errors := rfl
@[simp] theorem State.onGroup_signed (s : State) (g : Nat) (f : Group → Group) : (s.onGroup g f).signed = s.signed := rfl
@[simp] theorem State.onGroup_roof (s : State) (g : Nat) (f : Group → Group) : (s.onGroup g f).roof = s.roof := rfl
@[simp] theorem State.onGroup_roofPoison (s : State) (g : Nat) (f : Group → Group) : (s.onGroup g f).roofPoison = s.roofPoison := rfl
@[simp] theorem State.onGroup_caches (s : State) (g : Nat) (f : Group → Group) : (s.onGroup g f).caches = s.caches := rfl
@[simp] theorem State.onGroup_engines (s : State) (g : Nat) (f : Group → Group) : (s.onGroup g f).engines = s.engines := rfl
@[simp] theorem State.onGroup_outside (s : State) (g : Nat) (f : Group → Group) : (s.onGroup g f).outside = s.outside := rfl
@[simp] theorem State.onGroup_bounds (s : State) (g : Nat) (f : Group → Group) : (s.onGroup g f).bounds = s.bounds := rfl
@[simp] theorem State.onGroup_ctxs (s : State) (g : Nat) (f : Group → Group) : (s.onGroup g f).ctxs = s.ctxs := rfl
@[simp] theorem State.onGroup_dutyMode (s : State) (g : Nat) (f : Group → Group) : (s.onGroup g f).dutyMode = s.dutyMode := rfl
@[simp] theorem State.onGroup_quantum (s : State) (g : Nat) (f : Group → Group) : (s.onGroup g f).quantum = s.quantum := rfl
@[simp] theorem State.onGroup_chunk (s : State) (g : Nat) (f : Group → Group) : (s.onGroup g f).chunk = s.chunk := rfl
@[simp] theorem State.onGroup_stackCsrs (s : State) (g : Nat) (f : Group → Group) : (s.onGroup g f).stackCsrs = s.stackCsrs := rfl
@[simp] theorem State.onGroup_slices (s : State) (g : Nat) (f : Group → Group) : (s.onGroup g f).slices = s.slices := rfl
@[simp] theorem State.onGroup_groups (s : State) (g : Nat) (f : Group → Group) : (s.onGroup g f).groups = updateWhere (·.uid == g) f s.groups := rfl
@[simp] theorem State.onGroup_wgs (s : State) (g : Nat) (f : Group → Group) : (s.onGroup g f).wgs = s.wgs := rfl
@[simp] theorem State.onGroup_launches (s : State) (g : Nat) (f : Group → Group) : (s.onGroup g f).launches = s.launches := rfl
@[simp] theorem State.onGroup_pipes (s : State) (g : Nat) (f : Group → Group) : (s.onGroup g f).pipes = s.pipes := rfl
@[simp] theorem State.onGroup_lastPreempt (s : State) (g : Nat) (f : Group → Group) : (s.onGroup g f).lastPreempt = s.lastPreempt := rfl
@[simp] theorem State.onGroup_savedUnits (s : State) (g : Nat) (f : Group → Group) : (s.onGroup g f).savedUnits = s.savedUnits := rfl
@[simp] theorem State.onGroup_dieNext (s : State) (g : Nat) (f : Group → Group) : (s.onGroup g f).dieNext = s.dieNext := rfl
@[simp] theorem State.onGroup_queueNext (s : State) (g : Nat) (f : Group → Group) : (s.onGroup g f).queueNext = s.queueNext := rfl
@[simp] theorem State.onGroup_stealLfsr (s : State) (g : Nat) (f : Group → Group) : (s.onGroup g f).stealLfsr = s.stealLfsr := rfl
@[simp] theorem State.onGroup_probeNext (s : State) (g : Nat) (f : Group → Group) : (s.onGroup g f).probeNext = s.probeNext := rfl
@[simp] theorem State.onGroup_heldScratch (s : State) (g : Nat) (f : Group → Group) : (s.onGroup g f).heldScratch = s.heldScratch := rfl

/-! ### `onWg` -/

@[simp] theorem State.onWg_agenda (s : State) (w : Nat) (f : Workgroup → Workgroup) : (s.onWg w f).agenda = s.agenda := rfl
@[simp] theorem State.onWg_ticks (s : State) (w : Nat) (f : Workgroup → Workgroup) : (s.onWg w f).ticks = s.ticks := rfl
@[simp] theorem State.onWg_free (s : State) (w : Nat) (f : Workgroup → Workgroup) : (s.onWg w f).free = s.free := rfl
@[simp] theorem State.onWg_cur (s : State) (w : Nat) (f : Workgroup → Workgroup) : (s.onWg w f).cur = s.cur := rfl
@[simp] theorem State.onWg_nextId (s : State) (w : Nat) (f : Workgroup → Workgroup) : (s.onWg w f).nextId = s.nextId := rfl
@[simp] theorem State.onWg_clock (s : State) (w : Nat) (f : Workgroup → Workgroup) : (s.onWg w f).clock = s.clock := rfl
@[simp] theorem State.onWg_dieMHz (s : State) (w : Nat) (f : Workgroup → Workgroup) : (s.onWg w f).dieMHz = s.dieMHz := rfl
@[simp] theorem State.onWg_baseClk (s : State) (w : Nat) (f : Workgroup → Workgroup) : (s.onWg w f).baseClk = s.baseClk := rfl
@[simp] theorem State.onWg_basePart (s : State) (w : Nat) (f : Workgroup → Workgroup) : (s.onWg w f).basePart = s.basePart := rfl
@[simp] theorem State.onWg_mem (s : State) (w : Nat) (f : Workgroup → Workgroup) : (s.onWg w f).mem = s.mem := rfl
@[simp] theorem State.onWg_poison (s : State) (w : Nat) (f : Workgroup → Workgroup) : (s.onWg w f).poison = s.poison := rfl
@[simp] theorem State.onWg_latent (s : State) (w : Nat) (f : Workgroup → Workgroup) : (s.onWg w f).latent = s.latent := rfl
@[simp] theorem State.onWg_latentWords (s : State) (w : Nat) (f : Workgroup → Workgroup) : (s.onWg w f).latentWords = s.latentWords := rfl
@[simp] theorem State.onWg_errors (s : State) (w : Nat) (f : Workgroup → Workgroup) : (s.onWg w f).errors = s.errors := rfl
@[simp] theorem State.onWg_signed (s : State) (w : Nat) (f : Workgroup → Workgroup) : (s.onWg w f).signed = s.signed := rfl
@[simp] theorem State.onWg_roof (s : State) (w : Nat) (f : Workgroup → Workgroup) : (s.onWg w f).roof = s.roof := rfl
@[simp] theorem State.onWg_roofPoison (s : State) (w : Nat) (f : Workgroup → Workgroup) : (s.onWg w f).roofPoison = s.roofPoison := rfl
@[simp] theorem State.onWg_caches (s : State) (w : Nat) (f : Workgroup → Workgroup) : (s.onWg w f).caches = s.caches := rfl
@[simp] theorem State.onWg_engines (s : State) (w : Nat) (f : Workgroup → Workgroup) : (s.onWg w f).engines = s.engines := rfl
@[simp] theorem State.onWg_outside (s : State) (w : Nat) (f : Workgroup → Workgroup) : (s.onWg w f).outside = s.outside := rfl
@[simp] theorem State.onWg_bounds (s : State) (w : Nat) (f : Workgroup → Workgroup) : (s.onWg w f).bounds = s.bounds := rfl
@[simp] theorem State.onWg_ctxs (s : State) (w : Nat) (f : Workgroup → Workgroup) : (s.onWg w f).ctxs = s.ctxs := rfl
@[simp] theorem State.onWg_dutyMode (s : State) (w : Nat) (f : Workgroup → Workgroup) : (s.onWg w f).dutyMode = s.dutyMode := rfl
@[simp] theorem State.onWg_quantum (s : State) (w : Nat) (f : Workgroup → Workgroup) : (s.onWg w f).quantum = s.quantum := rfl
@[simp] theorem State.onWg_chunk (s : State) (w : Nat) (f : Workgroup → Workgroup) : (s.onWg w f).chunk = s.chunk := rfl
@[simp] theorem State.onWg_stackCsrs (s : State) (w : Nat) (f : Workgroup → Workgroup) : (s.onWg w f).stackCsrs = s.stackCsrs := rfl
@[simp] theorem State.onWg_slices (s : State) (w : Nat) (f : Workgroup → Workgroup) : (s.onWg w f).slices = s.slices := rfl
@[simp] theorem State.onWg_groups (s : State) (w : Nat) (f : Workgroup → Workgroup) : (s.onWg w f).groups = s.groups := rfl
@[simp] theorem State.onWg_wgs (s : State) (w : Nat) (f : Workgroup → Workgroup) : (s.onWg w f).wgs = updateWhere (·.uid == w) f s.wgs := rfl
@[simp] theorem State.onWg_launches (s : State) (w : Nat) (f : Workgroup → Workgroup) : (s.onWg w f).launches = s.launches := rfl
@[simp] theorem State.onWg_pipes (s : State) (w : Nat) (f : Workgroup → Workgroup) : (s.onWg w f).pipes = s.pipes := rfl
@[simp] theorem State.onWg_lastPreempt (s : State) (w : Nat) (f : Workgroup → Workgroup) : (s.onWg w f).lastPreempt = s.lastPreempt := rfl
@[simp] theorem State.onWg_savedUnits (s : State) (w : Nat) (f : Workgroup → Workgroup) : (s.onWg w f).savedUnits = s.savedUnits := rfl
@[simp] theorem State.onWg_dieNext (s : State) (w : Nat) (f : Workgroup → Workgroup) : (s.onWg w f).dieNext = s.dieNext := rfl
@[simp] theorem State.onWg_queueNext (s : State) (w : Nat) (f : Workgroup → Workgroup) : (s.onWg w f).queueNext = s.queueNext := rfl
@[simp] theorem State.onWg_stealLfsr (s : State) (w : Nat) (f : Workgroup → Workgroup) : (s.onWg w f).stealLfsr = s.stealLfsr := rfl
@[simp] theorem State.onWg_probeNext (s : State) (w : Nat) (f : Workgroup → Workgroup) : (s.onWg w f).probeNext = s.probeNext := rfl
@[simp] theorem State.onWg_heldScratch (s : State) (w : Nat) (f : Workgroup → Workgroup) : (s.onWg w f).heldScratch = s.heldScratch := rfl

/-! ### `onLaunch` -/

@[simp] theorem State.onLaunch_agenda (s : State) (l : Nat) (f : Launch → Launch) : (s.onLaunch l f).agenda = s.agenda := rfl
@[simp] theorem State.onLaunch_ticks (s : State) (l : Nat) (f : Launch → Launch) : (s.onLaunch l f).ticks = s.ticks := rfl
@[simp] theorem State.onLaunch_free (s : State) (l : Nat) (f : Launch → Launch) : (s.onLaunch l f).free = s.free := rfl
@[simp] theorem State.onLaunch_cur (s : State) (l : Nat) (f : Launch → Launch) : (s.onLaunch l f).cur = s.cur := rfl
@[simp] theorem State.onLaunch_nextId (s : State) (l : Nat) (f : Launch → Launch) : (s.onLaunch l f).nextId = s.nextId := rfl
@[simp] theorem State.onLaunch_clock (s : State) (l : Nat) (f : Launch → Launch) : (s.onLaunch l f).clock = s.clock := rfl
@[simp] theorem State.onLaunch_dieMHz (s : State) (l : Nat) (f : Launch → Launch) : (s.onLaunch l f).dieMHz = s.dieMHz := rfl
@[simp] theorem State.onLaunch_baseClk (s : State) (l : Nat) (f : Launch → Launch) : (s.onLaunch l f).baseClk = s.baseClk := rfl
@[simp] theorem State.onLaunch_basePart (s : State) (l : Nat) (f : Launch → Launch) : (s.onLaunch l f).basePart = s.basePart := rfl
@[simp] theorem State.onLaunch_mem (s : State) (l : Nat) (f : Launch → Launch) : (s.onLaunch l f).mem = s.mem := rfl
@[simp] theorem State.onLaunch_poison (s : State) (l : Nat) (f : Launch → Launch) : (s.onLaunch l f).poison = s.poison := rfl
@[simp] theorem State.onLaunch_latent (s : State) (l : Nat) (f : Launch → Launch) : (s.onLaunch l f).latent = s.latent := rfl
@[simp] theorem State.onLaunch_latentWords (s : State) (l : Nat) (f : Launch → Launch) : (s.onLaunch l f).latentWords = s.latentWords := rfl
@[simp] theorem State.onLaunch_errors (s : State) (l : Nat) (f : Launch → Launch) : (s.onLaunch l f).errors = s.errors := rfl
@[simp] theorem State.onLaunch_signed (s : State) (l : Nat) (f : Launch → Launch) : (s.onLaunch l f).signed = s.signed := rfl
@[simp] theorem State.onLaunch_roof (s : State) (l : Nat) (f : Launch → Launch) : (s.onLaunch l f).roof = s.roof := rfl
@[simp] theorem State.onLaunch_roofPoison (s : State) (l : Nat) (f : Launch → Launch) : (s.onLaunch l f).roofPoison = s.roofPoison := rfl
@[simp] theorem State.onLaunch_caches (s : State) (l : Nat) (f : Launch → Launch) : (s.onLaunch l f).caches = s.caches := rfl
@[simp] theorem State.onLaunch_engines (s : State) (l : Nat) (f : Launch → Launch) : (s.onLaunch l f).engines = s.engines := rfl
@[simp] theorem State.onLaunch_outside (s : State) (l : Nat) (f : Launch → Launch) : (s.onLaunch l f).outside = s.outside := rfl
@[simp] theorem State.onLaunch_bounds (s : State) (l : Nat) (f : Launch → Launch) : (s.onLaunch l f).bounds = s.bounds := rfl
@[simp] theorem State.onLaunch_ctxs (s : State) (l : Nat) (f : Launch → Launch) : (s.onLaunch l f).ctxs = s.ctxs := rfl
@[simp] theorem State.onLaunch_dutyMode (s : State) (l : Nat) (f : Launch → Launch) : (s.onLaunch l f).dutyMode = s.dutyMode := rfl
@[simp] theorem State.onLaunch_quantum (s : State) (l : Nat) (f : Launch → Launch) : (s.onLaunch l f).quantum = s.quantum := rfl
@[simp] theorem State.onLaunch_chunk (s : State) (l : Nat) (f : Launch → Launch) : (s.onLaunch l f).chunk = s.chunk := rfl
@[simp] theorem State.onLaunch_stackCsrs (s : State) (l : Nat) (f : Launch → Launch) : (s.onLaunch l f).stackCsrs = s.stackCsrs := rfl
@[simp] theorem State.onLaunch_slices (s : State) (l : Nat) (f : Launch → Launch) : (s.onLaunch l f).slices = s.slices := rfl
@[simp] theorem State.onLaunch_groups (s : State) (l : Nat) (f : Launch → Launch) : (s.onLaunch l f).groups = s.groups := rfl
@[simp] theorem State.onLaunch_wgs (s : State) (l : Nat) (f : Launch → Launch) : (s.onLaunch l f).wgs = s.wgs := rfl
@[simp] theorem State.onLaunch_launches (s : State) (l : Nat) (f : Launch → Launch) : (s.onLaunch l f).launches = updateWhere (·.id == l) f s.launches := rfl
@[simp] theorem State.onLaunch_pipes (s : State) (l : Nat) (f : Launch → Launch) : (s.onLaunch l f).pipes = s.pipes := rfl
@[simp] theorem State.onLaunch_lastPreempt (s : State) (l : Nat) (f : Launch → Launch) : (s.onLaunch l f).lastPreempt = s.lastPreempt := rfl
@[simp] theorem State.onLaunch_savedUnits (s : State) (l : Nat) (f : Launch → Launch) : (s.onLaunch l f).savedUnits = s.savedUnits := rfl
@[simp] theorem State.onLaunch_dieNext (s : State) (l : Nat) (f : Launch → Launch) : (s.onLaunch l f).dieNext = s.dieNext := rfl
@[simp] theorem State.onLaunch_queueNext (s : State) (l : Nat) (f : Launch → Launch) : (s.onLaunch l f).queueNext = s.queueNext := rfl
@[simp] theorem State.onLaunch_stealLfsr (s : State) (l : Nat) (f : Launch → Launch) : (s.onLaunch l f).stealLfsr = s.stealLfsr := rfl
@[simp] theorem State.onLaunch_probeNext (s : State) (l : Nat) (f : Launch → Launch) : (s.onLaunch l f).probeNext = s.probeNext := rfl
@[simp] theorem State.onLaunch_heldScratch (s : State) (l : Nat) (f : Launch → Launch) : (s.onLaunch l f).heldScratch = s.heldScratch := rfl

/-! ### `setBank` -/

@[simp] theorem State.setBank_agenda (s : State) (b : Bank) : (s.setBank b).agenda = s.agenda := rfl
@[simp] theorem State.setBank_ticks (s : State) (b : Bank) : (s.setBank b).ticks = s.ticks := rfl
@[simp] theorem State.setBank_free (s : State) (b : Bank) : (s.setBank b).free = s.free := rfl
@[simp] theorem State.setBank_cur (s : State) (b : Bank) : (s.setBank b).cur = s.cur := rfl
@[simp] theorem State.setBank_nextId (s : State) (b : Bank) : (s.setBank b).nextId = s.nextId := rfl
@[simp] theorem State.setBank_clock (s : State) (b : Bank) : (s.setBank b).clock = s.clock := rfl
@[simp] theorem State.setBank_dieMHz (s : State) (b : Bank) : (s.setBank b).dieMHz = s.dieMHz := rfl
@[simp] theorem State.setBank_baseClk (s : State) (b : Bank) : (s.setBank b).baseClk = s.baseClk := rfl
@[simp] theorem State.setBank_basePart (s : State) (b : Bank) : (s.setBank b).basePart = s.basePart := rfl
@[simp] theorem State.setBank_mem (s : State) (b : Bank) : (s.setBank b).mem = s.mem := rfl
@[simp] theorem State.setBank_poison (s : State) (b : Bank) : (s.setBank b).poison = s.poison := rfl
@[simp] theorem State.setBank_latent (s : State) (b : Bank) : (s.setBank b).latent = s.latent := rfl
@[simp] theorem State.setBank_latentWords (s : State) (b : Bank) : (s.setBank b).latentWords = s.latentWords := rfl
@[simp] theorem State.setBank_errors (s : State) (b : Bank) : (s.setBank b).errors = s.errors := rfl
@[simp] theorem State.setBank_signed (s : State) (b : Bank) : (s.setBank b).signed = s.signed := rfl
@[simp] theorem State.setBank_roof (s : State) (b : Bank) : (s.setBank b).roof = s.roof := rfl
@[simp] theorem State.setBank_roofPoison (s : State) (b : Bank) : (s.setBank b).roofPoison = s.roofPoison := rfl
@[simp] theorem State.setBank_caches (s : State) (b : Bank) : (s.setBank b).caches = s.caches := rfl
@[simp] theorem State.setBank_engines (s : State) (b : Bank) : (s.setBank b).engines = { s.engines with banks := b :: s.engines.banks.filter fun x => !(x.stack == b.stack && x.pch == b.pch && x.bank == b.bank) } := rfl
@[simp] theorem State.setBank_outside (s : State) (b : Bank) : (s.setBank b).outside = s.outside := rfl
@[simp] theorem State.setBank_bounds (s : State) (b : Bank) : (s.setBank b).bounds = s.bounds := rfl
@[simp] theorem State.setBank_ctxs (s : State) (b : Bank) : (s.setBank b).ctxs = s.ctxs := rfl
@[simp] theorem State.setBank_dutyMode (s : State) (b : Bank) : (s.setBank b).dutyMode = s.dutyMode := rfl
@[simp] theorem State.setBank_quantum (s : State) (b : Bank) : (s.setBank b).quantum = s.quantum := rfl
@[simp] theorem State.setBank_chunk (s : State) (b : Bank) : (s.setBank b).chunk = s.chunk := rfl
@[simp] theorem State.setBank_stackCsrs (s : State) (b : Bank) : (s.setBank b).stackCsrs = s.stackCsrs := rfl
@[simp] theorem State.setBank_slices (s : State) (b : Bank) : (s.setBank b).slices = s.slices := rfl
@[simp] theorem State.setBank_groups (s : State) (b : Bank) : (s.setBank b).groups = s.groups := rfl
@[simp] theorem State.setBank_wgs (s : State) (b : Bank) : (s.setBank b).wgs = s.wgs := rfl
@[simp] theorem State.setBank_launches (s : State) (b : Bank) : (s.setBank b).launches = s.launches := rfl
@[simp] theorem State.setBank_pipes (s : State) (b : Bank) : (s.setBank b).pipes = s.pipes := rfl
@[simp] theorem State.setBank_lastPreempt (s : State) (b : Bank) : (s.setBank b).lastPreempt = s.lastPreempt := rfl
@[simp] theorem State.setBank_savedUnits (s : State) (b : Bank) : (s.setBank b).savedUnits = s.savedUnits := rfl
@[simp] theorem State.setBank_dieNext (s : State) (b : Bank) : (s.setBank b).dieNext = s.dieNext := rfl
@[simp] theorem State.setBank_queueNext (s : State) (b : Bank) : (s.setBank b).queueNext = s.queueNext := rfl
@[simp] theorem State.setBank_stealLfsr (s : State) (b : Bank) : (s.setBank b).stealLfsr = s.stealLfsr := rfl
@[simp] theorem State.setBank_probeNext (s : State) (b : Bank) : (s.setBank b).probeNext = s.probeNext := rfl
@[simp] theorem State.setBank_heldScratch (s : State) (b : Bank) : (s.setBank b).heldScratch = s.heldScratch := rfl

/-! ### `addPoison` -/

@[simp] theorem State.addPoison_agenda (s : State) (ts : List Nat) : (s.addPoison ts).agenda = s.agenda := rfl
@[simp] theorem State.addPoison_ticks (s : State) (ts : List Nat) : (s.addPoison ts).ticks = s.ticks := rfl
@[simp] theorem State.addPoison_free (s : State) (ts : List Nat) : (s.addPoison ts).free = s.free := rfl
@[simp] theorem State.addPoison_cur (s : State) (ts : List Nat) : (s.addPoison ts).cur = s.cur := rfl
@[simp] theorem State.addPoison_nextId (s : State) (ts : List Nat) : (s.addPoison ts).nextId = s.nextId := rfl
@[simp] theorem State.addPoison_clock (s : State) (ts : List Nat) : (s.addPoison ts).clock = s.clock := rfl
@[simp] theorem State.addPoison_dieMHz (s : State) (ts : List Nat) : (s.addPoison ts).dieMHz = s.dieMHz := rfl
@[simp] theorem State.addPoison_baseClk (s : State) (ts : List Nat) : (s.addPoison ts).baseClk = s.baseClk := rfl
@[simp] theorem State.addPoison_basePart (s : State) (ts : List Nat) : (s.addPoison ts).basePart = s.basePart := rfl
@[simp] theorem State.addPoison_mem (s : State) (ts : List Nat) : (s.addPoison ts).mem = s.mem := rfl
@[simp] theorem State.addPoison_poison (s : State) (ts : List Nat) : (s.addPoison ts).poison = ts.foldl (fun p t => insertNat t p) s.poison := rfl
@[simp] theorem State.addPoison_latent (s : State) (ts : List Nat) : (s.addPoison ts).latent = s.latent := rfl
@[simp] theorem State.addPoison_latentWords (s : State) (ts : List Nat) : (s.addPoison ts).latentWords = s.latentWords := rfl
@[simp] theorem State.addPoison_errors (s : State) (ts : List Nat) : (s.addPoison ts).errors = s.errors := rfl
@[simp] theorem State.addPoison_signed (s : State) (ts : List Nat) : (s.addPoison ts).signed = s.signed := rfl
@[simp] theorem State.addPoison_roof (s : State) (ts : List Nat) : (s.addPoison ts).roof = s.roof := rfl
@[simp] theorem State.addPoison_roofPoison (s : State) (ts : List Nat) : (s.addPoison ts).roofPoison = s.roofPoison := rfl
@[simp] theorem State.addPoison_caches (s : State) (ts : List Nat) : (s.addPoison ts).caches = s.caches := rfl
@[simp] theorem State.addPoison_engines (s : State) (ts : List Nat) : (s.addPoison ts).engines = s.engines := rfl
@[simp] theorem State.addPoison_outside (s : State) (ts : List Nat) : (s.addPoison ts).outside = s.outside := rfl
@[simp] theorem State.addPoison_bounds (s : State) (ts : List Nat) : (s.addPoison ts).bounds = s.bounds := rfl
@[simp] theorem State.addPoison_ctxs (s : State) (ts : List Nat) : (s.addPoison ts).ctxs = s.ctxs := rfl
@[simp] theorem State.addPoison_dutyMode (s : State) (ts : List Nat) : (s.addPoison ts).dutyMode = s.dutyMode := rfl
@[simp] theorem State.addPoison_quantum (s : State) (ts : List Nat) : (s.addPoison ts).quantum = s.quantum := rfl
@[simp] theorem State.addPoison_chunk (s : State) (ts : List Nat) : (s.addPoison ts).chunk = s.chunk := rfl
@[simp] theorem State.addPoison_stackCsrs (s : State) (ts : List Nat) : (s.addPoison ts).stackCsrs = s.stackCsrs := rfl
@[simp] theorem State.addPoison_slices (s : State) (ts : List Nat) : (s.addPoison ts).slices = s.slices := rfl
@[simp] theorem State.addPoison_groups (s : State) (ts : List Nat) : (s.addPoison ts).groups = s.groups := rfl
@[simp] theorem State.addPoison_wgs (s : State) (ts : List Nat) : (s.addPoison ts).wgs = s.wgs := rfl
@[simp] theorem State.addPoison_launches (s : State) (ts : List Nat) : (s.addPoison ts).launches = s.launches := rfl
@[simp] theorem State.addPoison_pipes (s : State) (ts : List Nat) : (s.addPoison ts).pipes = s.pipes := rfl
@[simp] theorem State.addPoison_lastPreempt (s : State) (ts : List Nat) : (s.addPoison ts).lastPreempt = s.lastPreempt := rfl
@[simp] theorem State.addPoison_savedUnits (s : State) (ts : List Nat) : (s.addPoison ts).savedUnits = s.savedUnits := rfl
@[simp] theorem State.addPoison_dieNext (s : State) (ts : List Nat) : (s.addPoison ts).dieNext = s.dieNext := rfl
@[simp] theorem State.addPoison_queueNext (s : State) (ts : List Nat) : (s.addPoison ts).queueNext = s.queueNext := rfl
@[simp] theorem State.addPoison_stealLfsr (s : State) (ts : List Nat) : (s.addPoison ts).stealLfsr = s.stealLfsr := rfl
@[simp] theorem State.addPoison_probeNext (s : State) (ts : List Nat) : (s.addPoison ts).probeNext = s.probeNext := rfl
@[simp] theorem State.addPoison_heldScratch (s : State) (ts : List Nat) : (s.addPoison ts).heldScratch = s.heldScratch := rfl

/-! ### `putBounds` -/

@[simp] theorem State.putBounds_agenda (s : State) (quad ctx : Nat) (ws : List Word) : (s.putBounds quad ctx ws).agenda = s.agenda := rfl
@[simp] theorem State.putBounds_ticks (s : State) (quad ctx : Nat) (ws : List Word) : (s.putBounds quad ctx ws).ticks = s.ticks := rfl
@[simp] theorem State.putBounds_free (s : State) (quad ctx : Nat) (ws : List Word) : (s.putBounds quad ctx ws).free = s.free := rfl
@[simp] theorem State.putBounds_cur (s : State) (quad ctx : Nat) (ws : List Word) : (s.putBounds quad ctx ws).cur = s.cur := rfl
@[simp] theorem State.putBounds_nextId (s : State) (quad ctx : Nat) (ws : List Word) : (s.putBounds quad ctx ws).nextId = s.nextId := rfl
@[simp] theorem State.putBounds_clock (s : State) (quad ctx : Nat) (ws : List Word) : (s.putBounds quad ctx ws).clock = s.clock := rfl
@[simp] theorem State.putBounds_dieMHz (s : State) (quad ctx : Nat) (ws : List Word) : (s.putBounds quad ctx ws).dieMHz = s.dieMHz := rfl
@[simp] theorem State.putBounds_baseClk (s : State) (quad ctx : Nat) (ws : List Word) : (s.putBounds quad ctx ws).baseClk = s.baseClk := rfl
@[simp] theorem State.putBounds_basePart (s : State) (quad ctx : Nat) (ws : List Word) : (s.putBounds quad ctx ws).basePart = s.basePart := rfl
@[simp] theorem State.putBounds_mem (s : State) (quad ctx : Nat) (ws : List Word) : (s.putBounds quad ctx ws).mem = s.mem := rfl
@[simp] theorem State.putBounds_poison (s : State) (quad ctx : Nat) (ws : List Word) : (s.putBounds quad ctx ws).poison = s.poison := rfl
@[simp] theorem State.putBounds_latent (s : State) (quad ctx : Nat) (ws : List Word) : (s.putBounds quad ctx ws).latent = s.latent := rfl
@[simp] theorem State.putBounds_latentWords (s : State) (quad ctx : Nat) (ws : List Word) : (s.putBounds quad ctx ws).latentWords = s.latentWords := rfl
@[simp] theorem State.putBounds_errors (s : State) (quad ctx : Nat) (ws : List Word) : (s.putBounds quad ctx ws).errors = s.errors := rfl
@[simp] theorem State.putBounds_signed (s : State) (quad ctx : Nat) (ws : List Word) : (s.putBounds quad ctx ws).signed = s.signed := rfl
@[simp] theorem State.putBounds_roof (s : State) (quad ctx : Nat) (ws : List Word) : (s.putBounds quad ctx ws).roof = s.roof := rfl
@[simp] theorem State.putBounds_roofPoison (s : State) (quad ctx : Nat) (ws : List Word) : (s.putBounds quad ctx ws).roofPoison = s.roofPoison := rfl
@[simp] theorem State.putBounds_caches (s : State) (quad ctx : Nat) (ws : List Word) : (s.putBounds quad ctx ws).caches = s.caches := rfl
@[simp] theorem State.putBounds_engines (s : State) (quad ctx : Nat) (ws : List Word) : (s.putBounds quad ctx ws).engines = s.engines := rfl
@[simp] theorem State.putBounds_outside (s : State) (quad ctx : Nat) (ws : List Word) : (s.putBounds quad ctx ws).outside = s.outside := rfl
@[simp] theorem State.putBounds_bounds (s : State) (quad ctx : Nat) (ws : List Word) : (s.putBounds quad ctx ws).bounds = { quad := quad, ctx := ctx, regs := ws } :: s.bounds.filter fun b => !b.of quad ctx := rfl
@[simp] theorem State.putBounds_ctxs (s : State) (quad ctx : Nat) (ws : List Word) : (s.putBounds quad ctx ws).ctxs = s.ctxs := rfl
@[simp] theorem State.putBounds_dutyMode (s : State) (quad ctx : Nat) (ws : List Word) : (s.putBounds quad ctx ws).dutyMode = s.dutyMode := rfl
@[simp] theorem State.putBounds_quantum (s : State) (quad ctx : Nat) (ws : List Word) : (s.putBounds quad ctx ws).quantum = s.quantum := rfl
@[simp] theorem State.putBounds_chunk (s : State) (quad ctx : Nat) (ws : List Word) : (s.putBounds quad ctx ws).chunk = s.chunk := rfl
@[simp] theorem State.putBounds_stackCsrs (s : State) (quad ctx : Nat) (ws : List Word) : (s.putBounds quad ctx ws).stackCsrs = s.stackCsrs := rfl
@[simp] theorem State.putBounds_slices (s : State) (quad ctx : Nat) (ws : List Word) : (s.putBounds quad ctx ws).slices = s.slices := rfl
@[simp] theorem State.putBounds_groups (s : State) (quad ctx : Nat) (ws : List Word) : (s.putBounds quad ctx ws).groups = s.groups := rfl
@[simp] theorem State.putBounds_wgs (s : State) (quad ctx : Nat) (ws : List Word) : (s.putBounds quad ctx ws).wgs = s.wgs := rfl
@[simp] theorem State.putBounds_launches (s : State) (quad ctx : Nat) (ws : List Word) : (s.putBounds quad ctx ws).launches = s.launches := rfl
@[simp] theorem State.putBounds_pipes (s : State) (quad ctx : Nat) (ws : List Word) : (s.putBounds quad ctx ws).pipes = s.pipes := rfl
@[simp] theorem State.putBounds_lastPreempt (s : State) (quad ctx : Nat) (ws : List Word) : (s.putBounds quad ctx ws).lastPreempt = s.lastPreempt := rfl
@[simp] theorem State.putBounds_savedUnits (s : State) (quad ctx : Nat) (ws : List Word) : (s.putBounds quad ctx ws).savedUnits = s.savedUnits := rfl
@[simp] theorem State.putBounds_dieNext (s : State) (quad ctx : Nat) (ws : List Word) : (s.putBounds quad ctx ws).dieNext = s.dieNext := rfl
@[simp] theorem State.putBounds_queueNext (s : State) (quad ctx : Nat) (ws : List Word) : (s.putBounds quad ctx ws).queueNext = s.queueNext := rfl
@[simp] theorem State.putBounds_stealLfsr (s : State) (quad ctx : Nat) (ws : List Word) : (s.putBounds quad ctx ws).stealLfsr = s.stealLfsr := rfl
@[simp] theorem State.putBounds_probeNext (s : State) (quad ctx : Nat) (ws : List Word) : (s.putBounds quad ctx ws).probeNext = s.probeNext := rfl
@[simp] theorem State.putBounds_heldScratch (s : State) (quad ctx : Nat) (ws : List Word) : (s.putBounds quad ctx ws).heldScratch = s.heldScratch := rfl

/-! ### `Slice.setMask` -/

@[simp] theorem Slice.setMask_uid (x : Slice) (k : Nat) (m : BitVec 4) : (x.setMask k m).uid = x.uid := rfl
@[simp] theorem Slice.setMask_group (x : Slice) (k : Nat) (m : BitVec 4) : (x.setMask k m).group = x.group := rfl
@[simp] theorem Slice.setMask_idx (x : Slice) (k : Nat) (m : BitVec 4) : (x.setMask k m).idx = x.idx := rfl
@[simp] theorem Slice.setMask_gang (x : Slice) (k : Nat) (m : BitVec 4) : (x.setMask k m).gang = x.gang := rfl
@[simp] theorem Slice.setMask_age (x : Slice) (k : Nat) (m : BitVec 4) : (x.setMask k m).age = x.age := rfl
@[simp] theorem Slice.setMask_readySince (x : Slice) (k : Nat) (m : BitVec 4) : (x.setMask k m).readySince = x.readySince := rfl
@[simp] theorem Slice.setMask_notBefore (x : Slice) (k : Nat) (m : BitVec 4) : (x.setMask k m).notBefore = x.notBefore := rfl
@[simp] theorem Slice.setMask_pc (x : Slice) (k : Nat) (m : BitVec 4) : (x.setMask k m).pc = x.pc := rfl
@[simp] theorem Slice.setMask_masks (x : Slice) (k : Nat) (m : BitVec 4) : (x.setMask k m).masks = setNth x.masks k m := rfl
@[simp] theorem Slice.setMask_fmt (x : Slice) (k : Nat) (m : BitVec 4) : (x.setMask k m).fmt = x.fmt := rfl
@[simp] theorem Slice.setMask_seeds (x : Slice) (k : Nat) (m : BitVec 4) : (x.setMask k m).seeds = x.seeds := rfl
@[simp] theorem Slice.setMask_frames (x : Slice) (k : Nat) (m : BitVec 4) : (x.setMask k m).frames = x.frames := rfl
@[simp] theorem Slice.setMask_sof (x : Slice) (k : Nat) (m : BitVec 4) : (x.setMask k m).sof = x.sof := rfl
@[simp] theorem Slice.setMask_lrf (x : Slice) (k : Nat) (m : BitVec 4) : (x.setMask k m).lrf = x.lrf := rfl
@[simp] theorem Slice.setMask_lrfDue (x : Slice) (k : Nat) (m : BitVec 4) : (x.setMask k m).lrfDue = x.lrfDue := rfl
@[simp] theorem Slice.setMask_latch (x : Slice) (k : Nat) (m : BitVec 4) : (x.setMask k m).latch = x.latch := rfl
@[simp] theorem Slice.setMask_recon (x : Slice) (k : Nat) (m : BitVec 4) : (x.setMask k m).recon = x.recon := rfl
@[simp] theorem Slice.setMask_rxSlot (x : Slice) (k : Nat) (m : BitVec 4) : (x.setMask k m).rxSlot = x.rxSlot := rfl
@[simp] theorem Slice.setMask_rxHeld (x : Slice) (k : Nat) (m : BitVec 4) : (x.setMask k m).rxHeld = x.rxHeld := rfl
@[simp] theorem Slice.setMask_returned (x : Slice) (k : Nat) (m : BitVec 4) : (x.setMask k m).returned = x.returned := rfl
@[simp] theorem Slice.setMask_turn (x : Slice) (k : Nat) (m : BitVec 4) : (x.setMask k m).turn = x.turn := rfl
@[simp] theorem Slice.setMask_tstate (x : Slice) (k : Nat) (m : BitVec 4) : (x.setMask k m).tstate = x.tstate := rfl
@[simp] theorem Slice.setMask_status (x : Slice) (k : Nat) (m : BitVec 4) : (x.setMask k m).status = x.status := rfl
@[simp] theorem Slice.setMask_since (x : Slice) (k : Nat) (m : BitVec 4) : (x.setMask k m).since = x.since := rfl
@[simp] theorem Slice.setMask_limit (x : Slice) (k : Nat) (m : BitVec 4) : (x.setMask k m).limit = x.limit := rfl
@[simp] theorem Slice.setMask_barSet (x : Slice) (k : Nat) (m : BitVec 4) : (x.setMask k m).barSet = x.barSet := rfl
@[simp] theorem Slice.setMask_blockedSince (x : Slice) (k : Nat) (m : BitVec 4) : (x.setMask k m).blockedSince = x.blockedSince := rfl
@[simp] theorem Slice.setMask_run (x : Slice) (k : Nat) (m : BitVec 4) : (x.setMask k m).run = x.run := rfl
@[simp] theorem Slice.setMask_wdog (x : Slice) (k : Nat) (m : BitVec 4) : (x.setMask k m).wdog = x.wdog := rfl
@[simp] theorem Slice.setMask_parked (x : Slice) (k : Nat) (m : BitVec 4) : (x.setMask k m).parked = x.parked := rfl
@[simp] theorem Slice.setMask_pendingTrap (x : Slice) (k : Nat) (m : BitVec 4) : (x.setMask k m).pendingTrap = x.pendingTrap := rfl
@[simp] theorem Slice.setMask_nmcOut (x : Slice) (k : Nat) (m : BitVec 4) : (x.setMask k m).nmcOut = x.nmcOut := rfl
@[simp] theorem Slice.setMask_remoteOut (x : Slice) (k : Nat) (m : BitVec 4) : (x.setMask k m).remoteOut = x.remoteOut := rfl
@[simp] theorem Slice.setMask_guest (x : Slice) (k : Nat) (m : BitVec 4) : (x.setMask k m).guest = x.guest := rfl
@[simp] theorem Slice.setMask_mig (x : Slice) (k : Nat) (m : BitVec 4) : (x.setMask k m).mig = x.mig := rfl
@[simp] theorem Slice.setMask_stay (x : Slice) (k : Nat) (m : BitVec 4) : (x.setMask k m).stay = x.stay := rfl
@[simp] theorem Slice.setMask_spill (x : Slice) (k : Nat) (m : BitVec 4) : (x.setMask k m).spill = x.spill := rfl
@[simp] theorem Slice.setMask_held (x : Slice) (k : Nat) (m : BitVec 4) : (x.setMask k m).held = x.held := rfl
@[simp] theorem Slice.setMask_mbar (x : Slice) (k : Nat) (m : BitVec 4) : (x.setMask k m).mbar = x.mbar := rfl
@[simp] theorem Slice.setMask_stopped (x : Slice) (k : Nat) (m : BitVec 4) : (x.setMask k m).stopped = x.stopped := rfl
@[simp] theorem Slice.setMask_epc (x : Slice) (k : Nat) (m : BitVec 4) : (x.setMask k m).epc = x.epc := rfl
@[simp] theorem Slice.setMask_ecause (x : Slice) (k : Nat) (m : BitVec 4) : (x.setMask k m).ecause = x.ecause := rfl
@[simp] theorem Slice.setMask_eaddr (x : Slice) (k : Nat) (m : BitVec 4) : (x.setMask k m).eaddr = x.eaddr := rfl
@[simp] theorem Slice.setMask_sysCtx (x : Slice) (k : Nat) (m : BitVec 4) : (x.setMask k m).sysCtx = x.sysCtx := rfl

/-! ### `Slice.retired` -/

@[simp] theorem Slice.retired_uid (x : Slice) : (x.retired).uid = x.uid := rfl
@[simp] theorem Slice.retired_group (x : Slice) : (x.retired).group = x.group := rfl
@[simp] theorem Slice.retired_idx (x : Slice) : (x.retired).idx = x.idx := rfl
@[simp] theorem Slice.retired_gang (x : Slice) : (x.retired).gang = x.gang := rfl
@[simp] theorem Slice.retired_age (x : Slice) : (x.retired).age = x.age := rfl
@[simp] theorem Slice.retired_readySince (x : Slice) : (x.retired).readySince = x.readySince := rfl
@[simp] theorem Slice.retired_notBefore (x : Slice) : (x.retired).notBefore = x.notBefore := rfl
@[simp] theorem Slice.retired_pc (x : Slice) : (x.retired).pc = x.pc := rfl
@[simp] theorem Slice.retired_masks (x : Slice) : (x.retired).masks = x.masks := rfl
@[simp] theorem Slice.retired_fmt (x : Slice) : (x.retired).fmt = x.fmt := rfl
@[simp] theorem Slice.retired_seeds (x : Slice) : (x.retired).seeds = x.seeds := rfl
@[simp] theorem Slice.retired_frames (x : Slice) : (x.retired).frames = x.frames := rfl
@[simp] theorem Slice.retired_sof (x : Slice) : (x.retired).sof = x.sof := rfl
@[simp] theorem Slice.retired_lrf (x : Slice) : (x.retired).lrf = x.lrf := rfl
@[simp] theorem Slice.retired_lrfDue (x : Slice) : (x.retired).lrfDue = x.lrfDue := rfl
@[simp] theorem Slice.retired_latch (x : Slice) : (x.retired).latch = x.latch := rfl
@[simp] theorem Slice.retired_recon (x : Slice) : (x.retired).recon = x.recon := rfl
@[simp] theorem Slice.retired_rxSlot (x : Slice) : (x.retired).rxSlot = x.rxSlot := rfl
@[simp] theorem Slice.retired_rxHeld (x : Slice) : (x.retired).rxHeld = x.rxHeld := rfl
@[simp] theorem Slice.retired_returned (x : Slice) : (x.retired).returned = x.returned := rfl
@[simp] theorem Slice.retired_turn (x : Slice) : (x.retired).turn = x.turn := rfl
@[simp] theorem Slice.retired_tstate (x : Slice) : (x.retired).tstate = x.tstate := rfl
@[simp] theorem Slice.retired_status (x : Slice) : (x.retired).status = x.status := rfl
@[simp] theorem Slice.retired_since (x : Slice) : (x.retired).since = none := rfl
@[simp] theorem Slice.retired_limit (x : Slice) : (x.retired).limit = x.limit := rfl
@[simp] theorem Slice.retired_barSet (x : Slice) : (x.retired).barSet = x.barSet := rfl
@[simp] theorem Slice.retired_blockedSince (x : Slice) : (x.retired).blockedSince = x.blockedSince := rfl
@[simp] theorem Slice.retired_run (x : Slice) : (x.retired).run = none := rfl
@[simp] theorem Slice.retired_wdog (x : Slice) : (x.retired).wdog = 0 := rfl
@[simp] theorem Slice.retired_parked (x : Slice) : (x.retired).parked = x.parked := rfl
@[simp] theorem Slice.retired_pendingTrap (x : Slice) : (x.retired).pendingTrap = x.pendingTrap := rfl
@[simp] theorem Slice.retired_nmcOut (x : Slice) : (x.retired).nmcOut = x.nmcOut := rfl
@[simp] theorem Slice.retired_remoteOut (x : Slice) : (x.retired).remoteOut = x.remoteOut := rfl
@[simp] theorem Slice.retired_guest (x : Slice) : (x.retired).guest = x.guest := rfl
@[simp] theorem Slice.retired_mig (x : Slice) : (x.retired).mig = x.mig := rfl
@[simp] theorem Slice.retired_stay (x : Slice) : (x.retired).stay = false := rfl
@[simp] theorem Slice.retired_spill (x : Slice) : (x.retired).spill = x.spill := rfl
@[simp] theorem Slice.retired_held (x : Slice) : (x.retired).held = x.held := rfl
@[simp] theorem Slice.retired_mbar (x : Slice) : (x.retired).mbar = [] := rfl
@[simp] theorem Slice.retired_stopped (x : Slice) : (x.retired).stopped = x.stopped := rfl
@[simp] theorem Slice.retired_epc (x : Slice) : (x.retired).epc = x.epc := rfl
@[simp] theorem Slice.retired_ecause (x : Slice) : (x.retired).ecause = x.ecause := rfl
@[simp] theorem Slice.retired_eaddr (x : Slice) : (x.retired).eaddr = x.eaddr := rfl
@[simp] theorem Slice.retired_sysCtx (x : Slice) : (x.retired).sysCtx = x.sysCtx := rfl

/-! ### `Slice.block` -/

@[simp] theorem Slice.block_uid (x : Slice) (clock : DWord) (need : Nat) (what : Block) : (x.block clock need what).uid = x.uid := rfl
@[simp] theorem Slice.block_group (x : Slice) (clock : DWord) (need : Nat) (what : Block) : (x.block clock need what).group = x.group := rfl
@[simp] theorem Slice.block_idx (x : Slice) (clock : DWord) (need : Nat) (what : Block) : (x.block clock need what).idx = x.idx := rfl
@[simp] theorem Slice.block_gang (x : Slice) (clock : DWord) (need : Nat) (what : Block) : (x.block clock need what).gang = x.gang := rfl
@[simp] theorem Slice.block_age (x : Slice) (clock : DWord) (need : Nat) (what : Block) : (x.block clock need what).age = x.age := rfl
@[simp] theorem Slice.block_readySince (x : Slice) (clock : DWord) (need : Nat) (what : Block) : (x.block clock need what).readySince = x.readySince := rfl
@[simp] theorem Slice.block_notBefore (x : Slice) (clock : DWord) (need : Nat) (what : Block) : (x.block clock need what).notBefore = x.notBefore := rfl
@[simp] theorem Slice.block_pc (x : Slice) (clock : DWord) (need : Nat) (what : Block) : (x.block clock need what).pc = x.pc := rfl
@[simp] theorem Slice.block_masks (x : Slice) (clock : DWord) (need : Nat) (what : Block) : (x.block clock need what).masks = x.masks := rfl
@[simp] theorem Slice.block_fmt (x : Slice) (clock : DWord) (need : Nat) (what : Block) : (x.block clock need what).fmt = x.fmt := rfl
@[simp] theorem Slice.block_seeds (x : Slice) (clock : DWord) (need : Nat) (what : Block) : (x.block clock need what).seeds = x.seeds := rfl
@[simp] theorem Slice.block_frames (x : Slice) (clock : DWord) (need : Nat) (what : Block) : (x.block clock need what).frames = x.frames := rfl
@[simp] theorem Slice.block_sof (x : Slice) (clock : DWord) (need : Nat) (what : Block) : (x.block clock need what).sof = x.sof := rfl
@[simp] theorem Slice.block_lrf (x : Slice) (clock : DWord) (need : Nat) (what : Block) : (x.block clock need what).lrf = x.lrf := rfl
@[simp] theorem Slice.block_lrfDue (x : Slice) (clock : DWord) (need : Nat) (what : Block) : (x.block clock need what).lrfDue = x.lrfDue := rfl
@[simp] theorem Slice.block_latch (x : Slice) (clock : DWord) (need : Nat) (what : Block) : (x.block clock need what).latch = x.latch := rfl
@[simp] theorem Slice.block_recon (x : Slice) (clock : DWord) (need : Nat) (what : Block) : (x.block clock need what).recon = x.recon := rfl
@[simp] theorem Slice.block_rxSlot (x : Slice) (clock : DWord) (need : Nat) (what : Block) : (x.block clock need what).rxSlot = x.rxSlot := rfl
@[simp] theorem Slice.block_rxHeld (x : Slice) (clock : DWord) (need : Nat) (what : Block) : (x.block clock need what).rxHeld = x.rxHeld := rfl
@[simp] theorem Slice.block_returned (x : Slice) (clock : DWord) (need : Nat) (what : Block) : (x.block clock need what).returned = x.returned := rfl
@[simp] theorem Slice.block_turn (x : Slice) (clock : DWord) (need : Nat) (what : Block) : (x.block clock need what).turn = x.turn := rfl
@[simp] theorem Slice.block_tstate (x : Slice) (clock : DWord) (need : Nat) (what : Block) : (x.block clock need what).tstate = x.tstate := rfl
@[simp] theorem Slice.block_status (x : Slice) (clock : DWord) (need : Nat) (what : Block) : (x.block clock need what).status = .frameBlocked need what := rfl
@[simp] theorem Slice.block_since (x : Slice) (clock : DWord) (need : Nat) (what : Block) : (x.block clock need what).since = none := rfl
@[simp] theorem Slice.block_limit (x : Slice) (clock : DWord) (need : Nat) (what : Block) : (x.block clock need what).limit = x.limit := rfl
@[simp] theorem Slice.block_barSet (x : Slice) (clock : DWord) (need : Nat) (what : Block) : (x.block clock need what).barSet = x.barSet := rfl
@[simp] theorem Slice.block_blockedSince (x : Slice) (clock : DWord) (need : Nat) (what : Block) : (x.block clock need what).blockedSince = clock := rfl
@[simp] theorem Slice.block_run (x : Slice) (clock : DWord) (need : Nat) (what : Block) : (x.block clock need what).run = none := rfl
@[simp] theorem Slice.block_wdog (x : Slice) (clock : DWord) (need : Nat) (what : Block) : (x.block clock need what).wdog = x.waited clock := rfl
@[simp] theorem Slice.block_parked (x : Slice) (clock : DWord) (need : Nat) (what : Block) : (x.block clock need what).parked = x.parked := rfl
@[simp] theorem Slice.block_pendingTrap (x : Slice) (clock : DWord) (need : Nat) (what : Block) : (x.block clock need what).pendingTrap = x.pendingTrap := rfl
@[simp] theorem Slice.block_nmcOut (x : Slice) (clock : DWord) (need : Nat) (what : Block) : (x.block clock need what).nmcOut = x.nmcOut := rfl
@[simp] theorem Slice.block_remoteOut (x : Slice) (clock : DWord) (need : Nat) (what : Block) : (x.block clock need what).remoteOut = x.remoteOut := rfl
@[simp] theorem Slice.block_guest (x : Slice) (clock : DWord) (need : Nat) (what : Block) : (x.block clock need what).guest = x.guest := rfl
@[simp] theorem Slice.block_mig (x : Slice) (clock : DWord) (need : Nat) (what : Block) : (x.block clock need what).mig = x.mig := rfl
@[simp] theorem Slice.block_stay (x : Slice) (clock : DWord) (need : Nat) (what : Block) : (x.block clock need what).stay = x.stay := rfl
@[simp] theorem Slice.block_spill (x : Slice) (clock : DWord) (need : Nat) (what : Block) : (x.block clock need what).spill = x.spill := rfl
@[simp] theorem Slice.block_held (x : Slice) (clock : DWord) (need : Nat) (what : Block) : (x.block clock need what).held = x.held := rfl
@[simp] theorem Slice.block_mbar (x : Slice) (clock : DWord) (need : Nat) (what : Block) : (x.block clock need what).mbar = x.mbar := rfl
@[simp] theorem Slice.block_stopped (x : Slice) (clock : DWord) (need : Nat) (what : Block) : (x.block clock need what).stopped = x.stopped := rfl
@[simp] theorem Slice.block_epc (x : Slice) (clock : DWord) (need : Nat) (what : Block) : (x.block clock need what).epc = x.epc := rfl
@[simp] theorem Slice.block_ecause (x : Slice) (clock : DWord) (need : Nat) (what : Block) : (x.block clock need what).ecause = x.ecause := rfl
@[simp] theorem Slice.block_eaddr (x : Slice) (clock : DWord) (need : Nat) (what : Block) : (x.block clock need what).eaddr = x.eaddr := rfl
@[simp] theorem Slice.block_sysCtx (x : Slice) (clock : DWord) (need : Nat) (what : Block) : (x.block clock need what).sysCtx = x.sysCtx := rfl

/-! ### `Slice.startReturn` -/

@[simp] theorem Slice.startReturn_uid (x : Slice) (origin kind : Nat) (code : Option (Instr × Nat)) : (x.startReturn origin kind code).uid = x.uid := rfl
@[simp] theorem Slice.startReturn_group (x : Slice) (origin kind : Nat) (code : Option (Instr × Nat)) : (x.startReturn origin kind code).group = x.group := rfl
@[simp] theorem Slice.startReturn_idx (x : Slice) (origin kind : Nat) (code : Option (Instr × Nat)) : (x.startReturn origin kind code).idx = x.idx := rfl
@[simp] theorem Slice.startReturn_gang (x : Slice) (origin kind : Nat) (code : Option (Instr × Nat)) : (x.startReturn origin kind code).gang = x.gang := rfl
@[simp] theorem Slice.startReturn_age (x : Slice) (origin kind : Nat) (code : Option (Instr × Nat)) : (x.startReturn origin kind code).age = x.age := rfl
@[simp] theorem Slice.startReturn_readySince (x : Slice) (origin kind : Nat) (code : Option (Instr × Nat)) : (x.startReturn origin kind code).readySince = x.readySince := rfl
@[simp] theorem Slice.startReturn_notBefore (x : Slice) (origin kind : Nat) (code : Option (Instr × Nat)) : (x.startReturn origin kind code).notBefore = x.notBefore := rfl
@[simp] theorem Slice.startReturn_pc (x : Slice) (origin kind : Nat) (code : Option (Instr × Nat)) : (x.startReturn origin kind code).pc = x.pc := rfl
@[simp] theorem Slice.startReturn_masks (x : Slice) (origin kind : Nat) (code : Option (Instr × Nat)) : (x.startReturn origin kind code).masks = x.masks := rfl
@[simp] theorem Slice.startReturn_fmt (x : Slice) (origin kind : Nat) (code : Option (Instr × Nat)) : (x.startReturn origin kind code).fmt = x.fmt := rfl
@[simp] theorem Slice.startReturn_seeds (x : Slice) (origin kind : Nat) (code : Option (Instr × Nat)) : (x.startReturn origin kind code).seeds = x.seeds := rfl
@[simp] theorem Slice.startReturn_frames (x : Slice) (origin kind : Nat) (code : Option (Instr × Nat)) : (x.startReturn origin kind code).frames = x.frames := rfl
@[simp] theorem Slice.startReturn_sof (x : Slice) (origin kind : Nat) (code : Option (Instr × Nat)) : (x.startReturn origin kind code).sof = x.sof := rfl
@[simp] theorem Slice.startReturn_lrf (x : Slice) (origin kind : Nat) (code : Option (Instr × Nat)) : (x.startReturn origin kind code).lrf = x.lrf := rfl
@[simp] theorem Slice.startReturn_lrfDue (x : Slice) (origin kind : Nat) (code : Option (Instr × Nat)) : (x.startReturn origin kind code).lrfDue = x.lrfDue := rfl
@[simp] theorem Slice.startReturn_latch (x : Slice) (origin kind : Nat) (code : Option (Instr × Nat)) : (x.startReturn origin kind code).latch = x.latch := rfl
@[simp] theorem Slice.startReturn_recon (x : Slice) (origin kind : Nat) (code : Option (Instr × Nat)) : (x.startReturn origin kind code).recon = x.recon := rfl
@[simp] theorem Slice.startReturn_rxSlot (x : Slice) (origin kind : Nat) (code : Option (Instr × Nat)) : (x.startReturn origin kind code).rxSlot = x.rxSlot := rfl
@[simp] theorem Slice.startReturn_rxHeld (x : Slice) (origin kind : Nat) (code : Option (Instr × Nat)) : (x.startReturn origin kind code).rxHeld = x.rxHeld := rfl
@[simp] theorem Slice.startReturn_returned (x : Slice) (origin kind : Nat) (code : Option (Instr × Nat)) : (x.startReturn origin kind code).returned = x.returned := rfl
@[simp] theorem Slice.startReturn_turn (x : Slice) (origin kind : Nat) (code : Option (Instr × Nat)) : (x.startReturn origin kind code).turn = x.turn := rfl
@[simp] theorem Slice.startReturn_tstate (x : Slice) (origin kind : Nat) (code : Option (Instr × Nat)) : (x.startReturn origin kind code).tstate = x.tstate := rfl
@[simp] theorem Slice.startReturn_status (x : Slice) (origin kind : Nat) (code : Option (Instr × Nat)) : (x.startReturn origin kind code).status = .migrating := rfl
@[simp] theorem Slice.startReturn_since (x : Slice) (origin kind : Nat) (code : Option (Instr × Nat)) : (x.startReturn origin kind code).since = x.since := rfl
@[simp] theorem Slice.startReturn_limit (x : Slice) (origin kind : Nat) (code : Option (Instr × Nat)) : (x.startReturn origin kind code).limit = x.limit := rfl
@[simp] theorem Slice.startReturn_barSet (x : Slice) (origin kind : Nat) (code : Option (Instr × Nat)) : (x.startReturn origin kind code).barSet = x.barSet := rfl
@[simp] theorem Slice.startReturn_blockedSince (x : Slice) (origin kind : Nat) (code : Option (Instr × Nat)) : (x.startReturn origin kind code).blockedSince = x.blockedSince := rfl
@[simp] theorem Slice.startReturn_run (x : Slice) (origin kind : Nat) (code : Option (Instr × Nat)) : (x.startReturn origin kind code).run = x.run := rfl
@[simp] theorem Slice.startReturn_wdog (x : Slice) (origin kind : Nat) (code : Option (Instr × Nat)) : (x.startReturn origin kind code).wdog = x.wdog := rfl
@[simp] theorem Slice.startReturn_parked (x : Slice) (origin kind : Nat) (code : Option (Instr × Nat)) : (x.startReturn origin kind code).parked = x.parked := rfl
@[simp] theorem Slice.startReturn_pendingTrap (x : Slice) (origin kind : Nat) (code : Option (Instr × Nat)) : (x.startReturn origin kind code).pendingTrap = x.pendingTrap := rfl
@[simp] theorem Slice.startReturn_nmcOut (x : Slice) (origin kind : Nat) (code : Option (Instr × Nat)) : (x.startReturn origin kind code).nmcOut = x.nmcOut := rfl
@[simp] theorem Slice.startReturn_remoteOut (x : Slice) (origin kind : Nat) (code : Option (Instr × Nat)) : (x.startReturn origin kind code).remoteOut = x.remoteOut := rfl
@[simp] theorem Slice.startReturn_guest (x : Slice) (origin kind : Nat) (code : Option (Instr × Nat)) : (x.startReturn origin kind code).guest = x.guest := rfl
@[simp] theorem Slice.startReturn_mig (x : Slice) (origin kind : Nat) (code : Option (Instr × Nat)) : (x.startReturn origin kind code).mig = some { phase := .returning kind, dest := origin, code := code } := rfl
@[simp] theorem Slice.startReturn_stay (x : Slice) (origin kind : Nat) (code : Option (Instr × Nat)) : (x.startReturn origin kind code).stay = x.stay := rfl
@[simp] theorem Slice.startReturn_spill (x : Slice) (origin kind : Nat) (code : Option (Instr × Nat)) : (x.startReturn origin kind code).spill = x.spill := rfl
@[simp] theorem Slice.startReturn_held (x : Slice) (origin kind : Nat) (code : Option (Instr × Nat)) : (x.startReturn origin kind code).held = x.held := rfl
@[simp] theorem Slice.startReturn_mbar (x : Slice) (origin kind : Nat) (code : Option (Instr × Nat)) : (x.startReturn origin kind code).mbar = x.mbar := rfl
@[simp] theorem Slice.startReturn_stopped (x : Slice) (origin kind : Nat) (code : Option (Instr × Nat)) : (x.startReturn origin kind code).stopped = x.stopped := rfl
@[simp] theorem Slice.startReturn_epc (x : Slice) (origin kind : Nat) (code : Option (Instr × Nat)) : (x.startReturn origin kind code).epc = x.epc := rfl
@[simp] theorem Slice.startReturn_ecause (x : Slice) (origin kind : Nat) (code : Option (Instr × Nat)) : (x.startReturn origin kind code).ecause = x.ecause := rfl
@[simp] theorem Slice.startReturn_eaddr (x : Slice) (origin kind : Nat) (code : Option (Instr × Nat)) : (x.startReturn origin kind code).eaddr = x.eaddr := rfl
@[simp] theorem Slice.startReturn_sysCtx (x : Slice) (origin kind : Nat) (code : Option (Instr × Nat)) : (x.startReturn origin kind code).sysCtx = x.sysCtx := rfl

/-! ### `Slice.clearLocal` -/

@[simp] theorem Slice.clearLocal_uid (x : Slice) : (x.clearLocal).uid = x.uid := rfl
@[simp] theorem Slice.clearLocal_group (x : Slice) : (x.clearLocal).group = x.group := rfl
@[simp] theorem Slice.clearLocal_idx (x : Slice) : (x.clearLocal).idx = x.idx := rfl
@[simp] theorem Slice.clearLocal_gang (x : Slice) : (x.clearLocal).gang = x.gang := rfl
@[simp] theorem Slice.clearLocal_age (x : Slice) : (x.clearLocal).age = x.age := rfl
@[simp] theorem Slice.clearLocal_readySince (x : Slice) : (x.clearLocal).readySince = x.readySince := rfl
@[simp] theorem Slice.clearLocal_notBefore (x : Slice) : (x.clearLocal).notBefore = x.notBefore := rfl
@[simp] theorem Slice.clearLocal_pc (x : Slice) : (x.clearLocal).pc = x.pc := rfl
@[simp] theorem Slice.clearLocal_masks (x : Slice) : (x.clearLocal).masks = x.masks := rfl
@[simp] theorem Slice.clearLocal_fmt (x : Slice) : (x.clearLocal).fmt = x.fmt := rfl
@[simp] theorem Slice.clearLocal_seeds (x : Slice) : (x.clearLocal).seeds = x.seeds := rfl
@[simp] theorem Slice.clearLocal_frames (x : Slice) : (x.clearLocal).frames = x.frames := rfl
@[simp] theorem Slice.clearLocal_sof (x : Slice) : (x.clearLocal).sof = x.sof := rfl
@[simp] theorem Slice.clearLocal_lrf (x : Slice) : (x.clearLocal).lrf = List.replicate 4 (.u 0) := rfl
@[simp] theorem Slice.clearLocal_lrfDue (x : Slice) : (x.clearLocal).lrfDue = [] := rfl
@[simp] theorem Slice.clearLocal_latch (x : Slice) : (x.clearLocal).latch = [] := rfl
@[simp] theorem Slice.clearLocal_recon (x : Slice) : (x.clearLocal).recon = x.recon := rfl
@[simp] theorem Slice.clearLocal_rxSlot (x : Slice) : (x.clearLocal).rxSlot = x.rxSlot := rfl
@[simp] theorem Slice.clearLocal_rxHeld (x : Slice) : (x.clearLocal).rxHeld = x.rxHeld := rfl
@[simp] theorem Slice.clearLocal_returned (x : Slice) : (x.clearLocal).returned = x.returned := rfl
@[simp] theorem Slice.clearLocal_turn (x : Slice) : (x.clearLocal).turn = x.turn := rfl
@[simp] theorem Slice.clearLocal_tstate (x : Slice) : (x.clearLocal).tstate = x.tstate := rfl
@[simp] theorem Slice.clearLocal_status (x : Slice) : (x.clearLocal).status = x.status := rfl
@[simp] theorem Slice.clearLocal_since (x : Slice) : (x.clearLocal).since = x.since := rfl
@[simp] theorem Slice.clearLocal_limit (x : Slice) : (x.clearLocal).limit = x.limit := rfl
@[simp] theorem Slice.clearLocal_barSet (x : Slice) : (x.clearLocal).barSet = x.barSet := rfl
@[simp] theorem Slice.clearLocal_blockedSince (x : Slice) : (x.clearLocal).blockedSince = x.blockedSince := rfl
@[simp] theorem Slice.clearLocal_run (x : Slice) : (x.clearLocal).run = x.run := rfl
@[simp] theorem Slice.clearLocal_wdog (x : Slice) : (x.clearLocal).wdog = x.wdog := rfl
@[simp] theorem Slice.clearLocal_parked (x : Slice) : (x.clearLocal).parked = x.parked := rfl
@[simp] theorem Slice.clearLocal_pendingTrap (x : Slice) : (x.clearLocal).pendingTrap = x.pendingTrap := rfl
@[simp] theorem Slice.clearLocal_nmcOut (x : Slice) : (x.clearLocal).nmcOut = x.nmcOut := rfl
@[simp] theorem Slice.clearLocal_remoteOut (x : Slice) : (x.clearLocal).remoteOut = x.remoteOut := rfl
@[simp] theorem Slice.clearLocal_guest (x : Slice) : (x.clearLocal).guest = x.guest := rfl
@[simp] theorem Slice.clearLocal_mig (x : Slice) : (x.clearLocal).mig = x.mig := rfl
@[simp] theorem Slice.clearLocal_stay (x : Slice) : (x.clearLocal).stay = x.stay := rfl
@[simp] theorem Slice.clearLocal_spill (x : Slice) : (x.clearLocal).spill = x.spill := rfl
@[simp] theorem Slice.clearLocal_held (x : Slice) : (x.clearLocal).held = x.held := rfl
@[simp] theorem Slice.clearLocal_mbar (x : Slice) : (x.clearLocal).mbar = x.mbar := rfl
@[simp] theorem Slice.clearLocal_stopped (x : Slice) : (x.clearLocal).stopped = x.stopped := rfl
@[simp] theorem Slice.clearLocal_epc (x : Slice) : (x.clearLocal).epc = x.epc := rfl
@[simp] theorem Slice.clearLocal_ecause (x : Slice) : (x.clearLocal).ecause = x.ecause := rfl
@[simp] theorem Slice.clearLocal_eaddr (x : Slice) : (x.clearLocal).eaddr = x.eaddr := rfl
@[simp] theorem Slice.clearLocal_sysCtx (x : Slice) : (x.clearLocal).sysCtx = x.sysCtx := rfl

/-! ### `Slice.switch` -/

@[simp] theorem Slice.switch_uid (x : Slice) (e : Recon) (pc : DWord) : (x.switch e pc).uid = x.uid := rfl
@[simp] theorem Slice.switch_group (x : Slice) (e : Recon) (pc : DWord) : (x.switch e pc).group = x.group := rfl
@[simp] theorem Slice.switch_idx (x : Slice) (e : Recon) (pc : DWord) : (x.switch e pc).idx = x.idx := rfl
@[simp] theorem Slice.switch_gang (x : Slice) (e : Recon) (pc : DWord) : (x.switch e pc).gang = x.gang := rfl
@[simp] theorem Slice.switch_age (x : Slice) (e : Recon) (pc : DWord) : (x.switch e pc).age = x.age := rfl
@[simp] theorem Slice.switch_readySince (x : Slice) (e : Recon) (pc : DWord) : (x.switch e pc).readySince = x.readySince := rfl
@[simp] theorem Slice.switch_notBefore (x : Slice) (e : Recon) (pc : DWord) : (x.switch e pc).notBefore = x.notBefore := rfl
@[simp] theorem Slice.switch_pc (x : Slice) (e : Recon) (pc : DWord) : (x.switch e pc).pc = e.otherPc := rfl
@[simp] theorem Slice.switch_masks (x : Slice) (e : Recon) (pc : DWord) : (x.switch e pc).masks = setNth x.masks 0 e.otherMask := rfl
@[simp] theorem Slice.switch_fmt (x : Slice) (e : Recon) (pc : DWord) : (x.switch e pc).fmt = e.oFmt := rfl
@[simp] theorem Slice.switch_seeds (x : Slice) (e : Recon) (pc : DWord) : (x.switch e pc).seeds = x.seeds := rfl
@[simp] theorem Slice.switch_frames (x : Slice) (e : Recon) (pc : DWord) : (x.switch e pc).frames = x.frames := rfl
@[simp] theorem Slice.switch_sof (x : Slice) (e : Recon) (pc : DWord) : (x.switch e pc).sof = x.sof := rfl
@[simp] theorem Slice.switch_lrf (x : Slice) (e : Recon) (pc : DWord) : (x.switch e pc).lrf = List.replicate 4 (.u 0) := rfl
@[simp] theorem Slice.switch_lrfDue (x : Slice) (e : Recon) (pc : DWord) : (x.switch e pc).lrfDue = [] := rfl
@[simp] theorem Slice.switch_latch (x : Slice) (e : Recon) (pc : DWord) : (x.switch e pc).latch = [] := rfl
@[simp] theorem Slice.switch_recon (x : Slice) (e : Recon) (pc : DWord) : (x.switch e pc).recon = { e with otherPc := pc, otherMask := x.m0, oFmt := x.fmt } :: x.recon.tail := rfl
@[simp] theorem Slice.switch_rxSlot (x : Slice) (e : Recon) (pc : DWord) : (x.switch e pc).rxSlot = x.rxSlot := rfl
@[simp] theorem Slice.switch_rxHeld (x : Slice) (e : Recon) (pc : DWord) : (x.switch e pc).rxHeld = x.rxHeld := rfl
@[simp] theorem Slice.switch_returned (x : Slice) (e : Recon) (pc : DWord) : (x.switch e pc).returned = x.returned := rfl
@[simp] theorem Slice.switch_turn (x : Slice) (e : Recon) (pc : DWord) : (x.switch e pc).turn = 0 := rfl
@[simp] theorem Slice.switch_tstate (x : Slice) (e : Recon) (pc : DWord) : (x.switch e pc).tstate = x.tstate := rfl
@[simp] theorem Slice.switch_status (x : Slice) (e : Recon) (pc : DWord) : (x.switch e pc).status = x.status := rfl
@[simp] theorem Slice.switch_since (x : Slice) (e : Recon) (pc : DWord) : (x.switch e pc).since = x.since := rfl
@[simp] theorem Slice.switch_limit (x : Slice) (e : Recon) (pc : DWord) : (x.switch e pc).limit = x.limit := rfl
@[simp] theorem Slice.switch_barSet (x : Slice) (e : Recon) (pc : DWord) : (x.switch e pc).barSet = x.barSet := rfl
@[simp] theorem Slice.switch_blockedSince (x : Slice) (e : Recon) (pc : DWord) : (x.switch e pc).blockedSince = x.blockedSince := rfl
@[simp] theorem Slice.switch_run (x : Slice) (e : Recon) (pc : DWord) : (x.switch e pc).run = x.run := rfl
@[simp] theorem Slice.switch_wdog (x : Slice) (e : Recon) (pc : DWord) : (x.switch e pc).wdog = x.wdog := rfl
@[simp] theorem Slice.switch_parked (x : Slice) (e : Recon) (pc : DWord) : (x.switch e pc).parked = x.parked := rfl
@[simp] theorem Slice.switch_pendingTrap (x : Slice) (e : Recon) (pc : DWord) : (x.switch e pc).pendingTrap = x.pendingTrap := rfl
@[simp] theorem Slice.switch_nmcOut (x : Slice) (e : Recon) (pc : DWord) : (x.switch e pc).nmcOut = x.nmcOut := rfl
@[simp] theorem Slice.switch_remoteOut (x : Slice) (e : Recon) (pc : DWord) : (x.switch e pc).remoteOut = x.remoteOut := rfl
@[simp] theorem Slice.switch_guest (x : Slice) (e : Recon) (pc : DWord) : (x.switch e pc).guest = x.guest := rfl
@[simp] theorem Slice.switch_mig (x : Slice) (e : Recon) (pc : DWord) : (x.switch e pc).mig = x.mig := rfl
@[simp] theorem Slice.switch_stay (x : Slice) (e : Recon) (pc : DWord) : (x.switch e pc).stay = x.stay := rfl
@[simp] theorem Slice.switch_spill (x : Slice) (e : Recon) (pc : DWord) : (x.switch e pc).spill = x.spill := rfl
@[simp] theorem Slice.switch_held (x : Slice) (e : Recon) (pc : DWord) : (x.switch e pc).held = x.held := rfl
@[simp] theorem Slice.switch_mbar (x : Slice) (e : Recon) (pc : DWord) : (x.switch e pc).mbar = x.mbar := rfl
@[simp] theorem Slice.switch_stopped (x : Slice) (e : Recon) (pc : DWord) : (x.switch e pc).stopped = x.stopped := rfl
@[simp] theorem Slice.switch_epc (x : Slice) (e : Recon) (pc : DWord) : (x.switch e pc).epc = x.epc := rfl
@[simp] theorem Slice.switch_ecause (x : Slice) (e : Recon) (pc : DWord) : (x.switch e pc).ecause = x.ecause := rfl
@[simp] theorem Slice.switch_eaddr (x : Slice) (e : Recon) (pc : DWord) : (x.switch e pc).eaddr = x.eaddr := rfl
@[simp] theorem Slice.switch_sysCtx (x : Slice) (e : Recon) (pc : DWord) : (x.switch e pc).sysCtx = x.sysCtx := rfl

/-! ### `Slice.mergePaths` -/

@[simp] theorem Slice.mergePaths_uid (x : Slice) (e : Recon) : (x.mergePaths e).uid = x.uid := rfl
@[simp] theorem Slice.mergePaths_group (x : Slice) (e : Recon) : (x.mergePaths e).group = x.group := rfl
@[simp] theorem Slice.mergePaths_idx (x : Slice) (e : Recon) : (x.mergePaths e).idx = x.idx := rfl
@[simp] theorem Slice.mergePaths_gang (x : Slice) (e : Recon) : (x.mergePaths e).gang = x.gang := rfl
@[simp] theorem Slice.mergePaths_age (x : Slice) (e : Recon) : (x.mergePaths e).age = x.age := rfl
@[simp] theorem Slice.mergePaths_readySince (x : Slice) (e : Recon) : (x.mergePaths e).readySince = x.readySince := rfl
@[simp] theorem Slice.mergePaths_notBefore (x : Slice) (e : Recon) : (x.mergePaths e).notBefore = x.notBefore := rfl
@[simp] theorem Slice.mergePaths_pc (x : Slice) (e : Recon) : (x.mergePaths e).pc = e.rpc := rfl
@[simp] theorem Slice.mergePaths_masks (x : Slice) (e : Recon) : (x.mergePaths e).masks = setNth x.masks 0 e.all := rfl
@[simp] theorem Slice.mergePaths_fmt (x : Slice) (e : Recon) : (x.mergePaths e).fmt = e.dFmt := rfl
@[simp] theorem Slice.mergePaths_seeds (x : Slice) (e : Recon) : (x.mergePaths e).seeds = x.seeds := rfl
@[simp] theorem Slice.mergePaths_frames (x : Slice) (e : Recon) : (x.mergePaths e).frames = x.frames := rfl
@[simp] theorem Slice.mergePaths_sof (x : Slice) (e : Recon) : (x.mergePaths e).sof = x.sof := rfl
@[simp] theorem Slice.mergePaths_lrf (x : Slice) (e : Recon) : (x.mergePaths e).lrf = List.replicate 4 (.u 0) := rfl
@[simp] theorem Slice.mergePaths_lrfDue (x : Slice) (e : Recon) : (x.mergePaths e).lrfDue = [] := rfl
@[simp] theorem Slice.mergePaths_latch (x : Slice) (e : Recon) : (x.mergePaths e).latch = [] := rfl
@[simp] theorem Slice.mergePaths_recon (x : Slice) (e : Recon) : (x.mergePaths e).recon = x.recon.tail := rfl
@[simp] theorem Slice.mergePaths_rxSlot (x : Slice) (e : Recon) : (x.mergePaths e).rxSlot = x.rxSlot := rfl
@[simp] theorem Slice.mergePaths_rxHeld (x : Slice) (e : Recon) : (x.mergePaths e).rxHeld = x.rxHeld := rfl
@[simp] theorem Slice.mergePaths_returned (x : Slice) (e : Recon) : (x.mergePaths e).returned = x.returned := rfl
@[simp] theorem Slice.mergePaths_turn (x : Slice) (e : Recon) : (x.mergePaths e).turn = x.turn := rfl
@[simp] theorem Slice.mergePaths_tstate (x : Slice) (e : Recon) : (x.mergePaths e).tstate = x.tstate := rfl
@[simp] theorem Slice.mergePaths_status (x : Slice) (e : Recon) : (x.mergePaths e).status = x.status := rfl
@[simp] theorem Slice.mergePaths_since (x : Slice) (e : Recon) : (x.mergePaths e).since = x.since := rfl
@[simp] theorem Slice.mergePaths_limit (x : Slice) (e : Recon) : (x.mergePaths e).limit = x.limit := rfl
@[simp] theorem Slice.mergePaths_barSet (x : Slice) (e : Recon) : (x.mergePaths e).barSet = x.barSet := rfl
@[simp] theorem Slice.mergePaths_blockedSince (x : Slice) (e : Recon) : (x.mergePaths e).blockedSince = x.blockedSince := rfl
@[simp] theorem Slice.mergePaths_run (x : Slice) (e : Recon) : (x.mergePaths e).run = x.run := rfl
@[simp] theorem Slice.mergePaths_wdog (x : Slice) (e : Recon) : (x.mergePaths e).wdog = x.wdog := rfl
@[simp] theorem Slice.mergePaths_parked (x : Slice) (e : Recon) : (x.mergePaths e).parked = x.parked := rfl
@[simp] theorem Slice.mergePaths_pendingTrap (x : Slice) (e : Recon) : (x.mergePaths e).pendingTrap = x.pendingTrap := rfl
@[simp] theorem Slice.mergePaths_nmcOut (x : Slice) (e : Recon) : (x.mergePaths e).nmcOut = x.nmcOut := rfl
@[simp] theorem Slice.mergePaths_remoteOut (x : Slice) (e : Recon) : (x.mergePaths e).remoteOut = x.remoteOut := rfl
@[simp] theorem Slice.mergePaths_guest (x : Slice) (e : Recon) : (x.mergePaths e).guest = x.guest := rfl
@[simp] theorem Slice.mergePaths_mig (x : Slice) (e : Recon) : (x.mergePaths e).mig = x.mig := rfl
@[simp] theorem Slice.mergePaths_stay (x : Slice) (e : Recon) : (x.mergePaths e).stay = x.stay := rfl
@[simp] theorem Slice.mergePaths_spill (x : Slice) (e : Recon) : (x.mergePaths e).spill = x.spill := rfl
@[simp] theorem Slice.mergePaths_held (x : Slice) (e : Recon) : (x.mergePaths e).held = x.held := rfl
@[simp] theorem Slice.mergePaths_mbar (x : Slice) (e : Recon) : (x.mergePaths e).mbar = x.mbar := rfl
@[simp] theorem Slice.mergePaths_stopped (x : Slice) (e : Recon) : (x.mergePaths e).stopped = x.stopped := rfl
@[simp] theorem Slice.mergePaths_epc (x : Slice) (e : Recon) : (x.mergePaths e).epc = x.epc := rfl
@[simp] theorem Slice.mergePaths_ecause (x : Slice) (e : Recon) : (x.mergePaths e).ecause = x.ecause := rfl
@[simp] theorem Slice.mergePaths_eaddr (x : Slice) (e : Recon) : (x.mergePaths e).eaddr = x.eaddr := rfl
@[simp] theorem Slice.mergePaths_sysCtx (x : Slice) (e : Recon) : (x.mergePaths e).sysCtx = x.sysCtx := rfl

end Sys2Proof.Machine
end

