-- ==== Sys2Proof/Tests/Slice0.lean ====
section
/-! SUPPORT. Tests: words of the spec, ill-formed terms, single steps, and for every statement with hypotheses a state that
meets them. Expected values come from the spec's tables and worked examples. -/

namespace Sys2Proof.Machine

/-! ### A small machine: one slice of one group on core 0, in context 5 -/

/-- Bytes 0 to 2^30 of context 5 lie at 2^30 of stack 0's homed view, with every permission. -/
def bedPte : Nat := homedBase + 2 ^ 30 + 0x1EF
def bedTr (va : DWord) : Mapping := { pa := homedBase + 2 ^ 30 + va.toNat, home := .stack 0, pte := bedPte }

def bedFrame (ws : List Word) : Frame :=
  { base := 0, demand := 2, outer := true, regs := (ws.map Reg.u) ++ List.replicate (16 - ws.length) (.u 0) }

def bedSlice (ws : List Word) : Slice :=
  { uid := 1, group := 2, idx := 0, gang := 3, pc := 0x10000, frames := [bedFrame ws],
    sof := List.replicate 16 (L4.ofFn fun _ => {}), lrf := List.replicate 4 (.u 0) }

def bedLaunch : Launch :=
  { id := 4, queue := 0, seq := 0, ctx := 5, pkt := { Packet.blank with entry := 0x10000, trap := 0x30000, demand := 2 }, chunk := 1, started := [0] }

def bedWg : Workgroup :=
  { uid := 6, launch := 4, work := 0, core := 0, slot := 0, scrBase := 0, scrBytes := 65536, tileFirst := 0, tiles := 8, accs := [0, 1],
    producer := 2, tokens := List.replicate 8 {}, born := 0 }

/-- The machine with a slice, bytes at addresses of the context, and the gang of that slice issuing. -/
def bedOf (x : Slice) (cells : List (Nat × List Byte)) : State :=
  { State.reset with
    cur := [1], nextId := 10, ctxs := [{ id := 5 }], launches := [bedLaunch], wgs := [bedWg],
    groups := [{ uid := 2, wg := 6, idx := 0, pipe := 0, place := 0, born := 0 }], slices := [x],
    mem := cells.foldl (fun m c => m.setBytes (memKey (bedTr (BitVec.ofNat 64 c.1)).pa) c.2) [],
    caches := { tlb := [{ unit := .die 0, ctx := 5, page := 0, log2 := 30, pte := BitVec.ofNat 64 bedPte }] } }

def bed (ws : List Word) : State := bedOf (bedSlice ws) []

/-! ### The hypotheses of the statements, as checks -/

def ableB (s : State) (i : Instr) (x : Slice) (srcs : List Reg) (reads : BitVec 4) : Bool :=
  (s.declinedOf (.slice x.uid)).isNone && i.inFrame x.frameRegs && !((s.env x).group.firmware && i.firmwareIllegal) &&
  srcs.all fun r => !r.poisoned reads

theorem able_of {s : State} {i : Instr} {x : Slice} {srcs : List Reg} {reads : BitVec 4} (h : ableB s i x srcs reads = true) :
    s.Able i x srcs reads := by
  simp only [ableB, Bool.and_eq_true, Bool.not_eq_true', List.all_eq_true] at h
  exact ⟨Option.isNone_iff_eq_none.1 h.1.1.1, h.1.1.2, h.1.2, fun r hr => h.2 r hr⟩

def gangB (s : State) (i : Instr) (p : Option Pfx) (srcs : Slice → Env → List Reg) : Bool :=
  !s.cur.isEmpty && s.curSlices.all fun x => ableB s i x (srcs x (s.env x)) (takeOf x p)

theorem gang_of {s : State} {i : Instr} {p : Option Pfx} {srcs : Slice → Env → List Reg} (h : gangB s i p srcs = true) :
    s.GangAble i p srcs := by
  simp only [gangB, Bool.and_eq_true, Bool.not_eq_true', List.all_eq_true, List.isEmpty_eq_false_iff] at h
  exact ⟨h.1, fun x hx => able_of (h.2 x hx)⟩

def aloneB (s : State) (i : Instr) (x : Slice) (srcs : List Reg) (reads : BitVec 4) : Bool :=
  decide (s.cur = [x.uid]) && decide (s.slice? x.uid = some x) && (x.guest.isNone || !i.sendsHome) && ableB s i x srcs reads

theorem alone_of {s : State} {i : Instr} {x : Slice} {srcs : List Reg} {reads : BitVec 4} (h : aloneB s i x srcs reads = true) :
    s.Alone i x srcs reads := by
  simp only [aloneB, Bool.and_eq_true, decide_eq_true_eq, Bool.or_eq_true, Bool.not_eq_true', Option.isNone_iff_eq_none] at h
  exact ⟨h.1.1.1, h.1.1.2, h.1.2, able_of h.2⟩

/-- The leader of a gang. -/
def leadOf (s : State) : Lead := (s.lead).getD { slice := bedSlice [], env := s.env (bedSlice []), lane := 0 }

def ledB (s : State) (i : Instr) (srcs : Slice → Env → List Reg) : Bool :=
  !s.cur.isEmpty && s.lead.isSome && ((leadOf s).slice.guest.isNone || !i.sendsHome) &&
  s.curSlices.all fun x => ableB s i x (srcs x (s.env x)) (if x.uid = (leadOf s).slice.uid then 1#4 <<< (leadOf s).lane else 0)

theorem led_of {s : State} {i : Instr} {srcs : Slice → Env → List Reg} (h : ledB s i srcs = true) : s.Led i srcs (leadOf s) := by
  simp only [ledB, Bool.and_eq_true, Bool.not_eq_true', List.all_eq_true, List.isEmpty_eq_false_iff, Bool.or_eq_true,
    Option.isNone_iff_eq_none] at h
  refine ⟨h.1.1.1, ?_, h.1.2, fun x hx => able_of (h.2 x hx)⟩
  obtain ⟨l, hl⟩ := Option.isSome_iff_exists.1 h.1.1.2
  simp [leadOf, hl]

def reachB (s : State) (x : Slice) (need : Need) (cp : Nat) (as : List LaneAddr) : Bool :=
  !x.mustWait as && !s.isParked (.slice x.uid) && (as.all fun a => decide (s.look ((s.env x).party x.uid) need a.va = .ok (bedTr a.va))) &&
  (as.all fun a => !s.matBusy x.uid s.nextId (bedTr a.va).pa a.bytes) && decide (migAsk (s.env x) cp = .no) &&
  s.outside.remotes.all fun r => decide (r.slice ≠ x.uid)

theorem reach_of {s : State} {x : Slice} {need : Need} {cp : Nat} {as : List LaneAddr} (h : reachB s x need cp as = true) :
    s.Reaches x need cp as bedTr := by
  simp only [reachB, Bool.and_eq_true, Bool.not_eq_true', List.all_eq_true, decide_eq_true_eq] at h
  exact ⟨h.1.1.1.1.1, h.1.1.1.1.2, h.1.1.1.2, fun _ _ => rfl, h.1.1.2, .inl h.1.2, h.2⟩

/-- Empty caches are at rest. -/
theorem coherent_of {s : State} {quad : Nat} (h : s.mem.wf = true ∧ s.roof.wf = true ∧ s.caches.quadLines = [] ∧ s.caches.dieLines = [] ∧
    s.caches.mscLines = [] ∧ s.caches.mscQueue = [] ∧ s.caches.bankQueue = [] ∧ s.caches.writeThroughs = [] ∧ s.caches.deferred = [] ∧
    s.engines.cmds = [] ∧ (s.latent = [] ∧ s.latentWords = []) ∧ s.caches.l1 = []) : s.Coherent quad := by
  obtain ⟨h1, h2, h3, h4, h5, h6, h7, h8, h9, h10, h11, h12⟩ := h
  exact ⟨⟨h1, h2⟩, by simp [h3], by simp [h12], by simp [h4], by simp [h5], ⟨h6, h7⟩, by simp [h8], by simp [h9], by simp [h10], h11⟩

/-! ### Words written out from the formats of R229 and the opcode map of R239 -/

/-- The V, I (and M) and B formats. -/
def wordV (maj fn h d a b : Nat) : List Byte :=
  natToBytes 4 (1 + 2 * maj + 2 ^ 7 * fn + 2 ^ 10 * h + 2 ^ 11 * d + 2 ^ 18 * a + 2 ^ 25 * b)
def wordI (maj fn d a imm : Nat) : List Byte := wordV maj fn (imm / 128) d a (imm % 128)
def wordB (maj fn a off : Nat) : List Byte := wordV maj fn 0 a (off % 128) (off / 128)

theorem test_words_arith :
    decode (wordV 0x08 3 1 5 6 7) = .ok (.andn none (.v 5) (.v 6) (.v 7) true) 4 ∧
    decode (wordV 0x09 4 0 5 6 7) = .ok (.rotr none (.v 5) (.v 6) (.v 7) false) 4 ∧
    decode (wordV 0x0A 1 0 5 6 0) = .ok (.clz none (.v 5) (.v 6) false) 4 ∧
    decode (wordV 0x0B 3 0 5 6 7) = .ok (.sel none 3 (.v 5) (.v 6) (.v 7) false) 4 ∧
    decode (wordV 0x0C 4 0 10 8 6) = .ok (.lea none 4 (.v 10) (.v 8) (.v 6) false) 4 ∧
    decode (wordV 0x0D 3 0 5 6 7) = .ok (.rem none true (.v 5) (.v 6) (.v 7) false) 4 ∧
    decode (wordV 0x0E 1 0 5 6 0) = .ok (.ineg none (.v 5) (.v 6) false) 4 ∧
    decode (wordI 0x10 0 2 3 0xFF) = .ok (.iaddi none .i32 (.v 2) (.v 3) 0xFF) 4 ∧
    decode (wordI 0x11 2 2 3 0xFF) = .ok (.xori none (.v 2) (.v 3) 0xFF) 4 ∧
    decode (wordI 0x12 1 2 3 7) = .ok (.shri none (.v 2) (.v 3) 7) 4 ∧
    decode (wordI 0x13 0 (2 + 8 * 5) 3 0x80) = .ok (.icmpi none .ge .i32 2 (.v 3) 0x80) 4 := by decide +kernel

theorem test_words_float :
    decode (wordV 0x14 1 0 5 6 7) = .ok (.fadd none .bf16x2 (.v 5) (.v 6) (.v 7) false) 4 ∧
    decode (wordV 0x18 0 0 5 6 7) = .ok (.fmin none .f32 (.v 5) (.v 6) (.v 7) false) 4 ∧
    decode (wordV 0x1A 0 0 (2 + 8 * 6) 6 7) = .ok (.fcmp none .ueq .f32 2 (.v 6) (.v 7) false) 4 ∧
    decode (wordV 0x1C 1 0 5 6 7) = .ok (.fdot2 none .bf16x2 (.v 5) (.v 6) (.v 7) false) 4 ∧
    decode (wordV 0x1E 0 0 5 6 0) = .ok (.cvti none .i32 .f32 0 (.v 5) (.v 6) false) 4 ∧
    decode (wordV 0x1F 0 0 5 6 0) = .ok (.bscale none (.v 5) (.v 6) false) 4 ∧
    decode (wordV 0x21 2 0 5 6 0) = .ok (.vote none .ballot (.v 5) (.v 6) false) 4 ∧
    decode (wordV 0x24 1 0 5 6 0) = .ok (.scan none .addI32In (.v 5) (.v 6) false) 4 := by decide +kernel

/-- Offsets are two's complement; the words of SLEEP, SPAWN, TDONE and MIGRATE are those of R320, R328, R331 and R322. -/
theorem test_words_control :
    decode (wordB 0x28 5 9 0x3FFC) = .ok (.bdiv 0x3FFC (.v 9)) 4 ∧
    decode (natToBytes 4 (1 + 2 * 0x29 + 2 ^ 10 + 2 ^ 11 * 2 + 2 ^ 14 * 2 + 2 ^ 18 * 8)) = .ok (.call 8 2 5) 4 ∧
    decode (wordI 0x2A 0 0 0 0) = .ok .ret 4 ∧ decode (wordI 0x2A 1 0 6 3) = .ok (.unwind (.v 6) 3) 4 ∧
    decode (wordI 0x2B 0 0 0 5) = .ok (.regang 5) 4 ∧
    decode (natToBytes 4 0x01FC0257 ++ natToBytes 4 0x3E8) = .ok (.sleep (.lit 1000)) 8 ∧
    decode (natToBytes 4 0x00202059) = .ok (.migrate (.v 4) (.v 8) false) 4 ∧
    decode (natToBytes 4 0x0028286D) = .ok (.spawn (.v 5) (.v 10) false) 4 ∧
    decode (natToBytes 4 0x0020316D) = .ok (.tdone (.v 6) (.v 8) false) 4 ∧
    decode (natToBytes 4 0x0220316D) = .ok (.tdoneAbandon (.v 6) (.v 8) false) 4 := by decide +kernel

theorem test_words_memory :
    decode (wordI 0x31 4 6 8 16) = .ok (.st none .w32 (.v 6) (.v 8) 16) 4 ∧
    decode (wordV 0x32 0 0 5 8 7) = .ok (.atom none .addI32 (.v 5) (.v 8) (.v 7) false) 4 ∧
    decode (wordV 0x33 3 0 5 8 7) = .ok (.atomb none .cas (.v 5) (.v 8) (.v 7) false) 4 ∧
    decode (wordI 0x34 1 0 8 2) = .ok (.cflush none (.v 8) 2) 4 ∧
    decode (wordI 0x34 6 5 8 2) = .ok (.waitw none (.v 5) (.v 8) 2) 4 ∧
    decode (wordV 0x35 1 0 5 6 7) = .ok (.qmax none (.v 5) (.v 6) (.v 7) false) 4 ∧
    decode (wordV 0x3C 1 0 0 8 7) = .ok (.mbarInit (.v 8) (.v 7) false) 4 ∧
    decode (wordV 0x3C 3 0 2 8 7) = .ok (.mbarWait none 2 (.v 8) (.v 7) false) 4 := by decide +kernel

theorem test_words_engines :
    decode (wordV 0x37 0 0 5 8 0) = .ok (.glaunch (.v 5) (.v 8) false) 4 ∧
    decode (wordV 0x37 5 0 0 8 0) = .ok (.nmc (.v 8) false) 4 ∧
    decode (wordV 0x38 0 0 0 8 6) = .ok (.copy none .g2t (.v 8) (.v 6) false) 4 ∧
    decode (wordV 0x3A 0 0 0 6 7) = .ok (.tdef (.v 6) (.v 7) false) 4 ∧
    decode (wordV 0x3B 0 0 0 6 7) = .ok (.mma none (.v 6) (.v 7) false) 4 ∧
    decode (wordV 0x3E 0 0 5 0 6) = .ok (.csrr (.v 5) (.v 6)) 4 ∧
    decode (wordV 0x3E 1 0 0 5 6) = .ok (.csrw (.v 5) (.v 6) false) 4 ∧
    decode (wordV 0x3E 2 0 0 0 6) = .ok (.trap (.v 6)) 4 := by decide +kernel

/-! ### Ill-formed terms are refused -/

/-- An odd pair destination; a C field on an instruction that takes none; a compare into m0; an ordered condition on integers;
two literals that differ; UNWIND of 0; a negative REGANG tag; BAR at scope slice; MOV v0, v0 in 16 bits; a COPYMM without a
chain record; a unit that is not there. -/
theorem test_ill_formed :
    Instr.wf (.iadd none .i64 (.v 3) (.v 0) (.v 2) false) = false ∧
    Instr.wf (.iadd (some { c := some (.v 1) }) .i32 (.v 3) (.v 0) (.v 2) false) = false ∧
    Instr.wf (.icmp none .lt .i32 0 (.v 0) (.v 1) false) = false ∧
    Instr.wf (.icmp none .uno .i32 1 (.v 0) (.v 1) false) = false ∧
    Instr.wf (.iadd none .i32 (.v 3) (.lit 1) (.lit 2) false) = false ∧
    Instr.wf (.unwind (.v 0) 0) = false ∧ Instr.wf (.regang 0x80) = false ∧ Instr.wf (.bar .slice) = false ∧
    Instr.wf (.movShort false 0 0) = false ∧ Instr.wf (.copymm (.v 0) .g2t (.v 2) (.v 4) false) = false ∧
    Instr.wf (.pageWalk 16) = false ∧ Instr.wf (.packetAccept 32) = false ∧ Instr.wf (.mmaComplete 128) = false := by decide +kernel

/-- Reserved words are refused by name: a listed MAJ with a function it has not, a reserved MAJ, 0x8000, a prefix before a
prefix. -/
theorem test_reserved :
    decode (wordV 0x08 7 0 5 6 7) = .illegal .noSuch ∧ decode (wordV 0x0F 0 0 5 6 7) = .illegal .noSuch ∧
    decode [0x00, 0x80] = .illegal .shortHold ∧ decode (wordV 0x3F 0 0 0 0 0 ++ wordV 0x3F 0 0 0 0 0) = .illegal .prefixWord := by decide +kernel

/-! ### States that meet the hypotheses of the statements -/

theorem all_of {α : Type} {P : α → Prop} {b : α → Bool} {xs : List α} (hb : ∀ x, b x = true → P x) (h : xs.all b = true) :
    ∀ x ∈ xs, P x := fun x hx => hb x (List.all_eq_true.1 h x hx)

/-- EncodedInstructionsDecode, DecodedInstructionsAreWellFormed, ReservedEncodingsAreRefused. -/
theorem test_meets_encoding :
    ((Instr.iadd (some { rm := 1, mask := 2 }) .i32 (.v 95) (.o 15) (.lit 7) true).wf = true ∧
      encode (.iadd (some { rm := 1, mask := 2 }) .i32 (.v 95) (.o 15) (.lit 7) true) ≠ none) ∧
    decode [0x62, 0x1C] = .ok (.iaddShort false 7 3) 2 ∧
    ((0x1F : Word).getLsbD 0 = true ∧ isPrefix 0x1F = false ∧ ((0x1F : Word).extractLsb' 1 6).toNat = 0x0F) ∧
    ((0x7F : Word).getLsbD 0 = true ∧ isPrefix 0x7F = true) := by decide +kernel

/-- A machine whose next move is that the gang issues, a 16-bit IADD standing at its PC. -/
def bedIssue : State := { bedOf (bedSlice [7, 9]) [(0x10000, [0x62, 0x1C])] with cur := [], agenda := [.issue [1]] }

/-- StepRunsTheDecodedInstruction: the gang is ready, no trap comes first, and the fetch gives an instruction, on the pipe and
on its scalar path. -/
theorem test_meets_step (scalar : Bool) :
    [1].filterMap ({ bedIssue with agenda := [] } : State).slice? = [bedSlice [7, 9]] ∧
    ({ bedIssue with agenda := [] } : State).gangReady [bedSlice [7, 9]] = true ∧
    (({ bedIssue with agenda := [] } : State).noteIssue (bedSlice [7, 9]) [1] scalar).boundaryTraps [bedSlice [7, 9]] = none ∧
    ((({ bedIssue with agenda := [] } : State).noteIssue (bedSlice [7, 9]) [1] scalar).fetch (bedSlice [7, 9])).2 =
      .ok (.iaddShort false 7 3) := by cases scalar <;> decide +kernel

/-- FetchDecodesTheBytesAtThePc. -/
theorem test_meets_fetch :
    decode [0x62, 0x1C] = .ok (.iaddShort false 7 3) 2 ∧ bedIssue.Coherent 0 ∧ (bedSlice []).pc.getLsbD 0 = false ∧
    bedIssue.look ((bedIssue.env (bedSlice [])).party 1) { kind := .fetch } (0x10000 + BitVec.ofNat 64 0) = .ok (bedTr 0x10000) ∧
    bedIssue.peek (bedTr 0x10000).pa 2 = [0x62, 0x1C] ∧ bedIssue.peekPoison (bedTr 0x10000).pa 2 = false :=
  ⟨by decide +kernel, coherent_of (by decide +kernel), by decide +kernel⟩

/-- EveryStepSettles and EveryStepKeepsMemory: a state in canonical form from which a step answers a next state. -/
theorem test_meets_next : bedIssue.mem.wf = true ∧ bedIssue.roof.wf = true ∧
    (match step bedIssue with | .next t => decide (t.ticks = 1 ∧ (t.slices.map (·.pc)) = [0x10002]) | _ => false) = true := by decide +kernel

/-- InstructionsNeverStop. -/
theorem test_meets_never_stop : (Instr.nop).base ≠ .step ∧ (bed []).cur ≠ [] := by decide +kernel

/-- IntegerOperations, IntegerElements, MultiplyAddAndImmediateAdd and ComparesWriteMasks: a gang that may issue each form. -/
theorem test_meets_integer (t : IType) :
    ∀ i ∈ [Instr.iadd none t (.v 4) (.v 0) (.v 2) false, .isub none t (.v 4) (.v 0) (.v 2) false, .imul none t (.v 4) (.v 0) (.v 2) false,
      .imulh none t (.v 4) (.v 0) (.v 2) true, .imin none t (.v 4) (.v 0) (.v 2) false, .imax none t (.v 4) (.v 0) (.v 2) false,
      .imad none t (.v 4) (.v 0) (.v 2) false, .iaddi none t (.v 4) (.v 0) 5, .icmp none .lt t 1 (.v 0) (.v 2) false, .icmpi none .ge t 7 (.v 0) 5],
      (bed [7, 0, 9]).GangAble i none fun x e => x.readInt e 0 t (.v 0) ++ x.readInt e 0 t (.v 2) ++ x.readInt e 0 t (.v 4) := by
  cases t <;> exact all_of (fun _ h => gang_of h) (by decide +kernel)

/-- WordOperations, UnaryWordOperations, ImmediateOperations, FieldAndPermuteOperations, MaskOperations and ShortForms. -/
theorem test_meets_words :
    ∀ i ∈ ([Instr.and, .or, .xor, .andn, .orn, .xnor, .shl, .shr, .sha, .rotl, .rotr, fun p d a b h => .div p false d a b h,
        fun p d a b h => .rem p true d a b h, .bfe, .bfi, .perm, fun p d a b h => .sel p 3 d a b h].map fun c => c none (.v 4) (.v 0) (.v 1) false) ++
      ([Instr.not, .popc, .clz, .ctz, .brev, .iabs, .ineg, .sext8, .sext16, .zext8, .zext16, .mov].map fun c => c none (.v 4) (.v 0) true) ++
      ([Instr.andi, .ori, .xori].map fun c => c none (.v 4) (.v 0) 0xFF) ++ ([Instr.shli, .shri, .shai, .rotli, .rotri].map fun c => c none (.v 4) (.v 0) 31) ++
      [.lea none 4 (.v 4) (.v 0) (.v 2) false, .mset 1 (.v 0) false, .mget (.v 4) 1, .mand 1 2 3, .mor 1 2 3, .mnot 1 2, .mxor 1 2 3, .nop] ++
      ([Instr.iaddShort, .isubShort, .imulShort, .andShort, .orShort, .xorShort, .shlShort, .shrShort, .shaShort, .faddShort, .fsubShort, .fmulShort,
        .fmaxShort, .fminShort, .movShort].map fun c => c true 1 4) ++ [.iaddi5Short false 31 4],
      (bed [7, 9]).GangAble i none ((bed [7, 9]).reads [.v 0, .v 1, .v 2, .v 4]) :=
  all_of (fun _ h => gang_of h) (by decide +kernel)

/-- FloatOperations, FloatFunctions and FloatCompares. -/
theorem test_meets_floats (t : FType) :
    ∀ i ∈ ([Instr.fadd, .fsub, .fmul, .fmin, .fmax, .ffma, .fdot2].map fun c => c none t (.v 4) (.v 0) (.v 1) false) ++
      ([Instr.fabs, .fneg, .frcp, .frsq, .fsqrt, .fexp2, .flog2, .fsin, .fcos, .ftanh, .fsigm, .ffloor, .fceil, .ftrunc, .frint].map fun c =>
        c none t (.v 4) (.v 0) false) ++ [.fcmp none .uno t 1 (.v 0) (.v 1) false],
      (bed [0x3F800000, 0x7FC00000]).GangAble i none ((bed [0x3F800000, 0x7FC00000]).reads [.v 0, .v 1, .v 4]) := by
  cases t <;> exact all_of (fun _ h => gang_of h) (by decide +kernel)

/-- NanRules: quiet, signalling and format-wide NaNs. -/
theorem test_meets_nan : (decodeFloat .f32 0x7FC00000).isNan = true ∧ (decodeFloat .f32 0x7F800001).isSig = true ∧
    (decodeFloat .bf16 0x7FC0).isNan = true ∧ (decodeFloat .f16 0x7E00).isNan = true := by decide +kernel

/-- Conversions, LaneExchange, Reductions, BlockFormats, FormatRegister: also under stochastic rounding at home. -/
theorem test_meets_exchange :
    (∀ i ∈ [Instr.cvtf none .f32 .bf16 1 (.v 4) (.v 0) false, .cvti none .i32 .n8 3 (.v 4) (.v 0) false, .shfl none .up (.v 4) (.v 0) (.v 1) false,
      .vote none .count (.v 4) (.v 0) false, .gred none .addI32 (.v 4) (.v 0) false, .gred none .addF32 (.v 4) (.v 0) false,
      .scan none .addF32In (.v 4) (.v 0) false, .bscale none (.v 4) (.v 0) false, .bpack none (.v 4) (.v 0) (.v 1) false,
      .bunpk none (.v 4) (.v 0) (.v 1) false, .fmtset (.v 0) false, .fmtget (.v 4)],
      (bed [0x33, 9]).GangAble i none ((bed [0x33, 9]).reads [.v 0, .v 1, .v 4])) ∧
    (∀ x ∈ (bed [0x33]).curSlices, x.guest = none) ∧
    (((bed [0x33]).participants none (.v 0)).head?).map (·.2) = some 0x33 ∧ fmtOk 0x33 = true ∧
    (((bed [0x200000]).participants none (.v 0)).head?).map (·.2) = some 0x200000 ∧ fmtOk 0x200000 = false ∧
    (bed [0x200000]).GangAble (.fmtset (.v 0) false) none ((bed [0x200000]).reads [.v 0]) := by
  refine ⟨all_of (fun _ h => gang_of h) (by decide +kernel), by decide +kernel, by decide +kernel, by decide +kernel, by decide +kernel,
    by decide +kernel, gang_of (by decide +kernel)⟩
/-! Control flow. -/

/-- A slice with lanes 0 and 1 of v0 nonzero, in an inner frame of one granule over an outer frame of two. -/
def bedInner : Slice :=
  { bedSlice [] with frames :=
      [{ base := 2, demand := 1, args := 2, retPc := 0x10008, regs := .general ⟨{ val := 1 }, { val := 2 }, {}, {}⟩ :: List.replicate 7 (.u 0) },
       bedFrame [3, 4]] }

/-- BranchesWithoutDivergence, DivergentBranches, ReturnsUnwindAndExit of an inner frame. -/
theorem test_meets_branches :
    (∀ i ∈ [Instr.bra 0x3FFC, .bany 4 (.v 0), .ball 4 (.v 0), .bnone 4 (.v 0), .bdiv 4 (.v 0), .bloop 0x3FFC (.v 0), .ret],
      (bedOf bedInner []).Alone i bedInner ((bedOf bedInner []).reads [.v 0] bedInner ((bedOf bedInner []).env bedInner)) bedInner.m0) ∧
    bedInner.topEntry = none ∧ bedInner.m0 ≠ 0 ∧ bedInner.allEntries.length < 8 ∧
    pcInReach 0x10000 (bedInner.pc + (4#14).signExtend 64 * 2) = true ∧ pcInReach 0x10000 (bedInner.after (.bdiv 4 (.v 0))) = true ∧
    (bedInner.m0 &&& maskOf fun l => (bedOf bedInner []).opVal (.v 0) bedInner ((bedOf bedInner []).env bedInner) l != 0) = 0x3#4 :=
  ⟨all_of (fun _ h => alone_of h) (by decide +kernel), by decide +kernel⟩

/-- CallsEnterAFrame: the first free run of a pipe-0 column of core 0 follows the firmware's 32 granules (R434). -/
theorem test_meets_calls :
    (bed [0x20000]).ownRun (bedSlice [0x20000]) 12 = some 32 ∧ (bedSlice [0x20000]).depth < 4095 ∧ (15#4).toNat ≤ (bedSlice [0x20000]).frameRegs ∧
    (bed [0x20000]).Alone (.call 4 15 12) (bedSlice [0x20000]) [] (bedSlice [0x20000]).m0 ∧
    (let p := (bedSlice [0x20000]).readPair ((bed [0x20000]).env (bedSlice [0x20000])) 0 true (.v 0);
      (bed [0x20000]).Alone (.callIndirect (.v 0) 15 12) (bedSlice [0x20000]) [p.1, p.2] (bedSlice [0x20000]).lowMask ∧
      (pairVal p (lowestLane (bedSlice [0x20000]).m0)).getLsbD 0 = false) :=
  ⟨by decide +kernel, by decide +kernel, by decide +kernel, alone_of (by decide +kernel), alone_of (by decide +kernel), by decide +kernel⟩

/-- ReturnsUnwindAndExit: RET and UNWIND of one inner frame, EXIT of an outermost frame. -/
theorem test_meets_returns :
    (bedInner.recon = [] ∧ bedInner.returned = [] ∧ bedInner.tstate = none ∧ bedInner.guest = none) ∧ (∀ k, (bedOf bedInner []).frameBusy 1 k = false) ∧
    (∀ k, (bed []).frameBusy 1 k = false) ∧
    (∀ i ∈ [Instr.ret, .unwind (.v 0) 1], (bedOf bedInner []).Alone i bedInner
      ((bedOf bedInner []).reads [.v 0] bedInner ((bedOf bedInner []).env bedInner)) bedInner.lowMask) ∧
    (∀ i ∈ [Instr.exit, .ret], (bed []).Alone i (bedSlice []) [] (bedSlice []).m0) ∧ (bedSlice []).parked = [] ∧ (bed []).accessesDone (bedSlice []) = true :=
  ⟨by decide +kernel, fun _ => rfl, fun _ => rfl, all_of (fun _ h => alone_of h) (by decide +kernel), all_of (fun _ h => alone_of h) (by decide +kernel), rfl, by decide +kernel⟩

/-- GangControl and BarrierArrival: a gang of two slices. -/
def bedTwo : State :=
  { bed [5] with cur := [1, 7], slices := [bedSlice [5], { bedSlice [6] with uid := 7, idx := 1 }] }

theorem test_meets_gang :
    (bed [5]).Alone (.regang 127) (bedSlice [5]) [] (bedSlice [5]).m0 ∧ bedTwo.cur.Nodup ∧ 1 < bedTwo.cur.length ∧
    bedTwo.Led (.sleep (.v 0)) (bedTwo.reads [.v 0]) (leadOf bedTwo) ∧ bedTwo.Led (.trap (.v 0)) (bedTwo.reads [.v 0]) (leadOf bedTwo) ∧
    bedTwo.Led (.brk (.v 0)) (bedTwo.reads [.v 0]) (leadOf bedTwo) ∧ bedTwo.Led (.bar .grp) (fun _ _ => []) (leadOf bedTwo) ∧
    bedTwo.Led (.bar .die) (fun _ _ => []) (leadOf bedTwo) ∧
    (∀ x ∈ bedTwo.curSlices, bedTwo.releaseReady x (bedTwo.widen x .grp) = true ∧ bedTwo.barApart .grp x = false) :=
  ⟨alone_of (by decide +kernel), by decide +kernel, by decide +kernel, led_of (by decide +kernel), led_of (by decide +kernel),
   led_of (by decide +kernel), led_of (by decide +kernel), led_of (by decide +kernel), by decide +kernel⟩

/-- The machine with pages of context 5 at 2^30 homed in stack 3, and at 2^31 that allow no migration. -/
def bedWide (ws : List Word) : State :=
  { bed ws with caches := { tlb := (bed ws).caches.tlb ++
      [{ unit := .die 0, ctx := 5, page := 2 ^ 30, log2 := 30, pte := BitVec.ofNat 64 (homedBase + 3 * 2 ^ 36 + 3 * 2 ^ 52 + 0x1EF) },
       { unit := .die 0, ctx := 5, page := 2 ^ 31, log2 := 30, pte := BitVec.ofNat 64 (homedBase + 0x1AF) }] } }

def tookTo (s : State) (va : DWord) (p : Mapping → Bool) : Bool :=
  match s.translate ((s.env (bedSlice [])).party 1) [(va, { kind := .load })] with
  | (_, .ok (m :: _)) => p m
  | _ => false

/-- MigrationInstructions: a page without migration, a home it is at, and one beyond it. -/
theorem test_meets_migration :
    (let x := bedSlice [0x40000000];
     let p := x.readPair ((bedWide [0x40000000]).env x) 0 true (.v 0);
     (bedWide [0x40000000]).Alone (.migrate (.v 4) (.v 0) false) x [p.1, p.2] x.lowMask ∧ (bedWide [0x40000000]).Alone .home x [] x.m0) ∧
    tookTo (bedWide []) 0x80000000 (fun m => !m.mig) = true ∧
    tookTo (bedWide []) 0x1000 (fun m => m.mig && m.part?.isNone && !((bed []).env (bedSlice [])).beyond m.home) = true ∧
    tookTo (bedWide []) 0x40000000 (fun m => m.mig && m.part?.isNone && ((bed []).env (bedSlice [])).beyond m.home) = true :=
  ⟨⟨alone_of (by decide +kernel), alone_of (by decide +kernel)⟩, by decide +kernel, by decide +kernel, by decide +kernel⟩

/-- ControlRegisters: FPFLAGS may be read and written, EPC wants a pair, CHUNK is not for users, 0x123 is none. -/
theorem test_meets_csr :
    (∀ n ∈ [0x100, 0x000, 0x503, 0x123], (bed [n]).Led (.csrr (.v 4) (.v 0)) ((bed [n]).reads [.v 0]) (leadOf (bed [n]))) ∧
    (Csr.ofNum 0x100 = some .fpflags ∧ Csr.userReads .fpflags = true ∧ Csr.userWrites .fpflags = true ∧ Csr.accepts .fpflags 31 = true) ∧
    (Csr.ofNum 0x000 = some .epc ∧ Csr.wide .epc = true ∧ (Dst.v 4).okAt .pair = true ∧ (Dst.v 4).inFrame 16 2 = true) ∧
    Csr.userWrites .chunk = false ∧ Csr.ofNum 0x123 = none ∧
    (∀ c ∈ [(0x100, 31), (0x100, 0x4000), (0x503, 1), (0x123, 0)],
      (bed [c.1, c.2]).Led (.csrw (.v 1) (.v 0) false) ((bed [c.1, c.2]).reads [.v 1, .v 0]) (leadOf (bed [c.1, c.2]))) ∧
    Csr.accepts .fpflags 0x4000 = false ∧
    (bed []).slice? 1 = some (bedSlice []) ∧ ((bed []).group? 2).isSome = true :=
  ⟨all_of (b := fun n => ledB (bed [n]) (.csrr (.v 4) (.v 0)) ((bed [n]).reads [.v 0])) (fun _ h => led_of h) (by decide +kernel),
   by decide +kernel, by decide +kernel, by decide +kernel, by decide +kernel,
   all_of (b := fun c => ledB (bed [c.1, c.2]) (.csrw (.v 1) (.v 0) false) ((bed [c.1, c.2]).reads [.v 1, .v 0])) (fun _ h => led_of h) (by decide +kernel),
   by decide +kernel, by decide +kernel, by decide +kernel⟩

/-- A slice whose frame fills its column. -/
def bedFull : Slice := { bedSlice [] with frames := [{ bedFrame [] with demand := 256 }] }

/-- TrapEntry: a trap with a run for the handler's frame, and one without. -/
theorem test_meets_trap :
    ((bed []).slice? 1 = some (bedSlice []) ∧ (bedSlice []).tstate = none ∧ (bedSlice []).depth < 4095 ∧
      ((bed []).env (bedSlice [])).launch.pkt.trap ≠ 0) ∧
    ((bed []).ownRun (bedSlice []) 2).isSome = true ∧ (bedOf bedFull []).ownRun bedFull 2 = none := by decide +kernel

/-- A slice in its trap frame, EPC even or odd. -/
def bedHandler (epc : DWord) : Slice :=
  { bedSlice [] with frames := [{ base := 2, demand := 2, retPc := epc, regs := List.replicate 16 (.u 0) }, bedFrame []],
                     epc := epc, tstate := some { m0 := 3, fmt := 0x33, fdepth := 0 } }

/-- TrapInstructions. -/
theorem test_meets_eret :
    (∀ x ∈ [bedSlice [], bedHandler 0x10008, bedHandler 0x10009], (bedOf x []).Alone .eret x [] 0) ∧
    (bedSlice []).inTrapFrame = false ∧ (bedHandler 0x10008).inTrapFrame = true ∧ (bedHandler 0x10009).inTrapFrame = true ∧
    (bedHandler 0x10008).recon = [] ∧ (∀ x k, (bedOf x []).frameBusy 1 k = false) :=
  ⟨all_of (b := fun x => aloneB (bedOf x []) .eret x [] 0) (fun _ h => alone_of h) (by decide +kernel), by decide +kernel, by decide +kernel,
   by decide +kernel, by decide +kernel, fun _ _ => rfl⟩

/-- TrapInstructions: TRAP of a gang of two and of a slice alone that finds two granules, and BRK of a slice alone. -/
theorem test_meets_traps_taken :
    (bedTwo.Led (.trap (.v 0)) (bedTwo.reads [.v 0]) (leadOf bedTwo) ∧ bedTwo.cur.Nodup ∧
      ∀ x ∈ bedTwo.curSlices, x.guest = none ∧ x.tstate = none ∧ x.depth < 4095 ∧ (bedTwo.env x).launch.pkt.trap ≠ 0) ∧
    (∀ i ∈ [Instr.trap (.v 0), .brk (.v 0)], (bed [9]).Led i ((bed [9]).reads [.v 0]) (leadOf (bed [9]))) ∧
    (let s := bed [9]; let x := (leadOf s).slice;
      s.cur = [x.uid] ∧ x.guest = none ∧ x.tstate = none ∧ x.depth < 4095 ∧ (s.env x).launch.pkt.trap ≠ 0 ∧
      ((s.fresh.2.onSlice x.uid fun z => { z with gang := s.fresh.1 }).ownRun { x with gang := s.fresh.1, parked := x.lasting } 2).isSome = true ∧
      ((s.group? x.group).map (·.halted)) = some false ∧
      ((s.countFault (leadOf s).env.launch.queue).outside.events.filter fun e =>
        e.source == srcDie (dieOfCore (leadOf s).env.origin) && e.cls != 0).length < 16) :=
  ⟨⟨led_of (by decide +kernel), by decide +kernel, by decide +kernel⟩, all_of (fun _ h => led_of h) (by decide +kernel), by decide +kernel⟩

/-- LaneTraps: v95 lies outside a frame of 16 registers; lane 0 of v0 is poisoned. -/
theorem test_meets_lane_traps :
    (Instr.and none (.v 95) (.v 0) (.v 1) false).inFrame (bedSlice []).frameRegs = false ∧
    (let x : Slice := { bedSlice [] with frames := [{ bedFrame [] with regs := .uniform { poison := true } :: List.replicate 15 (.u 0) }] };
     (Instr.and none (.v 4) (.v 0) (.v 1) false).inFrame x.frameRegs = true ∧ ((x.readOpnd ((bedOf x []).env x) 0 (.v 0)).lane 0).poison = true ∧
     (bedOf x []).cur = [x.uid] ∧ (bedOf x []).slice? x.uid = some x ∧ (bedOf x []).declinedOf (.slice x.uid) = none) := by decide +kernel

/-- EventsAndInvalidation: a user's EVPOST, and TLBINV by a user and by firmware. -/
def bedFirm (ws : List Word) : State := { bed ws with groups := [{ uid := 2, wg := 6, idx := 0, pipe := 0, place := 0, born := 0, firmware := true }] }

/-- The same with a remote access of context 5 that has had no reply. -/
def bedWaiting : State :=
  (bedFirm []).onOutside fun o => { o with remotes := [{ id := 3, part := 1, slice := 1, instr := .ld none .w32 (.v 4) (.v 0) 0, lane := 0, addr := 0x20000, reply := none }] }

theorem test_meets_events :
    (∀ s ∈ [bed [5, 0, 0x52], bedFirm [5, 0, 0x52]], ∀ i ∈ [Instr.tlbinv (.v 0) (.v 2) false], s.Led i (s.reads [.v 0, .v 1, .v 2]) (leadOf s)) ∧
    (bed [5, 0, 9]).Led (.evpost (.v 0) (.v 2) false) ((bed [5, 0, 9]).reads [.v 0, .v 1, .v 2]) (leadOf (bed [5, 0, 9])) ∧
    (leadOf (bedFirm [5, 0, 0x52])).env.group.firmware = true ∧ 0x52 % 4 = 2 ∧ 0x52 / 4 % 4 = 0 ∧
    ((bedFirm []).remotePending (some 5) = false ∧ (bedFirm []).remotePending none = false ∧ bedWaiting.remotePending (some 5) = true) ∧
    (∀ x ∈ (bed []).curSlices, (bed []).releaseReady x .pkg = true) ∧ ((bed []).outside.events.filter (·.cls == 0)).length < arbiterRoom :=
  ⟨fun s hs => all_of (fun _ h => led_of h) (by
      simp only [List.mem_cons, List.not_mem_nil, or_false] at hs
      rcases hs with rfl | rfl <;> decide +kernel), led_of (by decide +kernel), by decide +kernel⟩
/-! Memory. Addresses 0x20000 and above of the context hold bytes; v0:v1 is 0x20000. -/

def bedMem : State := bedOf (bedSlice [0x20000, 0, 7]) [(0x20000, [0x11, 0x22, 0x33, 0x84, 5, 0, 0, 0])]
def bedX : Slice := bedSlice [0x20000, 0, 7]
def bedPair : Reg × Reg := bedX.readPair (bedMem.env bedX) 0 true (.v 0)

theorem test_coherent (quad : Nat) : bedMem.Coherent quad := coherent_of (by decide +kernel)

/-- Loads and Stores: the hypotheses of an access of a slice alone, for each size: alignment and reach of the lanes' addresses. -/
theorem test_meets_loads (z : LdSize) :
    let as := laneAddrs bedPair bedX.m0 (scaled 0 z.bytes) z.bytes
    bedMem.Alone (.ld none z (.v 4) (.v 0) 0) bedX [bedPair.1, bedPair.2] bedX.m0 ∧ (∀ q ∈ as, q.va.toNat % z.bytes = 0) ∧
    bedMem.Reaches bedX { kind := .load } (pfxCp none) as bedTr ∧ bedX.lasting = [] := by
  cases z <;> exact ⟨alone_of (by decide +kernel), by decide +kernel, reach_of (by decide +kernel), rfl⟩

theorem test_meets_stores (z : StSize) :
    let as := laneAddrs bedPair bedX.m0 (scaled 0 z.bytes) z.bytes
    bedMem.Alone (.st none z (.v 4) (.v 0) 0) bedX ([bedPair.1, bedPair.2] ++ bedX.storeRegs (bedMem.env bedX) 0 (.v 4) z.width.count) bedX.m0 ∧
    (∀ q ∈ as, q.va.toNat % z.bytes = 0) ∧ bedMem.Reaches bedX { kind := .store, wr := true } (pfxCp none) as bedTr ∧
    bedMem.releaseReady bedX (bedMem.widen bedX .slice) = true := by
  cases z <;> exact ⟨alone_of (by decide +kernel), by decide +kernel, reach_of (by decide +kernel), by decide +kernel⟩

/-- Stores: a scratchpad of its own, through the local alias, and one lane of m1. -/
def bedScratch : Slice := { bedSlice [0x40, 0xFE0000, 7] with masks := [0xF, 4, 0, 0, 0, 0, 0, 0] }

theorem test_meets_scratch_store :
    (∀ l ∈ maskLanes bedScratch.m0,
      (bedOf bedScratch []).look (((bedOf bedScratch []).env bedScratch).party 1) { kind := .store, wr := true } 0xFE000000000040 =
        .ok { pa := scratchBase + 0x40, home := .core 0, pte := 0, window := true }) ∧
    maskLanes (takeOf bedScratch (some { mask := 1 })) = [2] ∧ (bedOf bedScratch []).mem.wf = true ∧ (bedOf bedScratch []).roof.wf = true := by
  decide +kernel

/-- Atomics: every operation, one lane, clean bytes and no order. -/
def bedOne : Slice := { bedX with masks := [2, 0, 0, 0, 0, 0, 0, 0] }
def bedOneMem : State := { bedMem with slices := [bedOne] }

theorem test_meets_atomics :
    (∀ i ∈ ([AtomOp.addI32, .addF32, .addBf16x2, .minI32, .maxI32, .minN32, .maxN32, .exch].map fun o =>
        Instr.atom none o (.v 4) (.v 0) (.v 2) false) ++
        ([AtombOp.and, .or, .xor, .cas, .addI64, .minF32, .maxF32].map fun o => Instr.atomb none o (.v 4) (.v 0) (.v 2) false),
      let ups := (laneAddrs bedPair bedOne.m0 0 4).flatMap fun q => updatesOf i q.lane q.va 7 0
      let as := ups.map fun q => ({ lane := q.lane, va := q.va, bytes := q.bytes } : LaneAddr)
      bedOneMem.Alone i bedOne ([bedPair.1, bedPair.2] ++ bedOneMem.reads [.v 2, .v 3] bedOne (bedOneMem.env bedOne)) bedOne.m0 ∧
      (∀ q ∈ as, q.va.toNat % atomAlign i = 0) ∧ bedOneMem.Reaches bedOne { kind := .atomic, wr := true } (pfxCp none) as bedTr) ∧
    (updatesOf (.atom none .addI32 (.v 4) (.v 0) (.v 2) false) 1 0x20000 7 0).length = 1 ∧ pfxOrder none = .rlx ∧
    bedOneMem.peekPoison (bedTr 0x20000).pa 4 = false ∧ pfxUse none ≠ .comm ∧ pfxUse none ≠ .quant := by
  refine ⟨all_of (b := fun i =>
      let ups := (laneAddrs bedPair bedOne.m0 0 4).flatMap fun q => updatesOf i q.lane q.va 7 0
      let as := ups.map fun q => ({ lane := q.lane, va := q.va, bytes := q.bytes } : LaneAddr)
      aloneB bedOneMem i bedOne ([bedPair.1, bedPair.2] ++ bedOneMem.reads [.v 2, .v 3] bedOne (bedOneMem.env bedOne)) bedOne.m0 &&
      (as.all fun q => decide (q.va.toNat % atomAlign i = 0)) && reachB bedOneMem bedOne { kind := .atomic, wr := true } (pfxCp none) as)
    (fun i h => ?_) (by decide +kernel), by decide +kernel⟩
  simp only [Bool.and_eq_true, List.all_eq_true, decide_eq_true_eq] at h
  exact ⟨alone_of h.1.1, h.1.2, reach_of h.2⟩

/-- LineOperations and the bound registers of WatchedWordsAndBoundRegisters. -/
theorem test_meets_lines :
    (∀ i ∈ [Instr.fence .ar .die, .fence .rel .core, .cflush (some { scope := .quad }) (.v 0) 0, .cinv (some { scope := .die }) (.v 0) 0,
        .pin none (.v 4) (.v 0) 0, .unpin none (.v 4) (.v 0) 0, .pref none (.v 0) 0, .migq (.v 4) (.v 0) false,
        .qmin none (.v 4) (.v 0) (.v 2) false, .qmax none (.v 4) (.v 0) (.v 2) false, .qget none (.v 4) (.v 2), .qset none (.v 0) (.v 2) false],
      bedMem.Alone i bedX ([bedPair.1, bedPair.2] ++ bedMem.reads [.v 2] bedX (bedMem.env bedX)) bedX.m0) ∧
    bedMem.Reaches bedX { kind := .load } 3 (laneAddrs bedPair bedX.m0 (scaled 0 64) 1) bedTr ∧
    bedMem.releaseReady bedX (bedMem.widen bedX .die) = true ∧ bedMem.bounds = [] ∧
    (∀ l ∈ maskLanes bedX.m0, bedMem.look ((bedMem.env bedX).party 1) { kind := .load } (pairVal bedPair l) = .ok (bedTr (pairVal bedPair l))) :=
  ⟨all_of (fun _ h => alone_of h) (by decide +kernel), reach_of (by decide +kernel), by decide +kernel, rfl, by decide +kernel⟩

/-- Whether no walk is to be made for lanes of the slice, and no parked access stands before them, as LineOperations asks. -/
def knownB (s : State) (x : Slice) (qs : List LaneAddr) : Bool :=
  let who := (s.env x).party x.uid
  !x.mustWait qs && qs.all fun q => match s.look who { kind := .load } q.va with
    | .miss => (s.quietFault who.who q.va).isSome
    | .ok _ => qs.length == 1 || s.caches.tlb.any (fun v => v.unit == who.unit && v.covers who.ctx q.va.toNat) ||
        s.caches.tlb.all fun v => !v.covers who.ctx q.va.toNat
    | _ => true

/-- LineOperations, the lanes of PIN, UNPIN, PREF and MIGQ: a lane alone, four that the core's TLB holds, four at an address that is
none, and one whose walk has faulted. -/
theorem test_meets_known :
    knownB bedOneMem bedOne (laneAddrs bedPair bedOne.m0 (scaled 0 64) 1) = true ∧
    (let s := { bedMem with caches := { tlb := bedMem.caches.tlb ++ [{ unit := .core 0, ctx := 5, page := 0, log2 := 30, pte := BitVec.ofNat 64 bedPte }] } };
      knownB s bedX (laneAddrs bedPair bedX.m0 (scaled 0 64) 1) = true ∧
      (∀ i ∈ [Instr.pin none (.v 4) (.v 0) 0, .unpin none (.v 4) (.v 0) 0, .pref none (.v 0) 0, .migq (.v 4) (.v 0) false],
        s.Alone i bedX [bedPair.1, bedPair.2] bedX.m0)) ∧
    (let x := bedSlice [0x20000, 0x80000000];
      knownB (bedOf x []) x (laneAddrs (x.readPair ((bedOf x []).env x) 0 true (.v 0)) x.m0 (scaled 0 64) 1) = true) ∧
    (let s := { bedOneMem with caches := { declined := [{ ask := { who := .slice 1, unit := .core 0, ctx := 5, va := 0x20000, kind := .load, quiet := true }, subcode := 2 }] } };
      s.look ((s.env bedOne).party 1) { kind := .load } 0x20000 = .miss ∧
      knownB s bedOne (laneAddrs bedPair bedOne.m0 (scaled 0 64) 1) = true) :=
  ⟨by decide +kernel, ⟨by decide +kernel, all_of (fun _ h => alone_of h) (by decide +kernel)⟩, by decide +kernel, by decide +kernel⟩

/-- WAITW: the word at the address differs from the old value 0 of v4. -/
theorem test_meets_waitw :
    let as := laneAddrs bedPair bedX.m0 (scaled 0 4) 4
    bedMem.Alone (.waitw none (.v 4) (.v 0) 0) bedX [bedPair.1, bedPair.2, bedX.readOpnd (bedMem.env bedX) 0 (.v 4)] bedX.m0 ∧
    (∀ q ∈ as, q.va.toNat % 4 = 0) ∧ bedMem.Reaches bedX { kind := .load } 3 as bedTr ∧
    le32 (bedMem.peek (bedTr 0x20000).pa 4) 0 = 0x84332211 ∧ (bedX.readOpnd (bedMem.env bedX) 0 (.v 4)).lane 0 = {} :=
  ⟨alone_of (by decide +kernel), by decide +kernel, reach_of (by decide +kernel), by decide +kernel, by decide +kernel⟩

/-- BarrierObjects: an object armed with one arrival expected, in phase 0; a wait for phase 0 is not answered, one for phase
1 is. -/
def bedBar : State := { bedOf bedOne [(0x20000, ((Mbar.ofBytes (zeros 16)).init 1).obj.bytes)] with slices := [bedOne] }

theorem test_meets_barriers :
    (∀ i ∈ [Instr.mbarInit (.v 0) (.v 2) false, .mbarArrive none (.v 0) (.v 2) false, .mbarInval (.v 0) false, .mbarWait none 1 (.v 0) (.v 2) false,
        .mbarTest none 1 (.v 0) (.v 2) false],
      bedBar.Alone i bedOne [bedPair.1, bedPair.2, bedOne.readOpnd (bedBar.env bedOne) 0 (.v 2)] bedOne.m0) ∧
    bedOne.mbar = [] ∧ (∀ q ∈ laneAddrs bedPair bedOne.m0 0 16, q.va.toNat % 16 = 0) ∧
    bedBar.Reaches bedOne { kind := .atomic, wr := true } 3 (laneAddrs bedPair bedOne.m0 0 16) bedTr ∧
    bedBar.Reaches bedOne { kind := .atomic } 3 (laneAddrs bedPair bedOne.m0 0 16) bedTr ∧ (∀ quad, bedBar.Coherent quad) ∧
    (maskLanes bedOne.m0 = [1] ∧ (stackOf (bedTr 0x20000).pa).isSome = true ∧ bedBar.peekPoison (bedTr 0x20000).pa 16 = false) ∧
    (let o := Mbar.ofBytes (bedBar.peek (bedTr 0x20000).pa 16);
      o.state = 1 ∧ o.pending = 0 ∧ o.left = 1 ∧ o.phase = false ∧ o.answer false = none ∧ (o.answer true).isSome = true) := by
  refine ⟨all_of (fun _ h => alone_of h) (by decide +kernel), rfl, by decide +kernel, reach_of (by decide +kernel), reach_of (by decide +kernel),
    fun _ => coherent_of (by decide +kernel), by decide +kernel, by decide +kernel⟩
/-! Units: tasks, regions, streams, near-memory commands. A chain of steps is checked by the answers it gives. -/

/-- An answer, and what it holds. -/
def okB {ε α : Type} (x : Except ε α) (p : α → Bool) : Bool :=
  match x with
  | .ok a => p a
  | .error _ => false

theorem stealFrom_none {s : State} {t : Tasker} {g : Bool} : ∀ {cs : List Nat}, (∀ c ∈ cs, s.probed c t.env.ctx = false) →
    s.stealFrom t g cs = .ok (s, none)
  | [], _ => rfl
  | c :: cs, h => by
    simp [State.stealFrom, h c (by simp), stealFrom_none fun d hd => h d (List.mem_cons_of_mem c hd)]

theorem stealFar_none {t : Tasker} {g : Bool} : ∀ {s : State} {ds : List Nat}, (∀ c, c ≠ 0 → s.probed c t.env.ctx = false) → 0 ∉ ds →
    ∃ s2, s.stealFar t g ds = .ok (s2, none)
  | s, [], _, _ => ⟨s, rfl⟩
  | s, d :: ds, h, h0 => by
    simp only [List.mem_cons, not_or] at h0
    obtain ⟨s2, h2⟩ := stealFar_none (g := g) (s := { s with probeNext := assocSet s.probeNext d ((assoc 0 s.probeNext d + 1) % 8) }) h h0.2
    refine ⟨s2, ?_⟩
    simp only [State.stealFar]
    rw [stealFrom_none]
    · exact h2
    · intro c hc
      simp only [List.mem_map] at hc
      obtain ⟨j, -, rfl⟩ := hc
      exact h _ (by omega)

/-- With workgroups on core 0 alone and no deque, a TNEXT on core 0 finds nothing, wherever its ring starts. -/
theorem findTask_none {s s1 : State} {t : Tasker} {g : Bool} (hc : t.env.core = 0)
    (h : s.takeGood t (fun s => s.popTask t 0 g) (s.dequeFuel 0 t.env.ctx) = .ok (s1, none)) (hw : ∀ w ∈ s1.wgs, w.core = 0)
    (hd : s1.engines.deques = []) : ∃ s2, s.findTask t g true = .ok (s2, none) := by
  have hp : ∀ (v : State), v.wgs = s1.wgs → v.engines = s1.engines → ∀ c, c ≠ 0 → v.probed c t.env.ctx = false := fun v h1 h2 c h0 => by
    simp only [State.probed, State.runsCtx, State.dequeOf, h1, h2, hd, Bool.or_eq_false_iff, List.any_eq_false]
    exact ⟨fun w hw' => by simp [hw w hw', Ne.symm h0], by simp⟩
  simp only [State.findTask, hc, h, if_true, State.steal]
  rw [stealFrom_none]
  · exact stealFar_none (hp _ rfl rfl) (by decide)
  · refine fun c hc => hp _ rfl rfl c ?_
    simp only [List.mem_append, List.mem_map, List.mem_filter] at hc
    obtain ⟨j, -, rfl⟩ | ⟨-, hq⟩ := hc
    · omega
    · rintro rfl; simp at hq

theorem findTask_none_of {s : State} {t : Tasker} {g : Bool} (hc : t.env.core = 0)
    (h : okB (s.takeGood t (fun s => s.popTask t 0 g) (s.dequeFuel 0 t.env.ctx))
      (fun r => r.2.isNone && (r.1.wgs.all fun w => decide (w.core = 0)) && decide (r.1.engines.deques = [])) = true) :
    ∃ s2, s.findTask t g true = .ok (s2, none) := by
  unfold okB at h
  split at h
  · rename_i a ha
    obtain ⟨s1, r⟩ := a
    simp only [Bool.and_eq_true, List.all_eq_true, decide_eq_true_eq, Option.isNone_iff_eq_none] at h
    obtain ⟨⟨rfl, h2⟩, h3⟩ := h
    exact findTask_none hc ha h2 h3
  · cases h

/-- A task record's bytes: entry 0x10010, argument words of zero, a join counter at 0x20100, no successor. -/
def bedRecord (ctl : Nat) : List Byte := u64 0x10010 ++ zeros 32 ++ u64 0x20100 ++ u64 0 ++ u64 ctl

/-- DEMAND 2, with a STATUS. -/
def bedCtl (status : Nat) : Nat := 2 * 2 ^ 52 + status * 2 ^ 48

def bedTask (ctl : Nat) : State := bedOf bedX [(0x20000, bedRecord ctl)]

/-- The same with the record's entry in the deque of core 0. -/
def bedQueued : State := { bedTask (bedCtl 2) with engines := { deques := [{ core := 0, ctx := 5, entries := [0x20000] }] } }

def bedTasker (s : State) : Tasker := Tasker.of (s.env bedX) bedX

/-- A gang of two, its whole thread group, and a group task in the deque of core 0. -/
def bedTeam : State :=
  { bedTask (bedCtl 2 + 2 ^ 56) with
    cur := [1, 7], slices := [bedX, { bedX with uid := 7, idx := 1 }],
    engines := { deques := [{ core := 0, ctx := 5, entries := [dequeEntry 0x20000 true] }] } }

/-- TaskInstructions: TNEXT.g that finds a record, each slice with a run for it, and one of a gang that is not all of its group. -/
theorem test_meets_team :
    bedTeam.Led (.tnextG (.v 4)) (fun _ _ => []) (leadOf bedTeam) ∧
    (∀ y ∈ bedTeam.groupSlices (leadOf bedTeam).slice.group, y.live = true → y.uid ∈ bedTeam.cur) ∧
    (∀ y ∈ bedTeam.curSlices, y.tstate = none ∧ y.parked = []) ∧
    okB (bedTeam.findTask (Tasker.of (leadOf bedTeam).env (leadOf bedTeam).slice) true true) (fun r => match r.2 with
      | some (rcd, t) =>
        rcd == 0x20000 && (bedTeam.curSlices.all fun y => decide (y.depth < 4095)) &&
        (r.1.curSlices.all fun y => (r.1.ownRun y (ctlDemand t.ctl)).isSome) &&
        okB (r.1.rmwCtl (Tasker.of (leadOf bedTeam).env (leadOf bedTeam).slice) rcd (setStatus 3)) fun _ => true
      | none => false) = true ∧
    (let s := { bedTeam with cur := [1] };
      s.Led (.tnextG (.v 4)) (fun _ _ => []) (leadOf s) ∧ ¬∀ y ∈ s.groupSlices (leadOf s).slice.group, y.live = true → y.uid ∈ s.cur) :=
  ⟨led_of (by decide +kernel), by decide +kernel, by decide +kernel, by decide +kernel, led_of (by decide +kernel), by decide +kernel⟩

/-- TaskInstructions: TNEXT that finds none, TNEXT that finds a record and has a run for it, and JOIN of a zero counter. -/
theorem test_meets_tasks :
    ((∀ s ∈ [bed [], bedQueued], s.Alone (.tnextS (.v 4)) (if s = bedQueued then bedX else bedSlice []) [] 0) ∧
      (∃ s1, (bed []).findTask (Tasker.of ((bed []).env (bedSlice [])) (bedSlice [])) false true = .ok (s1, none)) ∧
      okB (bedQueued.findTask (bedTasker bedQueued) false true) (fun r => match r.2 with
        | some (rcd, t) =>
          let y := (bedX.stepLatch []).writeResult (.v 4) [.u 1] bedX.m0 false;
          decide (y.depth < 4095) && (r.1.ownRun y (ctlDemand t.ctl)).isSome && okB (r.1.rmwCtl (bedTasker bedQueued) rcd (setStatus 3)) fun _ => true
        | none => false) = true) ∧
    (bedTwo.Led (.tnextG (.v 4)) (fun _ _ => []) (leadOf bedTwo) ∧
      (∀ y ∈ bedTwo.groupSlices (leadOf bedTwo).slice.group, y.live = true → y.uid ∈ bedTwo.cur) ∧
      (∀ y ∈ bedTwo.curSlices, y.tstate = none ∧ y.parked = []) ∧
      ∃ s1, bedTwo.findTask (Tasker.of (leadOf bedTwo).env (leadOf bedTwo).slice) true true = .ok (s1, none)) ∧
    ((bedOf bedX [(0x20000, zeros 4)]).Alone (.join (.v 0) false) bedX [bedPair.1, bedPair.2] bedX.lowMask ∧ bedX.parked = [] ∧
      (pairVal bedPair (lowestLane bedX.m0)).toNat % 4 = 0 ∧
      okB ((bedOf bedX [(0x20000, zeros 4)]).taskRead (bedTasker (bedOf bedX [(0x20000, zeros 4)])) .load 0x20000 4) (fun r => le32 r.2 0 == 0) = true) :=
  ⟨⟨fun s hs => by
      simp only [List.mem_cons, List.not_mem_nil, or_false] at hs
      rcases hs with rfl | rfl <;> exact alone_of (by decide +kernel), findTask_none_of (by decide +kernel) (by decide +kernel), by decide +kernel⟩,
    ⟨led_of (by decide +kernel), by decide +kernel, by decide +kernel, findTask_none_of (by decide +kernel) (by decide +kernel)⟩,
    ⟨alone_of (by decide +kernel), rfl, by decide +kernel, by decide +kernel⟩⟩

/-- TaskInstructions: TDONE of a running record, SPAWN, and each code of a lane of SPAWN. -/
theorem test_meets_task_ends :
    (∀ i ∈ [Instr.tdone (.v 4) (.v 0) false, .tdoneAbandon (.v 4) (.v 0) false],
      (bedTask (bedCtl 3)).Alone i bedX [bedPair.1, bedPair.2] bedX.lowMask) ∧ (pairVal bedPair 0).toNat % 64 = 0 ∧
    (bedTask (bedCtl 3)).releaseReady bedX .pkg = true ∧
    okB ((bedTask (bedCtl 3)).readTask (bedTasker (bedTask (bedCtl 3))) 0x20000) (fun r =>
      !r.2.malformed && ctlStatus r.2.ctl == 3 && okB (r.1.rmwCtl (bedTasker r.1) 0x20000 (setStatus 4)) fun s2 =>
        match s2.signalFrom (bedTasker s2) false 0x20000 r.2 (ctlNsucc r.2.ctl - ctlCursor r.2.ctl) (ctlCursor r.2.ctl) with
        | (s3, none) => okB (s3.addJoin (bedTasker s3) r.2.join (-1)) fun s4 => okB (s4.rmwCtl (bedTasker s4) 0x20000 (setStatus 5)) fun _ => true
        | _ => false) = true ∧
    ((bedTask (bedCtl 0)).Alone (.spawn (.v 4) (.v 0) false) bedX [bedPair.1, bedPair.2] bedX.m0 ∧
      (∀ q ∈ laneAddrs bedPair bedX.m0 0 64, q.va.toNat % 64 = 0) ∧
      okB (((bedTask (bedCtl 0)).releaseAt ((bedTask (bedCtl 0)).env bedX) bedX .pkg).spawnLanes (bedTasker (bedTask (bedCtl 0)))
        ((laneAddrs bedPair bedX.m0 0 64).map fun q => (q.lane, q.va))) (fun r => r.2.isSome) = true) ∧
    (∀ c ∈ [(bedCtl 8, true, 0), (bedCtl 6, false, 6), (bedCtl 3, false, 3), (bedCtl 0, false, 0), (bedCtl 0 + 2 ^ 32, false, 0)],
      okB ((bedTask c.1).readTask (bedTasker (bedTask c.1)) 0x20000) (fun r => r.2.malformed == c.2.1 && (c.2.1 || ctlStatus r.2.ctl == c.2.2)) = true) ∧
    (bedTask (bedCtl 0)).duty 4 = false ∧
    okB ((bedTask (bedCtl 0)).addJoin (bedTasker (bedTask (bedCtl 0))) 0x20100 1) (fun s2 =>
      okB (s2.rmwCtl (bedTasker s2) 0x20000 (setStatus 2)) fun s3 => okB (s3.pushTask (bedTasker s3) 0 0x20000) fun _ => true) = true :=
  ⟨all_of (fun _ h => alone_of h) (by decide +kernel), by decide +kernel, by decide +kernel, by decide +kernel,
    ⟨alone_of (by decide +kernel), by decide +kernel, by decide +kernel⟩, by decide +kernel, by decide +kernel, by decide +kernel⟩

/-! Regions and streams. -/

/-- An armed region of context 5: band 2 of stack 0. -/
def bedRegion : Region := { stack := 0, first := 2, width := 1, ctx := 5, state := .armed, image := 0x20000 }

/-- The machine with regions; v0:v1 is `va`, v2 is `w`. The bytes at 0x20000 are a launch record for band 2 of stack 0. -/
def bedArr (va w : Word) (rs saved : List Region) : State :=
  { bedOf (bedSlice [va, 0, w]) [(0x20000, u32 0x20 ++ zeros 60)] with engines := { regions := rs, savedRegions := saved } }

def bedLed (s : State) (i : Instr) (ops : List Opnd) : Bool := ledB s i (s.reads ops)

/-- ArrayInstructions: GPREP on a busy band, on a free one with an image aligned and not, and of a malformed word; GCTL and
GLAUNCH for a region that is there, is saved, is not there, and is another context's. -/
theorem test_meets_arrays :
    (∀ s ∈ [bedArr 0x20000 0x20 [bedRegion] [], bedArr 0x20000 0x20 [] [bedRegion], bedArr 0x20000 0x30 [bedRegion] [],
        bedArr 0x20010 0x30 [bedRegion] [], bedArr 0x20000 0x400 [] [], bedArr 0x20000 0x20 [{ bedRegion with ctx := 9 }] []],
      s.Led (.gprep (.v 4) (.v 0) (.v 2) false) (s.reads [.v 0, .v 1, .v 2]) (leadOf s) ∧
      (∀ i ∈ [Instr.gctlStatus (.v 4) (.v 2) false, .gctlRelease (.v 4) (.v 2) false], s.Led i (s.reads [.v 2]) (leadOf s)) ∧
      s.Led (.gctlInval (.v 4) (.v 0) false) (s.reads [.v 0, .v 1]) (leadOf s)) ∧
    (∀ s ∈ [bedArr 0x20000 0x20 [bedRegion] [], bedArr 0x20000 0x20 [] [bedRegion], bedArr 0x20000 0x20 [] [],
        bedArr 0x20000 0x20 [{ bedRegion with width := 2 }] [], bedArr 0x20000 0x20 [{ bedRegion with ctx := 9 }] []],
      s.Led (.glaunch (.v 4) (.v 0) false) (s.reads [.v 0, .v 1]) (leadOf s) ∧ (∀ x ∈ s.curSlices, s.releaseReady x .pkg = true)) ∧
    (let s := bedArr 0x20000 0x20 [bedRegion] [];
      regionWord 0x20 = some (0, 2, 1) ∧ regionWord 0x400 = none ∧ (s.regionOfBand 0 2) = some bedRegion ∧
      s.regionOfBand 0 3 = none ∧ s.savedOfBand 0 3 = none ∧ (s.region? 0 2).isSome = true ∧ bedRegion.inFlight.length < 4 ∧
      (let t := s.curSlices.foldl (fun t x => t.releaseAt (t.env x) x .pkg) s;
        okB (t.taskRead (Tasker.of (leadOf s).env (leadOf s).slice) .record 0x20000 64) fun r =>
          let c := LaunchRec.ofBytes r.2;
          decide (c.region = some (0, 2, 1)) && c.ok && decide (r.1.regionsOn 0 2 1 = [bedRegion]) &&
          okB (r.1.captureGens (Tasker.of (leadOf s).env (leadOf s).slice) c.mbars) fun _ => true) = true) := by
  refine ⟨all_of (b := fun s => bedLed s (.gprep (.v 4) (.v 0) (.v 2) false) [.v 0, .v 1, .v 2] &&
      ([Instr.gctlStatus (.v 4) (.v 2) false, .gctlRelease (.v 4) (.v 2) false].all fun i => bedLed s i [.v 2]) &&
      bedLed s (.gctlInval (.v 4) (.v 0) false) [.v 0, .v 1]) (fun s h => ?_) (by decide +kernel),
    all_of (b := fun s => bedLed s (.glaunch (.v 4) (.v 0) false) [.v 0, .v 1] && s.curSlices.all fun x => s.releaseReady x .pkg)
      (fun s h => ?_) (by decide +kernel), by decide +kernel⟩
  · simp only [Bool.and_eq_true] at h
    exact ⟨led_of h.1.1, all_of (fun _ h => led_of h) h.1.2, led_of h.2⟩
  · simp only [Bool.and_eq_true, List.all_eq_true] at h
    exact ⟨led_of h.1, h.2⟩

/-- A stream queue of the workgroup, queue 0 of core 0 of part 0, towards site 1 of band 0 of stack 0. -/
def bedQueue (inbound : Bool) (ts : List Tok) : Channel :=
  { id := queueId 0 0 0, peer := bridgeId 0 0 0 2, fmt := 1, inbound := inbound, wg := some 6, inTok := if inbound then ts else [],
    outTok := if inbound then [] else ts }

/-- The machine with channels; v0 and v2 are the operands. -/
def bedStream (va w : Word) (cs : List Channel) : State := { bedOf (bedSlice [va, 0, w]) [] with engines := { channels := cs } }

/-- StreamQueues: GBIND of a free, an equal, a different and a bound queue; SQPUSH and SQPOP, bound, not bound, and with a bit
that must be zero set. -/
theorem test_meets_streams :
    (∀ c ∈ [((0x10 : Word), bridgeId 0 0 0 2, ([] : List Channel)), (0x10, bridgeId 0 0 0 2, [bedQueue false []]),
        (0x18, bridgeId 0 0 0 2, [bedQueue false []]), (0x100, 0, [bedQueue false []]), (0x100, 0, []), (0x200, 0, []), (0x10, 0x200000, []),
        (0, 0x80, []), (0, 8, [bedQueue false []]), (0x80, 8, [bedQueue false []]), (0, 0, [bedQueue true [{ kind := .data, exc := false }]]), (0x10, 0x10, [])],
      let s := bedStream c.1 c.2.1 c.2.2
      s.Led (.gbind (.v 4) (.v 0) (.v 2) false) (s.reads [.v 0, .v 2]) (leadOf s) ∧
      s.Led (.sqpush (.v 4) (.v 2) (.v 0) false) (s.reads [.v 0]) (leadOf s) ∧ s.Led (.sqpop (.v 4) (.v 0)) (s.reads [.v 0]) (leadOf s)) ∧
    (bedStream 0 0 [bedQueue false []]).channel? (queueId 0 0 0) = some (bedQueue false []) ∧
    (let s := bedStream 0x10 (bridgeId 0 0 0 2) [];
      s.channel? (queueId s.partNumber (leadOf s).env.origin 0) = none ∧ badChannel s.podSize (bridgeId 0 0 0 2) = false ∧ badChannel s.podSize 0x80 = true) ∧
    (let s := bedStream 0 0 [bedQueue true [{ kind := .data, exc := false }]];
      (s.boundQueue (leadOf s).env 0) = some (bedQueue true [{ kind := .data, exc := false }]) ∧ (s.boundQueue (leadOf s).env 1) = none ∧
      ∀ x ∈ s.curSlices, (x.readOpnd (s.env x) 0 (.v 2)).poisoned x.m0 = false) := by
  refine ⟨all_of (b := fun c => let s := bedStream c.1 c.2.1 c.2.2;
      bedLed s (.gbind (.v 4) (.v 0) (.v 2) false) [.v 0, .v 2] && bedLed s (.sqpush (.v 4) (.v 2) (.v 0) false) [.v 0] &&
      bedLed s (.sqpop (.v 4) (.v 0)) [.v 0]) (fun s h => ?_) (by decide +kernel), by decide +kernel, by decide +kernel, by decide +kernel⟩
  simp only [Bool.and_eq_true] at h
  exact ⟨led_of h.1.1, led_of h.1.2, led_of h.2⟩

/-! Near-memory commands and the base die. -/

/-- A record of a walk over four FP32 elements at `base`. -/
def bedApr (base flags hi padrule : Nat) : List Byte :=
  u64 base ++ [0, 2, 0, 0] ++ u32 flags ++ u32 4 ++ u32 1 ++ u32 1 ++ u32 1 ++ u32 1 ++ zeros 4 ++ u32 1 ++ zeros 16 ++ u32 padrule ++
    zeros 20 ++ u32 hi ++ u32 1 ++ u32 1 ++ u32 1 ++ u32 1 ++ zeros 28

/-- A command record: BODY, its records A and D at 0x20100 and 0x20200, its result at 0x20300. -/
def bedNmc (body : Byte) : List Byte :=
  [body, 0] ++ zeros 6 ++ u64 0x20100 ++ u64 0 ++ u64 0x20200 ++ u32 0 ++ u32 0 ++ u64 0 ++ u64 0x20300 ++ zeros 8

def bedNear (body : Byte) (hiA ruleA : Nat) (baseD flagsD hiD ruleD : Nat) : State :=
  bedOf bedX [(0x20000, bedNmc body), (0x20100, bedApr 0x21000 0 hiA ruleA), (0x20200, bedApr baseD flagsD hiD ruleD)]

/-- How a record goes: reading it, its checks, its deciding element and that element's home. -/
def nearB (s : State) (bad : Bool) (chk dec : Bool) (home : Home) : Bool :=
  let l := leadOf s
  let t := Tasker.of l.env l.slice
  let rel := s.curSlices.foldl (fun w y => w.releaseAt (w.env y) y .pkg) s
  okB (rel.taskRead t .record 0x20000 64) fun r1 =>
    let r := NmcRec.ofBytes r1.2
    decide (r.result ≠ 0) && decide (r.result.toNat % 16 = 0) && decide (r.mbar.toNat % 16 = 0) && (r.bad == bad) &&
    okB (r1.1.readApr t r.aprA) fun ra => okB (ra.1.readApr t r.aprB) fun rb => okB (rb.1.readApr t r.aprD) fun rd =>
      (match rd.1.findQuiet t.party { kind := .nmcWrite, wr := true } r.result with
        | (s5, .ok _) => okB (s5.captureGen t r.mbar) fun s6 =>
          ((nmcCheck r.body ra.2 rb.2 rd.2).isNone == chk) &&
          (bad || !chk || ((deciding ra.2 rb.2 rd.2).isSome == dec &&
            match deciding ra.2 rb.2 rd.2 with
            | some (ea, isD) => okB (s6.1.mapOne t.party { kind := if isD then .nmcWrite else .nmcRead } ea) fun q =>
              decide (q.2.home = home) && q.1.cmdRoom 0 rd.2.isSome
            | none => true))
        | _ => false)

/-- NearMemoryCommands: a copy that goes to stack 0; a body of 7; a D that is not written; walks all of padding; a D in a
scratchpad. NFENCE with nothing outstanding. -/
theorem test_meets_nmc :
    (∀ s ∈ [bedNear 3 4 0 0x22000 1 4 0, bedNear 7 4 0 0x22000 1 4 0, bedNear 3 4 0 0x22000 0 4 0, bedNear 3 0 1 0x22000 1 0 1,
        bedNear 3 4 0 0xFE000000001000 1 4 0],
      s.Led (.nmc (.v 0) false) (s.reads [.v 0, .v 1]) (leadOf s) ∧ s.Led .nfence (fun _ _ => []) (leadOf s)) ∧
    nearB (bedNear 3 4 0 0x22000 1 4 0) false true true (.stack 0) = true ∧ nearB (bedNear 7 4 0 0x22000 1 4 0) true true true (.stack 0) = true ∧
    nearB (bedNear 3 4 0 0x22000 0 4 0) false false true (.stack 0) = true ∧ nearB (bedNear 3 0 1 0x22000 1 0 1) false true false (.stack 0) = true ∧
    nearB (bedNear 3 4 0 0xFE000000001000 1 4 0) false true true (.core 0) = true ∧
    (∀ y ∈ (bedNear 3 4 0 0x22000 1 4 0).curSlices, (bedNear 3 4 0 0x22000 1 4 0).releaseReady y .pkg = true ∧ y.nmcOut = [] ∧ y.parked = []) := by
  refine ⟨all_of (b := fun s => bedLed s (.nmc (.v 0) false) [.v 0, .v 1] && ledB s .nfence (fun _ _ => [])) (fun s h => ?_) (by decide +kernel),
    by decide +kernel, by decide +kernel, by decide +kernel, by decide +kernel, by decide +kernel, by decide +kernel⟩
  simp only [Bool.and_eq_true] at h
  exact ⟨led_of h.1, led_of h.2⟩

/-- A command that copies 0x21000 to 0x22000 in stack 0. -/
def bedCmd : Cmd :=
  { id := 8, slice := 1, ctx := 5, launch := 4, stack := 0, body := 3, rm := 0, aprA := some (Apr.ofBytes 0 (bedApr 0x21000 0 4 0)), aprB := none,
    aprD := some (Apr.ofBytes 0 (bedApr 0x22000 1 4 0)), c0 := 0, c1 := 0, mbar := 0, gen := none, result := 0x20300, unit := .base 0 }

/-- The command is held by the base die of stack 0, which has the page of context 5 too. -/
def bedCmds (c : Cmd) : State :=
  { bed [] with engines := { cmds := [c] }, caches := { tlb := [{ unit := .base 0, ctx := 5, page := 0, log2 := 30, pte := BitVec.ofNat 64 bedPte }] } }

/-- An ordinary request waits at bank 0 of pseudo-channel 0 of stack 0, whose row a command opened. -/
def bedBank (yields : Nat) : State :=
  { bed [] with
    engines := { banks := [{ stack := 0, pch := 0, bank := 0, row := some 3, owner := some 8, yields := [(8, yields)] }] }
    caches := { bankQueue := [{ stack := 0, addr := homedBase, sectors := (true, false), since := 0 }],
                mscQueue := [{ stack := 0, addr := homedBase, sectors := (true, true), since := 0 }],
                writeThroughs := [{ core := 0, stack := 0, addr := homedBase, data := [1] }] } }

/-- NearMemoryCommands: the steps of a command. -/
theorem test_meets_commands :
    ((bedCmds bedCmd).engines.cmds.find? (fun c => c.unit == .base 0 && !c.queued && c.status.isNone) = some bedCmd ∧ bedCmd.overlaps = false ∧
      ({ bedCmd with aprA := some (Apr.ofBytes 0 (bedApr 0x21FF8 0 4 0)) } : Cmd).overlaps = true) ∧
    (let tested := fun (c : Cmd) => ((bedCmds c).testPages c (c.spans.flatMap spanPages)).2.2;
      (bedCmds bedCmd).isMissing (.cmd 8) = false ∧ tested bedCmd = .passed ∧ tested { bedCmd with stack := 1 } = .foreign) ∧
    (let c : Cmd := { bedCmd with tested := [(0x21, homedBase + 2 ^ 30 + 0x21000)], pages := [0x21] }; ∀ q ∈ c.tested, q.1 ∈ c.pages) ∧
    nextCmd [] [{ bedCmd with queued := true }] = some { bedCmd with queued := true } ∧
    (let c := { bedCmd with queued := true, running := true };
      match (bedCmds c).cmdStep c with
      | (_, _, .ok d) => d.pos == 1 && d.status.isNone
      | _ => false) = true ∧
    (let c := { bedCmd with queued := true, running := true, stack := 1 };
      (match (bedCmds c).cmdStep c with
        | (_, _, .parked) => true
        | _ => false) &&
      (match ({ bedCmds c with caches := { (bedCmds c).caches with
          declined := [{ ask := { who := .cmd 8, unit := .base 1, ctx := 5, va := 0x21000, kind := .nmcRead }, subcode := 2 }] } } : State).cmdStep c with
        | (_, _, .failed) => true
        | _ => false)) = true ∧
    ((bedBank 0).contested 8).map (fun b => assoc 0 b.yields 8) = some 0 ∧ ((bedBank 32).contested 8).map (fun b => assoc 0 b.yields 8) = some 32 ∧
    ((bedBank 0).stackCsr 0).yieldCap = 32 ∧
    (let c := { bedCmd with status := some 0, unit := .base 0 };
      (bedCmds c).isParked (.cmd 8) = false ∧ (bedCmds c).isMissing (.cmd 8) = false ∧ (bedCmds c).declinedOf (.cmd 8) = none ∧
      (match (bedCmds c).partWrite c.party .nmcWrite c.result c.record with
        | (_, .ok _) => true
        | _ => false) = true) := by decide +kernel

/-- A page table of context 5 at 0x40000: three levels of pointers to a leaf of 1 GiB for VA 0. -/
def bedTable (leaf : Nat) : State :=
  let at_ := fun (k : Nat) => homedBase + 2 ^ 30 + 0x40000 + 0x1000 * k
  { bedOf bedX [(0x40000, u64 (at_ 1 + 1)), (0x41000, u64 (at_ 2 + 1)), (0x42000, u64 leaf)] with
    ctxs := [{ id := 5, root := BitVec.ofNat 64 (at_ 0) }],
    caches := { misses := [{ die := 0, ctx := 5, page := 0x20, asks := [{ who := .slice 1, unit := .core 0, ctx := 5, va := 0x20000, kind := .load }] }],
                faults := [{ id := 9, ctx := 5, va := 0, kind := .load, subcode := 2, level := 1, seq := some 3, asks := [] },
                           { id := 11, ctx := 5, va := 0, kind := .load, subcode := 2, level := 1, seq := some 4, host := true, asks := [] }] } }

/-- The machine with one command at the mailbox's head, the mailbox standing at the bottom of stack 0's view. -/
def bedMail (code : Byte) (arg0 : Word) (arg1 : DWord) (s : State) : State :=
  (((s.setWord (controlBlock + 0x48) 4).setWord (controlBlock + 0x4C) 1).writeHome (controlBlock + 0x40) (u64 (homedBase + 0x100000)) .normal).writeHome
    (homedBase + 0x100000) ([code, 0, 0, 0] ++ wordBytes arg0 ++ u64 arg1.toNat) .normal

/-- BaseDieSteps. -/
theorem test_meets_base_die :
    ((bedTable bedPte).caches.misses.find? (·.die == 0)).isSome = true ∧
    (match (bedTable bedPte).walk 0 5 (0x20 * 4096) with
      | (_, .leaf 3 e) => e == BitVec.ofNat 64 bedPte
      | _ => false) = true ∧
    (match (bedTable 0).walk 0 5 (0x20 * 4096) with
      | (_, .fault 2 3) => true
      | _ => false) = true ∧
    (∀ m ∈ (bedTable bedPte).caches.misses, m.asks ≠ [] ∧ ∀ a ∈ m.asks, a.quiet = false ∧
      permFault a.need bedPte (homeOf bedPte (ptePfn bedPte * 4096 + a.va.toNat % 2 ^ leafLog2 3 (pteSpan bedPte))) = none) ∧
    ((bedTable 0).faultOfSeq false 3).isSome = true ∧ ((bedTable 0).faultOfSeq true 4).isSome = true ∧
    (∀ code ∈ [(1 : Byte), 2], let s := bedMail code 4 0 { bedTable 0 with dutyMode := 1 };
      (s.command code.toNat).map (·.arg0) = some 4 ∧ s.duty 0 = true ∧ (s.faultOfSeq true 4).isSome = true) ∧
    ((bedBank 0).caches.writeThroughs.find? (·.stack == 0)).isSome = true ∧ ((bedBank 0).caches.mscQueue.find? (·.stack == 0)).isSome = true ∧
    (let s := { bedBank 0 with baseClk := 1000 };
      ((s.bankChoice (s.bankAt 0 0 0)).map (·.since)) = some 0 ∧ (s.bankAt 0 0 0).seqOpen = true ∧ 0 + 256 ≤ s.baseClk) ∧
    (let s := { (bedBank 0).setBank { stack := 0, pch := 0, bank := 0 } with baseClk := 0 };
      (s.bankChoice (s.bankAt 0 0 0)).isSome = true ∧ (s.bankAt 0 0 0).seqOpen = false) ∧
    (let s := ({ bed [] with baseClk := 1000 } : State).setBank { stack := 0, pch := 0, bank := 0, hold := some 900, recorded := some 3 };
      (s.bankAt 0 0 0).hold = some 900 ∧ 900 ≤ s.baseClk ∧ (s.bankReqs (s.bankAt 0 0 0)).isEmpty = true) := by decide +kernel

/-! The stack array. -/

/-- A route into an input of node 1, or out of it, holding tokens at its far or near end. -/
def bedRoute (src dst out inp : Nat) (links : List (List Tok)) : Route := { src := src, dst := dst, srcOut := out, dstIn := inp, links := links }

def bedTok (k : TokKind) (v : Word) : Tok := { kind := k, exc := false, payload := v }

/-- A running region whose node 1 has an opcode, with a token before each of its inputs. -/
def bedGraph (opc : Nat) (fmt : Nat) (t0 t1 t2 : Tok) : Region :=
  { bedRegion with
    state := .running
    nodes := [{ num := 1, conf := BitVec.ofNat 128 opc, fmtOut := fmt, fmtIn0 := fmt, fmtIn1 := fmt, fmtIn2 := fmt, live := true }, { num := 3, conf := 1, live := true }]
    routes := [bedRoute 2 1 0 0 [[t0]], bedRoute 4 1 0 1 [[t1]], bedRoute 5 1 0 2 [[t2]], bedRoute 1 3 0 0 [[], []], bedRoute 1 3 1 1 [[], []]] }

def bedRun (r : Region) : State := { bed [] with engines := { regions := [r] } }

def firesB (opc : Nat) (f : Node → (Nat → List Tok) → List Firing) (fmt : Nat) (t0 t1 t2 : Tok) : Bool :=
  match (bedRun (bedGraph opc fmt t0 t1 t2)).runningNode 0 2 1 opc with
  | some (r, n) => ((n.sweep (r.queue n.num) ++ f n (r.queue n.num)).findSome? r.fire).isSome
  | none => false

/-- ArrayElements: every element fires, some on EOI before each input, others on DATA. -/
theorem test_meets_elements :
    (∀ c ∈ ([(3, Node.arith), (4, Node.arith), (5, Node.arith), (6, Node.arith), (7, Node.arith), (8, Node.arith), (9, Node.arithUnary),
        (0xA, Node.arithUnary), (0xB, Node.arith), (0xC, Node.arithUnary), (0xD, Node.arithUnary), (0xE, Node.arith), (1, Node.passOn),
        (2, Node.passOn), (0xF, Node.steer), (0x12, Node.filter), (0x10, Node.merge), (0x13, Node.gate), (0x11, Node.carry),
        (0x14, fun n q => n.reduceBy 0 q), (0x15, fun n q => n.reduceBy 1 q), (0x16, fun n q => n.reduceBy 2 q), (0x17, Node.counting),
        (0x18, fun n q => n.reduce q (fun t => n.rstatStep t.val) n.rstatEmit), (0x19, fun n q => n.ringOut q ++ n.ringIn q ++ n.ringStat q),
        (0x1A, Node.isect), (0x1B, Node.cvt), (0x1C, Node.lut)] : List (Nat × (Node → (Nat → List Tok) → List Firing))),
      firesB c.1 c.2 8 (bedTok .eoi 0) (bedTok .eoi 0) (bedTok .eoi 0) = true ∨
      firesB c.1 c.2 8 (bedTok .data 1) (bedTok .data 2) (bedTok .data 1) = true) ∧
    (match (bedRun (bedGraph 3 8 (bedTok .data 1) (bedTok .data 2) (bedTok .data 1))).runningNode 0 2 1 3 with
      | some (r, n) => !n.k && n.coord.isNone && fmtClass n.fmtIn0 == 2 && r.queue 1 0 == [bedTok .data 1] && r.queue 1 1 == [bedTok .data 2]
      | none => false) = true := by decide +kernel

/-- ArrayElements: a token with room behind it, DAWN on its way to a node live or not, and DUSK at a node's only input. -/
theorem test_meets_routes :
    (let r := { bedGraph 1 8 (bedTok .dusk 0) (bedTok .eoi 0) (bedTok .eoi 0) with routes :=
        [{ bedRoute 2 1 0 0 [[bedTok .dusk 0]] with dawn := true }, bedRoute 1 3 0 0 [[bedTok .data 1], []]] };
     ((bedRun r).region? 0 2 = some r ∧ r.live = true ∧ (r.node? 1).isSome = true ∧ ((r.node? 1).map (·.live)) = some true) ∧
     (nth [] ((r.routes[1]?).map (·.links) |>.getD []) 0 = [bedTok .data 1] ∧ (nth [] ((r.routes[1]?).map (·.links) |>.getD []) 1).length < 4) ∧
     ((r.routes[0]?).map (·.dawn)) = some true ∧
     (match r.node? 1 with
      | some n =>
        let ports := (n.inPorts.map (·.1)).filter (r.driven n.num);
        ports == [0] && (r.queue 1 0).head?.any (·.kind == .dusk) && !n.isBridge && !n.isSink &&
        (r.fire { take := ports, out := n.toAll (bedTok .dusk 0), node := n }).isSome
      | none => false) = true) := by decide +kernel

/-- An image without elements, and one whose header is wrong. -/
def bedImage (magic : Nat) : List Byte :=
  u32 magic ++ u16 1 ++ u8 1 ++ zeros 9 ++ u32 64 ++ u32 64 ++ u32 64 ++ u32 64 ++ zeros 32

/-- The bytes of an image at 0x20000, read by the base die of stack 0; SPILL of the context at 0x80000. -/
def bedDie (r saved : List Region) (magic : Nat) : State :=
  { bedOf bedX [(0x20000, bedImage magic), (0x21000, u32 7)] with
    ctxs := [{ id := 5, spillBase := 0x80000, spillSize := 0x10000 }],
    engines := { regions := r, savedRegions := saved },
    caches := { tlb := [{ unit := .base 0, ctx := 5, page := 0, log2 := 30, pte := BitVec.ofNat 64 bedPte }] } }

def loadsB (s : State) (r : Region) : Bool :=
  match s.engRead (r.party loaderNode) { kind := .arrayRead } r.image 64 with
  | (s1, .ok (hdr, false)) =>
    let h := Header.ofBytes r.width hdr
    h.ok && (match s1.loadTables r hdr h with
      | (s2, .ok (.ok (plain, _))) =>
        match s2.readTables r plain with
        | (_, .ok _) => true
        | _ => false
      | _ => false)
  | _ => false

/-- A region with a source, a barrier sink and an invocation; the node of its number 1. -/
def bedEnds (st : RegState) (opc : Nat) (t : Tok) (inv : Invocation) : Region :=
  { bedGraph opc 8 t t t with
    state := st, hangInterval := 64, invs := [inv],
    endpoints := [{ num := 1, apr := some (Apr.ofBytes 0 (bedApr 0x21000 0 4 0)), walkDone := false, duskSeen := opc == 0x1F }] }

def bedInv : Invocation := { num := 0, mbars := [0, 0, 0, 0], gens := [none, none, none, none], excLog := 0, occMap := 0 }

/-- ArrayRegionSteps: loading, arrivals, hanging with and without a map, draining and restoring. -/
theorem test_meets_regions :
    loadsB (bedDie [{ bedRegion with state := .loading }] [] 0x41535842) { bedRegion with state := .loading } = true ∧
    (match (bedDie [{ bedRegion with state := .loading }] [] 1).engRead (bedRegion.party loaderNode) { kind := .arrayRead } bedRegion.image 64 with
      | (_, .ok (hdr, false)) => !(Header.ofBytes 1 hdr).ok
      | _ => false) = true ∧
    (let v := { bedInv with done := [1] };
     let r := bedEnds .running 0x1F (bedTok .eoi 0) v;
     (r.barriers.filter fun n => !v.arrived.contains n.num).map (·.num) = [1] ∧ r.completed v = true ∧ r.live = true) ∧
    (let r := bedEnds .running 0x1E (bedTok .data 0) bedInv;
     let s := { bedDie [r] [] 0 with baseClk := 1000 };
     r.hangInterval ≠ 0 ∧ r.suspended = none ∧ s.regionParked r = false ∧ s.tokensRemain r = true ∧ r.fired + r.hangInterval ≤ s.baseClk ∧
     ({ r with state := .frozen, code := 0x40, item := 0, itemRoute := false, mapDue := some s.baseClk } : Region).mapAddress = 0) ∧
    (let r := bedEnds .running 0x1E (bedTok .data 0) { bedInv with occMap := 0x22000 };
     let s := { bedDie [r] [] 0 with baseClk := 1000 };
     let q : Region := { r with state := .frozen, code := 0x40, item := 0, itemRoute := false, mapDue := some s.baseClk };
     q.mapAddress == 0x22000 &&
     (match (s.setRegion q).engWrite (q.party mapNode) (q.need true) 0x22000 ((s.setRegion q).occMap q) with
      | (_, .ok _) => true
      | _ => false)) = true ∧
    (let r := bedEnds .draining 0x1F (bedTok .data 0) bedInv;
     let s := bedDie [r] [] 0;
     r.sinks.all r.sinkDrained = true ∧ s.declinedOf (r.party saveNode).who = none ∧ s.isParked (r.party saveNode).who = false ∧
     (match s.saveRecord (r.party saveNode) r.record with
      | (_, .ok _) => true
      | _ => false) = true) ∧
    (let r := { bedRegion with state := .empty, slots := [0] };
     let s := bedDie [] [r] 0x41535842;
     s.region? 0 2 = none ∧ s.restoreDue 0 2 = some r ∧
     loadsB (bedDie [{ r with state := .loading }] [] 0x41535842) { r with state := .loading } = true) := by decide +kernel

/-- ArrayRegionSteps: a source that emits, reads, skips or ends, and a sink that writes a DATA. -/
theorem test_meets_endpoints :
    (let r := bedEnds .running 0x1D (bedTok .eoi 0) bedInv;
     let s := bedDie [r] [] 0;
     ((s.runningNode 0 2 1 0x1D).isSome = true ∧ (r.endpoint? 1).isSome = true) ∧
     (match r.endpoint? 1, r.node? 1 with
      | some e, some n => match e.apr with
        | some a => e.pending.isEmpty && decide (e.pos < a.total) && decide (a.elem e.pos = .at_ 0x21000) && decide (a.size ≤ 4) && (a.fmtCode != 5) &&
            (r.emitSrc n e (bedTok .data 7) []).isSome &&
            (match s.reach (r.party 1) (r.need false) 0x21000 with
             | (_, .ok _) => true
             | _ => false)
        | none => false
      | _, _ => false) = true) ∧
    (∀ c ∈ [0x1E, 0x1F],
      let r := bedEnds .running c (bedTok .data 7) bedInv
      let s := bedDie [r] [] 0
      (s.runningNode 0 2 1 c).isSome = true ∧ r.queue 1 0 = [bedTok .data 7] ∧
      (match (r.endpoint? 1).bind (·.apr) with
       | some a => decide (a.nextSlot 0 = some (0, .at_ 0x21000)) && !a.coords &&
         (match s.engMap (r.party 1) (r.need true) 0x21000 4 with
          | (_, .ok _) => true
          | _ => false)
       | none => false) = true) := by decide +kernel

/-- Two ends that name each other: the queue of bedQueue, outbound, and the bridge site it names, node 2 of band 0. -/
def bedEndsMeet (joined : Bool) : State :=
  bedStream 0 0
    [{ bedQueue false [bedTok .data 7] with connected := joined },
     { id := bridgeId 0 0 0 2, peer := queueId 0 0 0, fmt := 1, connected := joined }]

/-- ArrayRegionSteps: connections, transfers, a severed link, and a bridge with a token to take in or to send out. -/
theorem test_meets_channels :
    (∀ joined ∈ [false, true], ((bedEndsMeet joined).channel? (queueId 0 0 0)).map (fun c => (c.peer, c.connected, c.credit)) =
      some (bridgeId 0 0 0 2, joined, 64) ∧ ((bedEndsMeet joined).channel? (bridgeId 0 0 0 2)).map (·.peer) = some (queueId 0 0 0)) ∧
    chanPart (bridgeId 0 0 0 2) = (bedEndsMeet true).partNumber ∧ formatsAgree 1 1 = true ∧
    (((bedEndsMeet true).channel? (queueId 0 0 0)).map fun c => (bedEndsMeet true).peerTakes c) = some true ∧
    (∀ t0 ∈ [[bedTok .data 7], []],
      let r := { bedGraph 0x20 1 (bedTok .data 1) (bedTok .eoi 0) (bedTok .eoi 0) with first := 0 }
      let s := { bed [] with engines := { regions := [r], channels := [{ id := bridgeId 0 0 0 1, peer := queueId 0 0 0, fmt := 1, inTok := t0 }] } }
      (match r.node? 1 with
       | some n => (s.channel? ((s.spot r).bridge n.num)).isSome && n.isBridge && n.live && (r.fire { out := [(0, bedTok .data 7)], node := n }).isSome &&
           (r.fire { take := [0], node := n }).isSome
       | none => false) = true) := by decide +kernel

/-! Tiles, copies and the matrix engine. -/

/-- Tile 0 of the workgroup: 192 units of 256 bytes at the bottom of its scratchpad. -/
def bedTile (st : TileState) : Tile := { id := 9, core := 0, entry := 0, state := st, owner := 0, base := 0, size := 192 }

/-- The formats of BF16 by BF16 into FP32. -/
def bedMatX (ws : List Word) : Slice := { bedSlice ws with fmt := 0x011 }

/-- v0:v1 is 0x20000, where a record of four elements stands, v2 is A, v3 is B; the chain record stands at 0x20400. -/
def bedCopies (A B : Word) (tiles : List Tile) : State :=
  { bedOf (bedMatX [0x20000, 0, A, B, 0x20400, 0])
      [(0x20000, bedApr 0x21000 0 4 0), (0x20080, bedApr 0x22000 1 4 0), (0x20400, u64 0 ++ u32 0x800 ++ zeros 20)] with
    engines := { tiles := tiles } }

def ledAll (s : State) (is_ : List Instr) (ops : List Opnd) : Bool := is_.all fun i => bedLed s i ops

/-- TileCopyAndMatrix: tiles and tokens. -/
theorem test_meets_tiles :
    (∀ c ∈ [((0 : Word), (0x300000 : Word), ([] : List Tile)), (0, 0, [bedTile .ready]), (3, 0, []), (1, 0, [bedTile .ready])],
      let s := bedCopies c.1 c.2.1 c.2.2
      s.Led (.tdef (.v 2) (.v 3) false) (s.reads [.v 2, .v 3]) (leadOf s) ∧
      (∀ i ∈ [Instr.tfree (.v 2) false, .tstat (.v 4) (.v 2) false, .cseal (.v 4) (.v 2) false, .cwait (.v 2) false, .cpoll (.v 4) (.v 2) false],
        s.Led i (s.reads [.v 2]) (leadOf s))) ∧
    (let s := bedCopies 0 (BitVec.ofNat 32 (192 * 2 ^ 14)) [];
      let B := (leadOf s).word s.clock (.v 3);
      field B.toNat 29 3 = 0 ∧ field B.toNat 14 15 = 192 ∧ field B.toNat 0 14 = 0 ∧ 0 < (leadOf s).env.wg.tiles ∧
      256 * (0 + 192) ≤ (leadOf s).env.wg.scrBytes ∧ s.tileOf (leadOf s).env.wg 0 = none) ∧
    (bedCopies 0 0 [bedTile .ready]).tileOf bedWg 0 = some (bedTile .ready) ∧ (bedCopies 0 0 [bedTile .ready]).tileOf bedWg 1 = none ∧
    (∀ s ∈ [bedCopies 0 0 []], (leadOf s).copyRights = false ∧ ((leadOf s).env.wg.token 0).sealed.length < 16 ∧
      ∀ k, k < 8 → ((leadOf s).env.wg.token k).sealed = []) ∧
    (let s := { bedCopies 0 0 [] with wgs := [{ bedWg with producer := 0 }] };
      (leadOf s).copyRights = true ∧ ledAll s [.cseal (.v 4) (.v 2) false, .cwait (.v 2) false, .cpoll (.v 4) (.v 2) false] [.v 2] = true) := by
  refine ⟨all_of (b := fun c => let s := bedCopies c.1 c.2.1 c.2.2;
      bedLed s (.tdef (.v 2) (.v 3) false) [.v 2, .v 3] && ledAll s [.tfree (.v 2) false, .tstat (.v 4) (.v 2) false, .cseal (.v 4) (.v 2) false,
        .cwait (.v 2) false, .cpoll (.v 4) (.v 2) false] [.v 2]) (fun s h => ?_) (by decide +kernel), by decide +kernel, by decide +kernel,
    by decide +kernel, by decide +kernel, by decide +kernel⟩
  simp only [Bool.and_eq_true] at h
  exact ⟨led_of h.1, all_of (fun _ h => led_of h) h.2⟩

/-- How a COPY or a COPYMM of a direction goes. -/
def copyB (s : State) (f : CopyDir) (chained valid : Bool) : Bool :=
  let l := leadOf s
  let t := Tasker.of l.env l.slice
  let rel := s.curSlices.foldl (fun q x => q.releaseAt (q.env x) x f.scope) s
  let B := l.word s.clock (.v 3)
  let i := if chained then Instr.copymm (.v 4) f (.v 0) (.v 3) false else .copy none f (.v 0) (.v 3) false
  ledB s i (s.reads ([.v 0, .v 1, .v 3] ++ if chained then [.v 4, .v 5] else [])) && l.copyRights && descriptorOk f B &&
  s.curSlices.all (fun x => s.releaseReady x f.scope) && decide ((s.engines.copies.filter fun y => y.core == l.env.wg.core && !y.held).length < 128) &&
  okB (if chained then rel.taskRead t .record (l.pair s.clock (.v 4)) 32 else .ok (rel, [])) fun r0 =>
    okB (r0.1.taskRead t .record 0x20000 (if f = .g2g then 256 else 128)) fun r1 =>
      let tile := if f.usesTile then r1.1.tileOf l.env.wg (field B.toNat 3 8) else none
      let a := Apr.ofBytes 0x20000 r1.2
      let b := if f = .g2g then some (Apr.ofBytes (0x20000 + 128) (r1.2.drop 128)) else none
      let ok := copyValid f l.env.wg tile (field B.toNat 12 19) a b
      (ok == valid) && (!f.usesTile || tile.any (r1.1.tileAdmits f)) &&
      (!chained || ((Chain.ofBytes r0.2).zeros && okB (r1.1.commandOk l (Chain.ofBytes r0.2)) fun _ => true)) &&
      okB (r1.1.chargeMbar t.party none (if ok then copyBytes f a b else 0)) fun _ => true

def bedProducer (A B : Word) (tiles : List Tile) : State := { bedCopies A B tiles with wgs := [{ bedWg with producer := 0 }] }

/-- TileCopyAndMatrix: COPY into an empty tile and from memory to memory, one that is not valid, and COPYMM. -/
theorem test_meets_copies :
    copyB (bedProducer 0 0 [bedTile .empty]) .g2t false true = true ∧ copyB (bedProducer 0 0 []) .g2g false true = true ∧
    copyB (bedProducer 0 0 [bedTile .ready]) .t2g false false = true ∧ copyB (bedProducer 0 0 [bedTile .empty]) .g2t true true = true := by
  decide +kernel

/-- A copy in flight of four elements of 0x21000 into tile 0. -/
def bedCopy : Copy :=
  { id := 12, slice := 1, wg := 6, core := 0, ctx := 5, dir := .g2t, token := 0, tile := 9, roff := 0, desc := 0,
    apr := Apr.ofBytes 0 (bedApr 0x21000 0 4 0), apr2 := none, mbar := none, gen := some 0, charge := 16, chain := none, pos := 0, slot := 0,
    rstate := 0, block := [], status := 0, landed := false }

def bedMatOp (k : MatKind) : MatOp := ⟨13, 0, false, k, [1], 6, 0, 9, 0, 49152, 0, 0, 0, 0x011, 0, 0, 49152, []⟩

/-- The copy and an ACCZ in flight, the tile FILLING. -/
def bedEngines : State :=
  { bedCopies 0 0 [] with engines := { tiles := [{ bedTile .filling with fill := 1 }], copies := [bedCopy], matQueue := [bedMatOp .accz] } }

/-- TileCopyAndMatrix: a copy whose fault was declined, with a block open and without. -/
theorem test_meets_failed_copy :
    let one : LaneWord := { val := 0x3F800000 }
    let due : Copy := { bedCopy with dir := .g2g, apr2 := some (Apr.ofBytes 0 (bedApr 0x22000 1 4 0)), pos := 4, block := [one, one, one, one] }
    ∀ c ∈ [bedCopy, { bedCopy with block := [one] }, due],
      let s : State := { bedEngines with
        engines := { bedEngines.engines with copies := [c] }
        caches := { bedEngines.caches with declined := [{ ask := { who := .copy 12, unit := .core 0, ctx := 5, va := if c.pos = 4 then 0x22000 else 0x21000, kind := .copyRead }, subcode := 2 }] } }
      (match s.copyStep c with
        | (s1, .failed) => (s1.engines.copies.find? (·.id == 12)).any fun d => d.block == c.block && d.blockDue == decide (c.pos = 4)
        | _ => false) = true ∧ s.copyStarts c = true := by decide +kernel

/-- TileCopyAndMatrix: a copy whose source address is none parks. -/
theorem test_meets_parked_copy :
    (match bedEngines.copyStep { bedCopy with apr := Apr.ofBytes 0 (bedApr (2 ^ 63) 0 4 0) } with
      | (_, .parked) => true
      | _ => false) = true := by decide +kernel

/-- TileCopyAndMatrix: matrix commands, and the steps of copies and of the engine. -/
theorem test_meets_matrix :
    (let s := bedCopies 0 0x800 [bedTile .ready];
      s.Led (.mma none (.v 2) (.v 3) false) (s.reads [.v 2, .v 3]) (leadOf s) ∧ s.Led (.mmaz none (.v 2) (.v 3) false) (s.reads [.v 2, .v 3]) (leadOf s) ∧
      cmdZ 0x800 = false ∧ s.chainAhead (leadOf s).env.wg (cmdSet 0x800) = false ∧ matrixOk (leadOf s).env.wg (leadOf s).slice.fmt 0x800 0 0 (bedTile .ready) = true ∧ s.matRoom (leadOf s).env.wg.core = true ∧
      s.tileStoreParked = false) ∧
    (let s := bedCopies 0 0 [bedTile .ready];
      (∀ p ∈ [none, some {}], ∀ i ∈ [Instr.accld ⟨p, .v 3⟩, .accst ⟨p, .v 3⟩, .accz ⟨p, .v 3⟩], s.Led i (s.reads [.v 3]) (leadOf s)) ∧
      s.tileOf (leadOf s).env.wg (cmdTile 0) = some (bedTile .ready) ∧ 49152 ≤ (bedTile .ready).bytes ∧ cmdSet 0 < (leadOf s).env.wg.accs.length ∧
      s.chainAhead (leadOf s).env.wg (cmdSet 0) = false) ∧
    (let s := bedEngines;
      (match s.copyStep bedCopy with
        | (_, .ok c) => c.pos == 1
        | _ => false) = true ∧
      s.copyStarts bedCopy = true ∧ (s.handOver { bedCopy with landed := true }).2 = some 0 ∧
      s.matHead 0 = some (bedMatOp .accz) ∧ s.matReady (bedMatOp .accz) = true) := by
  refine ⟨⟨led_of (by decide +kernel), led_of (by decide +kernel), by decide +kernel, by decide +kernel, by decide +kernel, by decide +kernel, by decide +kernel⟩,
    ⟨fun p hp => all_of (fun _ h => led_of h) (by
      simp only [List.mem_cons, List.not_mem_nil, or_false] at hp
      rcases hp with rfl | rfl <;> decide +kernel), by decide +kernel, by decide +kernel, by decide +kernel⟩,
    by decide +kernel, by decide +kernel, by decide +kernel, by decide +kernel, by decide +kernel⟩

/-! Scheduling, waits, spilling and migration. -/

/-- The machine with that slice alone, at a clock. -/
def bedAt (clock : DWord) (x : Slice) : State := { bedOf x [] with clock := clock }

def bedEntry : Recon := { rpc := 0x10020, all := 3, otherPc := 0x10010, otherMask := 2, dFmt := 0x33, oFmt := 0x33, fdepth := 0 }

/-- A slice that has waited since clock 0, an instruction standing at its PC. -/
def bedStuck (st : Status) (i : Instr) : State :=
  { bedOf { bedSlice [] with since := some 0, status := st } [(0x10000, (encode i).getD [])] with clock := 0x100000000 }

/-- SchedulingAndWaits: waits that the watchdog covers and one that it does not, and waits that end. -/
theorem test_meets_waits :
    (∀ c ∈ [(Status.atBar .grp, Instr.bar .grp, true), (.inJoin, .join (.v 0) false, true), (.ready, .cwait (.v 0) false, true), (.ready, .nop, false)],
      let s := bedStuck c.1 c.2.1;
      ((s.slice? 1).map fun x => (x.status, x.since, s.watched x)) = some (c.1, some 0, c.2.2) ∧ (s.env (bedSlice [])).group.halted = false ∧
      (s.env (bedSlice [])).wg.status = .running ∧ 2 ^ 32 ≤ (s.clock - 0).toNat) ∧
    (∀ st ∈ [Status.sleeping 5, .inWaitw, .inJoin],
      ((bedAt 0x10000 { bedSlice [] with since := some 0, limit := 0x10000, status := st }).slice? 1).map (fun x => (x.status, x.limit)) = some (st, 0x10000)) ∧
    (0x10000 : Word).toNat ≤ ((0x10000 : DWord) - 0).toNat := by decide +kernel

/-- SchedulingAndWaits: a turn that is over, a barrier and a round, whole or with its window past. -/
theorem test_meets_rounds :
    (let x := { bedSlice [] with recon := [bedEntry], turn := 64 };
      (bedAt 0 x).rotationDue x = some bedEntry ∧ x.topEntry = some bedEntry ∧ ((bedAt 0 x).ctxOf 5).divRotate.toNat ≤ x.turn ∧ bedEntry.otherMask ≠ 0 ∧
      x.live = true ∧ pcInReach ((bedAt 0 x).env x).launch.pkt.entry x.pc = true) ∧
    (let x := { bedSlice [] with status := .atBar .grp, barSet := [1] };
      ((bedAt 0 x).barLive x.barSet) = [x] ∧ (bedAt 0 x).releaseReady x ((bedAt 0 x).widen x .grp) = true ∧ (Scope.grp ≠ .pod)) ∧
    (let x := { bedSlice [5] with status := .atBar .grp, barSet := [1, 7] };
      let s := { bedTwo with slices := [x, { bedSlice [6] with uid := 7, idx := 1 }] };
      ∃ y ∈ s.barLive x.barSet, y.status ≠ .atBar .grp) ∧
    (let x := { bedSlice [] with status := .atRegang 9 };
      (bedAt 0 x).waitersAt 2 9 = [x] ∧ (∀ y ∈ (bedAt 0 x).groupSlices 2, y.live = true → y.status = .atRegang 9) ∧
      let s : State := { bedAt 0x100 x with groups := [{ uid := 2, wg := 6, idx := 0, pipe := 0, place := 0, born := 0, rounds := [(9, 0, 0x100)] }] };
      s.waitersAt 2 9 = [x] ∧ ((s.group? 2).bind fun g => g.rounds.lookup 9).map (fun r => decide (r.2.toNat ≤ (s.clock - r.1).toNat)) = some true) := by
  decide +kernel

/-- A packet for one workgroup of one slice, with GRID_Z as given. -/
def bedPacket (gridZ : Nat) : List Byte :=
  u64 0x10000 ++ u32 1 ++ u32 1 ++ u32 gridZ ++ [1, 1, 0, 2] ++ zeros 104

/-- Context 5 with queue 0 enabled, its ring at 2^30 of stack 0 holding one packet. -/
def bedReader (gridZ : Nat) : State :=
  ({ bed [] with wgs := [], groups := [], slices := [], launches := [], cur := [] }.writeHome homedBase
    (u64 (homedBase + 2 ^ 30) ++ u16 5 ++ [0, 1] ++ zeros 4 ++ u32 1 ++ u32 0) .normal).writeHome (homedBase + 2 ^ 30) (bedPacket gridZ) .normal

def readerB (s : State) (err : Option Nat) : Bool :=
  let x := s.queueOf 0
  decide (s.readerQueue = some 0) && decide ((x.tail - x.head).toNat ≤ x.size) &&
  (match (s.served 0).readPacket x.ring (x.head.toNat % x.size) with
  | (s1, bs, readable) =>
    let l : Launch := ⟨s1.fresh.1, 0, x.head, x.ctx, Packet.ofBytes bs, Nat.max 1 s1.chunk.toNat, [], [], 0, [], s1.duty 5, false⟩
    decide (s1.fresh.2.packetError 0 l bs readable = err))

/-- A launch of a grid on dies 0 and 1, of a PRIO. -/
def bedGrid (n prio : Nat) (coop : Bool) : Launch :=
  { id := 20, queue := 8 * prio, seq := 0, ctx := 5, chunk := 1,
    pkt := { Packet.blank with entry := 0x10000, gridX := n, gridY := 1, gridZ := 1, slices := 1, groups := 1, demand := 2, prio := prio, partMask := 3, coop := coop } }

def bedLaunches (ls : List Launch) : State := { bed [] with wgs := [], groups := [], slices := [], launches := ls, cur := [] }

/-- SchedulingAndWaits: packets taken and refused, dispatch, theft and the end of a launch. -/
theorem test_meets_launches :
    (bedReader 1).outside.fw.recovery = false ∧ readerB (bedReader 1) none = true ∧ readerB (bedReader 0) (some 3) = true ∧
    (let s := bedLaunches [bedGrid 4 1 false];
      s.resumesFirst 0 = false ∧ s.byPriority = [bedGrid 4 1 false] ∧ s.mayDispatch (bedGrid 4 1 false) = true ∧
      (bedGrid 4 1 false).nextWork 0 = some 0 ∧
      (match s.coreFor (bedGrid 4 1 false) 0 0 with
        | some (c, _) => match s.bringUnits c 5 with
          | .here r => (r.startOn (bedGrid 4 1 false) 0 0 c).isSome && (r.place (bedGrid 4 1 false) 0 c).isSome
          | _ => false
        | none => false) = true) ∧
    (let s := bedLaunches [bedGrid 2 1 true];
      s.mayDispatch (bedGrid 2 1 true) = true ∧ (bedGrid 2 1 true).pkt.dies = [0, 1] ∧
      (∀ d ∈ (bedGrid 2 1 true).pkt.dies, s.comesFirst (bedGrid 2 1 true) d = false) ∧ (s.dispatchAll (bedGrid 2 1 true)).isSome = true) ∧
    (let s := bedLaunches [{ bedGrid 6 1 false with started := [1, 3, 5] }];
      (s.theft 1).map (·.2) = some [4, 2]) ∧
    (let s := bedLaunches [{ bedGrid 2 1 false with started := [0, 1], exited := 2 }];
      (s.launch? 20).map s.launchOver = some true) := by decide +kernel

/-- A workgroup of PRIO 0 fills the core's pipe places; a launch of PRIO 2 waits on die 0. -/
def bedCrowd (since : Option DWord) : State :=
  let w := fun (c : Nat) => { bedWg with uid := 30 + c, core := c, slot := 0, scrBytes := 0x400000, work := c }
  { bedLaunches [{ bedLaunch with pkt := { bedLaunch.pkt with partMask := 1, gridX := 8, gridY := 1, gridZ := 1 }, started := natsFrom 0 8 },
      { bedGrid 1 2 false with pkt := { (bedGrid 1 2 false).pkt with scratch := 4096, partMask := 1 }, waits := since.toList.map fun c => (0, c) }] with
    wgs := (natsFrom 0 8).map w, clock := 0x10000000 }

/-- SchedulingAndWaits: a wait that is noted, and a quantum that has passed. -/
theorem test_meets_time_slice :
    ((((bedCrowd none).waiters 0).map fun x => (x.since, x.cores.any fun c => x.fits c (bedCrowd none))) = [(none, false)]) ∧
    ((((bedCrowd (some 0)).waiters 0).map fun x => (x.since, x.cores.any fun c => x.fits c (bedCrowd (some 0)))) = [(some 0, false)]) ∧
    (bedCrowd (some 0)).quantumPast 0 0 = true ∧ (bedCrowd none).duty 7 = false ∧ (bedCrowd (some 0)).duty 7 = false :=
  ⟨by decide +kernel, by decide +kernel, by decide +kernel, by decide +kernel, by decide +kernel⟩

theorem test_meets_pre_emption :
    (((bedCrowd (some 0)).waiters 0).map fun x => ((bedCrowd (some 0)).preemption x).isSome) = [true] ∧
    (∀ w ∈ (bedCrowd (some 0)).wgs, dieOfCore w.core = 0 → w.status ≠ .stopping) := ⟨by decide +kernel, by decide +kernel⟩

/-- A workgroup that is being saved, its slice gone, beside another of its context; the context spills at 0x80000, and slot 0,
the bitmap's, is taken. -/
def bedStopping : Workgroup := { bedWg with status := .stopping, scrBytes := 0, accs := [], tiles := 0 }

def bedSaving : State :=
  { bedOf (bedSlice []) [(0x80000, [1])] with
    wgs := [bedStopping, { bedWg with uid := 7, slot := 1, work := 1, scrBase := 0x10000, accs := [2], tileFirst := 8 }], slices := [], cur := [],
    ctxs := [{ id := 5, spillBase := 0x80000, spillSize := 0x4000 }] }

/-- The same workgroup, saved and due to come back. -/
def bedSaved : State :=
  match bedSaving.saveAll bedStopping with
  | .ok t => t
  | .error _ => bedSaving

/-- SchedulingAndWaits: nothing stands in the way of the save, which ends well or finds no slot; and none in that of a resume. -/
theorem test_meets_save :
    bedSaving.declinedOf (.save 6) = none ∧ bedSaving.isParked (.save 6) = false ∧ bedSaving.toRecall bedStopping = [] ∧
    bedSaving.parkedCopies bedStopping = [] ∧ bedSaving.allHome bedStopping = true ∧ bedSaving.midnight? 0 = none ∧
    (match { bedSaving with ctxs := [{ id := 5, spillBase := 0x80000, spillSize := 0x800 }] }.saveAll bedStopping with
      | .error .full => true
      | _ => false) = true := by decide +kernel

theorem test_meets_saved : okB (bedSaving.saveAll bedStopping) (fun _ => true) = true := by decide +kernel

theorem test_meets_resume :
    (match bedSaved.wg? 6 with
      | some w =>
        bedSaved.resumeDue w && ((bedSaved.backTogether w).all fun v => !bedSaved.isParked (.save v.uid)) &&
        (let q := (bedSaved.backTogether w).foldl (fun (q : State) (v : Workgroup) => q.clearDeclined (.save v.uid)) bedSaved;
         match q.bringAll (q.launchCtx w.launch) (((bedSaved.backTogether w).map (·.core)).eraseDups) with
         | .here r => okB (r.restoreEach (bedSaved.backTogether w)) fun _ => true
         | _ => false)
      | none => false) = true := by decide +kernel

/-! Spilling and migration. -/

/-- A slice that waits for granules for a CALL, its frame in a column. -/
def bedBlocked (need demand : Nat) : Slice :=
  { bedSlice [] with status := .frameBlocked need .retry, frames := [{ bedFrame [] with demand := demand }] }

/-- Context 5 spills at 0x80000, slot 0 taken. -/
def bedSpill (clock : DWord) (xs : List Slice) (ms : List Midnight) : State :=
  { bedOf (bedSlice []) [(0x80000, [1])] with
    clock := clock, slices := xs, cur := [], ctxs := [{ id := 5, spillBase := 0x80000, spillSize := 0x8000 }], engines := { midnight := ms } }

/-- Another slice of the column, with an inner frame over an outer one. -/
def bedDeep : Slice :=
  { bedSlice [] with uid := 8, idx := 0, gang := 4,
                     frames := [{ base := 2, demand := 1, regs := List.replicate 8 (.u 0) }, { bedFrame [] with base := 40, demand := 200, regs := [] }] }

/-- FrameAndMigrationSteps: a claim, and Midnight's moves. -/
theorem test_meets_midnight :
    (let s := bedSpill 0 [bedBlocked 12 2] [];
      s.declinedOf (.slice 1) = none ∧ (s.env (bedBlocked 12 2)).group.halted = false ∧ (s.env (bedBlocked 12 2)).wg.status = .running ∧
      s.isParked (.slice 1) = false ∧ s.isMissing (.slice 1) = false ∧ s.heldBusy (bedBlocked 12 2) = false ∧
      (s.ownRun (bedBlocked 12 2) 12).isSome = true) ∧
    (let s := bedSpill 0 [bedBlocked 12 250] []; s.midnight? 0 = none ∧ (s.requester 0).map (·.uid) = some 1) ∧
    (let s := bedSpill 0 [bedSlice []] [{ core := 0, state := .wait, target := 1 }]; (s.midnight? 0).map (·.state) = some .wait ∧ s.requester 0 = none) ∧
    (let s := bedSpill 0x10000 [bedBlocked 12 250] [{ core := 0, state := .wait, target := 1 }];
      (s.ctxOf 5).frameWait.toNat ≤ (s.clock - (bedBlocked 12 250).blockedSince).toNat) ∧
    (let s := bedSpill 0 [bedBlocked 12 40, bedDeep] [{ core := 0, state := .frames, target := 1 }];
     let c := s.columnOf (bedBlocked 12 40);
      s.declinedOf (.midnight 0) = none ∧ s.isParked (.midnight 0) = false ∧ s.freeRun c 12 0 (256 - s.guestGranules 5) = none ∧
      ((s.victimSlices c).findSome? fun x => x.spillable.head?.map fun k => (x.uid, k)) = some (8, 1) ∧
      (s.nextFrame { core := 0, state := .frames, target := 1, busy := some (8, 0) } c).map (fun q => (q.1.uid, q.2)) = some (8, 1)) ∧
    (let s := bedSpill 0 [bedBlocked 12 250] [{ core := 0, state := .frames, target := 1 }];
      ∀ x ∈ s.victimSlices (s.columnOf (bedBlocked 12 250)), x.spillable = []) := by decide +kernel

/-- FrameAndMigrationSteps: a frame written, a slice written whole, and one that comes back. -/
theorem test_meets_spill :
    (let s := bedSpill 0 [bedBlocked 12 40, bedDeep] [{ core := 0, state := .slices, target := 1 }];
     let p : Party := { who := .midnight 0, unit := .core 0, ctx := 5, alias_ := some 0 };
      (match s.spillFrame p bedDeep 1 with
        | (_, .ok y) => y.frames.map (·.slot.isSome) == [false, true]
        | _ => false) = true ∧
      (s.wholeVictims (s.columnOf (bedBlocked 12 40)) 1).map (·.uid) = [8]) := by decide +kernel

theorem test_meets_whole_spill :
    (let s := bedSpill 0 [bedBlocked 12 40, bedDeep] [{ core := 0, state := .slices, target := 1 }];
     let p : Party := { who := .midnight 0, unit := .core 0, ctx := 5, alias_ := some 0 };
      match s.spillWhole p bedDeep with
      | (_, .ok y) => y.status == .spilled
      | _ => false) = true := by decide +kernel

/-- A slice spilled whole, its record in slot 2 and its top frame in slot 1. -/
def bedOut : Slice := { bedSlice [] with status := .spilled, spill := some (2, 0), frames := [{ bedFrame [] with slot := some 1, regs := [] }] }

/-- The spill area with that record, which names its top frame's slot at 0xC. -/
def bedOutside : State :=
  { bedSpill 0 [bedOut] [] with mem := ((bedSpill 0 [bedOut] []).mem.setBytes (memKey (bedTr (0x80000 + 2 * 2048)).pa) (zeros 12 ++ u32 1)) }

theorem test_meets_reload :
    (let s := bedOutside;
      s.declinedOf (.slice 1) = none ∧ s.isParked (.slice 1) = false ∧ s.nextReload bedOut = true ∧
      (∀ z ∈ s.blockedOn 0, s.columnOf z ≠ s.columnOf bedOut) ∧ (s.ownRun bedOut 2).isSome = true ∧
      (match s.reloadSlice ((s.env bedOut).party 1) bedOut 2 32 with
        | (_, .ok _) => true
        | _ => false) = true) := by decide +kernel

/-- A slice of core 0 that asks to move to core 4, where a workgroup of its context has a status. -/
def bedMoving (ph : MigPhase) (code : Option (Instr × Nat)) : Slice := { bedSlice [] with status := .migrating, mig := some { phase := ph, dest := 4, code := code } }

def bedMove (x : Slice) (dest : List WgStatus) : State :=
  { bedOf x [] with wgs := [bedWg] ++ dest.map fun st => { bedWg with uid := 40, core := 4, work := 1, status := st }, cur := [] }

/-- FrameAndMigrationSteps: what a request meets, and the phases after it. -/
theorem test_meets_moves :
    (let x := bedMoving .requested none;
      (∃ w ∈ (bedMove x [.stopping]).wgs, w.core = 4 ∧ w.status = .stopping) ∧ (bedMove x []).runsCtx 4 5 = false ∧
      (bedMove x [.running]).runsCtx 4 5 = true ∧ (bedMove x [.running]).duty 2 = false ∧
      (∀ w ∈ (bedMove x [.running]).wgs, w.core = 4 → w.status ≠ .stopping) ∧
      ((bedMove x [.running]).guestPlace 4 5 x.top.demand).isSome = true ∧
      ((bedMove x [.running]).guestPlace 4 5 250) = none) ∧
    (let x := bedMoving (.departing 0 240) none; (bedMove x [.running]).declinedParked x = none ∧ x.parked = [] ∧
      (bedMove x [.running]).accessesDone x = true) ∧
    (∀ evicted ∈ [false, true],
      let x := { bedMoving (.flying 0 240) none with mig := some { phase := .flying 0 240, dest := 4, code := none, evicted := evicted } };
      (x.mig.map fun m => (m.phase, m.evicted)) = some (.flying 0 240, evicted) ∧ ((bedMove x [.running]).env x).group.halted = false) ∧
    (∀ packet ∈ [[], zeros 32],
      let x := { bedMoving (.returning 1) none with
        mig := some { phase := .returning 1, dest := 0, code := none, packet := packet },
        guest := some { host := 4, slot := 0, hops := 1, held := bedFrame [], lower := [], entries := [] } };
      (x.guest.map (·.held.slot)) = some none ∧ (bedMove x []).onlyDeclined x = true ∧ (bedMove x []).accessesDone x = true ∧ x.status = .migrating ∧
      (bedMove x []).heldBusy x = false) := by decide +kernel

/-! The host and the peers. -/

def bedEvent (cls : Nat) : Event := { source := 0x10, cls := cls, code := 1, ctx := none, core := none, payload := 7, detail := 8 }

/-- HostAndPeerSteps: an event that no host takes, and one that a ring has room for. -/
theorem test_meets_events_out :
    (let s := (bed []).onOutside fun o => { o with events := [bedEvent 3] };
      s.outside.events.find? (·.source == 0x10) = some (bedEvent 3) ∧ s.ringFor (bedEvent 3) none = none ∧ s.duty 6 = false ∧ s.duty 0 = false ∧
      s.duty 1 = false ∧ s.duty 3 = false) ∧
    (let s := { (bed []).onOutside fun o => { o with events := [bedEvent 3] } with dutyMode := 0x40 };
      s.ringFor (bedEvent 3) none = some 0 ∧ ((s.ring 0).producer - (s.ring 0).consumer).toNat < (s.ring 0).size) := by decide +kernel

/-- HostAndPeerSteps: key 0 names window 0, whose rights allow everything; no window has key 5. -/
theorem test_meets_host_requests :
    (∀ r ∈ [0, 1, 2], ((bed []).windowFor 0 0x100 8 r).map (fun w => (w.index, w.base)) = some (0, BitVec.ofNat 64 homedBase) ∧
      (bed []).windowFor 5 0x100 8 r = none ∧ (bed []).windowFor 0 0x100000 8 r = none) ∧
    (match ((bed []).windowFor 0 0x100 8 1).map fun x => (bed []).mapWindow x { kind := .window, wr := true } (x.base + 0x100) 8 with
      | some (s1, .ok ms) => (s1.readPieces none 0 ms).2.2.all (!·)
      | _ => false) = true ∧
    ((bed []).windowFor 0 0x100 8 2).isSome = true ∧ (BitVec.ofNat 64 homedBase + 0x100).toNat % 8 = 0 ∧
    ((bed []).homeRmw (homedBase + 0x100) 8 .normal (· + 1)).2.2 = false := by decide +kernel

/-- A frame from part 1. -/
def bedDatagram (kind : Byte) (seq : Word) (body : List Byte) : List Byte :=
  [0x5A, 0x4E, 1, kind, 1, 0] ++ u16 body.length ++ wordBytes seq ++ u32 0 ++ body

def bedPeers : State :=
  (bed []).onOutside fun o => { o with remotes := [{ id := 3, part := 1, slice := 1, instr := .ld none .w32 (.v 4) (.v 0) 0, lane := 0, addr := 0x20000, reply := none }] }

/-- HostAndPeerSteps: frames of each kind in order, one out of order, one that is none, and what they carry. -/
theorem test_meets_frames :
    (∀ c ∈ [((0 : Byte), zeros 12), (1, zeros 48), (2, u32 3 ++ zeros 20), (3, u32 9), (4, [])],
      (bedPeers.parseFrame (bedDatagram c.1 0 c.2)).map (fun f => (f.kind, f.src, f.seq)) = some (c.1.toNat, 1, 0)) ∧
    (bedPeers.pairOf 1).lost = false ∧ (bedPeers.pairOf 1).expect = 0 ∧
    (bedPeers.parseFrame (bedDatagram 3 5 (u32 9))).map (·.seq) = some 5 ∧ bedPeers.parseFrame [1, 2, 3] = none ∧
    (bedPeers.answerRequest (Request.ofBytes (zeros 48))).isSome = true ∧
    ((bedPeers.outside.remotes.find? fun r => r.id == (le32 (u32 3 ++ zeros 20) 0).toNat && r.part == 1).map (·.id)) = some 3 ∧
    (∀ n ∈ [3, 32], let s := { bedPeers.setPair { part := 1, unacked := [(0, [1], 0, n)] } with baseClk := 32000 };
      (s.pairOf 1).lost = false ∧ (s.pairOf 1).unacked = [(0, [1], 0, n)] ∧ 0 + 32000 ≤ s.baseClk) := by decide +kernel

/-- A halted group that the device serves, or the host. -/
def bedHalted (host : Bool) : State :=
  { bed [] with groups := [{ uid := 2, wg := 6, idx := 0, pipe := 0, place := 0, born := 0, halted := true, haltSeq := some 4, haltHost := host }],
                dutyMode := if host then 0x40 else 0 }

/-- A descriptor of a context 7: its root, its spill area and zeros. -/
def bedDescriptor : List Byte := u64 (homedBase + 2 ^ 30 + 0x40000) ++ u64 0x80000 ++ u32 0x10000 ++ zeros 44

def bedSetup : State :=
  ({ bed [] with caches := { tlb := [{ unit := .die 0, ctx := 7, page := 0, log2 := 30, pte := BitVec.ofNat 64 bedPte }] } } : State).writeHome
    (homedBase + 0x200000) bedDescriptor .normal

/-- CommandsResetAndPower: a command at the head for each code, and what it finds. -/
theorem test_meets_commands_at_the_head :
    (∀ code ∈ [(3 : Byte), 4, 5, 6, 7, 8, 9, 10, 11, 12, 13], ((bedMail code 4 0 (bed [])).command code.toNat).isSome = true) ∧
    ((bedMail 3 4 0 (bedHalted true)).haltedBy true 4).isSome = true ∧ (bedMail 3 4 0 (bedHalted true)).duty 6 = true ∧
    ((bedHalted false).haltedBy false 4).isSome = true ∧
    ((bed []).launches.find? fun l => l.queue == 0 && l.seq.toNat == 0).isSome = true ∧
    ((bed []).wgs.find? fun w => w.core == 0 && w.work == 0 && w.status == .running).isSome = true ∧
    (let s := { bed [] with dutyMode := 0x8A };
      s.duty 7 = true ∧ s.duty 1 = true ∧ s.duty 3 = true ∧ ((s.ctx? 5).map (·.spillSize)) = some 0) ∧
    regionWord 0x20 = some (0, 2, 1) ∧
    (let c : Command := { entry := 0, code := 7, arg0 := 0, arg1 := 0x20 };
      ((bedArr 0 0 [bedRegion] []).namedRegion c (bedArr 0 0 [bedRegion] []).engines.regions).isSome = true) ∧
    (bed []).teardownRefused 5 = true ∧ (bedLaunches []).teardownRefused 5 = false := by decide +kernel

/-- CommandsResetAndPower: a context set up, and the clocks of the power steps. Whether an image is accepted is for no test to
say: its signature is checked by functions without a body. -/
theorem test_meets_setup :
    (let c : Command := { entry := 0, code := 10, arg0 := 7, arg1 := BitVec.ofNat 64 (homedBase + 0x200000) };
     match bedSetup.newContext c with
     | some x =>
       let q := { bedSetup with ctxs := bedSetup.ctxs ++ [x] }
       (bedSetup.declinedOf .host).isNone && !bedSetup.isParked .host && decide (x.id = 7) &&
       (match q.partWrite (hostParty x.id) .spill x.spillBase x.bitmap with
        | (_, .ok _) => true
        | _ => false)
     | none => false) = true := by decide +kernel

theorem test_meets_power :
    1600 ≤ State.reset.dieMHz ∧ ({ State.reset with dieMHz := 2900 } : State).dieMHz < 3000 ∧
    (let s := { State.reset with baseClk := 2000000000 }; s.outside.reported + 2000000000 ≤ s.baseClk) ∧
    (0x80000 : Nat) < (0x80001 : Word).toNat := by decide +kernel

/-! Single steps: the worked examples of the spec. -/

/-- The lanes of a vector register of a slice after a step. -/
def lanesAfter (o : Host.Outcome State Fault Refusal) (u r : Nat) : List Word :=
  match o with
  | .next t => match t.slice? u with
    | some x => (natsFrom 0 4).map ((nth (.u 0) x.top.regs r).val)
    | none => []
  | _ => []

/-- A check on the slice after a step. -/
def sliceAfter (o : Host.Outcome State Fault Refusal) (u : Nat) (p : Slice → Bool) : Bool :=
  match o with
  | .next t => (t.slice? u).any p
  | _ => false

/-- R251: 4, 0, −256 and 128 saturate to 4, 0, −128 and 127. -/
theorem test_iadd_saturates :
    lanesAfter (exec (.iadd (some { rm := 1 }) .i8x4 (.v 5) (.v 6) (.v 7) false) (bed [0, 0, 0, 0, 0, 0, 0x7F800102, 0x0180FF02])) 1 5 =
      List.replicate 4 0x7F800004 := by decide +kernel

/-- R258. -/
theorem test_perm :
    lanesAfter (exec (.perm (some { c := some (.v 9) }) (.v 4) (.v 1) (.v 2) false) (bed [0, 0x44332211, 0x0C47, 0, 0, 0, 0, 0, 0, 0x88776655])) 1 4 =
      List.replicate 4 0x11005588 := by decide +kernel

/-- R266: 1 + 2^−8 is rounded to even into the upper half, the lower half stays. -/
theorem test_cvtf_half :
    lanesAfter (exec (.cvtf none .f32 .bf16 0x11 (.v 3) (.v 8) false) (bed [0, 0, 0, 0x4049, 0, 0, 0, 0, 0x3F808000])) 1 3 =
      List.replicate 4 0x3F804049 := by decide +kernel

/-- R278: m3 keeps bit 3, lane 3 being inactive. -/
theorem test_mand :
    sliceAfter (exec (.mand 3 1 2) (bedOf { bedSlice [] with masks := [0x7, 0xD, 0xB, 0x8, 0, 0, 0, 0] } [])) 1 (fun x => x.mask 3 == 0x9) = true := by
  decide +kernel

/-- Two ganged slices with values in v0, lane 5 inactive. -/
def bedGang (vs : List Word) : State :=
  let lanes := fun k => Reg.general ⟨{ val := nth 0 vs k }, { val := nth 0 vs (k + 1) }, { val := nth 0 vs (k + 2) }, { val := nth 0 vs (k + 3) }⟩
  let x := fun (u k : Nat) (m : BitVec 4) => { bedSlice [] with
    uid := u, idx := k, masks := [m, 0, 0, 0, 0, 0, 0, 0], frames := [{ bedFrame [] with regs := lanes (4 * k) :: List.replicate 15 (.u 1) }] }
  { bed [] with cur := [1, 7], slices := [x 1 0 0xF, x 7 1 0xD] }

/-- R273: SHFL.down by 1; lane 5 is no participant and lane 8 is absent. -/
theorem test_shfl_down :
    let o := exec (.shfl none .down (.v 4) (.v 0) (.v 1) false) (bedGang [10, 11, 12, 13, 14, 15, 16, 17])
    lanesAfter o 1 4 = [11, 12, 13, 14] ∧ lanesAfter o 7 4 = [14, 1, 17, 17] := by decide +kernel

/-- R275: the tree of GRED.add.f32 gives 6.0 to every participant. -/
theorem test_gred_add :
    let o := exec (.gred none .addF32 (.v 4) (.v 0) false)
      (bedGang [0x3F800000, 0x4B800000, 0x3F800000, 0xCB800000, 0x40400000, 0x41100000, 0x3F800000, 0x3F800000])
    lanesAfter o 1 4 = List.replicate 4 0x40C00000 ∧ lanesAfter o 7 4 = [0x40C00000, 1, 0x40C00000, 0x40C00000] := by decide +kernel

/-- R287: three lanes compare and swap a word that holds 5; each comparison follows the update of the lane before. -/
theorem test_cas_in_lane_order :
    let g := fun (a b c : Word) => Reg.general ⟨{ val := a }, { val := b }, { val := c }, {}⟩
    let rs := [Reg.u 0x20000, .u 0, g 7 9 1, g 5 5 7] ++ List.replicate 12 (.u 0)
    let x := { bedX with masks := [7, 0, 0, 0, 0, 0, 0, 0], frames := [{ bedFrame [] with regs := rs }] }
    let s := { bedOf x [(0x20000, [5, 0, 0, 0])] with slices := [x] }
    let o := exec (.atomb (some { c := some (.v 3) }) .cas (.v 4) (.v 0) (.v 2) false) s
    (match o with
      | .next t => decide (le32 (t.peek (bedTr 0x20000).pa 4) 0 = 1)
      | _ => false) = true ∧
    lanesAfter o 1 4 = [5, 7, 7, 0] := by decide +kernel

/-- R315: UNWIND v0, 1 from an inner frame goes on after its CALL with the lowest lane's v0 in o14. -/
theorem test_unwind :
    sliceAfter (exec (.unwind (.v 0) 1) (bedOf bedInner [])) 1 (fun x => x.pc == 0x10008 && x.frames.length == 1 &&
      (maskLanes x.m0).map ((nth (L4.ofFn fun _ => {}) x.sof 14).get · |>.val) == [1, 1, 1, 1]) = true := by decide +kernel

/-- R399: TRAP 7 enters the handler with ECAUSE in v0, EPC past the TRAP in v2:v3 and a frame of two granules. -/
theorem test_trap_entry :
    sliceAfter (exec (.trap (.lit 7)) (bed [9])) 1 (fun x => x.pc == 0x30000 && x.frames.length == 2 && x.top.demand == 2 &&
      (nth (.u 0) x.top.regs 0).val 0 == x.ecause && (nth (.u 0) x.top.regs 2).val 0 == lo32 x.epc && x.masks == (bedSlice []).masks) = true := by
  decide +kernel

/-- R353, R401: BRK 3 halts its group, stops the slice after the BRK with the code in ECAUSE, and posts one event. -/
theorem test_brk :
    (match exec (.brk (.lit 3)) (bed [9]) with
      | .next t => (t.groups.map (·.halted)) == [true] && (t.outside.events.map fun e => (e.cls, e.code, e.ctx)) == [(2, 2, some 5)] &&
          (t.slice? 1).any fun x => x.stopped && x.pc == (bedSlice []).after (.brk (.lit 3)) && x.ecause == 0x3000D
      | _ => false) = true := by decide +kernel

/-- FIPS 180-4: the digest of "abc" begins DD AF 35 A1 93 61 7A BA. -/
theorem test_sha512 : (digestBytes (sha512 [0x61, 0x62, 0x63])).take 8 = [0xDD, 0xAF, 0x35, 0xA1, 0x93, 0x61, 0x7A, 0xBA] := by decide +kernel

/-- R345: SQPOP gives DATA 7, DATA 9 with EXC and EOR in lane order; lane 3 gets none. -/
theorem test_sqpop :
    let ts : List Tok := [bedTok .data 7, { bedTok .data 9 with exc := true }, bedTok .eor 0]
    let o := exec (.sqpop (.v 4) (.v 0)) (bedStream 0 0 [bedQueue true ts])
    lanesAfter o 1 4 = [7, 9, 0, 0] ∧
    sliceAfter o 1 (fun x => (natsFrom 0 4).map ((nth (L4.ofFn fun _ => {}) x.sof 15).get · |>.val) == [0x10, 0x18, 0x12, 0]) = true := by
  decide +kernel


/-- MaskOperations, ComparesWriteMasks and WordOperations: MAND and ICMP.lt of the worked encodings with D = 0 (R278, R255), a
prefix before them, and a legal DIV. -/
theorem test_meets_illegal_masks :
    let bad : Word → Nat → Bool := fun w maj =>
      w.getLsbD 0 && !isPrefix w && (Fields.ofWord w).d == 0 && (Fields.ofWord w).maj == BitVec.ofNat 6 maj
    bad 0x04040147 0x23 = true ∧ bad 0x0404000F 0x07 = true ∧
    (0x7F : Word).getLsbD 0 = true ∧ isPrefix 0x7F = true ∧ (Instr.div none false (.v 1) (.v 2) (.v 3) false).wf = true := by
  decide +kernel
end Sys2Proof.Machine
end

section
/-! PROOFS. Addresses and homes: every step keeps both memories canonical, EVPOST and TLBINV, the steps of the base die. -/

-- The stack of every thread counts against the check's memory limit: these proofs are elaborated one after another.
set_option Elab.async false

namespace Sys2Proof.Machine

/-! ### Steps that answer a value -/

theorem except_bind_eq_ok {ε α β : Type} {x : Except ε α} {f : α → Except ε β} {b : β} :
    (x >>= f) = .ok b ↔ ∃ a, x = .ok a ∧ f a = .ok b := by
  cases x <;> simp [bind, Except.bind]

theorem except_pure_eq_ok {ε α : Type} {a b : α} : (pure a : Except ε α) = .ok b ↔ a = b :=
  Except.ok.injEq a b ▸ Iff.rfl

/-- A check that throws is behind what answers. -/
theorem except_unless {ε α β : Type} {c : Prop} [Decidable c] {x : ε} {f : α → Except ε β}
    {y : Except ε β} {b : β} (e : (if c then (throw x >>= f) else y) = .ok b) : y = .ok b := by
  split at e
  · cases e
  · exact e

/-- Two ways to a value with which a monadic step goes on. -/
theorem except_ite_bind {ε α β : Type} {c : Prop} [Decidable c] {x y : Except ε α} {f : α → Except ε β} {b : β}
    (e : (if c then x >>= f else y >>= f) = .ok b) : ∃ a, (x = .ok a ∨ y = .ok a) ∧ f a = .ok b := by
  split at e
  · exact (except_bind_eq_ok.1 e).imp fun _ h => ⟨.inl h.1, h.2⟩
  · exact (except_bind_eq_ok.1 e).imp fun _ h => ⟨.inr h.1, h.2⟩

/-! ### What a move performs -/

/-- What `exec` gives for an instruction or a machine step. -/
def State.Execs (s : State) (r : Res) : Prop := ∃ i, exec i s = r

section
variable {s : State}

theorem State.nodeSteps_execs {st fi n : Nat} : ∀ r ∈ s.nodeSteps st fi n, s.Execs r := by
  simp only [State.nodeSteps, List.forall_mem_append, List.forall_mem_map, List.forall_mem_cons, List.not_mem_nil,
    false_implies, implies_true, and_true]
  exact ⟨⟨⟨.pass st fi n, rfl⟩, ⟨.fork2 st fi n, rfl⟩, ⟨.add st fi n, rfl⟩, ⟨.sub st fi n, rfl⟩, ⟨.mul st fi n, rfl⟩,
    ⟨.fma st fi n, rfl⟩, ⟨.max st fi n, rfl⟩, ⟨.min st fi n, rfl⟩, ⟨.abs st fi n, rfl⟩, ⟨.neg st fi n, rfl⟩,
    ⟨.scale st fi n, rfl⟩, ⟨.exp2 st fi n, rfl⟩, ⟨.rcp st fi n, rfl⟩, ⟨.cmp st fi n, rfl⟩, ⟨.steer st fi n, rfl⟩,
    ⟨.merge st fi n, rfl⟩, ⟨.carry st fi n, rfl⟩, ⟨.filter st fi n, rfl⟩, ⟨.gate st fi n, rfl⟩, ⟨.redadd st fi n, rfl⟩,
    ⟨.redmax st fi n, rfl⟩, ⟨.redmin st fi n, rfl⟩, ⟨.count st fi n, rfl⟩, ⟨.rstat st fi n, rfl⟩, ⟨.rbuf st fi n, rfl⟩,
    ⟨.isect st fi n, rfl⟩, ⟨.cvt st fi n, rfl⟩, ⟨.lut st fi n, rfl⟩, ⟨.src st fi n, rfl⟩, ⟨.snk st fi n, rfl⟩,
    ⟨.snkbar st fi n, rfl⟩, ⟨.duskForward st fi n, rfl⟩⟩, ⟨.bridge st fi n true, rfl⟩, ⟨.bridge st fi n false, rfl⟩⟩

theorem State.regionSteps_execs {g : Region} : ∀ r ∈ s.regionSteps g, s.Execs r := by
  simp only [State.regionSteps, List.forall_mem_append, List.forall_mem_cons, List.forall_mem_flatMap, List.forall_mem_map,
    List.not_mem_nil, false_implies, implies_true, and_true]
  exact ⟨⟨⟨⟨.imageLoad _ _, rfl⟩, ⟨.snkbarArrival _ _, rfl⟩, ⟨.hang _ _, rfl⟩, ⟨.drainComplete _ _, rfl⟩⟩,
    fun _ _ => State.nodeSteps_execs⟩, fun _ _ => ⟨⟨.dawnArrival _ _ _, rfl⟩, fun _ _ => ⟨.routeHop _ _ _ _, rfl⟩⟩⟩

theorem State.bankSteps_execs {b : Bank} : ∀ r ∈ s.bankSteps b, s.Execs r := by
  simp only [State.bankSteps, List.forall_mem_cons, List.not_mem_nil, false_implies, implies_true, and_true]
  exact ⟨⟨.refresh _ _ _, rfl⟩, ⟨.activationAlert _ _ _, rfl⟩, ⟨.rfmHoldEnd _ _ _, rfl⟩⟩

theorem State.cmdSteps_execs {c : Cmd} : ∀ r ∈ s.cmdSteps c, s.Execs r := by
  simp only [State.cmdSteps, List.forall_mem_cons, List.not_mem_nil, false_implies, implies_true, and_true]
  exact ⟨⟨.sequencerElement _, rfl⟩, ⟨.sequencerYield _, rfl⟩, ⟨.yieldCap _, rfl⟩, ⟨.nmcComplete _, rfl⟩⟩

theorem State.sliceSteps_execs {x : Slice} : ∀ r ∈ s.sliceSteps x, s.Execs r := by
  simp only [State.sliceSteps, List.forall_mem_append, List.forall_mem_map, List.forall_mem_cons, List.not_mem_nil,
    false_implies, implies_true, and_true]
  refine ⟨⟨⟨.barRelease _, rfl⟩, ⟨.pathRotation _, rfl⟩, ⟨.watchdog _, rfl⟩, ⟨.sleepEnd _, rfl⟩, ⟨.waitwPoll _, rfl⟩,
    ⟨.waitwTimeout _, rfl⟩, ⟨.joinRecheck _, rfl⟩, ⟨.frameClaim _, rfl⟩, ⟨.sliceReload _, rfl⟩, ⟨.migrationRequest _, rfl⟩,
    ⟨.migrationGrant _, rfl⟩, ⟨.continuationSend _, rfl⟩, ⟨.continuationArrival _, rfl⟩, ⟨.returnArrival _, rfl⟩⟩, ?_⟩
  split
  · exact List.forall_mem_singleton.2 ⟨.regangRelease _ _, rfl⟩
  · exact fun _ h => absurd h List.not_mem_nil

theorem State.dieSteps_execs {d : Nat} : ∀ r ∈ s.dieSteps d, s.Execs r := by
  simp only [State.dieSteps, List.forall_mem_cons, List.not_mem_nil, false_implies, implies_true, and_true]
  exact ⟨⟨.pageWalk _, rfl⟩, ⟨.dieCacheAccess _, rfl⟩, ⟨.workgroupDispatch _, rfl⟩, ⟨.chunkSteal _, rfl⟩, ⟨.timeSlice _, rfl⟩,
    ⟨.mscAccess _, rfl⟩, ⟨.nmcAccept _, rfl⟩, ⟨.sequencerStart _, rfl⟩⟩

theorem State.coreSteps_execs {c : Nat} : ∀ r ∈ s.coreSteps c, s.Execs r := by
  simp only [State.coreSteps, List.forall_mem_cons, List.not_mem_nil, false_implies, implies_true, and_true]
  exact ⟨⟨.mmaComplete _, rfl⟩, ⟨.midnightTrigger _, rfl⟩, ⟨.midnightSpill _, rfl⟩⟩

theorem State.firmwareSteps_execs : ∀ r ∈ s.firmwareSteps, s.Execs r := by
  simp only [State.firmwareSteps, List.forall_mem_cons, List.not_mem_nil, false_implies, implies_true, and_true]
  exact ⟨⟨.faultReplay none, rfl⟩, ⟨.faultDecline none, rfl⟩, ⟨.groupResume none, rfl⟩, ⟨.terminate none, rfl⟩, ⟨.preempt, rfl⟩,
    ⟨.spillGrow, rfl⟩, ⟨.regionEnd, rfl⟩, ⟨.regionSave, rfl⟩, ⟨.attest, rfl⟩, ⟨.flashImage, rfl⟩, ⟨.ctxSetup, rfl⟩,
    ⟨.ctxTeardown, rfl⟩, ⟨.dutySet, rfl⟩, ⟨.counterReport, rfl⟩⟩

theorem State.serviceSteps_execs : ∀ r ∈ s.serviceSteps, s.Execs r := by
  simp only [State.serviceSteps, List.forall_mem_append, List.forall_mem_flatMap, List.forall_mem_cons, List.not_mem_nil,
    false_implies, implies_true, and_true]
  exact ⟨fun k _ => ⟨⟨.faultReplay (some k), rfl⟩, ⟨.faultDecline (some k), rfl⟩⟩,
    fun k _ => ⟨⟨.groupResume (some k), rfl⟩, ⟨.terminate (some k), rfl⟩⟩⟩

theorem State.queuedSteps_execs : ∀ r ∈ s.queuedSteps, s.Execs r := by
  intro r h
  obtain ⟨q, -, h⟩ := List.mem_filterMap.1 h
  obtain ⟨b, -, rfl⟩ := Option.map_eq_some_iff.1 h
  exact ⟨.bankAccess _ _ _, rfl⟩

theorem State.execs_pair (i j : Instr) : ∀ r ∈ [exec i s, exec j s], s.Execs r := by
  simp only [List.forall_mem_cons, List.not_mem_nil, false_implies, implies_true, and_true]
  exact ⟨⟨i, rfl⟩, ⟨j, rfl⟩⟩

/-- Every step that a unit might take of itself is `exec` of a machine step. -/
theorem State.unitSteps_execs : ∀ r ∈ s.unitSteps, s.Execs r := by
  unfold State.unitSteps
  simp only [List.forall_mem_append]
  refine ⟨⟨⟨⟨⟨⟨⟨⟨⟨⟨⟨⟨⟨⟨⟨⟨⟨⟨?_, ?_⟩, ?_⟩, ?_⟩, ?_⟩, ?_⟩, ?_⟩, ?_⟩, ?_⟩, ?_⟩, ?_⟩, ?_⟩, ?_⟩, ?_⟩, ?_⟩, ?_⟩, ?_⟩, ?_⟩, ?_⟩
  · exact List.forall_mem_flatMap.2 fun _ _ => State.dieSteps_execs
  · exact List.forall_mem_flatMap.2 fun _ _ => State.coreSteps_execs
  · exact List.forall_mem_map.2 fun q _ => ⟨.packetAccept q, rfl⟩
  · exact List.forall_mem_map.2 fun l _ => ⟨.launchComplete l.id, rfl⟩
  · exact List.forall_mem_flatMap.2 fun w _ => State.execs_pair (.workgroupSave w.uid) (.workgroupResume w.uid)
  · exact List.forall_mem_flatMap.2 fun _ _ => State.sliceSteps_execs
  · exact State.queuedSteps_execs
  · exact List.forall_mem_flatMap.2 fun _ _ => State.bankSteps_execs
  · exact List.forall_mem_flatMap.2 fun _ _ => State.cmdSteps_execs
  · exact List.forall_mem_flatMap.2 fun _ _ => State.regionSteps_execs
  · exact List.forall_mem_map.2 fun r _ => ⟨.regionRestore r.stack r.first, rfl⟩
  · exact List.forall_mem_map.2 fun c _ => ⟨.streamTransfer c.id, rfl⟩
  · exact List.forall_mem_flatMap.2 fun c _ => List.forall_mem_map.2 fun d _ => ⟨.connectionForm c.id d.id, rfl⟩
  · exact List.forall_mem_flatMap.2 fun d _ => State.execs_pair (.combineFlush d.id) (.quantApply d.id)
  · exact List.forall_mem_flatMap.2 fun c _ => State.execs_pair (.copyElement c.id) (.copyComplete c.id)
  · exact List.forall_mem_map.2 fun e _ => ⟨.eventSequence e.source.toNat, rfl⟩
  · exact List.forall_mem_flatMap.2 fun p _ => State.execs_pair (.frameResend p.part) (.pairLost p.part)
  · exact State.serviceSteps_execs
  · exact State.firmwareSteps_execs

/-- What a step answers when it is the work of a unit or of a pipe. -/
def State.Performs (s : State) (r : Res) : Prop := ∃ m, s.perform m = r

theorem State.Execs.performs {r : Res} : s.Execs r → s.Performs r := fun ⟨i, h⟩ => ⟨.unit i, h⟩

theorem State.openMoves_performs : ∀ r ∈ s.openMoves, s.Performs r := by
  intro r h
  obtain h | h := List.mem_append.1 (List.mem_filter.1 h).1
  · obtain ⟨m, -, rfl⟩ := List.mem_map.1 h
    exact ⟨m, rfl⟩
  · exact (State.unitSteps_execs r h).performs

theorem State.boundMoves_performs : ∀ p ∈ s.boundMoves, s.Performs p.2 := by
  unfold State.boundMoves
  simp only [List.forall_mem_append]
  refine ⟨⟨⟨?_, ?_⟩, ?_⟩, ?_⟩
  · exact List.forall_mem_map.2 fun x _ => ⟨.unit (.pathRotation x.uid), rfl⟩
  · refine List.forall_mem_flatMap.2 fun x _ => ?_
    split
    · exact List.forall_mem_singleton.2 ⟨.unit (.regangRelease _ _), rfl⟩
    · exact fun _ h => absurd h List.not_mem_nil
  · refine List.forall_mem_flatMap.2 fun x _ => List.forall_mem_map.2 ?_
    simp only [List.forall_mem_cons, List.not_mem_nil, false_implies, implies_true, and_true]
    exact ⟨⟨.unit (.frameClaim _), rfl⟩, ⟨.unit (.midnightTrigger _), rfl⟩, ⟨.unit (.midnightSpill _), rfl⟩⟩
  · intro p h
    obtain ⟨m, -, h⟩ := List.mem_filterMap.1 h
    split at h
    · next u us =>
      obtain ⟨x, -, rfl⟩ := Option.map_eq_some_iff.1 h
      exact ⟨.issue (u :: us), rfl⟩
    · cases h

/-- The least of a list is one of the list. -/
theorem minBy?_mem {α : Type} {f : α → Nat} {xs : List α} {x : α} (h : minBy? f xs = some x) : x ∈ xs := by
  induction xs generalizing x with
  | nil => cases h
  | cons y ys ih =>
    unfold minBy? at h
    split at h
    · cases h
      exact List.mem_cons_self
    · next z hz =>
      split at h
      · cases h
        exact List.mem_cons_of_mem _ (ih hz)
      · cases h
        exact List.mem_cons_self

theorem nth_mem {α : Type} {d : α} {xs : List α} {k : Nat} (h : k < xs.length) : nth d xs k ∈ xs := by
  rw [nth, List.getD_eq_getElem _ _ h]
  exact List.getElem_mem h

theorem State.dueMove_performs {r : Res} (h : s.dueMove = some r) : s.Performs r := by
  obtain ⟨p, hp, rfl⟩ := Option.map_eq_some_iff.1 h
  exact State.boundMoves_performs p (List.mem_filter.1 (minBy?_mem hp)).1

/-- The next move is the head of the agenda, the work of a unit or of a pipe, or no move. -/
theorem State.move_cases (s : State) : (∃ m rest, s.agenda = m :: rest ∧ s.move = ({ s with agenda := rest }).perform m) ∨
    s.Performs s.move ∨ s.move = .next s := by
  unfold State.move
  split
  · next m rest h => exact .inl ⟨m, rest, h, rfl⟩
  · split
    · next r h =>
      refine .inr (.inl (State.dueMove_performs ?_))
      split at h
      · exact h
      · cases h
    · split
      · exact .inr (.inr rfl)
      · next ms h =>
        refine .inr (.inl (State.openMoves_performs _ (nth_mem (Nat.mod_lt _ ?_))))
        exact List.length_pos_iff.2 h
end

/-! ### Both memories stay in canonical form (R8, R221, log entry 4)

Memory changes in `dramStore`, `poke` and `zeroRange`, the roof store in `writeRoof` and `putRoof`; their lemmas use
`Memory.setBytes_wf` and `Memory.filter_wf`. Every other function on states is
built of calls: its lemma, named after the function, follows from those of the functions it calls. Functions that may refuse
have a lemma about the state that they answer. -/

namespace State.memOk

section
variable {s t : State}

theorem foldl {α : Type} {f : State → α → State} {l : List α} (hs : s.memOk) (hf : ∀ s a, s.memOk → (f s a).memOk) :
    (l.foldl f s).memOk := by
  induction l generalizing s with
  | nil => exact hs
  | cons a l ih => exact ih (hf s a hs)

theorem of_fst {α : Type} {p : State × α} {a : α} (hp : p.1.memOk) (e : p = (t, a)) : t.memOk := by
  subst e
  exact hp

theorem ite_fst {α : Type} {c : Prop} [Decidable c] {p q : State × α} (hp : p.1.memOk) (hq : q.1.memOk) :
    (if c then p else q).1.memOk := by
  split
  · exact hp
  · exact hq

theorem foldl_fst {α β : Type} {f : State × β → α → State × β} {l : List α} {b : β} (hs : s.memOk)
    (hf : ∀ p a, p.1.memOk → (f p a).1.memOk) : (l.foldl f (s, b)).1.memOk := by
  induction l generalizing s b with
  | nil => exact hs
  | cons a l ih => exact ih (hf (s, b) a hs)

/-! #### Report -/

theorem onCaches {f} (hs : s.memOk) : (s.onCaches f).memOk := hs

theorem onEngines {f} (hs : s.memOk) : (s.onEngines f).memOk := hs

theorem onOutside {f} (hs : s.memOk) : (s.onOutside f).memOk := hs

theorem fresh (hs : s.memOk) : s.fresh.2.memOk := hs

theorem freeValue (hs : s.memOk) : s.freeValue.2.memOk := hs

theorem post {e} (hs : s.memOk) : (s.post e).memOk := by
  unfold State.post
  grind [onOutside]

theorem postMemory {source code ctx core payload detail} (hs : s.memOk) :
    (s.postMemory source code ctx core payload detail).memOk :=
  hs.post

theorem postSchedule {source code ctx core payload detail} (hs : s.memOk) :
    (s.postSchedule source code ctx core payload detail).memOk :=
  hs.post

/-! #### Mem -/

theorem setStackCsr {stack f} (hs : s.memOk) : (s.setStackCsr stack f).memOk := hs

theorem setBank {b} (hs : s.memOk) : (s.setBank b).memOk :=
  hs.onEngines

theorem dramStore {line h d} (hs : s.memOk) : (s.dramStore line h d).memOk :=
  ⟨Memory.setBytes_wf _ _ hs.1, hs.2⟩

theorem dramWrite {line p d} (hs : s.memOk) : (s.dramWrite line p d).memOk := by
  unfold State.dramWrite
  grind [dramStore]

theorem dramMeet {stack line keep h} (hs : s.memOk) : (s.dramMeet stack line keep h).1.memOk := by
  unfold State.dramMeet
  grind [postMemory, State.memOk]

theorem dramRead {stack line p keep} (hs : s.memOk) : (s.dramRead stack line p keep).1.memOk := by
  unfold State.dramRead
  grind [dramMeet]

theorem serveReq {r} (hs : s.memOk) : (s.serveReq r).memOk :=
  hs.onCaches.dramWrite

theorem settleBank {line} (hs : s.memOk) : (s.settleBank line).memOk :=
  hs.foldl fun _ _ hs => hs.serveReq

theorem bankTurn {line} (hs : s.memOk) : (s.bankTurn line).memOk := by
  unfold State.bankTurn
  grind [setBank, serveReq, foldl]

theorem mscPlace {stack line} (hs : s.memOk) : (s.mscPlace stack line).memOk := by
  unfold State.mscPlace
  grind [onCaches]

theorem mscRead {stack line want alloc seq} (hs : s.memOk) : (s.mscRead stack line want alloc seq).1.memOk := by
  unfold State.mscRead
  grind [dramRead, settleBank, bankTurn, mscPlace]

theorem mscWrite {stack line off bs bad alloc} (hs : s.memOk) : (s.mscWrite stack line off bs bad alloc).memOk := by
  unfold State.mscWrite
  grind [onCaches, mscPlace, mscRead]

theorem mscPut {stack line p d} (hs : s.memOk) : (s.mscPut stack line p d).memOk := by
  unfold State.mscPut
  grind [mscWrite]

theorem serveMsc {r} (hs : s.memOk) : (s.serveMsc r).memOk :=
  hs.onCaches.mscPut

theorem settleMsc {line} (hs : s.memOk) : (s.settleMsc line).memOk :=
  hs.foldl fun _ _ hs => hs.serveMsc

theorem diePlace {stack line} (hs : s.memOk) : (s.diePlace stack line).memOk := by
  unfold State.diePlace
  grind [onCaches]

theorem dieWriteBack {pa drop} (hs : s.memOk) : (s.dieWriteBack pa drop).memOk := by
  unfold State.dieWriteBack
  grind [onCaches, mscPut, settleMsc]

theorem homeLine {line want p} (hs : s.memOk) : (s.homeLine line want p).1.memOk := by
  unfold State.homeLine
  grind [mscRead, settleMsc, diePlace, dieWriteBack]

theorem homePut {pa bs bad p} (hs : s.memOk) : (s.homePut pa bs bad p).memOk := by
  unfold State.homePut
  grind [mscRead, mscWrite, settleMsc, diePlace, dieWriteBack, foldl]

theorem readHome {pa n p} (hs : s.memOk) : (s.readHome pa n p).1.memOk := by
  unfold State.readHome
  grind [homeLine]

theorem writeHome {pa bs p} (hs : s.memOk) : (s.writeHome pa bs p).memOk :=
  hs.homePut

theorem homeRmw {pa n p f} (hs : s.memOk) : (s.homeRmw pa n p f).1.memOk := by
  unfold State.homeRmw
  grind [readHome, writeHome]

theorem addPoison {ts} (hs : s.memOk) : (s.addPoison ts).memOk := hs

theorem poisonAt {pa n} (hs : s.memOk) : (s.poisonAt pa n).memOk :=
  hs.addPoison

theorem meetWords {core ws} (hs : s.memOk) : (s.meetWords core ws).memOk :=
  hs.foldl fun _ _ hs => hs.addPoison.postMemory

theorem poke {pa bs} (hs : s.memOk) : (s.poke pa bs).memOk :=
  ⟨Memory.setBytes_wf _ _ hs.meetWords.1, hs.meetWords.2⟩

theorem meetRange {core pa n} (hs : s.memOk) : (s.meetRange core pa n).memOk :=
  hs.meetWords

theorem scratchMeet {core pa n} (hs : s.memOk) : (s.scratchMeet core pa n).memOk :=
  hs.meetWords

theorem scratchRead {pa n} (hs : s.memOk) : (s.scratchRead pa n).1.memOk :=
  hs.scratchMeet

theorem scratchRmw {pa n f} (hs : s.memOk) : (s.scratchRmw pa n f).1.memOk := by
  unfold State.scratchRmw
  grind [poke, scratchRead]

theorem performWt {w} (hs : s.memOk) : (s.performWt w).memOk :=
  hs.writeHome

theorem drainWts {p} (hs : s.memOk) : (s.drainWts p).memOk :=
  hs.onCaches.foldl fun _ _ hs => hs.performWt

theorem drainQuad {quad} (hs : s.memOk) : (s.drainQuad quad).memOk :=
  hs.drainWts

theorem sendWt {core pa bs p} (hs : s.memOk) : (s.sendWt core pa bs p).memOk := by
  unfold State.sendWt
  grind [onCaches]

theorem l1Drop {quad line except} (hs : s.memOk) : (s.l1Drop quad line except).memOk :=
  hs.onCaches

theorem l1Put {x} (hs : s.memOk) : (s.l1Put x).memOk :=
  hs.onCaches

theorem l1Write {core line off bs} (hs : s.memOk) : (s.l1Write core line off bs).memOk :=
  hs.onCaches

theorem quadWriteBack {l} (hs : s.memOk) : (s.quadWriteBack l).memOk := by
  unfold State.quadWriteBack
  grind [onCaches, homePut]

theorem quadOut {quad line} (hs : s.memOk) : (s.quadOut quad line).memOk := by
  unfold State.quadOut
  grind [onCaches, l1Drop, quadWriteBack]

theorem applyOne {d} (hs : s.memOk) : (s.applyOne d).memOk :=
  hs.onCaches.drainQuad.quadOut.homeRmw

theorem applyDeferred {d} (hs : s.memOk) : (s.applyDeferred d).memOk :=
  hs.foldl fun _ _ hs => hs.applyOne

theorem flushDeferred {p} (hs : s.memOk) : (s.flushDeferred p).memOk := by
  unfold State.flushDeferred
  grind [applyDeferred, foldl]

theorem quadDrop {quad line} (hs : s.memOk) : (s.quadDrop quad line).memOk :=
  hs.flushDeferred.quadOut

theorem quadFill {quad line want priv p} (hs : s.memOk) : (s.quadFill quad line want priv p).memOk := by
  unfold State.quadFill
  grind [onCaches, homeLine, drainQuad, quadDrop]

theorem quadGet {quad line want priv p} (hs : s.memOk) : (s.quadGet quad line want priv p).1.memOk := by
  unfold State.quadGet
  grind [quadFill]

theorem quadUse {l keep} (hs : s.memOk) : (s.quadUse l keep).memOk :=
  hs.onCaches

theorem readThrough {core quad line want} (hs : s.memOk) : (s.readThrough core quad line want).1.memOk := by
  unfold State.readThrough
  grind [homeLine, drainQuad, quadUse, Option.bind]

theorem quadRead {core pa n priv p} (hs : s.memOk) : (s.quadRead core pa n priv p).1.memOk := by
  unfold State.quadRead
  grind [readHome, drainQuad, l1Put, quadDrop, quadGet, quadUse, readThrough]

theorem quadWrite {core pa bs priv p} (hs : s.memOk) : (s.quadWrite core pa bs priv p).memOk := by
  unfold State.quadWrite
  grind [sendWt, l1Drop, l1Write, quadDrop, quadFill, quadUse, foldl]

theorem flashInvalidate {quad} (hs : s.memOk) : (s.flashInvalidate quad).memOk :=
  hs.onCaches

theorem quadClean {quad} (hs : s.memOk) : (s.quadClean quad).memOk :=
  hs.foldl fun _ _ hs => hs.quadWriteBack

theorem freshCode (hs : s.memOk) : s.freshCode.memOk :=
  hs.foldl fun _ _ hs => hs.quadDrop

theorem fetchRead {core pa n priv p} (hs : s.memOk) : (s.fetchRead core pa n priv p).1.memOk := by
  unfold State.fetchRead
  grind [readHome, drainQuad, quadDrop, quadGet, readThrough]

/-! #### Xlate -/

theorem tlbFill {t} (hs : s.memOk) : (s.tlbFill t).memOk :=
  hs.onCaches

theorem tlbPull {unit ctx va} (hs : s.memOk) : (s.tlbPull unit ctx va).memOk := by
  unfold State.tlbPull
  grind [tlbFill]

theorem tryMiss {a} (hs : s.memOk) : (s.tryMiss a).1.memOk := by
  unfold State.tryMiss
  grind [onCaches]

theorem openMiss {a} (hs : s.memOk) : (s.openMiss a).memOk := by
  unfold State.openMiss
  grind [onCaches, tryMiss]

theorem admitStalled (hs : s.memOk) : s.admitStalled.memOk :=
  hs.onCaches.foldl fun _ _ hs => hs.openMiss

theorem parkFault {asks a sub level} (hs : s.memOk) : (s.parkFault asks a sub level).memOk := by
  unfold State.parkFault
  grind [onCaches, fresh, post]

theorem clearDeclined {who} (hs : s.memOk) : (s.clearDeclined who).memOk :=
  hs.onCaches

theorem translate {p xs} (hs : s.memOk) : (s.translate p xs).1.memOk := by
  unfold State.translate
  grind [tlbPull, openMiss, parkFault, clearDeclined, foldl]

theorem readPte {die pa} (hs : s.memOk) : (s.readPte die pa).1.memOk := by
  unfold State.readPte
  grind [postMemory, readHome]

theorem walkFrom {die ctx va n4 n5 a} (hs : s.memOk) : (s.walkFrom die ctx va n4 n5 a).1.memOk := by
  fun_induction State.walkFrom s die ctx va n4 n5 a <;> grind [onCaches, readPte]

theorem walk {die ctx va} (hs : s.memOk) : (s.walk die ctx va).1.memOk := by
  unfold State.walk
  grind [walkFrom]

theorem installLeaf {die ctx va level e units} (hs : s.memOk) : (s.installLeaf die ctx va level e units).memOk :=
  hs.foldl fun _ _ hs => hs.tlbFill

theorem findNow {p need va} (hs : s.memOk) : (s.findNow p need va).1.memOk := by
  unfold State.findNow
  grind [tlbPull, walk, installLeaf]

theorem find {p need va} (hs : s.memOk) : (s.find p need va).1.memOk := by
  unfold State.find
  grind [tlbPull, findNow]

theorem findQuiet {p need va} (hs : s.memOk) : (s.findQuiet p need va).1.memOk := by
  unfold State.findQuiet
  grind [tlbPull]

/-! #### Slices -/

theorem setSlice {x} (hs : s.memOk) : (s.setSlice x).memOk := hs

theorem onSlice {u f} (hs : s.memOk) : (s.onSlice u f).memOk := hs

theorem onGroup {g f} (hs : s.memOk) : (s.onGroup g f).memOk := hs

theorem onWg {w f} (hs : s.memOk) : (s.onWg w f).memOk := hs

theorem onLaunch {l f} (hs : s.memOk) : (s.onLaunch l f).memOk := hs

theorem onCtx {c f} (hs : s.memOk) : (s.onCtx c f).memOk := by
  unfold State.onCtx
  grind [State.memOk]

theorem releaseAt {e x sc} (hs : s.memOk) : (s.releaseAt e x sc).memOk := by
  unfold State.releaseAt
  grind [drainQuad, flushDeferred]

theorem acquireAt {e sc} (hs : s.memOk) : (s.acquireAt e sc).memOk := by
  unfold State.acquireAt
  grind [flashInvalidate]

theorem setWord {pa w} (hs : s.memOk) : (s.setWord pa w).memOk :=
  hs.writeHome

/-! #### Flags -/

theorem raise {g f} (hs : s.memOk) : (s.raise g f).memOk := by
  unfold State.raise
  grind [onGroup]

theorem raiseAll {xs} (hs : s.memOk) : (s.raiseAll xs).memOk :=
  hs.foldl fun _ _ hs => hs.raise

/-! #### Frames -/

theorem freeBytes {a} (hs : s.memOk) : (s.freeBytes a).1.memOk := by
  fun_induction State.freeBytes s a <;> grind [freeValue]

theorem giveLine {core pa} (hs : s.memOk) : (s.giveLine core pa).memOk := by
  unfold State.giveLine
  grind [drainQuad, quadDrop]

theorem pkgReadEach {core pa n p} (hs : s.memOk) : (s.pkgReadEach core pa n p).1.memOk := by
  unfold State.pkgReadEach
  grind [homeLine, scratchRead, freeBytes, giveLine]

theorem pkgRead {core pa n p} (hs : s.memOk) : (s.pkgRead core pa n p).1.memOk := by
  unfold State.pkgRead
  grind [pkgReadEach]

theorem pkgWrite {core pa bs p bad} (hs : s.memOk) : (s.pkgWrite core pa bs p bad).memOk := by
  unfold State.pkgWrite
  grind [homePut, poisonAt, poke, giveLine]

theorem mapPieces {p need a} (hs : s.memOk) : (s.mapPieces p need a).1.memOk := by
  fun_induction State.mapPieces s p need a <;> grind [find]

theorem readPieces {core cp a} (hs : s.memOk) : (s.readPieces core cp a).1.memOk := by
  fun_induction State.readPieces s core cp a <;> grind [pkgReadEach]

theorem writePieces {core cp n3 a} (hs : s.memOk) : (s.writePieces core cp n3 a).memOk := by
  fun_induction State.writePieces s core cp n3 a <;> grind [pkgWrite]

theorem partRead {p kind va n} (hs : s.memOk) : (s.partRead p kind va n).1.memOk := by
  unfold State.partRead
  grind [mapPieces, readPieces]

theorem partWrite {p kind va bs} (hs : s.memOk) : (s.partWrite p kind va bs).1.memOk := by
  unfold State.partWrite
  grind [mapPieces, writePieces]

theorem scanBitmap {p x want n4 n5 n6 a} (hs : s.memOk) : (s.scanBitmap p x want n4 n5 n6 a).1.memOk := by
  fun_induction State.scanBitmap s p x want n4 n5 n6 a <;> grind [partRead]

theorem markSlots {p x used a} (hs : s.memOk) : (s.markSlots p x used a).1.memOk := by
  fun_induction State.markSlots s p x used a <;> grind [partRead, partWrite]

theorem claimSlots {p n} (hs : s.memOk) : (s.claimSlots p n).1.memOk := by
  unfold State.claimSlots
  grind [scanBitmap, markSlots]

theorem unmarkSlot {f} (hs : s.memOk) : (s.unmarkSlot f).memOk := by
  unfold State.unmarkSlot
  grind [onCaches, openMiss, parkFault, markSlots]

theorem retryFrees (hs : s.memOk) : s.retryFrees.memOk := by
  unfold State.retryFrees
  grind [unmarkSlot, foldl]

theorem dropFree {id} (hs : s.memOk) : (s.dropFree id).memOk :=
  hs.onCaches

theorem freeSlots {p ks} (hs : s.memOk) : (s.freeSlots p ks).memOk := by
  unfold State.freeSlots
  grind [onCaches, fresh, unmarkSlot, foldl]

theorem slotRead {p slot off n} (hs : s.memOk) : (s.slotRead p slot off n).1.memOk :=
  hs.partRead

theorem slotWrite {p slot off bs} (hs : s.memOk) : (s.slotWrite p slot off bs).1.memOk :=
  hs.partWrite

theorem relink {p x k} (hs : s.memOk) : (s.relink p x k).1.memOk := by
  unfold State.relink
  grind [slotWrite]

theorem syncRx {e x} (hs : s.memOk) : (s.syncRx e x).1.memOk := by
  unfold State.syncRx
  grind [claimSlots, freeSlots, slotWrite]

theorem syncSlices (hs : s.memOk) : s.syncSlices.memOk := by
  unfold State.syncSlices
  grind [openMiss, parkFault, setSlice, syncRx, foldl]

/-! #### Ops -/

theorem partSlices {us} (hs : s.memOk) : (s.partSlices us).memOk := by
  unfold State.partSlices
  grind [fresh, onSlice, foldl]

theorem partIfApart {us} (hs : s.memOk) : (s.partIfApart us).memOk := by
  unfold State.partIfApart
  grind [partSlices]

theorem countFault {q} (hs : s.memOk) : (s.countFault q).memOk := by
  unfold State.countFault
  grind [setWord]

theorem haltGroup {x t} (hs : s.memOk) : (s.haltGroup x t).memOk := by
  unfold State.haltGroup
  grind [post, onGroup, countFault, State.memOk]

theorem takeTrap {u t} (hs : s.memOk) : (s.takeTrap u t).memOk := by
  unfold State.takeTrap
  grind [setSlice, partSlices, haltGroup]

theorem takePending {x p} (hs : s.memOk) : (s.takePending x p).memOk :=
  hs.takeTrap

theorem parkSpill {e x va sub level} (hs : s.memOk) : (s.parkSpill e x va sub level).1.memOk :=
  hs.parkFault

theorem stayFor {x h} (hs : s.memOk) : (s.stayFor x h).1.memOk := by
  unfold State.stayFor
  grind [openMiss]

theorem spillFailed {α : Type} {e : Env} {x : Slice} {g : Got α} (hs : s.memOk) : (s.spillFailed e x g).1.memOk := by
  unfold State.spillFailed
  grind [parkSpill, stayFor]

theorem reloadFrame {e x slot base} (hs : s.memOk) : (s.reloadFrame e x slot base).1.memOk := by
  unfold State.reloadFrame
  grind [slotRead]

theorem withRx {e x y} (hs : s.memOk) : (s.withRx e x y).1.memOk := by
  unfold State.withRx
  grind [syncRx, spillFailed]

theorem endSlice {e x} (hs : s.memOk) : (s.endSlice e x).1.memOk :=
  hs.releaseAt.freeSlots

theorem endOrWait {e x y} (hs : s.memOk) : (s.endOrWait e x y).1.memOk := by
  unfold State.endOrWait
  grind [endSlice]

theorem freeLeft {e x slots} {r : State × Out} (hr : (r).1.memOk) : (State.freeLeft e x slots r).1.memOk := by
  unfold State.freeLeft
  grind [freeSlots]

theorem blockFor {x need} (hs : s.memOk) : (s.blockFor x need).1.memOk := hs

theorem withTop {e x y} (hs : s.memOk) : (s.withTop e x y).1.memOk := by
  unfold State.withTop
  grind [setSlice, spillFailed, reloadFrame, withRx, freeLeft, blockFor]

theorem doRet {e x y} (hs : s.memOk) : (s.doRet e x y).1.memOk := by
  unfold State.doRet
  have hr : ∀ {y slot b c s'}, s.reloadFrame e y slot b = (s', c) → s'.memOk := hs.reloadFrame.of_fst
  repeat' split
  · exact hs
  · exact hs.endOrWait
  · exact hs
  · exact hs.withRx
  · exact hs.blockFor
  · next h => exact (hr h).withRx.freeLeft
  · next h => exact (hr h).spillFailed
  · exact hs.endOrWait

theorem goOn {e x y} (hs : s.memOk) : (s.goOn e x y).1.memOk := by
  unfold State.goOn
  grind [spillFailed, reloadFrame, endOrWait, freeLeft, withTop, doRet]

theorem exitLanes {e x y} (hs : s.memOk) : (s.exitLanes e x y).1.memOk :=
  hs.goOn

/-! #### Run -/

theorem issue {f : State → State} (hs : s.memOk) (hf : ∀ s, s.memOk → (f s).memOk) (e : s.issue f = .next t) : t.memOk := by
  unfold State.issue at e
  grind []

theorem takeTraps {ts} (hs : s.memOk) : (s.takeTraps ts).memOk := by
  unfold State.takeTraps
  grind [partSlices, takeTrap, foldl]

theorem sendHome {us} (hs : s.memOk) : (s.sendHome us).memOk := by
  unfold State.sendHome
  grind [onSlice, partSlices, foldl]

theorem clearDeclines {us} (hs : s.memOk) : (s.clearDeclines us).memOk :=
  hs.foldl fun _ _ hs => hs.clearDeclined

theorem commitAll {i p eval} (hs : s.memOk) : (s.commitAll i p eval).memOk := by
  unfold State.commitAll
  grind [raiseAll, partIfApart, State.memOk]

theorem runLanes {i p srcs eval extra home} (hs : s.memOk) (e : s.runLanes i p srcs eval extra home = .next t) : t.memOk := by
  unfold State.runLanes at e
  grind [→ issue, takeTraps, sendHome, clearDeclines, commitAll]

theorem settleOut {u o} (hs : s.memOk) : (s.settleOut u o).memOk := by
  unfold State.settleOut
  grind [setSlice, takeTrap]

theorem sliceAct {i srcs reads} {act : State → Slice → Env → State × Out} {u} (hs : s.memOk) (hact : ∀ s b c, s.memOk → (act s
    b c).1.memOk) : (s.sliceAct i srcs reads act u).memOk := by
  unfold State.sliceAct
  grind [clearDeclined, setSlice, takeTrap, settleOut]

theorem runEach {i srcs reads} {act : State → Slice → Env → State × Out} (hs : s.memOk) (hact : ∀ s b c, s.memOk → (act s b
    c).1.memOk) (e : s.runEach i srcs reads act = .next t) : t.memOk := by
  unfold State.runEach at e
  grind [partIfApart, → issue, sliceAct, foldl]

theorem retireGang {i d rs held} (hs : s.memOk) : (s.retireGang i d rs held).memOk := by
  unfold State.retireGang
  grind [partIfApart, State.memOk]

theorem waitGang (hs : s.memOk) : s.waitGang.memOk := hs

theorem runGang {i srcs held} {act : State → Lead → State × GangOut} (hs : s.memOk) (hact : ∀ s b, s.memOk → (act s
    b).1.memOk) (e : s.runGang i srcs held act = .next t) : t.memOk := by
  unfold State.runGang at e
  grind [→ issue, takeTraps, sendHome, clearDeclines, retireGang, waitGang]

/-! #### Alu -/

theorem intOp {i p t d a b h f sum} (hs : s.memOk) {u : State} (e : s.intOp i p t d a b h f sum = .next u) : u.memOk := by
  unfold State.intOp at e
  grind [→ runLanes, Option.bind]

theorem wordOp {i p d a b h f} (hs : s.memOk) (e : s.wordOp i p d a b h f = .next t) : t.memOk := by
  unfold State.wordOp at e
  grind [→ runLanes]

theorem unaryOp {i p d a h f} (hs : s.memOk) (e : s.unaryOp i p d a h f = .next t) : t.memOk := by
  unfold State.unaryOp at e
  grind [→ runLanes]

theorem ternaryOp {i p d a b c h f} (hs : s.memOk) (e : s.ternaryOp i p d a b c h f = .next t) : t.memOk := by
  unfold State.ternaryOp at e
  grind [→ runLanes]

theorem intCompare {i p c t k a b h} (hs : s.memOk) {u : State} (e : s.intCompare i p c t k a b h = .next u) : u.memOk := by
  unfold State.intCompare at e
  grind [→ runLanes]

theorem movOp {i p d a h} (hs : s.memOk) (e : s.movOp i p d a h = .next t) : t.memOk := by
  unfold State.movOp at e
  grind [→ runLanes]

theorem exec_bfe {p d a b h} (hs : s.memOk) (e : execBfe p d a b h s = .next t) : t.memOk := by
  unfold Machine.execBfe at e
  grind [→ wordOp, → ternaryOp, Option.bind]

theorem exec_bfi {p d a b h} (hs : s.memOk) (e : execBfi p d a b h s = .next t) : t.memOk := by
  unfold Machine.execBfi at e
  grind [→ runLanes, → ternaryOp, Option.bind]

theorem exec_perm {p d a b h} (hs : s.memOk) (e : execPerm p d a b h s = .next t) : t.memOk := by
  unfold Machine.execPerm at e
  grind [→ wordOp, → ternaryOp, Option.bind]

theorem immOp {i p d a f} (hs : s.memOk) (e : s.immOp i p d a f = .next t) : t.memOk := by
  unfold State.immOp at e
  grind [→ unaryOp]

/-! #### Continue -/

theorem quietRead {p va n} (hs : s.memOk) : (s.quietRead p va n).1.memOk := by
  unfold State.quietRead
  grind [partRead]

theorem scanLive {p table off n4 n5 n6 a} (hs : s.memOk) : (s.scanLive p table off n4 n5 n6 a).1.memOk := by
  fun_induction State.scanLive s p table off n4 n5 n6 a <;> grind [quietRead]

theorem liveSet {e x} (hs : s.memOk) : (s.liveSet e x).1.memOk := by
  unfold State.liveSet
  grind [quietRead, scanLive]

theorem seek {e x h code} (hs : s.memOk) : (s.seek e x h code).1.memOk := by
  unfold State.seek
  grind [liveSet]

/-! #### Link -/

theorem setPair {x} (hs : s.memOk) : (s.setPair x).memOk :=
  hs.onOutside

theorem sendFrame {part kind body} (hs : s.memOk) : (s.sendFrame part kind body).memOk := by
  unfold State.sendFrame
  grind [onOutside, setPair]

theorem sendAck {part} (hs : s.memOk) : (s.sendAck part).memOk :=
  hs.onOutside

theorem dropStore {ctx core pa} (hs : s.memOk) : (s.dropStore ctx core pa).memOk := by
  unfold State.dropStore
  grind [freeValue, postMemory]

theorem startRemote {x ctx lane i part pa va data half parked} (hs : s.memOk) :
    (s.startRemote x ctx lane i part pa va data half parked).memOk := by
  unfold State.startRemote
  grind [onOutside, fresh, onSlice, sendFrame, dropStore]

theorem endRemotes {u i parked} (hs : s.memOk) : (s.endRemotes u i parked).memOk :=
  hs.onOutside.onSlice

/-! #### Memory -/

theorem applyFor {core pa} (hs : s.memOk) : (s.applyFor core pa).memOk :=
  hs.flushDeferred

theorem coreRmw {core m n cp sc f} (hs : s.memOk) : (s.coreRmw core m n cp sc f).1.memOk := by
  unfold State.coreRmw
  grind [homeRmw, scratchRmw, drainQuad, l1Drop, l1Write, quadDrop, quadGet, quadUse, applyFor]

theorem translateAll {need a} (hs : s.memOk) : (s.translateAll need a).1.memOk := by
  fun_induction State.translateAll s need a <;> grind [translate]

theorem holdGang {i ts} (hs : s.memOk) : (s.holdGang i ts).memOk := by
  unfold State.holdGang
  grind [fresh, onSlice, foldl]

theorem standUp (hs : s.memOk) : s.standUp.memOk := hs

theorem migrateMembers {cp a} (hs : s.memOk) : (s.migrateMembers cp a).1.memOk := by
  fun_induction State.migrateMembers s cp a <;> grind [onSlice, partSlices, takeTrap, seek]

theorem awaitRemotes {i k f ms} (hs : s.memOk) : (s.awaitRemotes i k f ms).1.memOk := by
  induction ms generalizing s with
  | nil => exact hs
  | cons m ms ih =>
    unfold State.awaitRemotes
    refine ih ?_
    split
    on_goal 2 => refine onSlice ?_
    all_goals
      refine hs.foldl_fst fun p q hp => ?_
      split
      · exact hp
      · split
        · exact hp
        · exact hp.startRemote

theorem parkAccess {i k inst m} (hs : s.memOk) : (s.parkAccess i k inst m).memOk := by
  unfold State.parkAccess
  grind [onCaches, fresh, onSlice]

theorem runMem {i p srcs addrs align need cp ready park} {remote : State → List (Member × Tr) → State × Bool} {perform : State
    → List (Member × Tr) → State} (hs : s.memOk) (hremote : ∀ s b, s.memOk → (remote s b).1.memOk) (hperform : ∀ s b, s.memOk →
    (perform s b).memOk) (e : s.runMem i p srcs addrs align need cp ready park remote perform = .next t) : t.memOk := by
  unfold State.runMem at e
  grind [fresh, partIfApart, → issue, takeTraps, clearDeclines, translateAll, holdGang, standUp, migrateMembers, parkAccess,
    foldl]

theorem coreRead {core m n cp} (hs : s.memOk) : (s.coreRead core m n cp).1.memOk := by
  unfold State.coreRead
  grind [scratchRead, quadRead, applyFor]

theorem coreWrite {core m bs cp} (hs : s.memOk) : (s.coreWrite core m bs cp).memOk := by
  unfold State.coreWrite
  grind [poke, quadWrite, applyFor]

theorem loadLanes {i parked core u z cp a} (hs : s.memOk) : (s.loadLanes i parked core u z cp a).1.memOk := by
  fun_induction State.loadLanes s i parked core u z cp a <;> grind [coreRead]

theorem retireMem {i u p d rs held} (hs : s.memOk) : (s.retireMem i u p d rs held).memOk :=
  hs.onSlice

theorem loadRegs {i parked z p m ms} (hs : s.memOk) : (s.loadRegs i parked z p m ms).1.memOk :=
  hs.loadLanes.endRemotes

theorem exec_ld {p z d a m} (hs : s.memOk) (e : execLd p z d a m s = .next t) : t.memOk := by
  unfold Machine.execLd at e
  grind [acquireAt, awaitRemotes, → runMem, retireMem, loadRegs, foldl]

theorem runStore {i p srcs addrs align need cp ready data held} {perform : State → Member → List Mapping → State}
    (hs : s.memOk) (hperform : ∀ s b c, s.memOk → (perform s b c).memOk)
    (e : s.runStore i p srcs addrs align need cp ready data held perform = .next t) : t.memOk :=
  hs.runMem (fun _ _ hs => hs) (fun _ _ hs => hs.foldl fun s q hs => (hperform s q.1 q.2.maps hs).retireMem) e

theorem sendStores {i data t} (hs : s.memOk) : (s.sendStores i data t).memOk := by
  unfold State.sendStores
  grind [startRemote, foldl]

theorem storeLanes {i z cp data ts} (hs : s.memOk) : (s.storeLanes i z cp data ts).memOk := by
  unfold State.storeLanes
  grind [coreWrite, sendStores, foldl]

theorem exec_st {p z d a m} (hs : s.memOk) (e : execSt p z d a m s = .next t) : t.memOk := by
  unfold Machine.execSt at e
  refine hs.runMem (fun _ _ hs => hs) (fun s ts hs => ?_) e
  have hr : (if (pfxOrder p).isRel then
      ts.foldl (fun s t => s.releaseAt t.1.env t.1.slice (s.widen t.1.slice (pfxScope p))) s else s).memOk := by
    split
    · exact hs.foldl fun _ _ hs => hs.releaseAt
    · exact hs
  exact hr.storeLanes.foldl fun _ _ hs => hs.retireMem

theorem defer {e x i use pa stack b c p} (hs : s.memOk) : (s.defer e x i use pa stack b c p).memOk := by
  unfold State.defer
  grind [onCaches, fresh]

theorem update {i e x use cp sc q m} (hs : s.memOk) : (s.update i e x use cp sc q m).1.memOk := by
  unfold State.update
  grind [coreRmw, defer]

theorem updateLanes {i parked m use cp sc a} (hs : s.memOk) : (s.updateLanes i parked m use cp sc a).1.memOk := by
  fun_induction State.updateLanes s i parked m use cp sc a <;> grind [update]

theorem updateRegs {i parked p m ups ms} (hs : s.memOk) : (s.updateRegs i parked p m ups ms).1.memOk := by
  unfold State.updateRegs
  grind [releaseAt, acquireAt, endRemotes, updateLanes]

theorem awaitUpdates {i p ups ts} (hs : s.memOk) : (s.awaitUpdates i p ups ts).1.memOk := by
  unfold State.awaitUpdates
  grind [releaseAt, awaitRemotes, foldl]

theorem atomicOp {i p d a h srcs b c} (hs : s.memOk) (e : s.atomicOp i p d a h srcs b c = .next t) : t.memOk := by
  unfold State.atomicOp at e
  grind [→ runMem, retireMem, updateRegs, awaitUpdates, foldl]

theorem exec_atom {p o d a b h} (hs : s.memOk) (e : execAtom p o d a b h s = .next t) : t.memOk := by
  unfold Machine.execAtom at e
  grind [→ atomicOp]

theorem exec_atomb {p o d a b h} (hs : s.memOk) (e : execAtomb p o d a b h s = .next t) : t.memOk := by
  unfold Machine.execAtomb at e
  grind [→ atomicOp, Option.bind]

theorem exec_fence {o sc} (hs : s.memOk) (e : execFence o sc s = .next t) : t.memOk := by
  unfold Machine.execFence at e
  grind [releaseAt, acquireAt, → runEach]

theorem cleanLine {quad line} (hs : s.memOk) : (s.cleanLine quad line).memOk := by
  unfold State.cleanLine
  grind [quadWriteBack]

theorem flushLine {core sc line} (hs : s.memOk) : (s.flushLine core sc line).memOk := by
  unfold State.flushLine
  grind [settleMsc, dieWriteBack, drainQuad, applyFor, cleanLine]

theorem dropLine {core sc line} (hs : s.memOk) : (s.dropLine core sc line).memOk := by
  unfold State.dropLine
  grind [onCaches, quadDrop]

theorem cacheOp {i p a m} {f : State → ℕ → Scope → ℕ → State} (hs : s.memOk) (hf : ∀ s b c d, s.memOk → (f s b c d).memOk) (e
    : s.cacheOp i p a m f = .next t) : t.memOk := by
  unfold State.cacheOp at e
  grind [→ runStore, foldl]

theorem exec_cflush {p a m} (hs : s.memOk) (e : execCflush p a m s = .next t) : t.memOk := by
  unfold Machine.execCflush at e
  grind [flushLine, → cacheOp]

theorem exec_cinv {p a m} (hs : s.memOk) (e : execCinv p a m s = .next t) : t.memOk := by
  unfold Machine.execCinv at e
  grind [dropLine, → cacheOp]

theorem quietLanes {p a} (hs : s.memOk) : (s.quietLanes p a).1.memOk := by
  fun_induction State.quietLanes s p a <;> grind [findQuiet]

theorem quietAll {a} (hs : s.memOk) : (s.quietAll a).1.memOk := by
  fun_induction State.quietAll s a <;> grind [quietLanes]

theorem runQuiet {i p a m} {perform : State → Member → List (DWord × Found) → State} (hs : s.memOk) (hperform : ∀ s b c,
    s.memOk → (perform s b c).memOk) (e : s.runQuiet i p a m perform = .next t) : t.memOk := by
  unfold State.runQuiet at e
  grind [openMiss, clearDeclined, onSlice, partIfApart, → issue, takeTraps, clearDeclines, quietAll, foldl]

theorem pinLine {e m} (hs : s.memOk) : (s.pinLine e m).1.memOk := by
  unfold State.pinLine
  grind [onCaches, quadFill, Option.bind]

theorem unpinLine {e m} (hs : s.memOk) : (s.unpinLine e m).memOk := by
  unfold State.unpinLine
  grind [onCaches]

theorem laneWords {f : State → DWord → Found → State × Word} {a} (hs : s.memOk) (hf : ∀ s b c, s.memOk → (f s b c).1.memOk) :
    (s.laneWords f a).1.memOk := by
  fun_induction State.laneWords s f a <;> grind []

theorem lineOp {i p d a m} {f : Member → State → DWord → Found → State × Word} {h} (hs : s.memOk) (hf : ∀ a s c d, s.memOk →
    (f a s c d).1.memOk) (e : s.lineOp i p d a m f h = .next t) : t.memOk := by
  unfold State.lineOp at e
  grind [retireMem, → runQuiet, laneWords]

theorem exec_pin {p d a m} (hs : s.memOk) (e : execPin p d a m s = .next t) : t.memOk := by
  unfold Machine.execPin at e
  grind [pinLine, → lineOp]

theorem exec_unpin {p d a m} (hs : s.memOk) (e : execUnpin p d a m s = .next t) : t.memOk := by
  unfold Machine.execUnpin at e
  grind [unpinLine, → lineOp]

theorem prefetch {core m cp} (hs : s.memOk) : (s.prefetch core m cp).memOk := by
  unfold State.prefetch
  grind [homeLine, quadRead]

theorem exec_pref {p a m} (hs : s.memOk) (e : execPref p a m s = .next t) : t.memOk := by
  unfold Machine.execPref at e
  grind [retireMem, → runQuiet, prefetch, foldl]

theorem watchLanes {m ms} (hs : s.memOk) : (s.watchLanes m ms).1.memOk :=
  hs.loadLanes.endRemotes

theorem watchAll {a} (hs : s.memOk) : (s.watchAll a).1.memOk := by
  fun_induction State.watchAll s a <;> grind [watchLanes]

theorem exec_waitw {p d a m} (hs : s.memOk) (e : execWaitw p d a m s = .next t) : t.memOk := by
  unfold Machine.execWaitw at e
  grind [awaitRemotes, → runMem, retireMem, watchAll, foldl, State.memOk]

theorem putBounds {quad ctx ws} (hs : s.memOk) : (s.putBounds quad ctx ws).memOk := hs

theorem setBound {quad ctx k w} (hs : s.memOk) : (s.setBound quad ctx k w).memOk :=
  hs.putBounds

theorem boundLanes {quad ctx reg val f a} (hs : s.memOk) : (s.boundLanes quad ctx reg val f a).1.memOk := by
  fun_induction State.boundLanes s quad ctx reg val f a <;> grind [setBound]

theorem boundOp {i p d a b held f} (hs : s.memOk) (e : s.boundOp i p d a b held f = .next t) : t.memOk := by
  unfold State.boundOp at e
  grind [partIfApart, → issue, takeTraps, clearDeclines, retireMem, boundLanes, foldl]

/-! #### Mbar -/

theorem wakeMbar {key w} (hs : s.memOk) : (s.wakeMbar key w).memOk := hs

theorem readMbar {core m} (hs : s.memOk) : (s.readMbar core m).1.memOk := by
  unfold State.readMbar
  grind [pkgRead]

theorem mbarOp {core m f} (hs : s.memOk) : (s.mbarOp core m f).1.memOk := by
  unfold State.mbarOp
  grind [pkgWrite, wakeMbar, readMbar]

theorem postOverrun {p va gen} (hs : s.memOk) : (s.postOverrun p va gen).memOk :=
  hs.postMemory

theorem postLost {p va gen} (hs : s.memOk) : (s.postLost p va gen).memOk :=
  hs.postMemory

theorem mbarAct {p va m engine gen f} (hs : s.memOk) : (s.mbarAct p va m engine gen f).memOk := by
  unfold State.mbarAct
  grind [mbarOp, postOverrun, postLost]

theorem dropArrival {id} (hs : s.memOk) : (s.dropArrival id).memOk :=
  hs.onCaches

theorem tryArrival {f} (hs : s.memOk) : (s.tryArrival f).memOk := by
  unfold State.tryArrival
  grind [openMiss, parkFault, find, mbarAct, dropArrival]

theorem retryArrivals (hs : s.memOk) : s.retryArrivals.memOk := by
  unfold State.retryArrivals
  grind [tryArrival, foldl]

theorem arriveFor {p va engine a} (hs : s.memOk) : (s.arriveFor p va engine a).memOk := by
  unfold State.arriveFor
  grind [onCaches, fresh, tryArrival]

theorem engineArriveAt {p va a} (hs : s.memOk) : (s.engineArriveAt p va a).memOk := by
  unfold State.engineArriveAt
  grind [postLost, arriveFor]

theorem engineArrive {p va a} (hs : s.memOk) : (s.engineArrive p va a).memOk := by
  unfold State.engineArrive
  grind [engineArriveAt]

theorem doneArrive {p va} (hs : s.memOk) : (s.doneArrive p va).memOk := by
  unfold State.doneArrive
  grind [arriveFor]

theorem mbarLanes {i p a srcs held rel act skip data} (hs : s.memOk) (e : s.mbarLanes i p a srcs held rel act skip data =
    .next t) : t.memOk := by
  unfold State.mbarLanes at e
  grind [releaseAt, → runStore, mbarAct, foldl]

theorem exec_mbarInit {a b h} (hs : s.memOk) (e : execMbarInit a b h s = .next t) : t.memOk := by
  unfold Machine.execMbarInit at e
  grind [→ mbarLanes]

theorem exec_mbarArrive {p a b h} (hs : s.memOk) (e : execMbarArrive p a b h s = .next t) : t.memOk := by
  unfold Machine.execMbarArrive at e
  grind [→ mbarLanes]

theorem exec_mbarInval {a h} (hs : s.memOk) (e : execMbarInval a h s = .next t) : t.memOk := by
  unfold Machine.execMbarInval at e
  grind [→ mbarLanes]

theorem askLanes {q parity a} (hs : s.memOk) : (s.askLanes q parity a).1.memOk := by
  fun_induction State.askLanes s q parity a <;> grind [mbarOp]

theorem askAll {parity a} (hs : s.memOk) : (s.askAll parity a).1.memOk := by
  fun_induction State.askAll s parity a <;> grind [askLanes]

theorem mbarRetire {i p k held q rs} (hs : s.memOk) : (s.mbarRetire i p k held q rs).memOk := by
  unfold State.mbarRetire
  grind [onSlice, acquireAt]

theorem mbarWatch {i p k a b h test} (hs : s.memOk) (e : s.mbarWatch i p k a b h test = .next t) : t.memOk := by
  unfold State.mbarWatch at e
  refine hs.runMem (fun _ _ hs => hs) (fun s ts hs => ?_) e
  dsimp only
  split
  · exact hs.askAll.foldl fun _ _ hs => hs.mbarRetire
  · exact hs.askAll.waitGang.foldl fun s q hs => hs.onSlice

/-! #### Control -/

theorem branch {i o e x y taken} (hs : s.memOk) : (s.branch i o e x y taken).1.memOk := by
  unfold State.branch
  grind [withRx]

theorem branchOn {i o a f} (hs : s.memOk) (e : s.branchOn i o a f = .next t) : t.memOk := by
  unfold State.branchOn at e
  grind [→ runEach, branch]

theorem exec_bra {o} (hs : s.memOk) (e : execBra o s = .next t) : t.memOk := by
  unfold Machine.execBra at e
  grind [→ runEach, branch]

theorem exec_bloop {o a} (hs : s.memOk) (e : execBloop o a s = .next t) : t.memOk := by
  unfold Machine.execBloop at e
  grind [→ runEach, branch]

theorem callTo {i x target args demand} (hs : s.memOk) : (s.callTo i x target args demand).1.memOk := by
  unfold State.callTo
  grind []

theorem exec_call {o args demand} (hs : s.memOk) (e : execCall o args demand s = .next t) : t.memOk := by
  unfold Machine.execCall at e
  grind [→ runEach, callTo]

theorem exec_callIndirect {a args demand} (hs : s.memOk) (e : execCallIndirect a args demand s = .next t) : t.memOk := by
  unfold Machine.execCallIndirect at e
  grind [→ runEach, callTo]

theorem exec_ret (hs : s.memOk) (e : execRet s = .next t) : t.memOk := by
  unfold Machine.execRet at e
  grind [doRet, goOn, → runEach]

theorem unwindLoop {e n2 n3 n4 n5 a} (hs : s.memOk) : (s.unwindLoop e n2 n3 n4 n5 a).1.memOk := by
  fun_induction State.unwindLoop s e n2 n3 n4 n5 a <;> grind [slotRead]

theorem exec_unwind {a n} (hs : s.memOk) (e : execUnwind a n s = .next t) : t.memOk := by
  unfold Machine.execUnwind at e
  grind [spillFailed, freeLeft, withTop, exitLanes, → runEach, unwindLoop]

theorem exec_regang {tag} (hs : s.memOk) (e : execRegang tag s = .next t) : t.memOk := by
  unfold Machine.execRegang at e
  grind [onGroup, → runEach]

theorem goOnAll {i f} {after : State → State} (hs : s.memOk) (hafter : ∀ s, s.memOk → (after s).memOk) (e : s.goOnAll i f
    after = .next t) : t.memOk := by
  unfold State.goOnAll at e
  grind [partIfApart, → issue, State.memOk]

theorem exec_part (hs : s.memOk) (e : execPart s = .next t) : t.memOk := by
  unfold Machine.execPart at e
  grind [partSlices, → goOnAll]

theorem exec_yield (hs : s.memOk) (e : execYield s = .next t) : t.memOk := by
  unfold Machine.execYield at e
  grind [→ goOnAll]

theorem exec_exit (hs : s.memOk) (e : execExit s = .next t) : t.memOk := by
  unfold Machine.execExit at e
  grind [exitLanes, → runEach]

theorem exec_sleep {a} (hs : s.memOk) (e : execSleep a s = .next t) : t.memOk := by
  unfold Machine.execSleep at e
  grind [retireGang, → runGang, State.memOk]

/-! #### Task -/

theorem parkSlice {e x kind va sub level} (hs : s.memOk) : (s.parkSlice e x kind va sub level).1.memOk :=
  hs.parkFault

theorem stopOut {e x a} (hs : s.memOk) : (s.stopOut e x a).1.memOk := by
  unfold State.stopOut
  grind [stayFor, parkSlice]

theorem gotStep {α : Type} {g : State × Got α} {kind : AccessKind} {pc : DWord} {base : DWord} (hg : (g).1.memOk) {r} (e :
    Got.step g kind pc base = .ok r) : r.1.memOk := by
  unfold Machine.Got.step at e
  grind []

theorem mapOne {p need va} (hs : s.memOk) {r} (e : s.mapOne p need va = .ok r) : r.1.memOk := by
  unfold State.mapOne at e
  grind [find]

theorem partRmw {core m n f} (hs : s.memOk) : (s.partRmw core m n f).1.memOk := by
  unfold State.partRmw
  grind [freeValue, coreRmw]

theorem taskRead {t kind va n} (hs : s.memOk) {r} (e : s.taskRead t kind va n = .ok r) : r.1.memOk := by
  unfold State.taskRead at e
  grind [partRead, → gotStep]

theorem readTask {t rcd} (hs : s.memOk) {r} (e : s.readTask t rcd = .ok r) : r.1.memOk := by
  unfold State.readTask at e
  grind [→ taskRead]

theorem rmwCtl {t rcd f} (hs : s.memOk) {u : State} (e : s.rmwCtl t rcd f = .ok u) : u.memOk := by
  unfold State.rmwCtl at e
  grind [→ mapOne, partRmw]

theorem addJoin {t join k} (hs : s.memOk) {u : State} (e : s.addJoin t join k = .ok u) : u.memOk := by
  unfold State.addJoin at e
  grind [→ mapOne, partRmw]

theorem setDeque {d} (hs : s.memOk) : (s.setDeque d).memOk :=
  hs.onEngines

theorem readSegment {t slot} (hs : s.memOk) {r} (e : s.readSegment t slot = .ok r) : r.1.memOk := by
  unfold State.readSegment at e
  grind [slotRead, → gotStep]

theorem pushTask {t core entry} (hs : s.memOk) {u : State} (e : s.pushTask t core entry = .ok u) : u.memOk := by
  unfold State.pushTask at e
  grind [claimSlots, slotWrite, → gotStep, setDeque]

theorem shrinkSegment {t d slot es} (hs : s.memOk) {u : State} (e : s.shrinkSegment t d slot es = .ok u) : u.memOk := by
  unfold State.shrinkSegment at e
  grind [markSlots, slotWrite, → gotStep, setDeque]

theorem searchSegments {t d group top a} (hs : s.memOk) {r} (e : s.searchSegments t d group top a = .ok r) : r.1.memOk := by
  fun_induction State.searchSegments s t d group top a <;> grind [→ readSegment, → shrinkSegment]

theorem popTask {t core group} (hs : s.memOk) {r} (e : s.popTask t core group = .ok r) : r.1.memOk := by
  unfold State.popTask at e
  grind [markSlots, → gotStep, setDeque, → readSegment, → searchSegments]

theorem stealTask {t group core} (hs : s.memOk) {r} (e : s.stealTask t group core = .ok r) : r.1.memOk := by
  unfold State.stealTask at e
  grind [setDeque, → searchSegments]

theorem badRecord {t rcd ctl} (hs : s.memOk) : (s.badRecord t rcd ctl).memOk :=
  hs.postSchedule

theorem takeGood {t} {take : State → Except Stop (State × Option DWord)} {a} (hs : s.memOk) (htake : ∀ s, s.memOk → ∀ q, take
    s = .ok q → q.1.memOk) {r} (e : s.takeGood t take a = .ok r) : r.1.memOk := by
  fun_induction State.takeGood s t take a <;> grind [→ readTask, badRecord]

theorem stealFrom {t group a} (hs : s.memOk) {r} (e : s.stealFrom t group a = .ok r) : r.1.memOk := by
  fun_induction State.stealFrom s t group a <;> grind [→ stealTask, → takeGood]

theorem stealFar {n1 : Tasker} {n2 n3} (hs : s.memOk) {r} (e : s.stealFar n1 n2 n3 = .ok r) : r.1.memOk := by
  induction n3 generalizing s with
  | nil => cases e; exact hs
  | cons d ds ih =>
    have hp : ({ s with probeNext := assocSet s.probeNext d ((assoc 0 s.probeNext d + 1) % 8) } : State).memOk := hs
    unfold State.stealFar at e
    grind [→ stealFrom]

theorem steal {n1 group} (hs : s.memOk) {r} (e : s.steal n1 group = .ok r) : r.1.memOk := by
  have hp : ({ s with stealLfsr := assocSet s.stealLfsr n1.env.core (Config.stealStep (assoc 1 s.stealLfsr n1.env.core)) } :
    State).memOk := hs
  unfold State.steal at e
  grind [→ stealFrom, → stealFar]

theorem findTask {t group steal} (hs : s.memOk) {r} (e : s.findTask t group steal = .ok r) : r.1.memOk := by
  unfold State.findTask at e
  grind [→ popTask, → takeGood, → steal]

theorem spawnOne {t : Tasker} {rcd} (hs : s.memOk) {r} (e : s.spawnOne t rcd = .ok r) : r.1.memOk := by
  simp only [State.spawnOne, except_bind_eq_ok] at e
  obtain ⟨⟨s, q⟩, h, e⟩ := e
  have hs := hs.readTask h
  grind [→ taskRead, → addJoin, → rmwCtl, → pushTask, onEngines, except_bind_eq_ok, except_pure_eq_ok]

theorem spawnLanes {t : Tasker} {ls} (hs : s.memOk) {r} (e : s.spawnLanes t ls = .ok r) : r.1.memOk := by
  induction ls generalizing s r with
  | nil => cases e; exact hs
  | cons l ls ih =>
    unfold State.spawnLanes at e
    grind [→ spawnOne]

theorem spawnAll {ms qs} (hs : s.memOk) (e : s.spawnAll ms = .codes t qs) : t.memOk := by
  induction ms generalizing s t qs with
  | nil => cases e; exact hs
  | cons m ms ih =>
    unfold State.spawnAll at e
    grind [→ spawnLanes]

theorem exec_spawn {d a h} (hs : s.memOk) (e : execSpawn d a h s = .next t) : t.memOk := by
  unfold Machine.execSpawn at e
  refine hs.issue (fun s hs => ?_) e
  grind [clearDeclines, takeTraps, waitGang, stopOut, settleOut, partIfApart, retireMem, foldl, releaseAt, → spawnAll]

theorem beginTask {t : Tasker} {x rcd r pc} (hs : s.memOk) {q} (e : s.beginTask t x rcd r pc = .ok q) : q.1.memOk := by
  unfold State.beginTask at e
  grind [→ pushTask, → rmwCtl, acquireAt, except_bind_eq_ok, except_pure_eq_ok]

theorem runAlone {i srcs reads} {act : State → Slice → Env → State × Out} (hs : s.memOk) (hact : ∀ s b c, s.memOk → (act s b
    c).1.memOk) (e : s.runAlone i srcs reads act = .next t) : t.memOk := by
  unfold State.runAlone at e
  grind [partSlices, → runEach]

theorem orStop {e x} {r : Except Stop (State × Out)} (hs : s.memOk) (hr : ∀ q, r = .ok q → q.1.memOk) :
    (s.orStop e x r).1.memOk := by
  unfold State.orStop
  grind [stopOut]

theorem exec_tnextS {d} (hs : s.memOk) (e : execTnextS d s = .next t) : t.memOk := by
  unfold Machine.execTnextS at e
  refine hs.runAlone (fun s x e hs => ?_) e
  dsimp only
  split
  · exact hs
  · refine hs.orStop fun q h => ?_
    obtain ⟨⟨s, found⟩, hf, h⟩ := except_bind_eq_ok.1 h
    have hs := hs.findTask hf
    cases found with
    | none => cases h; exact hs
    | some f =>
      obtain ⟨⟨s, o⟩, hb, h⟩ := except_bind_eq_ok.1 h
      have hs := hs.beginTask hb
      cases o <;> cases h <;> exact hs

theorem beginAll {i d rcd r a} (hs : s.memOk) : (s.beginAll i d rcd r a).memOk := by
  fun_induction State.beginAll s i d rcd r a <;> grind [setSlice, acquireAt]

theorem exec_tnextG {d} (hs : s.memOk) (e : execTnextG d s = .next t) : t.memOk := by
  unfold Machine.execTnextG at e
  refine hs.runGang ?_ e
  clear e hs
  intro s l hs
  have moved : ∀ {t : Tasker} {s' rcd r s'' c} {p : Prop} [Decidable p], s.findTask t true true = .ok (s', some (rcd, r)) →
      (if p then s'.pushTask t l.env.core (dequeEntry rcd true) else s'.rmwCtl t rcd c) = .ok s'' → s''.memOk := fun hf h => by
    split at h
    · exact (hs.findTask hf).pushTask h
    · exact (hs.findTask hf).rmwCtl h
  dsimp only
  repeat' split
  · exact hs
  · exact hs
  · next h => exact hs.stopOut.of_fst h
  · next h => exact (hs.stopOut.of_fst h).settleOut
  · next h => exact hs.findTask h
  · exact hs
  · next h => exact hs.stopOut.of_fst h
  · next h => exact (hs.stopOut.of_fst h).settleOut
  · next hf _ _ _ h _ => exact (moved hf h).foldl fun _ _ hs => hs.onSlice
  · next hf _ _ _ h _ => exact (moved hf h).beginAll

theorem exec_join {a h} (hs : s.memOk) (e : execJoin a h s = .next t) : t.memOk := by
  unfold Machine.execJoin at e
  refine hs.runAlone (fun s x e hs => ?_) e
  dsimp only
  split
  · exact hs
  split
  · exact hs
  · refine hs.orStop fun q h => ?_
    obtain ⟨⟨s, bs⟩, hr, h⟩ := except_bind_eq_ok.1 h
    have hs := hs.taskRead hr
    grind [except_bind_eq_ok, except_pure_eq_ok, acquireAt, → findTask, → beginTask]

theorem signalTask {t abandon rcd} (hs : s.memOk) {u : State} (e : s.signalTask t abandon rcd = .ok u) : u.memOk := by
  unfold State.signalTask at e
  grind [→ readTask, → rmwCtl, → pushTask, badRecord]

theorem signalList {t abandon a} (hs : s.memOk) {u : State} (e : s.signalList t abandon a = .ok u) : u.memOk := by
  fun_induction State.signalList s t abandon a <;> grind [→ signalTask]

theorem signalNext {t abandon rcd r i} (hs : s.memOk) {u : State} (e : s.signalNext t abandon rcd r i = .ok u) : u.memOk := by
  unfold State.signalNext at e
  grind [onEngines, → taskRead, → signalTask, → signalList]

theorem signalFrom {t abandon rcd r n5 a} (hs : s.memOk) : (s.signalFrom t abandon rcd r n5 a).1.memOk := by
  fun_induction State.signalFrom s t abandon rcd r n5 a <;> grind [→ rmwCtl, → signalNext]

theorem endTask {i d a h abandon} (hs : s.memOk) (e : s.endTask i d a h abandon = .next t) : t.memOk := by
  unfold State.endTask at e
  refine hs.runAlone ?_ e
  clear e hs
  intro s x e hs
  dsimp only
  refine ite_fst hs (ite_fst hs ?_)
  have hr : (if abandon then s else s.releaseAt e x .pkg).memOk := by split; exacts [hs, hs.releaseAt]
  revert hr
  generalize (if abandon then s else s.releaseAt e x .pkg) = s
  intro hs
  cases abandon
  all_goals
    simp only [Bool.false_eq_true, if_false, if_true]
    repeat' split
    all_goals grind [→ readTask, stopOut, → rmwCtl, → addJoin, signalFrom]

/-! #### Copy -/

theorem gangStop {l} {r : Except Stop (State × GangOut)} (hs : s.memOk) (hr : ∀ q, r = .ok q → q.1.memOk) :
    (s.gangStop l r).1.memOk := by
  unfold State.gangStop
  grind [clearDeclined, settleOut, stopOut]

theorem askFor {h} (hs : s.memOk) : (s.askFor h).memOk := by
  unfold State.askFor
  grind [openMiss]

theorem waitFor {name h} (hs : s.memOk) (e : s.waitFor name h = .next t) : t.memOk := by
  unfold State.waitFor at e
  grind [askFor, notNow]

theorem onTile {id f} (hs : s.memOk) : (s.onTile id f).memOk :=
  hs.onEngines

theorem exec_tdef {a b h} (hs : s.memOk) (e : execTdef a b h s = .next t) : t.memOk := by
  unfold Machine.execTdef at e
  grind [onEngines, fresh, → runGang]

theorem exec_tfree {a h} (hs : s.memOk) (e : execTfree a h s = .next t) : t.memOk := by
  unfold Machine.execTfree at e
  grind [onEngines, → runGang]

theorem exec_tstat {d a h} (hs : s.memOk) (e : execTstat d a h s = .next t) : t.memOk := by
  unfold Machine.execTstat at e
  grind [→ runGang]

theorem onToken {wg t f} (hs : s.memOk) : (s.onToken wg t f).memOk :=
  hs.onWg

theorem exec_cseal {d a h} (hs : s.memOk) (e : execCseal d a h s = .next t) : t.memOk := by
  unfold Machine.execCseal at e
  grind [→ runGang, onToken]

theorem exec_cwait {a h} (hs : s.memOk) (e : execCwait a h s = .next t) : t.memOk := by
  unfold Machine.execCwait at e
  grind [onSlice, → runGang, onToken, foldl]

theorem exec_cpoll {d a h} (hs : s.memOk) (e : execCpoll d a h s = .next t) : t.memOk := by
  unfold Machine.execCpoll at e
  grind [→ runGang]

theorem chargeMbar {p bar n} (hs : s.memOk) {r} (e : s.chargeMbar p bar n = .ok r) : r.1.memOk := by
  unfold State.chargeMbar at e
  grind [mbarOp, postOverrun, postLost, → mapOne]

theorem chainOp {c w t x} (hs : s.memOk) : (s.chainOp c w t x).memOk := by
  unfold State.chainOp
  grind [onEngines, fresh]

theorem handOver {c} (hs : s.memOk) : (s.handOver c).1.memOk := by
  unfold State.handOver
  grind [chainOp]

theorem finishCopy {c status} (hs : s.memOk) : (s.finishCopy c status).memOk := by
  unfold State.finishCopy
  grind [onEngines, engineArriveAt, onToken]

theorem issueCopy {l} {k : Tasker} {f q a b} (hs : s.memOk) {r} (e : s.issueCopy l k f q a b = .ok r) : r.1.memOk := by
  unfold State.issueCopy at e
  extract_lets w n token tile roff ok charge batch entry place check at e
  replace e : check () = .ok r := except_unless e
  have hplace : place () = .ok r := by
    dsimp only [check] at e
    split at e
    · exact (except_bind_eq_ok.1 e).elim fun _ h => h.2
    · exact e
  dsimp only [place] at hplace
  rcases ite_eq_iff.1 hplace with ⟨-, hplace⟩ | ⟨-, hplace⟩
  · cases hplace; exact hs
  · obtain ⟨⟨s, gen⟩, h, hplace⟩ := except_bind_eq_ok.1 hplace
    have hs := (hs.chargeMbar h)
    cases hplace
    grind [onToken, onTile, onWg, onEngines, finishCopy, fresh]

theorem startCopy {l f desc aprVa mbar chainVa} (hs : s.memOk) {r} (e : s.startCopy l f desc aprVa mbar chainVa = .ok r) :
    r.1.memOk := by
  unfold State.startCopy at e
  extract_lets k start at e
  have hstart : ∃ q, q.1.memOk ∧ start q = .ok r := by
    split at e
    · exact ⟨(s, none), hs, e⟩
    split at e
    · cases e
    split at e
    · cases e
    · next u bs h => exact ⟨(u, some (Chain.ofBytes bs)), hs.taskRead h, e⟩
  obtain ⟨⟨s, chain⟩, hs, e⟩ := hstart
  replace e := except_unless e
  obtain ⟨⟨s, bs⟩, h, e⟩ := except_bind_eq_ok.1 e
  exact (hs.taskRead h).issueCopy (except_unless e)

theorem copyGang {i f a b c h chained} (hs : s.memOk) (e : s.copyGang i f a b c h chained = .next t) : t.memOk := by
  unfold State.copyGang at e
  grind [releaseAt, → runGang, gangStop, → startCopy, foldl]

theorem reach {p need va} (hs : s.memOk) : (s.reach p need va).1.memOk := by
  unfold State.reach
  grind [parkFault, clearDeclined, find]

theorem copyReach {c wr va} (hs : s.memOk) : (s.copyReach c wr va).1.memOk := by
  unfold State.copyReach
  grind [reach]

theorem copyRead {c va n} (hs : s.memOk) : (s.copyRead c va n).1.memOk := by
  unfold State.copyRead
  grind [freeBytes, coreRead, copyReach]

theorem raceRoof {n} (hs : s.memOk) : (s.raceRoof n).memOk := by
  unfold State.raceRoof
  grind [onEngines, freeValue, foldl]

theorem writeRoof {key cells} (hs : s.memOk) : (s.writeRoof key cells).memOk :=
  ⟨hs.raceRoof.1, Memory.setBytes_wf _ _ hs.raceRoof.2⟩

theorem writeBuf {core b} (hs : s.memOk) : (s.writeBuf core b).memOk := by
  unfold State.writeBuf
  grind [pkgWrite, writeRoof]

theorem writePiece {core bs} (hs : s.memOk) : (s.writePiece core bs).memOk :=
  hs.foldl fun _ _ hs => hs.writeBuf

theorem flushCopy {c} (hs : s.memOk) : (s.flushCopy c).1.memOk :=
  hs.foldl fun _ _ hs => hs.writePiece

theorem gather {c b} (hs : s.memOk) : (s.gather c b).1.memOk := by
  unfold State.gather
  grind [writeBuf, writePiece, foldl]

theorem gatherAll {c b} (hs : s.memOk) : (s.gatherAll c b).1.memOk := by
  unfold State.gatherAll
  exact hs.foldl_fst fun p _ hp => hp.gather

theorem copyPut {c stream place bs poison} (hs : s.memOk) : (s.copyPut c stream place bs poison).1.memOk :=
  hs.gatherAll

theorem copyPlace {c va noAlloc} (hs : s.memOk) : (s.copyPlace c va noAlloc).1.memOk := by
  unfold State.copyPlace
  grind [copyReach]

theorem copyWrite {c stream va bs poison noAlloc} (hs : s.memOk) : (s.copyWrite c stream va bs poison noAlloc).1.memOk := by
  unfold State.copyWrite
  grind [copyPut, copyPlace]

theorem denseWrite {c stream off bs poison} (hs : s.memOk) : (s.denseWrite c stream off bs poison).1.memOk :=
  hs.gatherAll

theorem dstWrite {c b bs poison} (hs : s.memOk) : (s.dstWrite c b bs poison).1.memOk := by
  unfold State.dstWrite
  grind [copyWrite]

theorem putElem {c bs poison} (hs : s.memOk) : (s.putElem c bs poison).1.memOk := by
  unfold State.putElem
  grind [denseWrite, dstWrite]

theorem setCopy {c} (hs : s.memOk) : (s.setCopy c).memOk :=
  hs.onEngines

theorem placeBlock {c b n a} (hs : s.memOk) : (s.placeBlock c b n a).1.memOk := by
  fun_induction State.placeBlock s c b n a <;> grind [copyPlace]

theorem putPlaces {c} (hs : s.memOk) : (s.putPlaces c).1.memOk := by
  unfold State.putPlaces
  refine hs.foldl_fst fun p q hp => ?_
  split
  · exact hp.copyPut
  · exact hp

theorem putBlock {c} (hs : s.memOk) : (s.putBlock c).1.memOk := by
  unfold State.putBlock
  grind [denseWrite, setCopy, placeBlock, putPlaces]

theorem copyElem {c bs poison} (hs : s.memOk) : (s.copyElem c bs poison).1.memOk := by
  unfold State.copyElem
  grind [putElem]

theorem copyOut {c} (hs : s.memOk) : (s.copyOut c).1.memOk := by
  unfold State.copyOut
  lift_lets
  intro a
  split
  · exact hs
  · exact hs
  · split
    next hr =>
      have hs := hs.scratchRead.of_fst hr
      split
      · next h => exact hs.copyWrite.of_fst h
      · exact hs.copyWrite

theorem copyStep {c} (hs : s.memOk) : (s.copyStep c).1.memOk := by
  unfold State.copyStep
  grind [copyRead, putBlock, copyElem, copyOut]

theorem settleCopy {c} (hs : s.memOk) : (s.settleCopy c).memOk := by
  unfold State.settleCopy
  grind [flushCopy, setCopy]

theorem failCopy {c} (hs : s.memOk) : (s.failCopy c).1.memOk := by
  unfold State.failCopy
  grind [putPlaces]

theorem exec_copyElement {id} (hs : s.memOk) (e : execCopyElement id s = .next t) : t.memOk := by
  unfold Machine.execCopyElement at e
  grind [→ waitFor, copyStep, settleCopy, failCopy, notNow]

theorem exec_copyComplete {id} (hs : s.memOk) (e : execCopyComplete id s = .next t) : t.memOk := by
  unfold Machine.execCopyComplete at e
  grind [handOver, finishCopy, notNow]

/-! #### Barrier -/

theorem arriveBar {sc u} (hs : s.memOk) : (s.arriveBar sc u).memOk := by
  unfold State.arriveBar
  grind [onSlice]

theorem exec_bar {sc} (hs : s.memOk) (e : execBar sc s = .next t) : t.memOk := by
  unfold Machine.execBar at e
  grind [releaseAt, partSlices, takeTrap, → runGang, arriveBar, foldl]

theorem releaseBar {sc ms} (hs : s.memOk) : (s.releaseBar sc ms).memOk :=
  ((hs.foldl fun _ _ hs => hs.releaseAt).foldl fun _ _ hs => hs.acquireAt.onSlice).foldl fun _ _ hs => hs.partIfApart

theorem exec_barRelease {u} (hs : s.memOk) (e : execBarRelease u s = .next t) : t.memOk := by
  unfold Machine.execBarRelease at e
  grind [onOutside, sendFrame, releaseBar, foldl, notNow]

/-! #### Convert -/

theorem convOp {i p src dst pos d a h sat} (hs : s.memOk) (e : s.convOp i p src dst pos d a h sat = .next t) : t.memOk := by
  unfold State.convOp at e
  grind [→ runLanes]

/-! #### System -/

theorem csrWrite {u r v} (hs : s.memOk) : (s.csrWrite u r v).memOk := by
  unfold State.csrWrite
  grind [setStackCsr, onSlice, onGroup, onCtx, State.memOk]

theorem exec_csrr {d b} (hs : s.memOk) (e : execCsrr d b s = .next t) : t.memOk := by
  unfold Machine.execCsrr at e
  grind [partIfApart, → runGang, State.memOk]

theorem exec_csrw {a b h} (hs : s.memOk) (e : execCsrw a b h s = .next t) : t.memOk := by
  unfold Machine.execCsrw at e
  grind [→ runGang, csrWrite, foldl]

theorem exec_trap {b} (hs : s.memOk) (e : execTrap b s = .next t) : t.memOk := by
  unfold Machine.execTrap at e
  grind [→ runGang]

theorem exec_brk {b} (hs : s.memOk) (e : execBrk b s = .next t) : t.memOk := by
  unfold Machine.execBrk at e
  grind [→ runGang]

theorem exec_eret (hs : s.memOk) (e : execEret s = .next t) : t.memOk := by
  unfold Machine.execEret at e
  grind [withTop, → runEach]

theorem exec_evpost {a b h} (hs : s.memOk) (e : execEvpost a b h s = .next t) : t.memOk := by
  unfold Machine.execEvpost at e
  grind [onOutside, releaseAt, → runGang, foldl]

theorem tlbRemove {tlb walk} (hs : s.memOk) : (s.tlbRemove tlb walk).memOk :=
  (hs.drainWts.flushDeferred.foldl fun _ _ hs => hs.flushCopy.setCopy).onCaches

theorem invalidate {kind ctx va} (hs : s.memOk) : (s.invalidate kind ctx va).memOk := by
  unfold State.invalidate
  grind [tlbRemove]

theorem exec_tlbinv {a b h} (hs : s.memOk) (e : execTlbinv a b h s = .next t) : t.memOk := by
  unfold Machine.execTlbinv at e
  grind [→ runGang, invalidate]

/-! #### Nmc -/

theorem endCmd {c} (hs : s.memOk) : (s.endCmd c).memOk :=
  hs.engineArrive.onEngines.onSlice

theorem completeCmd {c} (hs : s.memOk) : (s.completeCmd c).memOk := by
  unfold State.completeCmd
  grind [openMiss, parkFault, clearDeclined, partWrite, endCmd]

theorem readApr {t va} (hs : s.memOk) {r} (e : s.readApr t va = .ok r) : r.1.memOk := by
  unfold State.readApr at e
  grind [→ taskRead]

theorem captureGen {t va} (hs : s.memOk) {r} (e : s.captureGen t va = .ok r) : r.1.memOk := by
  unfold State.captureGen at e
  grind [mbarOp, → mapOne]

theorem postCmd {c} (hs : s.memOk) : (s.postCmd c).memOk :=
  hs.onEngines.onSlice

theorem issueNmc {l va} (hs : s.memOk) {r} (e : s.issueNmc l va = .ok r) : r.1.memOk := by
  unfold State.issueNmc at e
  obtain ⟨⟨s, bs⟩, h, e⟩ := except_bind_eq_ok.1 (except_unless e)
  have hs := hs.taskRead h
  replace e := except_unless (except_unless e)
  obtain ⟨⟨s, ra⟩, h, e⟩ := except_bind_eq_ok.1 e
  have hs := hs.readApr h
  obtain ⟨⟨s, rb⟩, h, e⟩ := except_bind_eq_ok.1 e
  have hs := hs.readApr h
  obtain ⟨⟨s, rd⟩, h, e⟩ := except_bind_eq_ok.1 e
  have hs := hs.readApr h
  dsimp only at e
  split at e
  case' h_2 => cases e
  case' h_3 => cases e
  next h =>
  have hs := hs.findQuiet.of_fst h
  obtain ⟨_, ⟨⟩, e⟩ := except_bind_eq_ok.1 e
  obtain ⟨⟨s, gen⟩, h, e⟩ := except_bind_eq_ok.1 e
  have hs := (hs.captureGen h).fresh
  have once : ∀ {c}, ((s.fresh.2.postCmd c).completeCmd c).memOk := hs.postCmd.completeCmd
  dsimp only at e
  split at e
  · cases e; exact once
  split at e
  · cases e; exact once
  split at e
  · cases e; exact once
  obtain ⟨⟨s, m⟩, h, e⟩ := except_bind_eq_ok.1 e
  have hs := hs.mapOne h
  dsimp only at e
  split at e
  · split at e
    · cases e; exact hs.postCmd
    · cases e; exact hs
  · cases e; exact hs.postCmd.completeCmd

theorem exec_nmc {a h} (hs : s.memOk) (e : execNmc a h s = .next t) : t.memOk := by
  unfold Machine.execNmc at e
  grind [releaseAt, → runGang, gangStop, → issueNmc, foldl]

theorem exec_nfence (hs : s.memOk) (e : execNfence s = .next t) : t.memOk := by
  unfold Machine.execNfence at e
  grind [acquireAt, → runGang, foldl]

theorem flushPage {c page pa} (hs : s.memOk) : (s.flushPage c page pa).memOk :=
  hs.foldl fun _ _ hs => (hs.foldl fun _ _ hs => hs.serveMsc).foldl fun _ _ hs => hs.dieWriteBack

theorem enterPage {c page pa} (hs : s.memOk) : (s.enterPage c page pa).1.memOk :=
  hs.flushPage

theorem testPages {c a} (hs : s.memOk) : (s.testPages c a).1.memOk := by
  fun_induction State.testPages s c a <;> grind [findQuiet]

theorem acceptCmd {c} (hs : s.memOk) : (s.acceptCmd c).memOk := by
  refine State.memOk.clearDeclined (hs.foldl_fst (fun p q hp => ?_)).onEngines
  split
  · exact hp
  · exact hp.enterPage

theorem setCmd {c} (hs : s.memOk) : (s.setCmd c).memOk :=
  hs.onEngines

theorem exec_nmcAccept {stack} (hs : s.memOk) (e : execNmcAccept stack s = .next t) : t.memOk := by
  unfold Machine.execNmcAccept at e
  grind [openMiss, clearDeclined, testPages, acceptCmd, setCmd, notNow]

theorem exec_sequencerStart {stack} (hs : s.memOk) (e : execSequencerStart stack s = .next t) : t.memOk := by
  unfold Machine.execSequencerStart at e
  grind [setCmd, notNow]

theorem columnAccess {c pa} (hs : s.memOk) : (s.columnAccess c pa).1.memOk := by
  unfold State.columnAccess
  grind [setBank]

theorem leaveBanks {id} (hs : s.memOk) : (s.leaveBanks id).memOk :=
  hs.onEngines

theorem cmdReach {c wr va} (hs : s.memOk) : (s.cmdReach c wr va).1.memOk := by
  unfold State.cmdReach
  grind [reach, enterPage]

theorem cmdRead {c a} (hs : s.memOk) : (s.cmdRead c a).1.memOk := by
  unfold State.cmdRead
  grind [mscRead, columnAccess, cmdReach]

theorem clearRow {c pa} (hs : s.memOk) : (s.clearRow c pa).memOk :=
  hs.foldl fun _ _ hs => hs.settleBank.dramWrite.onCaches

theorem cmdWrite {c bs poison} (hs : s.memOk) : (s.cmdWrite c bs poison).1.memOk := by
  unfold State.cmdWrite
  grind [dramStore, dramRead, settleBank, columnAccess, cmdReach, clearRow]

theorem cmdStep {c} (hs : s.memOk) : (s.cmdStep c).1.memOk := by
  unfold State.cmdStep
  grind [cmdRead, cmdWrite]

theorem setDone {c} (hs : s.memOk) : (s.setDone c).memOk := by
  unfold State.setDone
  grind [setCmd, leaveBanks]

theorem exec_sequencerElement {cmd} (hs : s.memOk) (e : execSequencerElement cmd s = .next t) : t.memOk := by
  unfold Machine.execSequencerElement at e
  grind [→ waitFor, setCmd, cmdStep, setDone, notNow]

theorem exec_sequencerYield {cmd} (hs : s.memOk) (e : execSequencerYield cmd s = .next t) : t.memOk := by
  unfold Machine.execSequencerYield at e
  grind [setBank, notNow]

theorem exec_yieldCap {cmd} (hs : s.memOk) (e : execYieldCap cmd s = .next t) : t.memOk := by
  unfold Machine.execYieldCap at e
  grind [setBank, notNow]

theorem exec_nmcComplete {cmd} (hs : s.memOk) (e : execNmcComplete cmd s = .next t) : t.memOk := by
  unfold Machine.execNmcComplete at e
  grind [completeCmd, notNow]

theorem exec_refresh {stack pch bank} (hs : s.memOk) (e : execRefresh stack pch bank s = .next t) : t.memOk := by
  unfold Machine.execRefresh at e
  grind [setBank, notNow]

theorem exec_activationAlert {stack pch bank} (hs : s.memOk) (e : execActivationAlert stack pch bank s = .next t) : t.memOk := by
  unfold Machine.execActivationAlert at e
  grind [setStackCsr, setBank, notNow]

theorem exec_rfmHoldEnd {stack pch bank} (hs : s.memOk) (e : execRfmHoldEnd stack pch bank s = .next t) : t.memOk := by
  unfold Machine.execRfmHoldEnd at e
  grind [setBank, notNow]

theorem exec_dieCacheAccess {die} (hs : s.memOk) (e : execDieCacheAccess die s = .next t) : t.memOk := by
  unfold Machine.execDieCacheAccess at e
  grind [onCaches, performWt, notNow]

theorem exec_mscAccess {stack} (hs : s.memOk) (e : execMscAccess stack s = .next t) : t.memOk := by
  unfold Machine.execMscAccess at e
  grind [serveMsc, notNow]

theorem serveBank {b r} (hs : s.memOk) : (s.serveBank b r).memOk :=
  hs.serveReq.setBank

theorem exec_bankAccess {stack pch bank} (hs : s.memOk) (e : execBankAccess stack pch bank s = .next t) : t.memOk := by
  unfold Machine.execBankAccess at e
  grind [serveBank, notNow]

theorem serveOverdue (hs : s.memOk) : s.serveOverdue.memOk := by
  unfold State.serveOverdue
  grind [serveBank, foldl]

/-! #### Region -/

theorem setRegion {r} (hs : s.memOk) : (s.setRegion r).memOk :=
  hs.onEngines

theorem engMap {p need va n} (hs : s.memOk) : (s.engMap p need va n).1.memOk := by
  unfold State.engMap
  grind [parkFault, clearDeclined, mapPieces]

theorem engRead {p need va n} (hs : s.memOk) : (s.engRead p need va n).1.memOk := by
  unfold State.engRead
  grind [readPieces, engMap]

theorem engWrite {p need va bs} (hs : s.memOk) : (s.engWrite p need va bs).1.memOk := by
  unfold State.engWrite
  grind [writePieces, engMap]

theorem onChannel {id f} (hs : s.memOk) : (s.onChannel id f).memOk :=
  hs.onEngines

theorem dropChannel {id} (hs : s.memOk) : (s.dropChannel id).memOk := by
  unfold State.dropChannel
  grind [onEngines, onChannel]

theorem unarm {r e} (hs : s.memOk) : (s.unarm r e).memOk :=
  hs.setRegion

theorem readTables {r a} (hs : s.memOk) : (s.readTables r a).1.memOk := by
  fun_induction State.readTables s r a <;> grind [engRead]

theorem sweepImages (hs : s.memOk) : s.sweepImages.memOk :=
  hs.onEngines

theorem cacheImage {c} (hs : s.memOk) : (s.cacheImage c).memOk :=
  hs.onEngines

theorem arm {r h nodes routes} (hs : s.memOk) : (s.arm r h nodes routes).memOk :=
  hs.setRegion.foldl fun _ _ hs => hs.dropChannel.onEngines

theorem loadTables {r hdr h} (hs : s.memOk) : (s.loadTables r hdr h).1.memOk := by
  unfold State.loadTables
  grind [engRead]

theorem loadRegion {r name} {arm : State → List Byte → Header → List Node → List Route → State} (hs : s.memOk) (harm : ∀ s b c
    d e, s.memOk → (arm s b c d e).memOk) (e : s.loadRegion r name arm = .next t) : t.memOk := by
  unfold State.loadRegion at e
  grind [→ waitFor, engRead, unarm, readTables, cacheImage, loadTables]

theorem exec_imageLoad {stack first} (hs : s.memOk) (e : execImageLoad stack first s = .next t) : t.memOk := by
  unfold Machine.execImageLoad at e
  grind [arm, → loadRegion, notNow]

theorem barrierArrival {r n v err} (hs : s.memOk) : (s.barrierArrival r n v err).memOk :=
  hs.engineArrive

theorem lateArrivals {r err} (hs : s.memOk) : (s.lateArrivals r err).memOk :=
  hs.foldl fun _ _ hs => hs.foldl fun _ _ hs => hs.barrierArrival

theorem forgetRegion {stack first} (hs : s.memOk) : (s.forgetRegion stack first).memOk :=
  hs.onCaches

theorem declareHang {r map} (hs : s.memOk) : (s.declareHang r map).memOk :=
  hs.lateArrivals.setRegion.post

theorem freeRegion {r} (hs : s.memOk) : (s.freeRegion r).memOk := by
  unfold State.freeRegion
  grind [onEngines, dropChannel, sweepImages, lateArrivals, forgetRegion, declareHang, foldl]

theorem abortRegion {r status event va} (hs : s.memOk) : (s.abortRegion r status event va).memOk :=
  (hs.lateArrivals.forgetRegion.setRegion.foldl fun _ _ hs => hs.onChannel).post

theorem exec_gprep {d a b h} (hs : s.memOk) (e : execGprep d a b h s = .next t) : t.memOk := by
  unfold Machine.execGprep at e
  grind [onEngines, → runGang]

theorem exec_gctlStatus {d a h} (hs : s.memOk) (e : execGctlStatus d a h s = .next t) : t.memOk := by
  unfold Machine.execGctlStatus at e
  grind [→ runGang]

theorem exec_gctlRelease {d a h} (hs : s.memOk) (e : execGctlRelease d a h s = .next t) : t.memOk := by
  unfold Machine.execGctlRelease at e
  grind [→ runGang, freeRegion]

theorem exec_gctlInval {d a h} (hs : s.memOk) (e : execGctlInval d a h s = .next t) : t.memOk := by
  unfold Machine.execGctlInval at e
  grind [onEngines, → runGang, sweepImages]

theorem captureGens {k : Tasker} {ms} (hs : s.memOk) {r} (e : s.captureGens k ms = .ok r) : r.1.memOk := by
  induction ms generalizing s r with
  | nil => cases e; exact hs
  | cons m ms ih =>
    obtain ⟨⟨s, g⟩, hg, e⟩ := except_bind_eq_ok.1 e
    obtain ⟨⟨s, gs⟩, hgs, e⟩ := except_bind_eq_ok.1 e
    have := ih (hs.captureGen hg) hgs
    cases e
    exact this

theorem launch {r rcd gens} (hs : s.memOk) : (s.launch r rcd gens).memOk :=
  hs.setRegion

theorem startGraph {l d va} (hs : s.memOk) {r} (e : s.startGraph l d va = .ok r) : r.1.memOk := by
  obtain ⟨⟨s, bs⟩, h, e⟩ := except_bind_eq_ok.1 e
  have hs := hs.taskRead h
  dsimp only at e
  repeat' split at e
  all_goals grind [except_bind_eq_ok, except_pure_eq_ok, → captureGens, launch]

theorem exec_glaunch {d a h} (hs : s.memOk) (e : execGlaunch d a h s = .next t) : t.memOk := by
  unfold Machine.execGlaunch at e
  grind [releaseAt, → runGang, gangStop, → startGraph, foldl]

/-! #### Elements -/

theorem element {name opc stack first node fire} (hs : s.memOk) (e : s.element name opc stack first node fire = .next t) :
    t.memOk := by
  unfold State.element at e
  grind [setRegion, notNow]

theorem exec_routeHop {stack first route hop} (hs : s.memOk) (e : execRouteHop stack first route hop s = .next t) : t.memOk := by
  unfold Machine.execRouteHop at e
  grind [setRegion, abortRegion, notNow]

theorem exec_dawnArrival {stack first route} (hs : s.memOk) (e : execDawnArrival stack first route s = .next t) : t.memOk := by
  unfold Machine.execDawnArrival at e
  grind [setRegion, onChannel, notNow]

theorem exec_duskForward {stack first node} (hs : s.memOk) (e : execDuskForward stack first node s = .next t) : t.memOk := by
  unfold Machine.execDuskForward at e
  dsimp only at e
  repeat' split at e
  all_goals grind [notNow, setRegion]

/-! #### Endpoint -/

theorem parkEndpoint {r e} (hs : s.memOk) : (s.parkEndpoint r e).memOk :=
  hs.setRegion

theorem declineStream {r va} (hs : s.memOk) : (s.declineStream r va).memOk :=
  hs.abortRegion

theorem startInv {r num} (hs : s.memOk) : (s.startInv r num).1.memOk := by
  unfold State.startInv
  grind [setRegion, engWrite]

theorem readArrayApr {r n} (hs : s.memOk) : (s.readArrayApr r n).1.memOk := by
  unfold State.readArrayApr
  grind [engRead]

theorem beginEndpoint {name r n e ok after} (hs : s.memOk) (he : s.beginEndpoint name r n e ok after = .next t) : t.memOk := by
  unfold State.beginEndpoint at he
  grind [→ waitFor, setRegion, parkEndpoint, declineStream, startInv, readArrayApr, notNow]

theorem elementToks {a pos bs pad poison} (hs : s.memOk) : (s.elementToks a pos bs pad poison).1.memOk := by
  unfold State.elementToks
  grind [freeValue]

theorem walkSrc {r n e a} (hs : s.memOk) (he : s.walkSrc r n e a = .next t) : t.memOk := by
  unfold State.walkSrc at he
  grind [pkgRead, → waitFor, reach, setRegion, parkEndpoint, declineStream, elementToks]

theorem exec_src {stack first node} (hs : s.memOk) (e : execSrc stack first node s = .next t) : t.memOk := by
  unfold Machine.execSrc at e
  repeat' split at e
  all_goals grind [notNow, setRegion, → beginEndpoint, → walkSrc]

theorem performDue {d} (hs : s.memOk) : (s.performDue d).memOk :=
  hs.writePieces

theorem logDue {r n inv levels payload} (hs : s.memOk) : (s.logDue r n inv levels payload).1.memOk := by
  unfold State.logDue
  grind [readPieces, engMap]

theorem sinkBytes {a v} (hs : s.memOk) : (s.sinkBytes a v).1.memOk := by
  unfold State.sinkBytes
  grind [freeBytes]

theorem targetDue {r n a t} (hs : s.memOk) : (s.targetDue r n a t).1.memOk := by
  unfold State.targetDue
  grind [engMap]

theorem placeDense {e a v} (hs : s.memOk) : (s.placeDense e a v).1.memOk := by
  unfold State.placeDense
  grind [sinkBytes]

theorem placeSparse {e a coord v} (hs : s.memOk) : (s.placeSparse e a coord v).1.memOk := by
  unfold State.placeSparse
  grind [sinkBytes]

theorem sinkData {name r n e a t} (hs : s.memOk) {u : State} (he : s.sinkData name r n e a t = .next u) : u.memOk := by
  unfold State.sinkData at he
  grind [→ waitFor, setRegion, parkEndpoint, declineStream, performDue, logDue, targetDue, placeDense, placeSparse, foldl]

theorem sinkEnd {name r n e a} (hs : s.memOk) (he : s.sinkEnd name r n e a = .next t) : t.memOk := by
  unfold State.sinkEnd at he
  grind [→ waitFor, setRegion, parkEndpoint, declineStream, performDue, targetDue, foldl]

theorem sinkStep {name opc stack first node} (hs : s.memOk) (e : s.sinkStep name opc stack first node = .next t) : t.memOk := by
  unfold State.sinkStep at e
  grind [setRegion, → beginEndpoint, → sinkData, → sinkEnd, notNow]

theorem exec_snkbarArrival {stack first} (hs : s.memOk) (e : execSnkbarArrival stack first s = .next t) : t.memOk := by
  unfold Machine.execSnkbarArrival at e
  grind [setRegion, barrierArrival, notNow]

/-! #### Float -/

theorem floatOp {i p t d srcs h f} (hs : s.memOk) {u : State} (e : s.floatOp i p t d srcs h f = .next u) : u.memOk := by
  unfold State.floatOp at e
  grind [→ runLanes]

theorem specialOp {fn i p t d a h} (hs : s.memOk) {u : State} (e : s.specialOp fn i p t d a h = .next u) : u.memOk := by
  unfold State.specialOp at e
  grind [→ floatOp]

/-! #### Lane -/

theorem maskOp {i k j l f} (hs : s.memOk) (e : s.maskOp i k j l f = .next t) : t.memOk := by
  unfold State.maskOp at e
  grind [→ runLanes]

/-! #### Matrix -/

theorem putAcc {a} (hs : s.memOk) : (s.putAcc a).memOk :=
  hs.onEngines

theorem pushMat {q} (hs : s.memOk) : (s.pushMat q).memOk := by
  unfold State.pushMat
  grind [onEngines, fresh]

theorem mmaGang {i p a b h kind} (hs : s.memOk) (e : s.mmaGang i p a b h kind = .next t) : t.memOk := by
  unfold State.mmaGang at e
  grind [→ runGang, pushMat, Option.bind]

theorem moveSet {i b kind} (hs : s.memOk) (e : s.moveSet i b kind = .next t) : t.memOk := by
  unfold State.moveSet at e
  grind [→ runGang, pushMat]

theorem exec_accz {o} (hs : s.memOk) (e : execAccz o s = .next t) : t.memOk := by
  unfold Machine.execAccz at e
  grind [→ runGang, pushMat]

theorem postMatrix {q} (hs : s.memOk) : (s.postMatrix q).memOk :=
  hs.postMemory

theorem matEffect {q} (hs : s.memOk) : (s.matEffect q).memOk := by
  unfold State.matEffect
  dsimp only
  split
  · exact hs.putAcc
  · split
    · exact hs.putAcc.postMatrix
    · exact hs.putAcc
  · split
    · exact hs.poke.poisonAt.postMatrix
    · exact hs.poke
  all_goals
    split
    · exact hs.putAcc.postMatrix
    · exact hs.putAcc

theorem matMeet {q} (hs : s.memOk) : (s.matMeet q).memOk := by
  unfold State.matMeet
  grind [scratchMeet]

theorem exec_mmaComplete {core} (hs : s.memOk) (e : execMmaComplete core s = .next t) : t.memOk := by
  unfold Machine.execMmaComplete at e
  grind [onEngines, matEffect, matMeet, notNow]

/-! #### Migrate -/

theorem ownGang {x} (hs : s.memOk) : (s.ownGang x).1.memOk := hs

theorem holdOut {x t} (hs : s.memOk) : (s.holdOut x t).1.memOk := by
  unfold State.holdOut
  grind []

theorem exec_migrate {d a h} (hs : s.memOk) (e : execMigrate d a h s = .next t) : t.memOk := by
  unfold Machine.execMigrate at e
  grind [translate, → runEach, seek, ownGang, holdOut]

theorem exec_home (hs : s.memOk) (e : execHome s = .next t) : t.memOk := by
  unfold Machine.execHome at e
  grind [→ runEach]

theorem exec_migq {d a h} (hs : s.memOk) (e : execMigq d a h s = .next t) : t.memOk := by
  unfold Machine.execMigq at e
  grind [→ lineOp]

/-! #### Stream -/

theorem returnCredits {c k} (hs : s.memOk) : (s.returnCredits c k).memOk := by
  unfold State.returnCredits
  grind [onEngines, sendFrame]

theorem unbindQueues {wg} (hs : s.memOk) : (s.unbindQueues wg).memOk :=
  hs.foldl fun _ _ hs => hs.dropChannel

theorem exec_gbind {d a b h} (hs : s.memOk) (e : execGbind d a b h s = .next t) : t.memOk := by
  unfold Machine.execGbind at e
  grind [onEngines, → runGang, dropChannel]

theorem exec_sqpush {d a b h} (hs : s.memOk) (e : execSqpush d a b h s = .next t) : t.memOk := by
  unfold Machine.execSqpush at e
  grind [→ runGang, onChannel]

theorem handTokens {i d n3 a} (hs : s.memOk) : (s.handTokens i d n3 a).memOk := by
  fun_induction State.handTokens s i d n3 a <;> grind [setSlice]

theorem exec_sqpop {d b} (hs : s.memOk) (e : execSqpop d b s = .next t) : t.memOk := by
  unfold Machine.execSqpop at e
  grind [partIfApart, → runGang, onChannel, returnCredits, handTokens, State.memOk]

theorem drainAll {ks number} (hs : s.memOk) : (s.drainAll ks number).memOk := by
  unfold State.drainAll
  grind [setRegion, foldl]

theorem startDrain {ks} (hs : s.memOk) : (s.startDrain ks).memOk := by
  unfold State.startDrain
  grind [freeValue, drainAll]

theorem drainWith {r c} (hs : s.memOk) (e : s.drainWith r c = some t) : t.memOk := by
  unfold State.drainWith at e
  grind [drainAll]

theorem bridgeIn {r n c} (hs : s.memOk) (e : s.bridgeIn r n c = .next t) : t.memOk := by
  unfold State.bridgeIn at e
  grind [setRegion, onChannel, returnCredits, → drainWith, notNow]

theorem bridgeOut {r n c} (hs : s.memOk) (e : s.bridgeOut r n c = .next t) : t.memOk := by
  unfold State.bridgeOut at e
  grind [setRegion, onChannel, notNow]

theorem exec_bridge {stack first node inbound} (hs : s.memOk) (e : execBridge stack first node inbound s = .next t) :
    t.memOk := by
  unfold Machine.execBridge at e
  grind [→ bridgeIn, → bridgeOut, notNow]

theorem disagree {x y} (hs : s.memOk) : (s.disagree x y).memOk :=
  hs.post

theorem exec_connectionForm {x y} (hs : s.memOk) (e : execConnectionForm x y s = .next t) : t.memOk := by
  unfold Machine.execConnectionForm at e
  grind [freeValue, onChannel, disagree, notNow]

theorem exec_streamTransfer {x} (hs : s.memOk) (e : execStreamTransfer x s = .next t) : t.memOk := by
  unfold Machine.execStreamTransfer at e
  grind [sendFrame, onChannel, notNow]

theorem severConnections {p} (hs : s.memOk) : (s.severConnections p).memOk := by
  unfold State.severConnections
  grind [onEngines, abortRegion, foldl]

theorem exec_linkLoss {x y} (hs : s.memOk) (e : execLinkLoss x y s = .next t) : t.memOk := by
  unfold Machine.execLinkLoss at e
  grind [severConnections, notNow]

theorem writeMap {r} (hs : s.memOk) (e : s.writeMap r = .next t) : t.memOk := by
  unfold State.writeMap at e
  grind [→ waitFor, engWrite, declareHang]

theorem exec_hang {stack first} (hs : s.memOk) (e : execHang stack first s = .next t) : t.memOk := by
  unfold Machine.execHang at e
  grind [setRegion, → writeMap, notNow]

theorem saveRecord {p bs} (hs : s.memOk) : (s.saveRecord p bs).1.memOk := by
  unfold State.saveRecord
  grind [partWrite, claimSlots, freeSlots]

theorem exec_drainComplete {stack first} (hs : s.memOk) (e : execDrainComplete stack first s = .next t) : t.memOk := by
  unfold Machine.execDrainComplete at e
  grind [onEngines, parkFault, clearDeclined, → waitFor, sweepImages, forgetRegion, abortRegion, saveRecord, notNow]

theorem rearm {r h nodes routes} (hs : s.memOk) : (s.rearm r h nodes routes).memOk :=
  hs.setRegion

theorem endRestore {stack first} (hs : s.memOk) : (s.endRestore stack first).memOk := by
  unfold State.endRestore
  grind [freeSlots, setRegion]

theorem exec_regionRestore {stack first} (hs : s.memOk) (e : execRegionRestore stack first s = .next t) : t.memOk := by
  unfold Machine.execRegionRestore at e
  grind [onEngines, → loadRegion, rearm, endRestore, notNow]

/-! #### Fault -/

theorem answer {c done} (hs : s.memOk) : (s.answer c done).memOk :=
  hs.writeHome.setWord

theorem runCommand {name code} {act : State → Command → Option State} (hs : s.memOk) (hact : ∀ s b, s.memOk → ∀ t, act s b =
    some t → t.memOk) (e : s.runCommand name code act = .next t) : t.memOk := by
  unfold State.runCommand at e
  grind [answer, notNow]

theorem wakeAskers {asks st} (hs : s.memOk) : (s.wakeAskers asks st).memOk := hs

theorem parkEndpoints {asks} (hs : s.memOk) : (s.parkEndpoints asks).memOk :=
  hs.onEngines

theorem wakeFaulted {asks sub} (hs : s.memOk) : (s.wakeFaulted asks sub).memOk := by
  unfold State.wakeFaulted
  grind [onSlice, wakeAskers, foldl]

theorem faultAsks {asks sub level} (hs : s.memOk) : (s.faultAsks asks sub level).memOk := by
  unfold State.faultAsks
  grind [onCaches, parkFault, wakeAskers, parkEndpoints, wakeFaulted]

theorem answerMiss {level e m} (hs : s.memOk) : (s.answerMiss level e m).memOk :=
  hs.wakeAskers.foldl fun _ _ hs => hs.faultAsks

theorem exec_pageWalk {die} (hs : s.memOk) (e : execPageWalk die s = .next t) : t.memOk := by
  unfold Machine.execPageWalk at e
  grind [onCaches, admitStalled, walk, installLeaf, faultAsks, answerMiss, foldl, notNow]

theorem mapLanes {p need a} (hs : s.memOk) : (s.mapLanes p need a).1.memOk := by
  fun_induction State.mapLanes s p need a <;> grind [find]

theorem performParked {m p ms} (hs : s.memOk) : (s.performParked m p ms).memOk := by
  unfold State.performParked
  grind [onSlice, releaseAt, loadRegs, updateRegs, flushLine, dropLine, mbarAct, foldl]

theorem awaitParked {m p ms} (hs : s.memOk) : (s.awaitParked m p ms).1.memOk := by
  unfold State.awaitParked
  grind [releaseAt, awaitRemotes]

theorem wakeFrame {e x p} (hs : s.memOk) : (s.wakeFrame e x p).1.memOk := by
  unfold State.wakeFrame
  dsimp only
  split
  · exact hs
  split
  · exact hs
  split
  · exact hs
  · grind [reloadFrame, relink, freeSlots]

theorem parkAgain {party u p va kind sub level} (hs : s.memOk) : (s.parkAgain party u p va kind sub level).memOk :=
  hs.onSlice.parkFault

theorem mapMates {a} (hs : s.memOk) : (s.mapMates a).1.memOk := by
  fun_induction State.mapMates s a <;> grind [openMiss, mapLanes, parkAgain, Option.bind]

theorem wakeFrames {a} (hs : s.memOk) : (s.wakeFrames a).1.memOk := by
  fun_induction State.wakeFrames s a <;> grind [openMiss, setSlice, wakeFrame, parkAgain]

theorem awaitMates {a} (hs : s.memOk) : (s.awaitMates a).1.memOk := by
  fun_induction State.awaitMates s a <;> grind [awaitParked]

theorem performStores {p z i qs} (hs : s.memOk) : (s.performStores p z i qs).memOk := by
  unfold State.performStores
  grind [releaseAt, storeLanes, foldl]

theorem replayInst {inst} (hs : s.memOk) : (s.replayInst inst).memOk := by
  unfold State.replayInst
  grind [onSlice, performParked, mapMates, wakeFrames, awaitMates, performStores, foldl]

theorem retryHeld (hs : s.memOk) : s.retryHeld.memOk :=
  hs.foldl fun _ _ hs => hs.replayInst

theorem removeFault {id} (hs : s.memOk) : (s.removeFault id).memOk :=
  hs.onCaches

theorem replayWalk {a} (hs : s.memOk) : (s.replayWalk a).1.memOk := by
  unfold State.replayWalk
  grind [openMiss]

theorem replayAsk {a} (hs : s.memOk) : (s.replayAsk a).memOk := by
  unfold State.replayAsk
  grind [onSlice, replayWalk]

theorem replayFault {f} (hs : s.memOk) : (s.replayFault f).memOk :=
  hs.removeFault.foldl fun _ _ hs => hs.replayAsk

theorem declineAsk {f a} (hs : s.memOk) : (s.declineAsk f a).memOk := by
  unfold State.declineAsk
  grind [onCaches, onSlice, dropFree, dropArrival, declineStream]

theorem declineFault {f} (hs : s.memOk) : (s.declineFault f).memOk :=
  hs.removeFault.foldl fun _ _ hs => hs.declineAsk

theorem serveFault {name code seq} {act : State → FaultRec → State} (hs : s.memOk) (hact : ∀ s b, s.memOk → (act s b).memOk)
    (e : s.serveFault name code seq act = .next t) : t.memOk := by
  unfold State.serveFault at e
  split at e
  · split at e
    · cases e; exact hact _ _ hs
    · cases e
  · refine hs.runCommand (fun s c hs t h => ?_) e
    split at h
    · obtain ⟨f, -, rfl⟩ := Option.map_eq_some_iff.1 h
      exact hact _ _ hs
    · cases h

theorem exec_faultReplay {seq} (hs : s.memOk) (e : execFaultReplay seq s = .next t) : t.memOk := by
  unfold Machine.execFaultReplay at e
  grind [replayFault, → serveFault]

theorem exec_faultDecline {seq} (hs : s.memOk) (e : execFaultDecline seq s = .next t) : t.memOk := by
  unfold Machine.execFaultDecline at e
  grind [declineFault, → serveFault]

theorem applyHeld {name comm id} (hs : s.memOk) (e : s.applyHeld name comm id = .next t) : t.memOk := by
  unfold State.applyHeld at e
  grind [applyDeferred, notNow]

/-! #### Fetch -/

theorem fetchHalf {e u va} (hs : s.memOk) : (s.fetchHalf e u va).1.memOk := by
  unfold State.fetchHalf
  grind [freeValue, fetchRead]

theorem fetchFrom {e u pc n4 a} (hs : s.memOk) : (s.fetchFrom e u pc n4 a).1.memOk := by
  fun_induction State.fetchFrom s e u pc n4 a <;> grind [fetchHalf]

theorem fetch {x} (hs : s.memOk) : (s.fetch x).1.memOk :=
  hs.fetchFrom

/-! #### Waits -/

theorem formGang {xs} (hs : s.memOk) : (s.formGang xs).memOk := by
  unfold State.formGang
  grind [fresh, setSlice, foldl]

theorem endRound {group tag} (hs : s.memOk) : (s.endRound group tag).memOk :=
  hs.onGroup.foldl fun _ _ hs => hs.formGang

theorem exec_regangRelease {group tag} (hs : s.memOk) (e : execRegangRelease group tag s = .next t) : t.memOk := by
  unfold Machine.execRegangRelease at e
  grind [endRound, notNow]

theorem exec_pathRotation {u} (hs : s.memOk) (e : execPathRotation u s = .next t) : t.memOk := by
  unfold Machine.execPathRotation at e
  grind [setSlice, partIfApart, takeTrap, foldl, notNow]

theorem exec_watchdog {u} (hs : s.memOk) (e : execWatchdog u s = .next t) : t.memOk := by
  unfold Machine.execWatchdog at e
  grind [onSlice, takeTrap, notNow]

theorem rouse {x p} (hs : s.memOk) : (s.rouse x p).memOk := hs

theorem exec_sleepEnd {u} (hs : s.memOk) (e : execSleepEnd u s = .next t) : t.memOk := by
  unfold Machine.execSleepEnd at e
  grind [rouse, notNow]

theorem exec_waitwPoll {u} (hs : s.memOk) (e : execWaitwPoll u s = .next t) : t.memOk := by
  unfold Machine.execWaitwPoll at e
  grind [rouse, notNow]

theorem exec_waitwTimeout {u} (hs : s.memOk) (e : execWaitwTimeout u s = .next t) : t.memOk := by
  unfold Machine.execWaitwTimeout at e
  grind [rouse, notNow]

theorem exec_joinRecheck {u} (hs : s.memOk) (e : execJoinRecheck u s = .next t) : t.memOk := by
  unfold Machine.execJoinRecheck at e
  grind [rouse, notNow]

/-! #### Mover -/

theorem setMidnight {core m} (hs : s.memOk) : (s.setMidnight core m).memOk :=
  hs.onEngines

theorem restMidnight {core} (hs : s.memOk) : (s.restMidnight core).memOk := by
  unfold State.restMidnight
  grind [setMidnight]

theorem afterClaim {core u} (hs : s.memOk) : (s.afterClaim core u).memOk := by
  unfold State.afterClaim
  grind [restMidnight]

theorem comeHome {x g held kind} (hs : s.memOk) : (s.comeHome x g held kind).memOk := by
  unfold State.comeHome
  grind [setSlice, acquireAt, doRet, settleOut, Option.bind]

theorem haltAtFrame {x va} (hs : s.memOk) : (s.haltAtFrame x va).memOk :=
  hs.setSlice.haltGroup

theorem awaitHome {x g kind} (hs : s.memOk) : (s.awaitHome x g kind).memOk :=
  hs.setSlice

theorem arriveHome {x g kind} (hs : s.memOk) : (s.arriveHome x g kind).memOk := by
  unfold State.arriveHome
  grind [parkFault, freeSlots, reloadFrame, askFor, afterClaim, comeHome, awaitHome]

theorem exec_returnArrival {u} (hs : s.memOk) (e : execReturnArrival u s = .next t) : t.memOk := by
  unfold Machine.execReturnArrival at e
  grind [setSlice, arriveHome, notNow]

theorem proceed {x what need base} (hs : s.memOk) : (s.proceed x what need base).memOk := by
  unfold State.proceed
  grind [setSlice, partSlices, afterClaim, arriveHome]

theorem blockedFault {x what va} (hs : s.memOk) : (s.blockedFault x what va).memOk := by
  unfold State.blockedFault
  grind [onSlice, takeTrap, haltAtFrame]

theorem exec_frameClaim {u} (hs : s.memOk) (e : execFrameClaim u s = .next t) : t.memOk := by
  unfold Machine.execFrameClaim at e
  grind [clearDeclined, proceed, blockedFault, notNow]

theorem exec_midnightTrigger {core} (hs : s.memOk) (e : execMidnightTrigger core s = .next t) : t.memOk := by
  unfold Machine.execMidnightTrigger at e
  grind [setMidnight, notNow]

theorem gotFailed {α : Type} {β : Type} {g : Got α} {ok : State × Got β} (hs : s.memOk) (hok : (ok).1.memOk) :
    (Got.failed s g ok).1.memOk := by
  unfold Machine.Got.failed
  grind []

theorem spillFrame {p x k} (hs : s.memOk) : (s.spillFrame p x k).1.memOk := by
  unfold State.spillFrame
  grind [claimSlots, slotWrite, relink, gotFailed]

theorem spillFrames {p x a} (hs : s.memOk) : (s.spillFrames p x a).1.memOk := by
  fun_induction State.spillFrames s p x a <;> grind [spillFrame]

theorem spillWhole {p x} (hs : s.memOk) : (s.spillWhole p x).1.memOk := by
  unfold State.spillWhole
  grind [fresh, releaseAt, claimSlots, slotWrite, gotFailed, spillFrames]

theorem midnightFails {m va} (hs : s.memOk) : (s.midnightFails m va).memOk := by
  unfold State.midnightFails
  grind [setMidnight, blockedFault]

theorem midnightDid {m p busy} {r : State × Got Slice} (hs : s.memOk) (hr : (r).1.memOk) (e : s.midnightDid m p busy r = .next
    t) : t.memOk := by
  unfold State.midnightDid at e
  grind [parkFault, setSlice, → waitFor, setMidnight, midnightFails]

theorem spillNext {m p c} (hs : s.memOk) (e : s.spillNext m p c = .next t) : t.memOk := by
  unfold State.spillNext at e
  grind [setMidnight, spillFrame, spillWhole, → midnightDid, notNow]

theorem exec_midnightSpill {core} (hs : s.memOk) (e : execMidnightSpill core s = .next t) : t.memOk := by
  unfold Machine.execMidnightSpill at e
  grind [clearDeclined, restMidnight, midnightFails, → spillNext, notNow, Option.bind]

theorem reloadSlice {p x slot base} (hs : s.memOk) : (s.reloadSlice p x slot base).1.memOk := by
  unfold State.reloadSlice
  grind [freeSlots, slotRead]

theorem exec_sliceReload {u} (hs : s.memOk) (e : execSliceReload u s = .next t) : t.memOk := by
  unfold Machine.execSliceReload at e
  repeat' split at e
  all_goals grind [notNow, clearDeclined, haltAtFrame, reloadSlice, setSlice, partSlices, acquireAt, parkFault, → waitFor]

theorem setPhase {u ph} (hs : s.memOk) : (s.setPhase u ph).memOk :=
  hs.onSlice

theorem exec_migrationRequest {u} (hs : s.memOk) (e : execMigrationRequest u s = .next t) : t.memOk := by
  unfold Machine.execMigrationRequest at e
  grind [setPhase, notNow]

theorem exec_migrationGrant {u} (hs : s.memOk) (e : execMigrationGrant u s = .next t) : t.memOk := by
  unfold Machine.execMigrationGrant at e
  repeat' split at e
  all_goals grind [notNow, setPhase, setSlice]

theorem sendAway {x m slot base} (hs : s.memOk) : (s.sendAway x m slot base).memOk := by
  unfold State.sendAway
  grind [setSlice, releaseAt, liveSet]

theorem sendBack {x m kind} (hs : s.memOk) : (s.sendBack x m kind).memOk := by
  unfold State.sendBack
  grind [setSlice, releaseAt, liveSet]

theorem exec_continuationSend {u} (hs : s.memOk) (e : execContinuationSend u s = .next t) : t.memOk := by
  unfold Machine.execContinuationSend at e
  grind [setSlice, sendAway, sendBack, notNow]

theorem exec_continuationArrival {u} (hs : s.memOk) (e : execContinuationArrival u s = .next t) : t.memOk := by
  unfold Machine.execContinuationArrival at e
  grind [setSlice, acquireAt, notNow]

/-! #### Switch -/

theorem gotSave {α : Type} {g : State × Got α} (hg : (g).1.memOk) {r} (e : Got.save g = .ok r) : r.1.memOk := by
  unfold Machine.Got.save at e
  grind []

theorem poisonSlots {p slot a} (hs : s.memOk) (e : s.poisonSlots p slot a = .ok t) : t.memOk := by
  fun_induction State.poisonSlots s p slot a <;> grind [find, pkgRead, pkgWrite]

theorem writeRecord {p bs qs} (hs : s.memOk) {r} (e : s.writeRecord p bs qs = .ok r) : r.1.memOk := by
  obtain ⟨⟨s, ks⟩, h, e⟩ := except_bind_eq_ok.1 e
  obtain ⟨s, h2, e⟩ := except_bind_eq_ok.1 e
  cases e
  exact (gotSave hs.saveRecord h).poisonSlots h2

theorem writeIf {p present bs poisoned} (hs : s.memOk) {r} (e : s.writeIf p present bs poisoned = .ok r) : r.1.memOk := by
  unfold State.writeIf at e
  grind [→ writeRecord]

theorem writeSegments {p chain ess} (hs : s.memOk) {r} (e : s.writeSegments p chain ess = .ok r) : r.1.memOk := by
  induction ess generalizing s chain with
  | nil => cases e; exact hs
  | cons es ess ih =>
    obtain ⟨⟨s, k⟩, h, e⟩ := except_bind_eq_ok.1 e
    exact ih (hs.writeRecord h) e

theorem switchOut {p core} (hs : s.memOk) (e : s.switchOut p core = .ok t) : t.memOk := by
  obtain ⟨⟨s, chain⟩, h, e⟩ := except_bind_eq_ok.1 e
  have hs := hs.writeSegments h
  have hd : ∀ {c : Prop} [Decidable c] {d f}, (State.onCaches (if c then s else s.setDeque d) f).memOk := by
    intros; split; exacts [hs.onCaches, hs.setDeque.onCaches]
  obtain ⟨⟨s, k⟩, h, e⟩ := except_bind_eq_ok.1 e
  have hs := hd.writeRecord h
  obtain ⟨⟨s, k⟩, h, e⟩ := except_bind_eq_ok.1 e
  have hs := hs.writeIf h
  cases e
  exact hs

theorem putRoof {core bs ps} (hs : s.memOk) : (s.putRoof core bs ps).memOk :=
  ⟨hs.1, Memory.setBytes_wf _ _ hs.2⟩

theorem restoreUnits {p a} (hs : s.memOk) : (s.restoreUnits p a).1.memOk := by
  fun_induction State.restoreUnits s p a <;> grind [freeSlots, slotRead, putBounds, putRoof, State.memOk]

theorem requestFor {p e} (hs : s.memOk) (he : s.requestFor p e = some t) : t.memOk := by
  unfold State.requestFor at he
  grind [openMiss, parkFault]

/-! #### Launcher -/

theorem served {q} (hs : s.memOk) : (s.served q).memOk := hs

theorem stopQueue {q code} (hs : s.memOk) : (s.stopQueue q code).memOk :=
  hs.setWord.writeHome

theorem setHead {q n} (hs : s.memOk) : (s.setHead q n).memOk :=
  hs.setWord

theorem addGroup {w ctx p idx} (hs : s.memOk) (e : s.addGroup w ctx p idx = some t) : t.memOk := by
  unfold State.addGroup at e
  grind [fresh, State.memOk]

theorem addGroups {w ctx p ks} (hs : s.memOk) (e : s.addGroups w ctx p ks = some t) : t.memOk := by
  induction ks generalizing s with
  | nil => cases e; exact hs
  | cons k ks ih =>
    obtain ⟨u, h, e⟩ := Option.bind_eq_some_iff.1 e
    exact ih (hs.addGroup h) e

theorem zeroRange {pa n} (hs : s.memOk) : (s.zeroRange pa n).memOk :=
  ⟨Memory.filter_wf _ hs.1, hs.2⟩

theorem clearFor {w} (hs : s.memOk) : (s.clearFor w).memOk :=
  hs.zeroRange.onEngines

theorem place {l work core} (hs : s.memOk) (e : s.place l work core = some t) : t.memOk := by
  unfold State.place at e
  grind [fresh, → addGroups, clearFor, State.memOk]

theorem readPacket {ring n} (hs : s.memOk) : (s.readPacket ring n).1.memOk := by
  unfold State.readPacket
  grind [readHome]

theorem exec_packetAccept {queue} (hs : s.memOk) (e : execPacketAccept queue s = .next t) : t.memOk := by
  unfold Machine.execPacketAccept at e
  grind [fresh, postSchedule, freshCode, served, stopQueue, setHead, readPacket, State.memOk, notNow]

theorem roomTaken {l} (hs : s.memOk) : (s.roomTaken l).memOk := hs

theorem noteStart {l work die core} (hs : s.memOk) : (s.noteStart l work die core).memOk := by
  unfold State.noteStart
  grind [onLaunch, roomTaken, State.memOk]

theorem startWith {b} {start : State → Option State} (hs : s.memOk) (hb : ∀ u, b = .here u → ∀ t, start u = some t → t.memOk)
    (e : s.startWith b start = some t) : t.memOk := by
  unfold State.startWith at e
  split at e
  · exact hb _ rfl _ e
  · exact hs.clearDeclined.requestFor e

theorem startOn {l work die core} (hs : s.memOk) (e : s.startOn l work die core = some t) : t.memOk := by
  obtain ⟨u, h, rfl⟩ := Option.map_eq_some_iff.1 e
  exact (hs.place h).noteStart.flashInvalidate

theorem switchEach {core cs} (hs : s.memOk) (e : s.switchEach core cs = .here t) : t.memOk := by
  induction cs generalizing s with
  | nil => cases e; exact hs
  | cons c cs ih =>
    unfold State.switchEach at e
    split at e
    · next h => exact ih (hs.switchOut h) e
    · cases e

theorem bringUnits {core ctx} (hs : s.memOk) (e : s.bringUnits core ctx = .here t) : t.memOk := by
  unfold State.bringUnits at e
  split at e
  · cases e
  · next h =>
    have hs := switchEach hs.clearDeclined h
    split at e
    · next h => cases e; exact gotSave hs.restoreUnits h
    · cases e

theorem bringAll {ctx cores} (hs : s.memOk) (e : s.bringAll ctx cores = .here t) : t.memOk := by
  induction cores generalizing s with
  | nil => cases e; exact hs
  | cons c cs ih =>
    unfold State.bringAll at e
    split at e
    · next h => exact ih (bringUnits hs h) e
    · next h => exact bringUnits hs e

theorem dispatchOne {l work die} (hs : s.memOk) (e : s.dispatchOne l work die = some t) : t.memOk := by
  obtain ⟨c, -, e⟩ := Option.bind_eq_some_iff.1 e
  exact startWith hs (fun u h t h2 => startOn (bringUnits hs h) h2) e

theorem startAll {l ws} (hs : s.memOk) (e : s.startAll l ws = some t) : t.memOk := by
  induction ws generalizing s with
  | nil => cases e; exact hs
  | cons w ws ih =>
    obtain ⟨u, h, e⟩ := Option.bind_eq_some_iff.1 e
    exact ih (hs.startOn h) e

theorem dispatchAll {l} (hs : s.memOk) (e : s.dispatchAll l = some t) : t.memOk := by
  obtain ⟨c, -, e⟩ := Option.bind_eq_some_iff.1 e
  exact startWith hs (fun u h t h2 => (bringAll hs h).startAll h2) e

theorem regroup {w ctx gs} (hs : s.memOk) {r} (e : s.regroup w ctx gs = some r) : r.1.memOk := by
  induction gs generalizing s r with
  | nil => cases e; exact hs
  | cons g gs ih =>
    unfold State.regroup at e
    dsimp only at e
    split at e
    · cases e
    · obtain ⟨q, h, rfl⟩ := Option.map_eq_some_iff.1 e
      have := ih (hs.onGroup.foldl fun _ _ hs => hs.onSlice) h
      exact this

theorem seat {w} (hs : s.memOk) {r} (e : s.seat w = some r) : r.1.memOk := by
  unfold State.seat at e
  grind [onGroup, onWg, → regroup, foldl]

theorem couldStart {l die} (hs : s.memOk) (e : s.couldStart l die = some t) : t.memOk := by
  unfold State.couldStart at e
  repeat' split at e
  · cases e
  · exact hs.dispatchAll e
  · cases e
  · obtain ⟨w, -, e⟩ := Option.bind_eq_some_iff.1 e
    exact hs.dispatchOne e

theorem dispatchFirst {die a} (hs : s.memOk) (e : s.dispatchFirst die a = some t) : t.memOk := by
  fun_induction State.dispatchFirst s die a <;> grind [→ couldStart]

theorem exec_workgroupDispatch {die} (hs : s.memOk) (e : execWorkgroupDispatch die s = .next t) : t.memOk := by
  unfold Machine.execWorkgroupDispatch at e
  grind [→ dispatchFirst, notNow]

theorem exec_chunkSteal {die} (hs : s.memOk) (e : execChunkSteal die s = .next t) : t.memOk := by
  unfold Machine.execChunkSteal at e
  grind [onLaunch, notNow]

theorem releaseWg {w} (hs : s.memOk) : (s.releaseWg w).memOk := by
  unfold State.releaseWg
  grind [onCaches, onEngines, drainQuad, flushDeferred, onLaunch, unbindQueues, foldl, State.memOk]

theorem reapFrom {a} (hs : s.memOk) : (s.reapFrom a).memOk := by
  fun_induction State.reapFrom s a <;> grind [releaseWg]

theorem reap (hs : s.memOk) : s.reap.memOk :=
  hs.reapFrom

theorem exec_launchComplete {launch} (hs : s.memOk) (e : execLaunchComplete launch s = .next t) : t.memOk := by
  unfold Machine.execLaunchComplete at e
  grind [drainWts, setWord, doneArrive, State.memOk, notNow]

theorem noteWait {die x} (hs : s.memOk) : (s.noteWait die x).memOk := by
  unfold State.noteWait
  grind [onWg, onLaunch]

theorem stopMidnight {core} (hs : s.memOk) : (s.stopMidnight core).memOk :=
  hs.setMidnight

theorem stopWgs {ws for_} (hs : s.memOk) : (s.stopWgs ws for_).memOk := by
  unfold State.stopWgs
  grind [onWg, stopMidnight, foldl, State.memOk]

theorem exec_timeSlice {die} (hs : s.memOk) (e : execTimeSlice die s = .next t) : t.memOk := by
  unfold Machine.execTimeSlice at e
  grind [noteWait, stopWgs, notNow]

/-! #### Saver -/

theorem saveSlice {p x} (hs : s.memOk) {r} (e : s.saveSlice p x = .ok r) : r.1.memOk := by
  obtain ⟨⟨s, parks⟩, h, e⟩ := except_bind_eq_ok.1 e
  have hs := hs.writeIf h
  dsimp only at e
  split at e
  · cases e; exact hs
  split at e
  · cases e; exact hs.setSlice
  obtain ⟨⟨s, y⟩, h, e⟩ := except_bind_eq_ok.1 e
  have hs := gotSave hs.spillFrames h
  obtain ⟨⟨s, k⟩, h, e⟩ := except_bind_eq_ok.1 e
  have hs := hs.writeRecord h
  cases e
  exact hs.setSlice

theorem saveSlices {p us} (hs : s.memOk) {r} (e : s.saveSlices p us = .ok r) : r.1.memOk := by
  induction us generalizing s r with
  | nil => cases e; exact hs
  | cons u us ih =>
    unfold State.saveSlices at e
    split at e
    · exact ih hs e
    · obtain ⟨⟨s, k, parks⟩, h, e⟩ := except_bind_eq_ok.1 e
      obtain ⟨⟨s, more, slots⟩, h2, e⟩ := except_bind_eq_ok.1 e
      have := ih (hs.saveSlice h) h2
      cases e
      exact this

theorem drainLeft {ctx} (hs : s.memOk) : (s.drainLeft ctx).memOk := by
  unfold State.drainLeft
  grind [startDrain]

theorem withdraw {who} (hs : s.memOk) : (s.withdraw who).memOk :=
  hs.onCaches

theorem holdCopy {id} (hs : s.memOk) : (s.holdCopy id).memOk := by
  unfold State.holdCopy
  grind [onEngines, flushCopy, withdraw]

theorem saveAll {w} (hs : s.memOk) (e : s.saveAll w = .ok t) : t.memOk := by
  unfold State.saveAll at e
  have hr : ∀ {xs : List Slice}, (xs.foldl (fun s x => if x.live then s.releaseAt (s.env x) x .pkg else s) s).memOk := by
    refine fun {xs} => hs.foldl fun s x hs => ?_
    split
    · exact hs.releaseAt
    · exact hs
  obtain ⟨⟨s, head⟩, h, e⟩ := except_bind_eq_ok.1 e
  have hs := gotSave hr.drainQuad.flushDeferred.quadClean.meetRange.claimSlots h
  obtain ⟨⟨s, scr⟩, h, e⟩ := except_bind_eq_ok.1 e
  have hs := hs.writeIf h
  obtain ⟨⟨s, acc⟩, h, e⟩ := except_bind_eq_ok.1 e
  have hs := hs.writeIf h
  obtain ⟨⟨s, slots, parks⟩, h, e⟩ := except_bind_eq_ok.1 e
  have hs := hs.saveSlices h
  obtain ⟨⟨s, tg⟩, h, e⟩ := except_bind_eq_ok.1 e
  have hs := hs.writeRecord h
  obtain ⟨⟨s, copy⟩, h, e⟩ := except_bind_eq_ok.1 e
  have hs := hs.writeIf h
  obtain ⟨⟨s, queue⟩, h, e⟩ := except_bind_eq_ok.1 e
  have hs := hs.writeIf h
  obtain ⟨⟨s, tile⟩, h, e⟩ := except_bind_eq_ok.1 e
  have hs := hs.writeIf h
  obtain ⟨⟨s, u⟩, h, e⟩ := except_bind_eq_ok.1 e
  have hs := gotSave hs.slotWrite h
  obtain ⟨s, h, e⟩ := except_ite_bind e
  have hs : s.memOk := by
    rcases h with h | ⟨⟨⟩⟩
    · exact hs.switchOut h
    · exact hs
  cases except_unless e
  exact drainLeft (by exact hs)

theorem abandonSave {w} (hs : s.memOk) : (s.abandonSave w).memOk :=
  (hs.foldl fun _ _ hs => hs.onEngines.onWg).postSchedule

theorem exec_workgroupSave {wg} (hs : s.memOk) (e : execWorkgroupSave wg s = .next t) : t.memOk := by
  unfold Machine.execWorkgroupSave at e
  grind [parkFault, clearDeclined, setSlice, → waitFor, holdCopy, → saveAll, abandonSave, foldl, notNow]

theorem putScratch {pa bs ps} (hs : s.memOk) : (s.putScratch pa bs ps).memOk :=
  hs.poke.addPoison

theorem putSets {core bs ps a} (hs : s.memOk) : (s.putSets core bs ps a).memOk := by
  fun_induction State.putSets s core bs ps a <;> grind [putAcc]

theorem reloadAll {p old bases xs} (hs : s.memOk) (e : s.reloadAll p old bases xs = .ok t) : t.memOk := by
  induction xs generalizing s with
  | nil => cases e; exact hs
  | cons x xs ih =>
    unfold State.reloadAll at e
    grind [setSlice, reloadSlice]

theorem restoreAll {w} (hs : s.memOk) (e : s.restoreAll w = .ok t) : t.memOk := by
  unfold State.restoreAll at e
  have optional : ∀ {s s' : State} {p slot off n bs ps}, s.memOk →
      ((Except.ok (s, [], []) : Except SaveErr _) = Except.ok (s', bs, ps) ∨ Got.save (s.slotRead p slot off n) = .ok (s', bs,
        ps)) → s'.memOk := by
    rintro s s' p slot off n bs ps hs (⟨⟨⟩⟩ | h)
    · exact hs
    · exact gotSave hs.slotRead h
  obtain ⟨⟨s, hdr, ps⟩, h, e⟩ := except_bind_eq_ok.1 e
  have hs := gotSave hs.slotRead h
  obtain ⟨⟨s, scr, ps⟩, h, e⟩ := except_ite_bind e
  have hs := optional hs h
  obtain ⟨⟨s, acc, qs⟩, h, e⟩ := except_ite_bind e
  have hs := optional hs h
  dsimp only at e
  split at e
  · cases e
  · next h =>
    have hs := hs.putScratch.putSets.onEngines.seat h
    obtain ⟨t, h, e⟩ := except_bind_eq_ok.1 e
    have hs := hs.reloadAll h
    have hw : ∀ {u : State} {xs : List Slice}, u.memOk → (xs.foldl (fun t x =>
        x.parked.foldl (fun t p => t.withdraw (.parked x.uid p.id)) (t.withdraw (.slice x.uid))) u).memOk :=
      fun hu => hu.foldl fun _ _ hs => hs.withdraw.foldl fun _ _ hs => hs.withdraw
    split at e
    · cases e
      exact acquireAt (hw (show (t.freeSlots (saveParty w.uid w.core _) w.saveSlots).memOk from hs.freeSlots))
    · cases e
      exact hw (show (t.freeSlots (saveParty w.uid w.core _) w.saveSlots).memOk from hs.freeSlots)

theorem restoreEach {a} (hs : s.memOk) (e : s.restoreEach a = .ok t) : t.memOk := by
  fun_induction State.restoreEach s a <;> grind [→ restoreAll]

theorem exec_workgroupResume {wg} (hs : s.memOk) (e : execWorkgroupResume wg s = .next t) : t.memOk := by
  unfold Machine.execWorkgroupResume at e
  split at e
  · cases e
  dsimp only at e
  split at e
  · cases e
  have hs : ∀ ws : List Workgroup, (ws.foldl (fun s v => s.clearDeclined (.save v.uid)) s).memOk :=
    fun _ => hs.foldl fun _ _ hs => hs.clearDeclined
  split at e
  · split at e
    · next h => cases e; exact (hs _).clearDeclined.requestFor h
    · cases e
  · next hb =>
    split at e
    · next h => cases e; exact ((bringAll (hs _) hb).restoreEach h).roomTaken.retryHeld
    · cases e; exact (hs _).parkFault
    · exact (hs _).waitFor e
    · cases e

/-! #### Events -/

theorem numberReported {e seq host frame} (hs : s.memOk) : (s.numberReported e seq host frame).memOk := by
  unfold State.numberReported
  grind [onCaches, onGroup]

theorem ringWrite {off bs} (hs : s.memOk) (e : s.ringWrite off bs = some t) : t.memOk := by
  unfold State.ringWrite at e
  grind [writeHome, setWord]

theorem exec_eventSequence {source} (hs : s.memOk) (e : execEventSequence source s = .next t) : t.memOk := by
  unfold Machine.execEventSequence at e
  grind [onOutside, numberReported, → ringWrite, notNow, Option.bind]

/-! #### Host -/

theorem mapWindow {w need va n} (hs : s.memOk) : (s.mapWindow w need va n).1.memOk := by
  unfold State.mapWindow
  grind [mapPieces]

theorem sendOut {rs} (hs : s.memOk) : (s.sendOut rs).memOk :=
  hs.onOutside

theorem reply {r} (hs : s.memOk) : (s.reply r).memOk := by
  unfold State.reply
  grind [freeValue, sendOut]

theorem postFault {ctx va k sub level} (hs : s.memOk) : (s.postFault ctx va k sub level).memOk :=
  hs.post

theorem hostFault {w va sub level} (hs : s.memOk) : (s.hostFault w va sub level).memOk :=
  hs.postFault.reply

theorem hostAccess {name key off n right wr} {act : State → List (Mapping × ℕ) → State} (hs : s.memOk) (hact : ∀ s b, s.memOk
    → (act s b).memOk) (e : s.hostAccess name key off n right wr act = .next t) : t.memOk := by
  unfold State.hostAccess at e
  grind [mapWindow, reply, hostFault, notNow]

theorem exec_rdmaWrite {key off data} (hs : s.memOk) (e : execRdmaWrite key off data s = .next t) : t.memOk := by
  unfold Machine.execRdmaWrite at e
  grind [writePieces, reply, → hostAccess]

theorem exec_rdmaRead {key off len} (hs : s.memOk) (e : execRdmaRead key off len s = .next t) : t.memOk := by
  unfold Machine.execRdmaRead at e
  grind [freeBytes, readPieces, reply, → hostAccess]

theorem hostAtomic {name key off f} (hs : s.memOk) (e : s.hostAtomic name key off f = .next t) : t.memOk := by
  unfold State.hostAtomic at e
  split at e
  · cases e; exact hs.reply
  dsimp only at e
  split at e
  · cases e; exact hs.reply
  · refine hs.hostAccess (fun s ms hs => ?_) e
    grind [freeValue, homeRmw, scratchRmw, freeBytes, reply]

theorem exec_invalidRequestNak {_op} (hs : s.memOk) (e : execInvalidRequestNak _op s = .next t) : t.memOk := by
  unfold Machine.execInvalidRequestNak at e
  grind [reply]

theorem exec_congestionNotification (hs : s.memOk) (e : execCongestionNotification s = .next t) : t.memOk := by
  unfold Machine.execCongestionNotification at e
  grind [freeValue, sendOut]

theorem resumeGroup {g} (hs : s.memOk) : (s.resumeGroup g).memOk := by
  unfold State.resumeGroup
  grind [onGroup, State.memOk]

theorem exec_groupResume {seq} (hs : s.memOk) (e : execGroupResume seq s = .next t) : t.memOk := by
  unfold Machine.execGroupResume at e
  split at e
  · grind [notNow, resumeGroup]
  · refine hs.runCommand (fun s c hs t h => ?_) e
    split at h
    · obtain ⟨g, -, rfl⟩ := Option.map_eq_some_iff.1 h
      exact hs.resumeGroup
    · cases h

theorem endAt {x} (hs : s.memOk) : (s.endAt x).memOk := by
  unfold State.endAt
  grind [setSlice, endSlice]

theorem cancelCmds {p} (hs : s.memOk) : (s.cancelCmds p).memOk :=
  hs.foldl fun _ _ hs => hs.setCmd.completeCmd

theorem terminate {l} (hs : s.memOk) : (s.terminate l).memOk :=
  ((hs.foldl fun _ _ hs => hs.endAt).cancelCmds).onLaunch

theorem exec_terminate {seq} (hs : s.memOk) (e : execTerminate seq s = .next t) : t.memOk := by
  unfold Machine.execTerminate at e
  split at e
  · grind [notNow, terminate]
  · refine hs.runCommand (fun s c hs t h => ?_) e
    obtain ⟨g, -, rfl⟩ := Option.map_eq_some_iff.1 h
    exact hs.terminate

theorem exec_preempt (hs : s.memOk) (e : execPreempt s = .next t) : t.memOk := by
  unfold Machine.execPreempt at e
  grind [→ runCommand, stopWgs]

theorem exec_spillGrow (hs : s.memOk) (e : execSpillGrow s = .next t) : t.memOk := by
  unfold Machine.execSpillGrow at e
  grind [onCtx, → runCommand, replayFault, foldl]

theorem askRestore {r} (hs : s.memOk) : (s.askRestore r).memOk :=
  hs.onEngines

theorem exec_regionEnd (hs : s.memOk) (e : execRegionEnd s = .next t) : t.memOk := by
  refine hs.runCommand (fun s c hs t h => ?_) e
  split at h
  · cases h
  split at h
  · obtain ⟨r, -, rfl⟩ := Option.map_eq_some_iff.1 h
    exact hs.askRestore
  · obtain ⟨r, -, rfl⟩ := Option.map_eq_some_iff.1 h
    exact hs.freeRegion

theorem exec_regionSave (hs : s.memOk) (e : execRegionSave s = .next t) : t.memOk := by
  refine hs.runCommand (fun s c hs t h => ?_) e
  split at h
  · cases h
  split at h
  · obtain ⟨r, -, rfl⟩ := Option.map_eq_some_iff.1 h
    exact hs.askRestore
  · obtain ⟨r, -, rfl⟩ := Option.map_eq_some_iff.1 h
    exact hs.startDrain

theorem writeRun {pa bs} (hs : s.memOk) : (s.writeRun pa bs).memOk :=
  hs.writePieces

theorem exec_reset (e : execReset s = .next t) : t.memOk := by
  cases e
  exact ⟨rfl, rfl⟩

theorem exec_attest (hs : s.memOk) (e : execAttest s = .next t) : t.memOk := by
  unfold Machine.execAttest at e
  grind [→ runCommand, writeRun]

theorem exec_flashImage (hs : s.memOk) (e : execFlashImage s = .next t) : t.memOk := by
  unfold Machine.execFlashImage at e
  grind [onOutside, → runCommand]

theorem exec_dutySet (hs : s.memOk) (e : execDutySet s = .next t) : t.memOk := by
  unfold Machine.execDutySet at e
  grind [→ runCommand, State.memOk]

theorem exec_ctxSetup (hs : s.memOk) (e : execCtxSetup s = .next t) : t.memOk := by
  unfold Machine.execCtxSetup at e
  grind [parkFault, clearDeclined, partWrite, answer, State.memOk, notNow]

theorem endRegions {ctx} (hs : s.memOk) : (s.endRegions ctx).memOk :=
  ((hs.foldl fun _ _ hs => hs.abortRegion).foldl fun _ _ hs => hs.freeRegion).onEngines

theorem clearContext {ctx} (hs : s.memOk) : (s.clearContext ctx).memOk := by
  unfold State.clearContext
  grind [onEngines, invalidate, State.memOk]

theorem exec_ctxTeardown (hs : s.memOk) (e : execCtxTeardown s = .next t) : t.memOk := by
  unfold Machine.execCtxTeardown at e
  grind [answer, cancelCmds, endRegions, clearContext, notNow]

theorem exec_powerThrottle (hs : s.memOk) (e : execPowerThrottle s = .next t) : t.memOk := by
  unfold Machine.execPowerThrottle at e
  grind [State.memOk, notNow]

theorem exec_throttleRelease (hs : s.memOk) (e : execThrottleRelease s = .next t) : t.memOk := by
  unfold Machine.execThrottleRelease at e
  grind [State.memOk, notNow]

theorem exec_counterReport (hs : s.memOk) (e : execCounterReport s = .next t) : t.memOk := by
  unfold Machine.execCounterReport at e
  grind [onOutside, writeRun, notNow]

/-! #### Peers -/

theorem takeAck {f} (hs : s.memOk) : (s.takeAck f).memOk :=
  hs.setPair

theorem acceptFrame {name kind bs} {act : State → Datagram → Option State} (hs : s.memOk) (hact : ∀ s b, s.memOk → ∀ t, act s
    b = some t → t.memOk) (e : s.acceptFrame name kind bs act = .next t) : t.memOk := by
  unfold State.acceptFrame at e
  grind [setPair, sendAck, takeAck, notNow]

theorem streamEntry {src bs} (hs : s.memOk) : (s.streamEntry src bs).memOk := by
  unfold State.streamEntry
  grind [onEngines]

theorem streamEntries {src bs a} (hs : s.memOk) : (s.streamEntries src bs a).memOk := by
  fun_induction State.streamEntries s src bs a <;> grind [streamEntry]

theorem exec_norzenStream {frame} (hs : s.memOk) (e : execNorzenStream frame s = .next t) : t.memOk := by
  unfold Machine.execNorzenStream at e
  grind [→ acceptFrame, streamEntries]

theorem peerRmw {m n f} (hs : s.memOk) : (s.peerRmw m n f).1.memOk := by
  unfold State.peerRmw
  grind [freeValue, homeRmw, scratchRmw]

theorem peerUpdates {i a} (hs : s.memOk) : (s.peerUpdates i a).1.memOk := by
  fun_induction State.peerUpdates s i a <;> grind [peerRmw]

theorem performCarried {i q va ms} (hs : s.memOk) : (s.performCarried i q va ms).1.memOk := by
  unfold State.performCarried
  grind [readPieces, writePieces, peerUpdates]

theorem answerRequest {q} (hs : s.memOk) {r} (e : s.answerRequest q = some r) : r.1.memOk := by
  unfold State.answerRequest at e
  grind [mapPieces, postFault, performCarried, Option.bind]

theorem exec_norzenMemoryRequest {frame} (hs : s.memOk) (e : execNorzenMemoryRequest frame s = .next t) : t.memOk := by
  unfold Machine.execNorzenMemoryRequest at e
  refine hs.acceptFrame (fun s f hs t h => ?_) e
  obtain ⟨r, ha, rfl⟩ := Option.map_eq_some_iff.1 h
  exact (hs.answerRequest ha).sendFrame

theorem remoteReady {u} (hs : s.memOk) : (s.remoteReady u).memOk := by
  unfold State.remoteReady
  grind [onSlice]

theorem dropRemote {r} (hs : s.memOk) : (s.dropRemote r).memOk :=
  hs.onOutside.onSlice

theorem takeAnswer {r a} (hs : s.memOk) : (s.takeAnswer r a).memOk := by
  unfold State.takeAnswer
  grind [onCaches, onOutside, onSlice, endRemotes, remoteReady, dropRemote]

theorem exec_norzenMemoryReply {frame} (hs : s.memOk) (e : execNorzenMemoryReply frame s = .next t) : t.memOk := by
  unfold Machine.execNorzenMemoryReply at e
  grind [→ acceptFrame, takeAnswer]

theorem exec_norzenPodBarrier {frame} (hs : s.memOk) (e : execNorzenPodBarrier frame s = .next t) : t.memOk := by
  unfold Machine.execNorzenPodBarrier at e
  grind [onOutside, → acceptFrame]

theorem exec_norzenAck {frame} (hs : s.memOk) (e : execNorzenAck frame s = .next t) : t.memOk := by
  unfold Machine.execNorzenAck at e
  grind [takeAck, notNow]

theorem exec_norzenFrameDrop {frame} (hs : s.memOk) (e : execNorzenFrameDrop frame s = .next t) : t.memOk := by
  unfold Machine.execNorzenFrameDrop at e
  grind [notNow]

theorem exec_frameResend {part} (hs : s.memOk) (e : execFrameResend part s = .next t) : t.memOk := by
  unfold Machine.execFrameResend at e
  grind [onOutside, setPair, notNow]

theorem loseRemote {r} (hs : s.memOk) : (s.loseRemote r).memOk := by
  unfold State.loseRemote
  grind [dropStore, dropRemote, takeAnswer]

theorem exec_pairLost {part} (hs : s.memOk) (e : execPairLost part s = .next t) : t.memOk := by
  unfold Machine.execPairLost at e
  grind [setPair, severConnections, terminate, loseRemote, foldl, notNow]

/-! #### Dispatch -/

theorem exec_next {i} (hs : s.memOk) (e : exec i s = .next t) : t.memOk := by
  cases i with
  | iadd | isub | imul | imulh | imin | imax | iaddShort | isubShort | imulShort =>
    delta exec at e
    dsimp only at e
    exact hs.intOp e
  | imad | sel | lea | iaddi | fcmp | fdot2 | bscale | bpack | bunpk | fmtset | fmtget | shfl | vote | gred | mset | mget |
    scan | nop | iaddi5Short =>
    delta exec at e
    dsimp only at e
    exact hs.runLanes e
  | icmp | icmpi =>
    delta exec at e
    dsimp only at e
    exact hs.intCompare e
  | and | or | xor | andn | orn | xnor | shl | shr | sha | rotl | rotr | div | rem | andShort | orShort | xorShort | shlShort
    | shrShort | shaShort =>
    delta exec at e
    dsimp only at e
    exact hs.wordOp e
  | not | popc | clz | ctz | brev | iabs | ineg | sext8 | sext16 | zext8 | zext16 | fabs | fneg =>
    delta exec at e
    dsimp only at e
    exact hs.unaryOp e
  | mov | movShort =>
    delta exec at e
    dsimp only at e
    exact hs.movOp e
  | andi | ori | xori | shli | shri | shai | rotli | rotri =>
    delta exec at e
    dsimp only at e
    exact hs.immOp e
  | fadd | fsub | fmul | ffma | fmin | fmax | ffloor | fceil | ftrunc | frint | faddShort | fsubShort | fmulShort | fmaxShort
    | fminShort =>
    delta exec at e
    dsimp only at e
    exact hs.floatOp e
  | frcp | frsq | fsqrt | fexp2 | flog2 | fsin | fcos | ftanh | fsigm =>
    delta exec at e
    dsimp only at e
    exact hs.specialOp e
  | cvtf | cvti =>
    delta exec at e
    dsimp only at e
    exact hs.convOp e
  | mand | mor | mnot | mxor =>
    delta exec at e
    dsimp only at e
    exact hs.maskOp e
  | bany | ball | bnone | bdiv =>
    delta exec at e
    dsimp only at e
    exact hs.branchOn e
  | qmin | qmax | qget | qset =>
    delta exec at e
    dsimp only at e
    exact hs.boundOp e
  | tdone | tdoneAbandon =>
    delta exec at e
    dsimp only at e
    exact hs.endTask e
  | copy | copymm =>
    delta exec at e
    dsimp only at e
    exact hs.copyGang e
  | mma | mmaz =>
    delta exec at e
    dsimp only at e
    exact hs.mmaGang e
  | accld | accst =>
    delta exec at e
    dsimp only at e
    exact hs.moveSet e
  | mbarInit => exact hs.exec_mbarInit e
  | mbarArrive => exact hs.exec_mbarArrive e
  | mbarInval => exact hs.exec_mbarInval e
  | mbarWait | mbarTest =>
    delta exec at e
    dsimp only at e
    exact hs.mbarWatch e
  | pass | fork2 | add | sub | mul | fma | max | min | abs | neg | scale | exp2 | rcp | cmp | steer | merge | carry | filter
    | gate | redadd | redmax | redmin | count | rstat | rbuf | isect | cvt | lut =>
    delta exec at e
    dsimp only at e
    exact hs.element e
  | snk | snkbar =>
    delta exec at e
    dsimp only at e
    exact hs.sinkStep e
  | combineFlush | quantApply =>
    delta exec at e
    dsimp only at e
    exact hs.applyHeld e
  | atomicFetchAdd | atomicCompareSwap =>
    delta exec at e
    dsimp only at e
    exact hs.hostAtomic e
  | bfe => exact hs.exec_bfe e
  | bfi => exact hs.exec_bfi e
  | perm => exact hs.exec_perm e
  | bra => exact hs.exec_bra e
  | bloop => exact hs.exec_bloop e
  | call => exact hs.exec_call e
  | callIndirect => exact hs.exec_callIndirect e
  | ret => exact hs.exec_ret e
  | unwind => exact hs.exec_unwind e
  | regang => exact hs.exec_regang e
  | part => exact hs.exec_part e
  | yield => exact hs.exec_yield e
  | exit => exact hs.exec_exit e
  | sleep => exact hs.exec_sleep e
  | migrate => exact hs.exec_migrate e
  | home => exact hs.exec_home e
  | migq => exact hs.exec_migq e
  | ld => exact hs.exec_ld e
  | st => exact hs.exec_st e
  | atom => exact hs.exec_atom e
  | atomb => exact hs.exec_atomb e
  | fence => exact hs.exec_fence e
  | cflush => exact hs.exec_cflush e
  | cinv => exact hs.exec_cinv e
  | pin => exact hs.exec_pin e
  | unpin => exact hs.exec_unpin e
  | pref => exact hs.exec_pref e
  | waitw => exact hs.exec_waitw e
  | spawn => exact hs.exec_spawn e
  | join => exact hs.exec_join e
  | tnextS => exact hs.exec_tnextS e
  | tnextG => exact hs.exec_tnextG e
  | glaunch => exact hs.exec_glaunch e
  | gprep => exact hs.exec_gprep e
  | gbind => exact hs.exec_gbind e
  | sqpush => exact hs.exec_sqpush e
  | sqpop => exact hs.exec_sqpop e
  | nmc => exact hs.exec_nmc e
  | nfence => exact hs.exec_nfence e
  | gctlStatus => exact hs.exec_gctlStatus e
  | gctlRelease => exact hs.exec_gctlRelease e
  | gctlInval => exact hs.exec_gctlInval e
  | tdef => exact hs.exec_tdef e
  | tfree => exact hs.exec_tfree e
  | tstat => exact hs.exec_tstat e
  | cseal => exact hs.exec_cseal e
  | cwait => exact hs.exec_cwait e
  | cpoll => exact hs.exec_cpoll e
  | accz => exact hs.exec_accz e
  | bar => exact hs.exec_bar e
  | csrr => exact hs.exec_csrr e
  | csrw => exact hs.exec_csrw e
  | trap => exact hs.exec_trap e
  | eret => exact hs.exec_eret e
  | evpost => exact hs.exec_evpost e
  | tlbinv => exact hs.exec_tlbinv e
  | brk => exact hs.exec_brk e
  | pageWalk => exact hs.exec_pageWalk e
  | faultReplay => exact hs.exec_faultReplay e
  | faultDecline => exact hs.exec_faultDecline e
  | mscAccess => exact hs.exec_mscAccess e
  | refresh => exact hs.exec_refresh e
  | activationAlert => exact hs.exec_activationAlert e
  | rfmHoldEnd => exact hs.exec_rfmHoldEnd e
  | nmcAccept => exact hs.exec_nmcAccept e
  | sequencerStart => exact hs.exec_sequencerStart e
  | sequencerElement => exact hs.exec_sequencerElement e
  | sequencerYield => exact hs.exec_sequencerYield e
  | yieldCap => exact hs.exec_yieldCap e
  | nmcComplete => exact hs.exec_nmcComplete e
  | imageLoad => exact hs.exec_imageLoad e
  | routeHop => exact hs.exec_routeHop e
  | dawnArrival => exact hs.exec_dawnArrival e
  | duskForward => exact hs.exec_duskForward e
  | src => exact hs.exec_src e
  | snkbarArrival => exact hs.exec_snkbarArrival e
  | bridge => exact hs.exec_bridge e
  | connectionForm => exact hs.exec_connectionForm e
  | streamTransfer => exact hs.exec_streamTransfer e
  | linkLoss => exact hs.exec_linkLoss e
  | hang => exact hs.exec_hang e
  | drainComplete => exact hs.exec_drainComplete e
  | regionRestore => exact hs.exec_regionRestore e
  | copyElement => exact hs.exec_copyElement e
  | copyComplete => exact hs.exec_copyComplete e
  | mmaComplete => exact hs.exec_mmaComplete e
  | packetAccept => exact hs.exec_packetAccept e
  | workgroupDispatch => exact hs.exec_workgroupDispatch e
  | chunkSteal => exact hs.exec_chunkSteal e
  | launchComplete => exact hs.exec_launchComplete e
  | timeSlice => exact hs.exec_timeSlice e
  | workgroupSave => exact hs.exec_workgroupSave e
  | workgroupResume => exact hs.exec_workgroupResume e
  | barRelease => exact hs.exec_barRelease e
  | regangRelease => exact hs.exec_regangRelease e
  | pathRotation => exact hs.exec_pathRotation e
  | watchdog => exact hs.exec_watchdog e
  | sleepEnd => exact hs.exec_sleepEnd e
  | waitwPoll => exact hs.exec_waitwPoll e
  | waitwTimeout => exact hs.exec_waitwTimeout e
  | joinRecheck => exact hs.exec_joinRecheck e
  | midnightTrigger => exact hs.exec_midnightTrigger e
  | midnightSpill => exact hs.exec_midnightSpill e
  | frameClaim => exact hs.exec_frameClaim e
  | sliceReload => exact hs.exec_sliceReload e
  | migrationRequest => exact hs.exec_migrationRequest e
  | migrationGrant => exact hs.exec_migrationGrant e
  | continuationSend => exact hs.exec_continuationSend e
  | continuationArrival => exact hs.exec_continuationArrival e
  | returnArrival => exact hs.exec_returnArrival e
  | eventSequence => exact hs.exec_eventSequence e
  | rdmaWrite => exact hs.exec_rdmaWrite e
  | rdmaRead => exact hs.exec_rdmaRead e
  | invalidRequestNak =>
    delta exec at e
    dsimp only at e
    exact hs.exec_invalidRequestNak e
  | norzenStream => exact hs.exec_norzenStream e
  | norzenMemoryRequest => exact hs.exec_norzenMemoryRequest e
  | norzenMemoryReply => exact hs.exec_norzenMemoryReply e
  | norzenPodBarrier => exact hs.exec_norzenPodBarrier e
  | norzenAck => exact hs.exec_norzenAck e
  | frameResend => exact hs.exec_frameResend e
  | pairLost => exact hs.exec_pairLost e
  | groupResume => exact hs.exec_groupResume e
  | terminate => exact hs.exec_terminate e
  | preempt => exact hs.exec_preempt e
  | spillGrow => exact hs.exec_spillGrow e
  | regionEnd => exact hs.exec_regionEnd e
  | attest => exact hs.exec_attest e
  | flashImage => exact hs.exec_flashImage e
  | ctxSetup => exact hs.exec_ctxSetup e
  | ctxTeardown => exact hs.exec_ctxTeardown e
  | dutySet => exact hs.exec_dutySet e
  | regionSave => exact hs.exec_regionSave e
  | reset =>
    delta exec at e
    dsimp only at e
    exact exec_reset e
  | powerThrottle => exact hs.exec_powerThrottle e
  | throttleRelease => exact hs.exec_throttleRelease e
  | counterReport => exact hs.exec_counterReport e
  | dieCacheAccess => exact hs.exec_dieCacheAccess e
  | bankAccess => exact hs.exec_bankAccess e
  | congestionNotification => exact hs.exec_congestionNotification e
  | norzenFrameDrop => exact hs.exec_norzenFrameDrop e

/-! #### Errors -/

theorem countError {counter} (hs : s.memOk) : (s.countError counter).memOk :=
  hs.onOutside

theorem poisonCached {c line h} (hs : s.memOk) : (s.poisonCached c line h).memOk := by
  unfold State.poisonCached
  grind [onCaches]

theorem loseLine {c line} (hs : s.memOk) : (s.loseLine c line).1.memOk := by
  unfold State.loseLine
  grind [onCaches, quadOut]

theorem endOnDie {die} (hs : s.memOk) : (s.endOnDie die).memOk :=
  hs.foldl fun _ _ hs => hs.terminate

theorem meetError {e} (hs : s.memOk) : (s.meetError e).memOk := by
  unfold State.meetError
  grind [onCaches, postMemory, setSlice, onSlice, haltGroup, abortRegion, putAcc, countError, poisonCached, loseLine,
    endOnDie, State.memOk]

theorem meetErrors (hs : s.memOk) : s.meetErrors.memOk := by
  unfold State.meetErrors
  grind [meetError, foldl, State.memOk]

/-! #### Sched -/

theorem fetchMiss {xs va} (hs : s.memOk) : (s.fetchMiss xs va).memOk :=
  hs.foldl fun _ _ hs => hs.openMiss.onSlice

theorem fetchFault {xs va sub level} (hs : s.memOk) : (s.fetchFault xs va sub level).memOk := by
  unfold State.fetchFault
  grind [parkFault, onSlice, foldl]

theorem trapParked {x d} (hs : s.memOk) : (s.trapParked x d).memOk :=
  hs.clearDeclined.setSlice.takeTrap

theorem boundaryTrap {x f} {u : State} (hu : u.memOk) (e : s.boundaryTrap x = some f) : (f u).memOk := by
  unfold State.boundaryTrap at e
  split at e
  · cases e; exact hu.takePending
  · cases e; exact hu.trapParked
  · cases e; exact hu.clearDeclined.takeTrap
  · cases e

theorem boundaryTraps {xs} (hs : s.memOk) (e : s.boundaryTraps xs = some t) : t.memOk := by
  unfold State.boundaryTraps at e
  split at e
  · cases e
  · cases e
    refine List.foldlRecOn (motive := State.memOk) _ _ (by split; exacts [hs.partSlices, hs]) fun u (hu : u.memOk) f hf => ?_
    obtain ⟨x, -, h⟩ := List.mem_filterMap.1 hf
    exact boundaryTrap hu h

theorem noteIssue {x us scalar} (hs : s.memOk) : (s.noteIssue x us scalar).memOk := hs

theorem runNext {x xs us} (hs : s.memOk) (e : s.runNext x xs us = .next t) : t.memOk := by
  unfold State.runNext at e
  split at e
  · next h => cases e; exact hs.boundaryTraps h
  · have hf : (s.fetch x).1.memOk := hs.fetch
    revert hf e
    generalize s.fetch x = q
    intro e hf
    obtain ⟨s, f⟩ := q
    have hc : ({ s with cur := us } : State).memOk := hf
    cases f with
    | ok i => exact hc.exec_next e
    | illegal => cases e; exact hc.takeTraps
    | poison => cases e; exact hc.takeTraps
    | miss => cases e; exact hf.fetchMiss
    | fault => cases e; exact hf.fetchFault

theorem issueGang {us scalar} (hs : s.memOk) (e : s.issueGang us scalar = .next t) : t.memOk := by
  unfold State.issueGang at e
  grind [noteIssue, → runNext]

theorem perform {m} (hs : s.memOk) (e : s.perform m = .next t) : t.memOk := by
  unfold State.perform at e
  grind [→ exec_next, → issueGang]

theorem move (hs : s.memOk) (e : s.move = .next t) : t.memOk := by
  obtain ⟨m, rest, -, h⟩ | ⟨m, h⟩ | h := s.move_cases
  · exact perform (show State.memOk { s with agenda := rest } from hs) (h ▸ e)
  · exact hs.perform (h.trans e)
  · rw [h] at e
    cases e
    exact hs

theorem startIdle (hs : s.memOk) : s.startIdle.memOk := by
  unfold State.startIdle
  grind [askFor, startInv, foldl]

theorem watchRegions (hs : s.memOk) : s.watchRegions.memOk :=
  hs.onEngines

theorem applyDue {clock} (hs : s.memOk) : (s.applyDue clock).memOk :=
  hs.flushDeferred

theorem watchReady (hs : s.memOk) : s.watchReady.memOk := hs

theorem pass {n} (hs : s.memOk) : (s.pass n).memOk := hs

theorem finish {ticks} (hs : s.memOk) : (s.finish ticks).memOk := by
  unfold State.finish
  grind [retryFrees, syncSlices, retryArrivals, serveOverdue, retryHeld, reap, meetErrors, startIdle, watchRegions, applyDue,
    watchReady, pass, State.memOk]

theorem stepOnce (hs : s.memOk) (e : s.stepOnce = .next t) : t.memOk := by
  unfold State.stepOnce at e
  split at e
  · next u h =>
    obtain rfl := Host.Outcome.next.inj e
    exact (move (show State.memOk { s with cur := [] } from hs) h).finish
  · cases e
  · cases e

end

end State.memOk

/-- Settles O8: a step is a move, which keeps canonical form as every function on states does, and what follows every move. -/
theorem everyStepKeepsMemory : Obligations.EveryStepKeepsMemory := by
  unfold Obligations.EveryStepKeepsMemory
  exact fun _ _ hs e => hs.stepOnce e


/-! ### What an invalidation drains (R24, R109, R212, R355) -/

/-- t translates as s does, and has no write on its way and no update held back that s does not have. -/
def State.Draining (s t : State) : Prop :=
  t.caches.tlb = s.caches.tlb ∧ t.caches.walkCache = s.caches.walkCache ∧
    t.caches.writeThroughs ⊆ s.caches.writeThroughs ∧ t.caches.deferred ⊆ s.caches.deferred

namespace State.Draining

section
variable {r s t : State}

theorem refl (s : State) : s.Draining s := ⟨rfl, rfl, List.Subset.refl _, List.Subset.refl _⟩

theorem trans (h : r.Draining s) (h' : s.Draining t) : r.Draining t := by
  obtain ⟨tlb, walk, writes, updates⟩ := h
  obtain ⟨tlb', walk', writes', updates'⟩ := h'
  exact ⟨tlb'.trans tlb, walk'.trans walk, List.Subset.trans writes' writes, List.Subset.trans updates' updates⟩

theorem of_fst {α : Type} {p : State × α} {a : α} (h : r.Draining p.1) (e : p = (t, a)) : r.Draining t := by
  subst e
  exact h

theorem branch {c : Prop} [Decidable c] (hs : r.Draining s) (ht : r.Draining t) : r.Draining (if c then s else t) := by
  split
  · exact hs
  · exact ht

theorem ite_fst {α : Type} {c : Prop} [Decidable c] {p q : State × α} (hp : r.Draining p.1) (hq : r.Draining q.1) :
    r.Draining (if c then p else q).1 := by
  split
  · exact hp
  · exact hq

theorem foldl {α : Type} {f : State → α → State} {l : List α} (h : r.Draining s)
    (hf : ∀ s a, r.Draining s → r.Draining (f s a)) : r.Draining (l.foldl f s) := by
  induction l generalizing s with
  | nil => exact h
  | cons a l ih => exact ih (hf s a h)

/-! Banks and the memory-side cache -/

theorem setBank {b} (h : r.Draining s) : r.Draining (s.setBank b) := h

theorem post {e} (h : r.Draining s) : r.Draining (s.post e) := by
  unfold State.post
  split <;> exact h

theorem postMemory {source code ctx core payload detail} (h : r.Draining s) :
    r.Draining (s.postMemory source code ctx core payload detail) := h.post

theorem dramMeet {st line keep k} (h : r.Draining s) : r.Draining (s.dramMeet st line keep k).1 := by
  unfold State.dramMeet
  exact ite_fst (postMemory h) h

theorem dramRead {st line p keep} (h : r.Draining s) : r.Draining (s.dramRead st line p keep).1 := by
  unfold State.dramRead
  grind [dramMeet]

theorem dramStore {line k d} (h : r.Draining s) : r.Draining (s.dramStore line k d) := h

theorem dramWrite {line p d} (h : r.Draining s) : r.Draining (s.dramWrite line p d) := by
  unfold State.dramWrite
  grind [dramStore]

theorem serveReq {q} (h : r.Draining s) : r.Draining (s.serveReq q) :=
  dramWrite (s := s.onCaches _) h

theorem bankTurn {line} (h : r.Draining s) : r.Draining (s.bankTurn line) := by
  unfold State.bankTurn
  grind [foldl, serveReq, setBank]

theorem settleBank {line} (h : r.Draining s) : r.Draining (s.settleBank line) := h.foldl fun _ _ h => h.serveReq

theorem mscPlace {st line} (h : r.Draining s) : r.Draining (s.mscPlace st line) := by
  unfold State.mscPlace
  grind [Draining, State.onCaches]

theorem mscRead {st line want alloc seq} (h : r.Draining s) : r.Draining (s.mscRead st line want alloc seq).1 := by
  unfold State.mscRead
  grind [mscPlace, settleBank, bankTurn, dramRead]

theorem mscWrite {st line off bs bad alloc} (h : r.Draining s) : r.Draining (s.mscWrite st line off bs bad alloc) := by
  unfold State.mscWrite
  dsimp only
  split
  · refine mscPlace ?_
    split
    · exact h
    · exact h.mscRead
  · split
    · exact h
    · exact (h.mscRead : r.Draining (State.mscRead ..).1)

theorem mscPut {st line p d} (h : r.Draining s) : r.Draining (s.mscPut st line p d) := by
  unfold State.mscPut
  grind [mscWrite]

theorem serveMsc {q} (h : r.Draining s) : r.Draining (s.serveMsc q) := mscPut (s := s.onCaches _) h

theorem settleMsc {line} (h : r.Draining s) : r.Draining (s.settleMsc line) := h.foldl fun _ _ h => h.serveMsc

/-! The die cache -/

theorem dieWriteBack {pa drop} (h : r.Draining s) : r.Draining (s.dieWriteBack pa drop) := by
  unfold State.dieWriteBack
  dsimp only
  split
  · next l st _ _ _ =>
    exact (show r.Draining (if l.dirty then _ else s) from branch h.settleMsc.mscPut h)
  · exact h

theorem diePlace {st line} (h : r.Draining s) : r.Draining (s.diePlace st line) := by
  unfold State.diePlace
  grind [Draining, State.onCaches]

theorem homePut {pa bs bad p} (h : r.Draining s) : r.Draining (s.homePut pa bs bad p) := by
  unfold State.homePut
  grind [mscWrite, settleMsc, dieWriteBack, mscRead, diePlace, foldl]

theorem homeLine {line want p} (h : r.Draining s) : r.Draining (s.homeLine line want p).1 := by
  unfold State.homeLine
  grind [settleMsc, dieWriteBack, mscRead, diePlace]

theorem readHome {pa n p} (h : r.Draining s) : r.Draining (s.readHome pa n p).1 := h.homeLine

theorem homeRmw {pa n p f} (h : r.Draining s) : r.Draining (s.homeRmw pa n p f).1 := by
  unfold State.homeRmw
  grind [readHome, State.writeHome, homePut]

/-! The quads -/

theorem l1Drop {quad line except} (h : r.Draining s) : r.Draining (s.l1Drop quad line except) := h

theorem quadWriteBack {l} (h : r.Draining s) : r.Draining (s.quadWriteBack l) := by
  unfold State.quadWriteBack
  split
  · have hw : ∀ {u : State} {c : Prop} [Decidable c] {k}, r.Draining u → r.Draining (if c then
        u.homePut (l.addr + 32 * k) (l.slice (32 * k) 32) (l.poisonAt (32 * k) 32) .normal else u) :=
      fun hu => branch hu.homePut hu
    exact (show r.Draining (if l.valid.2 then _ else _) from hw (hw h))
  · exact h

theorem quadOut {quad line} (h : r.Draining s) : r.Draining (s.quadOut quad line) := by
  unfold State.quadOut
  split
  · exact h
  · exact h.quadWriteBack

theorem drainWts {p} (h : r.Draining s) : r.Draining (s.drainWts p) := by
  refine foldl ?_ fun _ _ h => h.homePut
  obtain ⟨tlb, walk, writes, updates⟩ := h
  exact ⟨tlb, walk, List.Subset.trans (List.filter_subset_self _) writes, updates⟩

theorem applyOne {d} (h : r.Draining s) : r.Draining (s.applyOne d) := by
  refine homeRmw (quadOut (drainWts ?_))
  obtain ⟨tlb, walk, writes, updates⟩ := h
  exact ⟨tlb, walk, writes, List.Subset.trans (List.filter_subset_self _) updates⟩

theorem applyDeferred {d} (h : r.Draining s) : r.Draining (s.applyDeferred d) := h.foldl fun _ _ h => h.applyOne

theorem flushDeferred {p} (h : r.Draining s) : r.Draining (s.flushDeferred p) := by
  refine h.foldl fun s d h => ?_
  split
  · exact h.applyDeferred
  · exact h

theorem quadDrop {quad line} (h : r.Draining s) : r.Draining (s.quadDrop quad line) := h.flushDeferred.quadOut

theorem giveLine {core pa} (h : r.Draining s) : r.Draining (s.giveLine core pa) := by
  unfold State.giveLine
  split
  · exact (drainWts h).quadDrop
  · exact h

/-! Scratchpads and the roof -/

theorem meetWords {core ws} (h : r.Draining s) : r.Draining (s.meetWords core ws) :=
  h.foldl fun _ _ h => post h

theorem pkgWrite {core pa bs p bad} (h : r.Draining s) : r.Draining (s.pkgWrite core pa bs p bad) := by
  unfold State.pkgWrite
  split
  · exact h.giveLine.homePut
  · exact h.giveLine.homePut
  · have hw : r.Draining (s.poke pa bs) := h.meetWords
    grind [State.poisonAt, State.addPoison, Draining]
  · exact h

theorem raceRoof {n} (h : r.Draining s) : r.Draining (s.raceRoof n) := by
  refine h.foldl fun s q h => ?_
  split
  · exact branch h h
  · exact h

theorem writeBuf {core b} (h : r.Draining s) : r.Draining (s.writeBuf core b) := by
  unfold State.writeBuf
  split
  · exact h
  · split
    · exact h.raceRoof
    · exact h.pkgWrite

theorem flushCopy {c} (h : r.Draining s) : r.Draining (s.flushCopy c).1 :=
  h.foldl fun _ _ h => h.foldl fun _ _ h => h.writeBuf

end

end State.Draining

section
variable {s : State}

/-! ### What an invalidation leaves (R24, R355) -/

theorem State.drainWts_all : (s.drainWts fun _ => true).caches.writeThroughs = [] := by
  have h : State.Draining (s.onCaches fun c => { c with writeThroughs := c.writeThroughs.filter fun _ => !true })
      (s.drainWts fun _ => true) := (State.Draining.refl _).foldl fun _ _ h => h.homePut
  exact List.subset_nil.1 (List.Subset.trans h.2.2.1 (by simp))

theorem State.not_mem_applyDeferred (d : Deferred) : d ∉ (s.applyDeferred d).caches.deferred := by
  intro hd
  rw [State.applyDeferred, List.foldl_append] at hd
  generalize List.foldl State.applyOne s _ = t at hd
  have h : State.Draining (t.onCaches fun c => { c with deferred := c.deferred.filter (·.id != d.id) }) (t.applyOne d) :=
    (State.Draining.refl _).drainWts.quadOut.homeRmw
  simpa using (List.mem_filter.1 (h.2.2.2 hd)).2

/-- Applying every update of a list that is still held back, no other is left. -/
theorem State.applyAll_deferred {l : List Deferred} (h : s.caches.deferred ⊆ l) :
    (l.foldl (fun s d => if s.caches.deferred.contains d then s.applyDeferred d else s) s).caches.deferred = [] := by
  induction l generalizing s with
  | nil => exact List.subset_nil.1 h
  | cons d l ih =>
    refine ih fun e he => ?_
    dsimp only at he
    split at he
    · refine (List.mem_cons.1 (h ((State.Draining.refl s).applyDeferred.2.2.2 he))).resolve_left ?_
      rintro rfl
      exact State.not_mem_applyDeferred e he
    · next hd =>
      refine (List.mem_cons.1 (h he)).resolve_left ?_
      rintro rfl
      exact hd (List.contains_iff_mem.2 he)

theorem State.flushDeferred_all : (s.flushDeferred fun _ => true).caches.deferred = [] :=
  State.applyAll_deferred fun _ h => List.mem_filter.2 ⟨h, rfl⟩

/-- What is left in the caches when entries of the TLBs and walk caches are removed. -/
theorem State.tlbRemove_caches (p : TlbEntry → Bool) (q : WalkEntry → Bool) :
    (s.tlbRemove p q).caches.writeThroughs = [] ∧ (s.tlbRemove p q).caches.deferred = [] ∧
    (s.tlbRemove p q).caches.tlb = s.caches.tlb.filter (fun t => !p t) ∧
    (s.tlbRemove p q).caches.walkCache = s.caches.walkCache.filter fun w => !q w := by
  have copies : ∀ {r u : State} {l : List Copy}, r.Draining u →
      r.Draining (l.foldl (fun (s : State) c => let r := s.flushCopy c; r.1.setCopy r.2) u) :=
    fun h => h.foldl fun _ _ h => h.flushCopy
  obtain ⟨tlb, walk, -, -⟩ := copies ((State.Draining.refl s).drainWts.flushDeferred)
  obtain ⟨-, -, writes, -⟩ := copies ((State.Draining.refl (s.drainWts fun _ => true)).flushDeferred)
  obtain ⟨-, -, -, updates⟩ := copies (State.Draining.refl ((s.drainWts fun _ => true).flushDeferred fun _ => true))
  rw [State.drainWts_all] at writes
  rw [State.flushDeferred_all] at updates
  exact ⟨List.subset_nil.1 writes, List.subset_nil.1 updates, congrArg (List.filter _) tlb, congrArg (List.filter _) walk⟩

/-- What is left when entries are invalidated, by the kind of the invalidation. -/
theorem State.invalidate_caches {kind ctx va : Nat} (hk : kind ≤ 2) :
    (s.invalidate kind ctx va).caches.writeThroughs = [] ∧ (s.invalidate kind ctx va).caches.deferred = [] ∧
    (∀ e, e ∈ (s.invalidate kind ctx va).caches.tlb ↔ e ∈ s.caches.tlb ∧
      (if kind = 0 then e.covers ctx va = false else kind = 1 ∧ e.ctx ≠ ctx)) ∧
    (∀ e, e ∈ (s.invalidate kind ctx va).caches.walkCache ↔ e ∈ s.caches.walkCache ∧
      (if kind = 0 then ¬(e.ctx = ctx ∧ e.tag = va / 2 ^ levelShift e.level) else kind = 1 ∧ e.ctx ≠ ctx)) := by
  obtain rfl | rfl | rfl : kind = 0 ∨ kind = 1 ∨ kind = 2 := by omega
  all_goals
    obtain ⟨writes, updates, tlb, walk⟩ := s.tlbRemove_caches _ _
    refine ⟨writes, updates, fun e => ?_, fun e => ?_⟩
    · change e ∈ (s.tlbRemove _ _).caches.tlb ↔ _
      rw [tlb]
      simp
    · change e ∈ (s.tlbRemove _ _).caches.walkCache ↔ _
      rw [walk]
      simp [imp_iff_not_or]
end

/-! ### EVPOST and TLBINV -/

section
variable {s : State} {a b : Opnd} {h : Bool} {l : Lead}

theorem State.exec_evpost (hl : s.Led (.evpost a b h) (fun x e => [(x.readPair e s.clock true a).1,
      (x.readPair e s.clock true a).2, x.readOpnd e s.clock b]) l)
    (hcode : (s.opVal b l.slice l.env l.lane).toNat < 2 ^ 16) (hrel : ∀ x ∈ s.curSlices, s.releaseReady x .pkg = true)
    (hroom : (s.outside.events.filter (·.cls == 0)).length < arbiterRoom) :
    exec (.evpost a b h) s = .next (((s.curSlices.foldl (fun t x => t.releaseAt (t.env x) x .pkg) s).onOutside fun o =>
      { o with events := o.events ++
        [{ source := srcDie (dieOfCore l.env.origin), cls := 0, code := (s.opVal b l.slice l.env l.lane).toNat, ctx := some l.env.ctx,
           core := some l.env.origin, payload := pairVal (l.slice.readPair l.env s.clock true a) l.lane,
           detail := BitVec.ofNat 64 (l.env.coords l.slice) }] }).retireGang
        (.evpost a b h) .zero [] fun x e => heldOf h [(x.readPair e s.clock true a).1, (x.readPair e s.clock true a).2]) := by
  have hany : (s.curSlices.any fun x => !s.releaseReady x .pkg) = false := by
    simpa using hrel
  have hwait : ((s.curSlices.any fun x => !s.releaseReady x .pkg) ||
      decide (arbiterRoom ≤ (s.outside.events.filter (·.cls == 0)).length)) = false := by
    simpa [hany] using hroom
  change execEvpost a b h s = _
  unfold State.opVal at hcode ⊢
  simp only [execEvpost, State.runGang_led _ _ hl, if_neg (Nat.not_le.2 hcode), hwait]
  rfl

theorem State.exec_evpost_illegal (hl : s.Led (.evpost a b h) (fun x e => [(x.readPair e s.clock true a).1,
      (x.readPair e s.clock true a).2, x.readOpnd e s.clock b]) l)
    (hcode : 2 ^ 16 ≤ (s.opVal b l.slice l.env l.lane).toNat) :
    exec (.evpost a b h) s = .next (s.takeTraps (s.cur.map fun u => (u, trapAt 1 l.slice.pc))) := by
  change execEvpost a b h s = _
  unfold State.opVal at hcode
  simp only [execEvpost, State.runGang_led _ _ hl, if_pos hcode]
  rfl

/-- A word that TLBINV takes from firmware: a kind, and nothing in the reserved fields. -/
def tlbinvOk (e : Env) (w : Nat) : Bool :=
  e.group.firmware && decide (w % 4 ≤ 2) && decide (w / 4 % 4 = 0) && decide (w / 2 ^ 16 % 2 ^ 16 = 0)

theorem field_kind (w : Nat) : field w 0 2 = w % 4 := by simp [field]

theorem field_ctx (w : Nat) : field w 4 12 = w / 16 % 2 ^ 12 := rfl

theorem tlbinvOk_iff (e : Env) (w : Nat) :
    (!e.group.firmware || field w 0 2 == 3 || field w 2 2 != 0 || field w 16 16 != 0) = !tlbinvOk e w := by
  have hk : w % 4 = 3 ↔ 2 < w % 4 := by omega
  rw [Bool.eq_iff_iff]
  simp [tlbinvOk, field, hk, or_assoc]

theorem State.exec_tlbinv_illegal (hl : s.Led (.tlbinv a b h) (fun x e => [(x.readPair e s.clock true a).1,
      (x.readPair e s.clock true a).2, x.readOpnd e s.clock b]) l)
    (hok : tlbinvOk l.env (s.opVal b l.slice l.env l.lane).toNat = false) :
    exec (.tlbinv a b h) s = .next (s.takeTraps (s.cur.map fun u => (u, trapAt 1 l.slice.pc))) := by
  change execTlbinv a b h s = _
  unfold State.opVal at hok
  simp only [execTlbinv, State.runGang_led _ _ hl, tlbinvOk_iff, hok]
  rfl

theorem State.exec_tlbinv (hl : s.Led (.tlbinv a b h) (fun x e => [(x.readPair e s.clock true a).1,
      (x.readPair e s.clock true a).2, x.readOpnd e s.clock b]) l)
    (hok : tlbinvOk l.env (s.opVal b l.slice l.env l.lane).toNat = true) :
    let w := (s.opVal b l.slice l.env l.lane).toNat
    let t := s.invalidate (w % 4) (w / 16 % 2 ^ 12) (pairVal (l.slice.readPair l.env s.clock true a) l.lane).toNat
    exec (.tlbinv a b h) s = .next (if t.remotePending (if w % 4 = 2 then none else some (w / 16 % 2 ^ 12)) then t.waitGang
      else t.retireGang (.tlbinv a b h) .zero [] fun x e =>
        heldOf h [(x.readPair e s.clock true a).1, (x.readPair e s.clock true a).2]) := by
  change execTlbinv a b h s = _
  unfold State.opVal at hok ⊢
  simp only [execTlbinv, State.runGang_led _ _ hl, tlbinvOk_iff, hok, Bool.not_true, Bool.false_eq_true, if_false]
  simp only [field_kind, field_ctx]
  generalize State.remotePending _ _ = waits
  cases waits <;> rfl
end

/-- Settles O42: what EVPOST and TLBINV do to a gang that may issue them, and what an invalidation leaves in the caches. -/
theorem eventsAndInvalidation : Obligations.EventsAndInvalidation := by
  unfold Obligations.EventsAndInvalidation
  constructor
  · intro s a b h l i pair held hl
    exact ⟨State.exec_evpost hl, State.exec_evpost_illegal hl⟩
  · intro s a b h l i pair held w va ctx ok hl
    refine ⟨State.exec_tlbinv_illegal hl, fun hok => ?_⟩
    have hk : w % 4 ≤ 2 := by
      simp only [ok, Bool.and_eq_true, decide_eq_true_eq] at hok
      exact hok.1.1.2
    refine ⟨fun hw => ?_, fun hw => ?_, State.invalidate_caches hk⟩
    · exact (State.exec_tlbinv hl hok).trans (congrArg _ (if_neg (Bool.eq_false_iff.1 hw)))
    · exact (State.exec_tlbinv hl hok).trans (congrArg _ (if_pos hw))

section
variable {s : State}

/-! ### Walks and faults (R22 to R26) -/

/-- A leaf that permits every merged request wakes them all. -/
theorem State.answerMiss_permitted {level : Nat} {e : DWord} {m : Miss}
    (h : ∀ a ∈ m.asks, permFault a.need e.toNat
      (homeOf e.toNat (ptePfn e.toNat * 4096 + a.va.toNat % 2 ^ leafLog2 level (pteSpan e.toNat))) = none) :
    s.answerMiss level e m = s.wakeAskers m.asks .ready := by
  have hf : ∀ f : Ask → Option Nat, (∀ a ∈ m.asks, f a = none) →
      m.asks.filter (fun a => (f a).isNone) = m.asks ∧ m.asks.filterMap f = [] := fun f hf =>
    ⟨List.filter_eq_self.2 fun a ha => by rw [hf a ha]; rfl, List.filterMap_eq_nil_iff.2 hf⟩
  obtain ⟨all, none⟩ := hf _ h
  unfold State.answerMiss
  simp only [all, none]
  rfl

theorem State.post_faults (e : Event) : (s.post e).caches.faults = s.caches.faults := by
  unfold State.post
  split <;> rfl

theorem State.parkFault_faults_length (asks : List Ask) (a : Ask) (sub level : Nat) :
    (s.parkFault asks a sub level).caches.faults.length = s.caches.faults.length + 1 := by
  unfold State.parkFault
  simp [State.post_faults]

theorem State.wakeFaulted_caches (asks : List Ask) (sub : Nat) : (s.wakeFaulted asks sub).caches = s.caches := by
  have fold : ∀ (l : List Ask) (t : State), (l.foldl (fun s a => match a.who with
      | .parked u id => s.onSlice u fun x => { x with parked := updateWhere (·.id == id) (fun p => { p with subcode := sub }) x.parked }
      | _ => s) t).caches = t.caches := fun l t => by
    refine List.foldlRecOn (motive := fun u : State => u.caches = t.caches) _ _ rfl fun u hu a _ => ?_
    split <;> exact hu
  exact fold _ _

/-- Merged requests of which one raises a fault make one record. -/
theorem State.faultAsks_faults_length {a : Ask} {as : List Ask} {sub level : Nat} (h : ∀ x ∈ a :: as, x.quiet = false) :
    (s.faultAsks (a :: as) sub level).caches.faults.length = s.caches.faults.length + 1 := by
  have loud : (a :: as).filter (fun x => !x.quiet) = a :: as := List.filter_eq_self.2 fun x hx => by rw [h x hx]; rfl
  unfold State.faultAsks
  simp only [loud]
  change (State.wakeFaulted _ _ _).caches.faults.length = _
  rw [State.wakeFaulted_caches, State.parkFault_faults_length]
  rfl

/-! ### Banks (R29, R48, R50) -/

theorem State.bankAt_setBank (b : Bank) : (s.setBank b).bankAt b.stack b.pch b.bank = b := by
  simp [State.bankAt, State.setBank, State.onEngines]

/-- A bank stands at its own place. -/
theorem State.bankAt_place (stack pch bank : Nat) : (s.bankAt stack pch bank).stack = stack ∧
    (s.bankAt stack pch bank).pch = pch ∧ (s.bankAt stack pch bank).bank = bank := by
  unfold State.bankAt
  cases h : s.engines.banks.find? fun b => b.stack == stack && b.pch == pch && b.bank == bank with
  | none => exact ⟨rfl, rfl, rfl⟩
  | some b => simpa [and_assoc] using List.find?_some h

theorem State.stackCsr_setStackCsr (stack : Nat) (f : StackCsr → StackCsr) :
    (s.setStackCsr stack f).stackCsr stack = f (s.stackCsr stack) := by
  simp [State.stackCsr, State.setStackCsr, assoc, assocSet]

/-- A bank after an ordinary access, by what it has recorded. -/
theorem Bank.ordinary_eq (b : Bank) (row : Nat) : b.ordinary row =
    if b.recorded = none then { b with row := some row, owner := none }
    else if b.hold = none then { b with row := b.recorded, recorded := none }
    else { b with row := some row, recorded := b.recorded } := by
  obtain ⟨stack, pch, bank, open?, owner, recorded, yields, burst, behind, hold⟩ := b
  cases recorded <;> cases hold <;> rfl

/-- The row that a sequencer has given up by the time that the bank serves a request. -/
def Bank.gave (b : Bank) : Option Nat := if b.seqOpen then b.row else b.recorded

/-- A bank after it has served a request that waited, a sequencer's open row given up before it. -/
theorem State.serveBank_eq (b : Bank) (r : LineReq) :
    let row := ((stackOf r.addr).map fun x => (bankOf x.2).2.2).getD 0
    s.serveBank b r = (s.serveReq r).setBank (if b.gave = none then { b with row := some row, owner := none }
      else if b.hold = none then { b with row := b.gave, recorded := none }
      else { b with row := some row, recorded := b.gave }) := by
  intro row
  unfold State.serveBank Bank.gave
  simp only [Bank.ordinary_eq]
  cases hopen : b.seqOpen with
  | false => rfl
  | true =>
    simp only [Bank.seqOpen, Bool.and_eq_true] at hopen
    obtain ⟨open?, hrow⟩ := Option.isSome_iff_exists.1 hopen.1.1
    simp [hrow, row]

/-- A counter of 32 bits that stays at its greatest value. -/
theorem toNat_succ_sat (n : Word) : (if n = BitVec.allOnes 32 then n else n + 1).toNat = min (n.toNat + 1) (2 ^ 32 - 1) := by
  split
  · next h => simp [h]
  · next h =>
    have : n.toNat ≠ 2 ^ 32 - 1 := fun e => h (BitVec.eq_of_toNat_eq (by simpa using e))
    have := n.isLt
    rw [BitVec.toNat_add]
    change (n.toNat + 1) % 2 ^ 32 = _
    omega

/-- An alert closes the row, holds the sequencers off the bank and is counted. -/
theorem State.exec_activationAlert {stack pch bank : Nat} (h : stack < 16 ∧ pch < 64 ∧ bank < 16) :
    ∃ t, exec (.activationAlert stack pch bank) s = .next t ∧ (t.bankAt stack pch bank).row = none ∧
      (t.bankAt stack pch bank).hold = (if (s.stackCsr stack).rfmHold = 0 then none
        else some (s.baseClk + (s.stackCsr stack).rfmHold.toNat)) ∧
      (t.stackCsr stack).rfmCount.toNat = min ((s.stackCsr stack).rfmCount.toNat + 1) (2 ^ 32 - 1) := by
  obtain ⟨hstack, hpch, hbank⟩ := s.bankAt_place stack pch bank
  let hold := if (s.stackCsr stack).rfmHold = 0 then none else some (s.baseClk + (s.stackCsr stack).rfmHold.toNat)
  let b : Bank := { (s.bankAt stack pch bank).precharge with hold := hold }
  have hb : (s.setBank b).bankAt stack pch bank = b := by
    have : (s.setBank b).bankAt b.stack b.pch b.bank = b := State.bankAt_setBank b
    rwa [show b.stack = stack from hstack, show b.pch = pch from hpch, show b.bank = bank from hbank] at this
  refine ⟨_, if_pos h, ?_, ?_, ?_⟩
  · exact congrArg Bank.row hb
  · exact congrArg Bank.hold hb
  · rw [State.stackCsr_setStackCsr]
    exact toNat_succ_sat _
end

/-- Settles O52: each step is its definition under its condition; the lemmas above say what a leaf answers, how many records a
fault makes, and what becomes of a bank. -/
theorem baseDieSteps : Obligations.BaseDieSteps := by
  unfold Obligations.BaseDieSteps
  intro s stack pch bank
  refine ⟨fun m hm => ⟨fun s1 level e hw => ?_, fun s1 sub level hw => ?_⟩, ?_, ?_, ?_, ?_, ?_, ?_, ?_, ?_, ?_⟩
  · change execPageWalk stack s = _
    simp only [execPageWalk, hm, hw]
  · change execPageWalk stack s = _
    simp only [execPageWalk, hm, hw]
  · intro level e m log2 h
    exact State.answerMiss_permitted h
  · intro a as sub level h
    exact State.faultAsks_faults_length h
  · intro k f hf
    change execFaultReplay (some k) s = _ ∧ execFaultDecline (some k) s = _
    simp only [execFaultReplay, execFaultDecline, State.serveFault, hf, and_self]
  · intro c hd f hf
    change (_ → execFaultReplay none s = _) ∧ (_ → execFaultDecline none s = _)
    refine ⟨fun hc => ?_, fun hc => ?_⟩
    · simp only [execFaultReplay, State.serveFault, State.runCommand, hc, hd, hf, if_true, Option.map_some]
    · simp only [execFaultDecline, State.serveFault, State.runCommand, hc, hd, hf, if_true, Option.map_some]
  · intro w hw
    change execDieCacheAccess stack s = _
    simp only [execDieCacheAccess, hw]
  · intro r hr
    change execMscAccess stack s = _
    simp only [execMscAccess, hr, State.serveMsc]
  · intro b r hr hlate row gave
    change execBankAccess stack pch bank s = _
    have hnow : (b.seqOpen && !s.overdue r) = false := by
      obtain hopen | hdue := hlate
      · rw [hopen, Bool.false_and]
      · simp [State.overdue, hdue]
    simp only [execBankAccess, b] at hr hnow ⊢
    simp only [hr, hnow]
    exact congrArg Host.Outcome.next (State.serveBank_eq _ r)
  · intro hstack hpch hbank
    exact ⟨if_pos ⟨hstack, hpch, hbank⟩, rfl, State.exec_activationAlert ⟨hstack, hpch, hbank⟩⟩
  · intro b e he hle
    change execRfmHoldEnd stack pch bank s = _
    unfold execRfmHoldEnd
    simp only [b] at he ⊢
    simp only [he, if_pos hle]

end Sys2Proof.Machine

end

section
/-! PROOFS. In the stack: NMC and NFENCE, the acceptance of a near-memory command, and the steps of the sequencers. -/

namespace Sys2Proof.Machine

/-! ### NMC (R40, R42, R346) -/

/-- The command of a record for a leader, its operands' records and its object's GEN read. -/
def NmcRec.cmd (r : NmcRec) (l : Lead) (id : Nat) (ra rb rd : Option Apr) (gen : Option Byte) : Cmd :=
  { id := id, slice := l.slice.uid, ctx := l.env.ctx, launch := l.env.launch.id, stack := 0, body := r.body, rm := r.rm, aprA := ra,
    aprB := rb, aprD := rd, c0 := r.c0, c1 := r.c1, mbar := r.mbar, gen := gen, result := r.result, unit := .core l.env.core }

/-- A command is posted and completes at once. -/
def State.endAtOnce (s : State) (c : Cmd) : State × GangOut := ((s.postCmd c).completeCmd c, .plain)

/-- What NMC does with a command once everything of it is read: it ends at once with a STATUS, goes to its stack, or waits for
room there (R40, R42, R346). Which pointers make a record bad and which failing check counts are the model's choices (log 54,
log 86). `State.issueNmc_read` ties it to NMC. -/
def State.sendCmd (s : State) (p : Party) (bad : Bool) (c : Cmd) : Except Stop (State × GangOut) :=
  if bad then .ok (s.endAtOnce { c with status := some 6 })
  else
    match nmcCheck c.body c.aprA c.aprB c.aprD with
    | some (e, k) => .ok (s.endAtOnce { c with status := some 5, aprErr := e, aprWhich := k })
    | none =>
      match deciding c.aprA c.aprB c.aprD with
      | none => .ok (s.endAtOnce { c with status := some 4 })
      | some (ea, isD) => do
        let (s, m) ← s.mapOne p { kind := if isD then .nmcWrite else .nmcRead } ea
        match m.home with
        | .stack n => if s.cmdRoom n c.aprD.isSome then .ok (s.postCmd { c with stack := n, unit := .base n }, .plain) else .ok (s, .wait)
        | _ => .ok (s.endAtOnce { c with status := some 4 })

section
variable {s : State} {p : Party} {c : Cmd}

theorem State.sendCmd_bad : s.sendCmd p true c = .ok (s.endAtOnce { c with status := some 6 }) := rfl

theorem State.sendCmd_unfit {e k : Nat} (h : nmcCheck c.body c.aprA c.aprB c.aprD = some (e, k)) :
    s.sendCmd p false c = .ok (s.endAtOnce { c with status := some 5, aprErr := e, aprWhich := k }) := by
  simp [State.sendCmd, h]

/-- A command whose operands are all padding has no home. -/
theorem State.sendCmd_undecided (hfit : nmcCheck c.body c.aprA c.aprB c.aprD = none) (h : deciding c.aprA c.aprB c.aprD = none) :
    s.sendCmd p false c = .ok (s.endAtOnce { c with status := some 4 }) := by
  simp [State.sendCmd, hfit, h]

section
variable {t : State} {ea : DWord} {isD : Bool} {m : Mapping} (hfit : nmcCheck c.body c.aprA c.aprB c.aprD = none)
  (hea : deciding c.aprA c.aprB c.aprD = some (ea, isD))
  (hm : s.mapOne p { kind := if isD then .nmcWrite else .nmcRead } ea = .ok (t, m))
include hfit hea hm

theorem State.sendCmd_homeless (h : ∀ n, m.home ≠ .stack n) :
    s.sendCmd p false c = .ok (t.endAtOnce { c with status := some 4 }) := by
  simp only [State.sendCmd, hfit, hea, hm, bind, Except.bind]
  cases hh : m.home with
  | stack n => exact absurd hh (h n)
  | _ => rfl

theorem State.sendCmd_stack {n : Nat} (h : m.home = .stack n) (hroom : t.cmdRoom n c.aprD.isSome = true) :
    s.sendCmd p false c = .ok (t.postCmd { c with stack := n, unit := .base n }, .plain) := by
  simp [State.sendCmd, hfit, hea, hm, h, hroom, bind, Except.bind]
end
end

section
variable {s s1 s2 s3 s4 s5 s6 : State} {l : Lead} {t : Tasker} {va : DWord} {bs : List Byte} {r : NmcRec} {ra rb rd : Option Apr}
  {m : Mapping} {gen : Option Byte} (ht : Tasker.of l.env l.slice = t) (hva : va.toNat % 64 = 0)
  (hrec : s.taskRead t .record va 64 = .ok (s1, bs)) (hr : NmcRec.ofBytes bs = r)
  (hresult : r.result ≠ 0) (hresult16 : r.result.toNat % 16 = 0) (hmbar : r.mbar.toNat % 16 = 0)
  (ha : s1.readApr t r.aprA = .ok (s2, ra)) (hb : s2.readApr t r.aprB = .ok (s3, rb)) (hd : s3.readApr t r.aprD = .ok (s4, rd))
  (hmap : s4.findQuiet t.party { kind := .nmcWrite, wr := true } r.result = (s5, .ok m)) (hgen : s5.captureGen t r.mbar = .ok (s6, gen))
include ht hva hrec hr hresult hresult16 hmbar ha hb hd hmap hgen

/-- NMC whose record is read, its pointers aligned and its result translating, comes to what becomes of the command. -/
theorem State.issueNmc_read :
    s.issueNmc l va = s6.fresh.2.sendCmd t.party r.bad (r.cmd l s6.fresh.1 ra rb rd gen) := by
  have haligned : ¬(r.result = 0 ∨ r.result.toNat % 16 ≠ 0) := not_or.2 ⟨hresult, not_not.2 hresult16⟩
  unfold State.issueNmc
  simp only [ht, hva, hrec, hr, haligned, hmbar, ha, hb, hd, hmap, hgen, bind, Except.bind, ne_eq, not_true_eq_false, if_false]
  rfl
end

section
variable {s : State} {a : Opnd} {h : Bool} {l : Lead}

/-- A gang whose accesses are released goes on from NMC with what the leader's command has come to. -/
theorem State.exec_nmc (hl : s.Led (.nmc a h) (fun x e => [(x.readPair e s.clock true a).1, (x.readPair e s.clock true a).2]) l)
    (hrel : ∀ x ∈ s.curSlices, s.releaseReady x .pkg = true) {w : State}
    (hw : (s.curSlices.foldl (fun t x => t.releaseAt (t.env x) x .pkg) s).issueNmc l (l.pair s.clock a) = .ok (w, .plain)) :
    exec (.nmc a h) s = .next (w.retireGang (.nmc a h) .zero [] fun x e =>
      heldOf h [(x.readPair e s.clock true a).1, (x.readPair e s.clock true a).2]) := by
  have hany : (s.curSlices.any fun x => !s.releaseReady x .pkg) = false := by
    simpa using hrel
  change execNmc a h s = _
  simp only [execNmc, State.runGang_led _ _ hl, hany, hw]
  rfl

/-- NFENCE with nothing outstanding acquires and goes on. -/
theorem State.exec_nfence (hl : s.Led .nfence (fun _ _ => []) l) (hdone : ∀ x ∈ s.curSlices, x.nmcOut = [] ∧ x.parked = []) :
    exec .nfence s = .next ((s.curSlices.foldl (fun w x => w.acquireAt (w.env x) .pkg) s).retireGang .nfence .zero [] fun _ _ => []) := by
  have hany : (s.curSlices.any fun x => !x.nmcOut.isEmpty || !x.parked.isEmpty) = false := by
    simpa using hdone
  change execNfence s = _
  simp only [execNfence, State.runGang_led _ _ hl, hany]
  rfl
end

/-! ### Acceptance (R42) -/

section
variable {s t : State} {c d : Cmd} {stack : Nat}

/-- The pages tested at acceptance that the command has entered already are not entered again. -/
theorem State.acceptCmd_entered (h : ∀ q ∈ c.tested, q.1 ∈ c.pages) : s.acceptCmd c =
    (s.onEngines fun g => { g with cmds := updateWhere (·.id == c.id) (fun _ => { c with queued := true, tested := [] }) g.cmds }).clearDeclined
      (.cmd c.id) := by
  have hfold : c.tested.foldl (fun (r : State × Cmd) q => if r.2.pages.contains q.1 then r else r.1.enterPage r.2 q.1 q.2) (s, c) = (s, c) :=
    List.foldlRecOn (motive := (· = (s, c))) _ _ rfl fun r hr q hq => by
      rw [hr]
      exact if_pos (List.contains_iff_mem.2 (h q hq))
  unfold State.acceptCmd
  rw [hfold]

section
variable (hc : s.engines.cmds.find? (fun c => c.unit == .base stack && !c.queued && c.status.isNone) = some c)
include hc

theorem State.exec_nmcAccept_overlaps (h : c.overlaps = true) : exec (.nmcAccept stack) s = .next (s.setCmd { c with status := some 3 }) := by
  change execNmcAccept stack s = _
  simp only [execNmcAccept, hc, h, if_true]

variable (hapart : c.overlaps = false) (hwalk : s.isMissing (.cmd c.id) = false)
include hapart hwalk

theorem State.exec_nmcAccept_passed (h : s.testPages c (c.spans.flatMap spanPages) = (t, d, .passed)) :
    exec (.nmcAccept stack) s = .next (t.acceptCmd d) := by
  change execNmcAccept stack s = _
  simp [execNmcAccept, hc, hapart, hwalk, h]

theorem State.exec_nmcAccept_foreign (h : s.testPages c (c.spans.flatMap spanPages) = (t, d, .foreign)) :
    exec (.nmcAccept stack) s = .next ((t.setCmd { d with status := some 4 }).clearDeclined (.cmd d.id)) := by
  change execNmcAccept stack s = _
  simp [execNmcAccept, hc, hapart, hwalk, h]
end

/-! ### Sequencers (R43, R44, R45, R48, R49) -/

theorem State.exec_sequencerStart
    (hfree : ((s.engines.cmds.filter fun c => c.unit == .base stack && c.queued).filter (·.running)).length < 4)
    (hnext : nextCmd ((s.engines.cmds.filter fun c => c.unit == .base stack && c.queued).filter (·.running))
      ((s.engines.cmds.filter fun c => c.unit == .base stack && c.queued).filter (!·.running)) = some c) :
    exec (.sequencerStart stack) s = .next (s.setCmd { c with running := true }) := by
  change execSequencerStart stack s = _
  simp only [execSequencerStart, if_neg (Nat.not_le.2 hfree), hnext]

section
variable {cmd : Nat} (hc : s.engines.cmds.find? (fun q => q.id == cmd && q.running && q.status.isNone) = some c)
include hc

theorem State.exec_sequencerElement_ok {c1 : Cmd} (h : s.cmdStep c = (t, c1, .ok d)) :
    exec (.sequencerElement cmd) s = .next (t.setDone d) := by
  change execSequencerElement cmd s = _
  simp only [execSequencerElement, hc, h]

theorem State.exec_sequencerElement_parked (h : s.cmdStep c = (t, d, .parked)) :
    exec (.sequencerElement cmd) s = .next (t.setCmd d) := by
  change execSequencerElement cmd s = _
  simp only [execSequencerElement, hc, h]

theorem State.exec_sequencerElement_failed (h : s.cmdStep c = (t, d, .failed)) :
    exec (.sequencerElement cmd) s =
      .next ((t.setCmd { d with status := some 2, firstBad := d.pos % 2 ^ 32 }).leaveBanks d.id) := by
  change execSequencerElement cmd s = _
  simp only [execSequencerElement, hc, h]
  rfl
end

/-- A command after an element: it counts its poisoned elements, keeps the first, and ends with its walk. -/
theorem Cmd.advance_counts (c : Cmd) (p : Bool) (xa xb : List Byte) :
    (c.advance p xa xb).pos = c.pos + 1 ∧ (c.advance p xa xb).badCount = c.badCount + (if p then 1 else 0) ∧
    (p = true → c.badCount = 0 → (c.advance p xa xb).firstBad = c.pos % 2 ^ 32) ∧
    (c.total ≤ c.pos + 1 → (c.advance p xa xb).status = some (if (c.advance p xa xb).badCount = 0 then 0 else 1)) ∧
    (c.pos + 1 < c.total → (c.advance p xa xb).status = none) := by
  refine ⟨rfl, ?_, fun hp hb => ?_, fun hend => if_pos hend, fun hmore => if_neg (Nat.not_le.2 hmore)⟩
  · cases p <;> rfl
  · simp [Cmd.advance, hp, hb]

/-- The bank that a command's row contests is the command's own, and in no burst. -/
theorem State.contested_owner {cmd : Nat} {b : Bank} (h : s.contested cmd = some b) : b.owner = some cmd ∧ b.burst = 0 := by
  have := List.find?_some h
  simp only [Bool.and_eq_true, beq_iff_eq] at this
  obtain ⟨⟨⟨howner, -⟩, hburst⟩, -⟩ := this
  exact ⟨howner, hburst⟩

/-- Below the cap a sequencer's row is recorded and the yield counted. -/
theorem Bank.giveUp_below {b : Bank} {cmd cap : Nat} (howner : b.owner = some cmd) (hburst : b.burst = 0) (h : assoc 0 b.yields cmd < cap) :
    b.giveUp cap = { b with row := none, recorded := b.row, yields := assocSet b.yields cmd (assoc 0 b.yields cmd + 1) } := by
  simp [Bank.giveUp, howner, hburst, Nat.not_le.2 h]

section
variable {cmd : Nat} {b : Bank} (hb : s.contested cmd = some b)
include hb

theorem State.exec_sequencerYield (h : assoc 0 b.yields cmd < (s.stackCsr b.stack).yieldCap.toNat) :
    exec (.sequencerYield cmd) s = .next (s.setBank
      { b with row := none, recorded := b.row, yields := assocSet b.yields cmd (assoc 0 b.yields cmd + 1) }) := by
  obtain ⟨howner, hburst⟩ := State.contested_owner hb
  change execSequencerYield cmd s = _
  simp only [execSequencerYield, hb, if_neg (Nat.not_le.2 h), Bank.giveUp_below howner hburst h]

theorem State.exec_yieldCap (h : (s.stackCsr b.stack).yieldCap.toNat ≤ assoc 0 b.yields cmd) :
    exec (.yieldCap cmd) s = .next (s.setBank { b with yields := assocSet b.yields cmd 0, burst := 8 }) := by
  change execYieldCap cmd s = _
  simp only [execYieldCap, hb, if_pos h]
end

/-- A command that has ended is no command any more. -/
theorem State.endCmd_gone {q : Cmd} (h : q ∈ (s.endCmd c).engines.cmds) : q.id ≠ c.id := by
  simpa using (List.mem_filter.1 h).2

theorem State.exec_nmcComplete {cmd : Nat} {u : Unit} (hc : s.engines.cmds.find? (fun q => q.id == cmd && q.status.isSome) = some c)
    (hpark : s.isParked (.cmd c.id) = false) (hmiss : s.isMissing (.cmd c.id) = false) (hdecl : s.declinedOf (.cmd c.id) = none)
    (hwrite : s.partWrite c.party .nmcWrite c.result c.record = (t, .ok u)) : exec (.nmcComplete cmd) s = .next (t.endCmd c) := by
  change execNmcComplete cmd s = _
  simp [execNmcComplete, State.completeCmd, hc, hpark, hmiss, hdecl, hwrite]
end

/-- Settles O51: NMC comes to what becomes of its command, which has a case per check; every other step is its definition under
its condition, and the lemmas above say what a contested bank gives up and what an accepted or ended command leaves. -/
theorem nearMemoryCommands : Obligations.NearMemoryCommands := by
  unfold Obligations.NearMemoryCommands
  refine ⟨?_, fun s l hl hdone => State.exec_nfence hl hdone, fun s c stack hc => ⟨State.exec_nmcAccept_overlaps hc, ?_⟩, ?_, ?_, ?_,
    Cmd.advance_counts, fun s cmd b hb => ⟨State.exec_sequencerYield hb, State.exec_yieldCap hb⟩, ?_⟩
  · intro s a h l i pair va x t rel hl hrel hva s1 bs s2 ra s3 rb s4 rd s5 m s6 gen hrec r hr hr16 hmbar hra hrb hrd hmap hgen w c goes ends
    have hread := State.issueNmc_read rfl hva hrec rfl hr hr16 hmbar hra hrb hrd hmap hgen
    have go : ∀ {u}, w.sendCmd t.party r.bad c = .ok (u, .plain) → goes u := fun h => State.exec_nmc hl hrel (hread.trans h)
    refine ⟨fun hbad => go (hbad ▸ State.sendCmd_bad), fun e k hok hfit => go (hok ▸ State.sendCmd_unfit hfit), fun hok hfit => ?_⟩
    rw [hok] at go
    exact ⟨fun hea => go (State.sendCmd_undecided hfit hea), fun ea isD s7 mp hea hm =>
      ⟨fun hhome => go (State.sendCmd_homeless hfit hea hm hhome), fun n hhome hroom => go (State.sendCmd_stack hfit hea hm hhome hroom)⟩⟩
  · intro hapart hwalk t d
    exact ⟨State.exec_nmcAccept_passed hc hapart hwalk, State.exec_nmcAccept_foreign hc hapart hwalk⟩
  · intro s c h
    rw [State.acceptCmd_entered h]
    rfl
  · intro s c stack q hfree hnext
    exact State.exec_sequencerStart hfree hnext
  · intro s c hc
    exact ⟨fun t d e h => State.exec_sequencerElement_ok hc h, fun t d h => State.exec_sequencerElement_parked hc h,
      fun t d h => State.exec_sequencerElement_failed hc h⟩
  · intro s w c u hc hpark hmiss hdecl hwrite
    exact ⟨State.exec_nmcComplete hc hpark hmiss hdecl hwrite, fun q hq => State.endCmd_gone hq⟩

end Sys2Proof.Machine
end

section
/-! PROOFS. What no access of memory reaches: every function through which accesses translate, read homes and write keeps
`State.apart`, and with it the clocks, the contexts and the engines but their banks. -/

namespace Sys2Proof.Machine

/-- t is s but for what accesses of memory change (R280, R281). -/
def State.Accessed (s t : State) : Prop := t.apart = s.apart

namespace State.Accessed

section
variable {s t : State}

theorem refl (s : State) : s.Accessed s := rfl

theorem baseClk (h : s.Accessed t) : t.baseClk = s.baseClk :=
  (congrArg State.baseClk h : t.apart.baseClk = s.apart.baseClk)

theorem of_fst {α : Type} {p : State × α} {a : α} (h : s.Accessed p.1) (e : p = (t, a)) : s.Accessed t := by
  subst e
  exact h

theorem foldl {α : Type} {f : State → α → State} {l : List α} (h : s.Accessed t) (hf : ∀ t a, s.Accessed t → s.Accessed (f t a)) :
    s.Accessed (l.foldl f t) :=
  List.foldlRecOn _ _ h fun _ hb _ _ => hf _ _ hb

/-! ### Updates and reports -/

theorem onCaches {f} (h : s.Accessed t) : s.Accessed (t.onCaches f) := h

theorem fresh (h : s.Accessed t) : s.Accessed t.fresh.2 := h

theorem setBank {b} (h : s.Accessed t) : s.Accessed (t.setBank b) := h

theorem post {e} (h : s.Accessed t) : s.Accessed (t.post e) := by
  unfold State.post
  split <;> exact h

theorem postMemory {source code ctx core payload detail} (h : s.Accessed t) :
    s.Accessed (t.postMemory source code ctx core payload detail) :=
  h.post

/-! ### Banks and the memory-side cache (R28 to R31) -/

theorem dramStore {line i d} (h : s.Accessed t) : s.Accessed (t.dramStore line i d) := h

theorem dramWrite {line p d} (h : s.Accessed t) : s.Accessed (t.dramWrite line p d) := by
  unfold State.dramWrite
  grind [dramStore]

theorem dramMeet {stack line keep i} (h : s.Accessed t) : s.Accessed (t.dramMeet stack line keep i).1 :=
  iteInduction (motive := fun p : State × Bool => s.Accessed p.1) (fun _ => h.postMemory) fun _ => h

theorem dramRead {stack line p keep} (h : s.Accessed t) : s.Accessed (t.dramRead stack line p keep).1 := by
  unfold State.dramRead
  grind [dramMeet]

theorem serveReq {r} (h : s.Accessed t) : s.Accessed (t.serveReq r) :=
  h.onCaches.dramWrite

theorem settleBank {line} (h : s.Accessed t) : s.Accessed (t.settleBank line) :=
  h.foldl fun _ _ h => h.serveReq

theorem bankTurn {line} (h : s.Accessed t) : s.Accessed (t.bankTurn line) := by
  unfold State.bankTurn
  grind [setBank, serveReq, foldl]

theorem mscPlace {stack line} (h : s.Accessed t) : s.Accessed (t.mscPlace stack line) := by
  unfold State.mscPlace
  grind [onCaches]

theorem mscRead {stack line want alloc seq} (h : s.Accessed t) : s.Accessed (t.mscRead stack line want alloc seq).1 := by
  unfold State.mscRead
  grind [dramRead, settleBank, bankTurn, mscPlace]

theorem mscWrite {stack line off bs bad alloc} (h : s.Accessed t) : s.Accessed (t.mscWrite stack line off bs bad alloc) := by
  unfold State.mscWrite
  grind [onCaches, mscPlace, mscRead]

theorem mscPut {stack line p d} (h : s.Accessed t) : s.Accessed (t.mscPut stack line p d) := by
  unfold State.mscPut
  grind [mscWrite]

theorem serveMsc {r} (h : s.Accessed t) : s.Accessed (t.serveMsc r) :=
  h.onCaches.mscPut

theorem settleMsc {line} (h : s.Accessed t) : s.Accessed (t.settleMsc line) :=
  h.foldl fun _ _ h => h.serveMsc

/-! ### The die cache (R107, R108) -/

theorem diePlace {stack line} (h : s.Accessed t) : s.Accessed (t.diePlace stack line) := by
  unfold State.diePlace
  grind [onCaches]

theorem dieWriteBack {pa drop} (h : s.Accessed t) : s.Accessed (t.dieWriteBack pa drop) := by
  unfold State.dieWriteBack
  grind [onCaches, mscPut, settleMsc]

theorem homeLine {line want p} (h : s.Accessed t) : s.Accessed (t.homeLine line want p).1 := by
  unfold State.homeLine
  grind [mscRead, settleMsc, diePlace, dieWriteBack]

theorem homePut {pa bs bad p} (h : s.Accessed t) : s.Accessed (t.homePut pa bs bad p) := by
  unfold State.homePut
  grind [mscRead, mscWrite, settleMsc, diePlace, dieWriteBack, foldl]

theorem readHome {pa n p} (h : s.Accessed t) : s.Accessed (t.readHome pa n p).1 :=
  h.homeLine

theorem writeHome {pa bs p} (h : s.Accessed t) : s.Accessed (t.writeHome pa bs p) :=
  h.homePut

theorem homeRmw {pa n p f} (h : s.Accessed t) : s.Accessed (t.homeRmw pa n p f).1 := by
  unfold State.homeRmw
  grind [readHome, writeHome]

/-! ### Scratchpads (R151) -/

theorem addPoison {ts} (h : s.Accessed t) : s.Accessed (t.addPoison ts) := h

theorem poisonAt {pa n} (h : s.Accessed t) : s.Accessed (t.poisonAt pa n) :=
  h.addPoison

theorem meetWords {core ws} (h : s.Accessed t) : s.Accessed (t.meetWords core ws) :=
  h.foldl fun _ _ h => h.addPoison.postMemory

theorem poke {pa bs} (h : s.Accessed t) : s.Accessed (t.poke pa bs) :=
  h.meetWords

/-! ### What a quad gives up before an access at scope pkg (R109, R110, R117) -/

theorem performWt {w} (h : s.Accessed t) : s.Accessed (t.performWt w) :=
  h.writeHome

theorem drainWts {p} (h : s.Accessed t) : s.Accessed (t.drainWts p) :=
  h.onCaches.foldl fun _ _ h => h.performWt

theorem drainQuad {quad} (h : s.Accessed t) : s.Accessed (t.drainQuad quad) :=
  h.drainWts

theorem l1Drop {quad line except} (h : s.Accessed t) : s.Accessed (t.l1Drop quad line except) :=
  h.onCaches

theorem quadWriteBack {l} (h : s.Accessed t) : s.Accessed (t.quadWriteBack l) := by
  unfold State.quadWriteBack
  grind [onCaches, homePut]

theorem quadOut {quad line} (h : s.Accessed t) : s.Accessed (t.quadOut quad line) := by
  unfold State.quadOut
  grind [onCaches, l1Drop, quadWriteBack]

theorem applyOne {d} (h : s.Accessed t) : s.Accessed (t.applyOne d) :=
  h.onCaches.drainQuad.quadOut.homeRmw

theorem applyDeferred {d} (h : s.Accessed t) : s.Accessed (t.applyDeferred d) :=
  h.foldl fun _ _ h => h.applyOne

theorem flushDeferred {p} (h : s.Accessed t) : s.Accessed (t.flushDeferred p) := by
  refine h.foldl fun u d h => ?_
  split
  · exact h.applyDeferred
  · exact h

theorem quadDrop {quad line} (h : s.Accessed t) : s.Accessed (t.quadDrop quad line) :=
  h.flushDeferred.quadOut

theorem giveLine {core pa} (h : s.Accessed t) : s.Accessed (t.giveLine core pa) := by
  unfold State.giveLine
  grind [drainQuad, quadDrop]

theorem pkgWrite {core pa bs p bad} (h : s.Accessed t) : s.Accessed (t.pkgWrite core pa bs p bad) := by
  unfold State.pkgWrite
  grind [homePut, poisonAt, poke, giveLine]

theorem writePieces {core cp ms bs} (h : s.Accessed t) : s.Accessed (t.writePieces core cp ms bs) := by
  induction ms generalizing t bs with
  | nil => exact h
  | cons m ms ih => exact ih h.pkgWrite

/-! ### Translation (R21 to R26) -/

theorem tlbFill {e} (h : s.Accessed t) : s.Accessed (t.tlbFill e) :=
  h.onCaches

theorem tlbPull {unit ctx va} (h : s.Accessed t) : s.Accessed (t.tlbPull unit ctx va) := by
  unfold State.tlbPull
  grind [tlbFill]

theorem readPte {die pa} (h : s.Accessed t) : s.Accessed (t.readPte die pa).1 := by
  unfold State.readPte
  grind [postMemory, readHome]

theorem walkFrom {die ctx va fuel level table} (h : s.Accessed t) : s.Accessed (t.walkFrom die ctx va fuel level table).1 := by
  fun_induction State.walkFrom t die ctx va fuel level table <;> grind [onCaches, readPte]

theorem walk {die ctx va} (h : s.Accessed t) : s.Accessed (t.walk die ctx va).1 := by
  unfold State.walk
  grind [walkFrom]

theorem installLeaf {die ctx va level e units} (h : s.Accessed t) : s.Accessed (t.installLeaf die ctx va level e units) :=
  h.foldl fun _ _ h => h.tlbFill

theorem findNow {p need va} (h : s.Accessed t) : s.Accessed (t.findNow p need va).1 := by
  unfold State.findNow
  grind [tlbPull, walk, installLeaf]

theorem find {p need va} (h : s.Accessed t) : s.Accessed (t.find p need va).1 := by
  unfold State.find
  grind [tlbPull, findNow]

theorem mapPieces {p need ps} (h : s.Accessed t) : s.Accessed (t.mapPieces p need ps).1 := by
  fun_induction State.mapPieces t p need ps <;> grind [find]

theorem clearDeclined {who} (h : s.Accessed t) : s.Accessed (t.clearDeclined who) :=
  h.onCaches

theorem parkFault {asks a sub level} (h : s.Accessed t) : s.Accessed (t.parkFault asks a sub level) :=
  h.fresh.onCaches.post

theorem engMap {p need va n} (h : s.Accessed t) : s.Accessed (t.engMap p need va n).1 := by
  unfold State.engMap
  grind [parkFault, clearDeclined, mapPieces]
end

end State.Accessed

end Sys2Proof.Machine
end

section
/-! PROOFS. Stack array: how an element fires, what the joins of integers and the routing elements emit, and how tokens, DAWN and
DUSK move. -/

namespace Sys2Proof.Machine

/-! ### Firings (R59, R62) -/

section
variable {s : State} {st fi node opc : Nat} {r r' : Region} {n : Node}

/-- An element performs the first of its firings that its outputs have room for, what it does with COORD and STAT before the rest. -/
theorem State.element_fires {name : String} {f : Node → (Nat → List Tok) → List Firing}
    (hrun : s.runningNode st fi node opc = some (r, n))
    (hfire : (n.sweep (r.queue n.num) ++ f n (r.queue n.num)).findSome? r.fire = some r') :
    s.element name opc st fi node f = .next (s.setRegion { r' with fired := s.baseClk }) := by
  simp only [State.element, hrun, hfire]
end

/-! ### Joins of integers (R87, R92) -/

section
variable {n : Node} {q : Nat → List Tok}

/-- A join whose data inputs all show DATA, and not all COORD, consumes one of each. -/
theorem Node.joined_data {dp pp : List Nat} {f : List Nat → Bool → List (Nat × Tok)}
    (hcoord : (dp.all fun p => headIs Tok.isCoord (q p)) = false) (hdata : ((dp ++ pp).all fun p => headIs Tok.isData (q p)) = true) :
    let hs := (dp ++ pp).filterMap fun p => (q p).head?
    let exc := hs.any (·.exc) || (n.coord.map (·.exc)).getD false
    let out := (f (hs.map Tok.val) exc).flatMap fun o => withCoord n.coord o.1 o.2
    n.joined q dp pp f = [{ take := dp ++ pp, out := out, node := { n with coord := none } }] := by
  simp only [Node.joined, hcoord, hdata, if_true]
  rfl

/-- Additions, subtractions, products, maxima and minima have two inputs where no constant replaces one (R84, R85). -/
theorem Node.inPorts_join (hk : n.k = false) (h : n.opc = 3 ∨ n.opc = 4 ∨ n.opc = 5 ∨ n.opc = 7 ∨ n.opc = 8) :
    n.inPorts = [(0, true), (1, true)] := by
  obtain h | h | h | h | h := h <;> simp [Node.inPorts, h, hk]

/-- An arithmetic element of integers with two inputs emits its result on two DATA, flagged if one of them was; z is the third operand,
which none of these opcodes reads. -/
theorem Node.arith_int {e0 e1 : Bool} {x y : Word} {r0 r1 : List Tok} (hk : n.k = false) (hcoord : n.coord = none)
    (hfmt : fmtClass n.fmtIn0 = 2) (hopc : n.opc = 3 ∨ n.opc = 4 ∨ n.opc = 5 ∨ n.opc = 7 ∨ n.opc = 8)
    (h0 : q 0 = { kind := .data, exc := e0, payload := x } :: r0) (h1 : q 1 = { kind := .data, exc := e1, payload := y } :: r1) :
    ∃ z, let out := [(0, Tok.data (n.intResult x.toNat y.toNat z) (e0 || e1))]
      n.arith q = [{ take := [0, 1], out := out, node := { n with coord := none } }] := by
  have hports : n.inPorts.map (·.1) = [0, 1] := by rw [Node.inPorts_join hk hopc]; rfl
  refine ⟨(n.operands [x.toNat, y.toNat]).2.2, ?_⟩
  unfold Node.arith
  rw [hports, Node.joined_data (by simp [h0, headIs, Tok.isCoord]) (by simp [h0, h1, headIs, Tok.isData])]
  simp [h0, h1, hcoord, withCoord, Node.operands, hk, Node.result, hfmt, Flags.exc, Tok.val, nth]
end

/-! ### Routing (R95) -/

/-- PASS and FORK2 send a token other than DUSK on unchanged. -/
theorem Node.passOn_cons {n : Node} {q : Nat → List Tok} {t : Tok} {ts : List Tok} (hq : q 0 = t :: ts) (h : t.kind ≠ .dusk) :
    n.passOn q = [{ take := [0], out := n.toAll t, node := n }] := by
  simp only [Node.passOn, hq, if_neg h]

/-! ### Links, DAWN and DUSK (R61, R63, R89) -/

section
variable {s : State} {st fi : Nat} {r : Region} (hr : s.region? st fi = some r) (hlive : r.live = true)
include hr hlive

theorem State.exec_routeHop {route hop : Nat} {x : Route} {t : Tok} {ts : List Tok} (hx : r.routes[route]? = some x)
    (hhop : hop + 1 < x.links.length) (hwhole : x.broken = false) (ht : nth [] x.links hop = t :: ts)
    (hroom : (nth [] x.links (hop + 1)).length < 4) :
    let y : Route := { x with links := setNth (setNth x.links hop ts) (hop + 1) (nth [] x.links (hop + 1) ++ [t]) }
    exec (.routeHop st fi route hop) s = .next (s.setRegion { r with routes := setNth r.routes route y }) := by
  change execRouteHop st fi route hop s = _
  simp [execRouteHop, hr, hx, hlive, Nat.not_le.2 hhop, ht, hwhole, Nat.not_le.2 hroom, setRoute]

section
variable {route : Nat} {x : Route} {n : Node} (hx : r.routes[route]? = some x) (hdawn : x.dawn = true) (hn : r.node? x.dst = some n)
  (hbridge : n.isBridge = false)
include hx hdawn hn hbridge

/-- DAWN ends at a node that is live already. -/
theorem State.exec_dawnArrival_live (h : n.live = true) :
    exec (.dawnArrival st fi route) s = .next (s.setRegion { r with routes := setNth r.routes route { x with dawn := false } }) := by
  change execDawnArrival st fi route s = _
  simp [execDawnArrival, hr, hx, hlive, hdawn, hn, hbridge, h, setRoute]

/-- On its first DAWN a node becomes live and sends it on. -/
theorem State.exec_dawnArrival_wakes (h : n.live = false) :
    exec (.dawnArrival st fi route) s = .next (s.setRegion
      (({ r with routes := setNth r.routes route { x with dawn := false } }.setNode { n with live := true }).dawnOut n.num)) := by
  change execDawnArrival st fi route s = _
  simp [execDawnArrival, hr, hx, hlive, hdawn, hn, hbridge, h, setRoute, Region.wake]
end

/-- DUSK at the head of every connected input goes out on every connected output. -/
theorem State.exec_duskForward {node : Nat} {r' : Region} {n : Node} {t : Tok} {ports : List Nat} (hn : r.node? node = some n)
    (hnode : n.live = true) (hbridge : n.isBridge = false) (hsink : n.isSink = false)
    (hports : (n.inPorts.map (·.1)).filter (r.driven n.num) = ports) (hne : ports ≠ [])
    (hdusk : ∀ p ∈ ports, ∃ u us, r.queue n.num p = u :: us ∧ u.kind = .dusk)
    (ht : ports.head?.bind (fun p => (r.queue n.num p).head?) = some t)
    (hfire : r.fire { take := ports, out := n.toAll t, node := n } = some r') :
    exec (.duskForward st fi node) s = .next (s.setRegion { r' with fired := s.baseClk }) := by
  have hempty : ports.isEmpty = false := by simpa using hne
  obtain ⟨ts, hheads⟩ : ∃ ts, (ports.filterMap fun p => (r.queue n.num p).head?) = t :: ts := by
    cases ports with
    | nil => exact absurd rfl hne
    | cons p ps => exact ⟨_, List.filterMap_cons_some ht⟩
  have hlen : ts.length + 1 = ports.length := by
    rw [← List.length_cons, ← hheads, List.filterMap_length_eq_length]
    intro p hp
    obtain ⟨u, us, hq, -⟩ := hdusk p hp
    simp [hq]
  have hkinds : ((t :: ts).all fun u => u.kind == .dusk) = true := by
    rw [← hheads, List.all_eq_true]
    intro u hu
    obtain ⟨p, hp, hhead⟩ := List.mem_filterMap.1 hu
    obtain ⟨v, vs, hq, hv⟩ := hdusk p hp
    rw [hq] at hhead
    cases hhead
    simp [hv]
  change execDuskForward st fi node s = _
  simp only [execDuskForward, hr, hn, hports, hlive, hnode, hbridge, hsink, hempty, hheads, hlen, hkinds, hfire, beq_self_eq_true]
  rfl
end

/-- Settles O53: every element is a step of `State.element`, which performs the first firing with room; a join of integers has one
case per opcode; the other steps are their definitions under their conditions. -/
theorem arrayElements : Obligations.ArrayElements := by
  unfold Obligations.ArrayElements
  refine ⟨?_, ?_, fun n q t ts hq ht => Node.passOn_cons hq ht, ?_, ?_, ?_⟩
  · intro s st fi node r r' n c hc hrun hfire
    have helement : ∃ name, exec (c.1 st fi node) s = s.element name c.2.1 st fi node c.2.2 := by
      fin_cases hc <;> exact ⟨_, rfl⟩
    obtain ⟨name, hname⟩ := helement
    rw [hname, State.element_fires hrun hfire]
  · intro n q e0 e1 x y r0 r1 hk hcoord hfmt h0 h1 a b c hc hopc
    have hjoin : n.opc = 3 ∨ n.opc = 4 ∨ n.opc = 5 ∨ n.opc = 7 ∨ n.opc = 8 := by
      fin_cases hc <;> simp [hopc]
    obtain ⟨z, harith⟩ := Node.arith_int hk hcoord hfmt hjoin h0 h1
    have hresult : n.intResult x.toNat y.toNat z = narrowInt n.fmtOut (n.especBit 0) c.2 := by
      fin_cases hc <;> simp [Node.intResult, hopc, a, b]
    rw [harith, hresult]
  · intro s st fi route hop r x t ts hr hx hlive hhop hwhole ht hroom
    exact State.exec_routeHop hr hlive hx hhop hwhole ht hroom
  · intro s st fi route r x n hr hx hlive hdawn hn hbridge
    exact ⟨State.exec_dawnArrival_live hr hlive hx hdawn hn hbridge, State.exec_dawnArrival_wakes hr hlive hx hdawn hn hbridge⟩
  · intro s st fi node r r' n t hr hn hlive hnode hbridge hsink ports hne hdusk ht hfire
    exact State.exec_duskForward hr hlive hn hnode hbridge hsink rfl hne hdusk ht hfire

end Sys2Proof.Machine
end

section
/-! PROOFS. Stack array: loads and restores of regions, sources and sinks, arrivals, bridges, connections, hangs and drains. -/

namespace Sys2Proof.Machine

/-! ### Loads (R71, R75, R77) -/

section
variable {s t : State} {r : Region} {h : Header} {nodes : List Node} {routes : List Route}

/-- A load whose image is read and passes its checks ends with what is done with its tables. -/
theorem State.loadRegion_loads (hload : s.Loads r h nodes routes t) (name : String)
    {arm : State → Header → List Node → List Route → State} :
    s.loadRegion r name (fun w _ => arm w) = .next (arm t h nodes routes) := by
  obtain ⟨hdr, s1, s2, s3, plain, hread, rfl, hok, htables, hluts, rfl⟩ := hload
  simp [State.loadRegion, hread, hok, htables, hluts]

/-- A header that fails its check ends a load with code 1. -/
theorem State.loadRegion_badHeader {s1 : State} {hdr : List Byte} {name : String}
    {arm : State → List Byte → Header → List Node → List Route → State}
    (hread : s.engRead (r.party loaderNode) { kind := .arrayRead } r.image 64 = (s1, .ok (hdr, false)))
    (hbad : (Header.ofBytes r.width hdr).ok = false) :
    s.loadRegion r name arm = .next (s1.unarm r { code := 1 }) := by
  simp [State.loadRegion, hread, hbad]

variable {st fi : Nat}

/-- IMAGE_LOAD is the load of a region that is LOADING and not saved. -/
theorem State.exec_imageLoad (hr : s.region? st fi = some r) (hstate : r.state = .loading) (hslots : r.slots = []) :
    exec (.imageLoad st fi) s = s.loadRegion r "IMAGE_LOAD" fun w _ => w.arm r := by
  change execImageLoad st fi s = _
  simp [execImageLoad, hr, hstate, hslots]

/-- REGION_RESTORE of a saved region takes its bands again, loads its image and puts back what was saved. -/
theorem State.exec_regionRestore {w : State} {q : Region} (hnone : s.region? st fi = none) (hdue : s.restoreDue st fi = some r)
    (hq : { r with state := .loading } = q)
    (hw : (s.onEngines fun g => { g with regions := g.regions ++ [q], savedRegions := g.savedRegions.filter fun x => !x.at st fi }) = w)
    (hload : w.Loads q h nodes routes t) :
    exec (.regionRestore st fi) s = .next ((t.rearm q h nodes routes).endRestore st fi) := by
  change execRegionRestore st fi s = _
  simp only [execRegionRestore, hnone, hdue, hq, hw, State.loadRegion_loads hload]
end

/-! ### Sources (R36, R103) -/

section
variable {s s1 : State} {st fi : Nat} {r : Region} {n : Node} {e : Endpoint}

/-- The tokens of an element of at most a word that memory holds: none where SKIPZERO drops it, else its value, of PRED bit 0
alone. -/
theorem State.elementToks_word {a : Apr} (pos : Nat) (bs : List Byte) (p : Bool) (hsize : a.size ≤ 4) (hfmt : a.fmtCode ≠ 5) :
    let zero := p = false ∧ a.skipZero = true ∧ bs.all (· == 0) = true
    let v := if a.fmtCode = 13 then bytesToNat (bs.take 4) % 2 else bytesToNat (bs.take 4)
    s.elementToks a pos bs false p = (s, if zero then [] else a.emits pos (BitVec.ofNat 32 v) p) := by
  intro zero v
  have hzero : zero ↔ (!p && a.skipZero && bs.all (· == 0)) = true := by
    simp only [zero, Bool.and_eq_true, Bool.not_eq_true', and_assoc]
  have hnarrow : ¬(decide (4 < a.size) && !false) = true := by simpa using hsize
  unfold State.elementToks
  by_cases hz : zero
  · rw [if_pos (hzero.1 hz), if_pos hz]
  · rw [if_neg (mt hzero.2 hz), if_neg hfmt, if_neg hnarrow, if_neg hz]
    rfl

section
variable (hrun : s.runningNode st fi n.num 0x1D = some (r, n)) (he : r.endpoint? n.num = some e)
include hrun he

/-- SRC with a pending token emits it. -/
theorem State.exec_src_emits {t : Tok} {ts : List Tok} {r' : Region} (hpending : e.pending = t :: ts)
    (hemit : r.emitSrc n e t ts = some r') :
    exec (.src st fi n.num) s = .next (s.setRegion { r' with fired := s.baseClk }) := by
  change execSrc st fi n.num s = _
  simp only [execSrc, hrun, he, hpending, hemit]

variable {a : Apr} (hpending : e.pending = []) (hstate : r.state ≠ .draining) (ha : e.apr = some a)
include hpending hstate ha

/-- SRC at the end of its walk has EOI to emit. -/
theorem State.exec_src_ends (hend : a.total ≤ e.pos) :
    exec (.src st fi n.num) s = .next (s.setRegion (r.setEndpoint { e with walkDone := true, pending := [eoiTok e.inv false] })) := by
  change execSrc st fi n.num s = _
  simp [execSrc, hrun, he, hpending, hstate, ha, hend]

/-- SRC before the end of its walk takes a position. -/
theorem State.exec_src_walks (hpos : e.pos < a.total) : exec (.src st fi n.num) s = s.walkSrc r n e a := by
  change execSrc st fi n.num s = _
  simp [execSrc, hrun, he, hpending, hstate, ha, Nat.not_le.2 hpos]
end

/-- A position of the walk that is NOTHING leaves its markers alone. -/
theorem State.walkSrc_nothing {a : Apr} (h : a.elem e.pos = .nothing) :
    s.walkSrc r n e a = .next (s.setRegion (r.setEndpoint
      { e with parked := false, pos := e.pos + 1, pending := a.marks e.inv e.pos })) := by
  simp [State.walkSrc, h]

/-- A position of the walk in memory gives the tokens of its element, read for the endpoint, and its markers. -/
theorem State.walkSrc_at {a : Apr} {va : DWord} {m : Mapping} {s2 s3 : State} {bs : List Byte} {p : Bool} {ts : List Tok}
    (helem : a.elem e.pos = .at_ va) (hreach : s.reach (r.party n.num) (r.need false) va = (s1, .ok m))
    (hread : s1.pkgRead none m.pa a.size (policyOf m.cpol (b2n a.noAlloc)) = (s2, bs, p))
    (htoks : s2.elementToks a e.pos bs false p = (s3, ts)) :
    s.walkSrc r n e a = .next (s3.setRegion (r.setEndpoint
      { e with parked := false, pos := e.pos + 1, pending := ts ++ a.marks e.inv e.pos })) := by
  simp only [State.walkSrc, helem, hreach, hread, htoks]

/-! ### Sinks (R80, R104) -/

/-- The step of a sink whose head token is neither a DATA nor EOI: it consumes it, and only its node and endpoint change. -/
theorem State.sinkStep_skips {name : String} {opc : Nat} {t : Tok} {ts : List Tok} (hrun : s.runningNode st fi n.num opc = some (r, n))
    (he : r.endpoint? n.num = some e) (hq : r.queue n.num 0 = t :: ts) :
    let skips := fun (m : Node) (e : Endpoint) =>
      s.sinkStep name opc st fi n.num = .next (s.setRegion { (r.takeSink m).setEndpoint e with fired := s.baseClk })
    (t.kind ∈ [TokKind.eor, .eot] → skips { n with coord := none } e) ∧ (t.kind ∈ [TokKind.stat, .dawn] → skips n e) ∧
    (t.kind = .dusk → skips n { e with duskSeen := true }) ∧ (t.kind = .coord → skips { n with coord := some t } e) := by
  simp only [State.sinkStep, hrun, he, hq]
  cases t.kind <;> simp

/-- The step of a sink with an APR whose head token is a DATA. -/
theorem State.sinkStep_data {name : String} {opc : Nat} {t : Tok} {ts : List Tok} {a : Apr}
    (hrun : s.runningNode st fi n.num opc = some (r, n)) (he : r.endpoint? n.num = some e) (hq : r.queue n.num 0 = t :: ts)
    (ht : t.kind = .data) (ha : e.apr = some a) : s.sinkStep name opc st fi n.num = s.sinkData name r n e a t := by
  simp only [State.sinkStep, hrun, he, hq, ht, ha]

/-- A DATA of at most a word at a dense sink takes the next position of the walk. -/
theorem State.placeDense_word {a : Apr} {v : Word} {k : Nat} {va : DWord} (hfmt : a.fmtCode ≠ 5) (hsize : a.size ≤ 4)
    (hslot : a.nextSlot e.pos = some (k, .at_ va)) :
    s.placeDense e a v = (s,
      { e := { e with pos := k + 1, written := e.written + 1, pending := [] }, pos := some k,
        target := .write va ((wordBytes (if a.fmtCode = 13 then v &&& 1 else v)).take a.size) }) := by
  simp only [State.placeDense, hslot, State.sinkBytes, if_neg hfmt, if_neg (Nat.not_lt.2 hsize)]
  rfl

/-- A DATA without EXC that a dense sink places writes its bytes where they translate. -/
theorem State.sinkData_writes {name : String} {a : Apr} {t : Tok} {p : Placed} {va : DWord} {bs : List Byte} {ms : List (Mapping × Nat)}
    (hexc : t.exc = false) (herr : e.aprErr = 0) (hdense : a.coords = false) (hplace : s.placeDense e a t.payload = (s, p))
    (htarget : p.target = .write va bs) (hstatus : p.status = 0)
    (hmap : s.engMap (r.party n.num) (r.need true) va bs.length = (s1, .ok ms)) :
    let q := ((r.takeSink { n with coord := none }).setEndpoint { p.e with parked := false }).noteStatus e.inv 0
    s.sinkData name r n e a t = .next ((s1.writePieces none (b2n a.noAlloc) ms bs).setRegion { q with fired := s.baseClk }) := by
  intro q
  have hclock : (s1.writePieces none (b2n a.noAlloc) ms bs).baseClk = s.baseClk :=
    ((State.Accessed.refl s).engMap.of_fst hmap).writePieces.baseClk
  simp [State.sinkData, hexc, herr, hdense, hplace, State.targetDue, htarget, hmap, State.performDue, hstatus, hclock, q]

variable {c : (Nat → Nat → Nat → Instr) × Nat} (hc : c ∈ [(Instr.snk, 0x1E), (.snkbar, 0x1F)])
include hc

/-- SNK and SNKBAR are the step of a sink. -/
theorem State.exec_sink (st fi node : Nat) : ∃ name, exec (c.1 st fi node) s = s.sinkStep name c.2 st fi node := by
  fin_cases hc <;> exact ⟨_, rfl⟩
end

/-! ### Maps of hung regions (R82) -/

section
variable {s : State} {r : Region}

/-- A region without an address for its map hangs at once. -/
theorem State.writeMap_none (h : r.mapAddress = 0) : s.writeMap r = .next (s.declareHang r 0) :=
  if_pos h

/-- A region hangs once its map is written. -/
theorem State.writeMap_written {t : State} (h : r.mapAddress ≠ 0)
    (hw : s.engWrite (r.party mapNode) (r.need true) r.mapAddress (s.occMap r) = (t, .ok ())) :
    s.writeMap r = .next (t.declareHang r r.mapAddress) := by
  simp only [State.writeMap, if_neg h, hw]
end

section
variable {s : State} {st fi : Nat} {r : Region} (hr : s.region? st fi = some r)
include hr

/-! ### Arrivals (R76, R105) -/

/-- The first SNKBAR of the oldest invocation, completed, that has not arrived yet does. With the last of them the invocation leaves. -/
theorem State.exec_snkbarArrival {v : Invocation} {rest : List Invocation} {n : Node} {more : List Node} (hinvs : r.invs = v :: rest)
    (hdue : (r.barriers.filter fun n => !v.arrived.contains n.num) = n :: more) (hlive : r.live = true) (hdone : r.completed v = true) :
    let left := if more = [] then rest else { v with arrived := n.num :: v.arrived } :: rest
    exec (.snkbarArrival st fi) s = .next ((s.setRegion { r with invs := left }).barrierArrival r n v v.status) := by
  intro left
  change execSnkbarArrival st fi s = _
  simp only [execSnkbarArrival, hr, hinvs, hdue, hlive, hdone, List.isEmpty_iff]
  rfl

/-! ### Bridges (R106, R413) -/

section
variable {n : Node} {c : Channel} (hn : r.node? n.num = some n) (hlive : r.live = true) (hbridge : n.isBridge = true)
  (hnode : n.live = true) (hc : s.channel? ((s.spot r).bridge n.num) = some c)
include hn hlive hbridge hnode hc

/-- BRIDGE inbound passes on a token other than DAWN, where no DUSK makes its region drain and its region drains from no queue. -/
theorem State.exec_bridge_in {t : Tok} {ts : List Tok} {r' : Region} (ht : c.inTok = t :: ts) (hdawn : t.kind ≠ .dawn)
    (hdusk : t.kind ≠ .dusk ∨ r.state ≠ .running) (hdrain : r.state ≠ .draining ∨ isQueueId c.peer = false)
    (hfire : r.fire { out := [(0, t)], node := n } = some r') :
    exec (.bridge st fi n.num true) s = .next (((s.setRegion { r' with fired := s.baseClk }).onChannel c.id
      fun c => { c with inTok := c.inTok.drop 1 }).returnCredits c 1) := by
  have hstay : s.drainWith r c = none := by simpa [State.drainWith, ht, imp_iff_not_or] using hdusk
  change execBridge st fi n.num true s = _
  obtain h | h := hdrain <;>
    simp [execBridge, hr, hn, hlive, hbridge, hc, State.bridgeIn, h, hstay, ht, hdawn, hnode, hfire]

/-- BRIDGE outbound sends a token other than a DUSK that a queue would get. -/
theorem State.exec_bridge_out {t : Tok} {ts : List Tok} {r' : Region} (hq : r.queue n.num 0 = t :: ts) (hout : c.outTok = [])
    (hdusk : t.kind ≠ .dusk ∨ isQueueId c.peer = false) (hfire : r.fire { take := [0], node := n } = some r') :
    exec (.bridge st fi n.num false) s =
      .next ((s.setRegion { r' with fired := s.baseClk }).onChannel c.id fun c => { c with outTok := [t] }) := by
  have hsends : ¬(t.kind = .dusk ∧ isQueueId c.peer = true) := by
    rwa [not_and_or, Bool.not_eq_true]
  change execBridge st fi n.num false s = _
  simp [execBridge, hr, hn, hlive, hbridge, hc, State.bridgeOut, hq, hnode, hout, hfire, hsends]
end

/-! ### Hangs (R81) -/

section
variable (hstate : r.state = .running ∨ r.state = .draining) (hinterval : r.hangInterval ≠ 0) (hcount : r.suspended = none)
  (hpark : s.regionParked r = false) (htokens : s.tokensRemain r = true) (hdue : r.fired + r.hangInterval ≤ s.baseClk)
include hstate hinterval hcount hpark htokens hdue

/-- HANG freezes a region whose monitor's count has reached its interval, and goes on to its map. -/
theorem State.exec_hang :
    let q : Region := { r with state := .frozen, code := 0x40, item := 0, itemRoute := false, mapDue := some s.baseClk }
    exec (.hang st fi) s = (s.setRegion q).writeMap q := by
  change execHang st fi s = _
  obtain h | h := hstate <;> simp [execHang, hr, h, hinterval, hcount, hpark, htokens, Nat.not_lt.2 hdue]
end

/-! ### Drains (R413, R414) -/

/-- DRAIN_COMPLETE of a region whose sinks have drained saves it with the slots of its record, and its bands are EMPTY. -/
theorem State.exec_drainComplete {t : State} {ks : List Nat} (hstate : r.state = .draining) (hsinks : r.sinks.all r.sinkDrained = true)
    (hdecl : s.declinedOf (r.party saveNode).who = none) (hpark : s.isParked (r.party saveNode).who = false)
    (hsave : s.saveRecord (r.party saveNode) r.record = (t, .ok ks)) :
    ∃ u, exec (.drainComplete st fi) s = .next u ∧ u.region? st fi = none ∧
      u.engines.savedRegions = t.engines.savedRegions ++ [{ r with state := .empty, slots := ks, suspended := none }] := by
  refine ⟨((t.forgetRegion st fi).onEngines fun g =>
    { g with regions := g.regions.filter fun x => !x.at st fi,
             savedRegions := g.savedRegions ++ [{ r with state := .empty, slots := ks, suspended := none }] }).sweepImages, ?_, ?_, rfl⟩
  · change execDrainComplete st fi s = _
    simp [execDrainComplete, hr, hstate, hsinks, hdecl, hpark, hsave]
  · simp [State.region?, State.sweepImages]
end

/-! ### Connections (R79) -/

section
variable {s : State} {x y : Word} {c d : Channel} {t : Tok} {ts : List Tok} (hx : s.channel? x = some c)
include hx

/-- Two ends of this part that name each other and agree connect, each with the credit its peer has room for. -/
theorem State.exec_connectionForm (hy : s.channel? y = some d) (hcy : c.peer = y) (hdx : d.peer = x) (hapart : c.connected = false)
    (hpart : chanPart y = s.partNumber) (hfmt : formatsAgree c.fmt d.fmt = true) :
    let joined := fun (other c : Channel) => { c with connected := true, credit := 64 - other.inTok.length }
    exec (.connectionForm x y) s = .next ((s.onChannel x (joined d)).onChannel y (joined c)) := by
  change execConnectionForm x y s = _
  simp [execConnectionForm, hx, hy, hcy, hdx, hapart, hpart, hfmt, queueDepth]

/-- The oldest token of a connected end with a credit goes to its peer on this part. -/
theorem State.exec_streamTransfer (ht : c.outTok = t :: ts) (hconn : c.connected = true) (hcredit : c.credit ≠ 0)
    (htakes : s.peerTakes c = true) (hpart : chanPart c.peer = s.partNumber) :
    let sent := fun (c : Channel) => { c with outTok := ts, credit := c.credit - 1 }
    let got := fun (p : Channel) => { p with inTok := p.inTok ++ [t] }
    exec (.streamTransfer x) s = .next ((s.onChannel x sent).onChannel c.peer got) := by
  intro sent got
  have hsame : chanPart c.peer = (s.onChannel x sent).partNumber := hpart
  change execStreamTransfer x s = _
  simp only [execStreamTransfer, hx, ht, hconn, hcredit, htakes]
  exact if_pos hsame
end

/-- LINK_LOSS severs the connection of two ends that stand connected. -/
theorem State.exec_linkLoss {s : State} {x y : Word} :
    let on := fun (c : Channel) => (c.id == x && c.peer == y) || (c.id == y && c.peer == x)
    (∃ c ∈ s.engines.channels, c.connected = true ∧ c.saved = false ∧ on c = true) →
      exec (.linkLoss x y) s = .next (s.severConnections on) := by
  rintro on ⟨c, hc, hconn, hsaved, hon⟩
  have hany : (s.engines.channels.any fun c => c.connected && !c.saved && on c) = true :=
    List.any_eq_true.2 ⟨c, hc, by rw [hconn, hsaved, hon]; rfl⟩
  change execLinkLoss x y s = _
  exact if_pos hany

/-- Settles O54: each clause is the lemma above of its step. The credit of a connection that forms is the model's choice (log 59),
as are the completion of an invocation without a sink (log 78) and where a restore injects DAWN again (log 82). -/
theorem arrayRegionSteps : Obligations.ArrayRegionSteps := by
  unfold Obligations.ArrayRegionSteps
  intro s st fi r
  refine ⟨fun hr => ⟨fun hstate hslots => ⟨fun h nodes routes t hload => ?_, fun s1 hdr hread hbad => ?_⟩, ?_, ?_, ?_, ?_⟩,
    ?_, ?_, ?_, ?_, ?_, ?_⟩
  · rw [State.exec_imageLoad hr hstate hslots, State.loadRegion_loads hload]
  · rw [State.exec_imageLoad hr hstate hslots, State.loadRegion_badHeader hread hbad]
    rfl
  · intro v rest n more hinvs hdue hlive hdone
    exact State.exec_snkbarArrival hr hinvs hdue hlive hdone
  · intro n c hn hlive hbridge hnode hc
    exact ⟨fun t ts r' ht hdawn hdusk hdrain hfire => State.exec_bridge_in hr hn hlive hbridge hnode hc ht hdawn hdusk hdrain hfire,
      fun t ts r' hq hout hdusk hfire => State.exec_bridge_out hr hn hlive hbridge hnode hc hq hout hdusk hfire⟩
  · intro hstate hinterval hcount hpark htokens hdue q w
    have hhang : exec (.hang st fi) s = w.writeMap q := State.exec_hang hr hstate hinterval hcount hpark htokens hdue
    refine ⟨fun hmap => hhang.trans (State.writeMap_none hmap), fun map t hmap hne hwrite => ?_⟩
    subst hmap
    exact hhang.trans (State.writeMap_written hne hwrite)
  · intro t ks hstate hsinks hdecl hpark hsave
    exact State.exec_drainComplete hr hstate hsinks hdecl hpark hsave
  · intro hnone hdue q kept w h nodes routes t hload
    exact State.exec_regionRestore hnone hdue rfl rfl hload
  · intro n e hrun he
    refine ⟨fun t ts r' hpending hemit => State.exec_src_emits hrun he hpending hemit, fun a hpending hstate ha => ⟨?_, ?_, ?_⟩⟩
    · exact State.exec_src_ends hrun he hpending hstate ha
    · intro hpos helem
      rw [State.exec_src_walks hrun he hpending hstate ha hpos, State.walkSrc_nothing helem]
    · intro va s1 m s2 bs p hpos helem hreach hsize hfmt hread zero v out
      rw [State.exec_src_walks hrun he hpending hstate ha hpos]
      exact State.walkSrc_at helem hreach hread (State.elementToks_word e.pos bs p hsize hfmt)
  · intro c hc n e t ts hrun he hq skips
    obtain ⟨name, hname⟩ := State.exec_sink (s := s) hc st fi n.num
    obtain ⟨hmarker, hstat, hdusk, hcoord⟩ := State.sinkStep_skips (name := name) hrun he hq
    refine ⟨fun h => hname.trans (hmarker h), fun h => hname.trans (hstat h), fun h => hname.trans (hdusk h),
      fun h => hname.trans (hcoord h), ?_⟩
    intro a k va s1 ms ht hexc ha herr hdense hfmt hsize hslot bs hmap done q
    rw [hname, State.sinkStep_data hrun he hq ht ha]
    have hplace := State.placeDense_word (s := s) (v := t.payload) hfmt hsize hslot
    have hwrites := State.sinkData_writes (name := name) hexc herr hdense hplace rfl rfl hmap
    exact hwrites
  · intro x y c d hx hy hcy hdx hapart hpart hfmt
    exact State.exec_connectionForm hx hy hcy hdx hapart hpart hfmt
  · intro x c t ts hx ht hconn hcredit htakes hpart
    exact State.exec_streamTransfer hx ht hconn hcredit htakes hpart
  · intro x y
    exact State.exec_linkLoss

end Sys2Proof.Machine
end

section
/-! PROOFS. Caches: what stands beside an access of memory, and stays as it is: every function through which a core's accesses
go keeps the slices, the thread groups and `State.apart`. -/

set_option Elab.async false

namespace Sys2Proof.Machine

/-- t is s but for what accesses of memory change, and has its slices and thread groups. -/
def State.Beside (s t : State) : Prop := t.slices = s.slices ∧ t.groups = s.groups ∧ s.Accessed t

namespace State.Beside

section
variable {r s t : State}

theorem refl (s : State) : s.Beside s := ⟨rfl, rfl, .refl s⟩

theorem trans (h : r.Beside s) (h' : s.Beside t) : r.Beside t :=
  ⟨h'.1.trans h.1, h'.2.1.trans h.2.1, h'.2.2.trans h.2.2⟩

theorem foldl {α : Type} {f : State → α → State} {l : List α} (h : s.Beside t) (hf : ∀ t a, s.Beside t → s.Beside (f t a)) :
    s.Beside (l.foldl f t) :=
  List.foldlRecOn _ _ h fun _ hb _ _ => hf _ _ hb

/-! ### Updates and reports -/

theorem onCaches {f} (h : s.Beside t) : s.Beside (t.onCaches f) := h

theorem setBank {b} (h : s.Beside t) : s.Beside (t.setBank b) := h

theorem post {e} (h : s.Beside t) : s.Beside (t.post e) := by
  unfold State.post
  split <;> exact h

theorem postMemory {source code ctx core payload detail} (h : s.Beside t) :
    s.Beside (t.postMemory source code ctx core payload detail) :=
  h.post

/-! ### Banks and the memory-side cache (R28 to R31) -/

theorem dramStore {line i d} (h : s.Beside t) : s.Beside (t.dramStore line i d) := h

theorem dramWrite {line p d} (h : s.Beside t) : s.Beside (t.dramWrite line p d) := by
  unfold State.dramWrite
  grind [dramStore]

theorem dramMeet {stack line keep i} (h : s.Beside t) : s.Beside (t.dramMeet stack line keep i).1 :=
  iteInduction (motive := fun p : State × Bool => s.Beside p.1) (fun _ => h.postMemory) fun _ => h

theorem dramRead {stack line p keep} (h : s.Beside t) : s.Beside (t.dramRead stack line p keep).1 := by
  unfold State.dramRead
  grind [dramMeet]

theorem serveReq {q} (h : s.Beside t) : s.Beside (t.serveReq q) :=
  h.onCaches.dramWrite

theorem settleBank {line} (h : s.Beside t) : s.Beside (t.settleBank line) :=
  h.foldl fun _ _ h => h.serveReq

theorem bankTurn {line} (h : s.Beside t) : s.Beside (t.bankTurn line) := by
  unfold State.bankTurn
  grind [setBank, serveReq, foldl]

theorem mscPlace {stack line} (h : s.Beside t) : s.Beside (t.mscPlace stack line) := by
  unfold State.mscPlace
  grind [onCaches]

theorem mscRead {stack line want alloc seq} (h : s.Beside t) : s.Beside (t.mscRead stack line want alloc seq).1 := by
  unfold State.mscRead
  grind [dramRead, settleBank, bankTurn, mscPlace]

theorem mscWrite {stack line off bs bad alloc} (h : s.Beside t) : s.Beside (t.mscWrite stack line off bs bad alloc) := by
  unfold State.mscWrite
  grind [onCaches, mscPlace, mscRead]

theorem mscPut {stack line p d} (h : s.Beside t) : s.Beside (t.mscPut stack line p d) := by
  unfold State.mscPut
  grind [mscWrite]

theorem serveMsc {q} (h : s.Beside t) : s.Beside (t.serveMsc q) :=
  h.onCaches.mscPut

theorem settleMsc {line} (h : s.Beside t) : s.Beside (t.settleMsc line) :=
  h.foldl fun _ _ h => h.serveMsc

/-! ### The die cache (R107, R108) -/

theorem diePlace {stack line} (h : s.Beside t) : s.Beside (t.diePlace stack line) := by
  unfold State.diePlace
  grind [onCaches]

theorem dieWriteBack {pa drop} (h : s.Beside t) : s.Beside (t.dieWriteBack pa drop) := by
  unfold State.dieWriteBack
  grind [onCaches, mscPut, settleMsc]

theorem homeLine {line want p} (h : s.Beside t) : s.Beside (t.homeLine line want p).1 := by
  unfold State.homeLine
  grind [mscRead, settleMsc, diePlace, dieWriteBack]

theorem homePut {pa bs bad p} (h : s.Beside t) : s.Beside (t.homePut pa bs bad p) := by
  unfold State.homePut
  grind [mscRead, mscWrite, settleMsc, diePlace, dieWriteBack, foldl]

theorem readHome {pa n p} (h : s.Beside t) : s.Beside (t.readHome pa n p).1 :=
  h.homeLine

theorem homeRmw {pa n p f} (h : s.Beside t) : s.Beside (t.homeRmw pa n p f).1 := by
  unfold State.homeRmw
  grind [readHome, State.writeHome, homePut]

/-! ### Scratchpads (R151) -/

theorem meetWords {core ws} (h : s.Beside t) : s.Beside (t.meetWords core ws) :=
  h.foldl fun _ _ h => post h

theorem poke {pa bs} (h : s.Beside t) : s.Beside (t.poke pa bs) :=
  h.meetWords

theorem scratchRead {pa n} (h : s.Beside t) : s.Beside (t.scratchRead pa n).1 :=
  h.meetWords

/-! ### The quads (R107 to R118) -/

theorem drainWts {p} (h : s.Beside t) : s.Beside (t.drainWts p) :=
  h.onCaches.foldl fun _ _ h => h.homePut

theorem drainQuad {quad} (h : s.Beside t) : s.Beside (t.drainQuad quad) :=
  h.drainWts

theorem sendWt {core pa bs p} (h : s.Beside t) : s.Beside (t.sendWt core pa bs p) := by
  unfold State.sendWt
  split <;> exact h

theorem l1Drop {quad line except} (h : s.Beside t) : s.Beside (t.l1Drop quad line except) := h

theorem l1Put {l} (h : s.Beside t) : s.Beside (t.l1Put l) := h

theorem l1Write {core line off bs} (h : s.Beside t) : s.Beside (t.l1Write core line off bs) := h

theorem quadWriteBack {l} (h : s.Beside t) : s.Beside (t.quadWriteBack l) := by
  unfold State.quadWriteBack
  grind [onCaches, homePut]

theorem quadOut {quad line} (h : s.Beside t) : s.Beside (t.quadOut quad line) := by
  unfold State.quadOut
  grind [onCaches, l1Drop, quadWriteBack]

theorem applyOne {d} (h : s.Beside t) : s.Beside (t.applyOne d) :=
  h.onCaches.drainQuad.quadOut.homeRmw

theorem applyDeferred {d} (h : s.Beside t) : s.Beside (t.applyDeferred d) :=
  h.foldl fun _ _ h => h.applyOne

theorem flushDeferred {p} (h : s.Beside t) : s.Beside (t.flushDeferred p) := by
  refine h.foldl fun u d h => ?_
  split
  · exact h.applyDeferred
  · exact h

theorem quadDrop {quad line} (h : s.Beside t) : s.Beside (t.quadDrop quad line) :=
  h.flushDeferred.quadOut

theorem quadFill {quad line want priv p} (h : s.Beside t) : s.Beside (t.quadFill quad line want priv p) := by
  unfold State.quadFill
  grind [onCaches, homeLine, drainQuad, quadDrop]

theorem quadGet {quad line want priv p} (h : s.Beside t) : s.Beside (t.quadGet quad line want priv p).1 := by
  unfold State.quadGet
  grind [quadFill]

theorem quadUse {l keep} (h : s.Beside t) : s.Beside (t.quadUse l keep) := h

theorem readThrough {core quad line want} (h : s.Beside t) : s.Beside (t.readThrough core quad line want).1 := by
  unfold State.readThrough
  grind [homeLine, drainQuad, quadUse, Option.bind]

theorem quadRead {core pa n priv p} (h : s.Beside t) : s.Beside (t.quadRead core pa n priv p).1 := by
  unfold State.quadRead
  grind [readHome, drainQuad, l1Put, quadDrop, quadGet, quadUse, readThrough]

theorem quadWrite {core pa bs priv p} (h : s.Beside t) : s.Beside (t.quadWrite core pa bs priv p) := by
  unfold State.quadWrite
  grind [sendWt, l1Drop, l1Write, quadDrop, quadFill, quadUse, foldl]

/-! ### Releases, acquires and accesses of a core (R112, R113) -/

theorem releaseAt {e x sc} (h : s.Beside t) : s.Beside (t.releaseAt e x sc) := by
  unfold State.releaseAt
  grind [drainQuad, flushDeferred]

theorem acquireAt {e sc} (h : s.Beside t) : s.Beside (t.acquireAt e sc) := by
  unfold State.acquireAt
  split <;> exact h

theorem coreRead {core m n cp} (h : s.Beside t) : s.Beside (t.coreRead core m n cp).1 := by
  unfold State.coreRead
  split
  · exact h.flushDeferred.quadRead
  · exact h.scratchRead

theorem coreWrite {core m bs cp} (h : s.Beside t) : s.Beside (t.coreWrite core m bs cp) := by
  unfold State.coreWrite
  split
  · exact h.flushDeferred.quadWrite
  · exact h.poke

/-! ### Operations on lines (R288 to R291) -/

theorem cleanLine {quad line} (h : s.Beside t) : s.Beside (t.cleanLine quad line) := by
  unfold State.cleanLine
  split
  · exact h.quadWriteBack
  · exact h

theorem flushLine {core sc line} (h : s.Beside t) : s.Beside (t.flushLine core sc line) := by
  unfold State.flushLine State.applyFor
  grind [settleMsc, dieWriteBack, drainQuad, flushDeferred, cleanLine]

theorem dropLine {core sc line} (h : s.Beside t) : s.Beside (t.dropLine core sc line) := by
  unfold State.dropLine
  grind [onCaches, quadDrop]

theorem pinLine {e m} (h : s.Beside t) : s.Beside (t.pinLine e m).1 := by
  unfold State.pinLine
  grind [onCaches, quadFill, Option.bind]

theorem unpinLine {e m} (h : s.Beside t) : s.Beside (t.unpinLine e m) := by
  unfold State.unpinLine
  grind [onCaches]

theorem prefetch {core m cp} (h : s.Beside t) : s.Beside (t.prefetch core m cp) := by
  unfold State.prefetch
  grind [homeLine, quadRead]

/-! ### Translation (R21) -/

theorem tlbPull {unit ctx va} (h : s.Beside t) : s.Beside (t.tlbPull unit ctx va) := by
  unfold State.tlbPull State.tlbFill
  grind [onCaches]
end

end State.Beside
end Sys2Proof.Machine
end

section
/-! PROOFS. Caches: how a slice that issues alone runs an instruction of memory whose accesses can be performed. -/

set_option Elab.async false

namespace Sys2Proof.Machine

/-! ### The slice that issues -/

/-- t has the slice x, and is else s but for what accesses of memory change. -/
structure State.Standing (s t : State) (x : Slice) : Prop where
  here : t.slice? x.uid = some x
  others : ∀ u, u ≠ x.uid → t.slice? u = s.slice? u
  groups : t.groups = s.groups
  rest : t.apart = s.apart

section
variable {s t u : State} {x : Slice} {i : Instr} {p : Option Pfx}

theorem State.Standing.beside (h : s.Standing t x) (hb : t.Beside u) : s.Standing u x := by
  obtain ⟨slices, groups, rest⟩ := hb
  have find : ∀ v, u.slice? v = t.slice? v := State.slice?_of_slices slices
  exact ⟨(find _).trans h.here, fun v hv => (find v).trans (h.others v hv), groups.trans h.groups, Eq.trans rest h.rest⟩

/-- A slice retires an instruction: it is what a commit of its result leaves of it. -/
theorem State.Standing.step {d : Dst} {rs held : List Reg} {new : Nat → Nat → LaneWord} (h : s.Standing t x) (hn : rs.length ≤ 4)
    (hv : ∀ k l, l < 4 → k < rs.length → (nth (.u 0) rs k).lane l = new k l)
    (hx : u.slice? x.uid = some (x.commit i p { dst := d, regs := rs, held := held }))
    (ho : ∀ v, v ≠ x.uid → u.slice? v = t.slice? v) (hg : u.groups = t.groups) (hr : u.apart = t.apart) :
    s.MemStep u i p x d rs.length new held := by
  obtain ⟨w, hw, took⟩ := x.commit_took i p { dst := d, regs := rs, held := held } new hn hv
  exact ⟨⟨w, took, hx.trans (congrArg some hw)⟩, fun v hv => (ho v hv).trans (h.others v hv), hg.trans h.groups, hr.trans h.rest⟩

theorem State.Standing.retire {d : Dst} {rs held : List Reg} {new : Nat → Nat → LaneWord} (h : s.Standing t x) (hn : rs.length ≤ 4)
    (hv : ∀ k l, l < 4 → k < rs.length → (nth (.u 0) rs k).lane l = new k l) :
    s.MemStep (t.retireMem i x.uid p d rs held) i p x d rs.length new held := by
  have find := fun v => t.slice?_onSlice x.uid (fun y => y.commit i p { dst := d, regs := rs, held := held })
    (fun y => y.commit_uid _ _ _) v
  refine h.step hn hv ?_ (fun v hv => ?_) rfl rfl
  · exact (find x.uid).trans (by simp [h.here])
  · refine (find v).trans ?_
    cases hs : t.slice? v with
    | none => rfl
    | some y => simp [State.slice?_uid hs, hv]

/-- A slice retires an instruction without a result. -/
theorem State.Standing.retireNone (h : s.Standing t x) :
    s.MemStep (t.retireMem i x.uid none .zero [] []) i p x .zero 0 (fun _ _ => {}) [] :=
  h.retire (p := p) (rs := []) (Nat.zero_le 4) fun _ _ _ hk => absurd hk (Nat.not_lt_zero _)

theorem State.MemStep.onCaches {d : Dst} {n : Nat} {new : Nat → Nat → LaneWord} {held : List Reg} {f : Caches → Caches}
    (h : s.MemStep t i p x d n new held) : s.MemStep (t.onCaches f) i p x d n new held :=
  ⟨h.slice, h.others, h.groups, h.rest⟩

theorem State.Standing.refl (h : s.slice? x.uid = some x) : s.Standing s x := ⟨h, fun _ _ => rfl, rfl, rfl⟩

/-- The slice stands up before it issues. -/
theorem State.Standing.standUp (hc : s.cur = [x.uid]) (h : s.slice? x.uid = some x) : s.Standing s.standUp x.stood := by
  have find := s.slice?_map (fun y => if s.cur.contains y.uid then { y with parked := y.lasting } else y) (fun y => by split <;> rfl)
  refine ⟨(find _).trans ?_, fun v hv => (find v).trans ?_, rfl, rfl⟩
  · rw [show x.stood.uid = x.uid from rfl, h, Option.map_some, if_pos (by simp [hc])]
    rfl
  · cases hs : s.slice? v with
    | none => rfl
    | some y => rw [Option.map_some, if_neg (by rw [State.slice?_uid hs, hc]; simpa [show x.stood.uid = x.uid from rfl] using hv)]

/-- Replies that no access awaits are not used up. -/
theorem State.endRemotes_none (hr : ∀ r ∈ t.outside.remotes, r.slice ≠ x.uid) (k : Option Nat) :
    t.endRemotes x.uid i k = t.onSlice x.uid fun y => y := by
  have none : (t.outside.remotes.filter fun r => r.slice == x.uid && r.instr == i && r.parked == k) = [] :=
    List.filter_eq_nil_iff.2 fun r hm => by simp [hr r hm]
  simp [State.endRemotes, none, State.onOutside, State.onSlice]
end

/-! ### Translation of the lanes -/

theorem Slice.lasting_stood (x : Slice) : x.stood.lasting = x.lasting := by
  simp [Slice.stood, Slice.lasting, List.filter_filter]

/-- The TLBs after the lanes' addresses have been looked up. -/
def State.pulled (s : State) (p : Party) (as : List LaneAddr) : State :=
  as.foldl (fun s a => s.tlbPull p.unit p.ctx a.va.toNat) s

theorem State.pulled_beside (s : State) (p : Party) (as : List LaneAddr) : s.Beside (s.pulled p as) :=
  (State.Beside.refl s).foldl fun _ _ h => h.tlbPull

section
variable {s : State} {x : Slice} {need : Need} {cp : Nat} {as : List LaneAddr} {tr : DWord → Mapping} {who : Party}

/-- Addresses that all translate. -/
theorem State.translate_ok (hd : s.declinedOf who.who = none) (hp : s.isParked who.who = false)
    (h : ∀ a ∈ as, s.look who need a.va = .ok (tr a.va)) :
    s.translate who (as.map fun a => (a.va, need)) = (s.pulled who as, .ok (as.map fun a => tr a.va)) := by
  have looks : ((as.map fun a => (a.va, need)).map fun q => (q, s.look who q.2 q.1)) =
      as.map fun a => ((a.va, need), Look.ok (tr a.va)) := by
    rw [List.map_map]
    exact List.map_congr_left fun a ha => by simp [h a ha]
  have fault : (as.map fun a => ((a.va, need), Look.ok (tr a.va))).find? (fun q => q.2.fault?.isSome) = none := by
    simp [Look.fault?]
  have miss : (as.map fun a => ((a.va, need), Look.ok (tr a.va))).filter (fun q => q.2 == .miss) = [] := by
    simp
  have held : (as.map fun a => ((a.va, need), Look.ok (tr a.va))).any (fun q => q.2 == .held) = false := by
    simp
  have maps : (as.map fun a => ((a.va, need), Look.ok (tr a.va))).filterMap (fun q => q.2.mapping?) = as.map fun a => tr a.va := by
    simp [List.filterMap_map, Look.mapping?]
  simp only [State.translate, hd, hp, looks, Bool.false_eq_true, if_false, fault, miss, held, maps, List.isEmpty_nil, if_true,
    List.foldl_map]
  rfl
end

/-- Looking up addresses changes the caches alone. -/
theorem State.pulled_caches (s : State) (p : Party) (as : List LaneAddr) : ∃ c, s.pulled p as = { s with caches := c } := by
  refine List.foldlRecOn (motive := fun t => ∃ c, t = { s with caches := c }) as _ ⟨s.caches, rfl⟩ fun t ht a _ => ?_
  obtain ⟨c, rfl⟩ := ht
  unfold State.tlbPull
  split
  · exact ⟨c, rfl⟩
  · split
    · exact ⟨_, rfl⟩
    · exact ⟨c, rfl⟩

theorem zip_map_right_self {α β : Type} (f : α → β) (xs : List α) : xs.zip (xs.map f) = xs.map fun a => (a, f a) := by
  simpa using (List.zip_map' : (xs.map id).zip (xs.map f) = _)

/-! ### The run -/

/-- The one member of a gang of one slice. -/
def State.sole (s : State) (x : Slice) (p : Option Pfx) (as : List LaneAddr) : Member :=
  { slice := x.stood, env := s.env x, take := takeOf x p, addrs := as }

theorem misaligned?_none {as : List LaneAddr} {n : Nat} (h : ∀ a ∈ as, a.va.toNat % n = 0) : misaligned? as n = none := by
  have : as.find? (fun a => a.va.toNat % n != 0) = none := by simpa using h
  simp [misaligned?, this]

/-- An instruction of memory whose accesses can be performed: no trap, no wait, no walk, no fault, no migration. -/
theorem State.runMem_alone {s : State} {x : Slice} {i : Instr} {p : Option Pfx} {srcs : Slice → Env → List Reg}
    {addrs : Slice → Env → BitVec 4 → List LaneAddr} {align cp : Nat} {need : Need} {ready : Member → Bool} {park : Option Parking}
    {remote : State → List (Member × Tr) → State × Bool} {perform : State → List (Member × Tr) → State} {tr : DWord → Mapping}
    {as : List LaneAddr} (has : addrs x.stood (s.env x) (takeOf x p) = as)
    (h : s.Alone i x (srcs x.stood (s.env x)) (takeOf x p)) (ha : ∀ a ∈ as, a.va.toNat % align = 0)
    (hr : s.Reaches x need cp as tr) (hready : ready (s.sole x p as) = true)
    (hremote : ∀ t, remote t [(s.sole x p as, .ok (as.map fun a => tr a.va))] = (t, true)) :
    s.runMem i p srcs addrs align need cp ready park remote perform =
      .next (perform (s.standUp.pulled ((s.env x).party x.uid) as) [(s.sole x p as, .ok (as.map fun a => tr a.va))]) := by
  have stand := State.Standing.standUp h.cur h.here
  have members : s.standUp.members p addrs = [s.sole x p as] := by
    have cur : s.standUp.curSlices = [x.stood] := by
      have : s.standUp.slice? x.uid = some x.stood := stand.here
      simp [State.curSlices, show s.standUp.cur = [x.uid] from h.cur, this]
    simp only [State.members, cur, List.map_cons, List.map_nil, ← has]
    rfl
  have able : s.standUp.issueTrap i x.stood (s.env x) (srcs x.stood (s.env x)) (takeOf x p) = none := h.able.issueTrap
  have traps : s.standUp.memTraps i srcs align [s.sole x p as] = [] := by
    have : s.standUp.issueTrap i (s.sole x p as).slice (s.sole x p as).env (srcs (s.sole x p as).slice (s.sole x p as).env)
      (s.sole x p as).take = none := able
    simp [State.memTraps, this, misaligned?_none (show ∀ a ∈ (s.sole x p as).addrs, _ from ha)]
  have wait : x.stood.mustWait as = false := by
    have := hr.room
    unfold Slice.mustWait at this ⊢
    rwa [x.lasting_stood]
  have translate : s.standUp.translateAll need [s.sole x p as] =
      (s.standUp.pulled ((s.env x).party x.uid) as, [(s.sole x p as, .ok (as.map fun a => tr a.va))]) := by
    have := State.translate_ok (s := s.standUp) (need := need) (who := (s.env x).party x.uid) (as := as) (tr := tr)
      h.able.declined hr.free hr.maps
    simp only [State.translateAll]
    rw [show ((s.sole x p as).addrs.map fun a => (a.va, need)) = as.map fun a => (a.va, need) from rfl]
    rw [show (s.sole x p as).env.party (s.sole x p as).slice.uid = (s.env x).party x.uid from rfl, this]
  have busy : (s.standUp.pulled ((s.env x).party x.uid) as).membersBusy
      [(s.sole x p as, .ok (as.map fun a => tr a.va))] = false := by
    obtain ⟨c, hc⟩ := s.standUp.pulled_caches ((s.env x).party x.uid) as
    have idle : ∀ a ∈ as, State.matBusy { s.standUp with caches := c } x.uid s.nextId (tr a.va).pa a.bytes = false := hr.idle
    rw [hc]
    simp only [State.membersBusy, List.any_cons, List.any_nil, Bool.or_false, List.any_eq_false, Tr.maps]
    intro q hq
    rw [show (s.sole x p as).addrs = as from rfl, zip_map_right_self] at hq
    obtain ⟨a, ham, rfl⟩ := List.mem_map.1 hq
    exact Bool.eq_false_iff.1 (idle a ham)
  have stays : ∀ t : State, t.migrateMembers cp [(s.sole x p as, .ok (as.map fun a => tr a.va))] = (t, false) := fun t => by
    have zip : (((s.sole x p as).addrs.map (·.va)).zip (as.map fun a => tr a.va)) = as.map fun a => (a.va, tr a.va) :=
      List.zip_map' ..
    have target : (if migAsk (s.env x) cp == .no then none
        else migTarget (s.env x) (as.map fun a => (a.va, tr a.va))) = none := by
      rcases hr.stays with h | h <;> simp [h]
    simp only [State.migrateMembers, Tr.maps, zip]
    rw [show (s.sole x p as).env = s.env x from rfl, target]
  have ready' : ([s.sole x p as].any fun m => m.slice.mustWait m.addrs || !ready m) = false := by
    have : (s.sole x p as).slice.mustWait (s.sole x p as).addrs = false := wait
    simp [this, hready]
  have cur : (s.standUp.pulled ((s.env x).party x.uid) as).cur = [x.uid] := by
    obtain ⟨c, hc⟩ := s.standUp.pulled_caches ((s.env x).party x.uid) as
    rw [hc]
    exact h.cur
  simp only [State.runMem, State.issue, h.cur, members, traps, translate, busy, stays, hremote, ready', cur,
    State.partIfApart_one]
  rfl

end Sys2Proof.Machine
end

section
/-! PROOFS. Caches: operations on lines. What a home does leaves the quads as they are; CFLUSH and CINV leave the lanes' lines clean, or
without a valid sector; FENCE; PIN, UNPIN, PREF and MIGQ. -/

set_option Elab.async false

namespace Sys2Proof.Machine

/-! ### What a home does leaves the quads as they are (R107 to R110) -/

/-- t has the quad caches, L1s, writes on their way and updates held back that s has. -/
def State.Above (s t : State) : Prop :=
  t.caches.quadLines = s.caches.quadLines ∧ t.caches.l1 = s.caches.l1 ∧ t.caches.writeThroughs = s.caches.writeThroughs ∧
    t.caches.deferred = s.caches.deferred

namespace State.Above

section
variable {s t : State}

theorem refl (s : State) : s.Above s := ⟨rfl, rfl, rfl, rfl⟩

theorem foldl {α : Type} {f : State → α → State} {l : List α} (h : s.Above t) (hf : ∀ t a, s.Above t → s.Above (f t a)) :
    s.Above (l.foldl f t) :=
  List.foldlRecOn _ _ h fun _ hb _ _ => hf _ _ hb

theorem setBank {b} (h : s.Above t) : s.Above (t.setBank b) := h

theorem post {e} (h : s.Above t) : s.Above (t.post e) := by
  unfold State.post
  split <;> exact h

theorem dramStore {line i d} (h : s.Above t) : s.Above (t.dramStore line i d) := h

theorem dramWrite {line p d} (h : s.Above t) : s.Above (t.dramWrite line p d) := by
  unfold State.dramWrite
  grind [dramStore]

theorem dramMeet {stack line keep i} (h : s.Above t) : s.Above (t.dramMeet stack line keep i).1 :=
  iteInduction (motive := fun p : State × Bool => s.Above p.1) (fun _ => post h) fun _ => h

theorem dramRead {stack line p keep} (h : s.Above t) : s.Above (t.dramRead stack line p keep).1 := by
  unfold State.dramRead
  grind [dramMeet]

theorem serveReq {q} (h : s.Above t) : s.Above (t.serveReq q) :=
  dramWrite (t := t.onCaches _) h

theorem settleBank {line} (h : s.Above t) : s.Above (t.settleBank line) :=
  h.foldl fun _ _ h => h.serveReq

theorem bankTurn {line} (h : s.Above t) : s.Above (t.bankTurn line) := by
  unfold State.bankTurn
  grind [setBank, serveReq, foldl]

theorem mscPlace {stack line} (h : s.Above t) : s.Above (t.mscPlace stack line) := by
  unfold State.mscPlace
  dsimp only
  split <;> exact h

theorem mscRead {stack line want alloc seq} (h : s.Above t) : s.Above (t.mscRead stack line want alloc seq).1 := by
  unfold State.mscRead
  grind [dramRead, settleBank, bankTurn, mscPlace]

theorem mscWrite {stack line off bs bad alloc} (h : s.Above t) : s.Above (t.mscWrite stack line off bs bad alloc) := by
  unfold State.mscWrite
  dsimp only
  split
  · refine mscPlace ?_
    split
    · exact h
    · exact h.mscRead
  · split
    · exact h
    · exact (h.mscRead : s.Above (State.mscRead ..).1)

theorem mscPut {stack line p d} (h : s.Above t) : s.Above (t.mscPut stack line p d) := by
  unfold State.mscPut
  grind [mscWrite]

theorem serveMsc {q} (h : s.Above t) : s.Above (t.serveMsc q) :=
  mscPut (t := t.onCaches _) h

theorem settleMsc {line} (h : s.Above t) : s.Above (t.settleMsc line) :=
  h.foldl fun _ _ h => h.serveMsc

theorem diePlace {stack line} (h : s.Above t) : s.Above (t.diePlace stack line) := by
  unfold State.diePlace
  dsimp only
  split <;> exact h

theorem dieWriteBack {pa drop} (h : s.Above t) : s.Above (t.dieWriteBack pa drop) := by
  unfold State.dieWriteBack
  dsimp only
  split
  · next l st _ _ _ => exact (show s.Above (if l.dirty then _ else t) from iteInduction (fun _ => h.settleMsc.mscPut) fun _ => h)
  · exact h

theorem homeLine {line want p} (h : s.Above t) : s.Above (t.homeLine line want p).1 := by
  unfold State.homeLine
  grind [mscRead, settleMsc, diePlace, dieWriteBack]

theorem homePut {pa bs bad p} (h : s.Above t) : s.Above (t.homePut pa bs bad p) := by
  unfold State.homePut
  grind [mscRead, mscWrite, settleMsc, diePlace, dieWriteBack, foldl]

theorem homeRmw {pa n p f} (h : s.Above t) : s.Above (t.homeRmw pa n p f).1 := by
  unfold State.homeRmw State.readHome State.writeHome
  grind [homeLine, homePut]
end

end State.Above

/-! ### A line of a quad cache through cache operations (R109, R110, R289) -/

/-- What the quad cache finds at a line's address is as P says. -/
def State.LineIs (s : State) (quad line : Nat) (P : QuadLine → Prop) : Prop := ∀ l, s.quadLine? quad line = some l → P l

/-- A property of lines that a line keeps when it is written back, and when it is invalidated. -/
structure KeptLine (P : QuadLine → Prop) : Prop where
  clean : ∀ l, P l → P { l with dirty := false }
  out : ∀ l, P l → P { l with valid := (false, false), dirty := false }

theorem keptLine_clean : KeptLine fun l => l.dirty = false := ⟨fun _ _ => rfl, fun _ _ => rfl⟩
theorem keptLine_invalid : KeptLine fun l => l.valid = (false, false) := ⟨fun _ h => h, fun _ _ => rfl⟩

/-- What is found by a test that a change of the elements does not touch. -/
theorem find?_updateWhere {α : Type} {p q : α → Bool} {f : α → α} (h : ∀ x, p (f x) = p x) (xs : List α) :
    (updateWhere q f xs).find? p = (xs.find? p).map fun x => if q x then f x else x := by
  rw [updateWhere, List.find?_map]
  congr 2
  funext x
  by_cases hx : q x <;> simp [hx, h]

section
variable {s t : State} {quad line : Nat} {P : QuadLine → Prop}

theorem State.LineIs.of_lines (h : s.LineIs quad line P) (e : t.caches.quadLines = s.caches.quadLines) : t.LineIs quad line P := by
  unfold State.LineIs State.quadLine? at h ⊢
  rwa [e]

theorem State.quadLine?_update {q : QuadLine → Bool} {f : QuadLine → QuadLine}
    (e : t.caches.quadLines = updateWhere q f s.caches.quadLines) (hf : ∀ l, (f l).quad = l.quad ∧ (f l).addr = l.addr) :
    t.quadLine? quad line = (s.quadLine? quad line).map fun l => if q l then f l else l := by
  rw [State.quadLine?, e, find?_updateWhere fun x => by simp [QuadLine.at, hf x]]
  rfl

theorem State.LineIs.update (h : s.LineIs quad line P) {q : QuadLine → Bool} {f : QuadLine → QuadLine}
    (e : t.caches.quadLines = updateWhere q f s.caches.quadLines) (hf : ∀ l, (f l).quad = l.quad ∧ (f l).addr = l.addr)
    (hP : ∀ l, P l → P (f l)) : t.LineIs quad line P := by
  intro l hl
  rw [State.quadLine?_update e hf] at hl
  obtain ⟨x, hx, rfl⟩ := Option.map_eq_some_iff.1 hl
  split
  · exact hP x (h x hx)
  · exact h x hx

/-- A line other than those taken out is found as before. -/
theorem State.LineIs.remove (h : s.LineIs quad line P) {quad' line' : Nat}
    (e : t.caches.quadLines = s.caches.quadLines.filter fun l => !l.at quad' line') : t.LineIs quad line P := by
  intro l hl
  rw [State.quadLine?, e] at hl
  have hat : l.at quad line = true := List.find?_some hl
  have hout : l.at quad' line' = false := by simpa using (List.mem_filter.1 (List.mem_of_find?_eq_some hl)).2
  refine h l ?_
  rw [State.quadLine?, ← hl, List.find?_filter]
  congr 1
  funext x
  by_cases hx : x.at quad line = true
  · have : x.at quad' line' = false := by
      simp only [QuadLine.at, Bool.and_eq_true, beq_iff_eq, Bool.eq_false_iff, ne_eq] at hat hx hout ⊢
      rwa [hx.1, hx.2, ← hat.1, ← hat.2]
    simp [hx, this]
  · simp [hx]

theorem State.quadWriteBack_lines (l : QuadLine) : (s.quadWriteBack l).caches.quadLines =
    if l.dirty then updateWhere (·.at l.quad l.addr) (fun x => { x with dirty := false }) s.caches.quadLines
    else s.caches.quadLines := by
  unfold State.quadWriteBack
  split
  · dsimp only [State.onCaches_caches]
    congr 1
    have h : ∀ {t : State} {c : Prop} [Decidable c] {pa bs bad}, s.Above t → s.Above (if c then t.homePut pa bs bad .normal else t) :=
      fun ht => iteInduction (fun _ => ht.homePut) fun _ => ht
    exact (h (h (.refl s))).1
  · rfl

theorem State.LineIs.quadWriteBack (hP : KeptLine P) (h : s.LineIs quad line P) (l : QuadLine) : (s.quadWriteBack l).LineIs quad line P := by
  have lines := s.quadWriteBack_lines l
  split at lines
  · exact h.update lines (fun _ => ⟨rfl, rfl⟩) hP.clean
  · exact h.of_lines lines

theorem State.LineIs.quadOut (hP : KeptLine P) (h : s.LineIs quad line P) (quad' line' : Nat) : (s.quadOut quad' line').LineIs quad line P := by
  unfold State.quadOut
  split
  · exact h.of_lines rfl
  · next l _ =>
    have hw := h.quadWriteBack hP l
    dsimp only
    cases l.pin.isSome
    · exact hw.remove rfl
    · exact hw.update (f := fun l => { l with valid := (false, false), dirty := false }) rfl (fun _ => ⟨rfl, rfl⟩) hP.out

/-- Performing writes on their way takes them out, and leaves the quads as they are. -/
theorem State.drainWts_above (s : State) (p : WriteThrough → Bool) :
    (s.onCaches fun c => { c with writeThroughs := c.writeThroughs.filter fun w => !p w }).Above (s.drainWts p) :=
  (State.Above.refl _).foldl fun _ _ h => h.homePut

theorem State.drainWts_lines (p : WriteThrough → Bool) : (s.drainWts p).caches.quadLines = s.caches.quadLines :=
  (s.drainWts_above p).1

theorem State.LineIs.foldl {α : Type} {f : State → α → State} {l : List α} (h : s.LineIs quad line P)
    (hf : ∀ s a, s.LineIs quad line P → (f s a).LineIs quad line P) : (l.foldl f s).LineIs quad line P :=
  List.foldlRecOn (motive := fun s : State => s.LineIs quad line P) _ _ h fun _ hb _ _ => hf _ _ hb

theorem State.LineIs.applyOne (hP : KeptLine P) (h : s.LineIs quad line P) (d : Deferred) : (s.applyOne d).LineIs quad line P := by
  have hd : (s.onCaches fun c => { c with deferred := c.deferred.filter (·.id != d.id) }).LineIs quad line P := h.of_lines rfl
  exact ((hd.of_lines (State.drainWts_lines _)).quadOut hP _ _).of_lines ((State.Above.refl _).homeRmw).1

theorem State.LineIs.flushDeferred (hP : KeptLine P) (h : s.LineIs quad line P) (p : Deferred → Bool) :
    (s.flushDeferred p).LineIs quad line P := by
  refine h.foldl fun s d h => ?_
  split
  · exact h.foldl fun _ _ h => h.applyOne hP _
  · exact h

theorem State.LineIs.quadDrop (hP : KeptLine P) (h : s.LineIs quad line P) (quad' line' : Nat) : (s.quadDrop quad' line').LineIs quad line P :=
  (h.flushDeferred hP _).quadOut hP _ _

theorem State.LineIs.cleanLine (hP : KeptLine P) (h : s.LineIs quad line P) (quad' line' : Nat) :
    (s.cleanLine quad' line').LineIs quad line P := by
  unfold State.cleanLine
  split
  · exact h.quadWriteBack hP _
  · exact h

theorem State.LineIs.flushLine (hP : KeptLine P) (h : s.LineIs quad line P) (core : Nat) (sc : Scope) (line' : Nat) :
    (s.flushLine core sc line').LineIs quad line P := by
  have die : ∀ {t : State} {c : Prop} [Decidable c], t.LineIs quad line P →
      (if c then (t.dieWriteBack line' false).settleMsc line' else t).LineIs quad line P := by
    intro t c _ ht
    split
    · exact ht.of_lines ((State.Above.refl t).dieWriteBack.settleMsc).1
    · exact ht
  unfold State.flushLine
  refine die ?_
  split
  · exact ((h.of_lines (State.drainWts_lines _)).flushDeferred hP _).cleanLine hP _ _
  · exact h

theorem State.LineIs.dropLine (hP : KeptLine P) (h : s.LineIs quad line P) (core : Nat) (sc : Scope) (line' : Nat) :
    (s.dropLine core sc line').LineIs quad line P := by
  unfold State.dropLine
  split
  · exact h.quadDrop hP _ _
  · exact h.of_lines rfl

/-- A line that is cleaned is found clean. -/
theorem State.cleanLine_clean (s : State) (quad line : Nat) : (s.cleanLine quad line).LineIs quad line fun l => l.dirty = false := by
  unfold State.cleanLine
  split
  · next x hx =>
    have hat : x.at quad line = true := List.find?_some hx
    have lines := s.quadWriteBack_lines x
    intro l hl
    split at lines
    · rw [State.quadLine?_update lines fun _ => ⟨rfl, rfl⟩, hx] at hl
      obtain rfl := Option.some.inj hl
      have : x.at x.quad x.addr = true := by simp [QuadLine.at]
      simp only [this, if_true]
    · next hd =>
      rw [State.quadLine?, lines, show s.caches.quadLines.find? (·.at quad line) = some x from hx] at hl
      obtain rfl := Option.some.inj hl
      simpa using hd
  · next hx => exact fun l hl => absurd (hx.symm.trans hl) (by simp)

/-- A line that is invalidated is found without a valid sector, if at all. -/
theorem State.quadOut_invalid (s : State) (quad line : Nat) : (s.quadOut quad line).LineIs quad line fun l => l.valid = (false, false) := by
  intro l hl
  unfold State.quadOut at hl
  split at hl
  · next hx => exact absurd (hx.symm.trans hl) (by simp)
  · next x hx =>
    dsimp only at hl
    have hat : l.at quad line = true := List.find?_some hl
    have hmem := List.mem_of_find?_eq_some hl
    revert hmem
    simp only [State.l1Drop, State.onCaches_caches]
    split
    · intro hmem
      obtain ⟨y, -, rfl⟩ := List.mem_map.1 hmem
      split
      · rfl
      · next hy => simp [hy] at hat
    · intro hmem
      simpa [hat] using (List.mem_filter.1 hmem).2
end

end Sys2Proof.Machine
end

section
/-! PROOFS. Caches: FENCE, CFLUSH, CINV, PIN, UNPIN, PREF and MIGQ. -/

set_option Elab.async false

namespace Sys2Proof.Machine

/-! ### FENCE (R112, R288) -/

theorem State.slice?_setSlice (s : State) (y : Slice) (u : Nat) :
    (s.setSlice y).slice? u = (s.slice? u).map fun x => if x.uid == y.uid then y else x :=
  s.slice?_map (fun x => if x.uid == y.uid then y else x) (fun x => by split <;> simp_all) u

section
variable {s : State} {x : Slice} {e : Env}

theorem State.drainQuad_writes (quad : Nat) : ∀ w ∈ (s.drainQuad quad).caches.writeThroughs, quadOfCore w.core ≠ quad := by
  intro w hw
  have := (s.drainWts_above (quadOfCore ·.core == quad)).2.2.1 ▸ hw
  simpa using (List.mem_filter.1 this).2

/-- A release at die scope or wider leaves no write of its quad on its way. -/
theorem State.releaseAt_writes {sc : Scope} (h : 4 ≤ sc.rank) :
    ∀ w ∈ (s.releaseAt e x sc).caches.writeThroughs, quadOfCore w.core ≠ quadOfCore e.core := by
  intro w hw
  unfold State.releaseAt at hw
  simp only [h, decide_true, if_true] at hw
  exact State.drainQuad_writes _ w ((State.Draining.refl _).flushDeferred.2.2.1 hw)

/-- An acquire at die scope or wider leaves no shared line of its quad valid. -/
theorem State.acquireAt_lines {sc : Scope} (h : 4 ≤ sc.rank) : ∀ l ∈ (s.acquireAt e sc).caches.quadLines,
    l.quad = quadOfCore e.core → l.isPrivate = false → l.valid = (false, false) := by
  intro l hl hq hp
  unfold State.acquireAt State.flashInvalidate at hl
  simp only [h, if_true, State.onCaches_caches, updateWhere, List.mem_filter, List.mem_map] at hl
  obtain ⟨⟨y, -, rfl⟩, hpin⟩ := hl
  by_cases hy : (y.quad == quadOfCore e.core && !y.isPrivate && y.pin.isSome) = true
  · rw [if_pos hy]
  · rw [if_neg hy] at hpin hq hp
    simp only [hq, hp, beq_self_eq_true, Bool.not_false, Bool.true_and, Bool.not_eq_true'] at hpin hy
    simp_all

theorem State.acquireAt_writes {sc : Scope} : (s.acquireAt e sc).caches.writeThroughs = s.caches.writeThroughs := by
  unfold State.acquireAt
  split <;> rfl

/-- What a fence makes of the memory's side. -/
def State.fenced (s : State) (x : Slice) (o : Order) (sc : Scope) : State :=
  let w := s.widen x sc
  let s' := if o.isRel then s.releaseAt (s.env x) x w else s
  if o.isAcq then s'.acquireAt (s.env x) w else s'

theorem State.fenced_beside (s : State) (x : Slice) (o : Order) (sc : Scope) : s.Beside (s.fenced x o sc) := by
  unfold State.fenced
  grind [State.Beside.refl, State.Beside.releaseAt, State.Beside.acquireAt]

theorem State.exec_fence {o : Order} {sc : Scope} (h : s.Alone (.fence o sc) x [] x.m0)
    (hr : s.releaseReady x (if o.isRel then s.widen x sc else .slice) = true) :
    exec (.fence o sc) s = .next ((s.fenced x o sc).setSlice (x.commit (.fence o sc) none {})) := by
  refine (State.runEach_alone (srcs := fun _ _ => []) (reads := Slice.m0) _ h).trans ?_
  simp only [hr]
  rfl

theorem State.fence_step {o : Order} {sc : Scope} (h : s.Alone (.fence o sc) x [] x.m0)
    (hr : s.releaseReady x (if o.isRel then s.widen x sc else .slice) = true) :
    ∃ t, exec (.fence o sc) s = .next t ∧ s.MemStep t (.fence o sc) none x .zero 0 (fun _ _ => {}) [] ∧
      (4 ≤ (s.widen x sc).rank → o.isRel = true → ∀ w ∈ t.caches.writeThroughs, quadOfCore w.core ≠ quadOfCore (s.env x).core) ∧
      (4 ≤ (s.widen x sc).rank → o.isAcq = true → ∀ l ∈ t.caches.quadLines, l.quad = quadOfCore (s.env x).core →
        l.isPrivate = false → l.valid = (false, false)) := by
  refine ⟨_, State.exec_fence h hr, ?_, fun hw ho => ?_, fun hw ho => ?_⟩
  · have standing := (State.Standing.refl h.here).beside (s.fenced_beside x o sc)
    have find := (s.fenced x o sc).slice?_setSlice (x.commit (.fence o sc) none {})
    rw [Slice.commit_uid] at find
    refine standing.step (rs := []) (d := .zero) (held := []) (Nat.zero_le 4) (fun _ _ _ hk => absurd hk (Nat.not_lt_zero _)) ?_ (fun v hv => ?_) rfl rfl
    · rw [find, standing.here]
      simp
    · rw [find]
      cases hs : (s.fenced x o sc).slice? v with
      | none => rfl
      | some y => simp [State.slice?_uid hs, hv]
  · show ∀ w ∈ (s.fenced x o sc).caches.writeThroughs, _
    unfold State.fenced
    dsimp only
    rw [ho, if_pos rfl]
    split
    · rw [State.acquireAt_writes]
      exact State.releaseAt_writes hw
    · exact State.releaseAt_writes hw
  · show ∀ l ∈ (s.fenced x o sc).caches.quadLines, _
    unfold State.fenced
    dsimp only
    rw [ho, if_pos rfl]
    exact State.acquireAt_lines hw
end

/-! ### CFLUSH and CINV (R110, R118, R289) -/

theorem State.widen_slices {s t : State} (h : t.slices = s.slices) (x : Slice) (sc : Scope) : t.widen x sc = s.widen x sc := by
  unfold State.widen State.mateAway
  rw [h]

theorem State.widen_standUp (s : State) (x : Slice) (sc : Scope) : s.standUp.widen x.stood sc = s.widen x sc := by
  have away : s.standUp.mateAway x.stood = s.mateAway x := by
    unfold State.mateAway
    simp only [State.standUp, List.any_map]
    congr 1
    funext y
    simp only [Function.comp_apply]
    split <;> rfl
  unfold State.widen
  rw [away]
  rfl

/-- A fold that brings a property about for each element of a list, and keeps it. -/
theorem foldl_each {α β : Type} {R : α → β → Prop} {f : β → α → β} (est : ∀ b a, R a (f b a)) (keep : ∀ b a a', R a b → R a (f b a')) :
    ∀ (l : List α) (b : β), ∀ a ∈ l, R a (l.foldl f b) := by
  intro l
  induction l with
  | nil => exact fun _ _ h => absurd h List.not_mem_nil
  | cons c l ih =>
    intro b a ha
    rcases List.mem_cons.1 ha with rfl | ha
    · exact List.foldlRecOn (motive := R a) l f (est b a) fun b hb a' _ => keep b a a' hb
    · exact ih _ a ha

section
variable {s : State} {x : Slice} {p : Option Pfx} {a : Opnd} {m : BitVec 8} {tr : DWord → Mapping} {i : Instr}
  {f : State → Nat → Scope → Nat → State}

/-- A cache operation on the lines of mappings. -/
def State.onLines (s : State) (f : State → Nat → Scope → Nat → State) (x : Slice) (e : Env) (sc : Scope) (ms : List Mapping) : State :=
  ms.foldl (fun s mp => match mp.home with
    | .stack _ => f s e.core (s.widen x sc) (mp.pa / 64 * 64)
    | _ => s) s

theorem State.onLines_beside (hf : ∀ (s t : State) core sc line, s.Beside t → s.Beside (f t core sc line)) (s : State) (x : Slice) (e : Env)
    (sc : Scope) (ms : List Mapping) : s.Beside (s.onLines f x e sc ms) := by
  refine (State.Beside.refl s).foldl fun t mp h => ?_
  split
  · exact hf _ _ _ _ _ h
  · exact h

/-- What an operation does to its line, every line that it is done to is left with. -/
theorem State.onLines_lines {P : QuadLine → Prop} (hf : ∀ (s t : State) core sc line, s.Beside t → s.Beside (f t core sc line))
    (hest : ∀ (s : State) (core : Nat) (sc : Scope) line, 3 ≤ sc.rank → (f s core sc line).LineIs (quadOfCore core) line P)
    (hkeep : ∀ (s : State) quad line core sc line', s.LineIs quad line P → (f s core sc line').LineIs quad line P)
    {e : Env} {sc : Scope} (hsc : 3 ≤ (s.widen x sc).rank) {ms : List Mapping} {mp : Mapping} (hm : mp ∈ ms) {n : Nat}
    (hn : mp.home = .stack n) : (s.onLines f x e sc ms).LineIs (quadOfCore e.core) (mp.pa / 64 * 64) P := by
  let g : State → Mapping → State := fun s mp => match mp.home with
    | .stack _ => f s e.core (s.widen x sc) (mp.pa / 64 * 64)
    | _ => s
  have hg : ∀ (t : State) (mp : Mapping), t.Beside (g t mp) := fun t mp => by
    show State.Beside t (match mp.home with | .stack _ => _ | _ => _)
    split
    · exact hf _ _ _ _ _ (.refl t)
    · exact .refl t
  have each := foldl_each (f := g) (R := fun (mp : Mapping) t => t.slices = s.slices → ∀ n, mp.home = .stack n →
    t.LineIs (quadOfCore e.core) (mp.pa / 64 * 64) P) (fun t mp ht n hn => ?_) (fun t mp mp' h ht n hn => ?_) ms s mp hm
  · exact each ((s.onLines_beside hf x e sc ms).1) n hn
  · have : t.widen x sc = s.widen x sc := State.widen_slices ((hg t mp).1.symm.trans ht) x sc
    simp only [g, hn, this]
    exact hest _ _ _ _ hsc
  · have := h ((hg t mp').1.symm.trans ht) n hn
    show State.LineIs (match mp'.home with | .stack _ => _ | _ => _) _ _ P
    split
    · exact hkeep _ _ _ _ _ _ this
    · exact this

/-- A cache operation of a slice alone whose lanes' addresses can be reached. -/
theorem State.cacheOp_step {P : QuadLine → Prop} (hf : ∀ (s t : State) core sc line, s.Beside t → s.Beside (f t core sc line))
    (hest : ∀ (s : State) (core : Nat) (sc : Scope) line, 3 ≤ sc.rank → (f s core sc line).LineIs (quadOfCore core) line P)
    (hkeep : ∀ (s : State) quad line core sc line', s.LineIs quad line P → (f s core sc line').LineIs quad line P)
    (h : s.Alone i x [(x.readPair (s.env x) s.clock true a).1, (x.readPair (s.env x) s.clock true a).2] (takeOf x p))
    (hr : s.Reaches x { kind := .load } 3 (laneAddrs (x.readPair (s.env x) s.clock true a) (takeOf x p) (scaled m 64) 1) tr) :
    ∃ t, s.cacheOp i p a m f = .next t ∧ s.MemStep t i p x.stood .zero 0 (fun _ _ => {}) [] ∧
      (3 ≤ (s.widen x (pfxScope p)).rank → ∀ q ∈ laneAddrs (x.readPair (s.env x) s.clock true a) (takeOf x p) (scaled m 64) 1,
        ∀ n, (tr q.va).home = .stack n → ∀ l, t.quadLine? (quadOfCore (s.env x).core) ((tr q.va).pa / 64 * 64) = some l → P l) := by
  let as := laneAddrs (x.readPair (s.env x) s.clock true a) (takeOf x p) (scaled m 64) 1
  let r := s.standUp.pulled ((s.env x).party x.uid) as
  let t := r.onLines f x.stood (s.env x) (pfxScope p) (as.map fun q => tr q.va)
  have run : s.cacheOp i p a m f = .next (t.retireMem i x.uid none .zero [] []) := by
    unfold State.cacheOp State.runStore
    exact State.runMem_alone (as := as) (tr := tr) rfl h (fun _ _ => Nat.mod_one _) hr rfl fun _ => rfl
  have beside : s.standUp.Beside r := s.standUp.pulled_beside _ _
  have standing : s.Standing t x.stood := (State.Standing.standUp h.cur h.here).beside (beside.trans (r.onLines_beside hf _ _ _ _))
  refine ⟨_, run, standing.retireNone, fun hsc q hq n hn => ?_⟩
  have wide : r.widen x.stood (pfxScope p) = s.widen x (pfxScope p) :=
    (State.widen_slices beside.1 _ _).trans (s.widen_standUp x _)
  exact r.onLines_lines hf hest hkeep (wide ▸ hsc) (List.mem_map_of_mem hq) hn

theorem State.cflush_line (s : State) (core : Nat) (sc : Scope) (line : Nat) (h : 3 ≤ sc.rank) :
    (s.flushLine core sc line).LineIs (quadOfCore core) line fun l => l.dirty = false := by
  unfold State.flushLine
  simp only [h, if_true]
  split
  · exact (State.cleanLine_clean _ _ _).of_lines ((State.Above.refl _).dieWriteBack.settleMsc).1
  · exact State.cleanLine_clean _ _ _

theorem State.cinv_line (s : State) (core : Nat) (sc : Scope) (line : Nat) (h : 3 ≤ sc.rank) :
    (s.dropLine core sc line).LineIs (quadOfCore core) line fun l => l.valid = (false, false) := by
  unfold State.dropLine
  simp only [h, if_true]
  exact State.quadOut_invalid _ _ _
end

/-! ### Operations that never fault (R118, R290, R291, R324) -/

/-- A lane whose translation is at hand, or that is to have none: no walk is to be made for it, and finding it leaves the TLBs as
they are, if it is not alone. -/
def State.Known (s : State) (who : Party) (qs : List LaneAddr) (q : LaneAddr) : Prop :=
  match s.look who { kind := .load } q.va with
  | .miss => (s.quietFault who.who q.va).isSome = true
  | .ok _ => qs.length = 1 ∨ s.caches.tlb.any (fun v => v.unit == who.unit && v.covers who.ctx q.va.toNat) = true ∨
      ∀ v ∈ s.caches.tlb, v.covers who.ctx q.va.toNat = false
  | _ => True

section
variable {s : State} {who : Party} {qs : List LaneAddr} {q : LaneAddr}

/-- What a lane's address is found to be. -/
def State.found (s : State) (who : Party) (q : LaneAddr) : DWord × Found := (q.va, (s.findQuiet who { kind := .load } q.va).2)

theorem State.findQuiet_beside : s.Beside (s.findQuiet who { kind := .load } q.va).1 := by
  unfold State.findQuiet
  grind [State.Beside.refl, State.Beside.tlbPull]

theorem State.tlbPull_same {va : Nat} (h : s.caches.tlb.any (fun v => v.unit == who.unit && v.covers who.ctx va) = true ∨
    ∀ v ∈ s.caches.tlb, v.covers who.ctx va = false) : s.tlbPull who.unit who.ctx va = s := by
  unfold State.tlbPull
  split
  · rfl
  · next hn =>
    have none : s.caches.tlb.find? (fun t => t.unit == TlbUnit.die who.unit.onDie && t.covers who.ctx va) = none := by
      rcases h with h | h
      · obtain ⟨v, hv, hc⟩ := List.any_eq_true.1 h
        exact absurd hc (by simpa using List.find?_eq_none.1 hn v hv)
      · exact List.find?_eq_none.2 fun v hv => by simp [h v hv]
    rw [none]

theorem State.Known.finds (h : s.Known who qs q) (hl : qs.length ≠ 1) : (s.findQuiet who { kind := .load } q.va).1 = s := by
  unfold State.Known at h
  unfold State.findQuiet
  split
  · next hm => rw [hm] at h; exact State.tlbPull_same (h.resolve_left hl)
  · rfl
  · rfl
  · split <;> rfl

/-- No walk is to be asked for. -/
theorem State.Known.no_walk (h : s.Known who qs q) (a : Ask) : (s.findQuiet who { kind := .load } q.va).2 ≠ .held (.miss a) := by
  unfold State.Known at h
  unfold State.findQuiet
  cases hl : s.look who { kind := .load } q.va with
  | miss =>
    rw [hl] at h
    obtain ⟨d, hd⟩ := Option.isSome_iff_exists.1 h
    simp [hd]
  | _ => simp

/-- The lanes of a list, the first of which asks for no walk. -/
theorem State.quietLanes_cons {t : State} {rs : List LaneAddr} {fs : List (DWord × Found)}
    (hq : ∀ a, (s.findQuiet who { kind := .load } q.va).2 ≠ .held (.miss a))
    (hr : (s.findQuiet who { kind := .load } q.va).1.quietLanes who rs = (t, fs, [])) :
    s.quietLanes who (q :: rs) = (t, s.found who q :: fs, []) := by
  unfold State.found
  simp only [State.quietLanes, hr]
  generalize (s.findQuiet who { kind := .load } q.va).2 = f at hq ⊢
  cases f with
  | held k =>
    cases k with
    | miss a => exact absurd rfl (hq a)
    | _ => rfl
  | _ => rfl

theorem State.quietLanes_known (h : ∀ q ∈ qs, s.Known who qs q) :
    ∃ r, s.Beside r ∧ s.quietLanes who qs = (r, qs.map (s.found who), []) := by
  by_cases hl : qs.length = 1
  · obtain ⟨q, rfl⟩ := List.length_eq_one_iff.1 hl
    exact ⟨_, State.findQuiet_beside, State.quietLanes_cons (h q (by simp)).no_walk rfl⟩
  · refine ⟨s, .refl s, ?_⟩
    have all : ∀ rs, (∀ q ∈ rs, s.Known who qs q) → s.quietLanes who rs = (s, rs.map (s.found who), []) := by
      intro rs
      induction rs with
      | nil => exact fun _ => rfl
      | cons q rs ih =>
        intro hr
        have hq := hr q (by simp)
        exact State.quietLanes_cons hq.no_walk ((hq.finds hl).symm ▸ ih fun q h => hr q (by simp [h]))
    exact all qs h
end

/-! #### The run -/

section
variable {s : State} {x : Slice} {p : Option Pfx} {a : Opnd} {m : BitVec 8} {i : Instr}

theorem State.Beside.cur {s t : State} (h : s.Beside t) : t.cur = s.cur :=
  (congrArg State.cur h.2.2 : t.apart.cur = s.apart.cur)

/-- The member of a gang of one slice that stands at no instruction. -/
def State.lone (s : State) (x : Slice) (p : Option Pfx) (as : List LaneAddr) : Member :=
  { slice := x, env := s.env x, take := takeOf x p, addrs := as }

/-- A line operation of a slice alone for whose lanes no walk is to be made. -/
theorem State.runQuiet_alone {perform : State → Member → List (DWord × Found) → State} {as : List LaneAddr}
    (has : laneAddrs (x.readPair (s.env x) s.clock true a) (takeOf x p) (scaled m 64) 1 = as)
    (h : s.Alone i x [(x.readPair (s.env x) s.clock true a).1, (x.readPair (s.env x) s.clock true a).2] (takeOf x p))
    (hw : x.mustWait as = false) (hk : ∀ q ∈ as, s.Known ((s.env x).party x.uid) as q) :
    ∃ r, s.Beside r ∧ s.runQuiet i p a m perform =
      .next ((perform r (s.lone x p as) (as.map (s.found ((s.env x).party x.uid)))).clearDeclined (.slice x.uid)) := by
  obtain ⟨r, beside, lanes⟩ := State.quietLanes_known hk
  refine ⟨r, beside, ?_⟩
  have members : (s.members p fun x e take => laneAddrs (x.readPair e s.clock true a) take (scaled m 64) 1) = [s.lone x p as] := by
    have cur : s.curSlices = [x] := by simp [State.curSlices, h.cur, h.here]
    simp only [State.members, cur, List.map_cons, List.map_nil, has]
    rfl
  have traps : s.memTraps i (fun x e => [(x.readPair e s.clock true a).1, (x.readPair e s.clock true a).2]) 1 [s.lone x p as] = [] := by
    have able : s.issueTrap i (s.lone x p as).slice (s.lone x p as).env
        [((s.lone x p as).slice.readPair (s.lone x p as).env s.clock true a).1,
          ((s.lone x p as).slice.readPair (s.lone x p as).env s.clock true a).2] (s.lone x p as).take = none := h.able.issueTrap
    simp [State.memTraps, able, misaligned?_none fun _ _ => Nat.mod_one _]
  have wait : ([s.lone x p as].any fun q => q.slice.mustWait q.addrs) = false := by simpa [State.lone] using hw
  have quiet : s.quietAll [s.lone x p as] = (r, [(s.lone x p as, as.map (s.found ((s.env x).party x.uid)), [])]) := by
    have : s.quietLanes ((s.lone x p as).env.party (s.lone x p as).slice.uid) (s.lone x p as).addrs = _ := lanes
    simp only [State.quietAll, this]
  simp only [State.runQuiet, State.issue, h.cur, members, traps, wait, quiet, beside.cur, State.partIfApart_one]
  rfl

/-! #### The registers of a result -/

theorem laneRegs_length (n : Nat) (vals : List (Nat × List LaneWord)) : (laneRegs n vals).length = n := by
  simp [laneRegs, natsFrom]

theorem laneRegs_lane {n k l : Nat} (vals : List (Nat × List LaneWord)) (hl : l < 4) (hk : k < n) :
    (nth (.u 0) (laneRegs n vals) k).lane l = nth {} ((vals.lookup l).getD []) k := by
  have : nth (.u 0) (laneRegs n vals) k = .general (L4.ofFn fun l => nth {} ((vals.lookup l).getD []) k) := by
    simp [nth, laneRegs, natsFrom, hk]
  rw [this]
  exact L4.get_ofFn _ hl

/-- A slice retires with registers made of lane words. -/
theorem State.Standing.retireLanes {s t : State} {n : Nat} {d : Dst} {held : List Reg} {vals : List (Nat × List LaneWord)}
    {new : Nat → Nat → LaneWord} (h : s.Standing t x) (hn : n ≤ 4)
    (hv : ∀ k l, l < 4 → k < n → nth {} ((vals.lookup l).getD []) k = new k l) :
    s.MemStep (t.retireMem i x.uid p d (laneRegs n vals) held) i p x d n new held := by
  have := h.retire (i := i) (p := p) (d := d) (held := held) (rs := laneRegs n vals) (new := new) (by rwa [laneRegs_length])
    fun k l hl hk => (laneRegs_lane vals hl (by rwa [laneRegs_length] at hk)).trans (hv k l hl (by rwa [laneRegs_length] at hk))
  rwa [laneRegs_length] at this

/-- What a lookup finds is in the list. -/
theorem lookup_getD_mem {β : Type} (l : Nat) (xs : List (Nat × List β)) :
    (xs.lookup l).getD [] = [] ∨ (l, (xs.lookup l).getD []) ∈ xs := by
  cases h : xs.lookup l with
  | none => exact .inl rfl
  | some v =>
    obtain ⟨as, bs, rfl, -⟩ := List.lookup_eq_some_iff.1 h
    exact .inr (by simp)

theorem lookup_map_self {β : Type} (f : Nat → β) {l : Nat} {ls : List Nat} (h : l ∈ ls) : (ls.map fun k => (k, f k)).lookup l = some (f l) := by
  induction ls with
  | nil => cases h
  | cons k ls ih =>
    by_cases e : l = k
    · simp [e]
    · rw [List.map_cons, List.lookup_cons, beq_eq_false_iff_ne.2 e]
      exact ih ((List.mem_cons.1 h).resolve_left e)

/-! #### The words of the lanes -/

/-- The words that an operation gives for what lanes are found to be. -/
theorem State.laneWords_beside {f : State → DWord → Found → State × Word} (hf : ∀ (t : State) va q, t.Beside (f t va q).1)
    {P : Word → Prop} (hP : ∀ t va q, P (f t va q).2) (qs : List (DWord × Found)) (t : State) :
    t.Beside (t.laneWords f qs).1 ∧ ∀ w ∈ (t.laneWords f qs).2, P w := by
  induction qs generalizing t with
  | nil => exact ⟨.refl t, fun _ h => absurd h List.not_mem_nil⟩
  | cons q qs ih =>
    obtain ⟨beside, words⟩ := ih (f t q.1 q.2).1
    exact ⟨(hf t q.1 q.2).trans beside, List.forall_mem_cons.2 ⟨hP t q.1 q.2, words⟩⟩

theorem State.laneWords_map {f : State → DWord → Found → State × Word} {g : DWord → Found → Word} (hf : ∀ t va q, f t va q = (t, g va q))
    (qs : List (DWord × Found)) (t : State) : t.laneWords f qs = (t, qs.map fun q => g q.1 q.2) := by
  induction qs generalizing t with
  | nil => rfl
  | cons q qs ih => simp only [State.laneWords, hf, ih, List.map_cons]
end

/-! #### The instructions -/

section
variable {s : State} {x : Slice} {p : Option Pfx} {d : Dst} {a : Opnd} {m : BitVec 8} {i : Instr} {h : Bool}

/-- A line operation of a slice alone that writes each lane's code: the words are those of its operation. -/
theorem State.lineOp_step {f : Member → State → DWord → Found → State × Word} {P : Word → Prop} {as : List LaneAddr}
    (has : laneAddrs (x.readPair (s.env x) s.clock true a) (takeOf x p) (scaled m 64) 1 = as)
    (hf : ∀ q (t : State) va k, t.Beside (f q t va k).1) (hP : ∀ q t va k, P (f q t va k).2)
    (ha : s.Alone i x [(x.readPair (s.env x) s.clock true a).1, (x.readPair (s.env x) s.clock true a).2] (takeOf x p))
    (hw : x.mustWait as = false) (hk : ∀ q ∈ as, s.Known ((s.env x).party x.uid) as q) :
    ∃ (t : State) (ws : List Word), s.lineOp i p d a m f h = .next t ∧ (∀ w ∈ ws, P w) ∧
      (∃ r, ws = (State.laneWords r (f (s.lone x p as)) (as.map (s.found ((s.env x).party x.uid)))).2) ∧
      ∀ new : Nat → Nat → LaneWord, (∀ l, l < 4 →
          nth {} ((((as.map (·.lane)).zip (ws.map fun w => [({ val := w } : LaneWord)])).lookup l).getD []) 0 = new 0 l) →
        s.MemStep t i p x d 1 new
          (heldOf h [(x.readPair (s.env x) s.clock true a).1, (x.readPair (s.env x) s.clock true a).2]) := by
  obtain ⟨r, beside, run⟩ := State.runQuiet_alone (i := i) (perform := fun t q fs =>
    let (t, ws) := t.laneWords (f q) fs
    t.retireMem i q.slice.uid p d (laneRegs 1 ((q.addrs.map (·.lane)).zip (ws.map fun w => [{ val := w }])))
      (heldOf h [(q.slice.readPair q.env s.clock true a).1, (q.slice.readPair q.env s.clock true a).2])) has ha hw hk
  obtain ⟨after, words⟩ := State.laneWords_beside (hf (s.lone x p as)) (hP (s.lone x p as))
    (as.map (s.found ((s.env x).party x.uid))) r
  refine ⟨_, _, run, words, ⟨r, rfl⟩, fun new hnew => ?_⟩
  refine State.MemStep.onCaches (State.Standing.retireLanes (((State.Standing.refl ha.here).beside beside).beside after)
    (by decide) fun k l hl hk => ?_)
  obtain rfl : k = 0 := by omega
  exact hnew l hl

theorem State.pinLine_code (t : State) (e : Env) (mp : Mapping) : (t.pinLine e mp).2 ≤ 2 := by
  unfold State.pinLine
  grind

/-- The word of a lane's register, among those of a list of codes, is one of them, or 0. -/
theorem nth_codes {P : Word → Prop} {ls : List Nat} {ws : List Word} (hw : ∀ w ∈ ws, P w) (h0 : P 0) (l : Nat) :
    ∃ w, nth {} (((ls.zip (ws.map fun w => [({ val := w } : LaneWord)])).lookup l).getD []) 0 = { val := w } ∧ P w := by
  rcases lookup_getD_mem l (ls.zip (ws.map fun w => [({ val := w } : LaneWord)])) with h | h
  · rw [h]
    exact ⟨0, rfl, h0⟩
  · obtain ⟨w, hmem, he⟩ := List.mem_map.1 (List.of_mem_zip h).2
    rw [← he]
    exact ⟨w, rfl, hw w hmem⟩

theorem State.pin_step {as : List LaneAddr} (has : laneAddrs (x.readPair (s.env x) s.clock true a) (takeOf x p) (scaled m 64) 1 = as)
    (ha : s.Alone (.pin p d a m) x [(x.readPair (s.env x) s.clock true a).1, (x.readPair (s.env x) s.clock true a).2] (takeOf x p))
    (hw : x.mustWait as = false) (hk : ∀ q ∈ as, s.Known ((s.env x).party x.uid) as q) :
    ∃ t new, exec (.pin p d a m) s = .next t ∧ s.MemStep t (.pin p d a m) p x d 1 new [] ∧
      ∀ l, l < 4 → (takeOf x p).getLsbD l = true → (new 0 l).poison = false ∧ (new 0 l).val.toNat ≤ 2 := by
  let code : Member → State → DWord → Found → State × Word := fun q s _ found => match found.map? with
    | some mp => let (s, code) := s.pinLine q.env mp; (s, BitVec.ofNat 32 code)
    | none => (s, 1)
  have beside : ∀ q (t : State) va k, t.Beside (code q t va k).1 := fun q t va k => by
    unfold code
    split
    · exact (State.Beside.refl t).pinLine
    · exact .refl t
  have codes : ∀ q t va k, (code q t va k).2.toNat ≤ 2 := fun q t va k => by
    unfold code
    split
    · next mp _ => exact (Nat.mod_le _ _).trans (t.pinLine_code q.env mp)
    · exact Nat.le_succ 1
  obtain ⟨t, ws, run, small, -, step⟩ := State.lineOp_step (d := d) (h := false) (P := fun w => w.toNat ≤ 2) has beside codes ha hw hk
  refine ⟨t, _, run, step (fun _ l => nth {} ((((as.map (·.lane)).zip (ws.map fun w => [{ val := w }])).lookup l).getD []) 0)
    fun _ _ => rfl, fun l _ _ => ?_⟩
  obtain ⟨w, he, hw⟩ := nth_codes (ls := as.map (·.lane)) small (by decide) l
  rw [he]
  exact ⟨rfl, hw⟩

theorem State.unpin_step {as : List LaneAddr} (has : laneAddrs (x.readPair (s.env x) s.clock true a) (takeOf x p) (scaled m 64) 1 = as)
    (ha : s.Alone (.unpin p d a m) x [(x.readPair (s.env x) s.clock true a).1, (x.readPair (s.env x) s.clock true a).2] (takeOf x p))
    (hw : x.mustWait as = false) (hk : ∀ q ∈ as, s.Known ((s.env x).party x.uid) as q) :
    ∃ t, exec (.unpin p d a m) s = .next t ∧ s.MemStep t (.unpin p d a m) p x d 1 (fun _ _ => {}) [] := by
  let code : Member → State → DWord → Found → State × Word := fun q s _ found => match found.map? with
    | some mp => (s.unpinLine q.env mp, 0)
    | none => (s, 0)
  have beside : ∀ q (t : State) va k, t.Beside (code q t va k).1 := fun q t va k => by
    unfold code
    split
    · exact (State.Beside.refl t).unpinLine
    · exact .refl t
  have codes : ∀ q t va k, (code q t va k).2 = 0 := fun q t va k => by
    unfold code
    split <;> rfl
  obtain ⟨t, ws, run, zero, -, step⟩ := State.lineOp_step (d := d) (h := false) (P := (· = 0)) has beside codes ha hw hk
  refine ⟨t, run, step _ fun l _ => ?_⟩
  obtain ⟨w, he, rfl⟩ := nth_codes (ls := as.map (·.lane)) zero rfl l
  exact he

theorem State.pref_step {as : List LaneAddr} (has : laneAddrs (x.readPair (s.env x) s.clock true a) (takeOf x p) (scaled m 64) 1 = as)
    (ha : s.Alone (.pref p a m) x [(x.readPair (s.env x) s.clock true a).1, (x.readPair (s.env x) s.clock true a).2] (takeOf x p))
    (hw : x.mustWait as = false) (hk : ∀ q ∈ as, s.Known ((s.env x).party x.uid) as q) :
    ∃ t, exec (.pref p a m) s = .next t ∧ s.MemStep t (.pref p a m) p x .zero 0 (fun _ _ => {}) [] := by
  obtain ⟨r, beside, run⟩ := State.runQuiet_alone (i := .pref p a m) (perform := fun s q fs =>
    let s := (fs.filterMap fun f => f.2.map?).foldl (fun s mp => s.prefetch q.env.core mp (pfxCp p)) s
    s.retireMem (.pref p a m) q.slice.uid none .zero [] []) has ha hw hk
  have fetched := beside.foldl (f := fun t mp => t.prefetch (s.env x).core mp (pfxCp p))
    (l := (as.map (s.found ((s.env x).party x.uid))).filterMap fun f => f.2.map?) fun t mp h => h.prefetch
  exact ⟨_, run, (((State.Standing.refl ha.here).beside fetched).retireNone).onCaches⟩

/-- The word that MIGQ writes for a home (R324). -/
theorem migqWord_some (e : Env) (y : Slice) (hm : Home) (mig : Bool) : migqWord e y (some (hm, mig)) =
    BitVec.ofNat 32 (min ((y.guest.map (·.hops)).getD 0) 7 * 2 ^ 15 + b2n y.guest.isSome * 2 ^ 14 + b2n (e.beyond hm) * 2 ^ 13 +
      b2n mig * 2 ^ 12 + match hm with
        | .stack n => n % 1024
        | .core n => 1024 + n % 1024
        | .part n => 2048 + n % 1024) := by
  cases hm <;> simp [migqWord, homeFields, Nat.add_assoc]

/-- What MIGQ writes for an address, as it is found. -/
def migqFound (e : Env) (y : Slice) (va : DWord) (found : Found) : Word :=
  migqWord e y (match found with
    | .ok m => some (m.home, m.mig)
    | .held _ => some (.core (windowCore e va), true)
    | .fault _ _ => none)

/-- The word of a lane, as the address of its pair is found. -/
def State.migqLane (s : State) (x : Slice) (pair : Reg × Reg) (l : Nat) : LaneWord :=
  ⟨migqFound (s.env x) x (pairVal pair l) (s.findQuiet ((s.env x).party x.uid) { kind := .load } (pairVal pair l)).2, false⟩

/-- The words of the lanes. -/
def State.migqWords (s : State) (x : Slice) (pair : Reg × Reg) (take : BitVec 4) : List (Nat × List LaneWord) :=
  (maskLanes take).map fun l => (l, [s.migqLane x pair l])

theorem State.findQuiet_ok {who : Party} {need : Need} {va : DWord} {mp : Mapping} (h : s.look who need va = .ok mp) :
    (s.findQuiet who need va).2 = .ok mp := by
  unfold State.findQuiet
  rw [h]

theorem State.migq_step (ha : s.Alone (.migq d a h) x [(x.readPair (s.env x) s.clock true a).1, (x.readPair (s.env x) s.clock true a).2] x.m0)
    (hw : x.mustWait (laneAddrs (x.readPair (s.env x) s.clock true a) x.m0 (scaled 0 64) 1) = false)
    (hk : ∀ q ∈ laneAddrs (x.readPair (s.env x) s.clock true a) x.m0 (scaled 0 64) 1, s.Known ((s.env x).party x.uid)
      (laneAddrs (x.readPair (s.env x) s.clock true a) x.m0 (scaled 0 64) 1) q) :
    ∃ t new, exec (.migq d a h) s = .next t ∧ s.MemStep t (.migq d a h) none x d 1 new
        (heldOf h [(x.readPair (s.env x) s.clock true a).1, (x.readPair (s.env x) s.clock true a).2]) ∧
      ∀ l ∈ maskLanes x.m0, ∀ mp, s.look ((s.env x).party x.uid) { kind := .load }
          (pairVal (x.readPair (s.env x) s.clock true a) l) = .ok mp →
        new 0 l = { val := migqWord (s.env x) x (some (mp.home, mp.mig)) } := by
  obtain ⟨t, ws, run, -, ⟨r, rfl⟩, step⟩ := State.lineOp_step (d := d) (h := h) (p := none) (m := 0)
    (f := fun q s va k => (s, migqFound q.env q.slice va k)) (P := fun _ => True) rfl (fun _ t _ _ => .refl t)
    (fun _ _ _ _ => trivial) ha hw hk
  refine ⟨t, fun _ l => nth {} (((s.migqWords x (x.readPair (s.env x) s.clock true a) x.m0).lookup l).getD []) 0, run,
    step _ fun l _ => ?_, fun l hl mp hmp => ?_⟩
  · have lanes : takeOf x none = x.m0 := rfl
    have zero : scaled 0 64 = 0#64 := by decide
    rw [State.laneWords_map (g := migqFound (s.lone x none _).env (s.lone x none _).slice) fun _ _ _ => rfl, lanes]
    simp only [State.lone, laneAddrs, List.map_map, State.found, Function.comp_def, List.map_id', zip_map_right_self, zero, BitVec.add_zero,
      State.migqWords, State.migqLane]
  · simp only [State.migqWords]
    rw [lookup_map_self _ hl]
    show s.migqLane x _ l = _
    rw [State.migqLane, State.findQuiet_ok hmp]
    rfl
end

/-! ### The obligation -/

/-- Settles O46: each operation's own step, the cache operations by what they leave of a line. -/
theorem lineOperations : Obligations.LineOperations := by
  unfold Obligations.LineOperations
  intro s x p d a m h
  refine ⟨fun o sc ha hr => State.fence_step ha hr, fun tr hr => ⟨fun ha => ?_, fun ha => ?_⟩, fun ha hk => ?_, fun ha hk => ?_,
    fun ha hk => ?_, fun ha hk => ?_⟩
  · exact State.cacheOp_step (fun _ _ _ _ _ h => h.flushLine) State.cflush_line
      (fun _ _ _ _ _ _ h => h.flushLine keptLine_clean _ _ _) ha hr
  · exact State.cacheOp_step (fun _ _ _ _ _ h => h.dropLine) State.cinv_line
      (fun _ _ _ _ _ _ h => h.dropLine keptLine_invalid _ _ _) ha hr
  · exact State.pin_step rfl ha hk.1 hk.2
  · exact State.unpin_step rfl ha hk.1 hk.2
  · exact State.pref_step rfl ha hk.1 hk.2
  · obtain ⟨t, new, run, step, words⟩ := State.migq_step ha hk.1 hk.2
    refine ⟨t, new, run, step, fun tr found l hl _ => (words l hl _ (found l hl)).trans ?_⟩
    rw [migqWord_some] <;> rfl

end Sys2Proof.Machine
end

section
/-! PROOFS. Caches: what a line holds, byte by byte. Contents that memory may have are a condition on the byte at each key and on the
poison of each sector; a line fits them when its valid sectors do, and a write when what it makes of a sector does. -/

set_option Elab.async false

namespace Sys2Proof.Machine

/-! ### Sectors of a pair -/

/-- Sector h of a pair. -/
def half {α : Type} (p : α × α) (h : Nat) : α := if h = 0 then p.1 else p.2

@[simp] theorem half_orPair (a b : Bool × Bool) (h : Nat) : half (orPair a b) h = (half a h || half b h) := by
  unfold half; split <;> rfl

@[simp] theorem half_lessPair (a b : Bool × Bool) (h : Nat) : half (lessPair a b) h = (half a h && !half b h) := by
  unfold half; split <;> rfl

@[simp] theorem half_true (h : Nat) : half (true, true) h = true := by
  unfold half; split <;> rfl

@[simp] theorem half_false (h : Nat) : half (false, false) h = false := by
  unfold half; split <;> rfl

theorem half_onlyPair {h i : Nat} (hh : h < 2) (hi : i < 2) : half (onlyPair i) h = decide (h = i) := by
  obtain rfl | rfl : h = 0 ∨ h = 1 := by omega
  all_goals obtain rfl | rfl : i = 0 ∨ i = 1 := by omega
  all_goals rfl

/-- A pair without a sector, sector by sector. -/
theorem pair_none {p : Bool × Bool} : p = (false, false) ↔ ∀ h < 2, half p h = false := by
  refine ⟨fun e h _ => e ▸ half_false h, fun e => Prod.ext (e 0 (by decide)) (e 1 (by decide))⟩

theorem half_touched {off n h : Nat} (ho : off + n ≤ 64) (hh : h < 2) :
    half (touched off n) h = decide (0 < n ∧ off < 32 * h + 32 ∧ 32 * h < off + n) := by
  obtain rfl | rfl : h = 0 ∨ h = 1 := by omega
  all_goals simp only [half, touched, ← Bool.decide_and, decide_eq_decide, if_true, Nat.one_ne_zero, if_false]; omega

theorem half_covered {off n h : Nat} (hh : h < 2) :
    half (covered off n) h = decide (off ≤ 32 * h ∧ 32 * h + 32 ≤ off + n) := by
  obtain rfl | rfl : h = 0 ∨ h = 1 := by omega
  · simp only [half, covered, ← Bool.decide_and, decide_eq_decide, if_true]
    omega
  · simp [half, covered]

theorem covered_touched {off n h : Nat} (ho : off + n ≤ 64) (hh : h < 2) (hc : half (covered off n) h = true) :
    half (touched off n) h = true := by
  rw [half_covered hh, decide_eq_true_eq] at hc
  rw [half_touched ho hh, decide_eq_true_eq]
  omega

/-! ### Bytes of lists -/

theorem nth_append {α : Type} (d : α) (xs ys : List α) (i : Nat) :
    nth d (xs ++ ys) i = if i < xs.length then nth d xs i else nth d ys (i - xs.length) := by
  unfold nth
  split
  · next h => rw [List.getD_append _ _ _ _ h]
  · next h => rw [List.getD_append_right _ _ _ _ (by omega)]

theorem nth_take {α : Type} (d : α) (xs : List α) {n i : Nat} (h : i < n) : nth d (xs.take n) i = nth d xs i := by
  simp [nth, List.getD_eq_getElem?_getD, h]

theorem nth_drop {α : Type} (d : α) (xs : List α) (n i : Nat) : nth d (xs.drop n) i = nth d xs (n + i) := by
  simp [nth, List.getD_eq_getElem?_getD]

theorem nth_slice (l : LineData) (off : Nat) {n i : Nat} (h : i < n) : nth 0 (l.slice off n) i = nth 0 l.data (off + i) := by
  rw [LineData.slice, nth_take _ _ h, nth_drop]

theorem LineData.slice_length {l : LineData} (h : l.data.length = 64) {off n : Nat} (hn : off + n ≤ 64) : (l.slice off n).length = n := by
  simp only [LineData.slice, List.length_take, List.length_drop, h]
  omega

/-! ### Contents -/

/-- What memory may hold: the bytes that may stand at a key, what poison a sector may have, and which scratchpad sectors may be
poisoned. -/
structure Content where
  byte : Nat → Byte → Prop
  bad : Nat → Bool → Prop
  spoilt : List Nat → Prop

variable {C : Content} {t : Nat}

/-- Sector h of a line holds what sector t of memory may hold. -/
def LineData.Sector (C : Content) (t h : Nat) (d : LineData) : Prop :=
  (∀ i < 32, C.byte (32 * t + i) (nth 0 d.data (32 * h + i))) ∧ C.bad t (half d.poison h)

/-- A line whose sectors in v hold what the line from sector t may hold. -/
def LineData.Fits (C : Content) (t : Nat) (v : Bool × Bool) (d : LineData) : Prop :=
  d.data.length = 64 ∧ ∀ h < 2, half v h = true → d.Sector C (t + h) h

/-- A write at an offset of the line from sector t, with poison or without, makes of its sectors what they may hold. -/
structure Puts (C : Content) (t off : Nat) (bs : List Byte) (bad : Bool) : Prop where
  inLine : off + bs.length ≤ 64
  bytes : ∀ i < bs.length, C.byte (32 * t + off + i) (nth 0 bs i)
  marks : ∀ h < 2, half (touched off bs.length) h = true → half (covered off bs.length) h = false → ∀ o, C.bad (t + h) o →
    C.bad (t + h) (o || bad)
  whole : ∀ h < 2, half (covered off bs.length) h = true → C.bad (t + h) bad

namespace LineData

theorem Fits.mono {v w : Bool × Bool} {d : LineData} (f : d.Fits C t v) (h : ∀ i < 2, half w i = true → half v i = true) : d.Fits C t w :=
  ⟨f.1, fun i hi hw => f.2 i hi (h i hi hw)⟩

theorem fits_none {d : LineData} (h : d.data.length = 64) : d.Fits C t (false, false) :=
  ⟨h, fun i _ hi => absurd hi (by simp)⟩

theorem data_over (l new : LineData) (p : Bool × Bool) (hl : l.data.length = 64) (hn : new.data.length = 64) :
    (l.over new p).data.length = 64 := by
  unfold LineData.over
  simp only [List.length_append, List.length_take, List.length_drop]
  split <;> split <;> omega

/-- A sector of a line with chosen sectors of another. -/
theorem nth_over {l new : LineData} {p : Bool × Bool} (hl : l.data.length = 64) (hn : new.data.length = 64) {h i : Nat} (hh : h < 2)
    (hi : i < 32) : nth 0 (l.over new p).data (32 * h + i) = nth 0 (if half p h then new else l).data (32 * h + i) := by
  have len : ((if p.1 then new else l).data.take 32).length = 32 := by
    rw [List.length_take]
    split <;> omega
  unfold LineData.over
  rw [nth_append, len]
  obtain rfl | rfl : h = 0 ∨ h = 1 := by omega
  · rw [if_pos (by omega), nth_take _ _ (by omega)]
    rfl
  · rw [if_neg (by omega), nth_drop]
    congr 1
    omega

theorem half_over_poison (l new : LineData) (p : Bool × Bool) (h : Nat) :
    half (l.over new p).poison h = half (if half p h then new else l).poison h := by
  unfold LineData.over half
  split <;> rfl

theorem sector_over {l new : LineData} {p : Bool × Bool} (hl : l.data.length = 64) (hn : new.data.length = 64) {h : Nat} (hh : h < 2)
    (s : (if half p h then new else l).Sector C t h) : (l.over new p).Sector C t h :=
  ⟨fun i hi => nth_over hl hn hh hi ▸ s.1 i hi, half_over_poison l new p h ▸ s.2⟩

/-- A line with chosen sectors of another fits where each fits. -/
theorem Fits.sectors {v w p : Bool × Bool} {l new : LineData} (f : l.Fits C t v) (g : new.Fits C t w)
    {u : Bool × Bool} (h : ∀ i < 2, half u i = true → if half p i then half w i = true else half v i = true) : (l.over new p).Fits C t u := by
  refine ⟨data_over l new p f.1 g.1, fun i hi hu => sector_over f.1 g.1 hi ?_⟩
  have := h i hi hu
  by_cases hp : half p i = true
  · rw [if_pos hp] at this ⊢
    exact g.2 i hi this
  · rw [if_neg hp] at this ⊢
    exact f.2 i hi this

theorem put_data {l : LineData} (hl : l.data.length = 64) {off : Nat} {bs : List Byte} {bad : Bool} (h : off + bs.length ≤ 64) :
    (l.put off bs bad).data.length = 64 := by
  simp only [put, List.length_append, List.length_take, List.length_drop]
  omega

/-- The bytes of a line after a write. -/
theorem nth_put {l : LineData} (hl : l.data.length = 64) {off : Nat} {bs : List Byte} {bad : Bool} (h : off + bs.length ≤ 64) (i : Nat) :
    nth 0 (l.put off bs bad).data i = if off ≤ i ∧ i < off + bs.length then nth 0 bs (i - off) else nth 0 l.data i := by
  have len : (l.data.take off).length = off := by
    rw [List.length_take]
    omega
  simp only [put, nth_append, List.length_append, len]
  by_cases h1 : i < off
  · rw [if_pos (by omega), if_pos h1, if_neg (by omega), nth_take _ _ h1]
  · by_cases h2 : i < off + bs.length
    · rw [if_pos h2, if_neg h1, if_pos ⟨by omega, h2⟩]
    · rw [if_neg h2, if_neg (by omega), nth_drop]
      congr 1
      omega

theorem half_put_poison (l : LineData) (off : Nat) (bs : List Byte) (bad : Bool) (h : Nat) : half (l.put off bs bad).poison h =
    (half l.poison h && !half (covered off bs.length) h || bad && half (touched off bs.length) h) := by
  unfold put
  simp only [half_orPair, half_lessPair]
  cases bad <;> simp

/-- A line fits after a write where it fitted before, and where the write covers a sector. -/
theorem Fits.put {v w : Bool × Bool} {l : LineData} {off : Nat} {bs : List Byte} {bad : Bool} (f : l.Fits C t v) (p : Puts C t off bs bad)
    (h : ∀ i < 2, half w i = true → half v i = true ∨ half (covered off bs.length) i = true) : (l.put off bs bad).Fits C t w := by
  refine ⟨put_data f.1 p.inLine, fun i hi hw => ⟨fun k hk => ?_, ?_⟩⟩
  · rw [nth_put f.1 p.inLine]
    split
    · next hin =>
      have := p.bytes (32 * i + k - off) (by omega)
      rwa [show 32 * t + off + (32 * i + k - off) = 32 * (t + i) + k by omega] at this
    · next hout =>
      rcases h i hi hw with hv | hc
      · exact (f.2 i hi hv).1 k hk
      · rw [half_covered hi, decide_eq_true_eq] at hc
        omega
  · rw [half_put_poison]
    cases hc : half (covered off bs.length) i
    · have hv := (f.2 i hi ((h i hi hw).resolve_right (by simp [hc]))).2
      cases ht : half (touched off bs.length) i
      · simpa using hv
      · simpa using p.marks i hi ht hc _ hv
    · simpa [covered_touched p.inLine hi hc] using p.whole i hi hc

end LineData

/-! ### Parts of a write -/

/-- The parts of bytes, cut at the sectors of their line: none is empty, and each lies in one sector. -/
theorem mem_sectorCuts {off : Nat} {bs : List Byte} {c : Nat × List Byte} (ho : off + bs.length ≤ 64) (hc : c ∈ sectorCuts off bs) :
    0 < c.2.length ∧ c.1 % 32 + c.2.length ≤ 32 ∧ off ≤ c.1 ∧ c.1 + c.2.length ≤ off + bs.length ∧
      (∀ i < c.2.length, nth 0 c.2 i = nth 0 bs (c.1 - off + i)) ∧
      (c.1 = off ∨ c.1 = 32) ∧ (c.1 + c.2.length = 32 ∨ c.1 + c.2.length = off + bs.length) := by
  simp only [sectorCuts, List.mem_filter, List.mem_cons, List.not_mem_nil, or_false] at hc
  obtain ⟨rfl | rfl, hn⟩ := hc
  · have pos : 0 < (bs.take (32 - off)).length := List.length_pos_iff.2 (by simpa using hn)
    rw [List.length_take] at pos
    simp only [List.length_take]
    refine ⟨by omega, by omega, by omega, by omega, fun i hi => ?_, .inl trivial, by omega⟩
    rw [nth_take _ _ (by omega)]
    congr 1
    omega
  · have pos : 0 < (bs.drop (32 - off)).length := List.length_pos_iff.2 (by simpa using hn)
    rw [List.length_drop] at pos
    have : Nat.max off 32 = off ∧ 32 ≤ off ∨ Nat.max off 32 = 32 ∧ off ≤ 32 := by
      rcases Nat.le_total off 32 with h | h
      · exact .inr ⟨Nat.max_eq_right h, h⟩
      · exact .inl ⟨Nat.max_eq_left h, h⟩
    generalize Nat.max off 32 = m at this
    simp only [List.length_drop]
    refine ⟨by omega, by omega, by omega, by omega, fun i hi => ?_, by omega, by omega⟩
    rw [nth_drop]
    congr 1
    omega

theorem Puts.cut {off : Nat} {bs : List Byte} {bad : Bool} (p : Puts C t off bs bad) {c : Nat × List Byte} (hc : c ∈ sectorCuts off bs) :
    Puts C t c.1 c.2 bad := by
  have inLine := p.inLine
  obtain ⟨pos, one, lo, hi, bytes, start, stop⟩ := mem_sectorCuts inLine hc
  refine ⟨by omega, fun i h => ?_, fun h hh ht hn o ho => p.marks h hh ?_ ?_ o ho, fun h hh hcov => p.whole h hh ?_⟩
  · rw [bytes i h]
    have := p.bytes (c.1 - off + i) (by omega)
    rwa [show 32 * t + off + (c.1 - off + i) = 32 * t + c.1 + i by omega] at this
  · rw [half_touched (by omega) hh, decide_eq_true_eq] at ht ⊢
    omega
  · rw [half_touched (by omega) hh, decide_eq_true_eq] at ht
    rw [half_covered hh, decide_eq_false_iff_not] at hn ⊢
    omega
  · rw [half_covered hh, decide_eq_true_eq] at hcov ⊢
    omega

theorem LineData.poisonAt_sector (d : LineData) {h : Nat} (hh : h < 2) : d.poisonAt (32 * h) 32 = half d.poison h := by
  obtain rfl | rfl : h = 0 ∨ h = 1 := by omega
  all_goals simp [LineData.poisonAt, touched, anyPair, andPair, half]

/-- A sector of a line, written back. -/
theorem LineData.Sector.puts {d : LineData} {h : Nat} (hd : d.data.length = 64) (hh : h < 2) (s : d.Sector C (t + h) h) :
    Puts C t (32 * h) (d.slice (32 * h) 32) (d.poisonAt (32 * h) 32) := by
  have len : (d.slice (32 * h) 32).length = 32 := d.slice_length hd (by omega)
  rw [d.poisonAt_sector hh]
  refine ⟨by omega, fun i hi => ?_, fun i hi ht hc => ?_, fun i hi hc => ?_⟩
  · rw [nth_slice _ _ (by omega)]
    have := s.1 i (by omega)
    rwa [show 32 * (t + h) + i = 32 * t + 32 * h + i by omega] at this
  · rw [len, half_touched (by omega) hi, decide_eq_true_eq] at ht
    rw [len, half_covered hi, decide_eq_false_iff_not] at hc
    omega
  · rw [len, half_covered hi, decide_eq_true_eq] at hc
    obtain rfl : i = h := by omega
    exact s.2

/-! ### Lines of a stack (R12, R14) -/

/-- The first byte of a line of a stack. -/
def OnStack (a : Nat) : Prop := a % 64 = 0 ∧ (stackOf a).isSome = true

/-- The sector number of a line's first sector. -/
def sectorAt (line : Nat) : Nat := memKey line / 32

theorem within_line {base size pa : Nat} (hb : base % 64 = 0) (hs : size % 64 = 0) :
    (base ≤ pa / 64 * 64 && decide (pa / 64 * 64 < base + size)) = (base ≤ pa && decide (pa < base + size)) := by
  rw [← Bool.decide_and, ← Bool.decide_and, decide_eq_decide]
  omega

/-- The bytes of a line are of one place of the map. -/
theorem placeOf_line (pa : Nat) :
    (∃ st off off', placeOf pa = .homed st off ∧ placeOf (pa / 64 * 64) = .homed st off') ∨
    (∃ st off, placeOf pa = .striped st (off + pa % 64) ∧ placeOf (pa / 64 * 64) = .striped st off ∧ off % 64 = 0) ∨
    stackOf pa = none ∧ stackOf (pa / 64 * 64) = none := by
  unfold stackOf placeOf
  rw [within_line (base := homedBase) (by decide) (by decide), within_line (base := stripedBase) (by decide) (by decide)]
  split
  · next h =>
    rw [Bool.and_eq_true, decide_eq_true_eq, decide_eq_true_eq] at h
    unfold homedBase at h ⊢
    refine .inl ⟨_, _, (pa / 64 * 64 - 0x100000000000) % 2 ^ 36, rfl, congrArg (Place.homed · _) ?_⟩
    omega
  · split
    · next h =>
      rw [Bool.and_eq_true, decide_eq_true_eq, decide_eq_true_eq] at h
      unfold stripedBase at h ⊢
      refine .inr (.inl ⟨_, (pa / 64 * 64 - 0x200000000000) / 65536 * 4096 + (pa / 64 * 64 - 0x200000000000) % 4096, ?_, rfl, by omega⟩)
      refine congrArg₂ Place.striped ?_ ?_ <;> omega
    · have none : ∀ a : Nat, (match (if scratchBase ≤ a && decide (a < scratchBase + 2 ^ 29) then
            Place.scratch ((a - scratchBase) / 2 ^ 22) ((a - scratchBase) % 2 ^ 22)
          else if remoteBase ≤ a && decide (a < 2 ^ 52) then .remote else .none) with
          | .homed st off | .striped st off => some (st, off)
          | _ => Option.none) = (Option.none : Option (Nat × Nat)) := fun a => by
        by_cases h3 : (scratchBase ≤ a && decide (a < scratchBase + 2 ^ 29)) = true
        · rw [if_pos h3]
        · rw [if_neg h3]
          by_cases h4 : (remoteBase ≤ a && decide (a < 2 ^ 52)) = true
          · rw [if_pos h4]
          · rw [if_neg h4]
      exact .inr (.inr ⟨none pa, none _⟩)

/-- The bytes of a line of a stack have consecutive keys. -/
theorem stackOf_line {pa : Nat} (h : (stackOf pa).isSome = true) : OnStack (pa / 64 * 64) ∧
    memKey pa = memKey (pa / 64 * 64) + pa % 64 ∧ memKey (pa / 64 * 64) % 64 = 0 := by
  unfold OnStack stackOf memKey
  rcases placeOf_line pa with ⟨st, off, off', e, e'⟩ | ⟨st, off, e, e', ho⟩ | ⟨e, -⟩
  · rw [e, e']
    exact ⟨⟨Nat.mul_mod_left _ _, rfl⟩, (Nat.div_add_mod' pa 64).symm, Nat.mul_mod_left _ _⟩
  · rw [e, e']
    dsimp only [homedBase]
    exact ⟨⟨Nat.mul_mod_left _ _, rfl⟩, by omega, by omega⟩
  · rw [e] at h
    cases h

theorem stackOf_of_line {pa : Nat} (h : (stackOf (pa / 64 * 64)).isSome = true) : (stackOf pa).isSome = true := by
  rcases placeOf_line pa with ⟨st, off, off', e, -⟩ | ⟨st, off, e, -, -⟩ | ⟨-, e⟩
  · simp [stackOf, e]
  · simp [stackOf, e]
  · rw [e] at h
    cases h

theorem OnStack.aligned {a : Nat} (h : OnStack a) : memKey a % 64 = 0 := by
  obtain ⟨_, -, e⟩ := stackOf_line h.2
  rwa [Nat.div_mul_cancel (Nat.dvd_of_mod_eq_zero h.1)] at e

/-- The key of a line's byte. -/
theorem OnStack.key {a : Nat} (h : OnStack a) : memKey a = 32 * sectorAt a := by
  have := h.aligned
  unfold sectorAt
  omega

theorem memKey_sector {pa : Nat} (h : (stackOf pa).isSome = true) : memKey pa = 32 * sectorAt (pa / 64 * 64) + pa % 64 := by
  obtain ⟨on, e, -⟩ := stackOf_line h
  rw [e, on.key]

end Sys2Proof.Machine
end

section
/-! PROOFS. Caches: what a home holds stays within what its contents may be, whatever a home does: the banks, the memory-side cache
and the die cache, and the write-backs that wait at them. -/

set_option Elab.async false

namespace Sys2Proof.Machine

variable {C : Content}

theorem nth_getBytes (m : Memory) (a : Nat) {n i : Nat} (h : i < n) : nth 0 (m.getBytes a n) i = m.get (a + i) := by
  simp [nth, Memory.getBytes_eq, List.getD_eq_getElem?_getD, h]

theorem mem_insertNat {n t : Nat} {xs : List Nat} : t ∈ insertNat n xs ↔ t = n ∨ t ∈ xs := by
  induction xs with
  | nil => simp [insertNat]
  | cons x xs ih =>
    unfold insertNat
    split
    · simp
    · split
      · next h => simp [h]
      · simp [ih, or_left_comm]

/-! ### Lines that are held -/

def DieLine.Held (C : Content) (l : DieLine) : Prop :=
  (l.dirty = true → OnStack l.addr) ∧ (OnStack l.addr → l.Fits C (sectorAt l.addr) l.valid)

def MscLine.Held (C : Content) (l : MscLine) : Prop :=
  (anyPair l.dirty = true → OnStack l.addr) ∧ (OnStack l.addr → l.Fits C (sectorAt l.addr) (orPair l.valid l.dirty))

def LineReq.Held (C : Content) (r : LineReq) : Prop := OnStack r.addr ∧ r.Fits C (sectorAt r.addr) r.sectors

/-- What the home of every line holds is within C. -/
structure State.Homes (s : State) (C : Content) : Prop where
  ok : s.memOk
  bytes : ∀ k, C.byte k (s.mem.get k)
  marks : ∀ t, C.bad t (s.signed.contains t)
  spoilt : C.spoilt s.poison
  sound : s.latent = [] ∧ s.latentWords = []
  die : ∀ l ∈ s.caches.dieLines, l.Held C
  msc : ∀ l ∈ s.caches.mscLines, l.Held C
  mscQueue : ∀ r ∈ s.caches.mscQueue, r.Held C
  bankQueue : ∀ r ∈ s.caches.bankQueue, r.Held C

/-- The bank of coordinates keeps them when a sequencer gives its row up. -/
theorem State.bankAt_coords (s : State) (st pch bank : Nat) (cap : Nat) :
    let b := s.bankAt st pch bank
    let b := if b.seqOpen then b.giveUp cap else b
    b.stack = st ∧ b.pch = pch ∧ b.bank = bank := by
  have at_ : (s.bankAt st pch bank).stack = st ∧ (s.bankAt st pch bank).pch = pch ∧ (s.bankAt st pch bank).bank = bank := by
    unfold State.bankAt
    cases h : s.engines.banks.find? _ with
    | none => exact ⟨rfl, rfl, rfl⟩
    | some b => simpa [and_assoc] using List.find?_some h
  dsimp only
  split
  · unfold Bank.giveUp
    dsimp only
    split
    · split
      · exact at_
      · split <;> exact at_
    · exact at_
  · exact at_

/-- A read that arrives at its bank serves waiting write-backs, those of its own line among them (R29). -/
theorem State.bankTurn_serves (s : State) (line : Nat) :
    (∃ (rs : List LineReq) (b : Bank), s.bankTurn line = (rs.foldl State.serveReq s).setBank b ∧ (∀ r ∈ rs, r ∈ s.caches.bankQueue) ∧
      ∀ r ∈ s.caches.bankQueue, r.addr = line → r ∈ rs) ∨ s.bankTurn line = s ∧ stackOf line = none := by
  unfold State.bankTurn
  cases hst : stackOf line with
  | none => exact .inr ⟨rfl, rfl⟩
  | some p =>
    obtain ⟨st, off⟩ := p
    dsimp only
    have coords := s.bankAt_coords st (bankOf off).1 (bankOf off).2.1 (s.stackCsr st).yieldCap.toNat
    dsimp only at coords
    generalize (if (s.bankAt st (bankOf off).1 (bankOf off).2.1).seqOpen then _ else _ : Bank) = b at coords ⊢
    have own : ∀ r ∈ s.caches.bankQueue, r.addr = line → r ∈ s.bankReqs b := fun r hr e => by
      unfold State.bankReqs
      rw [List.mem_filter, e, hst]
      simp [hr, coords]
    have sub : ∀ r ∈ s.bankReqs b, r ∈ s.caches.bankQueue := fun r hr => List.mem_of_mem_filter hr
    refine .inl ?_
    split
    · exact ⟨_, _, rfl, by grind, by grind⟩
    · exact ⟨_, _, rfl, by grind, by grind⟩

theorem State.writeBackOf_held {s : State} {stack line : Nat} {p : Bool × Bool} {d : LineData}
    (h : anyPair p = true → OnStack line ∧ d.Fits C (sectorAt line) p) : ∀ r ∈ s.writeBackOf stack line p d, r.Held C := by
  intro r hr
  unfold State.writeBackOf at hr
  split at hr
  · next hp =>
    obtain rfl := List.mem_singleton.1 hr
    exact h hp
  · cases hr

/-- A line fits after parts of a write. -/
theorem LineData.Fits.cuts {t off : Nat} {v : Bool × Bool} {d : LineData} {bs : List Byte} {bad : Bool} (f : d.Fits C t v)
    (p : Puts C t off bs bad) {cs : List (Nat × List Byte)} (hc : ∀ c ∈ cs, c ∈ sectorCuts off bs) :
    (cs.foldl (fun (d : LineData) c => d.put c.1 c.2 bad) d).Fits C t v :=
  List.foldlRecOn (motive := fun d : LineData => d.Fits C t v) _ _ f fun _ fd c hmem => fd.put (p.cut (hc c hmem)) fun _ _ => .inl

/-- A line of the memory-side cache with a write within one of its sectors. -/
def MscLine.write (l : MscLine) (off : Nat) (bs : List Byte) (bad : Bool) : MscLine :=
  { l with toLineData := l.put off bs bad, valid := orPair l.valid (onlyPair (off / 32)), dirty := orPair l.dirty (onlyPair (off / 32)) }

/-- It holds what it may where the sector was there or is covered. -/
theorem MscLine.Held.write {l : MscLine} (hl : l.Held C) (on : OnStack l.addr) {off : Nat} {bs : List Byte} {bad : Bool}
    (p : Puts C (sectorAt l.addr) off bs bad)
    (hv : ∀ i < 2, half (onlyPair (off / 32)) i = true → half l.valid i = true ∨ half (covered off bs.length) i = true) :
    (l.write off bs bad).Held C := by
  refine ⟨fun _ => on, fun _ => (hl.2 on).put p fun i hi hw => ?_⟩
  simp only [MscLine.write, half_orPair, Bool.or_eq_true] at hw ⊢
  have := hv i hi
  tauto

/-- Whether a line has one sector. -/
theorem anyPair_onlyPair {k : Nat} (hk : k < 2) (v : Bool × Bool) : anyPair (andPair (onlyPair k) v) = half v k := by
  obtain rfl | rfl : k = 0 ∨ k = 1 := by omega
  all_goals simp [anyPair, andPair, onlyPair, half]

/-- What the memory-side cache has of a line, or nothing. -/
def State.mscAt (s : State) (line : Nat) : MscLine := (s.mscLine? line).getD { addr := line, valid := (false, false) }

theorem State.mscAt_addr (s : State) (line : Nat) : (s.mscAt line).addr = line := by
  unfold State.mscAt
  cases e : s.mscLine? line with
  | none => rfl
  | some l => simpa using List.find?_some e

/-- A line that is placed is found. -/
theorem State.mscPlace_line (s : State) (stack : Nat) (l : MscLine) : (s.mscPlace stack l).mscLine? l.addr = some l := by
  unfold State.mscPlace State.mscLine?
  dsimp only
  split <;> simp

/-- A read that allocates leaves its sectors valid. -/
theorem State.mscRead_alloc (s : State) (stack line : Nat) (want : Bool × Bool) (seq : Bool) :
    ∃ l, (s.mscRead stack line want true seq).1.mscLine? line = some l ∧ ∀ i < 2, half want i = true → half l.valid i = true := by
  have addr := s.mscAt_addr line
  unfold State.mscRead
  dsimp only
  rw [show (s.mscLine? line).getD { addr := line, valid := (false, false) } = s.mscAt line from rfl]
  generalize s.mscAt line = l at addr ⊢
  subst addr
  split
  · next hw =>
    refine ⟨l, State.mscPlace_line _ _ _, fun i hi hwant => ?_⟩
    have := pair_none.1 hw i hi
    rwa [half_lessPair, hwant, Bool.true_and, Bool.not_eq_false'] at this
  · exact ⟨_, State.mscPlace_line _ _ _, fun i _ _ => half_true i⟩

/-! ### Bytes of one line -/

theorem linesOf_one {pa n : Nat} (hn : 0 < n) (h : pa % 64 + n ≤ 64) : linesOf pa n = [pa / 64 * 64] := by
  have : (pa % 64 + n + 63) / 64 = 1 := by omega
  simp [linesOf, this]

theorem State.peek_line {s : State} {pa n : Nat} (on : (stackOf pa).isSome = true) (hn : 0 < n) (h : pa % 64 + n ≤ 64) :
    s.peek pa n = (s.homeView (pa / 64 * 64)).slice (pa % 64) n := by
  obtain ⟨p, e⟩ := Option.isSome_iff_exists.1 on
  simp [State.peek, e, linesOf_one hn h, LineData.slice]

theorem State.peekPoison_line {s : State} {pa n : Nat} (on : (stackOf pa).isSome = true) (hn : 0 < n) (h : pa % 64 + n ≤ 64) :
    s.peekPoison pa n = (s.homeView (pa / 64 * 64)).poisonAt (pa % 64) n := by
  obtain ⟨p, e⟩ := Option.isSome_iff_exists.1 on
  have start : Nat.max pa (pa / 64 * 64) = pa := Nat.max_eq_left (by omega)
  have stop : Nat.min (pa + n) (pa / 64 * 64 + 64) = pa + n := Nat.min_eq_left (by omega)
  simp only [State.peekPoison, e, linesOf_one hn h, List.any_cons, List.any_nil, Bool.or_false, start, stop]
  congr 1 <;> omega

/-- Contents that say exactly what memory holds. -/
structure Content.Exact (C : Content) : Prop where
  byte : ∀ {k v w}, C.byte k v → C.byte k w → v = w
  bad : ∀ {t b c}, C.bad t b → C.bad t c → b = c
  spoilt : ∀ {p q}, C.spoilt p → C.spoilt q → p = q

/-- Two lines that fit exact contents have the same bytes and poison. -/
theorem Content.Exact.same (ex : C.Exact) {t off n : Nat} {d d' : LineData} (h : off + n ≤ 64) (f : d.Fits C t (touched off n))
    (f' : d'.Fits C t (touched off n)) : (d.slice off n, d.poisonAt off n) = (d'.slice off n, d'.poisonAt off n) := by
  refine Prod.ext ?_ ?_
  · refine List.ext_getElem (by rw [d.slice_length f.1 h, d'.slice_length f'.1 h]) fun i hi hi' => ?_
    have hn : i < n := by rwa [d.slice_length f.1 h] at hi
    have ht : half (touched off n) ((off + i) / 32) = true := by
      rw [half_touched h (by omega), decide_eq_true_eq]
      omega
    have e := (f.2 _ (by omega) ht).1 ((off + i) % 32) (by omega)
    have e' := (f'.2 _ (by omega) ht).1 ((off + i) % 32) (by omega)
    have := ex.byte e e'
    rw [show 32 * ((off + i) / 32) + (off + i) % 32 = off + i by omega, ← nth_slice d off hn, ← nth_slice d' off hn] at this
    simpa [nth, List.getD_eq_getElem?_getD, hi, hi'] using this
  · have : ∀ h < 2, (half (touched off n) h && half d.poison h) = (half (touched off n) h && half d'.poison h) := fun h hh => by
      cases ht : half (touched off n) h
      · rfl
      · rw [ex.bad (f.2 h hh ht).2 (f'.2 h hh ht).2]
    have h0 := this 0 (by decide)
    have h1 := this 1 (by decide)
    simp only [half, if_true, Nat.one_ne_zero, if_false, Bool.and_comm (touched off n).1, Bool.and_comm (touched off n).2] at h0 h1
    simp [LineData.poisonAt, andPair, anyPair, h0, h1]

namespace State.Homes

section
variable {s : State}

theorem foldl {α : Type} {f : State → α → State} {l : List α} (h : s.Homes C) (hf : ∀ s, s.Homes C → ∀ a ∈ l, (f s a).Homes C) :
    (l.foldl f s).Homes C :=
  List.foldlRecOn (motive := fun s : State => s.Homes C) _ _ h fun _ hb a ha => hf _ hb a ha

/-! ### The banks (R28, R29, R51, R53) -/

theorem dramLine (h : s.Homes C) {line : Nat} (on : OnStack line) (v : Bool × Bool) : (s.dramLine line).Fits C (sectorAt line) v := by
  have key := on.key
  refine ⟨s.mem.getBytes_length _ _, fun i hi _ => ⟨fun k hk => ?_, ?_⟩⟩
  · have := h.bytes (32 * (sectorAt line + i) + k)
    have e : nth 0 (s.dramLine line).data (32 * i + k) = s.mem.get (32 * (sectorAt line + i) + k) := by
      refine (nth_getBytes _ _ (by omega)).trans (congrArg s.mem.get ?_)
      omega
    rwa [e]
  · have := h.marks (sectorAt line + i)
    obtain rfl | rfl : i = 0 ∨ i = 1 := by omega
    · exact this
    · exact this

theorem dramStore (h : s.Homes C) {line i : Nat} (hi : i < 2) {d : LineData} (hd : d.data.length = 64)
    (f : d.Sector C (sectorAt line + i) i) : (s.dramStore line i d).Homes C := by
  have len : (d.slice (32 * i) 32).length = 32 := d.slice_length hd (by omega)
  refine { h with ok := ⟨Memory.setBytes_wf _ _ h.ok.1, h.ok.2⟩, bytes := fun k => ?_, marks := fun t => ?_, sound := ⟨?_, h.sound.2⟩ }
  · show C.byte k ((s.mem.setBytes (32 * (sectorAt line + i)) (d.slice (32 * i) 32)).get k)
    rw [Memory.get_setBytes _ _ _ h.ok.1, len]
    split
    · next hk =>
      rw [nth_slice _ _ (by omega)]
      have := f.1 (k - 32 * (sectorAt line + i)) (by omega)
      rwa [show 32 * (sectorAt line + i) + (k - 32 * (sectorAt line + i)) = k by omega] at this
    · exact h.bytes k
  · have bad : (s.dramStore line i d).signed.contains t = if t = sectorAt line + i then half d.poison i else s.signed.contains t := by
      show (if d.poisonAt (32 * i) 32 then insertNat (sectorAt line + i) s.signed else s.signed.filter (· != sectorAt line + i)).contains t = _
      rw [d.poisonAt_sector hi]
      rw [Bool.eq_iff_iff]
      by_cases ht : t = sectorAt line + i
      · cases half d.poison i <;> simp [ht, mem_insertNat]
      · cases half d.poison i <;> simp [ht, mem_insertNat]
    rw [bad]
    split
    · next e => exact e ▸ f.2
    · exact h.marks t
  · show s.latent.filter _ = []
    rw [h.sound.1]
    rfl

theorem dramWrite (h : s.Homes C) {line : Nat} {p : Bool × Bool} {d : LineData} (f : d.Fits C (sectorAt line) p) :
    (s.dramWrite line p d).Homes C := by
  have first : (if p.1 then s.dramStore line 0 d else s).Homes C := by
    split
    · next hp => exact h.dramStore (by decide) f.1 (f.2 0 (by decide) hp)
    · exact h
  unfold State.dramWrite
  dsimp only
  split
  · next hp => exact first.dramStore (by decide) f.1 (f.2 1 (by decide) hp)
  · exact first

/-- No sector meets an error (R51). -/
theorem dramMeet (h : s.Homes C) (stack line : Nat) (keep : Bool) (i : Nat) : s.dramMeet stack line keep i = (s, false) := by
  unfold State.dramMeet
  rw [h.sound.1]
  rfl

theorem dramRead (h : s.Homes C) (stack line : Nat) (p : Bool × Bool) (keep : Bool) :
    s.dramRead stack line p keep = (s, s.dramLine line, (false, false)) := by
  unfold State.dramRead
  simp only [h.dramMeet, ite_self]
  cases p.1 <;> cases p.2 <;> simp [orPair, State.dramLine]

theorem serveReq (h : s.Homes C) {r : LineReq} (hr : r.Held C) : (s.serveReq r).Homes C := by
  have less : (s.onCaches fun c => { c with bankQueue := c.bankQueue.erase r }).Homes C :=
    { h with bankQueue := fun q hq => h.bankQueue q (List.mem_of_mem_erase hq) }
  exact less.dramWrite hr.2

theorem settleBank (h : s.Homes C) (line : Nat) : (s.settleBank line).Homes C :=
  h.foldl fun _ h' r hr => h'.serveReq (h.bankQueue r (List.mem_of_mem_filter hr))

theorem setBank (h : s.Homes C) (b : Bank) : (s.setBank b).Homes C := { h with }

theorem bankTurn (h : s.Homes C) (line : Nat) : (s.bankTurn line).Homes C := by
  obtain ⟨rs, b, e, hrs, -⟩ | ⟨e, -⟩ := s.bankTurn_serves line
  · rw [e]
    exact (h.foldl fun _ h' r hr => h'.serveReq (h.bankQueue r (hrs r hr))).setBank b
  · rwa [e]

/-! ### The memory-side cache (R30, R31) -/

theorem mscPlace (h : s.Homes C) (stack : Nat) {l : MscLine} (hl : l.Held C) : (s.mscPlace stack l).Homes C := by
  unfold State.mscPlace
  dsimp only
  split
  · next v hv =>
    have mem : v ∈ s.caches.mscLines := by
      split at hv
      · exact List.mem_of_mem_filter (List.mem_of_mem_filter (List.mem_of_getLast? hv))
      · cases hv
    obtain ⟨dirty, fits⟩ := h.msc v mem
    refine { h with
      msc := List.forall_mem_cons.2 ⟨hl, fun x hx => h.msc x (List.mem_of_mem_filter (List.mem_of_mem_filter hx))⟩
      bankQueue := List.forall_mem_append.2 ⟨h.bankQueue, State.writeBackOf_held fun hp => ⟨dirty hp, ?_⟩⟩ }
    exact (fits (dirty hp)).mono fun i _ hi => by simp [hi]
  · exact { h with msc := List.forall_mem_cons.2 ⟨hl, fun x hx => h.msc x (List.mem_of_mem_filter hx)⟩ }

theorem mscAt (h : s.Homes C) (line : Nat) : (s.mscAt line).Held C := by
  unfold State.mscAt
  cases e : s.mscLine? line with
  | none => exact ⟨fun hd => absurd hd Bool.false_ne_true, fun _ => LineData.fits_none rfl⟩
  | some l => exact h.msc l (List.mem_of_find?_eq_some e)

theorem mscRead (h : s.Homes C) (stack : Nat) {line : Nat} (on : OnStack line) (want : Bool × Bool) (alloc seq : Bool) :
    (s.mscRead stack line want alloc seq).1.Homes C ∧ (s.mscRead stack line want alloc seq).2.Fits C (sectorAt line) want := by
  have held := h.mscAt line
  have addr := s.mscAt_addr line
  unfold State.mscRead
  dsimp only
  rw [show (s.mscLine? line).getD { addr := line, valid := (false, false) } = s.mscAt line from rfl]
  generalize s.mscAt line = l at held addr ⊢
  have fits := held.2 (addr ▸ on)
  rw [addr] at fits
  split
  · next hw =>
    refine ⟨h.mscPlace stack held, fits.mono fun i hi hwant => ?_⟩
    have := pair_none.1 hw i hi
    rw [half_lessPair, hwant, Bool.true_and, Bool.not_eq_false'] at this
    rw [half_orPair, this, Bool.true_or]
  · have turned : (if seq then s.settleBank line else s.bankTurn line).Homes C := by
      split
      · exact h.settleBank line
      · exact h.bankTurn line
    generalize (if seq then s.settleBank line else s.bankTurn line) = r at turned ⊢
    rw [turned.dramRead]
    dsimp only
    have data : ∀ {get u : Bool × Bool}, (∀ i < 2, half u i = true → half get i = true ∨ half l.valid i = true) →
        (l.toLineData.over (r.dramLine line) get).Fits C (sectorAt line) u := fun {get u} hu =>
      fits.sectors (turned.dramLine on get) fun i hi hui => by have := hu i hi hui; split <;> simp_all
    cases alloc
    · have get : (l.toLineData.over (r.dramLine line) (lessPair want l.valid)).Fits C (sectorAt line) want :=
        data fun i _ hi => by simp [hi]
      cases (s.mscLine? line).isSome
      · exact ⟨turned, get⟩
      · exact ⟨turned.mscPlace stack held, get⟩
    · have get : ∀ u, (l.toLineData.over (r.dramLine line) (lessPair (true, true) l.valid)).Fits C (sectorAt line) u := fun u =>
        data fun i _ _ => by simp
      exact ⟨turned.mscPlace stack ⟨fun _ => addr ▸ on, fun _ => addr ▸ get _⟩, get _⟩

theorem mscWrite (h : s.Homes C) (stack : Nat) {line off : Nat} (on : OnStack line) {bs : List Byte} {bad : Bool}
    (p : Puts C (sectorAt line) off bs bad) (one : off % 32 + bs.length ≤ 32) (pos : 0 < bs.length) (alloc : Bool) :
    (s.mscWrite stack line off bs bad alloc).Homes C := by
  have inLine := p.inLine
  have sector : off / 32 < 2 := by omega
  have full : ∀ i < 2, bs.length = 32 → half (onlyPair (off / 32)) i = true → half (covered off bs.length) i = true := fun i hi e ho => by
    rw [half_onlyPair hi sector, decide_eq_true_eq] at ho
    rw [half_covered hi, decide_eq_true_eq]
    omega
  have place : ∀ {s : State}, s.Homes C → (∀ i < 2, half (onlyPair (off / 32)) i = true →
      half (s.mscAt line).valid i = true ∨ half (covered off bs.length) i = true) → (s.mscPlace stack ((s.mscAt line).write off bs bad)).Homes C :=
    fun {s} h hv => h.mscPlace stack ((h.mscAt line).write ((s.mscAt_addr line).symm ▸ on) ((s.mscAt_addr line).symm ▸ p) hv)
  have valid : ((s.mscLine? line).map (·.valid)).getD (false, false) = (s.mscAt line).valid := by
    unfold State.mscAt
    cases s.mscLine? line <;> rfl
  have here : ∀ {i}, i < 2 → half (onlyPair (off / 32)) i = true → i = off / 32 := fun hi ho => by
    simpa [half_onlyPair hi sector] using ho
  unfold State.mscWrite
  dsimp only
  rw [valid, anyPair_onlyPair sector]
  split
  · by_cases hit : decide (bs.length = 32) || half (s.mscAt line).valid (off / 32)
    · rw [if_pos hit]
      refine place h fun i hi ho => ?_
      rcases Bool.or_eq_true _ _ ▸ hit with e | e
      · exact .inr (full i hi (by simpa using e) ho)
      · exact .inl (here hi ho ▸ e)
    · rw [if_neg hit]
      obtain ⟨l, found, lv⟩ := s.mscRead_alloc stack line (onlyPair (off / 32)) false
      refine place (h.mscRead stack on _ true false).1 fun i hi ho => .inl ?_
      rw [State.mscAt, found]
      exact lv i hi ho
  · have queued : ∀ {r : State × LineData}, r.1.Homes C → r.2.Fits C (sectorAt line) (if bs.length = 32 then (false, false) else onlyPair (off / 32)) →
        (r.1.onCaches fun c => { c with bankQueue := c.bankQueue ++ r.1.writeBackOf stack line (onlyPair (off / 32)) (r.2.put off bs bad) }).Homes C :=
      fun {r} hr fits => { hr with
        bankQueue := List.forall_mem_append.2 ⟨hr.bankQueue, State.writeBackOf_held fun _ => ⟨on, fits.put p fun i hi ho => by
          by_cases e : bs.length = 32
          · exact .inr (full i hi e ho)
          · rw [if_neg e]
            exact .inl ho⟩⟩ }
    refine queued (r := if decide (bs.length = 32) then (s, {}) else s.mscRead stack line (onlyPair (off / 32)) false false) ?_ ?_
    · split
      · exact h
      · exact (h.mscRead stack on _ false false).1
    · by_cases e : bs.length = 32
      · simp only [e, decide_true, if_true]
        exact LineData.fits_none rfl
      · simp only [e, decide_false, if_false]
        exact (h.mscRead stack on _ false false).2

theorem mscPut (h : s.Homes C) (stack : Nat) {line : Nat} (on : OnStack line) {p : Bool × Bool} {d : LineData}
    (f : d.Fits C (sectorAt line) p) : (s.mscPut stack line p d).Homes C := by
  have one : ∀ {s : State} {i : Nat}, s.Homes C → i < 2 → half p i = true →
      (s.mscWrite stack line (32 * i) (d.slice (32 * i) 32) (d.poisonAt (32 * i) 32) true).Homes C := fun {s i} h hi hp => by
    have len : (d.slice (32 * i) 32).length = 32 := d.slice_length f.1 (by omega)
    exact h.mscWrite stack on ((f.2 i hi hp).puts f.1 hi) (by omega) (by omega) true
  have first : (if p.1 then s.mscWrite stack line (32 * 0) (d.slice (32 * 0) 32) (d.poisonAt (32 * 0) 32) true else s).Homes C := by
    split
    · next hp => exact one h (by decide) hp
    · exact h
  unfold State.mscPut
  dsimp only
  split
  · next hp => exact one first (by decide) hp
  · exact first

theorem serveMsc (h : s.Homes C) {r : LineReq} (hr : r.Held C) : (s.serveMsc r).Homes C := by
  have less : (s.onCaches fun c => { c with mscQueue := c.mscQueue.erase r }).Homes C :=
    { h with mscQueue := fun q hq => h.mscQueue q (List.mem_of_mem_erase hq) }
  exact less.mscPut _ hr.1 hr.2

theorem settleMsc (h : s.Homes C) (line : Nat) : (s.settleMsc line).Homes C :=
  h.foldl fun _ h' r hr => h'.serveMsc (h.mscQueue r (List.mem_of_mem_filter hr))

/-! ### The die cache (R46, R107, R108, R113) -/

theorem diePlace (h : s.Homes C) (stack : Nat) {l : DieLine} (hl : l.Held C) : (s.diePlace stack l).Homes C := by
  unfold State.diePlace
  dsimp only
  split
  · next v hv =>
    have mem : v ∈ s.caches.dieLines := by
      split at hv
      · have : ∀ {xs ys : List DieLine}, (∀ x ∈ xs, x ∈ s.caches.dieLines) → (∀ x ∈ ys, x ∈ s.caches.dieLines) →
            xs.getLast?.or ys.getLast? = some v → v ∈ s.caches.dieLines := fun {xs ys} hx hy e =>
          (Option.or_eq_some_iff.1 e).elim (fun e => hx v (List.mem_of_getLast? e)) fun e => hy v (List.mem_of_getLast? e.2)
        exact this (by grind) (by grind) hv
      · cases hv
    obtain ⟨dirty, fits⟩ := h.die v mem
    refine { h with
      die := List.forall_mem_cons.2 ⟨hl, fun x hx => h.die x (List.mem_of_mem_filter (List.mem_of_mem_filter hx))⟩
      mscQueue := ?_ }
    show ∀ r ∈ (if v.dirty then s.caches.mscQueue ++ _ else _ : List LineReq), _
    split
    · next hd => exact List.forall_mem_append.2 ⟨h.mscQueue, State.writeBackOf_held fun _ => ⟨dirty hd, fits (dirty hd)⟩⟩
    · exact h.mscQueue
  · exact { h with die := List.forall_mem_cons.2 ⟨hl, fun x hx => h.die x (List.mem_of_mem_filter hx)⟩ }

theorem dieWriteBack (h : s.Homes C) (pa : Nat) (drop : Bool) : (s.dieWriteBack pa drop).Homes C := by
  unfold State.dieWriteBack
  dsimp only
  split
  · next l st off hl hst =>
    have on : OnStack (pa / 64 * 64) := (stackOf_line (by rw [hst]; rfl)).1
    have held := h.die l (List.mem_of_find?_eq_some hl)
    have addr : l.addr = pa / 64 * 64 := by simpa using List.find?_some hl
    have sent : (if l.dirty then (s.settleMsc (pa / 64 * 64)).mscPut st (pa / 64 * 64) l.valid l.toLineData else s).Homes C := by
      split
      · exact (h.settleMsc _).mscPut st on (addr ▸ held.2 (addr ▸ on))
      · exact h
    refine { sent with die := fun x hx => ?_ }
    revert hx
    generalize (if l.dirty then (s.settleMsc (pa / 64 * 64)).mscPut st (pa / 64 * 64) l.valid l.toLineData else s) = r at sent
    show x ∈ (if drop then _ else _ : List DieLine) → _
    split
    · exact fun hx => sent.die x (List.mem_of_mem_filter hx)
    · intro hx
      obtain ⟨y, hy, rfl⟩ := List.mem_map.1 hx
      have := sent.die y hy
      split
      · exact ⟨fun hd => absurd hd Bool.false_ne_true, this.2⟩
      · exact this
  · exact h

/-- What the die cache has of a line, or nothing, marked kept as asked. -/
theorem dieAt (h : s.Homes C) {line : Nat} {found : Option DieLine} (e : s.dieLine? line = found) :
    (found.getD { addr := line, valid := (false, false) }).Held C ∧
      (found.getD { addr := line, valid := (false, false) }).addr = line := by
  cases found with
  | none => exact ⟨⟨fun hd => absurd hd Bool.false_ne_true, fun _ => LineData.fits_none rfl⟩, rfl⟩
  | some l => exact ⟨h.die l (List.mem_of_find?_eq_some e), by simpa using List.find?_some e⟩

theorem homeLine (h : s.Homes C) {line : Nat} (on : OnStack line) (want : Bool × Bool) (p : Policy) :
    (s.homeLine line want p).1.Homes C ∧ (s.homeLine line want p).2.Fits C (sectorAt line) want := by
  unfold State.homeLine
  split
  · next hst => exact absurd on.2 (by simp [hst])
  · next st off hst =>
    split
    · exact (h.settleMsc line).mscRead st on want false false
    · split
      · exact ((h.dieWriteBack line false).settleMsc line).mscRead st on want false false
      · exact (h.settleMsc line).mscRead st on want false false
      · next pol _ _ =>
        obtain ⟨held, addr⟩ := h.dieAt (rfl : s.dieLine? line = _)
        generalize (s.dieLine? line).getD { addr := line, valid := (false, false) } = l at held addr ⊢
        subst addr
        have fits := held.2 on
        dsimp only
        split
        · next hw =>
          refine ⟨h.diePlace st held, fits.mono fun i hi hwant => ?_⟩
          have := pair_none.1 hw i hi
          rwa [half_lessPair, hwant, Bool.true_and, Bool.not_eq_false'] at this
        · split
          · obtain ⟨hr, fr⟩ := (h.settleMsc l.addr).mscRead st on (lessPair want l.valid) false false
            exact ⟨hr.diePlace st held, fits.sectors fr fun i _ hi => by by_cases hv : half l.valid i = true <;> simp [hi, hv]⟩
          · obtain ⟨hr, fr⟩ := (h.settleMsc l.addr).mscRead st on (lessPair (true, true) l.valid) true false
            have data : ∀ u, (l.toLineData.over ((s.settleMsc l.addr).mscRead st l.addr (lessPair (true, true) l.valid) true false).2
                (lessPair (true, true) l.valid)).Fits C (sectorAt l.addr) u := fun u =>
              fits.sectors fr fun i _ _ => by by_cases hv : half l.valid i = true <;> simp [hv]
            exact ⟨hr.diePlace st ⟨fun _ => on, fun _ => data _⟩, data _⟩

theorem homePut (h : s.Homes C) {pa : Nat} {bs : List Byte} {bad : Bool} (on : (stackOf pa).isSome = true)
    (put : Puts C (sectorAt (pa / 64 * 64)) (pa % 64) bs bad) (p : Policy) : (s.homePut pa bs bad p).Homes C := by
  obtain ⟨line, -, -⟩ := stackOf_line on
  have beyond : ∀ {s : State} {st : Nat} {cs : List (Nat × List Byte)}, s.Homes C → (∀ c ∈ cs, c ∈ sectorCuts (pa % 64) bs) →
      (cs.foldl (fun s c => s.mscWrite st (pa / 64 * 64) c.1 c.2 bad false) (s.settleMsc (pa / 64 * 64))).Homes C :=
    fun {s st cs} h hcs => (h.settleMsc _).foldl fun s hs c hc => by
      obtain ⟨pos, one, -⟩ := mem_sectorCuts put.inLine (hcs c hc)
      exact hs.mscWrite st line (put.cut (hcs c hc)) one pos false
  unfold State.homePut
  split
  · exact h
  · next st off hst =>
    dsimp only
    split
    · exact beyond h fun _ => id
    · split
      · exact beyond (h.dieWriteBack _ _) fun _ => id
      · exact beyond h fun _ => id
      · next pol _ _ =>
        obtain ⟨held, addr⟩ := h.dieAt (rfl : s.dieLine? (pa / 64 * 64) = _)
        generalize (s.dieLine? (pa / 64 * 64)).getD { addr := pa / 64 * 64, valid := (false, false) } = l at held addr ⊢
        have fits := held.2 (addr.symm ▸ line)
        rw [addr] at fits
        split
        · have placed := h.diePlace st (l := { l with
            toLineData := ((sectorCuts (pa % 64) bs).filter fun c => anyPair (andPair (onlyPair (c.1 / 32)) l.valid)).foldl
              (fun (d : LineData) c => d.put c.1 c.2 bad) l.toLineData,
            dirty := l.dirty || (sectorCuts (pa % 64) bs).any fun c => anyPair (andPair (onlyPair (c.1 / 32)) l.valid) })
            ⟨fun _ => addr.symm ▸ line, fun _ => addr.symm ▸ fits.cuts put fun c hc => List.mem_of_mem_filter hc⟩
          split
          · exact placed
          · exact beyond placed fun c hc => List.mem_of_mem_filter hc
        · have place : ∀ {r : State × LineData} {part : Bool × Bool} {kept : Bool}, r.1.Homes C → r.2.Fits C (sectorAt (pa / 64 * 64)) (orPair l.valid part) →
              part = lessPair (lessPair (touched (pa % 64) bs.length) (covered (pa % 64) bs.length)) l.valid →
              (r.1.diePlace st { l with
                toLineData := r.2.put (pa % 64) bs bad
                valid := orPair (orPair l.valid part) (touched (pa % 64) bs.length)
                dirty := true
                kept := kept }).Homes C := by
            intro r part kept hr fr hp
            refine hr.diePlace st ⟨fun _ => addr.symm ▸ line, fun _ => ?_⟩
            show (r.2.put (pa % 64) bs bad).Fits C (sectorAt l.addr) _
            rw [addr]
            refine fr.put put fun i _ hi => ?_
            simp only [hp, half_orPair, half_lessPair] at hi ⊢
            revert hi
            cases half l.valid i <;> cases half (covered (pa % 64) bs.length) i <;> simp
          split
          · next e => exact place (r := (s, l.toLineData)) h (fits.mono fun i _ hi => by simpa [e] using hi) rfl
          · obtain ⟨hr, fr⟩ := (h.settleMsc (pa / 64 * 64)).mscRead st line
              (lessPair (lessPair (touched (pa % 64) bs.length) (covered (pa % 64) bs.length)) l.valid) true false
            exact place (r := (_, l.toLineData.over _ _)) hr (fits.sectors fr fun i _ hi => by
              simp only [half_orPair, half_lessPair] at hi ⊢
              revert hi
              cases half l.valid i <;> simp) rfl

/-! ### What a home holds -/

/-- The line that a read at its home finds is within the contents. -/
theorem homeView (h : s.Homes C) {line : Nat} (on : OnStack line) : (s.homeView line).Fits C (sectorAt line) (true, true) := by
  have requests : ∀ {q : LineReq → Bool} {rs : List LineReq} {d : LineData}, (∀ r ∈ rs, r.Held C) → (∀ r, q r = true → sectorAt r.addr = sectorAt line) →
      d.Fits C (sectorAt line) (true, true) →
      (rs.foldl (fun l r => if q r then l.over r.toLineData r.sectors else l) d).Fits C (sectorAt line) (true, true) :=
    fun {q rs d} hr hq f => List.foldlRecOn (motive := fun d : LineData => d.Fits C (sectorAt line) (true, true)) _ _ f fun d fd r mem => by
      split
      · next e => exact fd.sectors (hq r e ▸ (hr r mem).2) fun i _ _ => by split <;> simp_all
      · exact fd
  have banks := requests (q := fun r => memKey r.addr == memKey line) h.bankQueue
    (fun r e => congrArg (· / 32) (by simpa using e)) (h.dramLine on (true, true))
  have cached : ∀ {d : LineData}, d.Fits C (sectorAt line) (true, true) → (match s.mscLine? line with
      | some m => d.over m.toLineData m.valid
      | none => d).Fits C (sectorAt line) (true, true) := fun {d} f => by
    cases e : s.mscLine? line with
    | none => exact f
    | some m =>
      have addr : m.addr = line := by simpa using List.find?_some e
      have fits := (h.msc m (List.mem_of_find?_eq_some e)).2 (addr.symm ▸ on)
      rw [addr] at fits
      exact f.sectors fits fun i _ _ => by split <;> simp_all
  have found : ∀ {d : LineData}, d.Fits C (sectorAt line) (true, true) → (match s.dieLine? line with
      | some l => d.over l.toLineData l.valid
      | none => d).Fits C (sectorAt line) (true, true) := fun {d} f => by
    cases e : s.dieLine? line with
    | none => exact f
    | some l =>
      have addr : l.addr = line := by simpa using List.find?_some e
      have fits := (h.die l (List.mem_of_find?_eq_some e)).2 (addr.symm ▸ on)
      rw [addr] at fits
      exact f.sectors fits fun i _ _ => by split <;> simp_all
  exact found (requests (q := fun r => r.addr == line) h.mscQueue (fun r e => congrArg sectorAt (by simpa using e)) (cached banks))

theorem byteAt (h : s.Homes C) (b : Nat) : C.byte (memKey b) (s.byteAt b) := by
  unfold State.byteAt
  cases e : stackOf b with
  | none =>
    have : s.peek b 1 = s.mem.getBytes (memKey b) 1 := by simp [State.peek, e]
    rw [this, nth_getBytes _ _ (by decide)]
    exact h.bytes _
  | some p =>
    have on : (stackOf b).isSome = true := by simp [e]
    rw [State.peek_line on (by decide) (by omega), nth_slice _ _ (by decide), memKey_sector on]
    have := ((h.homeView (stackOf_line on).1).2 (b % 64 / 32) (by omega) (half_true _)).1 (b % 32) (by omega)
    rwa [show 32 * (sectorAt (b / 64 * 64) + b % 64 / 32) + b % 32 = 32 * sectorAt (b / 64 * 64) + b % 64 by omega,
      show 32 * (b % 64 / 32) + b % 32 = b % 64 + 0 by omega] at this

end

end State.Homes

end Sys2Proof.Machine
end

section
/-! PROOFS. Caches: what a quad's cache, its L1s and its writes on their way hold stays within what memory's contents may be, and so
does what its cores read, whatever they read and write within them. -/

set_option Elab.async false

namespace Sys2Proof.Machine

variable {C : Content} {quad : Nat}

/-! ### What a quad holds -/

def QuadLine.Held (C : Content) (l : QuadLine) : Prop :=
  (l.dirty = true → OnStack l.addr) ∧ (OnStack l.addr → l.Fits C (sectorAt l.addr) l.valid)

def L1Line.Held (C : Content) (l : L1Line) : Prop := OnStack l.addr → l.Fits C (sectorAt l.addr) l.valid

/-- A write of bytes of one line of a stack. -/
def PutsAt (C : Content) (pa : Nat) (bs : List Byte) (bad : Bool) : Prop :=
  (stackOf pa).isSome = true ∧ Puts C (sectorAt (pa / 64 * 64)) (pa % 64) bs bad

theorem PutsAt.cut {pa : Nat} {bs : List Byte} {bad : Bool} (put : PutsAt C pa bs bad) {c : Nat × List Byte}
    (hc : c ∈ sectorCuts (pa % 64) bs) : PutsAt C (pa / 64 * 64 + c.1) c.2 bad := by
  have p := put.2.cut hc
  obtain ⟨pos, -⟩ := mem_sectorCuts put.2.inLine hc
  have inLine := p.inLine
  have line : (pa / 64 * 64 + c.1) / 64 * 64 = pa / 64 * 64 := by omega
  have off : (pa / 64 * 64 + c.1) % 64 = c.1 := by omega
  refine ⟨stackOf_of_line ?_, ?_⟩
  · rw [line]
    exact (stackOf_line put.1).1.2
  · rwa [line, off]

/-- What a quad holds of every line is within C, and no update is held back for it. -/
structure State.Quads (s : State) (C : Content) (quad : Nat) : Prop where
  lines : ∀ l ∈ s.caches.quadLines, l.quad = quad → l.Held C
  l1 : ∀ l ∈ s.caches.l1, quadOfCore l.core = quad → l.Held C
  writes : ∀ w ∈ s.caches.writeThroughs, quadOfCore w.core = quad → PutsAt C w.addr w.data false
  updates : ∀ d ∈ s.caches.deferred, d.quad ≠ quad

theorem State.Quads.above {s t : State} (h : s.Quads C quad) (a : s.Above t) : t.Quads C quad := by
  obtain ⟨lines, l1, writes, deferred⟩ := a
  exact ⟨lines ▸ h.lines, l1 ▸ h.l1, writes ▸ h.writes, deferred ▸ h.updates⟩

/-- What memory and a quad hold is within C. -/
structure State.Within (s : State) (C : Content) (quad : Nat) : Prop where
  homes : s.Homes C
  quads : s.Quads C quad

/-- Updates that no test takes stay held back. -/
theorem State.flushDeferred_none {s : State} {p : Deferred → Bool} (h : ∀ d ∈ s.caches.deferred, p d = false) : s.flushDeferred p = s := by
  have : s.caches.deferred.filter p = [] := List.filter_eq_nil_iff.2 fun d hd => by simp [h d hd]
  rw [State.flushDeferred, this]
  rfl

/-- Room made for a line in a quad cache. -/
def State.quadRoom (s : State) (quad line : Nat) : State :=
  match s.quadLine? quad line, s.quadVictim quad line with
  | none, some v => s.quadDrop quad v.addr
  | _, _ => s

/-- What the quad cache has of a line, or nothing. -/
def State.quadAt (s : State) (quad line : Nat) : QuadLine :=
  (s.quadLine? quad line).getD { quad := quad, addr := line, valid := (false, false) }

/-- A line of a quad cache with sectors that it had not. -/
def QuadLine.filled (l : QuadLine) (d : LineData) (get : Bool × Bool) (priv keep : Bool) : QuadLine :=
  { l with toLineData := l.toLineData.over d get, valid := orPair l.valid get, isPrivate := priv, kept := l.kept || keep }

theorem QuadLine.Held.filled {l : QuadLine} (hl : l.Held C) (on : OnStack l.addr) {d : LineData} {want : Bool × Bool}
    (f : d.Fits C (sectorAt l.addr) (lessPair want l.valid)) (priv keep : Bool) : (l.filled d (lessPair want l.valid) priv keep).Held C := by
  refine ⟨fun _ => on, fun _ => (hl.2 on).sectors f fun i _ hi => ?_⟩
  simp only [QuadLine.filled, half_orPair, half_lessPair] at hi ⊢
  revert hi
  cases half l.valid i <;> simp

/-- A line put in front of the quad cache's lines. -/
def State.quadFront (s : State) (quad line : Nat) (l : QuadLine) : State :=
  s.onCaches fun c => { c with quadLines := l :: c.quadLines.filter fun x => !x.at quad line }

/-- The sectors of a line that a home is asked for. -/
def State.askHome (s : State) (line : Nat) (get : Bool × Bool) (p : Policy) : State × LineData :=
  if anyPair get then s.homeLine line get p else (s, {})

theorem State.quadFill_eq (s : State) (quad line : Nat) (want : Bool × Bool) (priv : Bool) (p : Policy) :
    s.quadFill quad line want priv p =
      let r := (s.drainQuad quad).quadRoom quad line
      let l := r.quadAt quad line
      let got := r.askHome line (lessPair want l.valid) p.below
      got.1.quadFront quad line (l.filled got.2 (lessPair want l.valid) priv (p == .keep)) := by
  unfold State.quadFill State.quadRoom State.quadAt State.askHome
  rfl

theorem State.quadAt_at (s : State) (quad line : Nat) : (s.quadAt quad line).quad = quad ∧ (s.quadAt quad line).addr = line := by
  unfold State.quadAt
  cases e : s.quadLine? quad line with
  | none => exact ⟨rfl, rfl⟩
  | some l => simpa [QuadLine.at] using List.find?_some e

theorem State.quadFront_line (s : State) {quad line : Nat} {l : QuadLine} (hq : l.quad = quad) (ha : l.addr = line) :
    (s.quadFront quad line l).quadLine? quad line = some l := by
  simp [State.quadFront, State.quadLine?, QuadLine.at, hq, ha]

/-- A fill leaves the sectors wanted valid. -/
theorem State.quadFill_line (s : State) (quad line : Nat) (want : Bool × Bool) (priv : Bool) (p : Policy) :
    ∃ l, (s.quadFill quad line want priv p).quadLine? quad line = some l ∧ ∀ i < 2, half want i = true → half l.valid i = true := by
  obtain ⟨hq, ha⟩ := ((s.drainQuad quad).quadRoom quad line).quadAt_at quad line
  rw [State.quadFill_eq]
  refine ⟨_, State.quadFront_line _ hq ha, fun i _ hi => ?_⟩
  simp only [QuadLine.filled, half_orPair, half_lessPair, hi]
  cases half (((s.drainQuad quad).quadRoom quad line).quadAt quad line).valid i <;> rfl

namespace State.Within

section
variable {s : State}

theorem foldl {α : Type} {f : State → α → State} {l : List α} (h : s.Within C quad) (hf : ∀ s, s.Within C quad → ∀ a ∈ l, (f s a).Within C quad) :
    (l.foldl f s).Within C quad :=
  List.foldlRecOn (motive := fun s : State => s.Within C quad) _ _ h fun _ hb a ha => hf _ hb a ha

/-! ### The homes below -/

theorem homeLine (h : s.Within C quad) {line : Nat} (on : OnStack line) (want : Bool × Bool) (p : Policy) :
    (s.homeLine line want p).1.Within C quad ∧ (s.homeLine line want p).2.Fits C (sectorAt line) want :=
  ⟨⟨(h.homes.homeLine on want p).1, h.quads.above (State.Above.refl s).homeLine⟩, (h.homes.homeLine on want p).2⟩

theorem readHome (h : s.Within C quad) {pa : Nat} (on : (stackOf pa).isSome = true) (n : Nat) (p : Policy) :
    (s.readHome pa n p).1.Within C quad ∧ ∃ d : LineData, d.Fits C (sectorAt (pa / 64 * 64)) (touched (pa % 64) n) ∧
      (s.readHome pa n p).2 = (d.slice (pa % 64) n, d.poisonAt (pa % 64) n) :=
  have := h.homeLine (stackOf_line on).1 (touched (pa % 64) n) p
  ⟨this.1, _, this.2, rfl⟩

theorem homePut (h : s.Within C quad) {pa : Nat} {bs : List Byte} {bad : Bool} (put : PutsAt C pa bs bad) (p : Policy) :
    (s.homePut pa bs bad p).Within C quad :=
  ⟨h.homes.homePut put.1 put.2 p, h.quads.above (State.Above.refl s).homePut⟩

/-! ### Writes on their way (R109, R110) -/

theorem drainQuad (h : s.Within C quad) : (s.drainQuad quad).Within C quad := by
  have out : (s.onCaches fun c => { c with writeThroughs := c.writeThroughs.filter fun w => !(quadOfCore w.core == quad) }).Within C quad :=
    ⟨{ h.homes with }, { h.quads with writes := fun w hw => h.quads.writes w (List.mem_of_mem_filter hw) }⟩
  exact out.foldl fun s hs w hw => hs.homePut (h.quads.writes w (List.mem_of_mem_filter hw) (by simpa using (List.mem_filter.1 hw).2)) _

theorem sendWt (h : s.Within C quad) (core : Nat) {pa : Nat} {bs : List Byte} (put : PutsAt C pa bs false) (p : Policy) :
    (s.sendWt core pa bs p).Within C quad := by
  unfold State.sendWt
  split
  · exact ⟨{ h.homes with }, { h.quads with writes := List.forall_mem_append.2 ⟨h.quads.writes, by simpa using fun _ => put⟩ }⟩
  · exact h

/-! ### The L1s (R107) -/

theorem l1Drop (h : s.Within C quad) (quad' line : Nat) (except : Option Nat) : (s.l1Drop quad' line except).Within C quad :=
  ⟨{ h.homes with }, { h.quads with l1 := fun l hl => h.quads.l1 l (List.mem_of_mem_filter hl) }⟩

theorem l1Put (h : s.Within C quad) {x : L1Line} (hx : x.Held C) : (s.l1Put x).Within C quad := by
  have kept : ∀ {ls : List L1Line}, (∀ l ∈ ls, l ∈ s.caches.l1) →
      (s.onCaches fun c => { c with l1 := x :: ls }).Within C quad := fun {ls} hls =>
    ⟨{ h.homes with }, { h.quads with l1 := List.forall_mem_cons.2 ⟨fun _ => hx, fun l hl => h.quads.l1 l (hls l hl)⟩ }⟩
  unfold State.l1Put
  dsimp only
  split
  · exact kept fun l hl => List.mem_of_mem_filter (List.mem_of_mem_filter hl)
  · exact kept fun l hl => List.mem_of_mem_filter hl

theorem l1Write (h : s.Within C quad) {core line off : Nat} {bs : List Byte} (p : Puts C (sectorAt line) off bs false) :
    (s.l1Write core line off bs).Within C quad := by
  refine ⟨{ h.homes with }, { h.quads with l1 := fun l hl hq => ?_ }⟩
  obtain ⟨y, hy, rfl⟩ := List.mem_map.1 hl
  by_cases e : y.at core line = true
  · rw [if_pos e] at hq ⊢
    have addr : y.addr = line := by
      rw [L1Line.at, Bool.and_eq_true] at e
      simpa using e.2
    exact fun on => (h.quads.l1 y hy hq on).put (addr.symm ▸ p) fun _ _ => .inl
  · rw [if_neg e] at hq ⊢
    exact h.quads.l1 y hy hq

/-! ### The quad cache (R107 to R113, R118) -/

/-- What the quad cache finds. -/
theorem quadLine (h : s.Within C quad) {line : Nat} {l : QuadLine} (e : s.quadLine? quad line = some l) :
    l.Held C ∧ l.quad = quad ∧ l.addr = line := by
  have at_ : l.quad = quad ∧ l.addr = line := by simpa [QuadLine.at] using List.find?_some e
  exact ⟨h.quads.lines l (List.mem_of_find?_eq_some e) at_.1, at_⟩

theorem l1Line (h : s.Within C quad) {core line : Nat} (hc : quadOfCore core = quad) {l : L1Line} (e : s.l1Line? core line = some l) :
    l.Held C ∧ l.core = core ∧ l.addr = line := by
  have at_ : l.core = core ∧ l.addr = line := by simpa [L1Line.at] using List.find?_some e
  exact ⟨h.quads.l1 l (List.mem_of_find?_eq_some e) (at_.1 ▸ hc), at_⟩

/-- The lines of the quad caches changed, with those of this quad still within C. -/
theorem setLines (h : s.Within C quad) {f : List QuadLine → List QuadLine}
    (hf : ∀ l ∈ f s.caches.quadLines, l.quad = quad → l.Held C) :
    (s.onCaches fun c => { c with quadLines := f c.quadLines }).Within C quad :=
  ⟨{ h.homes with }, { h.quads with lines := hf }⟩

theorem cleaned (h : s.Within C quad) (p : QuadLine → Bool) {f : QuadLine → QuadLine} (hq : ∀ l, (f l).quad = l.quad)
    (hf : ∀ l, l.Held C → (f l).Held C) : ∀ l ∈ updateWhere p f s.caches.quadLines, l.quad = quad → l.Held C := by
  intro l hl e
  obtain ⟨y, hy, rfl⟩ := List.mem_map.1 hl
  split at e <;> rename_i hp
  · rw [if_pos hp]
    exact hf y (h.quads.lines y hy ((hq y).symm.trans e))
  · rw [if_neg hp]
    exact h.quads.lines y hy e

theorem quadWriteBack (h : s.Within C quad) {l : QuadLine} (hl : l.Held C) : (s.quadWriteBack l).Within C quad := by
  unfold State.quadWriteBack
  split
  · next hd =>
    have on := hl.1 hd
    have fits := hl.2 on
    have one : ∀ {s : State} {i : Nat}, s.Within C quad → i < 2 → half l.valid i = true →
        (s.homePut (l.addr + 32 * i) (l.slice (32 * i) 32) (l.poisonAt (32 * i) 32) .normal).Within C quad := fun {s i} h hi hv => by
      have line : (l.addr + 32 * i) / 64 * 64 = l.addr := by have := on.1; omega
      have off : (l.addr + 32 * i) % 64 = 32 * i := by have := on.1; omega
      have stack : (stackOf (l.addr + 32 * i)).isSome = true := stackOf_of_line (by rw [line]; exact on.2)
      refine h.homePut ⟨stack, ?_⟩ _
      rw [line, off]
      exact (fits.2 i hi hv).puts fits.1 hi
    have first : (if l.valid.1 then s.homePut (l.addr + 32 * 0) (l.slice (32 * 0) 32) (l.poisonAt (32 * 0) 32) .normal else s).Within C quad := by
      split
      · next hv => exact one h (by decide) hv
      · exact h
    dsimp only
    have second : ∀ {s : State}, s.Within C quad → (if l.valid.2 then
        s.homePut (l.addr + 32 * 1) (l.slice (32 * 1) 32) (l.poisonAt (32 * 1) 32) .normal else s).Within C quad := fun {s} h => by
      split
      · next hv => exact one h (by decide) hv
      · exact h
    exact (second first).setLines ((second first).cleaned _ (fun _ => rfl) fun l hl => ⟨fun hd => absurd hd Bool.false_ne_true, hl.2⟩)
  · exact h

theorem quadOut (h : s.Within C quad) (line : Nat) : (s.quadOut quad line).Within C quad := by
  unfold State.quadOut
  split
  · exact h.l1Drop _ _ _
  · next l e =>
    have back := h.quadWriteBack (h.quadLine e).1
    refine (back.setLines (f := fun ls => if l.pin.isSome then
        updateWhere (·.at quad line) (fun x => { x with valid := (false, false), dirty := false }) ls
      else ls.filter (fun x => !x.at quad line)) fun x hx hq => ?_).l1Drop _ _ _
    revert hx
    show x ∈ (if l.pin.isSome then _ else _ : List QuadLine) → _
    split
    · exact fun hx => back.cleaned _ (f := fun x => { x with valid := (false, false), dirty := false }) (fun _ => rfl)
        (fun l hl => ⟨fun hd => absurd hd Bool.false_ne_true, fun on => (hl.2 on).mono fun i _ hi => absurd hi (by simp)⟩) x hx hq
    · exact fun hx => back.quads.lines x (List.mem_of_mem_filter hx) hq

theorem noUpdates (h : s.Within C quad) {p : Deferred → Bool} (hp : ∀ d, p d = true → d.quad = quad) : s.flushDeferred p = s :=
  State.flushDeferred_none fun d hd => Bool.eq_false_iff.2 fun e => h.quads.updates d hd (hp d e)

theorem quadDrop (h : s.Within C quad) (line : Nat) : (s.quadDrop quad line).Within C quad := by
  unfold State.quadDrop
  rw [h.noUpdates fun d hd => by simp_all]
  exact h.quadOut line

theorem quadAt (h : s.Within C quad) (line : Nat) : (s.quadAt quad line).Held C ∧ (s.quadAt quad line).addr = line := by
  unfold State.quadAt
  cases e : s.quadLine? quad line with
  | none => exact ⟨⟨fun hd => absurd hd Bool.false_ne_true, fun _ => LineData.fits_none rfl⟩, rfl⟩
  | some l => exact ⟨(h.quadLine e).1, (h.quadLine e).2.2⟩

theorem quadFront (h : s.Within C quad) {l : QuadLine} (hl : l.Held C) (quad' line : Nat) : (s.quadFront quad' line l).Within C quad :=
  h.setLines (f := fun ls => l :: ls.filter fun x => !x.at quad' line)
    (List.forall_mem_cons.2 ⟨fun _ => hl, fun x hx => h.quads.lines x (List.mem_of_mem_filter hx)⟩)

theorem quadUse (h : s.Within C quad) {l : QuadLine} (hl : l.Held C) (keep : Bool) : (s.quadUse l keep).Within C quad :=
  h.quadFront (l := { l with kept := l.kept || keep }) hl _ _

theorem quadRoom (h : s.Within C quad) (line : Nat) : (s.quadRoom quad line).Within C quad := by
  unfold State.quadRoom
  split
  · exact h.quadDrop _
  · exact h

theorem askHome (h : s.Within C quad) {line : Nat} (on : OnStack line) (get : Bool × Bool) (p : Policy) :
    (s.askHome line get p).1.Within C quad ∧ (s.askHome line get p).2.Fits C (sectorAt line) get := by
  unfold State.askHome
  split
  · exact h.homeLine on get p
  · next e =>
    obtain rfl : get = (false, false) := by simpa [anyPair, Prod.ext_iff] using e
    exact ⟨h, LineData.fits_none rfl⟩

theorem quadFill (h : s.Within C quad) {line : Nat} (on : OnStack line) (want : Bool × Bool) (priv : Bool) (p : Policy) :
    (s.quadFill quad line want priv p).Within C quad := by
  have made := h.drainQuad.quadRoom line
  obtain ⟨held, addr⟩ := made.quadAt line
  rw [State.quadFill_eq]
  dsimp only
  obtain ⟨hr, fr⟩ := made.askHome on (lessPair want (((s.drainQuad quad).quadRoom quad line).quadAt quad line).valid) p.below
  exact hr.quadFront (held.filled (addr.symm ▸ on) (addr.symm ▸ fr) _ _) _ _

/-- What is got of a line has the sectors wanted. -/
theorem quadHit (h : s.Within C quad) {line : Nat} {want : Bool × Bool} {l : QuadLine} (e : s.quadHit quad line want = some l) :
    l.Held C ∧ l.quad = quad ∧ l.addr = line ∧ ∀ i < 2, half want i = true → half l.valid i = true := by
  obtain ⟨e, hv⟩ := Option.filter_eq_some_iff.1 e
  obtain ⟨held, hq, ha⟩ := h.quadLine e
  refine ⟨held, hq, ha, fun i hi hw => ?_⟩
  have := pair_none.1 (by simpa using hv) i hi
  rwa [half_lessPair, hw, Bool.true_and, Bool.not_eq_false'] at this

theorem quadGet (h : s.Within C quad) {line : Nat} (on : OnStack line) (want : Bool × Bool) (priv : Bool) (p : Policy) :
    (s.quadGet quad line want priv p).1.Within C quad ∧ ∀ l, (s.quadGet quad line want priv p).2 = some l →
      l.Held C ∧ l.quad = quad ∧ l.addr = line ∧ ∀ i < 2, half want i = true → half l.valid i = true := by
  unfold State.quadGet
  split
  · next l e => exact ⟨h, fun x hx => Option.some.inj hx ▸ h.quadHit e⟩
  · exact ⟨h.quadFill on _ _ _, fun x hx => (h.quadFill on _ _ _).quadHit hx⟩

/-! ### Reads of a core (R113) -/

theorem l1Filled (h : s.Within C quad) {core : Nat} (hc : quadOfCore core = quad) {q : QuadLine} (hq : q.Held C) :
    (s.l1Filled core q).Held C ∧ (s.l1Filled core q).addr = q.addr ∧ ∀ i, half q.valid i = true → half (s.l1Filled core q).valid i = true := by
  unfold State.l1Filled
  split
  · next l e =>
    obtain ⟨held, -, addr⟩ := h.l1Line hc e
    refine ⟨fun on => (held on).sectors (w := q.valid) ?_ fun i _ hi => ?_, addr, fun i hi => by simp [hi]⟩
    · exact addr.symm ▸ hq.2 (addr ▸ on)
    · simp only [half_orPair, half_lessPair] at hi ⊢
      revert hi
      cases half l.valid i <;> simp
  · exact ⟨fun on => hq.2 on, rfl, fun _ => id⟩

/-- Sectors wanted, of a read that allocates nowhere. -/
theorem readThrough (h : s.Within C quad) {core line : Nat} (hc : quadOfCore core = quad) (on : OnStack line) (want : Bool × Bool) :
    (s.readThrough (some core) quad line want).1.Within C quad ∧
      (s.readThrough (some core) quad line want).2.Fits C (sectorAt line) want := by
  have home : ∀ miss, (if anyPair miss then (s.drainQuad quad).homeLine line miss .noAlloc else (s, {})).1.Within C quad ∧
      (if anyPair miss then (s.drainQuad quad).homeLine line miss .noAlloc else (s, {})).2.Fits C (sectorAt line) miss := fun miss => by
    split
    · exact h.drainQuad.homeLine on _ _
    · next e =>
      obtain rfl : miss = (false, false) := by simpa [anyPair, Prod.ext_iff] using e
      exact ⟨h, LineData.fits_none rfl⟩
  have ofL1 : ∀ {l : L1Line} {d : LineData}, s.l1Line? core line = some l → d.Fits C (sectorAt line) (lessPair want l.valid) →
      (d.over l.toLineData l.valid).Fits C (sectorAt line) want := fun {l d} e f => by
    obtain ⟨held, -, addr⟩ := h.l1Line hc e
    exact f.sectors (addr ▸ held (addr.symm ▸ on)) fun i _ hi => by split <;> simp_all
  have ofQuad : ∀ {l : QuadLine} {d : LineData} {w : Bool × Bool}, s.quadLine? quad line = some l →
      d.Fits C (sectorAt line) (lessPair w l.valid) → (d.over l.toLineData l.valid).Fits C (sectorAt line) w := fun {l d w} e f => by
    obtain ⟨held, -, addr⟩ := h.quadLine e
    exact f.sectors (addr ▸ held.2 (addr.symm ▸ on)) fun i _ hi => by split <;> simp_all
  have used : ∀ {r : State} {l : QuadLine} {b : Bool}, r.Within C quad → s.quadLine? quad line = some l →
      (if b then r.quadUse l false else r).Within C quad := fun {r l b} hr e => by
    split
    · exact hr.quadUse (h.quadLine e).1 _
    · exact hr
  have less : ∀ p, lessPair p (false, false) = p := fun p => by simp [lessPair]
  unfold State.readThrough
  simp only [Option.bind_some]
  cases e1 : s.l1Line? core line with
  | none =>
    cases e2 : s.quadLine? quad line with
    | none => exact ⟨(home _).1, by simpa [less] using (home (lessPair (lessPair want (false, false)) (false, false))).2⟩
    | some q => exact ⟨used (home _).1 e2, ofQuad e2 (by simpa [less] using (home (lessPair (lessPair want (false, false)) q.valid)).2)⟩
  | some l =>
    cases e2 : s.quadLine? quad line with
    | none => exact ⟨(home _).1, ofL1 e1 (by simpa [less] using (home (lessPair (lessPair want l.valid) (false, false))).2)⟩
    | some q => exact ⟨used (home _).1 e2, ofL1 e1 (ofQuad e2 (home _).2)⟩

/-- A read of a core gives bytes of a line within C. -/
theorem quadRead (h : s.Within C quad) {core : Nat} (hc : quadOfCore core = quad) {pa : Nat} (on : (stackOf pa).isSome = true) (n : Nat)
    (priv : Bool) (p : Policy) : (s.quadRead core pa n priv p).1.Within C quad ∧
      ∃ d : LineData, d.Fits C (sectorAt (pa / 64 * 64)) (touched (pa % 64) n) ∧
        (s.quadRead core pa n priv p).2 = (d.slice (pa % 64) n, d.poisonAt (pa % 64) n) := by
  have line := (stackOf_line on).1
  unfold State.quadRead
  rw [hc]
  dsimp only
  split
  · exact (h.drainQuad.quadDrop _).readHome on n _
  · exact (h.drainQuad.quadDrop _).readHome on n _
  · obtain ⟨hr, fr⟩ := h.readThrough hc line (touched (pa % 64) n)
    exact ⟨hr, _, fr, rfl⟩
  · split
    · next l e =>
      have hit : s.l1Hit core (pa / 64 * 64) (touched (pa % 64) n) = some l := by
        split at e
        · cases e
        · exact e
      obtain ⟨found, hv⟩ := Option.filter_eq_some_iff.1 hit
      obtain ⟨held, -, addr⟩ := h.l1Line hc found
      refine ⟨h.l1Put held, l.toLineData, (addr ▸ held (addr.symm ▸ line)).mono fun i hi hw => ?_, rfl⟩
      have := pair_none.1 (by simpa using hv) i hi
      rwa [half_lessPair, hw, Bool.true_and, Bool.not_eq_false'] at this
    · obtain ⟨hg, got⟩ := h.quadGet line (touched (pa % 64) n) priv p
      split
      · next r q e =>
        rw [e] at hg got
        obtain ⟨held, -, addr, valid⟩ := got q rfl
        obtain ⟨filled, fa, fv⟩ := hg.l1Filled hc held
        have fits := filled (by rw [fa, addr]; exact line)
        rw [fa, addr] at fits
        exact ⟨(hg.quadUse held _).l1Put filled, _, fits.mono fun i hi hw => fv i (valid i hi hw), rfl⟩
      · next r e =>
        rw [e] at hg
        exact hg.readHome on n p

theorem applyFor (h : s.Within C quad) {core : Nat} (hc : quadOfCore core = quad) (pa : Nat) : s.applyFor core pa = s :=
  h.noUpdates fun d hd => by simp_all

/-! ### Writes of a core (R107, R109, R110, R113) -/

theorem quadWrite (h : s.Within C quad) {core : Nat} (hc : quadOfCore core = quad) {pa : Nat} {bs : List Byte} (put : PutsAt C pa bs false)
    (priv : Bool) (p : Policy) : (s.quadWrite core pa bs priv p).Within C quad := by
  have line := (stackOf_line put.1).1
  have own : ((s.l1Drop quad (pa / 64 * 64) (some core)).l1Write core (pa / 64 * 64) (pa % 64) bs).Within C quad :=
    (h.l1Drop _ _ _).l1Write put.2
  unfold State.quadWrite
  rw [hc]
  dsimp only
  generalize (s.l1Drop quad (pa / 64 * 64) (some core)).l1Write core (pa / 64 * 64) (pa % 64) bs = r at own ⊢
  split
  · exact (own.quadDrop _).sendWt _ put _
  · exact (own.quadDrop _).sendWt _ put _
  · split
    · exact own.sendWt _ put _
    · next l e =>
      obtain ⟨held, -, addr⟩ := own.quadLine e
      have used : (if (sectorCuts (pa % 64) bs).any fun c => anyPair (andPair (onlyPair (c.1 / 32)) l.valid) then
          r.quadUse { l with
            toLineData := ((sectorCuts (pa % 64) bs).filter fun c => anyPair (andPair (onlyPair (c.1 / 32)) l.valid)).foldl
              (fun (d : LineData) c => d.put c.1 c.2 false) l.toLineData
            dirty := l.dirty || priv } false else r).Within C quad := by
        split
        · exact own.quadUse (l := { l with
            toLineData := ((sectorCuts (pa % 64) bs).filter fun c => anyPair (andPair (onlyPair (c.1 / 32)) l.valid)).foldl
              (fun (d : LineData) c => d.put c.1 c.2 false) l.toLineData
            dirty := l.dirty || priv })
            ⟨fun _ => addr.symm ▸ line, fun on => (held.2 on).cuts (addr.symm ▸ put.2) fun c hc => List.mem_of_mem_filter hc⟩ _
        · exact own
      split
      · refine used.foldl fun r hr c hc => hr.sendWt _ ?_ _
        exact put.cut (List.mem_of_mem_filter hc)
      · exact used.sendWt _ put _
  · have fetched : (if (r.quadHit quad (pa / 64 * 64) (touched (pa % 64) bs.length)).isSome then r else
        r.quadFill quad (pa / 64 * 64) (lessPair (touched (pa % 64) bs.length) (covered (pa % 64) bs.length)) priv p).Within C quad ∧
        ∀ l, (if (r.quadHit quad (pa / 64 * 64) (touched (pa % 64) bs.length)).isSome then r else
          r.quadFill quad (pa / 64 * 64) (lessPair (touched (pa % 64) bs.length) (covered (pa % 64) bs.length)) priv p).quadLine?
            quad (pa / 64 * 64) = some l → ∀ i < 2, half (touched (pa % 64) bs.length) i = true →
              half l.valid i = true ∨ half (covered (pa % 64) bs.length) i = true := by
      split
      · next hit =>
        obtain ⟨x, hx⟩ := Option.isSome_iff_exists.1 hit
        refine ⟨own, fun l e i hi hw => .inl ?_⟩
        obtain rfl : x = l := Option.some.inj ((Option.filter_eq_some_iff.1 hx).1.symm.trans e)
        exact (own.quadHit hx).2.2.2 i hi hw
      · refine ⟨own.quadFill line _ _ _, fun l e i hi hw => ?_⟩
        obtain ⟨x, hx, hv⟩ := r.quadFill_line quad (pa / 64 * 64) (lessPair (touched (pa % 64) bs.length) (covered (pa % 64) bs.length)) priv p
        obtain rfl : x = l := Option.some.inj (hx.symm.trans e)
        have := hv i hi
        rw [half_lessPair, hw] at this
        cases hc : half (covered (pa % 64) bs.length) i <;> simp_all
    obtain ⟨hr, valid⟩ := fetched
    split
    · next l e =>
      obtain ⟨held, -, addr⟩ := hr.quadLine e
      have used := hr.quadUse (l := { l with
        toLineData := l.put (pa % 64) bs false
        valid := orPair l.valid (touched (pa % 64) bs.length)
        dirty := l.dirty || priv }) ⟨fun _ => addr.symm ▸ line, fun on => (held.2 on).put (addr.symm ▸ put.2) fun i hi hw => by
          rcases Bool.or_eq_true _ _ ▸ half_orPair l.valid _ i ▸ hw with hv | ht
          · exact .inl hv
          · exact valid l e i hi ht⟩
      split
      · exact used _
      · exact (used _).sendWt _ put _
    · exact hr.sendWt _ put _

end

end State.Within

end Sys2Proof.Machine
end

section
/-! PROOFS. Caches: loads. A quad at rest holds what memory holds, so that its cores read the bytes of their homes, and reading leaves
those as they are. -/

set_option Elab.async false

namespace Sys2Proof.Machine

variable {C : Content} {quad : Nat} {s : State}

/-! ### A quad at rest -/

/-- The contents that memory has. -/
def State.content (s : State) : Content where
  byte k v := v = s.mem.get k
  bad t b := b = s.signed.contains t
  spoilt p := p = s.poison

theorem State.content_exact (s : State) : s.content.Exact := ⟨fun h h' => h.trans h'.symm, fun h h' => h.trans h'.symm, fun h h' => h.trans h'.symm⟩

/-- Contents that those of memory are within. -/
structure State.Allowed (s : State) (C : Content) : Prop where
  bytes : ∀ k, C.byte k (s.mem.get k)
  marks : ∀ t, C.bad t (s.signed.contains t)
  spoilt : C.spoilt s.poison

theorem State.content_allowed (s : State) : s.Allowed s.content := ⟨fun _ => rfl, fun _ => rfl, rfl⟩

/-- The caches at rest hold what memory holds. -/
theorem State.Coherent.within (h : s.Coherent quad) (a : s.Allowed C) : s.Within C quad := by
  have bare : (s.onCaches fun _ => {}).Homes C :=
    { ok := h.canon, bytes := a.bytes, marks := a.marks, spoilt := a.spoilt, sound := h.sound
      die := fun _ hl => absurd hl List.not_mem_nil
      msc := fun _ hl => absurd hl List.not_mem_nil
      mscQueue := fun _ hl => absurd hl List.not_mem_nil
      bankQueue := fun _ hl => absurd hl List.not_mem_nil }
  have agrees : ∀ {l : LineData} {addr : Nat} {valid : Bool × Bool}, l.Agrees (s.dramLine addr) valid → OnStack addr →
      l.Fits C (sectorAt addr) valid := fun {l addr valid} ⟨len, e⟩ on => by
    have := (LineData.fits_none (C := C) (t := sectorAt addr) len).sectors (p := valid) (bare.dramLine on (true, true)) (u := valid)
      fun i _ hi => by rw [if_pos hi]; exact half_true i
    rwa [show l.over ((s.onCaches fun _ => {}).dramLine addr) valid = l from e] at this
  obtain ⟨mq, bq⟩ := h.queues
  refine ⟨{ ok := h.canon, bytes := a.bytes, marks := a.marks, spoilt := a.spoilt, sound := h.sound
            die := fun l hl => ?_, msc := fun l hl => ?_, mscQueue := by simp [mq], bankQueue := by simp [bq] },
          { lines := fun l hl hq => ?_, l1 := fun l hl hq on => agrees (h.l1 l hl hq).1 on
            writes := fun w hw hq => absurd hq (h.writes w hw), updates := h.updates }⟩
  · obtain ⟨dirty, ag⟩ := h.die l hl
    exact ⟨fun hd => absurd hd (by simp [dirty]), agrees ag⟩
  · obtain ⟨dirty, ag⟩ := h.msc l hl
    exact ⟨fun hd => absurd hd (by simp [dirty, anyPair]), fun on => (agrees ag on).mono fun i _ hi => by simpa [dirty] using hi⟩
  · obtain ⟨dirty, ag⟩ := h.lines l hl hq
    exact ⟨fun hd => absurd hd (by simp [dirty]), agrees ag⟩

/-! ### What stands beside the caches -/

theorem State.Within.standUp (h : s.Within C quad) : s.standUp.Within C quad := ⟨{ h.homes with }, { h.quads with }⟩

theorem State.Within.pulled (h : s.Within C quad) (p : Party) (as : List LaneAddr) : (s.pulled p as).Within C quad := by
  refine h.foldl fun s h a _ => ?_
  unfold State.tlbPull
  split
  · exact h
  · split
    · exact ⟨{ h.homes with }, { h.quads with }⟩
    · exact h

theorem State.Within.retireMem (h : s.Within C quad) {i u p d rs held} : (s.retireMem i u p d rs held).Within C quad :=
  ⟨{ h.homes with }, { h.quads with }⟩

theorem State.Within.acquireAt (h : s.Within C quad) (e : Env) (sc : Scope) : (s.acquireAt e sc).Within C quad := by
  unfold State.acquireAt State.flashInvalidate
  split
  · refine ⟨{ h.homes with }, { h.quads with
      lines := fun l hl hq => ?_
      l1 := fun l hl => h.quads.l1 l (List.mem_of_mem_filter hl) }⟩
    obtain ⟨hl, -⟩ := List.mem_filter.1 hl
    exact h.cleaned (f := fun l => { l with valid := (false, false) }) _ (fun _ => rfl)
      (fun l held => ⟨held.1, fun on => (held.2 on).mono fun i _ hi => absurd hi (by simp)⟩) l hl hq
  · exact h

/-! ### Reads -/

/-- A scratchpad's addresses name their bytes. -/
theorem memKey_scratch {pa : Nat} (h : scratchBase ≤ pa) : stackOf pa = none ∧ memKey pa = pa := by
  have h1 : (homedBase ≤ pa && decide (pa < homedBase + 2 ^ 40)) = false := by
    rw [Bool.and_eq_false_iff, decide_eq_false_iff_not (p := pa < _)]
    unfold scratchBase homedBase at *
    omega
  have h2 : (stripedBase ≤ pa && decide (pa < stripedBase + 2 ^ 40)) = false := by
    rw [Bool.and_eq_false_iff, decide_eq_false_iff_not (p := pa < _)]
    unfold scratchBase stripedBase at *
    omega
  unfold stackOf memKey placeOf
  rw [h1, h2]
  by_cases h3 : (scratchBase ≤ pa && decide (pa < scratchBase + 2 ^ 29)) = true
  · rw [if_neg Bool.false_ne_true, if_neg Bool.false_ne_true, if_pos h3]
    exact ⟨rfl, rfl⟩
  · rw [if_neg Bool.false_ne_true, if_neg Bool.false_ne_true, if_neg h3]
    by_cases h4 : (remoteBase ≤ pa && decide (pa < 2 ^ 52)) = true
    · rw [if_pos h4]
      exact ⟨rfl, rfl⟩
    · rw [if_neg h4]
      exact ⟨rfl, rfl⟩

/-- Where an address lies that translates in this part: in a stack, or in a scratchpad. -/
def Mapping.Placed (m : Mapping) : Prop :=
  match m.home with
  | .stack _ => (stackOf m.pa).isSome = true
  | .core _ => scratchBase ≤ m.pa
  | .part _ => False

/-- Words without an error are met without effect (R151). -/
theorem State.meetWords_none (h : s.latentWords = []) (core : Nat) (ws : List Nat) : s.meetWords core ws = s := by
  have : ws.filter s.latentWords.contains = [] := List.filter_eq_nil_iff.2 fun w _ => by simp [h]
  rw [State.meetWords, this]
  rfl

/-- A read of bytes of one line gives what the home held when the quad was at rest. -/
theorem State.Within.coreRead {t : State} (h : t.Within s.content quad) (h0 : s.Homes s.content) {core n : Nat} {m : Mapping} (cp : Nat)
    (hc : quadOfCore core = quad) (placed : m.Placed) (hn : 0 < n) (line : m.pa % 64 + n ≤ 64) :
    (t.coreRead core m n cp).1.Within s.content quad ∧ (t.coreRead core m n cp).2 = (s.peek m.pa n, s.peekPoison m.pa n) := by
  unfold Mapping.Placed at placed
  unfold State.coreRead
  split at placed
  · next st e =>
    rw [h.applyFor hc]
    simp only [e]
    obtain ⟨hr, d, fits, eq⟩ := h.quadRead hc placed n (!m.shared) (policyOf m.cpol cp)
    refine ⟨hr, eq.trans ?_⟩
    rw [State.peek_line placed hn line, State.peekPoison_line placed hn line]
    exact s.content_exact.same line fits ((h0.homeView (stackOf_line placed).1).mono fun _ _ _ => half_true _)
  · next c e =>
    have mem : ∀ k, t.mem.get k = s.mem.get k := h.homes.bytes
    have poison : t.poison = s.poison := h.homes.spoilt
    simp only [e, State.scratchRead, State.scratchMeet, State.meetWords_none h.homes.sound.2]
    obtain ⟨none, -⟩ := memKey_scratch placed
    refine ⟨h, Prod.ext ?_ ?_⟩
    · simp [State.peek, none, Memory.getBytes_eq, mem]
    · simp [State.peekPoison, none, poison]
  · exact placed.elim

/-! ### Addresses (R8, R9, R19) -/

theorem mod_two_pow {v a b : Nat} (h : v % 2 ^ b = 0) : v % 2 ^ a % 2 ^ b = 0 := by
  rcases Nat.le_total a b with hab | hab
  · have : v % 2 ^ a = 0 := Nat.mod_eq_zero_of_dvd ((Nat.pow_dvd_pow 2 hab).trans (Nat.dvd_of_mod_eq_zero h))
    rw [this, Nat.zero_mod]
  · rw [Nat.mod_mod_of_dvd _ (Nat.pow_dvd_pow 2 hab), h]

theorem State.lookWindow_placed {who : Party} {need : Need} {core off : Nat} {m : Mapping} (h : s.lookWindow who need core off = .ok m) :
    m.Placed ∧ ∀ b ≤ 12, off % 2 ^ b = 0 → m.pa % 2 ^ b = 0 := by
  have home : ∀ {m : Mapping}, m = { pa := scratchBase + core * 2 ^ 22 + off, home := .core core, pte := 0, window := true } →
      m.Placed ∧ ∀ b ≤ 12, off % 2 ^ b = 0 → m.pa % 2 ^ b = 0 := by
    rintro _ rfl
    refine ⟨Nat.le_add_right_of_le (Nat.le_add_right _ _), fun b hb ho => ?_⟩
    have base : scratchBase + core * 2 ^ 22 = 2 ^ b * (2 ^ (12 - b) * (3 * 2 ^ 32 + core * 2 ^ 10)) := by
      rw [← Nat.mul_assoc, ← Nat.pow_add, Nat.add_sub_cancel' hb, scratchBase]
      omega
    show (scratchBase + core * 2 ^ 22 + off) % 2 ^ b = 0
    rw [base, Nat.mul_add_mod, ho]
  unfold State.lookWindow at h
  split at h
  · cases h
  · split at h
    · cases h
    · split at h
      · cases h
      · split at h
        · cases h
        · cases h
        · exact home (Look.ok.inj h).symm

theorem scratch_le {pa c off : Nat} (h : placeOf pa = .scratch c off) : scratchBase ≤ pa := by
  unfold placeOf at h
  split at h
  · cases h
  · split at h
    · cases h
    · split at h
      · next hs =>
        rw [Bool.and_eq_true, decide_eq_true_eq] at hs
        exact hs.1
      · split at h <;> cases h

theorem homeOf_placed {e pa : Nat} {m : Mapping} (near : m.part? = none) (hm : m = { pa := pa, home := homeOf e pa, pte := e }) : m.Placed := by
  subst hm
  unfold Mapping.Placed stackOf
  cases e : placeOf pa with
  | scratch c off => simpa [homeOf, e] using scratch_le e
  | _ => simp_all [Mapping.part?, homeOf]

/-- An address that translates in this part lies where its home says, and is aligned as it was. -/
theorem State.look_placed {who : Party} {need : Need} {va : DWord} {m : Mapping} (h : s.look who need va = .ok m) (near : m.part? = none) :
    m.Placed ∧ ∀ b ≤ 12, va.toNat % 2 ^ b = 0 → m.pa % 2 ^ b = 0 := by
  have window : ∀ {core k : Nat}, s.lookWindow who need core (va.toNat % 2 ^ k) = .ok m →
      m.Placed ∧ ∀ b ≤ 12, va.toNat % 2 ^ b = 0 → m.pa % 2 ^ b = 0 := fun {core k} h => by
    obtain ⟨placed, aligned⟩ := State.lookWindow_placed h
    exact ⟨placed, fun b hb hv => aligned b hb (mod_two_pow hv)⟩
  unfold State.look at h
  dsimp only at h
  split at h
  · cases h
  · split at h
    · split at h
      · split at h
        · exact window h
        · cases h
      · cases h
    · split at h
      · split at h
        · rw [Nat.mod_mod_of_dvd _ (Nat.pow_dvd_pow 2 (by decide))] at h
          exact window h
        · cases h
      · split at h
        · cases h
        · next t _ =>
          split at h
          · cases h
          · obtain rfl := Look.ok.inj h
            refine ⟨?_, fun b hb hv => ?_⟩
            · exact homeOf_placed near rfl
            · show (ptePfn t.pte.toNat * 4096 + va.toNat % 2 ^ t.log2) % 2 ^ b = 0
              rw [show 4096 = 2 ^ b * 2 ^ (12 - b) by rw [← Nat.pow_add, Nat.add_sub_cancel' hb], Nat.mul_left_comm, Nat.mul_add_mod,
                mod_two_pow hv]

/-! ### The lanes of a load (R282) -/

theorem loadSize_two_pow (z : LdSize) : ∃ b ≤ 6, z.bytes = 2 ^ b := by
  cases z
  · exact ⟨0, by decide, rfl⟩
  · exact ⟨0, by decide, rfl⟩
  · exact ⟨1, by decide, rfl⟩
  · exact ⟨1, by decide, rfl⟩
  · exact ⟨2, by decide, rfl⟩
  · exact ⟨3, by decide, rfl⟩
  · exact ⟨4, by decide, rfl⟩

/-- Aligned bytes lie in one line. -/
theorem aligned_line {pa b : Nat} (hb : b ≤ 6) (h : pa % 2 ^ b = 0) : pa % 64 + 2 ^ b ≤ 64 := by
  interval_cases b <;> omega

section
variable {x : Slice} {p : Option Pfx} {z : LdSize} {d : Dst} {a : Opnd} {m : BitVec 8} {tr : DWord → Mapping} {i : Instr}

theorem State.loadLanes_beside {t : State} (h : s.Beside t) (k : Option Nat) (core u : Nat) (cp : Nat) (qs : List (LaneAddr × Mapping)) :
    s.Beside (t.loadLanes i k core u z cp qs).1 := by
  induction qs generalizing t with
  | nil => exact h
  | cons q qs ih =>
    obtain ⟨a, mp⟩ := q
    simp only [State.loadLanes]
    split
    · exact ih h
    · exact ih h.coreRead

/-- The words that the lanes of a load are given. -/
def State.loaded (s : State) (z : LdSize) (tr : DWord → Mapping) (as : List LaneAddr) : List (Nat × List LaneWord) :=
  as.map fun a => (a.lane, loadWords z (s.peek (tr a.va).pa z.bytes) (s.peekPoison (tr a.va).pa z.bytes))

theorem State.Within.loadLanes {t : State} (h : t.Within s.content quad) (h0 : s.Homes s.content) {core : Nat} (hc : quadOfCore core = quad)
    (k : Option Nat) (u cp : Nat) {as : List LaneAddr} (near : ∀ a ∈ as, (tr a.va).part? = none)
    (placed : ∀ a ∈ as, (tr a.va).Placed ∧ (tr a.va).pa % 64 + z.bytes ≤ 64) :
    (t.loadLanes i k core u z cp (as.map fun a => (a, tr a.va))).1.Within s.content quad ∧
      (t.loadLanes i k core u z cp (as.map fun a => (a, tr a.va))).2 = s.loaded z tr as := by
  have pos : 0 < z.bytes := by cases z <;> decide
  induction as generalizing t with
  | nil => exact ⟨h, rfl⟩
  | cons a as ih =>
    obtain ⟨pl, line⟩ := placed a (by simp)
    obtain ⟨within, read⟩ := h.coreRead h0 cp hc pl pos line
    rw [Prod.ext_iff] at read
    obtain ⟨rest, words⟩ := ih within (fun q hq => near q (by simp [hq])) fun q hq => placed q (by simp [hq])
    simp only [List.map_cons, State.loadLanes, near a (by simp)]
    refine ⟨rest, ?_⟩
    rw [words, read.1, read.2]
    rfl

theorem foldl_stays {α β : Type} {f : β → α → β} {b : β} {l : List α} (h : ∀ a ∈ l, f b a = b) : l.foldl f b = b := by
  induction l with
  | nil => rfl
  | cons a l ih => rw [List.foldl_cons, h a (by simp), ih fun c hc => h c (by simp [hc])]

/-- No access is sent to another part. -/
theorem State.awaitRemotes_none (t : State) {q : Member} {ms : List Mapping} (near : ∀ mp ∈ ms, mp.part? = none)
    (data : Member → LaneAddr → List Word) : t.awaitRemotes i none data [(q, .ok ms)] = (t, true) := by
  unfold State.awaitRemotes
  rw [foldl_stays (b := (t, true)) fun a ha => by
    have : a.2.part? = none := near a.2 (List.of_mem_zip ha).2
    simp only [this]]
  rfl

/-- The memory's side as a load finds it. -/
def State.loadable (s : State) (x : Slice) (p : Option Pfx) (as : List LaneAddr) : State :=
  let r := s.standUp.pulled ((s.env x).party x.uid) as
  if (pfxOrder p).isAcq then r.acquireAt (s.env x) (r.widen x.stood (pfxScope p)) else r

theorem State.loadable_beside (s : State) (x : Slice) (p : Option Pfx) (as : List LaneAddr) : s.standUp.Beside (s.loadable x p as) := by
  have h := s.standUp.pulled_beside ((s.env x).party x.uid) as
  unfold State.loadable
  dsimp only
  split
  · exact h.acquireAt
  · exact h

theorem State.Within.loadable (h : s.Within C quad) (x : Slice) (p : Option Pfx) (as : List LaneAddr) : (s.loadable x p as).Within C quad := by
  have h := h.standUp.pulled ((s.env x).party x.uid) as
  unfold State.loadable
  dsimp only
  split
  · exact h.acquireAt _ _
  · exact h

/-- A load of a slice alone whose addresses can be reached: its lanes are read in their order. -/
theorem State.exec_ld {as : List LaneAddr}
    (has : laneAddrs (x.readPair (s.env x) s.clock true a) (takeOf x p) (scaled m z.bytes) z.bytes = as)
    (h : s.Alone (.ld p z d a m) x [(x.readPair (s.env x) s.clock true a).1, (x.readPair (s.env x) s.clock true a).2] (takeOf x p))
    (ha : ∀ q ∈ as, q.va.toNat % z.bytes = 0) (hr : s.Reaches x { kind := .load } (pfxCp p) as tr)
    (acq : (pfxOrder p).isAcq = true → x.lasting = []) :
    let got := (s.loadable x p as).loadLanes (.ld p z d a m) none (s.env x).core x.uid z (pfxCp p) (as.map fun q => (q, tr q.va))
    exec (.ld p z d a m) s = .next ((got.1.endRemotes x.uid (.ld p z d a m) none).retireMem (.ld p z d a m) x.uid p d
      (laneRegs z.width.count got.2) []) := by
  have near : ∀ mp ∈ as.map (fun q => tr q.va), mp.part? = none := fun mp hm => by
    obtain ⟨q, hq, rfl⟩ := List.mem_map.1 hm
    exact hr.near q hq
  have run : exec (.ld p z d a m) s = _ := State.runMem_alone (as := as) (tr := tr) has h ha hr (by
      show (!(pfxOrder p).isAcq || x.stood.lasting.isEmpty) = true
      cases e : (pfxOrder p).isAcq with
      | false => rfl
      | true => rw [x.lasting_stood, acq e]; rfl) fun t => State.awaitRemotes_none t near _
  rw [run]
  simp only [List.foldl_cons, List.foldl_nil, State.loadRegs, State.sole, Tr.maps, zip_map_right_self]
  rfl

/-- A lane's words in a list made of lanes. -/
theorem lookup_lanes {β : Type} {as : List LaneAddr} (f : LaneAddr → β) {q : LaneAddr} (hq : q ∈ as)
    (hl : ∀ a ∈ as, a.lane = q.lane → a = q) : (as.map fun a => (a.lane, f a)).lookup q.lane = some (f q) := by
  induction as with
  | nil => cases hq
  | cons a as ih =>
    rw [List.map_cons, List.lookup_cons]
    by_cases e : q.lane = a.lane
    · rw [beq_iff_eq.2 e, hl a (by simp) e.symm]
    · rw [beq_eq_false_iff_ne.2 e]
      exact ih ((List.mem_cons.1 hq).resolve_left fun h => e (h ▸ rfl)) fun b hb => hl b (by simp [hb])

theorem State.ld_step {as : List LaneAddr}
    (has : laneAddrs (x.readPair (s.env x) s.clock true a) (takeOf x p) (scaled m z.bytes) z.bytes = as)
    (h : s.Alone (.ld p z d a m) x [(x.readPair (s.env x) s.clock true a).1, (x.readPair (s.env x) s.clock true a).2] (takeOf x p))
    (ha : ∀ q ∈ as, q.va.toNat % z.bytes = 0) (hr : s.Reaches x { kind := .load } (pfxCp p) as tr)
    (acq : (pfxOrder p).isAcq = true → x.lasting = []) :
    ∃ t new, exec (.ld p z d a m) s = .next t ∧ s.MemStep t (.ld p z d a m) p x.stood d z.width.count new [] ∧
      (s.Coherent (quadOfCore (s.env x).core) → (∀ b, t.byteAt b = s.byteAt b) ∧ ∀ q ∈ as, (∀ a ∈ as, a.lane = q.lane → a = q) → ∀ k,
        new k q.lane = nth {} (loadWords z (s.peek (tr q.va).pa z.bytes) (s.peekPoison (tr q.va).pa z.bytes)) k) := by
  let got := (s.loadable x p as).loadLanes (.ld p z d a m) none (s.env x).core x.uid z (pfxCp p) (as.map fun q => (q, tr q.va))
  have beside : s.standUp.Beside got.1 := State.loadLanes_beside (s.loadable_beside x p as) _ _ _ _ _
  have standing : s.Standing got.1 x.stood := (State.Standing.standUp h.cur h.here).beside beside
  have remotes : ∀ r ∈ got.1.outside.remotes, r.slice ≠ x.uid := by
    have : got.1.outside.remotes = s.outside.remotes := (congrArg (·.outside.remotes) standing.rest : got.1.apart.outside.remotes = _)
    rw [this]
    exact hr.replied
  have same : got.1.endRemotes x.uid (.ld p z d a m) none = got.1 := by
    rw [State.endRemotes_none remotes]
    simp [State.onSlice, updateWhere]
  have run := State.exec_ld has h ha hr acq
  dsimp only at run
  rw [same] at run
  refine ⟨_, fun k l => nth {} ((got.2.lookup l).getD []) k, run, standing.retireLanes (by cases z <;> decide) fun _ _ _ _ => rfl, fun co => ?_⟩
  have within := (co.within s.content_allowed)
  have pow := loadSize_two_pow z
  have placed : ∀ q ∈ as, (tr q.va).Placed ∧ (tr q.va).pa % 64 + z.bytes ≤ 64 := fun q hq => by
    obtain ⟨pl, al⟩ := State.look_placed (hr.maps q hq) (hr.near q hq)
    obtain ⟨b, hb, e⟩ := pow
    rw [e]
    exact ⟨pl, aligned_line hb (al b (by omega) (e ▸ ha q hq))⟩
  obtain ⟨after, words⟩ := (within.loadable x p as).loadLanes (i := .ld p z d a m) within.homes rfl none x.uid (pfxCp p) hr.near placed
  refine ⟨fun b => (after.retireMem.homes.byteAt b).trans (within.homes.byteAt b).symm, fun q hq one k => ?_⟩
  show nth {} ((got.2.lookup q.lane).getD []) k = _
  rw [show got.2 = s.loaded z tr as from words, State.loaded, lookup_lanes _ hq one]
  rfl

end

/-! ### The obligation -/

theorem mem_maskLanes {m : BitVec 4} {l : Nat} : l ∈ maskLanes m ↔ l < 4 ∧ m.getLsbD l = true := by
  rw [maskLanes, List.mem_filter, lanes]
  refine and_congr_left fun _ => ?_
  simp
  omega

/-- Settles O43: the lanes of a load are read within the contents that memory has. -/
theorem loads : Obligations.Loads := by
  unfold Obligations.Loads
  intro s x p z d a m tr i e pair as h ha hr acq
  obtain ⟨t, new, run, step, read⟩ := State.ld_step rfl h ha hr acq
  refine ⟨t, new, run, step, fun co => ⟨(read co).1, fun l k hl _ hm => ?_⟩⟩
  have mem : (⟨l, pairVal pair l + scaled m z.bytes, z.bytes⟩ : LaneAddr) ∈ as :=
    List.mem_map_of_mem (mem_maskLanes.2 ⟨hl, hm⟩)
  refine (read co).2 _ mem (fun b hb e => ?_) k
  obtain ⟨l', -, rfl⟩ := List.mem_map.1 hb
  obtain rfl : l' = l := e
  rfl

end Sys2Proof.Machine
end

section
/-! PROOFS. Caches: stores. The bytes that lanes store, put together into runs, one line each. -/

set_option Elab.async false

namespace Sys2Proof.Machine

/-! ### Cells (R126) -/

/-- Bytes at rising addresses. -/
def cellsAt (a : Nat) (bs : List Byte) : List (Nat × Byte) := bs.zipIdx.map fun b => (a + b.2, b.1)

theorem cellsAt_cons (a : Nat) (b : Byte) (bs : List Byte) : cellsAt a (b :: bs) = (a, b) :: cellsAt (a + 1) bs := by
  simp [cellsAt, List.zipIdx_cons, List.zipIdx_succ, Nat.add_assoc, Nat.add_comm 1]

theorem mem_cellsAt {a : Nat} {bs : List Byte} {c : Nat × Byte} : c ∈ cellsAt a bs ↔ ∃ i < bs.length, c = (a + i, nth 0 bs i) := by
  induction bs generalizing a with
  | nil => simp [cellsAt]
  | cons b bs ih =>
    rw [cellsAt_cons, List.mem_cons, ih]
    constructor
    · rintro (rfl | ⟨i, hi, rfl⟩)
      · exact ⟨0, by simp, rfl⟩
      · exact ⟨i + 1, by simpa using hi, by simp [nth]; omega⟩
    · rintro ⟨i, hi, rfl⟩
      cases i with
      | zero => exact .inl rfl
      | succ i => exact .inr ⟨i, by simpa using hi, by simp [nth]; omega⟩

/-- The cells that pieces come to. -/
def cellsOf (xs : List (Nat × List Byte)) : List (Nat × Byte) :=
  (xs.flatMap fun x => cellsAt x.1 x.2).foldl (fun l c => putCell c l) []

theorem storeRuns_eq (xs : List (Nat × List Byte)) : storeRuns xs = runsOf (cellsOf xs) := rfl

theorem mem_putCell {c x : Nat × Byte} {cs : List (Nat × Byte)} (h : x ∈ putCell c cs) : x = c ∨ x ∈ cs := by
  induction cs with
  | nil => simpa [putCell] using h
  | cons d ds ih =>
    unfold putCell at h
    grind

/-- Every cell is of a piece. -/
theorem mem_cellsOf {xs : List (Nat × List Byte)} {c : Nat × Byte} (h : c ∈ cellsOf xs) :
    ∃ x ∈ xs, ∃ i < x.2.length, c = (x.1 + i, nth 0 x.2 i) := by
  have all : ∀ (cs l : List (Nat × Byte)), c ∈ cs.foldl (fun l c => putCell c l) l → c ∈ cs ∨ c ∈ l := fun cs => by
    induction cs with
    | nil => exact fun l h => .inr h
    | cons d ds ih =>
      intro l h
      rcases ih _ h with h | h
      · exact .inl (by simp [h])
      · rcases mem_putCell h with rfl | h
        · exact .inl (by simp)
        · exact .inr h
  obtain ⟨x, hx, hc⟩ := List.mem_flatMap.1 ((all _ _ h).resolve_right List.not_mem_nil)
  exact ⟨x, hx, mem_cellsAt.1 hc⟩

/-! ### Runs -/

/-- A run of bytes of one line, each of which is a cell. -/
def IsRun (cs : List (Nat × Byte)) (r : Nat × List Byte) : Prop :=
  0 < r.2.length ∧ r.1 % 64 + r.2.length ≤ 64 ∧ ∀ i < r.2.length, (r.1 + i, nth 0 r.2 i) ∈ cs

theorem IsRun.one {c : Nat × Byte} {cs : List (Nat × Byte)} (h : c ∈ cs) : IsRun cs (c.1, [c.2]) := by
  refine ⟨by simp, by simp; omega, fun i hi => ?_⟩
  obtain rfl : i = 0 := by simpa using hi
  exact h

theorem IsRun.mono {cs ds : List (Nat × Byte)} {r : Nat × List Byte} (h : IsRun cs r) (hs : ∀ c ∈ cs, c ∈ ds) : IsRun ds r :=
  ⟨h.1, h.2.1, fun i hi => hs _ (h.2.2 i hi)⟩

theorem IsRun.cons {c : Nat × Byte} {cs : List (Nat × Byte)} {r : Nat × List Byte} (h : IsRun cs r) (e : r.1 = c.1 + 1)
    (line : r.1 / 64 = c.1 / 64) : IsRun (c :: cs) (c.1, c.2 :: r.2) := by
  obtain ⟨pos, one, cells⟩ := h
  refine ⟨by simp, by simp only [List.length_cons]; omega, fun i hi => ?_⟩
  cases i with
  | zero => exact List.mem_cons_self
  | succ i =>
    have := cells i (by simpa using hi)
    rw [e, Nat.add_assoc, Nat.add_comm 1] at this
    exact List.mem_cons_of_mem _ this

theorem mem_runsOf {cs : List (Nat × Byte)} {r : Nat × List Byte} (h : r ∈ runsOf cs) : IsRun cs r := by
  induction cs generalizing r with
  | nil => cases h
  | cons c cs ih =>
    have old : ∀ {r}, r ∈ runsOf cs → IsRun (c :: cs) r := fun h => (ih h).mono fun _ => List.mem_cons_of_mem c
    unfold runsOf at h
    split at h
    · next a bs rest e =>
      split at h
      · next hc =>
        rcases List.mem_cons.1 h with rfl | h
        · exact (ih (e ▸ List.mem_cons_self : (a, bs) ∈ runsOf cs)).cons hc.1 hc.2
        · exact old (e ▸ List.mem_cons_of_mem _ h)
      · rcases List.mem_cons.1 h with rfl | h
        · exact .one List.mem_cons_self
        · exact old (e ▸ h)
    · obtain rfl := List.mem_singleton.1 h
      exact .one List.mem_cons_self

/-- The cell is a byte of the run. -/
def InRun (c : Nat × Byte) (r : Nat × List Byte) : Prop := ∃ i < r.2.length, c = (r.1 + i, nth 0 r.2 i)

theorem inRun_head (c : Nat × Byte) (bs : List Byte) : InRun c (c.1, c.2 :: bs) := ⟨0, by simp, rfl⟩

theorem InRun.cons {c d : Nat × Byte} {r : Nat × List Byte} (h : InRun c r) (e : r.1 = d.1 + 1) : InRun c (d.1, d.2 :: r.2) := by
  obtain ⟨i, hi, rfl⟩ := h
  exact ⟨i + 1, by simpa using hi, by simp [nth, e]; omega⟩

/-- Every cell is in a run. -/
theorem runsOf_covers {cs : List (Nat × Byte)} {c : Nat × Byte} (h : c ∈ cs) : ∃ r ∈ runsOf cs, InRun c r := by
  induction cs with
  | nil => cases h
  | cons d cs ih =>
    unfold runsOf
    rcases List.mem_cons.1 h with rfl | h
    · split
      · split
        · exact ⟨_, List.mem_cons_self, inRun_head _ _⟩
        · exact ⟨_, List.mem_cons_self, inRun_head _ _⟩
      · exact ⟨_, List.mem_cons_self, inRun_head _ _⟩
    · obtain ⟨r, hr, hin⟩ := ih h
      split
      · next a bs rest e =>
        rw [e] at hr
        split
        · next hc =>
          rcases List.mem_cons.1 hr with rfl | hr
          · exact ⟨_, List.mem_cons_self, hin.cons hc.1⟩
          · exact ⟨r, List.mem_cons_of_mem _ hr, hin⟩
        · exact ⟨r, List.mem_cons_of_mem _ hr, hin⟩
      · next e =>
        rw [e] at hr
        cases hr

/-! ### One piece -/

theorem putCell_last {c : Nat × Byte} {cs : List (Nat × Byte)} (h : ∀ d ∈ cs, d.1 < c.1) : putCell c cs = cs ++ [c] := by
  induction cs with
  | nil => rfl
  | cons d ds ih =>
    have hd := h d (by simp)
    rw [putCell, if_neg (by omega), if_neg (by omega), ih fun x hx => h x (by simp [hx])]
    rfl

theorem foldl_putCell_cellsAt {a : Nat} {bs : List Byte} {cs : List (Nat × Byte)} (h : ∀ d ∈ cs, d.1 < a) :
    (cellsAt a bs).foldl (fun l c => putCell c l) cs = cs ++ cellsAt a bs := by
  induction bs generalizing a cs with
  | nil => simp [cellsAt]
  | cons b bs ih =>
    rw [cellsAt_cons, List.foldl_cons, putCell_last h, ih fun d hd => ?_, List.append_assoc]
    · rfl
    · rcases List.mem_append.1 hd with hd | hd
      · have := h d hd
        omega
      · obtain rfl := List.mem_singleton.1 hd
        exact Nat.lt_succ_self a

theorem cellsOf_one (a : Nat) (bs : List Byte) : cellsOf [(a, bs)] = cellsAt a bs := by
  simp [cellsOf, foldl_putCell_cellsAt]

/-- A piece of one line is one run. -/
theorem storeRuns_one {a : Nat} {bs : List Byte} (hb : bs ≠ []) (h : a % 64 + bs.length ≤ 64) : storeRuns [(a, bs)] = [(a, bs)] := by
  rw [storeRuns_eq, cellsOf_one]
  induction bs generalizing a with
  | nil => exact absurd rfl hb
  | cons b bs ih =>
    rw [cellsAt_cons, runsOf]
    cases bs with
    | nil => rfl
    | cons b' bs =>
      simp only [List.length_cons] at h
      rw [ih (by simp) (by simp only [List.length_cons]; omega)]
      simp only
      rw [if_pos ⟨trivial, by omega⟩]

/-! ### The run of a store (R283) -/

section
variable {s : State} {x : Slice} {p : Option Pfx} {z : StSize} {d a : Opnd} {m : BitVec 8} {tr : DWord → Mapping} {i : Instr}

/-- A write of a core, of a mapping of its line. -/
def State.writeMapped (s : State) (core cp : Nat) (xs : List (Mapping × List Byte)) (r : Nat × List Byte) : State :=
  match xs.find? fun x => x.1.pa / 64 == r.1 / 64 with
  | some x => s.coreWrite core { x.1 with pa := r.1 } r.2 cp
  | none => s

/-- Writes of a core in runs. -/
def State.writeRuns (s : State) (core cp : Nat) (xs : List (Mapping × List Byte)) : State :=
  (storeRuns (xs.map fun x => (x.1.pa, x.2))).foldl (fun s r => s.writeMapped core cp xs r) s

theorem State.writeRuns_beside {t : State} (h : s.Beside t) (core cp : Nat) (xs : List (Mapping × List Byte)) :
    s.Beside (t.writeRuns core cp xs) :=
  h.foldl fun t r h => by
    unfold State.writeMapped
    split
    · exact h.coreWrite
    · exact h

/-- What the lanes of a store write, and where. -/
def stored (z : StSize) (data : Nat → List LaneWord) (tr : DWord → Mapping) (as : List LaneAddr) : List (Mapping × List Byte) :=
  as.map fun a => (tr a.va, storeBytes z (data a.lane))

/-- The lanes of one slice that store to this part store in runs. -/
theorem State.storeLanes_sole {q : Member} {as : List LaneAddr} (hq : q.addrs = as) (near : ∀ a ∈ as, (tr a.va).part? = none) (cp : Nat)
    (data : Member → Nat → List LaneWord) :
    s.storeLanes i z cp data [(q, .ok (as.map fun a => tr a.va))] = s.writeRuns q.env.core cp (stored z (data q) tr as) := by
  have zip : q.addrs.zip (Tr.ok (as.map fun a => tr a.va)).maps = as.map fun a => (a, tr a.va) := by
    rw [hq]
    exact zip_map_right_self _ _
  have send : s.sendStores i data (q, .ok (as.map fun a => tr a.va)) = s := by
    unfold State.sendStores
    rw [zip]
    refine foldl_stays fun b hb => ?_
    obtain ⟨a, ha, rfl⟩ := List.mem_map.1 hb
    simp only [near a ha]
  have locals_ : localStores z data [(q, .ok (as.map fun a => tr a.va))] = stored z (data q) tr as := by
    simp only [localStores, List.flatMap_cons, List.flatMap_nil, List.append_nil, zip, List.filterMap_map, stored]
    rw [← List.filterMap_eq_map]
    refine List.filterMap_congr fun a ha => ?_
    simp [near a ha]
  unfold State.storeLanes
  rw [locals_]
  simp only [List.foldl_cons, List.foldl_nil, send]
  rfl

/-- The memory's side as a store finds it, what it releases performed. -/
def State.storable (s : State) (x : Slice) (p : Option Pfx) (as : List LaneAddr) : State :=
  let r := s.standUp.pulled ((s.env x).party x.uid) as
  if (pfxOrder p).isRel then r.releaseAt (s.env x) x.stood (r.widen x.stood (pfxScope p)) else r

theorem State.storable_beside (s : State) (x : Slice) (p : Option Pfx) (as : List LaneAddr) : s.standUp.Beside (s.storable x p as) := by
  have h := s.standUp.pulled_beside ((s.env x).party x.uid) as
  unfold State.storable
  dsimp only
  split
  · exact h.releaseAt
  · exact h

theorem State.releaseReady_stood (s : State) (x : Slice) (sc : Scope) : s.releaseReady x.stood sc = s.releaseReady x sc := by
  unfold State.releaseReady
  rw [x.lasting_stood]
  rfl

/-- The words of the lanes. -/
def State.storeData (s : State) (x : Slice) (d : Opnd) (z : StSize) (l : Nat) : List LaneWord :=
  wordsAt (x.storeRegs (s.env x) s.clock d z.width.count) l

/-- A store of a slice alone whose addresses can be reached. -/
theorem State.exec_st {as : List LaneAddr}
    (has : laneAddrs (x.readPair (s.env x) s.clock true a) (takeOf x p) (scaled m z.bytes) z.bytes = as)
    (h : s.Alone (.st p z d a m) x ([(x.readPair (s.env x) s.clock true a).1, (x.readPair (s.env x) s.clock true a).2] ++
      x.storeRegs (s.env x) s.clock d z.width.count) (takeOf x p))
    (ha : ∀ q ∈ as, q.va.toNat % z.bytes = 0) (hr : s.Reaches x { kind := .store, wr := true } (pfxCp p) as tr)
    (rel : (pfxOrder p).isRel = true → s.releaseReady x (s.widen x (pfxScope p)) = true) :
    exec (.st p z d a m) s = .next (((s.storable x p as).writeRuns (s.env x).core (pfxCp p) (stored z (s.storeData x d z) tr as)).retireMem
      (.st p z d a m) x.uid none .zero [] []) := by
  show execSt p z d a m s = _
  unfold execSt
  refine (State.runMem_alone (as := as) (tr := tr) has h ha hr ?_ fun t => rfl).trans ?_
  · show (!(pfxOrder p).isRel || s.releaseReady x.stood (s.widen x.stood (pfxScope p))) = true
    cases e : (pfxOrder p).isRel with
    | false => rfl
    | true => exact (s.releaseReady_stood x _).trans (rel e)
  simp only [List.foldl_cons, List.foldl_nil]
  rw [State.storeLanes_sole (q := s.sole x p as) (as := as) rfl hr.near]
  rfl

/-- A store retires without a register result. -/
theorem State.st_step {as : List LaneAddr}
    (h : s.Alone (.st p z d a m) x ([(x.readPair (s.env x) s.clock true a).1, (x.readPair (s.env x) s.clock true a).2] ++
      x.storeRegs (s.env x) s.clock d z.width.count) (takeOf x p)) (core cp : Nat) (xs : List (Mapping × List Byte)) :
    s.MemStep (((s.storable x p as).writeRuns core cp xs).retireMem (.st p z d a m) x.uid none .zero [] [])
      (.st p z d a m) p x.stood .zero 0 (fun _ _ => {}) [] :=
  ((State.Standing.standUp h.cur h.here).beside (State.writeRuns_beside (s.storable_beside x p as) core cp xs)).retireNone

end

/-! ### The bytes that a store leaves as they are (R110, R283) -/

/-- The contents that memory has but for the bytes of some keys. -/
def State.contentBut (s : State) (T : Nat → Prop) : Content where
  byte k v := ¬ T k → v = s.mem.get k
  bad _ _ := True
  spoilt _ := True

theorem State.contentBut_allowed (s : State) (T : Nat → Prop) : s.Allowed (s.contentBut T) := ⟨fun _ _ => rfl, fun _ => trivial, trivial⟩

section
variable {s t : State} {T : Nat → Prop} {quad : Nat}

/-- The key of an address that is not of a stack is the address. -/
theorem memKey_of_stack_none {pa : Nat} (h : stackOf pa = none) : memKey pa = pa := by
  unfold stackOf memKey at *
  cases e : placeOf pa <;> simp_all

theorem stackOf_mate {a b : Nat} (h : a / 64 = b / 64) (e : stackOf a = none) : stackOf b = none := by
  by_contra hb
  have := (stackOf_line (Option.isSome_iff_ne_none.2 hb)).1.2
  rw [← h] at this
  exact Option.isSome_iff_ne_none.1 (stackOf_of_line this) e

/-- A write of a scratchpad writes its bytes, and meets no error (R151). -/
theorem State.poke_eq (h : s.latentWords = []) (pa : Nat) (bs : List Byte) : s.poke pa bs =
    { s with mem := s.mem.setBytes (memKey pa) bs, poison := s.poison.filter fun t => !(sectorsCovered (memKey pa) bs.length).contains t } := by
  unfold State.poke
  simp only [State.meetWords_none h, h, List.filter_nil]

theorem State.Within.poke (h : s.Within (t.contentBut T) quad) {pa : Nat} {bs : List Byte} (keys : ∀ i < bs.length, T (memKey pa + i)) :
    (s.poke pa bs).Within (t.contentBut T) quad := by
  rw [State.poke_eq h.homes.sound.2]
  refine ⟨{ h.homes with
    ok := ⟨Memory.setBytes_wf _ _ h.homes.ok.1, h.homes.ok.2⟩
    bytes := fun k hT => ?_
    spoilt := trivial }, { h.quads with }⟩
  have out : ¬ (memKey pa ≤ k ∧ k < memKey pa + bs.length) := fun hk => hT (by
    have := keys (k - memKey pa) (by omega)
    rwa [Nat.add_sub_cancel' hk.1] at this)
  rw [Memory.get_setBytes _ _ _ h.homes.ok.1, if_neg out]
  exact h.homes.bytes k hT

/-- A write of a core within the keys that are let change. -/
theorem State.Within.coreWrite (h : s.Within (t.contentBut T) quad) {core : Nat} (hc : quadOfCore core = quad) {m : Mapping} {bs : List Byte}
    (cp : Nat) (placed : m.Placed) (line : m.pa % 64 + bs.length ≤ 64) (keys : ∀ i < bs.length, T (memKey m.pa + i)) :
    (s.coreWrite core m bs cp).Within (t.contentBut T) quad := by
  unfold Mapping.Placed at placed
  unfold State.coreWrite
  split at placed
  · next e =>
    simp only [e]
    rw [h.applyFor hc]
    refine h.quadWrite hc ⟨placed, ⟨line, fun i hi hT => absurd (keys i hi) ?_, fun _ _ _ _ _ _ => trivial, fun _ _ _ => trivial⟩⟩ _ _
    rwa [memKey_sector placed]
  · next e =>
    simp only [e]
    exact h.poke keys
  · exact placed.elim

/-- The key of a byte of a line. -/
theorem memKey_add {pa i : Nat} (h : pa % 64 + i < 64) : memKey (pa + i) = memKey pa + i := by
  have mate : (pa + i) / 64 = pa / 64 := by omega
  cases e : stackOf pa with
  | none => rw [memKey_of_stack_none e, memKey_of_stack_none (stackOf_mate mate.symm e)]
  | some q =>
    have on : (stackOf (pa + i)).isSome = true := by
      rw [Option.isSome_iff_ne_none]
      exact fun none => by rw [stackOf_mate mate none] at e; cases e
    rw [memKey_sector on, memKey_sector (by rw [e]; rfl), mate]
    omega

/-- The runs of a store write within the keys of its pieces. -/
theorem State.Within.writeRuns (h : s.Within (t.contentBut T) quad) {core : Nat} (hc : quadOfCore core = quad) (cp : Nat)
    {xs : List (Mapping × List Byte)} (placed : ∀ x ∈ xs, x.1.Placed) (line : ∀ x ∈ xs, x.1.pa % 64 + x.2.length ≤ 64)
    (keys : ∀ x ∈ xs, ∀ i < x.2.length, T (memKey x.1.pa + i)) : (s.writeRuns core cp xs).Within (t.contentBut T) quad := by
  refine h.foldl fun s h r hr => ?_
  obtain ⟨pos, one, cells⟩ := mem_runsOf hr
  unfold State.writeMapped
  split
  · next x e =>
    refine h.coreWrite hc cp ?_ one fun i hi => ?_
    · have pl := placed x (List.mem_of_find?_eq_some e)
      have mate : x.1.pa / 64 = r.1 / 64 := by simpa using List.find?_some e
      unfold Mapping.Placed at pl ⊢
      split at pl
      · next e' =>
        simp only [e']
        exact Option.isSome_iff_ne_none.2 fun none => Option.isSome_iff_ne_none.1 pl (stackOf_mate mate.symm none)
      · next e' =>
        simp only [e']
        unfold scratchBase at pl ⊢
        omega
      · exact pl.elim
    · obtain ⟨y, hy, j, hj, e⟩ := mem_cellsOf (cells i hi)
      obtain ⟨q, hq, rfl⟩ := List.mem_map.1 hy
      obtain ⟨e, -⟩ := Prod.mk.inj e
      replace hj : j < q.2.length := hj
      have inLine := line q hq
      have := keys q hq j hj
      rw [← memKey_add (by omega), ← e, memKey_add (by omega)] at this
      exact this
  · exact h
end

end Sys2Proof.Machine
end

section
/-! PROOFS. Caches: stores. What memory holds after the runs of a store: the bytes outside them as before, and those of a scratchpad as
the highest lane wrote them. -/

set_option Elab.async false

namespace Sys2Proof.Machine

section
variable {s : State} {x : Slice} {p : Option Pfx} {z : StSize} {d a : Opnd} {m : BitVec 8} {tr : DWord → Mapping} {as : List LaneAddr}

theorem storeSize_two_pow (z : StSize) : ∃ b ≤ 6, z.bytes = 2 ^ b := by
  cases z
  · exact ⟨0, by decide, rfl⟩
  · exact ⟨1, by decide, rfl⟩
  · exact ⟨2, by decide, rfl⟩
  · exact ⟨3, by decide, rfl⟩
  · exact ⟨4, by decide, rfl⟩

/-- Where the lanes of a store write. -/
theorem State.Reaches.placed {need : Need} {cp : Nat} (hr : s.Reaches x need cp as tr) (ha : ∀ q ∈ as, q.va.toNat % z.bytes = 0) :
    ∀ q ∈ as, (tr q.va).Placed ∧ (tr q.va).pa % 64 + z.bytes ≤ 64 ∧ (tr q.va).pa % z.bytes = 0 := fun q hq => by
  obtain ⟨pl, al⟩ := State.look_placed (hr.maps q hq) (hr.near q hq)
  obtain ⟨b, hb, e⟩ := storeSize_two_pow z
  have := al b (by omega) (e ▸ ha q hq)
  rw [e]
  exact ⟨pl, aligned_line hb this, this⟩

theorem storeRegs_length (x : Slice) (e : Env) (clock : DWord) (d : Opnd) (n : Nat) : (x.storeRegs e clock d n).length = n := by
  unfold Slice.storeRegs
  split
  · next h => simp [h]
  · simp [natsFrom]

theorem wordBytes_length (w : Word) : (wordBytes w).length = 4 := rfl

/-- A lane stores as many bytes as the store's size says. -/
theorem State.storeData_length (s : State) (x : Slice) (d : Opnd) (z : StSize) (l : Nat) : (storeBytes z (s.storeData x d z l)).length = z.bytes := by
  have words : (s.storeData x d z l).length = z.width.count := by
    rw [State.storeData, wordsAt, List.length_map, storeRegs_length]
  have bytes : ∀ ws : List LaneWord, (ws.flatMap fun w => wordBytes w.val).length = 4 * ws.length := fun ws => by
    induction ws with
    | nil => rfl
    | cons w ws ih => rw [List.flatMap_cons, List.length_append, ih, wordBytes_length, List.length_cons]; omega
  rw [storeBytes, List.length_take, bytes, words]
  cases z <;> rfl

/-- A byte is among those of a lane. -/
def Touches (z : StSize) (tr : DWord → Mapping) (as : List LaneAddr) (k : Nat) : Prop :=
  ∃ q ∈ as, memKey (tr q.va).pa ≤ k ∧ k < memKey (tr q.va).pa + z.bytes

/-- A store that is no release leaves the bytes outside those of its lanes. -/
theorem State.Coherent.stored (co : s.Coherent (quadOfCore (s.env x).core)) (rel : (pfxOrder p).isRel = false)
    (ha : ∀ q ∈ as, q.va.toNat % z.bytes = 0) (hr : s.Reaches x { kind := .store, wr := true } (pfxCp p) as tr) :
    ((s.storable x p as).writeRuns (s.env x).core (pfxCp p) (Machine.stored z (s.storeData x d z) tr as)).Within
      (s.contentBut (Touches z tr as)) (quadOfCore (s.env x).core) := by
  have before := ((co.within (s.contentBut_allowed (Touches z tr as))).standUp.pulled ((s.env x).party x.uid) as)
  have placed := hr.placed ha
  have found : s.storable x p as = s.standUp.pulled ((s.env x).party x.uid) as := by simp [State.storable, rel]
  have each : ∀ {P : Mapping × List Byte → Prop}, (∀ q ∈ as, P (tr q.va, storeBytes z (s.storeData x d z q.lane))) →
      ∀ y ∈ Machine.stored z (s.storeData x d z) tr as, P y := fun h y hy => by
    obtain ⟨q, hq, rfl⟩ := List.mem_map.1 hy
    exact h q hq
  rw [found]
  refine before.writeRuns rfl _ (each fun q hq => (placed q hq).1) (each fun q hq => ?_) (each fun q hq i hi => ?_)
  · rw [State.storeData_length]
    exact (placed q hq).2.1
  · rw [State.storeData_length] at hi
    exact ⟨q, hq, Nat.le_add_right _ _, Nat.add_lt_add_left hi _⟩

theorem State.Coherent.stored_byteAt (co : s.Coherent (quadOfCore (s.env x).core)) (rel : (pfxOrder p).isRel = false)
    (ha : ∀ q ∈ as, q.va.toNat % z.bytes = 0) (hr : s.Reaches x { kind := .store, wr := true } (pfxCp p) as tr) {i : Instr} {b : Nat}
    (out : ¬ Touches z tr as (memKey b)) :
    (((s.storable x p as).writeRuns (s.env x).core (pfxCp p) (Machine.stored z (s.storeData x d z) tr as)).retireMem i x.uid none .zero [] []).byteAt b
      = s.byteAt b :=
  ((co.stored rel ha hr).retireMem.homes.byteAt b out).trans ((co.within s.content_allowed).homes.byteAt b).symm

end

/-! ### The last byte of each address (R126) -/

theorem mem_putCell_self (c : Nat × Byte) (cs : List (Nat × Byte)) : c ∈ putCell c cs := by
  induction cs with
  | nil => simp [putCell]
  | cons d ds ih =>
    unfold putCell
    grind

theorem mem_putCell_of_ne {c x : Nat × Byte} {cs : List (Nat × Byte)} (h : x ∈ cs) (ne : c.1 ≠ x.1) : x ∈ putCell c cs := by
  induction cs with
  | nil => cases h
  | cons d ds ih =>
    unfold putCell
    grind

/-- Cells by rising address. -/
def Rising (cs : List (Nat × Byte)) : Prop := cs.Pairwise fun c d => c.1 < d.1

theorem Rising.putCell {cs : List (Nat × Byte)} (h : Rising cs) (c : Nat × Byte) : Rising (putCell c cs) := by
  unfold Rising at *
  induction cs with
  | nil => exact List.pairwise_singleton _ _
  | cons d ds ih =>
    obtain ⟨hd, hds⟩ := List.pairwise_cons.1 h
    unfold Machine.putCell
    split
    · next lt => exact List.pairwise_cons.2 ⟨fun x hx => by rcases List.mem_cons.1 hx with rfl | hx; exacts [lt, lt.trans (hd x hx)], h⟩
    · split
      · next e => exact List.pairwise_cons.2 ⟨fun x hx => e ▸ hd x hx, hds⟩
      · next nlt ne =>
        refine List.pairwise_cons.2 ⟨fun x hx => ?_, ih hds⟩
        rcases mem_putCell hx with rfl | hx
        · omega
        · exact hd x hx

theorem Rising.one_byte {cs : List (Nat × Byte)} (h : Rising cs) {k : Nat} {v w : Byte} (hv : (k, v) ∈ cs) (hw : (k, w) ∈ cs) : v = w := by
  induction cs with
  | nil => cases hv
  | cons c cs ih =>
    obtain ⟨hc, hcs⟩ := List.pairwise_cons.1 h
    rcases List.mem_cons.1 hv with rfl | inv
    · rcases List.mem_cons.1 hw with e | inw
      · exact (Prod.mk.inj e).2.symm
      · exact absurd (hc (k, w) inw) (Nat.lt_irrefl k)
    · rcases List.mem_cons.1 hw with rfl | inw
      · exact absurd (hc (k, v) inv) (Nat.lt_irrefl k)
      · exact ih hcs inv inw

theorem rising_cellsOf (xs : List (Nat × List Byte)) : Rising (cellsOf xs) :=
  List.foldlRecOn (motive := Rising) _ _ List.Pairwise.nil fun _ h c _ => h.putCell c

/-- The byte of an address is the one put last. -/
theorem foldl_putCell_last {k : Nat} {v : Byte} {L : List (Nat × Byte)} (one : ∀ c ∈ L, c.1 = k → c.2 = v) {cs : List (Nat × Byte)}
    (h : (k, v) ∈ cs ∨ (k, v) ∈ L) : (k, v) ∈ L.foldl (fun l c => putCell c l) cs := by
  induction L generalizing cs with
  | nil => exact h.resolve_right List.not_mem_nil
  | cons c L ih =>
    refine ih (fun x hx => one x (by simp [hx])) ?_
    by_cases e : c.1 = k
    · have : c = (k, v) := Prod.ext e (one c (by simp) e)
      exact .inl (this ▸ mem_putCell_self _ _)
    · rcases h with h | h
      · exact .inl (mem_putCell_of_ne h e)
      · exact .inr ((List.mem_cons.1 h).resolve_left fun h => e (h ▸ rfl))

/-- The byte of a piece, where no later piece has its address. -/
theorem mem_cellsOf_last {A B : List (Nat × List Byte)} {a i : Nat} {bs : List Byte} (hi : i < bs.length)
    (out : ∀ y ∈ B, ¬ (y.1 ≤ a + i ∧ a + i < y.1 + y.2.length)) : (a + i, nth 0 bs i) ∈ cellsOf (A ++ (a, bs) :: B) := by
  unfold cellsOf
  rw [List.flatMap_append, List.foldl_append]
  refine foldl_putCell_last (fun c hc e => ?_) (.inr ?_)
  · rw [List.flatMap_cons] at hc
    rcases List.mem_append.1 hc with hc | hc
    · obtain ⟨j, hj, rfl⟩ := mem_cellsAt.1 hc
      obtain rfl : j = i := by simpa using e
      rfl
    · obtain ⟨y, hy, hc⟩ := List.mem_flatMap.1 hc
      obtain ⟨j, hj, rfl⟩ := mem_cellsAt.1 hc
      exact absurd ⟨by simp only at e; omega, by simp only at e; omega⟩ (out y hy)
  · rw [List.flatMap_cons]
    exact List.mem_append_left _ (mem_cellsAt.2 ⟨i, hi, rfl⟩)

/-- Memory after runs are written. -/
theorem get_runs {cs : List (Nat × Byte)} (rising : Rising cs) {k : Nat} {v : Byte} (hk : (k, v) ∈ cs) {rs : List (Nat × List Byte)}
    (runs : ∀ r ∈ rs, IsRun cs r) {mem : Memory} (ok : mem.wf = true) (h : (∃ r ∈ rs, InRun (k, v) r) ∨ mem.get k = v) :
    (rs.foldl (fun m r => Memory.setBytes m r.1 r.2) mem).get k = v := by
  induction rs generalizing mem with
  | nil => exact h.resolve_left fun ⟨r, hr, _⟩ => absurd hr List.not_mem_nil
  | cons r rs ih =>
    refine ih (fun x hx => runs x (by simp [hx])) (Memory.setBytes_wf _ _ ok) ?_
    rw [Memory.get_setBytes _ _ _ ok]
    by_cases hin : r.1 ≤ k ∧ k < r.1 + r.2.length
    · rw [if_pos hin]
      have cell := (runs r (by simp)).2.2 (k - r.1) (by omega)
      rw [Nat.add_sub_cancel' hin.1] at cell
      exact .inr (rising.one_byte cell hk)
    · rw [if_neg hin]
      refine h.imp_left fun ⟨q, hq, i, hi, e⟩ => ⟨q, (List.mem_cons.1 hq).resolve_left fun eq => hin ?_, i, hi, e⟩
      obtain ⟨e, -⟩ := Prod.mk.inj e
      subst eq
      omega

/-! ### A scratchpad's bytes (R126) -/

section
variable {s : State}

theorem State.post_mem (s : State) (e : Event) : (s.post e).mem = s.mem := by
  unfold State.post
  split <;> rfl

theorem State.meetWords_mem (s : State) (core : Nat) (ws : List Nat) : (s.meetWords core ws).mem = s.mem :=
  List.foldlRecOn (motive := fun t : State => t.mem = s.mem) _ _ rfl fun _ ht _ _ =>
    (State.post_mem _ _).trans ht

theorem State.poke_mem (s : State) (pa : Nat) (bs : List Byte) : (s.poke pa bs).mem = s.mem.setBytes (memKey pa) bs :=
  congrArg (Memory.setBytes · (memKey pa) bs) (s.meetWords_mem _ _)

/-- Stores to scratchpads write their runs in memory. -/
theorem State.writeRuns_mem {core cp : Nat} {xs : List (Mapping × List Byte)} (home : ∀ x ∈ xs, (∃ c, x.1.home = .core c) ∧ x.1.Placed)
    (line : ∀ x ∈ xs, x.1.pa % 64 + x.2.length ≤ 64) : (s.writeRuns core cp xs).mem =
      (storeRuns (xs.map fun x => (x.1.pa, x.2))).foldl (fun m r => Memory.setBytes m r.1 r.2) s.mem := by
  have one : ∀ r ∈ storeRuns (xs.map fun x => (x.1.pa, x.2)), ∀ s : State, (s.writeMapped core cp xs r).mem = s.mem.setBytes r.1 r.2 := fun r hr s => by
    unfold State.writeMapped
    obtain ⟨pos, inLine, cells⟩ := mem_runsOf hr
    obtain ⟨y, hy, j, hj, e⟩ := mem_cellsOf (cells 0 pos)
    obtain ⟨q, hq, rfl⟩ := List.mem_map.1 hy
    obtain ⟨e, -⟩ := Prod.mk.inj e
    have := line q hq
    replace hj : j < q.2.length := hj
    split
    · next x hx =>
      obtain ⟨⟨c, hc⟩, pl⟩ := home x (List.mem_of_find?_eq_some hx)
      have mate : x.1.pa / 64 = r.1 / 64 := by simpa using List.find?_some hx
      have base : scratchBase ≤ r.1 := by
        simp only [Mapping.Placed, hc] at pl
        unfold scratchBase at pl ⊢
        omega
      simp only [State.coreWrite, hc]
      rw [State.poke_mem, (memKey_scratch base).2]
    · next none =>
      have := List.find?_eq_none.1 none q hq
      simp only [beq_iff_eq] at this
      omega
  unfold State.writeRuns
  generalize storeRuns (xs.map fun x => (x.1.pa, x.2)) = rs at one
  induction rs generalizing s with
  | nil => rfl
  | cons r rs ih =>
    rw [List.foldl_cons, List.foldl_cons, ih fun q hq => one q (by simp [hq]), one r (by simp)]
variable {x : Slice} {p : Option Pfx} {z : StSize} {d : Opnd} {tr : DWord → Mapping} {as : List LaneAddr}

/-- The keys of stacks come before those of scratchpads (R12). -/
theorem memKey_stack {b : Nat} (h : (stackOf b).isSome = true) : memKey b < scratchBase := by
  have low : b < scratchBase := by
    by_contra hb
    simp [(memKey_scratch (Nat.le_of_not_lt hb)).1] at h
  unfold memKey
  split
  · next st off e =>
    unfold placeOf at e
    split at e
    · cases e
    · split at e
      · next hs =>
        rw [Bool.and_eq_true, decide_eq_true_eq, decide_eq_true_eq] at hs
        obtain ⟨rfl, rfl⟩ := Place.striped.inj e
        unfold homedBase scratchBase stripedBase at *
        omega
      · split at e
        · cases e
        · split at e <;> cases e
  · exact low

/-- A byte of a scratchpad comes from the highest lane that stores it. -/
theorem State.Reaches.scratch_byteAt (hr : s.Reaches x { kind := .store, wr := true } (pfxCp p) as tr) (ok : s.memOk)
    (rel : (pfxOrder p).isRel = false) (ha : ∀ q ∈ as, q.va.toNat % z.bytes = 0) (home : ∀ q ∈ as, ∃ c, (tr q.va).home = .core c)
    {A B : List LaneAddr} {q : LaneAddr} (has : as = A ++ q :: B) {b : Nat} (hb : holds (tr q.va).pa z.bytes b)
    (out : ∀ y ∈ B, ¬ holds (tr y.va).pa z.bytes b) {i : Instr} (core : Nat) :
    (((s.storable x p as).writeRuns core (pfxCp p) (Machine.stored z (s.storeData x d z) tr as)).retireMem i x.uid none .zero [] []).byteAt b =
      nth 0 (storeBytes z (s.storeData x d z q.lane)) (memKey b - memKey (tr q.va).pa) := by
  have placed := hr.placed ha
  have base : ∀ y ∈ as, scratchBase ≤ (tr y.va).pa ∧ memKey (tr y.va).pa = (tr y.va).pa := fun y hy => by
    obtain ⟨c, hc⟩ := home y hy
    have pl := (placed y hy).1
    simp only [Mapping.Placed, hc] at pl
    exact ⟨pl, (memKey_scratch pl).2⟩
  have mem : (s.storable x p as).mem = s.mem := by
    obtain ⟨c, hc⟩ := s.standUp.pulled_caches ((s.env x).party x.uid) as
    simp [State.storable, rel, hc]
    rfl
  have inQ : q ∈ as := by simp [has]
  obtain ⟨lo, hi⟩ := hb
  rw [(base q inQ).2] at lo hi ⊢
  have off : stackOf b = none := by
    by_contra hn
    have := memKey_stack (Option.isSome_iff_ne_none.2 hn)
    have := (base q inQ).1
    omega
  have cell : (memKey b, nth 0 (storeBytes z (s.storeData x d z q.lane)) (memKey b - (tr q.va).pa)) ∈
      cellsOf ((Machine.stored z (s.storeData x d z) tr as).map fun x => (x.1.pa, x.2)) := by
    have := mem_cellsOf_last (A := A.map fun y => ((tr y.va).pa, storeBytes z (s.storeData x d z y.lane)))
      (B := B.map fun y => ((tr y.va).pa, storeBytes z (s.storeData x d z y.lane))) (a := (tr q.va).pa)
      (i := memKey b - (tr q.va).pa) (bs := storeBytes z (s.storeData x d z q.lane)) (by rw [State.storeData_length]; omega) ?_
    · rw [Nat.add_sub_cancel' lo] at this
      simpa [Machine.stored, has, Function.comp_def] using this
    · intro y hy
      obtain ⟨r, hr, rfl⟩ := List.mem_map.1 hy
      have := out r hr
      rw [holds, (base r (by simp [has, hr])).2] at this
      simpa [State.storeData_length, Nat.add_sub_cancel' lo] using this
  have runs := State.writeRuns_mem (s := s.storable x p as) (core := core) (cp := pfxCp p) (xs := Machine.stored z (s.storeData x d z) tr as) ?_ ?_
  · show nth 0 (State.peek _ b 1) 0 = _
    simp only [State.peek, off]
    rw [nth_getBytes _ _ (by decide)]
    show (State.mem (State.writeRuns _ _ _ _)).get (memKey b + 0) = _
    rw [runs, mem]
    obtain ⟨r, hr, hin⟩ := runsOf_covers cell
    exact get_runs (rising_cellsOf _) cell (fun r hr => mem_runsOf hr) ok.1 (.inl ⟨r, hr, hin⟩)
  · intro y hy
    obtain ⟨r, hr, rfl⟩ := List.mem_map.1 hy
    exact ⟨home r hr, (placed r hr).1⟩
  · intro y hy
    obtain ⟨r, hr, rfl⟩ := List.mem_map.1 hy
    rw [State.storeData_length]
    exact (placed r hr).2.1

end

end Sys2Proof.Machine
end

section
/-! PROOFS. Caches: what a home gives back. Bytes of one sector, written at a home that is at rest, are what the next read there finds,
under the policy of the write. -/

set_option Elab.async false

namespace Sys2Proof.Machine

/-! ### Bytes in a line -/

/-- A line has bytes at an offset. -/
def LineData.Has (d : LineData) (off : Nat) (bs : List Byte) : Prop := ∀ i < bs.length, nth 0 d.data (off + i) = nth 0 bs i

/-- Bytes within one sector of a line. -/
structure InSector (off : Nat) (bs : List Byte) : Prop where
  pos : 0 < bs.length
  line : off < 64
  one : off % 32 + bs.length ≤ 32
  part : bs.length < 32

section
variable {off : Nat} {bs : List Byte}

theorem InSector.sector (h : InSector off bs) : off / 32 < 2 := by
  have := h.line
  omega

theorem InSector.inLine (h : InSector off bs) : off + bs.length ≤ 64 := by
  have := h.line
  have := h.one
  omega

theorem LineData.Has.slice {d : LineData} (h : d.Has off bs) (hd : d.data.length = 64) (line : off + bs.length ≤ 64) :
    d.slice off bs.length = bs := by
  refine List.ext_getElem (d.slice_length hd line) fun i hi hi' => ?_
  have := (nth_slice d off hi').trans (h i hi')
  simpa [nth, List.getD_eq_getElem?_getD, hi, hi'] using this

theorem LineData.has_put {d : LineData} (hd : d.data.length = 64) (line : off + bs.length ≤ 64) (bad : Bool) : (d.put off bs bad).Has off bs :=
  fun i hi => by rw [nth_put hd line, if_pos (by omega), Nat.add_sub_cancel_left]

theorem LineData.Has.sectors {l new : LineData} {p : Bool × Bool} (hl : l.data.length = 64) (hn : new.data.length = 64) (h : InSector off bs)
    (has : (if half p (off / 32) then new else l).Has off bs) : (l.over new p).Has off bs := fun i hi => by
  have := h.one
  rw [show off + i = 32 * (off / 32) + (off % 32 + i) by omega, nth_over hl hn h.sector (by omega),
    show 32 * (off / 32) + (off % 32 + i) = off + i by omega]
  exact has i hi

/-- Bytes of one sector are one part. -/
theorem InSector.cuts (h : InSector off bs) : sectorCuts off bs = [(off, bs)] := by
  have pos := h.pos
  have one := h.one
  have line := h.line
  have ne : bs ≠ [] := List.length_pos_iff.1 pos
  rcases Nat.lt_or_ge off 32 with lt | ge
  · have h1 : bs.take (32 - off) = bs := List.take_of_length_le (by omega)
    have h2 : bs.drop (32 - off) = [] := List.drop_eq_nil_of_le (by omega)
    simp [sectorCuts, h1, h2, ne]
  · have h0 : 32 - off = 0 := by omega
    have hm : Nat.max off 32 = off := Nat.max_eq_left ge
    simp [sectorCuts, h0, hm, ne]

theorem InSector.touched (h : InSector off bs) : touched off bs.length = onlyPair (off / 32) := by
  have pos := h.pos
  have one := h.one
  have line := h.line
  have e : ∀ i < 2, half (Machine.touched off bs.length) i = half (onlyPair (off / 32)) i := fun i hi => by
    rw [half_touched h.inLine hi, half_onlyPair hi h.sector, decide_eq_decide]
    omega
  exact Prod.ext (e 0 (by decide)) (e 1 (by decide))

theorem InSector.wanted (h : InSector off bs) : half (Machine.touched off bs.length) (off / 32) = true := by
  rw [h.touched, half_onlyPair h.sector h.sector, decide_eq_true rfl]
end

/-! ### The memory-side cache and the banks -/

/-- Anything. -/
def Content.any : Content := ⟨fun _ _ => True, fun _ _ => True, fun _ => True⟩

section
variable {s : State} {line off : Nat} {bs : List Byte}

/-- Below the die cache a line's bytes are found: in the memory-side cache, or on their way to the bank. -/
structure State.Below (s : State) (line off : Nat) (bs : List Byte) : Prop where
  settled : s.caches.mscQueue = []
  found : (half (s.mscAt line).valid (off / 32) = true ∧ (s.mscAt line).Has off bs) ∨
    (half (s.mscAt line).valid (off / 32) = false ∧
      ∃ r, s.caches.bankQueue = [r] ∧ r.addr = line ∧ r.sectors = onlyPair (off / 32) ∧ r.Has off bs)

/-- A bank has what was written back to it. -/
theorem State.serveReq_has (h : s.Homes .any) (on : OnStack line) (sec : InSector off bs) {r : LineReq} (hd : r.data.length = 64)
    (ha : r.addr = line) (hs : r.sectors = onlyPair (off / 32)) (hr : r.Has off bs) : ((s.serveReq r).dramLine line).Has off bs := by
  have sector := sec.sector
  have mem : (s.serveReq r).mem = s.mem.setBytes (32 * (sectorAt line + off / 32)) (r.slice (32 * (off / 32)) 32) := by
    subst ha
    obtain e | e : off / 32 = 0 ∨ off / 32 = 1 := by omega
    · rw [e] at hs
      simp only [State.serveReq, State.dramWrite, hs, onlyPair, e]
      rfl
    · rw [e] at hs
      simp only [State.serveReq, State.dramWrite, hs, onlyPair, e]
      rfl
  have one := sec.one
  intro i hi
  refine (nth_getBytes _ _ (by omega)).trans ?_
  rw [on.key, mem, Memory.get_setBytes _ _ _ h.ok.1, LineData.slice_length hd (by omega), if_pos (by omega), nth_slice _ _ (by omega), ← hr i hi]
  congr 1
  omega

/-- A read of a line at its bank has what waits there for it. -/
theorem State.bankTurn_has (h : s.Homes .any) (on : OnStack line) (sec : InSector off bs) {r : LineReq} (hq : s.caches.bankQueue = [r])
    (ha : r.addr = line) (hs : r.sectors = onlyPair (off / 32)) (hr : r.Has off bs) : ((s.bankTurn line).dramLine line).Has off bs := by
  obtain ⟨rs, b, e, sub, own⟩ | ⟨-, none⟩ := s.bankTurn_serves line
  · have mem : r ∈ rs := own r (by simp [hq]) ha
    have all : ∀ q ∈ rs, q = r := fun q hq' => by simpa [hq] using sub q hq'
    have hd := (h.bankQueue r (by simp [hq])).2.1
    rcases List.eq_nil_or_concat rs with rfl | ⟨qs, q, rfl⟩
    · cases mem
    · obtain rfl := all q (by simp)
      rw [e, List.concat_eq_append, List.foldl_append]
      have before : (qs.foldl State.serveReq s).Homes .any :=
        h.foldl fun _ h' q' hq' => h'.serveReq (h.bankQueue q' (sub q' (by simp [hq'])))
      exact State.serveReq_has before on sec hd ha hs hr
  · exact absurd on.2 (by simp [none])

/-- A read below the die cache finds them. -/
theorem State.Below.read (b : s.Below line off bs) (h : s.Homes .any) (on : OnStack line) (sec : InSector off bs) (stack : Nat)
    {want : Bool × Bool} (hw : half want (off / 32) = true) : ((s.settleMsc line).mscRead stack line want false false).2.Has off bs := by
  have settled : s.settleMsc line = s := by
    simp [State.settleMsc, b.settled]
  rw [settled]
  have held := h.mscAt line
  have len : (s.mscAt line).data.length = 64 := (held.2 ((s.mscAt_addr line).symm ▸ on)).1
  unfold State.mscRead
  dsimp only
  rw [show (s.mscLine? line).getD { addr := line, valid := (false, false) } = s.mscAt line from rfl]
  split
  · next none =>
    have := pair_none.1 none (off / 32) sec.sector
    rw [half_lessPair, hw, Bool.true_and, Bool.not_eq_false'] at this
    rcases b.found with ⟨-, has⟩ | ⟨hv, -⟩
    · exact has
    · rw [hv] at this
      cases this
  · simp only [Bool.false_eq_true, if_false]
    have turned := h.bankTurn line
    rw [turned.dramRead]
    refine LineData.Has.sectors len (State.Homes.dramLine turned on (true, true)).1 sec ?_
    rcases b.found with ⟨hv, has⟩ | ⟨hv, r, hq, ha, hs, hr⟩
    · rw [half_lessPair, hv, if_neg (by simp)]
      exact has
    · simp only [half_lessPair, hv, hw, Bool.not_false, Bool.and_self, if_true]
      exact State.bankTurn_has h on sec hq ha hs hr

/-! ### A home at rest -/

/-- Nothing is dirty at the homes, and nothing waits there. -/
structure State.AtRest (s : State) : Prop where
  die : ∀ l ∈ s.caches.dieLines, l.dirty = false
  msc : ∀ l ∈ s.caches.mscLines, l.dirty = (false, false)
  queues : s.caches.mscQueue = [] ∧ s.caches.bankQueue = []
  ranges : ∀ c ∈ s.engines.cmds, c.writeRange = []

/-- A line placed in a memory-side cache at rest drives nothing out that waits. -/
theorem State.AtRest.mscPlace (r : s.AtRest) (stack : Nat) (l : MscLine) : (s.mscPlace stack l).caches.bankQueue = [] ∧
    (s.mscPlace stack l).caches.mscQueue = [] ∧ (s.mscPlace stack l).caches.dieLines = s.caches.dieLines := by
  unfold State.mscPlace
  dsimp only
  split
  · next v hv =>
    have clean : v.dirty = (false, false) := by
      split at hv
      · exact r.msc v (List.mem_of_mem_filter (List.mem_of_mem_filter (List.mem_of_getLast? hv)))
      · cases hv
    simp [State.writeBackOf, clean, anyPair, r.queues]
  · simp [r.queues]

theorem State.mscPlace_at (s : State) (stack : Nat) (l : MscLine) : (s.mscPlace stack l).mscAt l.addr = l := by
  rw [State.mscAt, State.mscPlace_line]
  rfl

theorem State.bankTurn_caches (h : s.caches.bankQueue = []) (line : Nat) : (s.bankTurn line).caches = s.caches ∧
    (s.bankTurn line).engines.cmds = s.engines.cmds := by
  obtain ⟨rs, b, e, sub, -⟩ | ⟨e, -⟩ := s.bankTurn_serves line
  · obtain rfl : rs = [] := List.eq_nil_iff_forall_not_mem.2 fun r hr => by simpa [h] using sub r hr
    rw [e]
    exact ⟨rfl, rfl⟩
  · rw [e]
    exact ⟨rfl, rfl⟩

/-- A read that does not allocate leaves a home at rest as it is. -/
theorem State.AtRest.mscRead (r : s.AtRest) (h : s.Homes .any) (stack line : Nat) (want : Bool × Bool) :
    (s.mscRead stack line want false false).1.caches.bankQueue = [] ∧ (s.mscRead stack line want false false).1.caches.mscQueue = [] ∧
      (s.mscRead stack line want false false).1.caches.dieLines = s.caches.dieLines ∧
      ((s.mscRead stack line want false false).1.mscAt line).valid = (s.mscAt line).valid := by
  have addr := s.mscAt_addr line
  have place : ∀ {t : State}, t.caches = s.caches → t.engines.cmds = s.engines.cmds →
      (t.mscPlace stack (s.mscAt line)).caches.bankQueue = [] ∧ (t.mscPlace stack (s.mscAt line)).caches.mscQueue = [] ∧
        (t.mscPlace stack (s.mscAt line)).caches.dieLines = s.caches.dieLines ∧
        ((t.mscPlace stack (s.mscAt line)).mscAt line).valid = (s.mscAt line).valid := fun {t} e e' => by
    have rest : t.AtRest := ⟨e ▸ r.die, e ▸ r.msc, e ▸ r.queues, e' ▸ r.ranges⟩
    obtain ⟨h1, h2, h3⟩ := rest.mscPlace stack (s.mscAt line)
    refine ⟨h1, h2, h3.trans (by rw [e]), ?_⟩
    have := t.mscPlace_at stack (s.mscAt line)
    rw [addr] at this
    rw [this]
  obtain ⟨turned, cmds⟩ := State.bankTurn_caches r.queues.2 line
  unfold State.mscRead
  dsimp only
  rw [show (s.mscLine? line).getD { addr := line, valid := (false, false) } = s.mscAt line from rfl]
  split
  · exact place rfl rfl
  · simp only [Bool.false_eq_true, if_false, (h.bankTurn line).dramRead]
    split
    · exact place turned cmds
    · have same : (s.bankTurn line).mscAt line = s.mscAt line := by
        unfold State.mscAt State.mscLine?
        rw [turned]
      rw [same, turned]
      exact ⟨r.queues.2, r.queues.1, rfl, rfl⟩

/-- A write at the tag check of a home at rest is found below. -/
theorem State.AtRest.mscWrite (r : s.AtRest) (h : s.Homes .any) (on : OnStack line) (sec : InSector off bs) (stack : Nat) (bad : Bool) :
    (s.mscWrite stack line off bs bad false).Below line off bs ∧
      (s.mscWrite stack line off bs bad false).caches.dieLines = s.caches.dieLines := by
  have valid : ((s.mscLine? line).map (·.valid)).getD (false, false) = (s.mscAt line).valid := by
    unfold State.mscAt
    cases s.mscLine? line <;> rfl
  have part : decide (bs.length = 32) = false := decide_eq_false (Nat.ne_of_lt sec.part)
  have len : (s.mscAt line).data.length = 64 := ((h.mscAt line).2 ((s.mscAt_addr line).symm ▸ on)).1
  unfold State.mscWrite
  dsimp only
  rw [valid, anyPair_onlyPair sec.sector, part]
  simp only [Bool.false_or, Bool.false_eq_true, if_false]
  by_cases hit : half (s.mscAt line).valid (off / 32) = true
  · rw [if_pos hit, if_pos hit]
    obtain ⟨-, h2, h3⟩ := r.mscPlace stack ((s.mscAt line).write off bs bad)
    refine ⟨⟨h2, .inl ?_⟩, h3⟩
    have at_ : (s.mscPlace stack ((s.mscAt line).write off bs bad)).mscAt line = (s.mscAt line).write off bs bad := by
      have := s.mscPlace_at stack ((s.mscAt line).write off bs bad)
      rwa [show ((s.mscAt line).write off bs bad).addr = line from s.mscAt_addr line] at this
    show half (State.mscAt (s.mscPlace stack ((s.mscAt line).write off bs bad)) line).valid (off / 32) = true ∧
      LineData.Has (State.mscAt (s.mscPlace stack ((s.mscAt line).write off bs bad)) line).toLineData off bs
    rw [at_]
    exact ⟨by simp [MscLine.write, half_onlyPair sec.sector sec.sector], LineData.has_put len sec.inLine bad⟩
  · rw [if_neg hit]
    obtain ⟨h1, h2, h3, h4⟩ := r.mscRead h stack line (onlyPair (off / 32))
    have fits := (h.mscRead stack on (onlyPair (off / 32)) false false).2
    have request : anyPair (onlyPair (off / 32)) = true := by
      have := sec.sector
      obtain e | e : off / 32 = 0 ∨ off / 32 = 1 := by omega
      · rw [e]; rfl
      · rw [e]; rfl
    refine ⟨⟨h2, .inr ⟨?_, ?_⟩⟩, h3⟩
    · exact (congrArg (half · (off / 32)) h4).trans (by simpa using hit)
    · simp only [State.onCaches_caches, State.writeBackOf, request, if_true, h1, List.nil_append]
      exact ⟨_, rfl, rfl, rfl, LineData.has_put fits.1 sec.inLine bad⟩

/-! ### The die cache -/

/-- A home gives a line's bytes to a read under a policy: from the die cache, or from below it. -/
structure State.Gives (s : State) (line off : Nat) (bs : List Byte) (p : Policy) : Prop where
  ranges : s.inWriteRange line = false
  found : (p ≠ .uncached ∧ ∃ l, s.dieLine? line = some l ∧ half l.valid (off / 32) = true ∧ l.Has off bs) ∨
    (s.Below line off bs ∧ ((s.dieLine? line = none ∧ (p = .uncached ∨ p = .noAlloc)) ∨
      (p = .noAlloc ∧ ∃ l, s.dieLine? line = some l ∧ half l.valid (off / 32) = false)))

/-- A read at its home finds them. -/
theorem State.Gives.read {p : Policy} (g : s.Gives line off bs p) (h : s.Homes .any) (on : OnStack line) (sec : InSector off bs)
    {want : Bool × Bool} (hw : half want (off / 32) = true) : (s.homeLine line want p).2.Has off bs := by
  obtain ⟨⟨st, o⟩, hst⟩ := Option.isSome_iff_exists.1 on.2
  unfold State.homeLine
  simp only [hst, g.ranges, Bool.false_eq_true, if_false]
  rcases g.found with ⟨hp, l, e, hv, has⟩ | ⟨b, ⟨e, rfl | rfl⟩ | ⟨rfl, l, e, hv⟩⟩
  · have len := ((h.die l (List.mem_of_find?_eq_some e)).2 (by rwa [show l.addr = line by simpa using List.find?_some e])).1
    have here : ∀ {get : Bool × Bool} {d : LineData}, d.data.length = 64 → half get (off / 32) = false → (l.toLineData.over d get).Has off bs :=
      fun {get d} hd hg => LineData.Has.sectors len hd sec (by rwa [hg, if_neg Bool.false_ne_true])
    have settled := h.settleMsc line
    have data : ∀ (want : Bool × Bool) (alloc : Bool), ((s.settleMsc line).mscRead st line want alloc false).2.data.length = 64 :=
      fun want alloc => (settled.mscRead st on want alloc false).2.1
    cases p with
    | uncached => exact absurd rfl hp
    | noAlloc =>
      simp only [e, Option.getD_some, if_true]
      split
      · exact has
      · exact here (data _ _) (by simp [hv])
    | _ =>
      simp only [e, Option.getD_some, reduceCtorEq, if_false]
      split
      · exact has
      · exact here (data _ _) (by simp [hv])
  · have back : s.dieWriteBack line false = s := by
      unfold State.dieWriteBack
      rw [Nat.div_mul_cancel (Nat.dvd_of_mod_eq_zero on.1)]
      simp only [e]
    simp only [back]
    exact b.read h on sec st hw
  · simp only [e]
    exact b.read h on sec st hw
  · have len := ((h.die l (List.mem_of_find?_eq_some e)).2 (by rwa [show l.addr = line by simpa using List.find?_some e])).1
    have miss : half (lessPair want l.valid) (off / 32) = true := by simp [hw, hv]
    simp only [e, Option.getD_some, if_true]
    split
    · next none =>
      rw [none, half_false] at miss
      cases miss
    · exact LineData.Has.sectors len ((h.settleMsc line).mscRead st on _ false false).2.1 sec (by rw [miss, if_pos rfl]; exact b.read h on sec st miss)
/-- A line that is placed is found. -/
theorem State.diePlace_line (s : State) (stack : Nat) (l : DieLine) : (s.diePlace stack l).dieLine? l.addr = some l := by
  unfold State.diePlace State.dieLine?
  dsimp only
  split <;> simp

/-- A line placed in a die cache at rest drives nothing out that waits. -/
theorem State.AtRest.diePlace (r : s.AtRest) (stack : Nat) {l : DieLine} (hl : l.dirty = false) : (s.diePlace stack l).AtRest := by
  unfold State.diePlace
  dsimp only
  split
  · next v hv =>
    have clean : v.dirty = false := by
      split at hv
      · exact (Option.or_eq_some_iff.1 hv).elim
          (fun e => r.die v (List.mem_of_mem_filter (List.mem_of_mem_filter (List.mem_of_mem_filter (List.mem_of_getLast? e)))))
          fun e => r.die v (List.mem_of_mem_filter (List.mem_of_mem_filter (List.mem_of_getLast? e.2)))
      · cases hv
    refine ⟨List.forall_mem_cons.2 ⟨hl, fun x hx => r.die x (List.mem_of_mem_filter (List.mem_of_mem_filter hx))⟩, r.msc, ⟨?_, r.queues.2⟩, r.ranges⟩
    simpa [clean] using r.queues.1
  · exact ⟨List.forall_mem_cons.2 ⟨hl, fun x hx => r.die x (List.mem_of_mem_filter hx)⟩, r.msc, r.queues, r.ranges⟩

theorem State.AtRest.settleMsc (r : s.AtRest) (line : Nat) : s.settleMsc line = s := by
  simp [State.settleMsc, r.queues.1]

/-- A clean line that is written back leaves, if it is to. -/
theorem State.AtRest.dieOut (r : s.AtRest) (pa : Nat) :
    (s.dieWriteBack pa true).AtRest ∧ ((stackOf pa).isSome = true → (s.dieWriteBack pa true).dieLine? (pa / 64 * 64) = none) := by
  unfold State.dieWriteBack
  dsimp only
  split
  · next l st _ e _ =>
    rw [r.die l (List.mem_of_find?_eq_some e)]
    exact ⟨⟨fun x hx => r.die x (List.mem_of_mem_filter hx), r.msc, r.queues, r.ranges⟩, fun _ => by simp [State.dieLine?]⟩
  · next none =>
    refine ⟨r, fun on => ?_⟩
    obtain ⟨⟨st, o⟩, hst⟩ := Option.isSome_iff_exists.1 on
    exact Option.eq_none_iff_forall_ne_some.2 fun l e => none l st o e hst

theorem State.AtRest.noRange (r : s.AtRest) {t : State} (a : t.apart = s.apart) (line : Nat) : t.inWriteRange line = false := by
  have cmds : t.engines.cmds = s.engines.cmds := (congrArg (·.engines.cmds) a : t.apart.engines.cmds = _)
  unfold State.inWriteRange
  rw [cmds, List.any_eq_false]
  exact fun c hc => by simp [r.ranges c hc]

/-- What is written at a home at rest, the home gives to the next read. -/
theorem State.AtRest.homePut (r : s.AtRest) (h : s.Homes .any) {pa : Nat} (on : (stackOf pa).isSome = true) (sec : InSector (pa % 64) bs)
    (bad : Bool) {p : Policy} (hp : p = .noAlloc ∨ p = .bypass ∨ p = .uncached) :
    (s.homePut pa bs bad p).Gives (pa / 64 * 64) (pa % 64) bs p := by
  have line := (stackOf_line on).1
  have ranges : (s.homePut pa bs bad p).inWriteRange (pa / 64 * 64) = false := r.noRange (State.Beside.refl s).homePut.2.2 _
  refine ⟨ranges, ?_⟩
  obtain ⟨⟨st, o⟩, hst⟩ := Option.isSome_iff_exists.1 on
  unfold State.homePut
  simp only [hst, r.noRange rfl, Bool.false_eq_true, if_false, sec.cuts, List.foldl_cons, List.foldl_nil]
  have placed : ∀ {t : State} {x : DieLine}, x.addr = pa / 64 * 64 → half x.valid (pa % 64 / 32) = true → x.Has (pa % 64) bs →
      ∃ l, (t.diePlace st x).dieLine? (pa / 64 * 64) = some l ∧ half l.valid (pa % 64 / 32) = true ∧ l.Has (pa % 64) bs :=
    fun {t x} addr hv has => ⟨x, addr ▸ t.diePlace_line st x, hv, has⟩
  rcases hp with rfl | rfl | rfl
  · cases e : s.dieLine? (pa / 64 * 64) with
    | none =>
      simp only
      rw [r.settleMsc]
      obtain ⟨below, die⟩ := r.mscWrite h line sec st bad
      refine .inr ⟨below, .inl ⟨?_, .inr trivial⟩⟩
      rw [State.dieLine?, die]
      exact e
    | some l =>
      have addr : l.addr = pa / 64 * 64 := by simpa using List.find?_some e
      have held := h.die l (List.mem_of_find?_eq_some e)
      simp only [Option.getD_some, if_true, List.filter_cons, List.filter_nil, List.any_cons, List.any_nil, Bool.or_false, List.all_cons,
        List.all_nil, Bool.and_true, anyPair_onlyPair sec.sector]
      cases hv : half l.valid (pa % 64 / 32) with
      | true =>
        simp only [if_true, List.foldl_cons, List.foldl_nil, Bool.or_true]
        exact .inl ⟨by decide, placed addr hv (LineData.has_put (held.2 (addr.symm ▸ line)).1 sec.inLine bad)⟩
      | false =>
        have rest := r.diePlace st (r.die l (List.mem_of_find?_eq_some e))
        simp only [Bool.false_eq_true, if_false, Bool.not_false, if_true, List.foldl_cons, List.foldl_nil, Bool.or_false]
        rw [rest.settleMsc]
        obtain ⟨below, die⟩ := rest.mscWrite (h.diePlace st held) line sec st bad
        refine .inr ⟨below, .inr ⟨trivial, l, ?_, hv⟩⟩
        rw [State.dieLine?, die]
        exact addr ▸ s.diePlace_line st l
  · have got : ∀ {l : DieLine} {want : Bool × Bool}, l.Held .any → l.addr = pa / 64 * 64 →
        (if want = (false, false) then (s, l.toLineData) else (((s.settleMsc (pa / 64 * 64)).mscRead st (pa / 64 * 64) want true false).1,
          l.toLineData.over ((s.settleMsc (pa / 64 * 64)).mscRead st (pa / 64 * 64) want true false).2 want)).2.data.length = 64 :=
      fun {l want} held addr => by
        have len := (held.2 (addr.symm ▸ line)).1
        split
        · exact len
        · exact LineData.data_over _ _ _ len ((h.settleMsc _).mscRead st line _ true false).2.1
    have valid : ∀ v, half (orPair v (touched (pa % 64) bs.length)) (pa % 64 / 32) = true := fun v => by
      rw [half_orPair, sec.wanted, Bool.or_true]
    cases e : s.dieLine? (pa / 64 * 64) with
    | none =>
      obtain ⟨held, addr⟩ := h.dieAt e
      simp only [reduceCtorEq, if_false]
      exact .inl ⟨by decide, placed addr (valid _) (LineData.has_put (got held addr) sec.inLine bad)⟩
    | some l =>
      obtain ⟨held, addr⟩ := h.dieAt e
      simp only [reduceCtorEq, if_false]
      exact .inl ⟨by decide, placed addr (valid _) (LineData.has_put (got held addr) sec.inLine bad)⟩
  · obtain ⟨rest, none⟩ := r.dieOut (pa / 64 * 64)
    simp only
    rw [rest.settleMsc]
    obtain ⟨below, die⟩ := rest.mscWrite (h.dieWriteBack _ _) line sec st bad
    refine .inr ⟨below, .inl ⟨?_, .inl trivial⟩⟩
    rw [State.dieLine?, die]
    have := none line.2
    rwa [Nat.mul_div_cancel _ (by decide)] at this
end

end Sys2Proof.Machine
end

section
/-! PROOFS. Caches: where a core finds bytes. In its L1, in its quad's line, or on their way home; each policy looks at some of these. -/

set_option Elab.async false

namespace Sys2Proof.Machine

section
variable {s t : State} {core line off pa : Nat} {bs : List Byte} {p : Policy}

/-! ### What stays as it is -/

/-- t has at the homes what s has, but for memory's bytes. -/
def State.SameHomes (s t : State) : Prop :=
  t.caches.dieLines = s.caches.dieLines ∧ t.caches.mscLines = s.caches.mscLines ∧ t.caches.mscQueue = s.caches.mscQueue ∧
    t.caches.bankQueue = s.caches.bankQueue ∧ t.engines.cmds = s.engines.cmds

theorem State.SameHomes.refl (s : State) : s.SameHomes s := ⟨rfl, rfl, rfl, rfl, rfl⟩

theorem State.AtRest.same (r : s.AtRest) (h : s.SameHomes t) : t.AtRest := by
  obtain ⟨h1, h2, h3, h4, h5⟩ := h
  exact ⟨h1 ▸ r.die, h2 ▸ r.msc, ⟨h3.trans r.queues.1, h4.trans r.queues.2⟩, h5 ▸ r.ranges⟩

theorem State.Gives.same (g : s.Gives line off bs p) (h : s.SameHomes t) : t.Gives line off bs p := by
  obtain ⟨h1, h2, h3, h4, h5⟩ := h
  have die : t.dieLine? line = s.dieLine? line := by rw [State.dieLine?, h1]; rfl
  have msc : t.mscAt line = s.mscAt line := by rw [State.mscAt, State.mscLine?, h2]; rfl
  have below : s.Below line off bs → t.Below line off bs := fun b => ⟨h3.trans b.settled, by rw [msc, h4]; exact b.found⟩
  refine ⟨?_, by rw [die]; exact g.found.imp_right fun ⟨b, c⟩ => ⟨below b, c⟩⟩
  unfold State.inWriteRange
  rw [h5]
  exact g.ranges

/-- A quad whose lines are clean. -/
def State.Clean (s : State) (quad : Nat) : Prop := ∀ l ∈ s.caches.quadLines, l.quad = quad → l.dirty = false

/-- A clean line goes without a write. -/
theorem State.Clean.quadOut (h : s.Clean (quadOfCore core)) (line : Nat) :
    s.SameHomes (s.quadOut (quadOfCore core) line) ∧ (s.quadOut (quadOfCore core) line).Clean (quadOfCore core) ∧
      (s.quadOut (quadOfCore core) line).caches.writeThroughs = s.caches.writeThroughs := by
  unfold State.quadOut
  split
  · exact ⟨.refl _, h, rfl⟩
  · next l e =>
    have at_ : l.quad = quadOfCore core ∧ l.addr = line := by simpa [QuadLine.at] using List.find?_some e
    have clean := h l (List.mem_of_find?_eq_some e) at_.1
    have same : s.quadWriteBack l = s := by simp [State.quadWriteBack, clean]
    rw [same]
    refine ⟨.refl _, fun x hx hq => ?_, rfl⟩
    revert hx
    show x ∈ (if l.pin.isSome then _ else _ : List QuadLine) → _
    split
    · intro hx
      obtain ⟨y, hy, rfl⟩ := List.mem_map.1 hx
      split at hq <;> rename_i hat
      · rw [if_pos hat]
      · rw [if_neg hat]
        exact h y hy hq
    · exact fun hx => h x (List.mem_of_mem_filter hx) hq

/-! ### A write on its way -/

/-- One write of a quad is on its way. -/
def State.Sent (s : State) (quad pa : Nat) (bs : List Byte) (p : Policy) : Prop :=
  ∃ w, s.caches.writeThroughs.filter (quadOfCore ·.core == quad) = [w] ∧ w.addr = pa ∧ w.data = bs ∧ w.policy = p

theorem State.sent (h : ∀ w ∈ s.caches.writeThroughs, quadOfCore w.core ≠ quadOfCore core) (on : (stackOf pa).isSome = true) :
    (s.sendWt core pa bs p).Sent (quadOfCore core) pa bs p ∧ s.SameHomes (s.sendWt core pa bs p) := by
  obtain ⟨⟨st, o⟩, hst⟩ := Option.isSome_iff_exists.1 on
  have none : s.caches.writeThroughs.filter (quadOfCore ·.core == quadOfCore core) = [] :=
    List.filter_eq_nil_iff.2 fun w hw => by simpa using h w hw
  unfold State.sendWt
  rw [hst]
  refine ⟨⟨{ core := core, stack := st, addr := pa, data := bs, policy := p }, ?_, rfl, rfl, rfl⟩, .refl _⟩
  simp only [State.onCaches_caches, List.filter_append, none, List.nil_append]
  exact List.filter_cons_of_pos (by simp)

/-- Once it is performed, its home gives its bytes. -/
theorem State.Sent.drained {quad : Nat} (w : s.Sent quad pa bs p) (r : s.AtRest) (h : s.Homes .any) (on : (stackOf pa).isSome = true)
    (sec : InSector (pa % 64) bs) (hp : p = .noAlloc ∨ p = .bypass ∨ p = .uncached) :
    (s.drainQuad quad).Gives (pa / 64 * 64) (pa % 64) bs p := by
  obtain ⟨w, e, rfl, rfl, rfl⟩ := w
  have h' : (s.onCaches fun c => { c with writeThroughs := c.writeThroughs.filter fun w => !(quadOfCore w.core == quad) }).Homes .any := { h with }
  have r' : (s.onCaches fun c => { c with writeThroughs := c.writeThroughs.filter fun w => !(quadOfCore w.core == quad) }).AtRest := r.same (.refl _)
  have := r'.homePut h' on sec false hp
  unfold State.drainQuad State.drainWts
  rw [e]
  exact this

/-! ### Reads -/

/-- What a core's L1 has of a line has the bytes. -/
def State.Near (s : State) (core line off : Nat) (bs : List Byte) : Prop := ∀ l ∈ s.caches.l1, l.at core line = true → l.Has off bs

theorem State.Near.found (h : s.Near core line off bs) {l : L1Line} (e : s.l1Line? core line = some l) : l.Has off bs :=
  h l (List.mem_of_find?_eq_some e) (List.find?_some e)

theorem State.Near.fewer (h : s.Near core line off bs) (sub : ∀ l ∈ t.caches.l1, l ∈ s.caches.l1) : t.Near core line off bs :=
  fun l hl => h l (sub l hl)

/-- An L1's line that is filled from one that has them has them. -/
theorem State.Near.filled {q : QuadLine} (n : s.Near core q.addr off bs) (h : s.Within .any (quadOfCore core)) (on : OnStack q.addr)
    (sec : InSector off bs) (held : q.Held .any) (has : q.Has off bs) : (s.l1Filled core q).Has off bs := by
  unfold State.l1Filled
  split
  · next l e =>
    obtain ⟨lh, -, addr⟩ := h.l1Line rfl e
    refine LineData.Has.sectors (lh (addr.symm ▸ on)).1 (held.2 on).1 sec ?_
    split
    · exact has
    · exact n.found e
  · exact has

/-- A core reads a line that its quad holds. -/
theorem State.Near.read (n : s.Near core (pa / 64 * 64) (pa % 64) bs) (h : s.Within .any (quadOfCore core)) (on : (stackOf pa).isSome = true)
    (sec : InSector (pa % 64) bs) {q : QuadLine} (e : s.quadHit (quadOfCore core) (pa / 64 * 64) (touched (pa % 64) bs.length) = some q)
    (has : q.Has (pa % 64) bs) (priv : Bool) (hp : p = .normal ∨ p = .keep) : (s.quadRead core pa bs.length priv p).2.1 = bs := by
  have line := (stackOf_line on).1
  obtain ⟨held, -, addr, -⟩ := h.quadHit e
  obtain ⟨fh, fa, -⟩ := h.l1Filled rfl held
  have lineQ : OnStack q.addr := addr.symm ▸ line
  have filled : (s.l1Filled core q).slice (pa % 64) bs.length = bs :=
    LineData.Has.slice ((addr.symm ▸ n : s.Near core q.addr (pa % 64) bs).filled h lineQ sec held has) (fh (fa.symm ▸ lineQ)).1 sec.inLine
  unfold State.quadRead State.quadGet
  dsimp only
  rw [e]
  rcases hp with rfl | rfl
  · simp only [reduceCtorEq, if_false]
    split
    · next l hit =>
      obtain ⟨found, -⟩ := Option.filter_eq_some_iff.1 hit
      obtain ⟨lh, -, la⟩ := h.l1Line rfl found
      exact LineData.Has.slice (n.found found) (lh (la.symm ▸ line)).1 sec.inLine
    · exact filled
  · exact filled

/-- What a read that allocates nowhere takes from the home, if it wants any of it. -/
def State.missed (s : State) (quad line : Nat) (miss : Bool × Bool) : State × LineData :=
  if anyPair miss then (s.drainQuad quad).homeLine line miss .noAlloc else (s, {})

theorem State.Within.missed {C : Content} {quad : Nat} (h : s.Within C quad) (on : OnStack line) (miss : Bool × Bool) :
    (s.missed quad line miss).2.data.length = 64 := by
  unfold State.missed
  split
  · exact (h.drainQuad.homeLine on _ _).2.1
  · rfl

theorem State.Sent.missed {quad : Nat} (w : s.Sent quad pa bs .noAlloc) (h : s.Within .any quad) (r : s.AtRest)
    (on : (stackOf pa).isSome = true) (sec : InSector (pa % 64) bs) {miss : Bool × Bool} (hm : half miss (pa % 64 / 32) = true) :
    (s.missed quad (pa / 64 * 64) miss).2.Has (pa % 64) bs := by
  have any : anyPair miss = true := by
    by_contra none
    obtain rfl : miss = (false, false) := by simpa [anyPair, Prod.ext_iff] using none
    simp at hm
  rw [State.missed, if_pos any]
  exact (w.drained r h.homes on sec (.inl rfl)).read h.drainQuad.homes (stackOf_line on).1 sec hm

/-- A quad has bytes in a line's valid sector, or they are on their way home. -/
def State.Findable (s : State) (quad pa : Nat) (bs : List Byte) : Prop :=
  (∃ q, s.quadLine? quad (pa / 64 * 64) = some q ∧ half q.valid (pa % 64 / 32) = true ∧ q.Has (pa % 64) bs) ∨
    (s.Sent quad pa bs .noAlloc ∧ ∀ q, s.quadLine? quad (pa / 64 * 64) = some q → half q.valid (pa % 64 / 32) = false)

/-- A read that allocates nowhere finds bytes in the L1, in the quad's line, or, once they are written there, at the home. -/
theorem State.Near.readThrough (n : s.Near core (pa / 64 * 64) (pa % 64) bs) (h : s.Within .any (quadOfCore core)) (r : s.AtRest)
    (on : (stackOf pa).isSome = true) (sec : InSector (pa % 64) bs)
    (found : s.Findable (quadOfCore core) pa bs) :
    (s.readThrough (some core) (quadOfCore core) (pa / 64 * 64) (touched (pa % 64) bs.length)).2.Has (pa % 64) bs := by
  have line := (stackOf_line on).1
  have len : ∀ miss, (s.missed (quadOfCore core) (pa / 64 * 64) miss).2.data.length = 64 := fun miss => h.missed line miss
  -- The home's part, where the bytes stand neither in the L1 nor in the quad's line.
  have home : ∀ {v u : Bool × Bool}, half v (pa % 64 / 32) = false → half u (pa % 64 / 32) = false →
      (∀ q, s.quadLine? (quadOfCore core) (pa / 64 * 64) = some q → half q.valid (pa % 64 / 32) = false) →
      (s.missed (quadOfCore core) (pa / 64 * 64) (lessPair (lessPair (touched (pa % 64) bs.length) v) u)).2.Has (pa % 64) bs :=
    fun {v u} hv hu none => by
      rcases found with ⟨q, e, hq, -⟩ | ⟨sent, -⟩
      · exact absurd hq (by simp [none q e])
      · exact sent.missed h r on sec (by simp [sec.wanted, hv, hu])
  have near : ∀ {l : L1Line} {d : LineData}, s.l1Line? core (pa / 64 * 64) = some l → d.data.length = 64 →
      (half l.valid (pa % 64 / 32) = false → d.Has (pa % 64) bs) → (d.over l.toLineData l.valid).Has (pa % 64) bs := fun {l d} e hd hl => by
    obtain ⟨held, -, addr⟩ := h.l1Line rfl e
    refine LineData.Has.sectors hd (held (addr.symm ▸ line)).1 sec ?_
    split
    · exact n.found e
    · next hv => exact hl (by simpa using hv)
  unfold State.readThrough
  simp only [Option.bind_some]
  cases e : s.quadLine? (quadOfCore core) (pa / 64 * 64) with
  | none =>
    have none : ∀ q, s.quadLine? (quadOfCore core) (pa / 64 * 64) = some q → half q.valid (pa % 64 / 32) = false := by simp [e]
    cases e1 : s.l1Line? core (pa / 64 * 64) with
    | none => exact home (half_false _) (half_false _) none
    | some l => exact near e1 (len _) fun hv => home hv (half_false _) none
  | some q =>
    have lenQ := ((h.quadLine e).1.2 ((h.quadLine e).2.2.symm ▸ line)).1
    have mine : ∀ {v : Bool × Bool}, half v (pa % 64 / 32) = false → ((s.missed (quadOfCore core) (pa / 64 * 64)
        (lessPair (lessPair (touched (pa % 64) bs.length) v) q.valid)).2.over q.toLineData q.valid).Has (pa % 64) bs := fun {v} hv => by
      refine LineData.Has.sectors (len _) lenQ sec ?_
      split
      · next hq =>
        rcases found with ⟨q', e', -, has⟩ | ⟨-, none⟩
        · obtain rfl : q = q' := Option.some.inj (e.symm.trans e')
          exact has
        · exact absurd hq (by simp [none q e])
      · next hq =>
        refine home hv (by simpa using hq) fun q' e' => ?_
        obtain rfl : q = q' := Option.some.inj (e.symm.trans e')
        simpa using hq
    cases e1 : s.l1Line? core (pa / 64 * 64) with
    | none => exact mine (half_false _)
    | some l => exact near e1 (LineData.data_over _ _ _ (len _) lenQ) mine

/-- A core reads past its quad's cache. -/
theorem State.Sent.read (w : s.Sent (quadOfCore core) pa bs p) (h : s.Within .any (quadOfCore core)) (r : s.AtRest)
    (c : s.Clean (quadOfCore core)) (on : (stackOf pa).isSome = true) (sec : InSector (pa % 64) bs) (priv : Bool)
    (hp : p = .bypass ∨ p = .uncached) : (s.quadRead core pa bs.length priv p).2.1 = bs := by
  have line := (stackOf_line on).1
  have given := w.drained r h.homes on sec (.inr hp)
  have drained := h.drainQuad
  have clean : (s.drainQuad (quadOfCore core)).Clean (quadOfCore core) := by
    unfold State.Clean
    rw [State.drainQuad, State.drainWts_lines]
    exact c
  have out : (s.drainQuad (quadOfCore core)).quadDrop (quadOfCore core) (pa / 64 * 64) =
      (s.drainQuad (quadOfCore core)).quadOut (quadOfCore core) (pa / 64 * 64) := by
    unfold State.quadDrop
    rw [drained.noUpdates fun d hd => by simp_all]
  have dropped := drained.quadOut (pa / 64 * 64)
  have has := (given.same (clean.quadOut (pa / 64 * 64)).1).read dropped.homes line sec sec.wanted
  have len := (dropped.homeLine line (touched (pa % 64) bs.length) p).2.1
  have read : (s.quadRead core pa bs.length priv p).2.1 =
      ((((s.drainQuad (quadOfCore core)).quadOut (quadOfCore core) (pa / 64 * 64)).homeLine (pa / 64 * 64)
        (touched (pa % 64) bs.length) p).2.slice (pa % 64) bs.length) := by
    rw [← out]
    rcases hp with rfl | rfl <;> rfl
  rw [read]
  exact has.slice len sec.inLine

/-- A core reads bytes of one sector under a policy: where the policy looks, they are found. -/
def State.Readable (s : State) (core pa : Nat) (bs : List Byte) : Policy → Prop
  | .normal | .keep => s.Near core (pa / 64 * 64) (pa % 64) bs ∧
      ∃ q, s.quadHit (quadOfCore core) (pa / 64 * 64) (touched (pa % 64) bs.length) = some q ∧ q.Has (pa % 64) bs
  | .noAlloc => s.Near core (pa / 64 * 64) (pa % 64) bs ∧ s.AtRest ∧ s.Findable (quadOfCore core) pa bs
  | .bypass => s.AtRest ∧ s.Clean (quadOfCore core) ∧ s.Sent (quadOfCore core) pa bs .bypass
  | .uncached => s.AtRest ∧ s.Clean (quadOfCore core) ∧ s.Sent (quadOfCore core) pa bs .uncached

theorem State.Readable.read (f : s.Readable core pa bs p) (h : s.Within .any (quadOfCore core)) (on : (stackOf pa).isSome = true)
    (sec : InSector (pa % 64) bs) (priv : Bool) : (s.quadRead core pa bs.length priv p).2.1 = bs := by
  have line := (stackOf_line on).1
  cases p with
  | normal =>
    obtain ⟨near, q, e, has⟩ := f
    exact near.read h on sec e has priv (.inl rfl)
  | keep =>
    obtain ⟨near, q, e, has⟩ := f
    exact near.read h on sec e has priv (.inr rfl)
  | noAlloc =>
    obtain ⟨near, rest, found⟩ := f
    exact LineData.Has.slice (near.readThrough h rest on sec found)
      (h.readThrough (core := core) rfl line (touched (pa % 64) bs.length)).2.1 sec.inLine
  | bypass =>
    obtain ⟨rest, clean, sent⟩ := f
    exact sent.read h rest clean on sec priv (.inl rfl)
  | uncached =>
    obtain ⟨rest, clean, sent⟩ := f
    exact sent.read h rest clean on sec priv (.inr rfl)
end

end Sys2Proof.Machine
end

section
/-! PROOFS. Caches: what a core reads back. The bytes of one sector that a core writes under a policy, its quad at rest, are what it then
reads there under the same policy. -/

set_option Elab.async false

namespace Sys2Proof.Machine

section
variable {s t : State} {core line off pa : Nat} {bs : List Byte} {p : Policy} {C : Content} {quad : Nat}

/-! ### L1s under a fill -/

theorem State.Within.quadDrop_eq (h : s.Within C quad) (line : Nat) : s.quadDrop quad line = s.quadOut quad line := by
  unfold State.quadDrop
  rw [h.noUpdates fun d hd => by simp_all]

theorem State.quadWriteBack_l1 (l : QuadLine) : (s.quadWriteBack l).caches.l1 = s.caches.l1 := by
  have one : ∀ {t : State} {b : Bool} {pa : Nat} {bs : List Byte} {bad : Bool}, s.Above t →
      s.Above (if b then t.homePut pa bs bad .normal else t) := fun {t b pa bs bad} h => by
    split
    · exact h.homePut
    · exact h
  unfold State.quadWriteBack
  split
  · exact (one (one (.refl s))).2.1
  · rfl

theorem State.quadOut_l1 (quad line : Nat) : ∀ l ∈ (s.quadOut quad line).caches.l1, l ∈ s.caches.l1 := by
  unfold State.quadOut
  split
  · exact fun l hl => List.mem_of_mem_filter hl
  · next q _ =>
    intro l hl
    exact State.quadWriteBack_l1 q ▸ List.mem_of_mem_filter hl

/-- A fill of a quad's cache puts nothing in an L1. -/
theorem State.Within.quadFill_l1 (h : s.Within C quad) (line : Nat) (want : Bool × Bool) (priv : Bool) (p : Policy) :
    ∀ l ∈ (s.quadFill quad line want priv p).caches.l1, l ∈ s.caches.l1 := by
  have drained : (s.drainQuad quad).caches.l1 = s.caches.l1 := (s.drainWts_above _).2.1
  have room : ∀ l ∈ ((s.drainQuad quad).quadRoom quad line).caches.l1, l ∈ s.caches.l1 := by
    unfold State.quadRoom
    split
    · rw [h.drainQuad.quadDrop_eq, ← drained]
      exact State.quadOut_l1 _ _
    · rw [drained]
      exact fun _ => id
  rw [State.quadFill_eq]
  dsimp only
  unfold State.askHome
  split
  · have := ((State.Above.refl ((s.drainQuad quad).quadRoom quad line)).homeLine (line := line) (want := lessPair want
      (((s.drainQuad quad).quadRoom quad line).quadAt quad line).valid) (p := p.below)).2.1
    intro l hl
    exact room l (this ▸ hl)
  · exact room

/-! ### Writes of a core -/

/-- A quad at rest: it holds no dirty line, nothing of it is on its way, and the homes are at rest. -/
structure State.Still (s : State) (quad : Nat) : Prop where
  rest : s.AtRest
  clean : s.Clean quad
  writes : ∀ w ∈ s.caches.writeThroughs, quadOfCore w.core ≠ quad

/-- What the write of a core leaves in the L1s of its quad: its own copies have the bytes. -/
def State.owned (s : State) (core line off : Nat) (bs : List Byte) : State :=
  (s.l1Drop (quadOfCore core) line (some core)).l1Write core line off bs

theorem State.Within.owned (h : s.Within .any (quadOfCore core)) (put : PutsAt .any pa bs false) :
    (s.owned core (pa / 64 * 64) (pa % 64) bs).Within .any (quadOfCore core) := (h.l1Drop _ _ _).l1Write put.2

theorem State.Still.owned (h : s.Still (quadOfCore core)) : (s.owned core line off bs).Still (quadOfCore core) :=
  ⟨h.rest.same (.refl s), h.clean, h.writes⟩

theorem State.Within.near (h : s.Within .any (quadOfCore core)) (on : OnStack line) (inLine : off + bs.length ≤ 64) :
    (s.owned core line off bs).Near core line off bs := by
  intro l hl hat
  obtain ⟨y, hy, rfl⟩ := List.mem_map.1 hl
  by_cases e : y.at core line = true
  · rw [if_pos e]
    have at_ : y.core = core ∧ y.addr = line := by simpa [L1Line.at] using e
    exact LineData.has_put (h.quads.l1 y (List.mem_of_mem_filter hy) (at_.1 ▸ rfl) (at_.2.symm ▸ on)).1 inLine false
  · rw [if_neg e] at hat
    exact absurd hat e

theorem State.sendWt_lines (s : State) (core pa : Nat) (bs : List Byte) (p : Policy) :
    (s.sendWt core pa bs p).caches.l1 = s.caches.l1 ∧ (s.sendWt core pa bs p).caches.quadLines = s.caches.quadLines := by
  unfold State.sendWt
  split <;> exact ⟨rfl, rfl⟩

theorem State.quadLine?_congr (h : t.caches.quadLines = s.caches.quadLines) : t.quadLine? quad line = s.quadLine? quad line := by
  rw [State.quadLine?, h]
  rfl

/-- A line that is used is what its quad finds. -/
theorem State.quadUse_line (s : State) {q : QuadLine} (keep : Bool) (hq : q.quad = quad) (ha : q.addr = line) :
    (s.quadUse q keep).quadLine? quad line = some { q with kept := q.kept || keep } := by
  subst hq ha
  exact s.quadFront_line rfl rfl

/-- A quad with a line to write bytes of, the sectors that they leave in part filled. -/
def State.fetched (s : State) (core pa n : Nat) (priv : Bool) (p : Policy) : State :=
  if (s.quadHit (quadOfCore core) (pa / 64 * 64) (touched (pa % 64) n)).isSome then s
  else s.quadFill (quadOfCore core) (pa / 64 * 64) (lessPair (touched (pa % 64) n) (covered (pa % 64) n)) priv p

theorem State.fetched_line (s : State) (core pa n : Nat) (priv : Bool) (p : Policy) :
    ∃ l, (s.fetched core pa n priv p).quadLine? (quadOfCore core) (pa / 64 * 64) = some l := by
  unfold State.fetched
  split
  · next hit =>
    obtain ⟨l, e⟩ := Option.isSome_iff_exists.1 hit
    exact ⟨l, (Option.filter_eq_some_iff.1 e).1⟩
  · exact (s.quadFill_line _ _ _ _ _).imp fun _ h => h.1

theorem State.Within.fetched (h : s.Within C (quadOfCore core)) (on : (stackOf pa).isSome = true) (n : Nat) (priv : Bool) (p : Policy) :
    (s.fetched core pa n priv p).Within C (quadOfCore core) ∧ ∀ l ∈ (s.fetched core pa n priv p).caches.l1, l ∈ s.caches.l1 := by
  unfold State.fetched
  split
  · exact ⟨h, fun _ => id⟩
  · exact ⟨h.quadFill (stackOf_line on).1 _ _ _, h.quadFill_l1 _ _ _ _⟩

/-- A line of a quad's cache with bytes that a core wrote. -/
def QuadLine.written (l : QuadLine) (off : Nat) (bs : List Byte) (priv : Bool) : QuadLine :=
  { l with toLineData := l.put off bs false, valid := orPair l.valid (touched off bs.length), dirty := l.dirty || priv }

/-- A write under a policy that allocates. -/
theorem State.quadWrite_allocated (hp : p = .normal ∨ p = .keep) (priv : Bool) {l : QuadLine}
    (e : ((s.owned core (pa / 64 * 64) (pa % 64) bs).fetched core pa bs.length priv p).quadLine? (quadOfCore core) (pa / 64 * 64) = some l) :
    s.quadWrite core pa bs priv p =
      let t := ((s.owned core (pa / 64 * 64) (pa % 64) bs).fetched core pa bs.length priv p).quadUse (l.written (pa % 64) bs priv) (p == .keep)
      if priv then t else t.sendWt core pa bs p := by
  unfold State.fetched State.owned at e ⊢
  unfold State.quadWrite
  rcases hp with rfl | rfl
  · simp only at e ⊢
    rw [e]
    rfl
  · simp only at e ⊢
    rw [e]
    rfl

/-- What is written under a policy that allocates stands in the quad's line and in the L1. -/
theorem State.Within.readable_allocated (h : s.Within .any (quadOfCore core)) (put : PutsAt .any pa bs false) (sec : InSector (pa % 64) bs)
    (priv : Bool) (hp : p = .normal ∨ p = .keep) : (s.quadWrite core pa bs priv p).Near core (pa / 64 * 64) (pa % 64) bs ∧
      ∃ q, (s.quadWrite core pa bs priv p).quadHit (quadOfCore core) (pa / 64 * 64) (touched (pa % 64) bs.length) = some q ∧
        q.Has (pa % 64) bs := by
  have line := (stackOf_line put.1).1
  obtain ⟨l, e⟩ := (s.owned core (pa / 64 * 64) (pa % 64) bs).fetched_line core pa bs.length priv p
  obtain ⟨within, fewer⟩ := (h.owned put).fetched put.1 bs.length priv p
  obtain ⟨held, lq, la⟩ := within.quadLine e
  rw [State.quadWrite_allocated hp priv e]
  generalize (s.owned core (pa / 64 * 64) (pa % 64) bs).fetched core pa bs.length priv p = r at *
  dsimp only
  have near : r.Near core (pa / 64 * 64) (pa % 64) bs := (h.near line sec.inLine).fewer fewer
  have lines := r.quadUse_line (q := l.written (pa % 64) bs priv) (p == .keep) lq la
  have hit : ∀ t : State, t.caches.l1 = r.caches.l1 → t.caches.quadLines = (r.quadUse (l.written (pa % 64) bs priv) (p == .keep)).caches.quadLines →
      t.Near core (pa / 64 * 64) (pa % 64) bs ∧
        ∃ q, t.quadHit (quadOfCore core) (pa / 64 * 64) (touched (pa % 64) bs.length) = some q ∧ q.Has (pa % 64) bs := fun t h1 h2 => by
    refine ⟨near.fewer fun x hx => h1 ▸ hx, { l.written (pa % 64) bs priv with kept := l.kept || p == .keep }, ?_, LineData.has_put (held.2 (la.symm ▸ line)).1 sec.inLine false⟩
    rw [State.quadHit, State.quadLine?, h2]
    refine Option.filter_eq_some_iff.2 ⟨lines, beq_iff_eq.2 (pair_none.2 fun i _ => ?_)⟩
    simp only [QuadLine.written, half_lessPair, half_orPair]
    cases half (touched (pa % 64) bs.length) i <;> simp
  cases priv
  · exact hit _ (State.sendWt_lines _ _ _ _ _).1 (State.sendWt_lines _ _ _ _ _).2
  · exact hit _ rfl rfl

/-- A line of a quad's cache whose valid bytes a core wrote. -/
def QuadLine.updated (l : QuadLine) (off : Nat) (bs : List Byte) (priv : Bool) : QuadLine :=
  { l with toLineData := l.put off bs false, dirty := l.dirty || priv }

/-- A write under the policy that allocates nowhere, of a line that the quad has not. -/
theorem State.quadWrite_absent (priv : Bool)
    (e : (s.owned core (pa / 64 * 64) (pa % 64) bs).quadLine? (quadOfCore core) (pa / 64 * 64) = none) :
    s.quadWrite core pa bs priv .noAlloc = (s.owned core (pa / 64 * 64) (pa % 64) bs).sendWt core pa bs .noAlloc := by
  unfold State.owned at e ⊢
  unfold State.quadWrite
  dsimp only
  rw [e]

/-- A write of one sector under the policy that allocates nowhere, of a line that the quad has. -/
theorem State.quadWrite_present (sec : InSector (pa % 64) bs) (priv : Bool) {l : QuadLine}
    (e : (s.owned core (pa / 64 * 64) (pa % 64) bs).quadLine? (quadOfCore core) (pa / 64 * 64) = some l) :
    s.quadWrite core pa bs priv .noAlloc =
      let r := s.owned core (pa / 64 * 64) (pa % 64) bs
      if half l.valid (pa % 64 / 32) then
        let t := r.quadUse (l.updated (pa % 64) bs priv) false
        if priv then t else t.sendWt core pa bs .noAlloc
      else r.sendWt core pa bs .noAlloc := by
  have back : pa / 64 * 64 + pa % 64 = pa := by omega
  unfold State.owned at e ⊢
  unfold State.quadWrite
  dsimp only
  rw [e]
  simp only [sec.cuts, List.filter_cons, List.filter_nil, List.any_cons, List.any_nil, Bool.or_false, anyPair_onlyPair sec.sector]
  cases half l.valid (pa % 64 / 32)
  · simp [back]
  · simp [QuadLine.updated]

/-- A write of a quad at rest that is sent home is on its way; what stands in the caches stays. -/
theorem State.Still.sendWt (h : s.Still (quadOfCore core)) (on : (stackOf pa).isSome = true) (p : Policy) :
    (s.sendWt core pa bs p).AtRest ∧ (s.sendWt core pa bs p).Sent (quadOfCore core) pa bs p ∧
      (s.sendWt core pa bs p).caches.l1 = s.caches.l1 ∧ (s.sendWt core pa bs p).caches.quadLines = s.caches.quadLines := by
  obtain ⟨sent, same⟩ := State.sent h.writes on (bs := bs) (p := p)
  exact ⟨h.rest.same same, sent, s.sendWt_lines core pa bs p⟩

/-- What is written under the policy that allocates nowhere stands in the quad's line, if that has its sector, and else is on its way. -/
theorem State.Within.readable_noAlloc (h : s.Within .any (quadOfCore core)) (st : s.Still (quadOfCore core)) (put : PutsAt .any pa bs false)
    (sec : InSector (pa % 64) bs) (priv : Bool) : (s.quadWrite core pa bs priv .noAlloc).Near core (pa / 64 * 64) (pa % 64) bs ∧
      (s.quadWrite core pa bs priv .noAlloc).AtRest ∧ (s.quadWrite core pa bs priv .noAlloc).Findable (quadOfCore core) pa bs := by
  have line := (stackOf_line put.1).1
  have own := h.owned put
  have near := h.near line sec.inLine
  have still := st.owned (line := pa / 64 * 64) (off := pa % 64) (bs := bs)
  -- Sent home, where no line of the quad has its sector.
  have away : (∀ q, (s.owned core (pa / 64 * 64) (pa % 64) bs).quadLine? (quadOfCore core) (pa / 64 * 64) = some q →
      half q.valid (pa % 64 / 32) = false) → ((s.owned core (pa / 64 * 64) (pa % 64) bs).sendWt core pa bs .noAlloc).Near core
        (pa / 64 * 64) (pa % 64) bs ∧ ((s.owned core (pa / 64 * 64) (pa % 64) bs).sendWt core pa bs .noAlloc).AtRest ∧
        ((s.owned core (pa / 64 * 64) (pa % 64) bs).sendWt core pa bs .noAlloc).Findable (quadOfCore core) pa bs := fun hq => by
    obtain ⟨rest, sent, l1, lines⟩ := still.sendWt put.1 .noAlloc (bs := bs)
    exact ⟨near.fewer fun l hl => l1 ▸ hl, rest, .inr ⟨sent, fun q e => hq q ((State.quadLine?_congr lines).symm.trans e)⟩⟩
  cases e : (s.owned core (pa / 64 * 64) (pa % 64) bs).quadLine? (quadOfCore core) (pa / 64 * 64) with
  | none =>
    rw [State.quadWrite_absent priv e]
    exact away (by simp [e])
  | some l =>
    rw [State.quadWrite_present sec priv e]
    obtain ⟨held, lq, la⟩ := own.quadLine e
    dsimp only
    split
    · next hv =>
      have used := (s.owned core (pa / 64 * 64) (pa % 64) bs).quadUse_line
        (q := l.updated (pa % 64) bs priv) false lq la
      have has := LineData.has_put (held.2 (la.symm ▸ line)).1 sec.inLine false
      split
      · exact ⟨near, still.rest.same (.refl _), .inl ⟨_, used, hv, has⟩⟩
      · obtain ⟨l1, lines⟩ := State.sendWt_lines ((s.owned core (pa / 64 * 64) (pa % 64) bs).quadUse
          (l.updated (pa % 64) bs priv) false) core pa bs .noAlloc
        have same := (State.sent (s := (s.owned core (pa / 64 * 64) (pa % 64) bs).quadUse
          (l.updated (pa % 64) bs priv) false) still.writes put.1 (bs := bs) (p := .noAlloc)).2
        exact ⟨near.fewer fun x hx => l1 ▸ hx, still.rest.same same, .inl ⟨_, (State.quadLine?_congr lines).trans used, hv, has⟩⟩
    · next hv =>
      refine away fun q hq => ?_
      obtain rfl : l = q := Option.some.inj (e.symm.trans hq)
      simpa using hv

/-- What is written past the quad's cache is on its way. -/
theorem State.Within.readable_past (h : s.Within .any (quadOfCore core)) (st : s.Still (quadOfCore core)) (put : PutsAt .any pa bs false)
    (priv : Bool) (hp : p = .bypass ∨ p = .uncached) : (s.quadWrite core pa bs priv p).AtRest ∧
      (s.quadWrite core pa bs priv p).Clean (quadOfCore core) ∧ (s.quadWrite core pa bs priv p).Sent (quadOfCore core) pa bs p := by
  have still := st.owned (line := pa / 64 * 64) (off := pa % 64) (bs := bs)
  obtain ⟨same, clean, writes⟩ := still.clean.quadOut (pa / 64 * 64)
  have out : ((s.owned core (pa / 64 * 64) (pa % 64) bs).quadOut (quadOfCore core) (pa / 64 * 64)).Still (quadOfCore core) :=
    ⟨still.rest.same same, clean, fun w hw => still.writes w (writes ▸ hw)⟩
  have eq : s.quadWrite core pa bs priv p =
      ((s.owned core (pa / 64 * 64) (pa % 64) bs).quadOut (quadOfCore core) (pa / 64 * 64)).sendWt core pa bs p := by
    rw [← (h.owned put).quadDrop_eq]
    rcases hp with rfl | rfl <;> rfl
  obtain ⟨rest, sent, -, lines⟩ := out.sendWt put.1 p (bs := bs)
  rw [eq]
  exact ⟨rest, fun l hl => clean l (lines ▸ hl), sent⟩

/-- What a core writes it can read, under the same policy. -/
theorem State.Within.readable (h : s.Within .any (quadOfCore core)) (st : s.Still (quadOfCore core)) (put : PutsAt .any pa bs false)
    (sec : InSector (pa % 64) bs) (priv : Bool) (p : Policy) : (s.quadWrite core pa bs priv p).Readable core pa bs p := by
  cases p with
  | normal => exact h.readable_allocated put sec priv (.inl rfl)
  | keep => exact h.readable_allocated put sec priv (.inr rfl)
  | noAlloc => exact h.readable_noAlloc st put sec priv
  | bypass => exact h.readable_past st put priv (.inl rfl)
  | uncached => exact h.readable_past st put priv (.inr rfl)

/-! ### Reads and writes of mappings -/

theorem PutsAt.any {pa : Nat} {bs : List Byte} (on : (stackOf pa).isSome = true) (line : pa % 64 + bs.length ≤ 64) : PutsAt .any pa bs false :=
  ⟨on, line, fun _ _ => trivial, fun _ _ _ _ _ _ => trivial, fun _ _ _ => trivial⟩

/-- A scratchpad without errors is read as it stands. -/
theorem State.scratchRead_eq (h : s.latentWords = []) (pa n : Nat) : s.scratchRead pa n = (s, s.peek pa n, s.peekPoison pa n) := by
  rw [State.scratchRead, State.scratchMeet, State.meetWords_none h]

/-- A core can read bytes at a mapping. -/
def State.CanRead (s : State) (core : Nat) (m : Mapping) (bs : List Byte) (cp : Nat) : Prop :=
  match m.home with
  | .stack _ => s.Within .any (quadOfCore core) ∧ s.Readable core m.pa bs (policyOf m.cpol cp)
  | _ => s.latentWords = [] ∧ s.peek m.pa bs.length = bs

theorem State.CanRead.read {m : Mapping} {cp : Nat} (h : s.CanRead core m bs cp) (placed : m.Placed) (sec : InSector (m.pa % 64) bs) :
    (s.coreRead core m bs.length cp).2.1 = bs := by
  unfold Mapping.Placed at placed
  unfold State.CanRead at h
  unfold State.coreRead
  split at placed
  · next e =>
    simp only [e] at h ⊢
    obtain ⟨within, found⟩ := h
    rw [within.applyFor rfl]
    exact found.read within placed sec _
  · next e =>
    simp only [e] at h ⊢
    rw [State.scratchRead_eq h.1]
    exact h.2
  · exact placed.elim

/-- What a core writes at a mapping in this part it can read there. -/
theorem State.Within.coreWrite_canRead (h : s.Within .any (quadOfCore core)) (st : s.Still (quadOfCore core)) {m : Mapping}
    (placed : m.Placed) (sec : InSector (m.pa % 64) bs) (cp : Nat) : (s.coreWrite core m bs cp).CanRead core m bs cp := by
  unfold Mapping.Placed at placed
  unfold State.CanRead State.coreWrite
  split at placed
  · next e =>
    have put := PutsAt.any placed sec.inLine
    simp only [e]
    rw [h.applyFor rfl]
    exact ⟨h.quadWrite rfl put _ _, h.readable st put sec _ _⟩
  · next e =>
    simp only [e]
    obtain ⟨off, -⟩ := memKey_scratch placed
    refine ⟨by rw [State.poke_eq h.homes.sound.2]; exact h.homes.sound.2, ?_⟩
    rw [State.peek, State.poke_mem, off]
    refine List.ext_getElem (by simp [Memory.getBytes_eq]) fun i hi hi' => ?_
    have := nth_getBytes (s.mem.setBytes (memKey m.pa) bs) (memKey m.pa) hi'
    rw [Memory.get_setBytes _ _ _ h.homes.ok.1, if_pos (by omega), Nat.add_sub_cancel_left] at this
    simpa [nth, List.getD_eq_getElem?_getD, hi, hi'] using this
  · exact placed.elim

end

end Sys2Proof.Machine
end

section
/-! PROOFS. Caches: the statement about stores. -/

set_option Elab.async false

namespace Sys2Proof.Machine

section
variable {s : State} {core pa : Nat} {bs : List Byte} {C : Content} {quad : Nat}

/-! ### A quad at rest -/

/-- What the statements call coherent is at rest. -/
theorem State.Coherent.still (h : s.Coherent quad) : s.Still quad :=
  ⟨⟨fun l hl => (h.die l hl).1, fun l hl => (h.msc l hl).1, h.queues, h.ranges⟩, fun l hl hq => (h.lines l hl hq).1, h.writes⟩

theorem State.Still.standUp (h : s.Still quad) : s.standUp.Still quad := ⟨{ h.rest with }, h.clean, h.writes⟩

theorem State.Still.pulled (h : s.Still quad) (p : Party) (as : List LaneAddr) : (s.pulled p as).Still quad := by
  refine List.foldlRecOn (motive := fun t : State => t.Still quad) _ _ h fun t h a _ => ?_
  unfold State.tlbPull
  split
  · exact h
  · split
    · exact ⟨{ h.rest with }, h.clean, h.writes⟩
    · exact h

theorem State.Readable.retireMem {p : Policy} (h : s.Readable core pa bs p) {i u q d rs held} :
    (s.retireMem i u q d rs held).Readable core pa bs p := by
  cases p with
  | normal => exact h
  | keep => exact h
  | noAlloc =>
    obtain ⟨near, rest, found⟩ := h
    exact ⟨near, { rest with }, found⟩
  | bypass =>
    obtain ⟨rest, sent⟩ := h
    exact ⟨{ rest with }, sent⟩
  | uncached =>
    obtain ⟨rest, sent⟩ := h
    exact ⟨{ rest with }, sent⟩

/-- A slice that retires leaves what a core can read. -/
theorem State.CanRead.retireMem {m : Mapping} {cp : Nat} (h : s.CanRead core m bs cp) {i u q d rs held} :
    (s.retireMem i u q d rs held).CanRead core m bs cp := by
  unfold State.CanRead at h ⊢
  split at h
  · exact ⟨h.1.retireMem, h.2.retireMem⟩
  · exact h

/-! ### A store of one lane -/

/-- Bytes of one line are one write. -/
theorem State.writeRuns_one (hb : bs ≠ []) {m : Mapping} (line : m.pa % 64 + bs.length ≤ 64) (cp : Nat) :
    s.writeRuns core cp [(m, bs)] = s.coreWrite core m bs cp := by
  unfold State.writeRuns
  simp [storeRuns_one hb line, State.writeMapped]

/-- A power of two up to 16 bytes, at a multiple of it, lies in one sector. -/
theorem inSector_aligned {z : StSize} (hb : bs.length = z.bytes) (h : pa % z.bytes = 0) : InSector (pa % 64) bs := by
  have size : z.bytes = 1 ∨ z.bytes = 2 ∨ z.bytes = 4 ∨ z.bytes = 8 ∨ z.bytes = 16 := by cases z <;> decide
  refine ⟨by omega, by omega, ?_, by omega⟩
  rw [hb]
  rcases size with e | e | e | e | e <;> rw [e] at h ⊢ <;> omega

variable {x : Slice} {p : Option Pfx} {z : StSize} {d : Opnd} {tr : DWord → Mapping} {as : List LaneAddr}

/-- A store of one lane is what its core then reads. -/
theorem State.Coherent.stored_read (co : s.Coherent (quadOfCore (s.env x).core)) (rel : (pfxOrder p).isRel = false) {q : LaneAddr}
    (ha : ∀ y ∈ [q], y.va.toNat % z.bytes = 0) (hr : s.Reaches x { kind := .store, wr := true } (pfxCp p) [q] tr) {i : Instr} :
    ((((s.storable x p [q]).writeRuns (s.env x).core (pfxCp p) (Machine.stored z (s.storeData x d z) tr [q])).retireMem i x.uid none .zero [] []).coreRead
      (s.env x).core (tr q.va) z.bytes (pfxCp p)).2.1 = storeBytes z (s.storeData x d z q.lane) := by
  obtain ⟨placed, line, aligned⟩ := hr.placed ha q (by simp)
  have len := s.storeData_length x d z q.lane
  have sec := inSector_aligned len aligned
  have within := (co.within (C := .any) ⟨fun _ => trivial, fun _ => trivial, trivial⟩).standUp.pulled ((s.env x).party x.uid) [q]
  have still := co.still.standUp.pulled ((s.env x).party x.uid) [q]
  have found : s.storable x p [q] = s.standUp.pulled ((s.env x).party x.uid) [q] := by simp [State.storable, rel]
  rw [found, Machine.stored, List.map_singleton, State.writeRuns_one (List.length_pos_iff.1 sec.pos) (len ▸ line)]
  have can := (within.coreWrite_canRead still placed sec (pfxCp p)).retireMem (i := i) (u := x.uid) (q := none) (d := .zero) (rs := []) (held := [])
  have := can.read placed sec
  rwa [len] at this
end

/-! ### The obligation -/

theorem maskLanes_ascending (m : BitVec 4) : (maskLanes m).Pairwise (· < ·) :=
  List.Pairwise.filter _ (by decide : lanes.Pairwise (· < ·))

/-- Settles O44: what the lanes store leaves every byte outside theirs; a lane alone reads back what it stored in its quad's caches, or on its
way home; and the runs that a scratchpad is given take each byte from the last lane that has it. -/
theorem stores : Obligations.Stores := by
  unfold Obligations.Stores
  intro s x p z d a m tr i e pair take va as bytes h ha hr rel
  have lane : ∀ {l}, l ∈ maskLanes take → (⟨l, va l, z.bytes⟩ : LaneAddr) ∈ as := fun hl => List.mem_map_of_mem hl
  refine ⟨_, State.exec_st (as := as) rfl h ha hr rel, State.st_step h _ _ _, fun none co => ⟨fun b out => ?_, fun l only => ?_⟩,
    fun none ok home b l hl hb out => ?_⟩
  · refine co.stored_byteAt none ha hr fun ⟨q, hq, touch⟩ => ?_
    obtain ⟨l, hl, rfl⟩ := List.mem_map.1 hq
    exact out l hl touch
  · have one : as = [⟨l, va l, z.bytes⟩] := by
      show (maskLanes take).map _ = _
      rw [only]
      rfl
    rw [one] at ha hr ⊢
    exact co.stored_read none ha hr
  · obtain ⟨A, B, split⟩ := List.append_of_mem hl
    have later := maskLanes_ascending take
    rw [split, List.pairwise_append] at later
    have last : ∀ l' ∈ B, l < l' := (List.pairwise_cons.1 later.2.1).1
    refine hr.scratch_byteAt ok none ha (fun q hq => ?_) (A := A.map fun l => ⟨l, va l, z.bytes⟩) (B := B.map fun l => ⟨l, va l, z.bytes⟩)
      (q := ⟨l, va l, z.bytes⟩) ?_ hb (fun y hy => ?_) _
    · obtain ⟨l, hl, rfl⟩ := List.mem_map.1 hq
      exact home l hl
    · show (maskLanes take).map _ = _
      rw [split]
      simp [va, pair]
    · obtain ⟨l', hl', rfl⟩ := List.mem_map.1 hy
      exact out l' (split ▸ by simp [hl']) (last l' hl')

end Sys2Proof.Machine
end

section
/-! PROOFS. Atomics: the statement fails where a quad cache lists a line twice. -/

namespace Sys2Proof.Machine

/-! ### A line listed twice (R107, R113, R114)

One slice with one active lane runs on core 0. The page at its address is quad-private and homed in stack 0. The quad cache lists the
line twice, the second time with valid sectors, so that the L1's copy lies under a line of its quad as `State.Coherent` asks; but an
access finds the first, which has none. ATOM under policy no-allocate then goes home (R113) and leaves the L1's copy, which a read
under that policy still finds. -/

def twicePte : Nat := homedBase + 0x1CF
def twiceLine : Nat := homedBase + 0x20000
def twiceMap (va : DWord) : Mapping := { pa := homedBase + va.toNat, home := .stack 0, pte := twicePte }

def twiceSlice : Slice :=
  { uid := 1, group := 2, idx := 0, gang := 3, pc := 0x10000, masks := [1, 0, 0, 0, 0, 0, 0, 0],
    frames := [{ base := 0, demand := 1, regs := [.u 0x20000, .u 0, .u 7] ++ List.replicate 5 (.u 0) }],
    sof := List.replicate 16 (L4.ofFn fun _ => {}), lrf := List.replicate 4 (.u 0) }

def twiceState : State :=
  { State.reset with
    cur := [1], nextId := 10, slices := [twiceSlice],
    groups := [{ uid := 2, wg := 100, idx := 0, pipe := 0, place := 0, born := 0 }],
    caches :=
      { tlb := [{ unit := .die 0, ctx := 0, page := 0, log2 := 30, pte := BitVec.ofNat 64 twicePte }],
        quadLines := [{ quad := 0, addr := twiceLine, valid := (false, false), isPrivate := true },
          { quad := 0, addr := twiceLine, isPrivate := true }],
        l1 := [{ core := 0, addr := twiceLine, isPrivate := true }] } }

def twicePfx : Option Pfx := some { rm := 1 }
def twiceInstr : Instr := .atom twicePfx .addI32 (.v 4) (.v 0) (.v 2) false

/-- What core 0 reads at the address after the instruction. -/
def twiceRead (o : Host.Outcome State Fault Refusal) : List Byte :=
  match o with
  | .next t => (t.coreRead 0 (twiceMap 0x20000) 4 1).2.1
  | _ => []

/-- The access's one update. -/
def twiceUpdate : Update := { lane := 0, va := 0x20000, bytes := 4, shift := 0, b := 7, c := 0 }
def twiceAddr : LaneAddr := { lane := 0, va := 0x20000, bytes := 4 }

theorem twice_alone (srcs : List Reg) (h : srcs = [.u 0x20000, .u 0, .u 7]) : twiceState.Alone twiceInstr twiceSlice srcs 1 := by
  subst h
  exact ⟨rfl, by decide +kernel, .inl rfl, by decide +kernel, by decide +kernel, by decide +kernel, by decide +kernel⟩

theorem twice_reaches : twiceState.Reaches twiceSlice { kind := .atomic, wr := true } 1 [twiceAddr] twiceMap :=
  ⟨by decide +kernel, by decide +kernel, by decide +kernel, by decide +kernel, by decide +kernel, .inl (by decide +kernel),
    by decide +kernel⟩

/-- The caches are at rest: what they hold is clean and zero, as the bank is. -/
theorem twice_coherent : twiceState.Coherent 0 where
  canon := ⟨by decide +kernel, by decide +kernel⟩
  lines := by
    unfold LineData.Agrees
    decide +kernel
  l1 := by
    unfold LineData.Agrees
    decide +kernel
  die := by
    unfold LineData.Agrees
    decide +kernel
  msc := by
    unfold LineData.Agrees
    decide +kernel
  queues := ⟨rfl, rfl⟩
  writes := by decide +kernel
  updates := by decide +kernel
  ranges := by decide +kernel
  sound := ⟨rfl, rfl⟩

/-- Refutes O45: ATOM add.i32 under policy no-allocate adds 7 to the zero at its address at the home, since the line that its quad
cache finds there has no valid sector; the L1's copy stays, and the core then reads the old zero from it. -/
theorem not_atomics : ¬ Obligations.Atomics := by
  unfold Obligations.Atomics
  intro h
  obtain ⟨t, new, ht, -, hq⟩ := (h twiceState twiceSlice twicePfx (.v 4) (.v 0) (.v 2) false twiceMap).1 .addI32
    (twice_alone _ (by decide +kernel)) (by decide +kernel) twice_reaches (fun h => absurd rfl h) (fun h => by cases h)
  obtain ⟨-, hread, -⟩ := hq twiceUpdate (by decide +kernel) rfl twice_coherent (by decide +kernel) (.inl (by decide +kernel))
  have read : twiceRead (exec twiceInstr twiceState) = [7, 0, 0, 0] := by
    rw [show exec twiceInstr twiceState = .next t from ht]
    exact hread.trans (by decide +kernel)
  exact absurd read (by decide +kernel)

end Sys2Proof.Machine
end

section
/-! PROOFS. Memory model: BAR, the arrival of a gang at a barrier. -/

namespace Sys2Proof.Machine

/-! ### Arrival at a BAR (R134, R302, R369, R370)

Which members a round counts, which round a later arrival joins and that a scope reaches a group mate away as a guest are the model's
own readings (log 18, log 95, log 107). -/

/-- A gang may arrive at a BAR: its launch has the scope, and the scope of each of its slices takes in every live member of the round
where that member runs. -/
def State.mayArriveBar (s : State) (sc : Scope) (l : Lead) : Bool :=
  (decide (sc.rank < 3) || l.env.launch.pkt.coop) && (decide (sc ≠ .pod) || decide (l.env.launch.pkt.podCount ≠ 0)) &&
    s.curSlices.all fun x => (s.barLive (s.barRound x sc)).all fun y => (s.env x).includes (s.env y) (s.widen x sc)

/-- The gang releases at its slices' scopes, and then every slice of it arrives. -/
def State.releaseAndArrive (s : State) (sc : Scope) : State :=
  let r := s.curSlices.foldl (fun t x => t.releaseAt (t.env x) x (t.widen x sc)) s
  r.cur.foldl (State.arriveBar · sc) r

section
variable {s : State} {sc : Scope} {l : Lead}

theorem State.barApart_eq_not_all (s : State) (sc : Scope) (x : Slice) :
    s.barApart sc x = !(s.barLive (s.barRound x sc)).all fun y => (s.env x).includes (s.env y) (s.widen x sc) :=
  List.not_all_eq_any_not.symm

/-- What BAR tests before it traps is that the gang may not arrive. -/
theorem State.barRefuses_eq_not_mayArriveBar :
    (decide (3 ≤ sc.rank) && !l.env.launch.pkt.coop || sc == .pod && l.env.launch.pkt.podCount == 0 || s.curSlices.any (s.barApart sc)) =
      !s.mayArriveBar sc l := by
  have wide : decide (3 ≤ sc.rank) = !decide (sc.rank < 3) := by simp only [← Nat.not_lt, decide_not]
  have members : s.curSlices.any (s.barApart sc) =
      !s.curSlices.all fun x => (s.barLive (s.barRound x sc)).all fun y => (s.env x).includes (s.env y) (s.widen x sc) := by
    rw [List.not_all_eq_any_not, funext (s.barApart_eq_not_all sc)]
  simp only [State.mayArriveBar, wide, members, Bool.not_and, Bool.not_or, ne_eq, decide_not, Bool.not_not, beq_eq_decide]

variable (hl : s.Led (.bar sc) (fun _ _ => []) l)
include hl

/-- A gang that may not arrive traps, every slice of it. -/
theorem execBar_refused (h : s.mayArriveBar sc l = false) :
    execBar sc s = .next (s.takeTraps (s.cur.map fun u => (u, trapAt causeIllegal l.slice.pc))) := by
  simp only [execBar, State.runGang_led _ _ hl, State.barRefuses_eq_not_mayArriveBar, h, Bool.not_false, if_true]

/-- A gang that may arrive, and has nothing to wait for, does so; a slice there already whose scope leaves out one that arrives
traps. -/
theorem execBar_arrives (h : s.mayArriveBar sc l = true) (ready : ∀ x ∈ s.curSlices, s.releaseReady x (s.widen x sc) = true) :
    execBar sc s = .next (((s.releaseAndArrive sc).barLeftOut sc).foldl
      (fun t y => (t.partSlices [y.uid]).takeTrap y.uid (trapAt causeIllegal y.pc)) (s.releaseAndArrive sc)) := by
  have noWait : (s.curSlices.any fun x => !s.releaseReady x (s.widen x sc)) = false :=
    List.any_eq_false.2 fun x hx => by simp [ready x hx]
  simp only [execBar, State.runGang_led _ _ hl, State.barRefuses_eq_not_mayArriveBar, h, Bool.not_true, Bool.false_eq_true, if_false,
    noWait, State.releaseAndArrive]

end

/-- A slice that is there arrives: it waits at the BAR with the members of the round that it joins or begins (R370). -/
theorem State.arriveBar_eq (s : State) (sc : Scope) (u : Nat) :
    s.arriveBar sc u = match s.slice? u with
      | some x => s.onSlice u fun y => { (y.waiting s.clock) with status := .atBar sc, barSet := s.barRound x sc }
      | none => s := by
  unfold State.arriveBar
  cases s.slice? u <;> rfl

/-- Settles O41: a gang that may arrive is released and waits at the BAR, with the traps of those that its arrival finds left out; any
other traps. -/
theorem barrierArrival : Obligations.BarrierArrival := by
  unfold Obligations.BarrierArrival
  intro s sc l hl
  refine ⟨fun allowed ready => ?_, fun refused => execBar_refused hl refused⟩
  have arrives := execBar_arrives hl allowed ready
  simp only [State.releaseAndArrive, funext₂ fun t u => State.arriveBar_eq t sc u] at arrives
  exact arrives

end Sys2Proof.Machine
end

section
/-! PROOFS. Barrier objects: the statement fails where a workgroup stands on a core that the part does not have. -/

namespace Sys2Proof.Machine

/-! ### An object that has no place (R9 to R12, R166)

The local window of a slice names the scratchpad of its origin core (R11). The part has cores 0 to 127; in a state whose workgroup stands
on core 128 the window lies behind the last scratchpad of the physical map, at an address of no place, so that the bytes read there are
free values, and the operation uses these up. No run comes to such a state; the statement asks of its state only what it names. -/

theorem State.freeBytes_free (s : State) (n : Nat) : (s.freeBytes n).1.free = s.free + n := by
  induction n generalizing s with
  | zero => rfl
  | succ n ih =>
    refine (ih s.freeValue.2).trans ?_
    show s.free + 1 + n = s.free + (n + 1)
    omega

theorem State.post_free (s : State) (e : Event) : (s.post e).free = s.free := by
  unfold State.post
  split <;> rfl

/-- An operation on an object at an address of no place uses up sixteen free values. -/
theorem State.mbarAct_free {m : Mapping} (h : placeOf m.pa = .none) (s : State) (p : Party) (va : DWord) (engine : Bool) (gen : Option Byte)
    (f : Mbar → MbarEffect) : (s.mbarAct p va m engine gen f).free = s.free + 16 := by
  have read : (s.readMbar p.unit.core? m).1.free = s.free + 16 := by
    unfold State.readMbar State.pkgRead State.pkgReadEach
    simp only [h]
    exact s.freeBytes_free 16
  have write : ∀ (t : State) bs, t.pkgWrite p.unit.core? m.pa bs (policyOf m.cpol 0) = t := fun t bs => by
    unfold State.pkgWrite
    simp only [h]
  have op : (s.mbarOp p.unit.core? m f).1.free = s.free + 16 := by
    unfold State.mbarOp
    generalize s.readMbar p.unit.core? m = r at read
    obtain ⟨r, o⟩ := r
    cases o with
    | none => exact read
    | some o =>
      simp only [write, ite_self]
      split
      · exact read
      · exact read
  unfold State.mbarAct
  generalize s.mbarOp p.unit.core? m f = r at op
  obtain ⟨r, o⟩ := r
  cases o with
  | none =>
    dsimp only
    split
    · exact (r.post_free _).trans op
    · exact op
  | some o =>
    dsimp only
    split
    · exact (r.post_free _).trans op
    · exact op

theorem State.retireMem_free (s : State) (i : Instr) (u : Nat) (p : Option Pfx) (d : Dst) (rs held : List Reg) :
    (s.retireMem i u p d rs held).free = s.free := rfl

/-- One slice with one active lane, whose registers v0 and v1 hold the first address of its local window. -/
def strayedSlice : Slice :=
  { uid := 1, group := 2, idx := 0, gang := 3, pc := 0x10000, masks := [1, 0, 0, 0, 0, 0, 0, 0],
    frames := [{ base := 0, demand := 1, regs := [.u 0, .u 0xFE0000] ++ List.replicate 6 (.u 0) }],
    sof := List.replicate 16 (L4.ofFn fun _ => {}), lrf := List.replicate 4 (.u 0) }

def strayedState : State :=
  { State.reset with
    cur := [1], nextId := 10, slices := [strayedSlice], wgs := [{ Workgroup.none with uid := 100, core := 128, scrBytes := 4096 }],
    groups := [{ uid := 2, wg := 100, idx := 0, pipe := 0, place := 0, born := 0 }] }

def strayedMap (_ : DWord) : Mapping := { pa := scratchBase + 128 * 2 ^ 22, home := .core 128, pte := 0, window := true }
def strayedAddr : LaneAddr := { lane := 0, va := 0xFE000000000000, bytes := 16 }
def strayedInstr : Instr := .mbarInval (.v 0) false

theorem strayed_alone (srcs : List Reg) (h : srcs = [.u 0, .u 0xFE0000]) : strayedState.Alone strayedInstr strayedSlice srcs 1 := by
  subst h
  exact ⟨rfl, by decide +kernel, .inl rfl, by decide +kernel, by decide +kernel, by decide +kernel, by decide +kernel⟩

theorem strayed_reaches : strayedState.Reaches strayedSlice { kind := .atomic, wr := true } 3 [strayedAddr] strayedMap :=
  ⟨by decide +kernel, by decide +kernel, by decide +kernel, by decide +kernel, by decide +kernel, .inl (by decide +kernel),
    by decide +kernel⟩

/-- The memory's side as the object's operation finds it. -/
def strayedFound : State := strayedState.standUp.pulled ((strayedState.env strayedSlice).party 1) [strayedAddr]

theorem strayedFound_free : strayedFound.free = strayedState.free := by
  obtain ⟨c, hc⟩ := strayedState.standUp.pulled_caches ((strayedState.env strayedSlice).party 1) [strayedAddr]
  rw [strayedFound, hc]
  rfl

theorem strayed_run : exec strayedInstr strayedState =
    .next ((strayedFound.mbarAct ((strayedState.env strayedSlice).party 1) strayedAddr.va (strayedMap strayedAddr.va) false none
      Mbar.inval).retireMem strayedInstr 1 none .zero [] []) := by
  change execMbarInval (.v 0) false strayedState = _
  unfold execMbarInval State.mbarLanes State.runStore
  rw [State.runMem_alone (x := strayedSlice) (as := [strayedAddr]) (tr := strayedMap) ?addrs (strayed_alone _ (by decide +kernel)) ?aligned
    strayed_reaches rfl fun _ => rfl]
  case addrs => decide +kernel
  case aligned => decide +kernel
  rfl

/-- Refutes O56: MBAR.INVAL at an object in the local window of a slice whose workgroup stands on core 128, which the part does not have,
uses up free values, so that what no access of memory reaches is not as it was. -/
theorem not_barrierObjects : ¬ Obligations.BarrierObjects := by
  unfold Obligations.BarrierObjects
  intro h
  obtain ⟨ops, -⟩ := h strayedState strayedSlice (.v 0) (.v 0) false none 0 strayedMap rfl
  obtain ⟨t, run, kept, -⟩ := ops (strayedInstr, none, [], fun _ o => o.inval.obj) (by simp [strayedInstr])
    (strayed_alone _ (by decide +kernel)) (by decide +kernel) strayed_reaches (fun h => by cases h) (fun h => by cases h)
  have same : t.free = strayedState.free := (congrArg State.free kept : t.apart.free = strayedState.apart.free)
  obtain rfl := Host.Outcome.next.inj (strayed_run.symm.trans run)
  rw [State.retireMem_free, State.mbarAct_free (by decide +kernel), strayedFound_free] at same
  omega

end Sys2Proof.Machine
end

section
/-! PROOFS. Tiles, copies and the matrix engine: what a gang's instructions put into the engines, and the steps of what stands there. -/

namespace Sys2Proof.Machine

/-! ### Tiles (R152 to R155, R294) -/

section
variable {s : State} {d : Dst} {a b : Opnd} {h : Bool} {l : Lead}

/-- The source that a tile instruction, a batch instruction or a matrix instruction holds in the latch. -/
def State.heldOne (s : State) (a : Opnd) (h : Bool) (x : Slice) (e : Env) : List Reg := heldOf h [x.readOpnd e s.clock a]

/-- A tile that TDEF defines, from its operands' words. -/
def Workgroup.newTile (w : Workgroup) (id : Nat) (index v : Word) : Tile :=
  { id := id, core := w.core, entry := w.tileFirst + index.toNat, owner := w.slot, base := field v.toNat 0 14, size := field v.toNat 14 15 }

theorem State.exec_tdef (hl : s.Led (.tdef a b h) (fun x e => [x.readOpnd e s.clock a, x.readOpnd e s.clock b]) l)
    (hzero : field (l.word s.clock b).toNat 29 3 = 0) (hsize : field (l.word s.clock b).toNat 14 15 ≠ 0)
    (hindex : (l.word s.clock a).toNat < l.env.wg.tiles)
    (hfits : 256 * (field (l.word s.clock b).toNat 0 14 + field (l.word s.clock b).toNat 14 15) ≤ l.env.wg.scrBytes)
    (hfree : s.tileOf l.env.wg (l.word s.clock a).toNat = none)
    (hapart : ∀ t ∈ s.engines.tiles, t.core = l.env.wg.core → l.env.wg.tileFirst ≤ t.entry →
      t.entry < l.env.wg.tileFirst + l.env.wg.tiles →
      t.overlaps (field (l.word s.clock b).toNat 0 14) (field (l.word s.clock b).toNat 14 15) = false) :
    exec (.tdef a b h) s = .next ((s.fresh.2.onEngines fun g =>
      { g with tiles := g.tiles ++ [l.env.wg.newTile s.fresh.1 (l.word s.clock a) (l.word s.clock b)] }).retireGang (.tdef a b h) .zero []
        (s.heldOne a h)) := by
  have apart : (s.engines.tiles.any fun t => (t.core == l.env.wg.core && decide (l.env.wg.tileFirst ≤ t.entry) &&
      decide (t.entry < l.env.wg.tileFirst + l.env.wg.tiles)) &&
      t.overlaps (field (l.word s.clock b).toNat 0 14) (field (l.word s.clock b).toNat 14 15)) = false :=
    List.any_eq_false.2 fun t ht => by simpa [and_assoc] using hapart t ht
  change execTdef a b h s = _
  simp only [execTdef, State.runGang_led _ _ hl, hzero, hsize, hfree, apart, Nat.not_le.2 hindex, Nat.not_lt.2 hfits, ne_eq,
    not_true_eq_false, Option.isSome_none, Bool.false_eq_true, or_self, if_false]
  rfl

section
variable {t : Tile} (ht : s.tileOf l.env.wg (l.word s.clock a).toNat = some t)
include ht

theorem State.exec_tfree (hl : s.Led (.tfree a h) (fun x e => [x.readOpnd e s.clock a]) l) (hfill : t.state ≠ .filling)
    (hdrain : t.state ≠ .draining) :
    exec (.tfree a h) s = .next ((s.onEngines fun g => { g with tiles := g.tiles.filter (·.id != t.id) }).retireGang (.tfree a h) .zero []
      (s.heldOne a h)) := by
  change execTfree a h s = _
  simp only [execTfree, State.runGang_led _ _ hl, ht, hfill, hdrain, or_self, if_false]
  rfl

theorem State.exec_tstat (hl : s.Led (.tstat d a h) (fun x e => [x.readOpnd e s.clock a]) l) :
    exec (.tstat d a h) s = .next (s.retireGang (.tstat d a h) d [.u (lo32 t.word), .u (hi32 t.word)] (s.heldOne a h)) := by
  change execTstat d a h s = _
  simp only [execTstat, State.runGang_led _ _ hl, ht]
  rfl
end

/-- The instructions of a tile trap at an index that is not defined (R155; that TSTAT does so too is the model's choice, log 52). -/
theorem State.exec_undefinedTile (ht : s.tileOf l.env.wg (l.word s.clock a).toNat = none) :
    ∀ i ∈ [Instr.tfree a h, .tstat d a h], s.Led i (fun x e => [x.readOpnd e s.clock a]) l →
      exec i s = .next (s.takeTraps (s.cur.map fun u => (u, trapAt causeTile l.slice.pc))) := by
  intro i hi hl
  simp only [List.mem_cons, List.not_mem_nil, or_false] at hi
  obtain rfl | rfl := hi
  · change execTfree a h s = _
    simp only [execTfree, State.runGang_led _ _ hl, ht]
    rfl
  · change execTstat d a h s = _
    simp only [execTstat, State.runGang_led _ _ hl, ht]
    rfl

/-! ### Batches (R156, R162, R163, R296) -/

/-- A gang without copy rights may not seal, wait for or poll a batch. -/
theorem State.exec_batch_noRights (hr : l.copyRights = false) :
    ∀ i ∈ [Instr.cseal d a h, .cwait a h, .cpoll d a h], s.Led i (fun x e => [x.readOpnd e s.clock a]) l →
      exec i s = .next (s.takeTraps (s.cur.map fun u => (u, trapAt causeRights l.slice.pc))) := by
  intro i hi hl
  simp only [List.mem_cons, List.not_mem_nil, or_false] at hi
  obtain rfl | rfl | rfl := hi
  · change execCseal d a h s = _
    simp only [execCseal, State.runGang_led _ _ hl, hr, Bool.not_false, if_true]
    rfl
  · change execCwait a h s = _
    simp only [execCwait, State.runGang_led _ _ hl, hr, Bool.not_false, if_true]
    rfl
  · change execCpoll d a h s = _
    simp only [execCpoll, State.runGang_led _ _ hl, hr, Bool.not_false, if_true]
    rfl

/-- The statuses of tokens, together. -/
def Workgroup.statuses (w : Workgroup) (ks : List Nat) : BitVec 4 := ks.foldl (fun m k => m ||| (w.token k).acc) 0#4

/-- The statuses of tokens are taken: they go to o13 of every active lane of the gang. -/
def State.takeStatuses (s : State) (w : Workgroup) (ks : List Nat) : State :=
  let cleared := ks.foldl (fun q k => q.onToken w.uid k fun t => { t with acc := 0 }) s
  cleared.cur.foldl (fun q u => q.onSlice u fun x => x.putSof 13 x.m0 fun _ => { val := (w.statuses ks).setWidth 32 <<< 1 }) cleared

theorem mem_maskTokens {m : Word} {k : Nat} : k ∈ maskTokens m ↔ k < 8 ∧ m.getLsbD k = true := by
  simp [maskTokens, natsFrom]

/-- The word whose bits are the tokens of a list. -/
def tokenBits (ks : List Nat) : Word := BitVec.ofNat 32 ((ks.map fun k => 2 ^ k).sum)

theorem tokenBits_getLsbD (m : Word) (p : Nat → Bool) (k : Nat) :
    (tokenBits ((maskTokens m).filter p)).getLsbD k = (decide (k < 8) && m.getLsbD k && p k) := by
  have rising : ((maskTokens m).filter p).SortedLT :=
    ((((by decide : (natsFrom 0 8).Pairwise (· < ·)).filter _).filter _)).sortedLT
  rw [Bool.eq_iff_iff, tokenBits, BitVec.getLsbD_ofNat, Bool.and_eq_true, ← Nat.mem_bitIndices, Nat.bitIndices_sum_map_two_pow rising,
    List.mem_filter, mem_maskTokens]
  simp only [decide_eq_true_eq, Bool.and_eq_true]
  exact ⟨And.right, fun h => ⟨by omega, h⟩⟩

section
variable (hr : l.copyRights = true)
include hr

theorem State.exec_cseal (hl : s.Led (.cseal d a h) (fun x e => [x.readOpnd e s.clock a]) l)
    (hroom : (l.env.wg.token ((l.word s.clock a).toNat % 8)).sealed.length < 16) :
    exec (.cseal d a h) s = .next ((s.onToken l.env.wg.uid ((l.word s.clock a).toNat % 8) Token.seal).retireGang (.cseal d a h) d
      [.u (BitVec.ofNat 32 (l.env.wg.token ((l.word s.clock a).toNat % 8)).next)] (s.heldOne a h)) := by
  change execCseal d a h s = _
  simp only [execCseal, State.runGang_led _ _ hl, hr, Bool.not_true, Bool.false_eq_true, if_false, Nat.not_le.2 hroom]
  rfl

theorem State.exec_cwait (hl : s.Led (.cwait a h) (fun x e => [x.readOpnd e s.clock a]) l)
    (hdone : ∀ k, k < 8 → (l.word s.clock a).getLsbD k = true → (l.env.wg.token k).sealed = []) :
    exec (.cwait a h) s = .next ((s.takeStatuses l.env.wg (maskTokens (l.word s.clock a))).retireGang (.cwait a h) .zero []
      (s.heldOne a h)) := by
  have sealed : ((maskTokens (l.word s.clock a)).any fun k => !(l.env.wg.token k).sealed.isEmpty) = false :=
    List.any_eq_false.2 fun k hk => by simp [hdone k (mem_maskTokens.1 hk).1 (mem_maskTokens.1 hk).2]
  change execCwait a h s = _
  simp only [execCwait, State.runGang_led _ _ hl, hr, Bool.not_true, Bool.false_eq_true, if_false, sealed]
  rfl

theorem State.exec_cpoll (hl : s.Led (.cpoll d a h) (fun x e => [x.readOpnd e s.clock a]) l) :
    exec (.cpoll d a h) s = .next (s.retireGang (.cpoll d a h) d
      [.u (tokenBits ((maskTokens (l.word s.clock a)).filter fun k => (l.env.wg.token k).sealed.isEmpty))] (s.heldOne a h)) := by
  change execCpoll d a h s = _
  simp only [execCpoll, State.runGang_led _ _ hl, hr, Bool.not_true, Bool.false_eq_true, if_false]
  rfl
end
end

/-! ### What an arrival of an engine leaves in flight (R166, R167) -/

section
variable {s t : State}

theorem State.Accessed.copies (h : s.Accessed t) : t.engines.copies = s.engines.copies :=
  (congrArg (fun r : State => r.engines.copies) h : t.apart.engines.copies = s.apart.engines.copies)

theorem State.Accessed.accs (h : s.Accessed t) : t.engines.accs = s.engines.accs :=
  (congrArg (fun r : State => r.engines.accs) h : t.apart.engines.accs = s.apart.engines.accs)

theorem State.freeBytes_engines (s : State) (n : Nat) : (s.freeBytes n).1.engines = s.engines := by
  induction n generalizing s with
  | zero => rfl
  | succ n ih => exact ih s.freeValue.2

theorem State.pkgReadEach_copies (s : State) (core : Option Nat) (pa n : Nat) (p : Policy) :
    (s.pkgReadEach core pa n p).1.engines.copies = s.engines.copies := by
  unfold State.pkgReadEach
  split
  · exact (State.Accessed.refl s).giveLine.homeLine.copies
  · exact (State.Accessed.refl s).giveLine.homeLine.copies
  · exact (State.Accessed.refl s).meetWords.copies
  · exact congrArg Engines.copies (s.freeBytes_engines n)

theorem State.mbarOp_copies (s : State) (core : Option Nat) (m : Mapping) (f : Mbar → MbarEffect) :
    (s.mbarOp core m f).1.engines.copies = s.engines.copies := by
  have read : (s.readMbar core m).1.engines.copies = s.engines.copies := s.pkgReadEach_copies core m.pa 16 (policyOf m.cpol 0)
  have write : ∀ (t : State) bs, (t.pkgWrite core m.pa bs (policyOf m.cpol 0)).engines.copies = t.engines.copies := fun t bs =>
    (State.Accessed.refl t).pkgWrite.copies
  unfold State.mbarOp
  split
  · next e => exact (congrArg (·.1.engines.copies) e).symm.trans read
  · next r o e =>
    have kept : r.engines.copies = s.engines.copies := (congrArg (·.1.engines.copies) e).symm.trans read
    have written : (if (f o).obj = o then r else r.pkgWrite core m.pa (f o).obj.bytes (policyOf m.cpol 0)).engines.copies = s.engines.copies := by
      split
      · exact kept
      · exact (write r _).trans kept
    dsimp only
    split
    · exact written
    · exact written

theorem State.mbarAct_copies (s : State) (p : Party) (va : DWord) (m : Mapping) (engine : Bool) (gen : Option Byte) (f : Mbar → MbarEffect) :
    (s.mbarAct p va m engine gen f).engines.copies = s.engines.copies := by
  have post : ∀ (t : State) source code ctx core payload detail,
      (t.postMemory source code ctx core payload detail).engines.copies = t.engines.copies := fun t _ _ _ _ _ _ =>
    (State.Accessed.refl t).postMemory.copies
  have acted := s.mbarOp_copies p.unit.core? m f
  unfold State.mbarAct
  generalize s.mbarOp p.unit.core? m f = r at acted
  obtain ⟨r, o⟩ := r
  cases o with
  | none =>
    dsimp only
    split
    · exact (post ..).trans acted
    · exact acted
  | some o =>
    dsimp only
    split
    · exact (post ..).trans acted
    · exact acted

theorem State.openMiss_engines (s : State) (a : Ask) : (s.openMiss a).engines = s.engines := by
  unfold State.openMiss State.tryMiss
  grind [State.onCaches]

theorem State.tryArrival_copies (s : State) (f : PendingArrival) : (s.tryArrival f).engines.copies = s.engines.copies := by
  have found := ((State.Accessed.refl s).find (p := f.party) (need := { kind := .atomic, wr := true }) (va := f.va)).copies
  unfold State.tryArrival
  generalize s.find f.party { kind := .atomic, wr := true } f.va = r at found
  obtain ⟨r, o⟩ := r
  split
  · next e =>
    obtain ⟨rfl, -⟩ := Prod.mk.inj e
    exact (State.mbarAct_copies ..).trans found
  · next e =>
    obtain ⟨rfl, -⟩ := Prod.mk.inj e
    exact (State.Accessed.refl r).parkFault.copies.trans found
  · next e =>
    obtain ⟨rfl, -⟩ := Prod.mk.inj e
    exact (congrArg Engines.copies (r.openMiss_engines _)).trans found
  · next e =>
    obtain ⟨rfl, -⟩ := Prod.mk.inj e
    exact found

theorem State.engineArriveAt_copies (s : State) (p : Party) (va : DWord) (a : Arrival) :
    (s.engineArriveAt p va a).engines.copies = s.engines.copies := by
  unfold State.engineArriveAt
  split
  · exact (State.Accessed.refl s).postMemory.copies
  · exact State.tryArrival_copies _ _

/-- A copy that completes is in flight no more. -/
theorem State.finishCopy_copies (s : State) (c : Copy) (status : Nat) :
    (s.finishCopy c status).engines.copies = s.engines.copies.filter (·.id != c.id) := by
  have arrived : (match c.mbar with
      | none => s
      | some va => s.engineArriveAt c.party va { bytes := true, n := c.charge, gen := c.gen, err := copyErr status }).engines.copies =
        s.engines.copies := by
    split
    · rfl
    · exact s.engineArriveAt_copies _ _ _
  unfold State.finishCopy
  dsimp only
  split
  · exact congrArg (List.filter (·.id != c.id)) arrived
  · exact congrArg (List.filter (·.id != c.id)) arrived
end

/-! ### COPY and COPYMM (R160, R296, R297) -/

/-- A copy enters its batch, and its tile if it has one. -/
def State.launchCopy (s : State) (c : Copy) (batch : Nat) (tile : Option Tile) : State :=
  let counted := s.onWg c.wg fun w => { w with copies := (w.copies + 1) % 2 ^ 32 }
  let joined := counted.onToken c.wg c.token fun t => { t with openBatch := t.openBatch ++ [c.id] }
  let issued := match tile with
    | some x => joined.onTile x.id fun x => x.issue c.dir c.token batch
    | none => joined
  issued.onEngines fun g => { g with copies := g.copies ++ [c] }

theorem State.launchCopy_copies (s : State) (c : Copy) (batch : Nat) (tile : Option Tile) :
    (s.launchCopy c batch tile).engines.copies = s.engines.copies ++ [c] := by
  cases tile <;> rfl

/-- The copy of a leader whose records are read. -/
def State.newCopy (s : State) (l : Lead) (f : CopyDir) (q : CopyIn) (a : Apr) (b : Option Apr) (tile : Option Tile) (gen : Option Byte)
    (charge : Nat) (ok : Bool) : Copy :=
  { id := s.fresh.1, slice := l.slice.uid, slices := s.cur, wg := l.env.wg.uid, core := l.env.wg.core, ctx := l.env.ctx, dir := f,
    token := field q.desc.toNat 0 3, tile := (tile.map (·.entry)).getD 0, roff := 64 * field q.desc.toNat 12 19, desc := q.desc, apr := a,
    apr2 := b, mbar := q.mbar, gen := gen, charge := charge, chain := q.chain.map fun c => (c.cmd, c.roof, c.aoff, l.slice.fmt), pos := 0,
    slot := 0, rstate := copySeed (s.ctxOf l.env.ctx).seedSr l.env.wg.copies, block := [], status := if ok then 0 else 3, landed := !ok }

/-- The tile that a copy names. -/
def State.copyTile (s : State) (l : Lead) (f : CopyDir) (desc : Word) : Option Tile :=
  if f.usesTile then s.tileOf l.env.wg (field desc.toNat 3 8) else none

/-- Whether a copy's records are valid, for its tile. -/
def Lead.copyOk (l : Lead) (f : CopyDir) (desc : Word) (tile : Option Tile) (a : Apr) (b : Option Apr) : Bool :=
  copyValid f l.env.wg tile (field desc.toNat 12 19) a b

/-- A copy is put in flight, or completes at once with status 3 where it is not valid. -/
def State.admitCopy (s : State) (l : Lead) (c : Copy) (tile : Option Tile) (ok : Bool) : State :=
  let r := s.fresh.2.launchCopy c (l.env.wg.token c.token).next tile
  if ok then r else r.finishCopy c 3

section
variable {s s0 s1 s2 : State} {l : Lead} {f : CopyDir} {desc : Word} {va ch : DWord} {bs cb : List Byte} {m : Option DWord} {q : CopyIn}
  {a : Apr} {b : Option Apr} {gen : Option Byte}

/-- A copy that its tile admits is issued. -/
theorem State.issueCopy_admitted {t : Tasker}
    (htile : f.usesTile = true → ∃ x, s.copyTile l f q.desc = some x ∧ s.tileAdmits f x = true)
    (hcmd : ∀ c, q.chain = some c → s.commandOk l c = .ok ())
    (hcharge : s.chargeMbar t.party q.mbar (if l.copyOk f q.desc (s.copyTile l f q.desc) a b then copyBytes f a b else 0) = .ok (s2, gen)) :
    s.issueCopy l t f q a b = .ok (s2.admitCopy l (s2.newCopy l f q a b (s.copyTile l f q.desc) gen
      (if l.copyOk f q.desc (s.copyTile l f q.desc) a b then copyBytes f a b else 0) (l.copyOk f q.desc (s.copyTile l f q.desc) a b))
      (s.copyTile l f q.desc) (l.copyOk f q.desc (s.copyTile l f q.desc) a b), .plain) := by
  have known : (f.usesTile && (s.copyTile l f q.desc).isNone) = false := by
    cases hu : f.usesTile with
    | false => rfl
    | true => obtain ⟨x, hx, -⟩ := htile hu; simp [hx]
  have admits : ∀ x, s.copyTile l f q.desc = some x → s.tileAdmits f x = true := fun x hx => by
    cases hu : f.usesTile with
    | false => simp [State.copyTile, hu] at hx
    | true =>
      obtain ⟨y, hy, ha⟩ := htile hu
      rwa [Option.some.inj (hx.symm.trans hy)]
  have tile : (if f.usesTile = true then s.tileOf l.env.wg (field q.desc.toNat 3 8) else none) = s.copyTile l f q.desc := rfl
  unfold State.issueCopy Lead.copyOk at *
  simp only [tile, known]
  generalize s.copyTile l f q.desc = x at *
  obtain ⟨desc, va, m, chain⟩ := q
  cases chain with
  | none => cases x with
    | none => simp only [hcharge, bind, Except.bind, Bool.false_eq_true, if_false]; rfl
    | some x => simp only [admits x rfl, hcharge, bind, Except.bind, Bool.not_true, Bool.false_eq_true, if_false]; rfl
  | some c =>
    have command := hcmd c rfl
    cases x with
    | none => simp only [command, hcharge, bind, Except.bind, Bool.false_eq_true, if_false]; rfl
    | some x => simp only [command, admits x rfl, hcharge, bind, Except.bind, Bool.not_true, Bool.false_eq_true, if_false]; rfl

/-- The second record of a copy from memory to memory stands behind the first. -/
def secondApr (f : CopyDir) (va : DWord) (bs : List Byte) : Option Apr :=
  if f = .g2g then some (Apr.ofBytes (va + 128) (bs.drop 128)) else none

theorem State.startCopy_plain (hread : s.taskRead (Tasker.of l.env l.slice) .record va (if f = .g2g then 256 else 128) = .ok (s1, bs))
    (hm : (m.getD 0).toNat % 16 = 0) :
    s.startCopy l f desc va m none = s1.issueCopy l (Tasker.of l.env l.slice) f { desc := desc, aprVa := va, mbar := m, chain := none }
      (Apr.ofBytes va bs) (secondApr f va bs) := by
  unfold State.startCopy
  simp only [hread, hm, bind, Except.bind, Bool.false_eq_true, ne_eq, not_true_eq_false, if_false]
  rfl

/-- The object of a chain record: a zero address names none. -/
def Chain.object (c : Chain) : Option DWord := if c.mbar = 0 then none else some c.mbar

theorem State.startCopy_chained (hch : ch.toNat % 16 = 0) (hrec : s.taskRead (Tasker.of l.env l.slice) .record ch 32 = .ok (s0, cb))
    (hzeros : (Chain.ofBytes cb).zeros = true)
    (hread : s0.taskRead (Tasker.of l.env l.slice) .record va (if f = .g2g then 256 else 128) = .ok (s1, bs))
    (hm : ((Chain.ofBytes cb).object.getD 0).toNat % 16 = 0) :
    s.startCopy l f desc va m (some ch) = s1.issueCopy l (Tasker.of l.env l.slice) f
      { desc := desc, aprVa := va, mbar := (Chain.ofBytes cb).object, chain := some (Chain.ofBytes cb) } (Apr.ofBytes va bs) (secondApr f va bs) := by
  unfold Chain.object at *
  unfold State.startCopy
  simp only [hch, hrec, hzeros, hread, hm, bind, Except.bind, Bool.not_true, Bool.false_eq_true, ne_eq, not_true_eq_false, if_false]
  rfl

/-- What the slices of a gang release before a copy reads its records. -/
def State.copyReleased (s : State) (f : CopyDir) : State := s.curSlices.foldl (fun q x => q.releaseAt (q.env x) x f.scope) s

/-- The pair that COPY or COPYMM names behind its two operands. -/
def State.thirdPair (s : State) (o : Option Opnd) (x : Slice) (e : Env) : List Reg :=
  match o with
  | some o => [(x.readPair e s.clock true o).1, (x.readPair e s.clock true o).2]
  | none => []

/-- The latch's sources of COPY and COPYMM. -/
def State.heldPair (s : State) (a : Opnd) (h : Bool) (x : Slice) (e : Env) : List Reg :=
  heldOf h [(x.readPair e s.clock true a).1, (x.readPair e s.clock true a).2]

/-- A gang with copy rights and room, its descriptor well-formed, goes on with what its copy comes to. -/
theorem State.copyGang_started {i : Instr} {x y : Opnd} {c : Option Opnd} {h chained : Bool}
    (hl : s.Led i (fun z e => [(z.readPair e s.clock true x).1, (z.readPair e s.clock true x).2, z.readOpnd e s.clock y] ++ s.thirdPair c z e) l)
    (hr : l.copyRights = true) (hdesc : descriptorOk f (l.word s.clock y) = true) (hroom : s.copyRoom l.env.wg.core = true)
    (hready : ∀ z ∈ s.curSlices, s.releaseReady z f.scope = true)
    (hstart : (s.copyReleased f).startCopy l f (l.word s.clock y) (l.pair s.clock x) (if chained then none else c.map (l.pair s.clock))
      (if chained then c.map (l.pair s.clock) else none) = .ok (s1, .plain)) :
    s.copyGang i f x y c h chained = .next (s1.retireGang i .zero [] (s.heldPair x h)) := by
  have ready : (s.curSlices.any fun z => !s.releaseReady z f.scope) = false := List.any_eq_false.2 fun z hz => by simp [hready z hz]
  unfold State.copyReleased at hstart
  unfold State.copyGang
  refine (State.runGang_led _ _ hl).trans ?_
  simp only [hr, hdesc, hroom, ready, hstart, Bool.not_true, Bool.or_self, Bool.false_eq_true, if_false]
  rfl

theorem State.exec_copy_started {p : Option Pfx} {x y : Opnd} {h : Bool}
    (hl : s.Led (.copy p f x y h) (fun z e => [(z.readPair e s.clock true x).1, (z.readPair e s.clock true x).2, z.readOpnd e s.clock y] ++
      s.thirdPair (p.bind (·.c)) z e) l)
    (hr : l.copyRights = true) (hdesc : descriptorOk f (l.word s.clock y) = true) (hroom : s.copyRoom l.env.wg.core = true)
    (hready : ∀ z ∈ s.curSlices, s.releaseReady z f.scope = true)
    (hstart : (s.copyReleased f).startCopy l f (l.word s.clock y) (l.pair s.clock x) ((p.bind (·.c)).map (l.pair s.clock)) none =
      .ok (s1, .plain)) :
    exec (.copy p f x y h) s = .next (s1.retireGang (.copy p f x y h) .zero [] (s.heldPair x h)) := by
  change execCopy p f x y h s = _
  exact State.copyGang_started (chained := false) hl hr hdesc hroom hready hstart

theorem State.exec_copymm_started {x y c : Opnd} {h : Bool}
    (hl : s.Led (.copymm c f x y h) (fun z e => [(z.readPair e s.clock true x).1, (z.readPair e s.clock true x).2, z.readOpnd e s.clock y] ++
      s.thirdPair (some c) z e) l)
    (hr : l.copyRights = true) (hdesc : descriptorOk f (l.word s.clock y) = true) (hroom : s.copyRoom l.env.wg.core = true)
    (hready : ∀ z ∈ s.curSlices, s.releaseReady z f.scope = true)
    (hstart : (s.copyReleased f).startCopy l f (l.word s.clock y) (l.pair s.clock x) none (some (l.pair s.clock c)) = .ok (s1, .plain)) :
    exec (.copymm c f x y h) s = .next (s1.retireGang (.copymm c f x y h) .zero [] (s.heldPair x h)) := by
  change execCopymm c f x y h s = _
  exact State.copyGang_started (c := some c) (chained := true) hl hr hdesc hroom hready hstart

/-- What a valid copy that is put in flight is. -/
theorem State.admitCopy_ok {c : Copy} {tile : Option Tile} : (s.admitCopy l c tile true).engines.copies = s.engines.copies ++ [c] :=
  State.launchCopy_copies ..

/-- A copy that is not valid leaves no copy in flight that was not there. -/
theorem State.admitCopy_bad {c : Copy} {tile : Option Tile} : ∀ y ∈ (s.admitCopy l c tile false).engines.copies, y ∈ s.engines.copies := by
  intro y hy
  rw [show s.admitCopy l c tile false = (s.fresh.2.launchCopy c (l.env.wg.token c.token).next tile).finishCopy c 3 from rfl,
    State.finishCopy_copies, State.launchCopy_copies, List.mem_filter, List.mem_append] at hy
  obtain ⟨hy | hy, hid⟩ := hy
  · exact hy
  · obtain rfl := List.mem_singleton.1 hy
    simp at hid
end

/-! ### Matrix commands (R143, R219, R298 to R300) -/

/-- The operation of an MMA or MMAZ of a leader on a tile. -/
def Lead.mmaOp (l : Lead) (us : List Nat) (kind : MatKind) (t : Tile) (cmd : Word) (roof aoff : Nat) : MatOp :=
  { id := 0, core := l.env.wg.core, kind := kind, slices := us, wg := l.env.wg.uid, set := nth 0 l.env.wg.accs (cmdSet cmd), tile := t.id,
    addr := t.offset l.env.wg + 256 * aoff, len := aExtent l.slice.fmt (32 * cmdKb cmd), kb := cmdKb cmd, roof := roof, aoff := aoff,
    fmt := l.slice.fmt, tileAt := t.offset l.env.wg, tileLen := t.bytes }

/-- The operation of an ACCLD or ACCST of a leader on a tile. -/
def Lead.setOp (l : Lead) (us : List Nat) (kind : MatKind) (t : Tile) (cmd : Word) : MatOp :=
  { id := 0, core := l.env.wg.core, kind := kind, slices := us, wg := l.env.wg.uid, set := nth 0 l.env.wg.accs (cmdSet cmd), tile := t.id,
    addr := t.offset l.env.wg, len := setBytes, kb := 0, roof := 0, aoff := 0, fmt := l.slice.fmt, tileAt := t.offset l.env.wg,
    tileLen := t.bytes }

/-- The operation of an ACCZ of a leader. -/
def Lead.clearOp (l : Lead) (us : List Nat) (cmd : Word) : MatOp :=
  { id := 0, core := l.env.wg.core, kind := .accz, slices := us, wg := l.env.wg.uid, set := nth 0 l.env.wg.accs (cmdSet cmd), tile := 0,
    addr := 0, len := 0, kb := 0, roof := 0, aoff := 0, fmt := l.slice.fmt }

/-- The offset in the tile that a matrix instruction names as its third operand. -/
def Lead.aoff (l : Lead) (clock : DWord) (c : Option Opnd) : Nat := (c.map fun o => (l.word clock o).toNat).getD 0

section
variable {s : State} {i : Instr} {p : Option Pfx} {a b : Opnd} {h : Bool} {l : Lead} {t : Tile} {kind : MatKind}

section
variable (ht : s.tileOf l.env.wg (cmdTile (l.word s.clock b)) = some t) (hready : t.state = .ready)
  (hroom : s.matRoom l.env.wg.core = true) (hstore : s.tileStoreParked = false)
  (hchain : s.chainAhead l.env.wg (cmdSet (l.word s.clock b)) = false)
include ht hready hroom hstore hchain

theorem State.mmaGang_pushes {c : Option Opnd} (hc : p.bind (·.c) = c)
    (hl : s.Led i (fun x e => [x.readOpnd e s.clock a, x.readOpnd e s.clock b] ++ (c.map fun o => x.readOpnd e s.clock o).toList) l)
    (hz : cmdZ (l.word s.clock b) = false)
    (hok : matrixOk l.env.wg l.slice.fmt (l.word s.clock b) (l.word s.clock a).toNat (l.aoff s.clock c) t = true) :
    s.mmaGang i p a b h kind = .next ((s.pushMat (l.mmaOp s.cur kind t (l.word s.clock b) (l.word s.clock a).toNat
      (l.aoff s.clock c))).retireGang i .zero [] (s.heldOne a h)) := by
  unfold State.mmaGang
  rw [hc]
  cases c with
  | none =>
    refine (State.runGang_led _ _ hl).trans ?_
    simp only [Lead.aoff, Option.map_none, Option.getD_none] at hok
    simp only [ht, hz, hok, hready, hroom, hstore, hchain, Bool.not_true, Bool.or_self, ne_eq, not_true_eq_false, decide_false,
      Bool.false_eq_true, if_false]
    rfl
  | some o =>
    refine (State.runGang_led _ _ hl).trans ?_
    simp only [Lead.aoff, Option.map_some, Option.getD_some] at hok
    simp only [ht, hz, hok, hready, hroom, hstore, hchain, Bool.not_true, Bool.or_self, ne_eq, not_true_eq_false, decide_false,
      Bool.false_eq_true, if_false]
    rfl

theorem State.moveSet_pushes (hl : s.Led i (fun x e => [x.readOpnd e s.clock b]) l) (hzero : field (l.word s.clock b).toNat 11 21 = 0)
    (hset : cmdSet (l.word s.clock b) < l.env.wg.accs.length) (hbytes : setBytes ≤ t.bytes) :
    s.moveSet i b kind = .next ((s.pushMat (l.setOp s.cur kind t (l.word s.clock b))).retireGang i .zero [] fun _ _ => []) := by
  unfold State.moveSet
  refine (State.runGang_led _ _ hl).trans ?_
  simp only [ht, hzero, Nat.not_le.2 hset, Nat.not_lt.2 hbytes, hready, hroom, hstore, hchain, Bool.not_true, Bool.or_self, ne_eq,
    not_true_eq_false, decide_false, Bool.false_eq_true, if_false]
  rfl
end

theorem State.exec_accz {o : SetOpnd} (hl : s.Led (.accz o) (fun x e => [x.readOpnd e s.clock o.b]) l)
    (hzero : field (l.word s.clock o.b).toNat 3 29 = 0) (hset : cmdSet (l.word s.clock o.b) < l.env.wg.accs.length)
    (hroom : s.matRoom l.env.wg.core = true) (hchain : s.chainAhead l.env.wg (cmdSet (l.word s.clock o.b)) = false) :
    exec (.accz o) s = .next ((s.pushMat (l.clearOp s.cur (l.word s.clock o.b))).retireGang (.accz o) .zero [] fun _ _ => []) := by
  change execAccz o s = _
  unfold execAccz
  refine (State.runGang_led _ _ hl).trans ?_
  simp only [hzero, Nat.not_le.2 hset, hroom, hchain, Bool.not_true, Bool.or_self, ne_eq, not_true_eq_false, decide_false,
    Bool.false_eq_true, if_false]
  rfl
end

/-! ### The copy engine (R160, R161, R164)

The order in which copies start, that a block at hand is placed before it is written, and what a declined fault of one leaves are the
model's choices (log 48, log 97). -/

section
variable {s t : State} {c d : Copy} (hc : s.engines.copies.find? (·.id == c.id) = some c)
include hc

section
variable (hland : c.landed = false) (hheld : c.held = false) (hstart : s.copyStarts c = true)
include hland hheld hstart

theorem State.exec_copyElement_ok (h : s.copyStep c = (t, .ok d)) : exec (.copyElement c.id) s = .next (t.settleCopy d) := by
  change execCopyElement c.id s = _
  simp [execCopyElement, hc, hland, hheld, hstart, h]

theorem State.exec_copyElement_parked (h : s.copyStep c = (t, .parked)) : exec (.copyElement c.id) s = .next t := by
  change execCopyElement c.id s = _
  simp [execCopyElement, hc, hland, hheld, hstart, h]

/-- A declined fault ends the copy as it stands after the step. -/
theorem State.exec_copyElement_failed (h : s.copyStep c = (t, .failed)) (hd : t.engines.copies.find? (·.id == c.id) = some d) :
    exec (.copyElement c.id) s = .next ((t.failCopy d).1.settleCopy (t.failCopy d).2) := by
  change execCopyElement c.id s = _
  simp [execCopyElement, hc, hland, hheld, hstart, h, hd]
end

theorem State.exec_copyComplete (hland : c.landed = true) {k : Nat} (h : s.handOver c = (t, some k)) :
    exec (.copyComplete c.id) s = .next (t.finishCopy c k) := by
  change execCopyComplete c.id s = _
  simp [execCopyComplete, hc, hland, h]
end

theorem State.failCopy_between {s : State} {c : Copy} (h : c.block = []) : s.failCopy c = (s, { c with status := 2, landed := true }) := by
  simp [State.failCopy, h]

theorem State.failCopy_reading {s : State} {c : Copy} (h : c.block ≠ []) (hdue : c.blockDue = false) :
    s.failCopy c = (s, { c with status := 2 }) := by
  simp [State.failCopy, h, hdue]

theorem State.failCopy_writing {s : State} {c : Copy} (h : c.block ≠ []) (hdue : c.blockDue = true) :
    s.failCopy c = ((s.putPlaces c).1, { (s.putPlaces c).2 with status := 2, landed := true }) := by
  simp [State.failCopy, h, hdue]

theorem State.finishCopy_gone {s : State} {c y : Copy} {k : Nat} (h : y ∈ (s.finishCopy c k).engines.copies) : y.id ≠ c.id := by
  rw [State.finishCopy_copies] at h
  simpa using (List.mem_filter.1 h).2

/-! ### The matrix engine (R218, R219) -/

section
variable {s : State} {q : MatOp}

/-- The state after an operation, which stands in the queue no more. -/
def State.matDone (s : State) (q : MatOp) : State :=
  ((s.matMeet q).matEffect q).onEngines fun g => { g with matQueue := g.matQueue.filter (·.id != q.id) }

theorem State.exec_mmaComplete {core : Nat} (hq : s.matHead core = some q) (hready : s.matReady q = true) :
    exec (.mmaComplete core) s = .next (s.matDone q) := by
  change execMmaComplete core s = _
  simp only [execMmaComplete, hq, hready, Bool.not_true, Bool.false_eq_true, if_false]
  rfl

theorem State.matDone_gone {y : MatOp} (h : y ∈ (s.matDone q).engines.matQueue) : y.id ≠ q.id := by
  simpa using (List.mem_filter.1 h).2

/-- ACCZ leaves +0 in every element of its set. -/
theorem State.matDone_accz (h : q.kind = .accz) (n : Nat) : ((s.matDone q).accSet q.core q.set).word n = 0 := by
  have effect : ∀ t : State, t.matEffect q = t.putAcc (accOf q.core q.set false fun _ => 0) := fun t => by
    unfold State.matEffect
    rw [h]
  unfold State.matDone
  rw [effect]
  simp [State.accSet, State.putAcc, accOf, AccSet.word, assoc, State.onEngines]

/-- ACCST leaves the sets as they are. -/
theorem State.matDone_accst (h : q.kind = .accst) : (s.matDone q).engines.accs = s.engines.accs := by
  have meet : s.matMeet q = s := by
    unfold State.matMeet
    rw [h]
  have effect : s.Accessed (s.matEffect q) := by
    unfold State.matEffect
    rw [h]
    dsimp only
    split
    · exact (State.Accessed.refl s).poke.poisonAt.postMemory
    · exact (State.Accessed.refl s).poke
  unfold State.matDone
  rw [meet]
  exact effect.accs
end

/-- An update that is held back is performed, with those of its gang to its location before it. -/
theorem State.applyHeld_applies {s : State} {name : String} {comm : Bool} {y : Deferred}
    (h : s.caches.deferred.find? (fun d => d.id == y.id && d.isComm == comm) = some y) :
    s.applyHeld name comm y.id = .next (s.applyDeferred y) := by
  unfold State.applyHeld
  rw [h]

/-- Settles O55: each instruction is its gang's one effect, each step of an engine its definition under its condition. What a copy in
flight is, and that an invalid one is in flight no more, is said by `State.newCopy` and `State.admitCopy_bad`; that an operation waits
behind its gang's COPYMM on its set, and that an invalid copy waits for its tile, are the model's choices (log 53, log 98). -/
theorem tileCopyAndMatrix : Obligations.TileCopyAndMatrix := by
  unfold Obligations.TileCopyAndMatrix
  intro s d a b h l ra rb pair one w A B traps
  refine ⟨?_, fun t ht => ⟨fun hl => State.exec_tfree ht hl, fun hl => State.exec_tstat ht hl⟩, fun ht => State.exec_undefinedTile ht,
    fun i hi hr => State.exec_batch_noRights hr i hi, fun hr => ⟨fun hl => State.exec_cseal hr hl, fun hl => State.exec_cwait hr hl,
      fun hl => ⟨_, State.exec_cpoll hr hl, tokenBits_getLsbD _ _⟩⟩, ?_, ?_, ?_, ?_, ?_, ?_⟩
  · intro hl base size hzero hsize hindex hfits hfree hapart
    exact State.exec_tdef hl hzero hsize hindex hfits hfree hapart
  · intro p c f s0 s1 bs s2 gen ch m third va t rel tile r1 r2 ok charge i hi o hl hr hdesc hroom hready hrec hread hm htile hcmd hcharge
    have issue : s1.issueCopy l t f ⟨B, va, m, ch⟩ r1 r2 =
        .ok (s2.admitCopy l (s2.newCopy l f ⟨B, va, m, ch⟩ r1 r2 tile gen charge ok) tile ok, .plain) :=
      State.issueCopy_admitted htile hcmd hcharge
    suffices run : exec i s = .next ((s2.admitCopy l (s2.newCopy l f ⟨B, va, m, ch⟩ r1 r2 tile gen charge ok) tile ok).retireGang i .zero []
        (s.heldPair a h)) by
      refine ⟨_, run, fun hok => ?_, fun hbad => ?_⟩
      · rw [hok]
        exact ⟨_, State.admitCopy_ok, rfl, rfl, rfl, rfl, rfl, rfl, rfl, rfl, rfl, rfl⟩
      · rw [hbad]
        exact State.admitCopy_bad
    have room : s.copyRoom l.env.wg.core = true := decide_eq_true hroom
    simp only [List.mem_cons, List.not_mem_nil, or_false] at hi
    obtain rfl | rfl := hi
    · obtain ⟨rfl, rfl, rfl⟩ := hrec
      have start := (State.startCopy_plain hread hm).trans issue
      exact State.exec_copy_started hl hr hdesc room hready start
    · obtain ⟨cb, hch, hrec, rfl, hzeros, rfl⟩ := hrec
      have start := (State.startCopy_chained (m := none) hch hrec hzeros hread hm).trans issue
      exact State.exec_copymm_started hl hr hdesc room hready start
  · intro p t cs aoff ht hready hroom hstore hchain
    refine ⟨fun c hc hl hz hok => ?_, fun c hc hl hzero hset hbytes => ?_⟩
    · simp only [List.mem_cons, List.not_mem_nil, or_false] at hc
      obtain rfl | rfl := hc
      · exact State.mmaGang_pushes ht hready hroom hstore hchain rfl hl hz hok
      · exact State.mmaGang_pushes ht hready hroom hstore hchain rfl hl hz hok
    · simp only [List.mem_cons, List.not_mem_nil, or_false] at hc
      obtain rfl | rfl := hc
      · exact State.moveSet_pushes ht hready hroom hstore hchain hl hzero hset hbytes
      · exact State.moveSet_pushes ht hready hroom hstore hchain hl hzero hset hbytes
  · exact fun p hl hzero hset hroom hchain => State.exec_accz hl hzero hset hroom hchain
  · intro c hc
    refine ⟨fun hland hheld hstart => ⟨fun s1 c1 h => State.exec_copyElement_ok hc hland hheld hstart h,
      fun s1 h => State.exec_copyElement_parked hc hland hheld hstart h, fun s1 d h hd => ?_⟩,
      fun s1 k hland h => ⟨State.exec_copyComplete hc hland h, fun y hy => State.finishCopy_gone hy⟩⟩
    have run := State.exec_copyElement_failed hc hland hheld hstart h hd
    refine ⟨fun hb => ?_, fun hb hdue => ?_, fun hb hdue => ?_⟩
    · rwa [State.failCopy_between hb] at run
    · rwa [State.failCopy_reading hb hdue] at run
    · rwa [State.failCopy_writing hb hdue] at run
  · exact fun q core hq hready => ⟨_, State.exec_mmaComplete hq hready, fun y hy => State.matDone_gone hy, State.matDone_accz,
      State.matDone_accst⟩
  · exact fun y => ⟨State.applyHeld_applies, State.applyHeld_applies⟩

end Sys2Proof.Machine
end

section
/-! PROOFS. Registers and frames: calls enter a frame; returns, unwinding and exits leave frames. -/

namespace Sys2Proof.Machine

/-! ### CALL and CALL_INDIRECT (R185, R227, R312, R313) -/

/-- Twice the signed offset is added to the PC (R228). -/
theorem branchTarget_eq (pc : DWord) (o : BitVec 14) : branchTarget pc o = pc + o.signExtend 64 * 2 := by
  rw [branchTarget, BitVec.shiftLeft_eq_mul_twoPow]
  rfl

section
variable {s : State} {x : Slice} {i : Instr} {target ret : DWord} {args demand base : Nat}

theorem callIllegal_eq_false (hpos : demand ≠ 0) (hmax : demand ≤ 12) (hnew : args ≤ 8 * demand) (hold : args ≤ x.frameRegs) :
    callIllegal x args demand = false := by
  simp [callIllegal, hpos, hmax, hnew, hold]

/-- The frame pushed holds the caller's window and zeros above it (R185). -/
theorem Slice.pushFrame_eq : x.pushFrame base demand args ret =
    { x.clearLocal with
      frames := { base := base, demand := demand, args := args, retPc := ret, regs :=
        x.top.regs.drop (x.top.regs.length - args) ++ List.replicate (8 * demand - args) (.u 0) } :: x.frames } := by
  simp only [Slice.pushFrame, Frame.new, List.drop_replicate]

/-- A call that is legal, and finds its run, enters the callee. -/
theorem State.callTo_enters (legal : callIllegal x args demand = false) (even : target.getLsbD 0 = false) (depth : x.depth < 4095)
    (run : s.ownRun x demand = some base) :
    s.callTo i x target args demand = (s, .done { x.pushFrame base demand args (x.after i) with pc := target }) := by
  simp only [State.callTo, legal, even, State.doCall, Nat.not_le.2 depth, run, Bool.false_eq_true, if_false, id_eq]

end

/-- Settles O33: both calls are `State.callTo` at their target. -/
theorem callsEnterAFrame : Obligations.CallsEnterAFrame := by
  unfold Obligations.CallsEnterAFrame
  intro s x args demand base hpos hmax hnew hold depth run entered
  have legal := callIllegal_eq_false (fun h => hpos (BitVec.eq_of_toNat_eq h)) hmax hnew hold
  have enters : ∀ i target, target.getLsbD 0 = false →
      s.callTo i x target args.toNat demand.toNat = (s, .done { x.pushFrame base demand.toNat args.toNat (x.after i) with pc := target }) :=
    fun i target even => State.callTo_enters legal even depth run
  refine ⟨fun o => ?_, fun a => ?_⟩
  · intro target alone even
    refine (State.runEach_alone _ alone).trans ?_
    rw [branchTarget_eq, enters _ _ even, Slice.pushFrame_eq]
    rfl
  · intro p alone even
    refine (State.runEach_alone _ alone).trans ?_
    rw [enters _ _ even, Slice.pushFrame_eq]
    rfl

/-! ### A slice without entries

In what follows no reconvergence entry of the slice stands (R307). -/

theorem Slice.topEntry_of_nil {x : Slice} (h : x.recon = []) : x.topEntry = none := by
  simp [Slice.topEntry, h]

section
variable {s : State} {e : Env} {x y : Slice} (was : x.recon = []) (entries : y.recon = []) (free : s.frameBusy x.uid y.depth = false)
  (here : y.top.slot = none)
include was entries free here

/-- A slice goes on in its top frame as it is, where that frame is resident and not in Midnight's hands. -/
theorem State.withTop_resident : s.withTop e x y = (s, .done y) := by
  simp only [State.withTop, free, here, Bool.false_eq_true, if_false]
  exact State.withRx_same s e x y (.inl (was.trans entries.symm))

theorem State.withTop_land (pc : DWord) : s.withTop e x (y.land pc) = (s, .done { y with pc := pc }) := by
  rw [Slice.land_free (Slice.topEntry_of_nil entries)]
  exact State.withTop_resident (y := { y with pc := pc }) was entries free here

end

/-! ### RET (R186, R314) -/

section
variable {s : State} {e : Env} {x : Slice} {f : Frame}

/-- RET outside a handler, no lane kept aside, is the return of the running lanes. -/
theorem State.execRet_returns (entries : x.recon = []) (returned : x.returned = []) (handler : x.tstate = none)
    (alone : s.Alone .ret x [] x.m0) :
    execRet s = .next ((s.doRet (s.env x) x x).1.settleOut x.uid (s.doRet (s.env x) x x).2) := by
  refine (State.runEach_alone _ alone).trans ?_
  simp [Slice.inTrapFrame, handler, Slice.topEntry_of_nil entries, Slice.returnedAt, returned, assoc]

/-- A slice whose caller is resident goes on in it at the return address, with the ARGS window. -/
theorem State.doRet_inner {caller : Frame} {rest : List Frame} (entries : x.recon = []) (home : x.guest = none)
    (frames : x.frames = f :: caller :: rest) (inner : f.outer = false) (free : ∀ k, s.frameBusy x.uid k = false)
    (here : caller.slot = none) : s.doRet e x x = (s, .done { x.popFrame f caller rest with pc := f.retPc }) := by
  have land : (x.popFrame f caller rest).land f.retPc = { x.popFrame f caller rest with pc := f.retPc } :=
    Slice.land_free (Slice.topEntry_of_nil (x := x.popFrame f caller rest) entries) _
  simp only [State.doRet, home, frames, inner, free, here, land, Option.isSome_none, Bool.false_eq_true, if_false]
  exact State.withRx_same s e x _ (.inl rfl)

/-- From the outermost frame there is no return: the slice ends. -/
theorem State.doRet_outermost (home : x.guest = none) (frames : x.frames = [f]) : s.doRet e x x = s.endOrWait e x x := by
  simp only [State.doRet, home, frames, Option.isSome_none, Bool.false_eq_true, if_false]

end

/-! ### UNWIND (R315) -/

section
variable {s : State} {e : Env} {x y : Slice}

/-- Frames that are resident, inner and not in Midnight's hands are popped one by one. -/
theorem State.unwindLoop_pops {rest : List Frame} {m : BitVec 4} (entries : x.recon = []) (returned : x.returned = [])
    (free : ∀ k, s.frameBusy x.uid k = false) (gone : List Frame) (resident : ∀ g ∈ gone, g.slot = none ∧ g.outer = false) (pc : DWord) :
    s.unwindLoop e gone.length { x with frames := gone ++ rest } pc m [] =
      (s, .popped { x with frames := rest } (gone.foldl (fun _ g => g.retPc) pc) m []) := by
  induction gone generalizing pc with
  | nil => rfl
  | cons g gone ih =>
    obtain ⟨slot, inner⟩ := resident g List.mem_cons_self
    have others := ih (fun f hf => resident f (List.mem_cons_of_mem _ hf)) g.retPc
    simpa [State.unwindLoop, Slice.top, free, slot, inner, entries, returned] using others

/-- The slice has then lost those frames and nothing else, and the last of them says where it returns to. -/
theorem State.unwindLoop_resident {n : Nat} {gone rest : List Frame} {f : Frame} (entries : x.recon = []) (returned : x.returned = [])
    (free : ∀ k, s.frameBusy x.uid k = false) (frames : x.frames = gone ++ f :: rest) (count : gone.length + 1 = n)
    (resident : ∀ g ∈ gone ++ [f], g.slot = none ∧ g.outer = false) :
    s.unwindLoop e n x x.pc x.m0 [] = (s, .popped { x with frames := rest } f.retPc x.m0 []) := by
  have pops := State.unwindLoop_pops (e := e) (rest := rest) (m := x.m0) entries returned free (gone ++ [f]) resident x.pc
  simpa [← frames, count] using pops

/-- UNWIND outside a handler, its frames popped down to a resident one, leaves its code in o14 and goes on at the address given. -/
theorem State.execUnwind_popped {a : Opnd} {n : BitVec 8} {pc : DWord} {m : BitVec 4} (handler : x.tstate = none) (was : x.recon = [])
    (entries : y.recon = []) (free : ∀ k, s.frameBusy x.uid k = false) (here : y.top.slot = none)
    (pops : s.unwindLoop (s.env x) n.toNat x x.pc x.m0 [] = (s, .popped y pc m []))
    (alone : s.Alone (.unwind a n) x (s.reads [a] x (s.env x)) x.lowMask) :
    execUnwind a n s = .next (s.setSlice ({ ({ y.clearLocal with masks := setNth y.masks 0 m } : Slice).putSof
      14 m (fun _ => { val := s.opVal a x (s.env x) (lowestLane x.m0) }) with pc := pc } : Slice).retired) := by
  refine (State.runEach_alone _ alone).trans ?_
  simp only [handler, pops, Bool.false_eq_true, if_false]
  rw [State.withTop_land was]
  · rfl
  · exact entries
  · exact free _
  · exact here

end

/-! ### The end of a slice (R319) -/

theorem setNth_setNth {α : Type} (xs : List α) (i : Nat) (v w : α) : setNth (setNth xs i v) i w = setNth xs i w := by
  induction xs generalizing i with
  | nil => rfl
  | cons x xs ih =>
    cases i with
    | zero => rfl
    | succ i => exact congrArg (x :: ·) (ih i)

section
variable {s : State} {e : Env} {x y : Slice} {f : Frame}

/-- Nothing of the slice is outstanding, so it ends. -/
theorem State.endOrWait_ends (parked : x.parked = []) (done : s.accessesDone x = true) :
    s.endOrWait e x y = ((s.endSlice e y).1, .done (s.endSlice e y).2) := by
  simp only [State.endOrWait, parked, done, List.isEmpty_nil, Bool.and_self, if_true]

/-- Every slice that ends loses its lanes, so that a mask cleared before does not count. -/
theorem State.endSlice_masked : s.endSlice e { x with masks := setNth x.masks 0 0 } = s.endSlice e x := by
  simp only [State.endSlice, setNth_setNth]
  rfl

/-- No path is left in an outermost frame in which no entry stands and no lane is kept aside. -/
theorem Slice.settle_outermost (entries : x.recon = []) (returned : x.returned = []) (outermost : x.depth = 0) (n : Nat) (freed : List Nat) :
    Slice.settle (n + 1) x freed = (.ended, freed) := by
  simp [Slice.settle, Slice.topEntry_of_nil entries, Slice.returnedAt, returned, assoc, outermost]

variable (entries : x.recon = []) (returned : x.returned = []) (home : x.guest = none) (frames : x.frames = [f])
include entries returned home frames

/-- EXIT in the outermost frame leaves no path, and the slice ends. -/
theorem State.exitLanes_outermost : s.exitLanes e x x = s.endOrWait e x { x with masks := setNth x.masks 0 0 } := by
  have left : ({ x.leaveLanes x.m0 none with masks := setNth x.masks 0 0 } : Slice) = { x with masks := setNth x.masks 0 0 } := by
    simp [Slice.leaveLanes, entries, home]
  have fuel : ({ x with masks := setNth x.masks 0 0 } : Slice).settleFuel = 1 + 1 := by
    simp [Slice.settleFuel, entries, frames, home]
  have ended := Slice.settle_outermost (x := { x with masks := setNth x.masks 0 0 }) entries returned
    (by simp [Slice.depth, frames, home]) 1 []
  simp only [State.exitLanes, left, State.goOn, fuel, ended]

variable (handler : x.tstate = none)
include handler

/-- A release at pkg, and then the slots of its frame, its entries and its record are freed. -/
theorem State.endSlice_outermost :
    s.endSlice e x = ((s.releaseAt e x .pkg).freeSlots (e.party x.uid) (f.slot.toList ++ x.rxSlot.toList ++ (x.spill.map (·.1)).toList),
      { x.clearLocal with
        status := .exited, frames := [], rxSlot := none, mig := none, spill := none, held := none, run := none,
        masks := setNth x.masks 0 0 }) := by
  have slots : [f].filterMap (·.slot) = f.slot.toList := by cases h : f.slot <;> simp [h]
  simp [State.endSlice, home, handler, frames, slots, entries, returned]

/-- EXIT and RET in the outermost frame end a slice of which nothing is outstanding. -/
theorem State.exec_ends {i : Instr} (parked : x.parked = []) (done : s.accessesDone x = true) (hi : i ∈ [Instr.exit, .ret])
    (alone : s.Alone i x [] x.m0) : exec i s = .next ((s.endSlice (s.env x) x).1.setSlice (s.endSlice (s.env x) x).2.retired) := by
  simp only [List.mem_cons, List.not_mem_nil, or_false] at hi
  obtain rfl | rfl := hi
  · refine (State.runEach_alone _ alone).trans ?_
    rw [State.exitLanes_outermost entries returned home frames, State.endOrWait_ends parked done, State.endSlice_masked]
    rfl
  · refine (State.execRet_returns entries returned handler alone).trans ?_
    rw [State.doRet_outermost home frames, State.endOrWait_ends parked done]
    rfl

end

/-- Settles O34: RET is `State.doRet`, UNWIND pops its frames one by one, and in its outermost frame a slice ends by EXIT and by RET. That
it ends no sooner than its accesses are performed is the model's reading (log 32). -/
theorem returnsUnwindAndExit : Obligations.ReturnsUnwindAndExit := by
  unfold Obligations.ReturnsUnwindAndExit
  intro s x entries returned handler home free
  refine ⟨fun f caller rest frames inner here alone => ?_, fun a n gone f new rest frames count resident here alone => ?_,
    fun f frames parked done i hi alone => ?_⟩
  · refine (State.execRet_returns entries returned handler alone).trans ?_
    rw [State.doRet_inner entries home frames inner free here]
    rfl
  · have pops := State.unwindLoop_resident (e := s.env x) entries returned free frames count resident
    exact State.execUnwind_popped (y := { x with frames := new :: rest }) handler entries entries free here pops alone
  · rw [State.exec_ends entries returned home frames handler parked done hi alone,
      State.endSlice_outermost entries returned home frames handler]
    rfl

end Sys2Proof.Machine
end

section
/-! PROOFS. Registers and frames: what stops a lane instruction before it has any effect. -/

namespace Sys2Proof.Machine

/-! ### Traps at issue (R184, R192, R396) -/

section
variable {s : State} {i : Instr} {x : Slice} {e : Env} {srcs : List Reg} {reads : BitVec 4} (declined : s.declinedOf (.slice x.uid) = none)
include declined

/-- A register outside the frame. -/
theorem State.issueTrap_outside (outside : i.inFrame x.frameRegs = false) :
    s.issueTrap i x e srcs reads = some (trapAt causeIllegal x.pc) := by
  simp [State.issueTrap, declined, outside]

/-- A poisoned word of a lane that reads it. -/
theorem State.issueTrap_poisoned (inside : i.inFrame x.frameRegs = true) (allowed : i.firmwareIllegal = false)
    (bad : ∃ r ∈ srcs, r.poisoned reads = true) : s.issueTrap i x e srcs reads = some (trapAt causePoison x.pc) := by
  simp [State.issueTrap, declined, inside, allowed, List.any_eq_true.2 bad]

end

theorem Reg.poisoned_of_lane {r : Reg} {reads : BitVec 4} {l : Nat} (hl : l < 4) (read : reads.getLsbD l = true)
    (bad : (r.lane l).poison = true) : r.poisoned reads = true :=
  List.any_eq_true.2 ⟨l, by simp [lanes]; omega, by simp [read, bad]⟩

/-- A slice alone that is stopped at a lane instruction traps there, and the instruction has done nothing. -/
theorem State.runLanes_traps {s : State} {i : Instr} {p : Option Pfx} {x : Slice} {srcs : Slice → Env → List Reg} {t : TrapInfo}
    (eval : Slice → Env → Eval) (cur : s.cur = [x.uid]) (here : s.slice? x.uid = some x)
    (trap : s.issueTrap i x (s.env x) (srcs x (s.env x)) (takeOf x p) = some t) :
    s.runLanes i p srcs eval = .next ((s.clearDeclined (.slice x.uid)).takeTrap x.uid t) := by
  have traps : s.laneTraps i p srcs (fun _ _ => none) = [(x.uid, t)] := by simp [State.laneTraps, State.curSlices, cur, here, trap]
  have single : (s.clearDeclined (.slice x.uid)).cur = [x.uid] := cur
  simp [State.runLanes, State.issue, cur, traps, State.clearDeclines, State.takeTraps, single]

/-! ### Logic, shifts and rotates -/

/-- The forms that are a word operation on A and B. -/
def logicForms : List (Option Pfx → Dst → Opnd → Opnd → Bool → Instr) :=
  [.and, .or, .xor, .andn, .orn, .xnor, .shl, .shr, .sha, .rotl, .rotr]

/-- Each of them is `State.wordOp`, and firmware may issue it (R403). -/
theorem exec_logicForm {c : Option Pfx → Dst → Opnd → Opnd → Bool → Instr} (hc : c ∈ logicForms) (p : Option Pfx) (d : Dst) (a b : Opnd)
    (h : Bool) : (∃ f, ∀ s, exec (c p d a b h) s = s.wordOp (c p d a b h) p d a b h f) ∧ (c p d a b h).firmwareIllegal = false := by
  simp only [logicForms, List.mem_cons, List.not_mem_nil, or_false] at hc
  obtain rfl | rfl | rfl | rfl | rfl | rfl | rfl | rfl | rfl | rfl | rfl := hc
  · exact ⟨⟨fun x y => x &&& y, fun _ => rfl⟩, rfl⟩
  · exact ⟨⟨fun x y => x ||| y, fun _ => rfl⟩, rfl⟩
  · exact ⟨⟨fun x y => x ^^^ y, fun _ => rfl⟩, rfl⟩
  · exact ⟨⟨fun x y => x &&& ~~~y, fun _ => rfl⟩, rfl⟩
  · exact ⟨⟨fun x y => x ||| ~~~y, fun _ => rfl⟩, rfl⟩
  · exact ⟨⟨fun x y => ~~~(x ^^^ y), fun _ => rfl⟩, rfl⟩
  · exact ⟨⟨fun x y => x <<< shiftCount y, fun _ => rfl⟩, rfl⟩
  · exact ⟨⟨fun x y => x >>> shiftCount y, fun _ => rfl⟩, rfl⟩
  · exact ⟨⟨fun x y => x.sshiftRight (shiftCount y), fun _ => rfl⟩, rfl⟩
  · exact ⟨⟨fun x y => x.rotateLeft (shiftCount y), fun _ => rfl⟩, rfl⟩
  · exact ⟨⟨fun x y => x.rotateRight (shiftCount y), fun _ => rfl⟩, rfl⟩

/-- Settles O40: each of the eleven forms is a word operation, which traps where `State.issueTrap` says so. -/
theorem laneTraps : Obligations.LaneTraps := by
  unfold Obligations.LaneTraps
  intro s x p d a b h cur here declined c hc trapped
  obtain ⟨⟨f, run⟩, allowed⟩ := exec_logicForm hc p d a b h
  rw [run]
  refine ⟨fun outside => ?_, fun inside bad => ?_⟩
  · exact State.runLanes_traps _ cur here (State.issueTrap_outside declined outside)
  · obtain ⟨l, hl, take, poison⟩ := bad
    refine State.runLanes_traps _ cur here (State.issueTrap_poisoned declined inside allowed ?_)
    rcases poison with poison | poison
    · exact ⟨_, by simp, Reg.poisoned_of_lane hl take poison⟩
    · exact ⟨_, by simp, Reg.poisoned_of_lane hl take poison⟩

end Sys2Proof.Machine
end

section
/-! PROOFS. Registers and frames: the steps of Midnight, of frame claims, of slices that come back whole, and of migration. -/

namespace Sys2Proof.Machine

/-! ### Lists -/

theorem mem_insertBy {α : Type} {le : α → α → Bool} {a b : α} {xs : List α} : a ∈ List.insertBy le b xs ↔ a = b ∨ a ∈ xs := by
  induction xs with
  | nil => simp [List.insertBy]
  | cons x xs ih =>
    unfold List.insertBy
    split
    · simp
    · simp [ih, or_left_comm]

theorem mem_sortBy {α : Type} {le : α → α → Bool} {a : α} {xs : List α} : a ∈ xs.sortBy le ↔ a ∈ xs := by
  induction xs with
  | nil => rfl
  | cons x xs ih => exact mem_insertBy.trans (by rw [List.mem_cons]; exact or_congr_right ih)

/-! ### MIDNIGHT_TRIGGER (R380) -/

section
variable {s : State} {core : Nat} {m : Midnight} {x : Slice}

theorem exec_midnightTrigger_begins (idle : s.midnight? core = none) (req : s.requester core = some x) :
    exec (.midnightTrigger core) s = .next (s.setMidnight core (some { core := core, state := .wait, target := x.uid })) := by
  show execMidnightTrigger core s = _
  simp only [execMidnightTrigger, idle, req]

variable (now : s.midnight? core = some m) (wait : m.state = .wait)
include now wait

theorem exec_midnightTrigger_rests (req : s.requester core = none) : exec (.midnightTrigger core) s = .next (s.setMidnight core none) := by
  show execMidnightTrigger core s = _
  simp [execMidnightTrigger, now, wait, req]

theorem exec_midnightTrigger_works (req : s.requester core = some x)
    (due : (s.ctxOf (s.env x).ctx).frameWait.toNat ≤ (s.clock - x.blockedSince).toNat ∨ s.allBlocked core = true) :
    exec (.midnightTrigger core) s = .next (s.setMidnight core (some { core := core, state := .frames, target := x.uid })) := by
  show execMidnightTrigger core s = _
  have waited : (decide ((s.ctxOf (s.env x).ctx).frameWait.toNat ≤ (s.clock - x.blockedSince).toNat) || s.allBlocked core) = true := by
    simpa using due
  simp only [execMidnightTrigger, now, wait, req, bne_self_eq_false, Bool.false_eq_true, if_false, waited, if_true]

end

/-! ### MIDNIGHT_SPILL (R381, R382) -/

theorem Slice.blockedNeed_eq {x : Slice} {need : Nat} {what : Block} (h : x.status = .frameBlocked need what) :
    x.blockedNeed = some (need, what) := by
  simp only [Slice.blockedNeed, h]

section
variable {s s1 : State} {m : Midnight} {p : Party} {c : Column} {x y : Slice} {xs : List Slice} {k : Nat}

/-- Midnight works for a slice that is blocked still, and has found no run for it: it writes the next victim. -/
theorem exec_midnightSpill_next {core need : Nat} {t : Slice} {what : Block} (now : s.midnight? core = some m)
    (work : m.state = .frames ∨ m.state = .slices) (here : s.slice? m.target = some t) (blocked : t.status = .frameBlocked need what)
    (declined : s.declinedOf (.midnight core) = none) (parked : s.isParked (.midnight core) = false)
    (room : m.busy = none → s.freeRun (s.columnOf t) need 0 (256 - s.guestGranules (s.env t).ctx) = none) :
    exec (.midnightSpill core) s =
      s.spillNext m ⟨.midnight core, .core core, (s.env t).ctx, some core⟩ (s.columnOf t) := by
  show execMidnightSpill core s = _
  have working : (m.state != .frames && m.state != .slices) = false := by rcases work with h | h <;> simp [h]
  have full : (m.busy.isNone && (s.freeRun (s.columnOf t) need 0 (256 - s.guestGranules (s.env t).ctx)).isSome) = false := by
    cases h : m.busy with
    | none => simp [room h]
    | some b => rfl
  simp only [execMidnightSpill, now, working, here, Slice.blockedNeed_eq blocked, Option.bind_some, Option.map_some, declined, parked, full,
    Bool.false_eq_true, if_false, Bool.or_self]

theorem State.midnightDid_ok (m : Midnight) (p : Party) (busy : Option (Nat × Nat)) :
    s.midnightDid m p busy (s1, .ok y) =
      .next ((s1.setSlice y).setMidnight m.core (if m.stops then none else some { m with busy := none })) := rfl

theorem State.nextFrame_of_idle (idle : m.busy = none) :
    s.nextFrame m c = (s.victimSlices c).findSome? fun x => x.spillable.head?.map fun k => (x, k) := by
  simp [State.nextFrame, idle]

theorem State.spillNext_frame (work : m.state = .frames) (next : s.nextFrame m c = some (x, k))
    (did : s.spillFrame p x k = (s1, .ok y)) :
    s.spillNext m p c = .next ((s1.setSlice y).setMidnight m.core (if m.stops then none else some { m with busy := none })) := by
  simp only [State.spillNext, work, next, did, State.midnightDid_ok, beq_self_eq_true, if_true]

/-- With no frame left Midnight goes on to whole slices. -/
theorem State.spillNext_noFrame (work : m.state = .frames) (idle : m.busy = none) (unspillable : ∀ x ∈ s.victimSlices c, x.spillable = []) :
    s.spillNext m p c = .next (s.setMidnight m.core (some { m with state := .slices })) := by
  have next : s.nextFrame m c = none := by
    rw [State.nextFrame_of_idle idle, List.findSome?_eq_none_iff]
    intro x hx
    simp [unspillable x hx]
  simp [State.spillNext, work, next, idle]

theorem State.spillNext_slice (work : m.state = .slices) (victims : s.wholeVictims c m.target = x :: xs) (done : s.accessesDone x = true)
    (did : s.spillWhole p x = (s1, .ok y)) :
    s.spillNext m p c = .next ((s1.setSlice y).setMidnight m.core (if m.stops then none else some { m with busy := none })) := by
  simp [State.spillNext, work, victims, done, did, State.midnightDid_ok]

/-- A whole victim is another slice than the one that Midnight works for, and at home. -/
theorem State.of_mem_wholeVictims {target : Nat} (h : x ∈ s.wholeVictims c target) : x.uid ≠ target ∧ x.guest = none := by
  simp only [State.wholeVictims, mem_sortBy, List.mem_filter, Bool.and_eq_true, bne_iff_ne, Option.isNone_iff_eq_none] at h
  obtain ⟨-, ⟨⟨other, home⟩, -⟩, -⟩ := h
  exact ⟨other, home⟩

/-- Of accesses that come about together, one that came about says what they all did. -/
theorem Got.failed_ok {α β : Type} {t : State} {g : Got α} {r : State × Got β} {b : β} (h : g.failed s r = (t, .ok b)) :
    r = (t, .ok b) := by
  cases g with
  | ok a => exact h
  | fault a b c => cases h
  | held a => cases h
  | full => cases h

/-- A slice written whole is spilled (R383). -/
theorem State.spillWhole_status (did : s.spillWhole p x = (s1, .ok y)) : y.status = .spilled := by
  unfold State.spillWhole at did
  dsimp only at did
  split at did
  · split at did
    · have := Got.failed_ok did
      cases this
      rfl
    · cases Got.failed_ok did
  · cases Got.failed_ok did

end

/-! ### FRAME_CLAIM (R185, R379) -/

theorem State.mayRun_of {s : State} {x : Slice} (going : (s.env x).group.halted = false) (running : (s.env x).wg.status = .running) :
    s.mayRun x = true := by
  simp [State.mayRun, going, running]

theorem exec_frameClaim_proceeds {s : State} {x : Slice} {u need b : Nat} {what : Block} (here : s.slice? u = some x)
    (blocked : x.status = .frameBlocked need what) (declined : s.declinedOf (.slice u) = none) (runs : s.mayRun x = true)
    (parked : s.isParked (.slice u) = false) (missing : s.isMissing (.slice u) = false) (busy : s.heldBusy x = false)
    (run : s.ownRun x need = some b) : exec (.frameClaim u) s = .next (s.proceed x what need b) := by
  show execFrameClaim u s = _
  simp [execFrameClaim, here, Slice.blockedNeed_eq blocked, declined, runs, parked, missing, busy, run]

/-! ### SLICE_RELOAD (R383) -/

theorem exec_sliceReload_back {s s1 : State} {x y : Slice} {u slot k b : Nat} (here : s.slice? u = some x) (out : x.status = .spilled)
    (record : x.spill = some (slot, k)) (declined : s.declinedOf (.slice u) = none) (runs : s.mayRun x = true)
    (parked : s.isParked (.slice u) = false) (next : s.nextReload x = true)
    (alone : ∀ z ∈ s.blockedOn (s.env x).origin, s.columnOf z ≠ s.columnOf x) (run : s.ownRun x x.top.demand = some b)
    (read : s.reloadSlice ((s.env x).party u) x slot b = (s1, .ok y)) :
    exec (.sliceReload u) s = .next (((s1.setSlice (y.back s1.clock false)).partSlices [u]).acquireAt (s.env x) .pkg) := by
  show execSliceReload u s = _
  have unwanted : ((s.blockedOn (s.env x).origin).any fun z => s.columnOf z == s.columnOf x) = false := by simpa using alone
  simp [execSliceReload, here, out, record, declined, runs, parked, next, unwanted, run, read]

/-! ### MIGRATION_REQUEST and MIGRATION_GRANT (R385, R386) -/

section
variable {s : State} {x : Slice} {m : Migration} {u ctx demand dest k b : Nat}

theorem exec_migrationRequest_answers (here : s.slice? u = some x) (mig : x.mig = some m) (phase : m.phase = .requested) :
    exec (.migrationRequest u) s = .next (s.setPhase u (s.admission (s.env x).ctx x.top.demand m.dest)) := by
  show execMigrationRequest u s = _
  simp [execMigrationRequest, here, mig, phase]

theorem State.admission_preempting (h : ∃ w ∈ s.wgs, w.core = dest ∧ w.status = .stopping) :
    s.admission ctx demand dest = .refused codePreempt := by
  have : s.preempting dest = true := by simpa [State.preempting] using h
  simp only [State.admission, this, if_true]

/-- What admits a guest of a context, beside room for it: a workgroup of its context that runs there, and the host's table where the
admission duty is host-assisted. -/
def State.admits (s : State) (dest ctx : Nat) : Prop :=
  s.runsCtx dest ctx = true ∧ (s.duty 2 = true → s.tableAdmits dest ctx = true)

theorem State.closed_iff_not_admits : (!s.runsCtx dest ctx || (s.duty 2 && !s.tableAdmits dest ctx)) = true ↔ ¬s.admits dest ctx := by
  unfold State.admits
  cases s.runsCtx dest ctx with
  | true => simp
  | false => simp

/-- A place given is a guest slot that is free. -/
theorem State.guestPlace_free (place : s.guestPlace dest ctx demand = some (k, b)) : k < 32 ∧ s.guestSlotHeld dest k = false := by
  obtain ⟨j, hj, found⟩ := List.exists_of_findSome?_eq_some place
  have bound : j < 32 := by simpa [natsFrom] using hj
  cases held : s.guestSlotHeld dest j with
  | true => simp [held] at found
  | false =>
    simp only [held, Bool.false_eq_true, if_false, Option.map_eq_some_iff, Prod.mk.injEq] at found
    obtain ⟨_, -, rfl, -⟩ := found
    exact ⟨bound, held⟩

section
variable (staying : ∀ w ∈ s.wgs, w.core = dest → w.status ≠ .stopping)
include staying

theorem State.preempting_eq_false : s.preempting dest = false := by simpa [State.preempting] using staying

theorem State.admission_refused (h : ¬s.admits dest ctx) : s.admission ctx demand dest = .refused codeAdmit := by
  simp only [State.admission, State.preempting_eq_false staying, State.closed_iff_not_admits.2 h, Bool.false_eq_true, if_false, if_true]

section
variable (admitted : s.admits dest ctx)
include admitted

theorem State.admission_full (full : s.guestPlace dest ctx demand = none) : s.admission ctx demand dest = .refused codeAdmit := by
  simp only [State.admission, State.preempting_eq_false staying, Bool.false_eq_true, State.closed_iff_not_admits, not_not.2 admitted, if_false, full]

theorem State.admission_granted (place : s.guestPlace dest ctx demand = some (k, b)) : s.admission ctx demand dest = .granted k b := by
  simp only [State.admission, State.preempting_eq_false staying, Bool.false_eq_true, State.closed_iff_not_admits, not_not.2 admitted, if_false, place]

end

end

theorem exec_migrationGrant_granted (here : s.slice? u = some x) (mig : x.mig = some m) (phase : m.phase = .granted k b) :
    exec (.migrationGrant u) s = .next (s.setPhase u (.departing k b)) := by
  show execMigrationGrant u s = _
  simp only [execMigrationGrant, here, mig, phase]

section
variable {code : Nat} (here : s.slice? u = some x) (mig : x.mig = some m) (phase : m.phase = .refused code)
include here mig phase

/-- A memory instruction that was refused is served where its slice is. -/
theorem exec_migrationGrant_stays (plain : m.code = none) :
    exec (.migrationGrant u) s = .next (s.setSlice { x with status := .ready, mig := none, readySince := s.clock, stay := true }) := by
  show execMigrationGrant u s = _
  simp only [execMigrationGrant, here, mig, phase, plain]

/-- A MIGRATE that was refused ends with the code. -/
theorem exec_migrationGrant_ends {d : Dst} {a : Opnd} {h : Bool} {n : Nat} (asked : m.code = some (.migrate d a h, n)) :
    exec (.migrationGrant u) s = .next (s.setSlice (({ x with status := .ready, mig := none, readySince := s.clock } : Slice).retireWith
      (.migrate d a h) d [.u (BitVec.ofNat 32 code)] (heldOf h m.src)).retired) := by
  show execMigrationGrant u s = _
  simp only [execMigrationGrant, here, mig, phase, asked, Slice.finishMigrate]

end

/-! ### CONTINUATION_SEND, CONTINUATION_ARRIVAL and RETURN_ARRIVAL (R385 to R391) -/

theorem exec_continuationSend_departs (here : s.slice? u = some x) (mig : x.mig = some m) (phase : m.phase = .departing k b)
    (declined : s.declinedParked x = none) (going : (s.env x).group.halted = false) (parked : x.parked = [])
    (done : s.accessesDone x = true) : exec (.continuationSend u) s = .next (s.sendAway x m k b) := by
  show execContinuationSend u s = _
  simp [execContinuationSend, here, mig, phase, declined, going, parked, done]

/-- A slice that departs is a guest of the host, one hop on. -/
theorem Slice.depart_guest (x : Slice) (host slot base : Nat) :
    (x.depart host slot base).guest.map (fun g => (g.host, g.slot, g.hops)) = some (host, slot, (x.guest.map (·.hops)).getD 0 + 1) := by
  cases h : x.guest <;> simp [Slice.depart, h]

/-- Its frame there holds uniform zeros (R389). -/
theorem Slice.depart_regs (x : Slice) (host slot base : Nat) {i : Nat} (hi : i < 8 * x.top.demand) (d : Reg) :
    nth d (x.depart host slot base).top.regs i = .u 0 := by
  show (List.replicate (8 * x.top.demand) (Reg.u 0)).getD i d = _
  simp [hi]

theorem exec_continuationArrival_lodges (here : s.slice? u = some x) (mig : x.mig = some m) (phase : m.phase = .flying k b) :
    exec (.continuationArrival u) s = .next ((s.acquireAt (s.env x) .pkg).setSlice
      (if m.evicted || (s.env x).group.halted then
        (x.lodge (Parcel.ofBytes m.packet (s.env x).launch.pkt.entry) s.clock).startReturn (s.env x).origin 1 none
      else (x.lodge (Parcel.ofBytes m.packet (s.env x).launch.pkt.entry) s.clock).finishMigrate m.code m.src)) := by
  show execContinuationArrival u s = _
  simp only [execContinuationArrival, here, mig, phase]

section
variable {g : Guest} (here : s.slice? u = some x) (mig : x.mig = some m) (phase : m.phase = .returning k) (guest : x.guest = some g)
include here mig phase guest

theorem exec_continuationSend_returns (fresh : m.packet = []) (met : s.onlyDeclined x = true) (done : s.accessesDone x = true) :
    exec (.continuationSend u) s = .next (s.sendBack x m k) := by
  show execContinuationSend u s = _
  simp [execContinuationSend, here, mig, phase, guest, fresh, met, done]

theorem exec_returnArrival_arrives (sent : m.packet ≠ []) (away : x.status = .migrating) (busy : s.heldBusy x = false) :
    exec (.returnArrival u) s = .next (s.arriveHome x g k) := by
  show execReturnArrival u s = _
  simp [execReturnArrival, here, mig, phase, guest, sent, away, busy]

end

end

/-- Settles O58: each step is its definition under its condition. That a spill comes about wholly or not at all, that one of a whole slice
cancels the departure it seeks, and that a guest which lands after a pre-emption began goes home are the model's choices (log 91, log 92,
log 96), as are the registers that travel when the live table is wrong (log 41) and when Midnight stops (log 108). -/
theorem frameAndMigrationSteps : Obligations.FrameAndMigrationSteps := by
  unfold Obligations.FrameAndMigrationSteps
  intro s
  refine ⟨fun core => ⟨fun x => exec_midnightTrigger_begins, fun m => exec_midnightTrigger_rests,
    fun m x => exec_midnightTrigger_works, fun m t need what now here blocked => ?_⟩, fun u x here => ?_⟩
  · intro e p c declined parked room written
    have next := fun work => exec_midnightSpill_next now work here blocked declined parked room
    refine ⟨fun x k s1 y work same victim did => ?_, fun x k idle first => (State.nextFrame_of_idle idle).trans first,
      fun work same idle unspillable => ?_, fun x xs s1 y work same victims done did => ?_⟩
    · subst same
      exact (next (.inl work)).trans (State.spillNext_frame work victim did)
    · subst same
      exact (next (.inl work)).trans (State.spillNext_noFrame work idle unspillable)
    · subst same
      obtain ⟨other, home⟩ := State.of_mem_wholeVictims (victims ▸ List.mem_cons_self : x ∈ s.wholeVictims c m.target)
      exact ⟨(next (.inr work)).trans (State.spillNext_slice work victims done did), State.spillWhole_status did, other, home⟩
  · obtain rfl := State.slice?_uid here
    refine ⟨?_, ?_, fun m mig phase => ?_, fun m mig => ?_⟩
    · intro need what b blocked declined going running parked missing busy run
      refine ⟨exec_frameClaim_proceeds here blocked declined (State.mayRun_of going running) parked missing busy run, ?_⟩
      rintro rfl
      rfl
    · intro slot k b s1 y out record declined going running parked next alone run read
      exact exec_sliceReload_back here out record declined (State.mayRun_of going running) parked next alone run read
    · have answers := exec_migrationRequest_answers here mig phase
      refine ⟨fun stopping => ?_, fun staying => ⟨fun refused => ?_, fun admitted full => ?_, fun k b admitted place => ⟨?_, ?_⟩⟩⟩
      · rw [answers, State.admission_preempting stopping]
        rfl
      · rw [answers, State.admission_refused staying refused]
        rfl
      · rw [answers, State.admission_full staying admitted full]
        rfl
      · rw [answers, State.admission_granted staying admitted place]
      · exact State.guestPlace_free place
    · refine ⟨fun k b phase => exec_migrationGrant_granted here mig phase, fun code phase => ⟨fun plain => ?_, fun d a h n asked => ?_⟩,
        fun k b phase declined going parked done => ⟨?_, ?_, ?_⟩, fun k b phase => ⟨fun stays going => ?_, fun leaves => ?_⟩,
        fun k g phase guest => ⟨?_, ?_⟩⟩
      · exact exec_migrationGrant_stays (x := x) here mig phase plain
      · exact exec_migrationGrant_ends (x := x) here mig phase asked
      · exact exec_continuationSend_departs here mig phase declined going parked done
      · exact x.depart_guest m.dest k b
      · exact fun i hi => x.depart_regs m.dest k b hi _
      · refine (exec_continuationArrival_lodges here mig phase).trans ?_
        rw [stays, going]
        rfl
      · have home : (m.evicted || (s.env x).group.halted) = true := by simpa using leaves
        refine (exec_continuationArrival_lodges here mig phase).trans ?_
        rw [home]
        rfl
      · exact fun fresh met done => exec_continuationSend_returns here mig phase guest fresh met done
      · refine fun sent away busy => ⟨exec_returnArrival_arrives here mig phase guest sent away busy, fun resident => ?_⟩
        simp only [State.arriveHome, resident]

end Sys2Proof.Machine
end

section
/-! PROOFS. Numbers: what a float operation gives when an operand is a NaN. -/

namespace Sys2Proof.Machine

/-! ### NaNs (R196, R262) -/

/-- R199 flushes subnormal numbers alone. -/
@[simp] theorem readFloat_isNan (f : Fmt) (ftz : Bool) (x : Nat) : (readFloat f ftz x).isNan = (decodeFloat f x).isNan := by
  unfold readFloat
  cases decodeFloat f x with
  | nan sig => rfl
  | inf neg => rfl
  | num neg m e => dsimp only; split <;> rfl

@[simp] theorem readFloat_isSig (f : Fmt) (ftz : Bool) (x : Nat) : (readFloat f ftz x).isSig = (decodeFloat f x).isSig := by
  unfold readFloat
  cases decodeFloat f x with
  | nan sig => rfl
  | inf neg => rfl
  | num neg m e => dsimp only; split <;> rfl

@[simp] theorem Val.neg_isNan (v : Val) : v.neg.isNan = v.isNan := by cases v <;> rfl

@[simp] theorem Val.neg_isSig (v : Val) : v.neg.isSig = v.isSig := by cases v <;> rfl

theorem Val.eq_nan_of_isNan {v : Val} (h : v.isNan = true) : v = .nan v.isSig := by
  cases v with
  | nan sig => rfl
  | inf neg => cases h
  | num neg m e => cases h

theorem Val.mul_nan {x y : Val} (h : x.isNan = true ∨ y.isNan = true) : x.mul y = (.nan (x.isSig || y.isSig), false) := by
  rcases h with h | h
  · rw [Val.eq_nan_of_isNan h]
    cases y <;> simp [Val.mul, Val.isSig]
  · rw [Val.eq_nan_of_isNan h]
    cases x <;> simp [Val.mul, Val.isSig]

theorem sumVals_nan (rm : Rm) {vs : List Val} (h : vs.any Val.isNan = true) : sumVals rm vs = (.nan (vs.any Val.isSig), false) :=
  if_pos h

theorem sumVals_pair_nan (rm : Rm) {x y : Val} (h : x.isNan = true ∨ y.isNan = true) :
    sumVals rm [x, y] = (.nan (x.isSig || y.isSig), false) := by
  rw [sumVals_nan rm (by simpa using h)]
  simp

/-- A NaN among the factors or the addend of a sum of products makes it a NaN. -/
theorem sumProducts_nan (rm : Rm) {ps : List (Val × Val)} {c : Val}
    (h : (∃ p ∈ ps, p.1.isNan = true ∨ p.2.isNan = true) ∨ c.isNan = true) : (sumProducts rm ps c).1.isNan = true := by
  have terms : ((ps.map fun p => p.1.mul p.2).map (·.1) ++ [c]).any Val.isNan = true := by
    rcases h with ⟨p, hp, nan⟩ | nan
    · refine List.any_eq_true.2 ⟨(p.1.mul p.2).1, ?_, by rw [Val.mul_nan nan]; rfl⟩
      exact List.mem_append_left _ (List.mem_map_of_mem (List.mem_map_of_mem hp))
    · simp [nan]
  simp only [sumProducts, sumVals_nan rm terms]
  rfl

theorem roundOp_nan (f : Fmt) (rm : Rm) (ftz : Bool) (r : Nat) (sig invalid : Bool) :
    roundOp f rm ftz r (.nan sig, invalid) = { bits := f.nanBits, flags := { invalid := sig || invalid } } := rfl

theorem roundOp_bits_of_isNan (f : Fmt) (rm : Rm) (ftz : Bool) (r : Nat) {x : Val × Bool} (h : x.1.isNan = true) :
    (roundOp f rm ftz r x).bits = f.nanBits := by
  obtain ⟨v, invalid⟩ := x
  rw [show v = .nan v.isSig from Val.eq_nan_of_isNan h, roundOp_nan]

/-- Settles O25: a NaN operand makes the exact result a NaN, signalling where an operand is, and rounding makes it canonical. -/
theorem nanRules : Obligations.NanRules := by
  unfold Obligations.NanRules
  intro f _ rm ftz a b c
  refine ⟨fun nan op hop => ?_, fun nan => ?_⟩
  · have result : op f rm ftz a b =
        roundOp f rm ftz 0 (.nan ((decodeFloat f a).isSig || (decodeFloat f b).isSig), false) := by
      simp only [List.mem_cons, List.not_mem_nil, or_false] at hop
      obtain rfl | rfl | rfl := hop
      · rw [fAdd, sumVals_pair_nan rm (by simpa using nan)]
        simp
      · rw [fSub, sumVals_pair_nan rm (by simpa using nan)]
        simp
      · rw [fMul, Val.mul_nan (by simpa using nan)]
        simp
    rw [result, roundOp_nan, Bool.or_false]
    exact ⟨rfl, rfl⟩
  · exact roundOp_bits_of_isNan f rm ftz 0 (sumProducts_nan rm (by simpa [or_assoc] using nan))

end Sys2Proof.Machine
end

section
/-! PROOFS. Numbers: reductions, scans and block formats, which work across the lanes of a gang. -/

namespace Sys2Proof.Machine

/-! ### GRED and SCAN (R211, R275, R276) -/

/-- A sum of the lanes' signed values, in 32 bits, is their sum modulo 2^32. -/
theorem ofInt_sum_toInt (ws : List Word) : BitVec.ofInt 32 (ws.map BitVec.toInt).sum = ws.sum := by
  induction ws with
  | nil => rfl
  | cons w ws ih => rw [List.map_cons, List.sum_cons, BitVec.ofInt_add, BitVec.ofInt_toInt, ih, List.sum_cons]

theorem gredValue_addI32 (rm : Rm) (ftz : Bool) (ps : List (Nat × Word)) :
    gredValue .addI32 rm ftz ps = { word := (ps.map (·.2)).sum } := by
  rw [← ofInt_sum_toInt, List.map_map]
  rfl

theorem scanSum_addI32Ex (rm : Rm) (ftz : Bool) (ps : List (Nat × Word)) (i : Nat) :
    scanSum .addI32Ex rm ftz ps i = { word := ((ps.filter fun q => decide (q.1 < i)).map (·.2)).sum } := by
  rw [List.sum_eq_foldl]
  rfl

theorem scanSum_addI32In (rm : Rm) (ftz : Bool) (ps : List (Nat × Word)) (i : Nat) :
    scanSum .addI32In rm ftz ps i = { word := ((ps.filter fun q => decide (q.1 ≤ i)).map (·.2)).sum } := by
  rw [List.sum_eq_foldl]
  rfl

/-- GRED gives every lane one word, and a slice without a lane that takes it raises nothing. -/
theorem State.gred_step {s : State} {p : Option Pfx} {o : GredOp} {d : Dst} {a : Opnd} {h : Bool}
    (able : s.GangAble (.gred p o d a h) p (s.reads [a])) :
    let v := gredValue o (s.gangMode p).1 (s.gangMode p).2 (s.participants p a)
    ∃ t, exec (.gred p o d a h) s = .next t ∧
      t.groups = (s.raiseAll (s.curSlices.map fun x => (x.group, if takeOf x p = 0 then {} else v.flags))).groups ∧
      s.LaneStep t (.gred p o d a h) fun x e w => x.TookWord w p d (fun _ => v.word) (heldOf h [x.readOpnd e s.clock a]) := by
  intro v
  obtain ⟨t, run, lanes, groups, _⟩ := State.runLanes_step (extra := fun _ _ => none) (home := fun _ => false)
    (eval := fun x e => { dst := d, held := heldOf h [x.readOpnd e s.clock a], regs := [.u v.word],
                          flags := if takeOf x p = 0 then {} else v.flags })
    (res := fun x e w => x.TookWord w p d (fun _ => v.word) (heldOf h [x.readOpnd e s.clock a]))
    able (fun _ _ => rfl) (fun x _ => Bool.and_false _) (fun x _ => x.commit_word _ p _ (.u v.word) _ rfl fun _ _ _ => rfl)
  exact ⟨t, run, groups, lanes⟩

/-- A lane instruction whose words go into a general register, with the exceptions of the lanes that take them. -/
theorem State.floats_of_exec {s : State} {i : Instr} {p : Option Pfx} {d : Dst} {os : List Opnd} {h : Bool}
    {f : Slice → Env → Nat → Word × Flags}
    (run : exec i s = s.runLanes i p (s.reads os) fun x e =>
      { dst := d, held := heldOf h ((s.reads os x e).take 1), regs := [mkReg false fun l => (f x e l).1],
        flags := Flags.all ((maskLanes (takeOf x p)).map fun l => (f x e l).2) }) :
    s.Floats i p d os h f := by
  intro able
  rw [run]
  exact State.runFloat (uniform := fun _ _ => false) f able fun _ _ never => absurd never Bool.false_ne_true

theorem State.scan_floats (s : State) (p : Option Pfx) (o : ScanOp) (d : Dst) (a : Opnd) (h : Bool) :
    s.Floats (.scan p o d a h) p d [a] h fun x _ l =>
      let r := scanSum o (s.gangMode p).1 (s.gangMode p).2 (s.participants p a) (4 * x.idx + l)
      (r.word, r.flags) :=
  State.floats_of_exec rfl

/-- Settles O28: every lane takes the value that `gredValue` or `scanSum` gives, whose integer forms are plain sums. -/
theorem reductions : Obligations.Reductions := by
  unfold Obligations.Reductions
  refine ⟨?_, fun s p o d a h => ?_⟩
  · intro s p o d a h ps v able
    obtain ⟨t, run, groups, lanes⟩ := State.gred_step able
    refine ⟨t, run, groups, fun sum => ?_, lanes⟩
    have value : v = { word := (ps.map (·.2)).sum } := by
      subst sum
      exact gredValue_addI32 _ _ ps
    refine ⟨congrArg Summed.word value, groups.trans (congrArg State.groups (State.raiseAll_clean _ s ?_))⟩
    intro q hq
    obtain ⟨x, _, rfl⟩ := List.mem_map.1 hq
    show (if takeOf x p = 0 then ({} : Flags) else v.flags).word = 0
    rw [value, ite_self]
    rfl
  · have scan := s.scan_floats p o d a h
    cases o with
    | addI32Ex => simpa only [scanSum_addI32Ex] using scan
    | addI32In => simpa only [scanSum_addI32In] using scan
    | addF32In => exact scan

/-! ### BSCALE, BPACK and BUNPK (R204, R205, R268 to R270) -/

/-- The four lanes of a slice lie in one aligned run of n lanes, n a multiple of four. -/
theorem laneBase_add_div (x : Slice) {n l : Nat} (hn : 4 ∣ n) (hl : l < 4) : (x.laneBase + l) / n = x.laneBase / n := by
  obtain ⟨k, rfl⟩ := hn
  rw [Slice.laneBase, ← Nat.div_div_eq_div_mul, ← Nat.div_div_eq_div_mul]
  congr 1
  omega

theorem four_dvd_blockSize (x : Slice) : 4 ∣ x.blockSize := by
  unfold Slice.blockSize
  split <;> decide

theorem blockOf_slice (x : Slice) (ps : List (Nat × Word)) {l : Nat} (hl : l < 4) :
    blockOf x.amax x.blockSize ps (x.laneBase + l) = blockOf x.amax x.blockSize ps x.laneBase := by
  simp only [blockOf, laneBase_add_div x (four_dvd_blockSize x) hl]

theorem State.bscale_computes (s : State) (p : Option Pfx) (d : Dst) (a : Opnd) (h : Bool) :
    s.Computes (.bscale p d a h) p d [a] h fun x _ l =>
      let b := blockOf x.amax x.blockSize (s.participants p a) (x.laneBase + l)
      BitVec.ofNat 32 (b.1 + 256 * b.2) :=
  fun able => State.runWord _ able fun x _ _ hl _ => mkReg_lane (fun _ l hl => by
    simp only [blockOf_slice x _ hl, Nat.add_zero]) hl

/-- A lane instruction that gives each lane a word, raises exceptions, and leaves new rst states. -/
theorem State.runSeeded {s : State} {i : Instr} {p : Option Pfx} {d : Dst} {srcs held : Slice → Env → List Reg}
    {reg : Slice → Env → Reg} {flags : Slice → Env → Flags} {seeds : Slice → Env → L4 Word} {home : Slice → Bool}
    (f : Slice → Env → Nat → Word) (able : s.GangAble i p srcs) (stays : ∀ x ∈ s.curSlices, home x = true → x.guest = none)
    (hr : ∀ x e l, l < 4 → (reg x e).lane l = { val := f x e l }) :
    ∃ t, s.runLanes i p srcs (home := home) (eval := fun x e =>
        { dst := d, held := held x e, regs := [reg x e], flags := flags x e, seeds := some (seeds x e) }) = .next t ∧
      t.groups = (s.raiseAll (s.curSlices.map fun x => (x.group, flags x (s.env x)))).groups ∧
      s.LaneStep t i fun x e w =>
        x.Took w d 1 (takeOf x p) (zeroing p) (fun _ l => { val := f x e l }) (held x e) x.masks (seeds x e) x.fmt := by
  obtain ⟨t, run, lanes, groups, _⟩ := State.runLanes_step (home := home) (extra := fun _ _ => none)
    (eval := fun x e => { dst := d, held := held x e, regs := [reg x e], flags := flags x e, seeds := some (seeds x e) })
    (res := fun x e w => x.Took w d 1 (takeOf x p) (zeroing p) (fun _ l => { val := f x e l }) (held x e) x.masks (seeds x e) x.fmt)
    able (fun _ _ => rfl)
    (fun x hx => by
      cases away : home x with
      | false => exact Bool.and_false _
      | true => rw [stays x hx away]; rfl)
    (fun x _ => x.commit_took i p _ _ (by simp) fun k l hl hk => by
      obtain rfl : k = 0 := by simpa using hk
      exact hr x _ l hl)
  exact ⟨t, run, groups, lanes⟩

theorem State.bunpk_floats (s : State) (p : Option Pfx) (d : Dst) (a b : Opnd) (h : Bool) :
    s.Floats (.bunpk p d a b h) p d [a, b] h fun x e l =>
      let w := (s.opVal b x e l).toNat
      let r := roundVal .f32 .rne false 0
        (decodeE2m1 (field (s.opVal a x e l).toNat (4 * ((x.laneBase + l) % 8)) 4) (field w 0 8) (field w 8 8) x.amax)
      (BitVec.ofNat 32 r.bits, r.flags) :=
  State.floats_of_exec rfl

/-- Settles O29: the four lanes of a slice lie in one block and in one packed word, so a uniform result is that of each lane. -/
theorem blockFormats : Obligations.BlockFormats := by
  unfold Obligations.BlockFormats
  refine ⟨State.bscale_computes, ?_, fun s p d a b h => ?_⟩
  · intro s p d a b h nibbles mine able stays
    refine State.runSeeded (home := fun x => x.rm p == .rst) _ able (fun x hx away => stays x hx (by simpa using away)) ?_
    exact fun x _ _ hl => mkReg_lane (fun _ l hl => by
      simp only [laneBase_add_div x (by decide : 4 ∣ 8) hl, Nat.add_zero]) hl
  · simpa only [field, Nat.pow_zero, Nat.div_one, Nat.reducePow] using s.bunpk_floats p d a b h

end Sys2Proof.Machine
end

section
/-! PROOFS. Numbers: FABS and FNEG, the special functions and the roundings to an integer. -/

namespace Sys2Proof.Machine

/-! ### Functions of one source (R216, R265) -/

/-- An instruction that runs as an operation on the words of one source. -/
theorem State.computes_of_unaryOp {s : State} {i : Instr} {p : Option Pfx} {d : Dst} {a : Opnd} {h : Bool} {f : Word → Word}
    (run : exec i s = s.unaryOp i p d a h f) : s.Computes i p d [a] h fun x e l => f (s.opVal a x e l) := by
  intro able
  rw [run]
  exact State.unaryOp_step able

/-- An instruction that runs as a float operation on the elements of one source. -/
theorem State.floats_of_floatOp {s : State} {i : Instr} {p : Option Pfx} {t : FType} {d : Dst} {a : Opnd} {h : Bool}
    {f : Slice → Nat → FRes} (run : exec i s = s.floatOp i p t d [a] h fun x v => f x (arg v 0)) :
    s.Floats i p d [a] h fun x e l => floatWord t fun k => f x (floatElem t (s.opVal a x e l) k) := by
  intro able
  rw [run]
  exact State.floatOp_step able

/-- Settles O23: FABS and FNEG run as word operations with the sign bits, the others as float operations on the elements of a. -/
theorem floatFunctions : Obligations.FloatFunctions := by
  unfold Obligations.FloatFunctions
  intro s p t d a h sign
  refine ⟨State.computes_of_unaryOp (f := (· &&& ~~~sign)) rfl, State.computes_of_unaryOp (f := (· ^^^ sign)) rfl,
    fun cf special => ?_, fun cf rounding => ?_⟩
  · have run : exec (cf.1 p t d a h) s = s.specialOp cf.2 (cf.1 p t d a h) p t d a h := by
      simp only [List.mem_cons, List.not_mem_nil, or_false] at special
      obtain rfl | rfl | rfl | rfl | rfl | rfl | rfl | rfl | rfl := special <;> rfl
    exact State.floats_of_floatOp run
  · have run : exec (cf.1 p t d a h) s = s.floatOp (cf.1 p t d a h) p t d [a] h fun x v =>
        fToIntegral t.fmt (cf.2 x).1 (cf.2 x).2 x.ftz (arg v 0) := by
      simp only [List.mem_cons, List.not_mem_nil, or_false] at rounding
      obtain rfl | rfl | rfl | rfl := rounding <;> rfl
    exact State.floats_of_floatOp run

end Sys2Proof.Machine
end

section
/-! PROOFS. Formats: bytes and words, the fields of a base word, codes, and the prefix. -/

set_option Elab.async false

namespace Sys2Proof

/-! ### Bytes and words (R2) -/

theorem bytesToNat_natToBytes (n x : Nat) : bytesToNat (natToBytes n x) = x % 256 ^ n := by
  induction n generalizing x with
  | zero => simp [natToBytes, bytesToNat, Nat.mod_one]
  | succ n ih =>
    show (BitVec.ofNat 8 x).toNat + 256 * bytesToNat (natToBytes n (x / 256)) = _
    rw [ih, BitVec.toNat_ofNat, Nat.pow_succ' (m := 256)]
    exact Nat.mod_mul.symm

theorem natToBytes_bytesToNat {n : Nat} {bs : List Byte} (len : bs.length = n) : natToBytes n (bytesToNat bs) = bs := by
  subst len
  induction bs with
  | nil => rfl
  | cons b bs ih =>
    have lt := b.isLt
    have quot : (b.toNat + 256 * bytesToNat bs) / 256 = bytesToNat bs := by omega
    have low : BitVec.ofNat 8 (b.toNat + 256 * bytesToNat bs) = b := BitVec.eq_of_toNat_eq (by simp; omega)
    rw [List.length_cons, bytesToNat, natToBytes, quot, ih, low]

theorem bytesToNat_lt (bs : List Byte) : bytesToNat bs < 256 ^ bs.length := by
  induction bs with
  | nil => simp [bytesToNat]
  | cons b bs ih =>
    have := b.isLt
    rw [bytesToNat, List.length_cons, Nat.pow_succ]
    omega

@[simp] theorem natToBytes_length (n x : Nat) : (natToBytes n x).length = n := by
  induction n generalizing x with
  | zero => rfl
  | succ n ih => rw [natToBytes, List.length_cons, ih]

@[simp] theorem wordBytes_length (w : Word) : (wordBytes w).length = 4 := natToBytes_length 4 _
@[simp] theorem halfBytes_length (h : Half) : (halfBytes h).length = 2 := natToBytes_length 2 _

@[simp] theorem wordOf_wordBytes (w : Word) (rest : List Byte) : wordOf (wordBytes w ++ rest) = w := by
  rw [wordOf, List.take_left' (wordBytes_length w), wordBytes, bytesToNat_natToBytes]
  exact BitVec.eq_of_toNat_eq (by have := w.isLt; simp; omega)

@[simp] theorem halfOf_halfBytes (h : Half) (rest : List Byte) : halfOf (halfBytes h ++ rest) = h := by
  rw [halfOf, List.take_left' (halfBytes_length h), halfBytes, bytesToNat_natToBytes]
  exact BitVec.eq_of_toNat_eq (by have := h.isLt; simp; omega)

theorem wordBytes_wordOf {bs : List Byte} (h : 4 ≤ bs.length) : wordBytes (wordOf bs) = bs.take 4 := by
  have len : (bs.take 4).length = 4 := by simp [h]
  have lt := bytesToNat_lt (bs.take 4)
  rw [len] at lt
  rw [wordBytes, wordOf, BitVec.toNat_ofNat, Nat.mod_eq_of_lt (show _ < 2 ^ 32 from lt), natToBytes_bytesToNat len]

theorem halfBytes_halfOf {bs : List Byte} (h : 2 ≤ bs.length) : halfBytes (halfOf bs) = bs.take 2 := by
  have len : (bs.take 2).length = 2 := by simp [h]
  have lt := bytesToNat_lt (bs.take 2)
  rw [len] at lt
  rw [halfBytes, halfOf, BitVec.toNat_ofNat, Nat.mod_eq_of_lt (show _ < 2 ^ 16 from lt), natToBytes_bytesToNat len]

/-- The lowest bit of a word is that of its first halfword. -/
theorem halfOf_getLsbD_zero (bs : List Byte) : (halfOf bs).getLsbD 0 = (wordOf bs).getLsbD 0 := by
  cases bs with
  | nil => rfl
  | cons a bs =>
    have even : ∀ n, (a.toNat + 256 * n).testBit 0 = a.toNat.testBit 0 := fun n => by
      have : (a.toNat + 256 * n) % 2 = a.toNat % 2 := by omega
      simp only [Nat.testBit_zero, this]
    simp only [halfOf, wordOf, List.take_succ_cons, bytesToNat, BitVec.getLsbD_ofNat, even]
    rfl

/-! ### Words and their fields (R229) -/

@[simp] theorem Fields.ofWord_word (f : Fields) : Fields.ofWord f.word = f := by
  obtain ⟨b, a, d, h, fn, maj⟩ := f
  simp only [Fields.ofWord, Fields.word, Fields.mk.injEq]
  refine ⟨?_, ?_, ?_, ?_, ?_, ?_⟩
  all_goals (try ext i hi); simp
  all_goals grind

theorem Fields.word_ofWord {w : Word} (h : w.getLsbD 0 = true) : (Fields.ofWord w).word = w := by
  ext i hi
  simp [Fields.ofWord, Fields.word]
  grind

@[simp] theorem Fields.word_bit (f : Fields) : f.word.getLsbD 0 = true := by
  rw [Fields.word, BitVec.getLsbD_append]
  rfl

@[simp] theorem Fields.isPrefix_word (f : Fields) : isPrefix f.word = (f.maj == 0x3F#6) :=
  congrArg (fun g : Fields => g.maj == 0x3F#6) f.ofWord_word

@[simp] theorem Pfx.word_bit (p : Pfx) : p.word.getLsbD 0 = true := by
  rw [Pfx.word, BitVec.getLsbD_append]
  rfl

/-! ### Codes and what they decode to (R236) -/

/-- A literal among the operands is the word that follows. -/
def Opnd.LitIs (lit : Word) (o : Opnd) : Prop := ∀ w, o = .lit w → w = lit

/-- The operand with the word that follows in a literal's place. -/
def Opnd.relit (lit : Word) : Opnd → Opnd
  | .lit _ => .lit lit
  | x => x

@[simp] theorem Opnd.relit_eq_self {lit : Word} {o : Opnd} : o.relit lit = o ↔ o.LitIs lit := by
  cases o with
  | lit w => exact ⟨fun h v e => by cases h; cases e; rfl, fun h => by rw [h w rfl]; rfl⟩
  | _ => exact ⟨fun _ _ e => (nomatch e), fun _ => rfl⟩

@[simp] theorem Opnd.ofCode_code (lit : Word) (o : Opnd) : Opnd.ofCode lit o.code = some (o.relit lit) := by
  cases o with
  | v i =>
    have : (BitVec.ofNat 7 i.val).toNat = i.val := by rw [BitVec.toNat_ofNat]; omega
    simp [Opnd.ofCode, Opnd.code, Opnd.relit, this]
  | o i =>
    have : (BitVec.ofNat 7 (96 + i.val)).toNat = 96 + i.val := by rw [BitVec.toNat_ofNat]; omega
    simp [Opnd.ofCode, Opnd.code, Opnd.relit, this]
  | l i =>
    have : (BitVec.ofNat 7 (112 + i.val)).toNat = 112 + i.val := by rw [BitVec.toNat_ofNat]; omega
    have : ¬ 112 + i.val < 96 ∧ ¬ 112 + i.val - 96 < 16 := by omega
    simp [Opnd.ofCode, Opnd.code, Opnd.relit, *]
  | k i =>
    have : (BitVec.ofNat 7 (116 + i.val)).toNat = 116 + i.val := by rw [BitVec.toNat_ofNat]; omega
    have : ¬ 116 + i.val < 96 ∧ ¬ 116 + i.val - 96 < 16 ∧ ¬ 116 + i.val - 112 < 4 := by omega
    simp [Opnd.ofCode, Opnd.code, Opnd.relit, *]
  | zero | lane | slice | group | work | core | clock | lit w => simp [Opnd.ofCode, Opnd.code, Opnd.relit]

@[simp] theorem Dst.ofCode_code (d : Dst) : Dst.ofCode d.code = some d := by
  cases d with
  | v i =>
    have : (BitVec.ofNat 7 i.val).toNat = i.val := by rw [BitVec.toNat_ofNat]; omega
    simp [Dst.ofCode, Dst.code, this]
  | o i =>
    have : (BitVec.ofNat 7 (96 + i.val)).toNat = 96 + i.val := by rw [BitVec.toNat_ofNat]; omega
    simp [Dst.ofCode, Dst.code, this]
  | zero => rfl

@[simp] theorem Cond.ofCode_code (c : Cond) : Cond.ofCode c.code = some c := by cases c <;> rfl
@[simp] theorem Fmt.ofCode_code (f : Fmt) : Fmt.ofCode f.code = some f := by cases f <;> rfl
theorem Fmt.code_lt (f : Fmt) : f.code < 16 := by cases f <;> decide
@[simp] theorem Use.ofCode_code (u : Use) : Use.ofCode u.code = some u := by cases u <;> rfl
@[simp] theorem Scope.ofCode_code (s : Scope) : Scope.ofCode s.code = some s := by cases s <;> rfl
@[simp] theorem Order.ofCode_code (o : Order) : Order.ofCode o.code = o := by cases o <;> rfl

/-! ### Fields that share a place (R229) -/

@[simp] theorem imm_split (i : BitVec 8) : BitVec.ofBool i[7] ++ i.extractLsb' 0 7 = i := by
  ext k hk
  simp
  grind

@[simp] theorem off_split (o : BitVec 14) : o.extractLsb' 7 7 ++ o.extractLsb' 0 7 = o := by
  ext k hk
  simp
  grind

/-! ### The prefix (R232) -/

theorem Opnd.code_eq_zero {o : Opnd} (h : o.code = 0) : o = .v 0 := by
  have zero := Opnd.ofCode_code 0 o
  rw [h] at zero
  cases o <;> simp_all [Opnd.ofCode, Opnd.relit]

theorem cOfCode_cCode {lit : Word} {c : Option Opnd} (v0 : c ≠ some (.v 0)) (third : ∀ o, c = some o → o.LitIs lit) :
    cOfCode lit (cCode c) = some c := by
  cases c with
  | none => rfl
  | some o =>
    have : ¬ o.code = 0 := fun h => v0 (congrArg some (Opnd.code_eq_zero h))
    rw [cCode, cOfCode, if_neg this, Opnd.ofCode_code, Opnd.relit_eq_self.2 (third o rfl)]
    rfl

theorem Opnd.code_of_ofCode {lit : Word} {k : BitVec 7} {o : Opnd} (h : Opnd.ofCode lit k = some o) : o.code = k ∧ o.LitIs lit := by
  refine ⟨?_, Opnd.relit_eq_self.1 ?_⟩
  · unfold Opnd.ofCode at h
    apply BitVec.eq_of_toNat_eq
    have := k.isLt
    split at h
    · cases h; simp [Opnd.code]
    split at h
    · cases h; simp [Opnd.code]; omega
    split at h
    · cases h; simp [Opnd.code]; omega
    split at h
    · cases h; simp [Opnd.code]; omega
    split at h <;> cases h <;> simp_all [Opnd.code]
  · unfold Opnd.ofCode at h
    split at h
    · cases h; rfl
    split at h
    · cases h; rfl
    split at h
    · cases h; rfl
    split at h
    · cases h; rfl
    split at h <;> cases h <;> rfl

theorem cCode_of_cOfCode {lit : Word} {k : BitVec 7} {c : Option Opnd} (h : cOfCode lit k = some c) :
    cCode c = k ∧ ∀ o, c = some o → o.LitIs lit := by
  unfold cOfCode at h
  split at h
  · next zero => cases h; exact ⟨zero.symm, nofun⟩
  · obtain ⟨o, ho, rfl⟩ := Option.map_eq_some_iff.1 h
    obtain ⟨code, isLit⟩ := Opnd.code_of_ofCode ho
    exact ⟨code, fun o' e => Option.some.inj e ▸ isLit⟩

theorem Use.code_of_ofCode {k : BitVec 3} {u : Use} (h : Use.ofCode k = some u) : u.code = k := by
  unfold Use.ofCode at h
  apply BitVec.eq_of_toNat_eq
  split at h <;> cases h <;> simp_all [Use.code]

theorem Scope.code_of_ofCode {k : BitVec 3} {u : Scope} (h : Scope.ofCode k = some u) : u.code = k := by
  unfold Scope.ofCode at h
  apply BitVec.eq_of_toNat_eq
  split at h <;> cases h <;> simp_all [Scope.code]

theorem Order.code_ofCode (k : BitVec 2) : (Order.ofCode k).code = k := by
  revert k
  decide

section
variable (p : Pfx)

theorem Pfx.word_use : p.word.extractLsb' 26 3 = p.use.code := by
  rw [Pfx.word]
  iterate 8 rw [BitVec.extractLsb'_append_eq_of_le (by decide)]
  rw [BitVec.extractLsb'_append_eq_of_add_le (by decide), BitVec.extractLsb'_eq_self]

theorem Pfx.word_order : p.word.extractLsb' 24 2 = p.order.code := by
  rw [Pfx.word]
  iterate 7 rw [BitVec.extractLsb'_append_eq_of_le (by decide)]
  rw [BitVec.extractLsb'_append_eq_of_add_le (by decide), BitVec.extractLsb'_eq_self]

theorem Pfx.word_scope : p.word.extractLsb' 21 3 = p.scope.code := by
  rw [Pfx.word]
  iterate 6 rw [BitVec.extractLsb'_append_eq_of_le (by decide)]
  rw [BitVec.extractLsb'_append_eq_of_add_le (by decide), BitVec.extractLsb'_eq_self]

theorem Pfx.word_c : p.word.extractLsb' 14 7 = cCode p.c := by
  rw [Pfx.word]
  iterate 5 rw [BitVec.extractLsb'_append_eq_of_le (by decide)]
  rw [BitVec.extractLsb'_append_eq_of_add_le (by decide), BitVec.extractLsb'_eq_self]

theorem Pfx.word_rm : p.word.extractLsb' 11 3 = p.rm := by
  rw [Pfx.word]
  iterate 4 rw [BitVec.extractLsb'_append_eq_of_le (by decide)]
  rw [BitVec.extractLsb'_append_eq_of_add_le (by decide), BitVec.extractLsb'_eq_self]

theorem Pfx.word_z : p.word.getLsbD 10 = p.z := by
  rw [Pfx.word]
  iterate 4 rw [BitVec.getLsbD_append]
  simp

theorem Pfx.word_mask : p.word.extractLsb' 7 3 = p.mask := by
  rw [Pfx.word]
  iterate 2 rw [BitVec.extractLsb'_append_eq_of_le (by decide)]
  rw [BitVec.extractLsb'_append_eq_of_add_le (by decide), BitVec.extractLsb'_eq_self]

theorem Pfx.word_high : p.word.extractLsb' 29 3 = 0#3 := by
  rw [Pfx.word]
  iterate 9 rw [BitVec.extractLsb'_append_eq_of_le (by decide)]
  rw [BitVec.extractLsb'_eq_self]

@[simp] theorem Pfx.isPrefix_word : isPrefix p.word = true := by
  have : p.word.extractLsb' 1 6 = 0x3F#6 := by
    rw [Pfx.word]
    rw [BitVec.extractLsb'_append_eq_of_le (by decide), BitVec.extractLsb'_append_eq_of_add_le (by decide), BitVec.extractLsb'_eq_self]
  simp [isPrefix, this]
end

theorem Pfx.ofWord_word {lit : Word} {p : Pfx} (v0 : p.c ≠ some (.v 0)) (third : ∀ c, p.c = some c → c.LitIs lit) :
    Pfx.ofWord lit p.word = some p := by
  simp only [Pfx.ofWord, p.word_use, p.word_order, p.word_scope, p.word_c, p.word_rm, p.word_z, p.word_mask, p.word_high,
    cOfCode_cCode v0 third, Use.ofCode_code, Scope.ofCode_code, Order.ofCode_code]
  rfl

theorem extractLsb'_one {n : Nat} (w : BitVec n) (k : Nat) : w.extractLsb' k 1 = BitVec.ofBool (w.getLsbD k) := by
  ext i hi
  obtain rfl : i = 0 := by omega
  simp

theorem prefix_parts {w : Word} (bit : w.getLsbD 0 = true) (pre : w.extractLsb' 1 6 = 0x3F#6) (high : w.extractLsb' 29 3 = 0#3) :
    (0#3 ++ w.extractLsb' 26 3 ++ w.extractLsb' 24 2 ++ w.extractLsb' 21 3 ++ w.extractLsb' 14 7 ++ w.extractLsb' 11 3 ++
      BitVec.ofBool (w.getLsbD 10) ++ w.extractLsb' 7 3 ++ 0x3F#6 ++ 1#1 : Word) = w := by
  have low : 1#1 = w.extractLsb' 0 1 := by rw [extractLsb'_one, bit]; rfl
  rw [← high, ← pre, low, ← extractLsb'_one]
  iterate 9 rw [BitVec.extractLsb'_append_extractLsb'_eq_extractLsb' (by rfl)]
  exact BitVec.extractLsb'_eq_self

theorem Pfx.word_of_ofWord {lit w : Word} {p : Pfx} (bit : w.getLsbD 0 = true) (pre : isPrefix w = true) (h : Pfx.ofWord lit w = some p) :
    p.word = w ∧ ∀ c, p.c = some c → c.LitIs lit := by
  unfold Pfx.ofWord at h
  split at h
  · cases h
  · next high =>
    simp only [Option.bind_eq_bind, Option.bind_eq_some_iff] at h
    obtain ⟨use, hu, scope, hs, c, hc, e⟩ := h
    cases e
    obtain ⟨code, third⟩ := cCode_of_cOfCode hc
    refine ⟨?_, third⟩
    rw [Pfx.word, Use.code_of_ofCode hu, Scope.code_of_ofCode hs, Order.code_ofCode, code]
    exact prefix_parts bit (by simpa [isPrefix] using pre) (by simpa using high)

end Sys2Proof
end

section
/-! PROOFS. Formats: the opcode map applied to an instruction's own fields gives the instruction. -/

set_option Elab.async false

namespace Sys2Proof

/-! ### The opcode map, shape by shape (R239) -/

/-- The operands that stand in the fields of an instruction's base word, or in COPYMM's prefix. -/
def Instr.srcs (i : Instr) : List Opnd := (i.uses.map fun u => u.srcs.map (·.1)).getD []

section
variable {p : Option Pfx} {lit : Word} {d : Dst} {a b : Opnd} {h : Bool} {fn : BitVec 3} {maj : BitVec 6} {x y z : BitVec 7} {i : Instr}

theorem Raw.dab_eq_some {k : Dst → Opnd → Opnd → Bool → Instr} (inj : ∀ a' b', k d a' b' h = k d a b h ↔ a' = a ∧ b' = b) :
    Raw.dab ⟨p, lit, ⟨b.code, a.code, d.code, h, fn, maj⟩⟩ k = some (k d a b h) ↔ ∀ o ∈ [a, b], o.LitIs lit := by
  simp [Raw.dab, Raw.D, Raw.A, Raw.B, inj]

theorem Raw.da_eq_some {k : Dst → Opnd → Bool → Instr} (inj : ∀ a', k d a' h = k d a h ↔ a' = a) :
    Raw.da ⟨p, lit, ⟨x, a.code, d.code, h, fn, maj⟩⟩ k = some (k d a h) ↔ ∀ o ∈ [a], o.LitIs lit := by
  simp [Raw.da, Raw.D, Raw.A, inj]

theorem Raw.db_eq_some {k : Dst → Opnd → Instr} (inj : ∀ b', k d b' = k d b ↔ b' = b) :
    Raw.db ⟨p, lit, ⟨b.code, x, d.code, h, fn, maj⟩⟩ k = some (k d b) ↔ ∀ o ∈ [b], o.LitIs lit := by
  simp [Raw.db, Raw.D, Raw.B, inj]

theorem Raw.ab_eq_some {k : Opnd → Opnd → Bool → Instr} (inj : ∀ a' b', k a' b' h = k a b h ↔ a' = a ∧ b' = b) :
    Raw.ab ⟨p, lit, ⟨b.code, a.code, x, h, fn, maj⟩⟩ k = some (k a b h) ↔ ∀ o ∈ [a, b], o.LitIs lit := by
  simp [Raw.ab, Raw.A, Raw.B, inj]

theorem Raw.a1_eq_some {k : Opnd → Bool → Instr} (inj : ∀ a', k a' h = k a h ↔ a' = a) :
    Raw.a1 ⟨p, lit, ⟨x, a.code, y, h, fn, maj⟩⟩ k = some (k a h) ↔ ∀ o ∈ [a], o.LitIs lit := by
  simp [Raw.a1, Raw.A, inj]

theorem Raw.b1_eq_some {k : Opnd → Instr} (inj : ∀ b', k b' = k b ↔ b' = b) :
    Raw.b1 ⟨p, lit, ⟨b.code, x, y, h, fn, maj⟩⟩ k = some (k b) ↔ ∀ o ∈ [b], o.LitIs lit := by
  simp [Raw.b1, Raw.B, inj]

theorem Raw.d1_eq_some {k : Dst → Instr} :
    Raw.d1 ⟨p, lit, ⟨x, y, d.code, h, fn, maj⟩⟩ k = some (k d) ↔ ∀ o ∈ ([] : List Opnd), o.LitIs lit := by
  simp [Raw.d1, Raw.D]

theorem Raw.dai_eq_some {k : Dst → Opnd → BitVec 8 → Instr} {m : BitVec 8} (inj : ∀ a', k d a' m = k d a m ↔ a' = a) :
    Raw.dai ⟨p, lit, ⟨m.extractLsb' 0 7, a.code, d.code, m.getLsbD 7, fn, maj⟩⟩ k = some (k d a m) ↔ ∀ o ∈ [a], o.LitIs lit := by
  simp [Raw.dai, Raw.D, Raw.A, Fields.imm, inj]

theorem Raw.mem_eq_some {k : Opnd → BitVec 8 → Instr} {m : BitVec 8} (inj : ∀ a', k a' m = k a m ↔ a' = a) :
    Raw.mem ⟨p, lit, ⟨m.extractLsb' 0 7, a.code, x, m.getLsbD 7, fn, maj⟩⟩ k = some (k a m) ↔ ∀ o ∈ [a], o.LitIs lit := by
  simp [Raw.mem, Raw.A, Fields.imm, inj]

theorem Raw.stOp_eq_some {s : StSize} {m : BitVec 8} :
    Raw.stOp ⟨p, lit, ⟨m.extractLsb' 0 7, a.code, b.code, m.getLsbD 7, fn, maj⟩⟩ s = some (.st p s b a m) ↔
      ∀ o ∈ [b, a], o.LitIs lit := by
  simp [Raw.stOp, Raw.S, Raw.A, Fields.imm]

theorem Raw.shift_eq_some {k : Dst → Opnd → BitVec 5 → Instr} {n : BitVec 5} (inj : ∀ a', k d a' n = k d a n ↔ a' = a) :
    Raw.shift ⟨p, lit, ⟨(imm5 n).extractLsb' 0 7, a.code, d.code, (imm5 n).getLsbD 7, fn, maj⟩⟩ k = some (k d a n) ↔
      ∀ o ∈ [a], o.LitIs lit := by
  have small : (imm5 n).toNat < 32 := by rw [imm5, BitVec.toNat_append]; simp; omega
  have low : (imm5 n).extractLsb' 0 5 = n := by
    ext j hj
    simp [imm5]
    grind
  simp [Raw.shift, Raw.D, Raw.A, Fields.imm, small, low, inj]

theorem Raw.branch_eq_some {k : BitVec 14 → Opnd → Instr} {o : BitVec 14} (inj : ∀ a', k o a' = k o a ↔ a' = a) :
    Raw.branch ⟨p, lit, ⟨o.extractLsb' 7 7, o.extractLsb' 0 7, a.code, h, fn, maj⟩⟩ k = some (k o a) ↔ ∀ o ∈ [a], o.LitIs lit := by
  simp [Raw.branch, Raw.S, Fields.off, inj]

theorem Raw.conv_eq_some {k : Fmt → Fmt → BitVec 3 → Dst → Opnd → Bool → Instr} {f g : Fmt} {pos : BitVec 3}
    (inj : ∀ a', k f g pos d a' h = k f g pos d a h ↔ a' = a) :
    Raw.conv ⟨p, lit, ⟨convB g pos, a.code, d.code, h, fn, maj⟩⟩ f.code k = some (k f g pos d a h) ↔ ∀ o ∈ [a], o.LitIs lit := by
  have code : ((convB g pos).extractLsb' 0 4).toNat = g.code := by
    have := g.code_lt
    have : (convB g pos).extractLsb' 0 4 = BitVec.ofNat 4 g.code := by
      ext j hj
      simp [convB]
      grind
    rw [this, BitVec.toNat_ofNat]
    omega
  have place : (convB g pos).extractLsb' 4 3 = pos := by
    ext j hj
    simp [convB]
    grind
  simp [Raw.conv, Raw.da, Raw.D, Raw.A, code, place, inj]

theorem condD_dHigh (c : Cond) (m : BitVec 3) : (condD c m).extractLsb' 3 4 = c.code := by
  ext j hj
  simp [condD]
  grind

theorem condD_dLow (c : Cond) (m : BitVec 3) : (condD c m).extractLsb' 0 3 = m := by
  ext j hj
  simp [condD]
  grind

theorem maskField_maskCode (m : BitVec 3) : maskField (maskCode m) = m := by
  ext j hj
  simp [maskField, maskCode]
  grind

theorem encArgs_dHigh (args demand : BitVec 4) : (encArgs args demand).extractLsb' 3 4 = args := by
  ext j hj
  simp [encArgs]
  grind

theorem encArgs_demand (args demand : BitVec 4) :
    (encArgs args demand).extractLsb' 0 3 ++ BitVec.ofBool (demand.getLsbD 0) = demand := by
  ext j hj
  simp [encArgs]
  grind

end

section
variable {p : Option Pfx} {lit : Word} {a b d : BitVec 7} {h : Bool} {fn : BitVec 3}

theorem Raw.instr_icmp : Raw.instr ⟨p, lit, ⟨b, a, d, h, fn, 0x07#6⟩⟩ = (Cond.ofCode (d.extractLsb' 3 4)).bind fun c =>
    Raw.ab ⟨p, lit, ⟨b, a, d, h, fn, 0x07#6⟩⟩ (.icmp p c (IType.ofCode fn) (d.extractLsb' 0 3)) := rfl

theorem Raw.instr_icmpi : Raw.instr ⟨p, lit, ⟨b, a, d, h, fn, 0x13#6⟩⟩ = (Cond.ofCode (d.extractLsb' 3 4)).bind fun c =>
    Raw.mem ⟨p, lit, ⟨b, a, d, h, fn, 0x13#6⟩⟩ (.icmpi p c (IType.ofCode fn) (d.extractLsb' 0 3)) := rfl

theorem Raw.instr_fcmp : Raw.instr ⟨p, lit, ⟨b, a, d, h, fn, 0x1A#6⟩⟩ = (FType.ofCode fn).bind fun t =>
    (Cond.ofCode (d.extractLsb' 3 4)).bind fun c =>
      Raw.ab ⟨p, lit, ⟨b, a, d, h, fn, 0x1A#6⟩⟩ (.fcmp p c t (d.extractLsb' 0 3)) := rfl

theorem Raw.instr_cvtf : Raw.instr ⟨p, lit, ⟨b, a, d, h, fn, 0x1D#6⟩⟩ =
    if fn.toNat < 7 then Raw.conv ⟨p, lit, ⟨b, a, d, h, fn, 0x1D#6⟩⟩ fn.toNat (.cvtf p) else none := rfl

theorem Raw.instr_cvti : Raw.instr ⟨p, lit, ⟨b, a, d, h, fn, 0x1E#6⟩⟩ =
    if fn.toNat < 6 then Raw.conv ⟨p, lit, ⟨b, a, d, h, fn, 0x1E#6⟩⟩ (fn.toNat + 7) (.cvti p) else none := rfl

theorem Raw.instr_mset : Raw.instr ⟨p, lit, ⟨b, a, d, h, 0#3, 0x23#6⟩⟩ =
    Raw.a1 ⟨p, lit, ⟨b, a, d, h, 0#3, 0x23#6⟩⟩ (.mset (maskField d)) := rfl

theorem Raw.instr_mget : Raw.instr ⟨p, lit, ⟨b, a, d, h, 1#3, 0x23#6⟩⟩ =
    Raw.d1 ⟨p, lit, ⟨b, a, d, h, 1#3, 0x23#6⟩⟩ (.mget · (maskField a)) := rfl

theorem Raw.instr_mand : Raw.instr ⟨p, lit, ⟨b, a, d, h, 2#3, 0x23#6⟩⟩ = some (.mand (maskField d) (maskField a) (maskField b)) := rfl
theorem Raw.instr_mor : Raw.instr ⟨p, lit, ⟨b, a, d, h, 3#3, 0x23#6⟩⟩ = some (.mor (maskField d) (maskField a) (maskField b)) := rfl
theorem Raw.instr_mnot : Raw.instr ⟨p, lit, ⟨b, a, d, h, 4#3, 0x23#6⟩⟩ = some (.mnot (maskField d) (maskField a)) := rfl
theorem Raw.instr_mxor : Raw.instr ⟨p, lit, ⟨b, a, d, h, 5#3, 0x23#6⟩⟩ = some (.mxor (maskField d) (maskField a) (maskField b)) := rfl

theorem Raw.instr_mbarWait : Raw.instr ⟨p, lit, ⟨b, a, d, h, 3#3, 0x3C#6⟩⟩ =
    Raw.ab ⟨p, lit, ⟨b, a, d, h, 3#3, 0x3C#6⟩⟩ (.mbarWait p (maskField d)) := rfl
theorem Raw.instr_mbarTest : Raw.instr ⟨p, lit, ⟨b, a, d, h, 5#3, 0x3C#6⟩⟩ =
    Raw.ab ⟨p, lit, ⟨b, a, d, h, 5#3, 0x3C#6⟩⟩ (.mbarTest p (maskField d)) := rfl

theorem Raw.instr_call : Raw.instr ⟨p, lit, ⟨b, a, d, h, 0#3, 0x29#6⟩⟩ =
    some (.call (b ++ a) (d.extractLsb' 3 4) (d.extractLsb' 0 3 ++ BitVec.ofBool h)) := rfl

theorem Raw.instr_callIndirect : Raw.instr ⟨p, lit, ⟨b, a, d, h, 1#3, 0x29#6⟩⟩ =
    Raw.a1 ⟨p, lit, ⟨b, a, d, false, 1#3, 0x29#6⟩⟩
      (fun o _ => .callIndirect o (d.extractLsb' 3 4) (d.extractLsb' 0 3 ++ BitVec.ofBool h)) := rfl
end

theorem Uses.ok_of_wf {u : Uses} (h : u.wf = true) : u.ok = true := by
  simp only [Uses.wf, Bool.and_eq_true] at h
  exact h.1.1.1.1

theorem IType.ofCode_code (t : IType) : IType.ofCode (BitVec.ofNat 3 t.code.toNat) = t := by cases t <;> rfl
theorem FType.ofCode_code (t : FType) : FType.ofCode (BitVec.ofNat 3 t.code.toNat) = some t := by cases t <;> rfl

/-- FN of CVTF is the code of a float or scale format, that of CVTI the code of an integer format less 7 (R266). -/
theorem Fmt.floatCode {f : Fmt} (h : f.isFloat = true) : (BitVec.ofNat 3 f.code).toNat = f.code ∧ f.code < 7 := by
  cases f <;> simp_all [Fmt.isFloat, Fmt.code]

theorem Fmt.intCode {f : Fmt} (h : f.isInt = true) : (BitVec.ofNat 3 (f.code - 7)).toNat + 7 = f.code ∧ (BitVec.ofNat 3 (f.code - 7)).toNat < 6 := by
  cases f <;> simp_all [Fmt.isInt, Fmt.code]

/-- An encoding whose fields name no operand. -/
theorem eq_some_of_no_source {r : Option Instr} {i : Instr} {lit : Word} (h : r = some i) :
    r = some i ↔ ∀ o ∈ ([] : List Opnd), o.LitIs lit :=
  iff_of_true h (List.forall_mem_nil _)

theorem Raw.instr_eq_some_iff {i : Instr} {f : Fields} {lit : Word} (base : i.base = .word f) (wf : i.wf = true)
    (third : ∀ c, i.pfx.bind (·.c) = some c → c.LitIs lit) :
    Raw.instr ⟨i.pfx, lit, f⟩ = some i ↔ ∀ o ∈ i.srcs, o.LitIs lit := by
  cases i with
  | and p d a b h | or p d a b h | xor p d a b h | andn p d a b h | orn p d a b h | xnor p d a b h
  | shl p d a b h | shr p d a b h | sha p d a b h | rotl p d a b h | rotr p d a b h
  | bfe p d a b h | bfi p d a b h | perm p d a b h | bpack p d a b h | bunpk p d a b h
  | qmin p d a b h | qmax p d a b h | gprep d a b h | gbind d a b h | sqpush d a b h =>
    cases base
    exact Raw.dab_eq_some (by simp)
  | iadd p t d a b h | isub p t d a b h | imul p t d a b h | imulh p t d a b h | imad p t d a b h
  | imin p t d a b h | imax p t d a b h
  | fadd p t d a b h | fsub p t d a b h | fmul p t d a b h | ffma p t d a b h | fmin p t d a b h | fmax p t d a b h
  | fdot2 p t d a b h | shfl p t d a b h | atom p t d a b h | atomb p t d a b h | div p t d a b h | rem p t d a b h =>
    cases base
    cases t <;> exact Raw.dab_eq_some (by simp)
  | sel p n d a b h | lea p n d a b h =>
    cases base
    rw [BitVec.ofNat_toNat, BitVec.setWidth_eq]
    exact Raw.dab_eq_some (by simp)
  | not p d a h | popc p d a h | clz p d a h | ctz p d a h | brev p d a h | iabs p d a h | ineg p d a h
  | sext8 p d a h | sext16 p d a h | zext8 p d a h | zext16 p d a h | mov p d a h | bscale p d a h
  | migrate d a h | migq d a h | spawn d a h | tdone d a h | tdoneAbandon d a h | glaunch d a h
  | gctlStatus d a h | gctlRelease d a h | gctlInval d a h | tstat d a h | cseal d a h | cpoll d a h =>
    cases base
    exact Raw.da_eq_some (by simp)
  | fabs p t d a h | fneg p t d a h | frcp p t d a h | frsq p t d a h | fsqrt p t d a h | fexp2 p t d a h
  | flog2 p t d a h | fsin p t d a h | fcos p t d a h | ftanh p t d a h | fsigm p t d a h | ffloor p t d a h
  | fceil p t d a h | ftrunc p t d a h | frint p t d a h | vote p t d a h | gred p t d a h | scan p t d a h =>
    cases base
    cases t <;> exact Raw.da_eq_some (by simp)
  | qget p d b | sqpop d b | csrr d b =>
    cases base
    exact Raw.db_eq_some (by simp)
  | fmtget d | tnextS d | tnextG d =>
    cases base
    exact Raw.d1_eq_some
  | qset p a b h | tdef a b h | mma p a b h | mmaz p a b h | mbarInit a b h | mbarArrive p a b h | csrw a b h | evpost a b h
  | tlbinv a b h =>
    cases base
    exact Raw.ab_eq_some (by simp)
  | copy p t a b h =>
    cases base
    cases t <;> exact Raw.ab_eq_some (by simp)
  | fmtset a h | join a h | nmc a h | tfree a h | cwait a h | mbarInval a h =>
    cases base
    exact Raw.a1_eq_some (by simp)
  | trap b | brk b =>
    cases base
    exact Raw.b1_eq_some (by simp)
  | accld o | accst o | accz o =>
    obtain ⟨p, b⟩ := o
    cases base
    exact Raw.b1_eq_some (by simp)
  | andi p d a m | ori p d a m | xori p d a m | pin p d a m | unpin p d a m | waitw p d a m =>
    cases base
    exact Raw.dai_eq_some (by simp)
  | iaddi p t d a m | ld p t d a m =>
    cases base
    cases t <;> exact Raw.dai_eq_some (by simp)
  | st p z d a m =>
    cases base
    cases z <;> exact Raw.stOp_eq_some
  | cflush p a m | cinv p a m | pref p a m =>
    cases base
    exact Raw.mem_eq_some (by simp)
  | shli p d a n | shri p d a n | shai p d a n | rotli p d a n | rotri p d a n =>
    cases base
    exact Raw.shift_eq_some (by simp)
  | bany o a | ball o a | bnone o a | bloop o a | bdiv o a =>
    cases base
    exact Raw.branch_eq_some (by simp)
  | part | yield | exit | ret | home | nfence | eret | fence o s | bar s =>
    cases base
    exact eq_some_of_no_source rfl
  | icmp p c t m a b h =>
    cases base
    rw [Raw.instr_icmp, condD_dHigh, condD_dLow, Cond.ofCode_code, IType.ofCode_code]
    exact Raw.ab_eq_some (by simp)
  | fcmp p c t m a b h =>
    cases base
    rw [Raw.instr_fcmp, condD_dHigh, condD_dLow, Cond.ofCode_code, FType.ofCode_code]
    exact Raw.ab_eq_some (by simp)
  | icmpi p c t m a n =>
    cases base
    rw [Raw.instr_icmpi, condD_dHigh, condD_dLow, Cond.ofCode_code, IType.ofCode_code]
    exact Raw.mem_eq_some (by simp)
  | mbarWait p m a b h =>
    cases base
    rw [Raw.instr_mbarWait, maskField_maskCode]
    exact Raw.ab_eq_some (by simp)
  | mbarTest p m a b h =>
    cases base
    rw [Raw.instr_mbarTest, maskField_maskCode]
    exact Raw.ab_eq_some (by simp)
  | mset m a h =>
    cases base
    rw [Raw.instr_mset, maskField_maskCode]
    exact Raw.a1_eq_some (by simp)
  | mget d m =>
    cases base
    rw [Raw.instr_mget, maskField_maskCode]
    exact Raw.d1_eq_some (k := (.mget · m))
  | mand m j n =>
    cases base
    exact eq_some_of_no_source (by rw [Raw.instr_mand]; simp only [maskField_maskCode])
  | mor m j n =>
    cases base
    exact eq_some_of_no_source (by rw [Raw.instr_mor]; simp only [maskField_maskCode])
  | mxor m j n =>
    cases base
    exact eq_some_of_no_source (by rw [Raw.instr_mxor]; simp only [maskField_maskCode])
  | mnot m j =>
    cases base
    exact eq_some_of_no_source (by rw [Raw.instr_mnot]; simp only [maskField_maskCode])
  | bra o =>
    cases base
    exact eq_some_of_no_source (congrArg (some <| Instr.bra ·) (off_split o))
  | call o args demand =>
    cases base
    exact eq_some_of_no_source (by rw [Raw.instr_call, off_split, encArgs_dHigh, encArgs_demand])
  | callIndirect a args demand =>
    cases base
    rw [Raw.instr_callIndirect, encArgs_dHigh, encArgs_demand]
    exact Raw.a1_eq_some (k := fun a _ => .callIndirect a args demand) (by simp)
  | unwind a n =>
    cases base
    exact Raw.mem_eq_some (by simp)
  | regang n =>
    cases base
    exact eq_some_of_no_source (congrArg (some <| Instr.regang ·) (imm_split n))
  | sleep a =>
    cases base
    exact Raw.a1_eq_some (k := fun a _ => .sleep a) (by simp)
  | cvtf p f g pos d a h =>
    cases base
    obtain ⟨code, float⟩ := Fmt.floatCode (f := f) (by
      have ok := Uses.ok_of_wf wf
      grind)
    rw [Raw.instr_cvtf, code, if_pos float]
    exact Raw.conv_eq_some (by simp)
  | cvti p f g pos d a h =>
    cases base
    obtain ⟨code, int⟩ := Fmt.intCode (f := f) (by
      have ok := Uses.ok_of_wf wf
      grind)
    rw [Raw.instr_cvti, code, if_pos int]
    exact Raw.conv_eq_some (by simp)
  | copymm c t a b h =>
    cases base
    have hc : c.LitIs lit := third c rfl
    refine Iff.trans ?_ (List.forall_mem_cons.trans (and_iff_right hc)).symm
    cases t <;> exact Raw.ab_eq_some (by simp)
  | _ => cases base

/-! ### The literal of an instruction (R238) -/

/-- The literal word that an operand carries. -/
def Opnd.lit? : Opnd → Option Word
  | .lit w => some w
  | _ => none

theorem Opnd.isLit_eq (o : Opnd) : o.isLit = o.lit?.isSome := by cases o <;> rfl
theorem Opnd.lit?_eq_some {o : Opnd} {w : Word} : o.lit? = some w ↔ o = .lit w := by cases o <;> simp [Opnd.lit?]

/-- Every operand that an instruction names: its sources, and the C of its prefix. -/
def Uses.named (u : Uses) : List Opnd := u.srcs.map (·.1) ++ (u.pfx.bind (·.c)).toList

section
variable {i : Instr} {u : Uses} {c : Opnd} {w lit : Word}

theorem Instr.literal_of_uses (uses : i.uses = some u) : i.literal = u.named.findSome? Opnd.lit? := by
  unfold Instr.literal
  rw [uses]
  rfl

theorem Instr.srcs_of_uses (uses : i.uses = some u) : i.srcs = u.srcs.map (·.1) := by rw [Instr.srcs, uses]; rfl

theorem Instr.literal_of_no_uses (uses : i.uses = none) : i.literal = none := by unfold Instr.literal; rw [uses]
theorem Instr.srcs_of_no_uses (uses : i.uses = none) : i.srcs = [] := by rw [Instr.srcs, uses]; rfl

theorem Instr.pfx_of_no_uses (uses : i.uses = none) : i.pfx = none := by
  unfold Instr.pfx
  split
  · cases uses
  · cases uses
  · cases uses
  · rw [uses]; rfl

/-- C of an instruction's prefix is among the operands that it names. -/
theorem Instr.third_mem_named (uses : i.uses = some u) (third : i.pfx.bind (·.c) = some c) : c ∈ u.named := by
  unfold Instr.pfx at third
  split at third
  · cases third
  · cases third
  · cases third; cases uses; exact List.mem_cons_self
  · rw [uses] at third
    exact List.mem_append_right _ (Option.mem_toList.2 third)

/-- What is named beside the sources is C of the prefix. -/
theorem Instr.third_of_uses (uses : i.uses = some u) (third : u.pfx.bind (·.c) = some c) : i.pfx.bind (·.c) = some c := by
  unfold Instr.pfx
  split
  · cases uses; exact third
  · cases uses; cases third
  · cases uses; cases third
  · rw [uses]
    exact third

theorem Instr.uses_wf (wf : i.wf = true) (uses : i.uses = some u) : u.wf = true := by
  unfold Instr.wf at wf
  split at wf
  · cases uses
  · rw [uses] at wf
    exact wf

theorem Uses.third_ne_v0 (wf : u.wf = true) : u.pfx.bind (·.c) ≠ some (.v 0) := by
  intro third
  obtain ⟨p, hp, hc⟩ := Option.bind_eq_some_iff.1 third
  have ok : u.pfxOk = true := by
    simp only [Uses.wf, Bool.and_eq_true] at wf
    exact wf.1.1.1.2
  rw [Uses.pfxOk, hp] at ok
  simp only [hc] at ok
  split at ok <;> simp_all

/-- C = 0 means that there is none (R232). -/
theorem Instr.third_ne_v0 (wf : i.wf = true) : i.pfx.bind (·.c) ≠ some (.v 0) := by
  cases uses : i.uses with
  | none => rw [Instr.pfx_of_no_uses uses]; nofun
  | some u =>
    have wfu := Instr.uses_wf wf uses
    intro third
    unfold Instr.pfx at third
    split at third
    · cases third
    · cases third
    · cases third; cases uses
      have := Uses.ok_of_wf wfu
      simp at this
    · rw [uses] at third
      exact Uses.third_ne_v0 wfu third

/-- With at most one literal, each that is named is the one found. -/
theorem litIs_of_countP {os : List Opnd} (one : os.countP Opnd.isLit ≤ 1) (found : os.findSome? Opnd.lit? = some w) :
    ∀ o ∈ os, o.LitIs w := by
  induction os with
  | nil => nofun
  | cons a os ih =>
    rw [List.countP_cons] at one
    rw [List.findSome?_cons] at found
    cases ha : a.lit? with
    | none =>
      rw [ha] at found
      refine List.forall_mem_cons.2 ⟨?_, ih (by omega) found⟩
      rintro v rfl
      cases ha
    | some v =>
      rw [ha] at found
      cases found
      have none : os.countP Opnd.isLit = 0 := by
        have := a.isLit_eq
        rw [ha] at this
        simp [this] at one
        simpa using one
      refine List.forall_mem_cons.2 ⟨fun v e => ?_, fun o ho v e => ?_⟩
      · rw [Opnd.lit?_eq_some.1 ha] at e
        cases e; rfl
      · subst e
        exact absurd rfl (List.countP_eq_zero.1 none _ ho)

/-- What the word after the base word, `lit`, has to be: the literal, where the instruction has one. -/
theorem Instr.litIs_named (wf : i.wf = true) (uses : i.uses = some u) (word : ∀ w, i.literal = some w → w = lit) :
    ∀ o ∈ u.named, o.LitIs lit := by
  rw [Instr.literal_of_uses uses] at word
  cases found : u.named.findSome? Opnd.lit? with
  | none =>
    intro o ho v e
    have := List.findSome?_eq_none_iff.1 found o ho
    rw [e] at this
    cases this
  | some w =>
    obtain rfl := word w found
    have one : u.literals ≤ 1 := by
      have := Instr.uses_wf wf uses
      simp only [Uses.wf, Bool.and_eq_true, decide_eq_true_eq] at this
      exact this.2
    exact litIs_of_countP one found

theorem Instr.literal_of_litIs (uses : i.uses = some u) (word : ∀ o ∈ u.named, o.LitIs lit) (found : i.literal = some w) : w = lit := by
  rw [Instr.literal_of_uses uses] at found
  obtain ⟨o, ho, hw⟩ := List.exists_of_findSome?_eq_some found
  exact word o ho w (Opnd.lit?_eq_some.1 hw)

/-! ### The map applied to an instruction's own fields, and the fields of what the map gives -/

theorem Instr.third_litIs (wf : i.wf = true) (word : ∀ w, i.literal = some w → w = lit) (third : i.pfx.bind (·.c) = some c) :
    c.LitIs lit := by
  cases uses : i.uses with
  | none => rw [Instr.pfx_of_no_uses uses] at third; cases third
  | some u => exact Instr.litIs_named wf uses word c (Instr.third_mem_named uses third)

/-- A well-formed instruction's fields give it back, under its prefix and before its literal. -/
theorem Raw.instr_base {f : Fields} (base : i.base = .word f) (wf : i.wf = true) (word : ∀ w, i.literal = some w → w = lit) :
    Raw.instr ⟨i.pfx, lit, f⟩ = some i := by
  refine (Raw.instr_eq_some_iff base wf fun c third => Instr.third_litIs wf word third).2 ?_
  cases uses : i.uses with
  | none => rw [Instr.srcs_of_no_uses uses]; nofun
  | some u =>
    rw [Instr.srcs_of_uses uses]
    exact fun o ho => Instr.litIs_named wf uses word o (List.mem_append_left _ ho)

/-- The literal of an instruction that the map gives is the word that followed. -/
theorem Raw.literal_of_instr {f : Fields} (base : i.base = .word f) (wf : i.wf = true)
    (third : ∀ c, i.pfx.bind (·.c) = some c → c.LitIs lit) (instr : Raw.instr ⟨i.pfx, lit, f⟩ = some i)
    (found : i.literal = some w) : w = lit := by
  have srcs := (Raw.instr_eq_some_iff base wf third).1 instr
  cases uses : i.uses with
  | none => rw [Instr.literal_of_no_uses uses] at found; cases found
  | some u =>
    rw [Instr.srcs_of_uses uses] at srcs
    refine Instr.literal_of_litIs uses (fun o ho => ?_) found
    obtain ho | ho := List.mem_append.1 ho
    · exact srcs o ho
    · exact third o (Instr.third_of_uses uses (Option.mem_toList.1 ho))
end

end Sys2Proof
end

section
/-! PROOFS. Formats: decode and encode agree. -/

set_option Elab.async false

namespace Sys2Proof

/-! ### The 16-bit format (R235) -/

/-- The halfword of a short form (R229). -/
def shortHalf (hold : Bool) (b d : BitVec 5) (op : BitVec 4) : Half := BitVec.ofBool hold ++ b ++ d ++ op ++ 0#1

section
variable {hold : Bool} {b d : BitVec 5} {op : BitVec 4} {h : Half}

@[simp] theorem shortHalf_hold : (shortHalf hold b d op).getLsbD 15 = hold := by
  rw [shortHalf]
  iterate 4 rw [BitVec.getLsbD_append]
  simp

@[simp] theorem shortHalf_bit : (shortHalf hold b d op).getLsbD 0 = false := by
  rw [shortHalf, BitVec.getLsbD_append]
  rfl

@[simp] theorem shortHalf_b : (shortHalf hold b d op).extractLsb' 10 5 = b := by
  rw [shortHalf]
  iterate 3 rw [BitVec.extractLsb'_append_eq_of_le (by decide)]
  rw [BitVec.extractLsb'_append_eq_of_add_le (by decide), BitVec.extractLsb'_eq_self]

@[simp] theorem shortHalf_d : (shortHalf hold b d op).extractLsb' 5 5 = d := by
  rw [shortHalf]
  iterate 2 rw [BitVec.extractLsb'_append_eq_of_le (by decide)]
  rw [BitVec.extractLsb'_append_eq_of_add_le (by decide), BitVec.extractLsb'_eq_self]

@[simp] theorem shortHalf_op : (shortHalf hold b d op).extractLsb' 1 4 = op := by
  rw [shortHalf]
  rw [BitVec.extractLsb'_append_eq_of_le (by decide), BitVec.extractLsb'_append_eq_of_add_le (by decide), BitVec.extractLsb'_eq_self]

/-- The halfwords 0x0000 and 0x8000 are those of a MOV of v0 to itself. -/
theorem shortHalf_ne {k : Half} (zero : k = 0x0000#16 ∨ k = 0x8000#16) (some_bit : op ≠ 0 ∨ b ≠ 0 ∨ d ≠ 0) :
    shortHalf hold b d op ≠ k := by
  rintro rfl
  have op0 : op = 0 := by rw [← shortHalf_op (hold := hold) (b := b) (d := d) (op := op)]; obtain e | e := zero <;> rw [e] <;> rfl
  have b0 : b = 0 := by rw [← shortHalf_b (hold := hold) (b := b) (d := d) (op := op)]; obtain e | e := zero <;> rw [e] <;> rfl
  have d0 : d = 0 := by rw [← shortHalf_d (hold := hold) (b := b) (d := d) (op := op)]; obtain e | e := zero <;> rw [e] <;> rfl
  tauto

theorem shortHalf_parts (even : h.getLsbD 0 = false) :
    shortHalf (h.getLsbD 15) (h.extractLsb' 10 5) (h.extractLsb' 5 5) (h.extractLsb' 1 4) = h := by
  have low : 0#1 = h.extractLsb' 0 1 := by rw [extractLsb'_one, even]; rfl
  rw [shortHalf, low, ← extractLsb'_one]
  iterate 4 rw [BitVec.extractLsb'_append_extractLsb'_eq_extractLsb' (by rfl)]
  exact BitVec.extractLsb'_eq_self
end

theorem fin5_eq_zero {x : Fin 32} (h : fin5 x = 0) : x = 0 := congrArg BitVec.toFin h

theorem shortInstr_of_base {i : Instr} {h : Half} (base : i.base = .half h) (wf : i.wf = true) :
    h.getLsbD 0 = false ∧ shortInstr h = some i := by
  cases i with
  | nop => cases base; exact ⟨rfl, rfl⟩
  | movShort hold b d =>
    cases base
    have some_bit : fin5 b ≠ 0 ∨ fin5 d ≠ 0 := by
      simp only [Instr.wf, Bool.or_eq_true, bne_iff_ne] at wf
      exact wf.imp (mt fin5_eq_zero) (mt fin5_eq_zero)
    refine ⟨shortHalf_bit, ?_⟩
    show shortInstr (shortHalf hold (fin5 b) (fin5 d) 0) = _
    rw [shortInstr, if_neg (shortHalf_ne (.inl rfl) (.inr some_bit)), if_neg (shortHalf_ne (.inr rfl) (.inr some_bit))]
    simp only [shortHalf_op, shortHalf_hold, shortHalf_b, shortHalf_d]
    rfl
  | iaddShort hold b d | isubShort hold b d | imulShort hold b d | andShort hold b d | orShort hold b d | xorShort hold b d
  | shlShort hold b d | shrShort hold b d | shaShort hold b d | faddShort hold b d | fsubShort hold b d | fmulShort hold b d
  | fmaxShort hold b d | fminShort hold b d | iaddi5Short hold b d =>
    cases base
    refine ⟨shortHalf_bit, ?_⟩
    rw [shortInstr, ← shortHalf, if_neg (shortHalf_ne (.inl rfl) (.inl (by decide))), if_neg (shortHalf_ne (.inr rfl) (.inl (by decide)))]
    simp only [shortHalf_op, shortHalf_hold, shortHalf_b, shortHalf_d]
    rfl
  | _ => cases base

/-- The encoder gives back the halfword of a 16-bit instruction, which is well-formed. -/
theorem base_of_shortInstr {i : Instr} {h : Half} (even : h.getLsbD 0 = false) (short : shortInstr h = some i) :
    i.base = .half h ∧ i.wf = true := by
  unfold shortInstr at short
  have parts := shortHalf_parts even
  split at short
  · next zero => cases short; exact ⟨congrArg Base.half zero.symm, rfl⟩
  split at short
  · cases short
  next nz nh =>
  have op : ∀ n, (h.extractLsb' 1 4).toNat = n → encShort n (h.getLsbD 15) (h.extractLsb' 10 5) (h.extractLsb' 5 5) = .half h := by
    rintro n rfl
    rw [encShort, BitVec.ofNat_toNat, BitVec.setWidth_eq]
    exact congrArg Base.half parts
  split at short
  case h_1 mov =>
    cases short
    refine ⟨op 0 mov, ?_⟩
    simp only [Instr.wf, Bool.or_eq_true, bne_iff_ne]
    by_contra none
    have zero : (h.extractLsb' 1 4) = 0#4 ∧ (h.extractLsb' 10 5) = 0#5 ∧ (h.extractLsb' 5 5) = 0#5 := by
      obtain ⟨b, d⟩ := not_or.1 none
      exact ⟨BitVec.eq_of_toNat_eq mov, congrArg BitVec.ofFin (not_not.1 b), congrArg BitVec.ofFin (not_not.1 d)⟩
    rw [zero.1, zero.2.1, zero.2.2] at parts
    cases hold : h.getLsbD 15 <;> rw [hold] at parts
    · exact nz parts.symm
    · exact nh parts.symm
  case h_16 =>
    cases short
    refine ⟨op _ ?_, rfl⟩
    have lt := (h.extractLsb' 1 4).isLt
    generalize (h.extractLsb' 1 4).toNat = n at *
    grind
  all_goals
    next code =>
      cases short
      exact ⟨op _ code, rfl⟩

/-! ### The decoder (R225, R234) -/

/-- MAJ 0x3F is a prefix's, and no instruction's (R232). -/
theorem Raw.maj_of_instr {r : Raw} {i : Instr} (instr : Raw.instr r = some i) : r.f.maj ≠ 0x3F#6 := by
  obtain ⟨p, lit, ⟨b, a, d, h, fn, maj⟩⟩ := r
  rintro rfl
  cases instr

/-- The bytes of an instruction's literal. -/
def Instr.literalBytes (i : Instr) : List Byte := (i.literal.map wordBytes).getD []

section
variable {i : Instr} {f : Fields} {rest : List Byte}

theorem Instr.literal_follows {w : Word} (h : i.literal = some w) : wordOf (i.literalBytes ++ rest) = w := by
  rw [Instr.literalBytes, h]
  exact wordOf_wordBytes w rest

theorem Instr.literalBytes_length : i.literalBytes.length = if i.literal.isSome then 4 else 0 := by
  unfold Instr.literalBytes
  cases i.literal <;> simp

end

/-- The prefix that a word before the base word holds, when there is one. -/
def readPfx (lit : Word) : Option Word → Option (Option Pfx)
  | none => some none
  | some x => (Pfx.ofWord lit x).map some

/-- What decodes is the instruction that the map gives, written with its own fields and prefix, well-formed and whole. -/
theorem decodeBase_eq_ok {pw : Option Word} {bs : List Byte} {start n : Nat} {i : Instr} : decodeBase pw bs start = .ok i n ↔
    readPfx (wordOf (bs.drop 4)) pw = some i.pfx ∧ Raw.instr ⟨i.pfx, wordOf (bs.drop 4), Fields.ofWord (wordOf bs)⟩ = some i ∧
      i.base = .word (Fields.ofWord (wordOf bs)) ∧ i.wf = true ∧ (i.literal.isSome = true → 8 ≤ bs.length) ∧ n = i.length := by
  have unread : decodeBase pw bs start = match readPfx (wordOf (bs.drop 4)) pw with
      | none => .illegal .prefixWord
      | some p =>
        match Raw.instr ⟨p, wordOf (bs.drop 4), Fields.ofWord (wordOf bs)⟩ with
        | none => .illegal .noSuch
        | some i =>
          if i.pfx ≠ p ∨ i.base ≠ .word (Fields.ofWord (wordOf bs)) then .illegal .field
          else if !i.wf then .illegal .operand
          else if i.literal.isSome ∧ bs.length < 8 then .more (start + 8)
          else .ok i i.length := by cases pw <;> rfl
  rw [unread]
  constructor
  · intro h
    split at h
    · cases h
    next p hp =>
    split at h
    · cases h
    next j hj =>
    split at h
    · cases h
    next same =>
    split at h
    · cases h
    next wf =>
    split at h
    · cases h
    next long =>
    cases h
    obtain ⟨pfx, base⟩ := not_or.1 same
    obtain rfl := not_not.1 pfx
    exact ⟨hp, hj, not_not.1 base, by simpa using wf, fun l => Nat.le_of_not_lt fun short => long ⟨l, short⟩, rfl⟩
  · rintro ⟨pfx, instr, base, wf, long, rfl⟩
    have whole : ¬ (i.literal.isSome = true ∧ bs.length < 8) := fun h => absurd (long h.1) (by omega)
    simp [pfx, instr, ← base, wf, whole]

section
variable {bs : List Byte} {i : Instr} {n : Nat}

theorem decode_half (len : 2 ≤ bs.length) (even : (halfOf bs).getLsbD 0 = false) (short : shortInstr (halfOf bs) = some i) :
    decode bs = .ok i 2 := by
  have : ¬ bs.length < 2 := by omega
  simp only [decode, this, even, short, if_false, Bool.false_eq_true]

theorem decode_word (len : 4 ≤ bs.length) (odd : (wordOf bs).getLsbD 0 = true) (plain : isPrefix (wordOf bs) = false) :
    decode bs = decodeBase none bs 0 := by
  have : ¬ bs.length < 2 ∧ ¬ bs.length < 4 := by omega
  simp only [decode, this.1, this.2, halfOf_getLsbD_zero, odd, plain, if_true, if_false, Bool.false_eq_true]

theorem decode_prefixed (len : 8 ≤ bs.length) (odd : (wordOf bs).getLsbD 0 = true) (pre : isPrefix (wordOf bs) = true)
    (odd' : (wordOf (bs.drop 4)).getLsbD 0 = true) (plain : isPrefix (wordOf (bs.drop 4)) = false) :
    decode bs = decodeBase (some (wordOf bs)) (bs.drop 4) 4 := by
  have : ¬ bs.length < 2 ∧ ¬ bs.length < 4 ∧ ¬ bs.length < 6 ∧ ¬ bs.length < 8 := by omega
  simp only [decode, this.1, this.2.1, this.2.2.1, this.2.2.2, halfOf_getLsbD_zero, odd, pre, odd', plain, if_true, if_false,
    Bool.false_eq_true]

/-- What decodes is a 16-bit instruction, a base word, or a base word under a prefix. -/
theorem decode_ok_cases (h : decode bs = .ok i n) :
    (2 ≤ bs.length ∧ (halfOf bs).getLsbD 0 = false ∧ shortInstr (halfOf bs) = some i ∧ n = 2) ∨
    (4 ≤ bs.length ∧ (wordOf bs).getLsbD 0 = true ∧ decodeBase none bs 0 = .ok i n) ∨
    (8 ≤ bs.length ∧ (wordOf bs).getLsbD 0 = true ∧ isPrefix (wordOf bs) = true ∧ (wordOf (bs.drop 4)).getLsbD 0 = true ∧
      decodeBase (some (wordOf bs)) (bs.drop 4) 4 = .ok i n) := by
  unfold decode at h
  simp only [halfOf_getLsbD_zero] at h
  split at h
  · cases h
  next l2 =>
  split at h
  · next odd =>
    split at h
    · cases h
    next l4 =>
    split at h
    · next pre =>
      split at h
      · cases h
      split at h
      · next odd' =>
        split at h
        · cases h
        next l8 =>
        split at h
        · cases h
        exact .inr (.inr ⟨by omega, odd, pre, odd', h⟩)
      · cases h
    · exact .inr (.inl ⟨by omega, odd, h⟩)
  · next even =>
    split at h
    · next j short =>
      cases h
      exact .inl ⟨by omega, by rw [halfOf_getLsbD_zero]; simpa using even, short, rfl⟩
    · cases h
end

section
variable {i : Instr} {f : Fields} {rest : List Byte}

theorem decodeBase_encoded (base : i.base = .word f) (wf : i.wf = true) (start : Nat) :
    decodeBase (i.pfx.map Pfx.word) (wordBytes f.word ++ (i.literalBytes ++ rest)) start = .ok i i.length := by
  have word : ∀ w, i.literal = some w → w = wordOf (i.literalBytes ++ rest) := fun w h => (Instr.literal_follows h).symm
  rw [decodeBase_eq_ok, List.drop_left' (wordBytes_length _), wordOf_wordBytes, Fields.ofWord_word]
  refine ⟨?_, Raw.instr_base base wf word, base, wf, fun h => ?_, rfl⟩
  · have v0 := Instr.third_ne_v0 wf
    have third := fun c => Instr.third_litIs (c := c) wf word
    cases hp : i.pfx with
    | none => rfl
    | some p =>
      rw [hp] at v0 third
      exact congrArg (Option.map some) (Pfx.ofWord_word v0 third)
  · simp [Instr.literalBytes_length, h]
    omega

theorem decode_encoded (base : i.base = .word f) (wf : i.wf = true) :
    decode ((i.pfx.map fun p => wordBytes p.word).getD [] ++ (wordBytes f.word ++ (i.literalBytes ++ rest))) = .ok i i.length := by
  have maj := Raw.maj_of_instr (Raw.instr_base base wf fun w h => (Instr.literal_follows (rest := rest) h).symm)
  have plain : isPrefix f.word = false := by simpa using maj
  have body := decodeBase_encoded (rest := rest) base wf
  cases hp : i.pfx with
  | none =>
    rw [hp] at body
    show decode (wordBytes f.word ++ _) = _
    rw [decode_word (by simp) (by simp) (by simpa using maj)]
    exact body 0
  | some p =>
    rw [hp] at body
    show decode (wordBytes p.word ++ _) = _
    have drop : (wordBytes p.word ++ (wordBytes f.word ++ (i.literalBytes ++ rest))).drop 4 = wordBytes f.word ++ (i.literalBytes ++ rest) :=
      List.drop_left' (wordBytes_length _)
    rw [decode_prefixed (by simp; omega) (by simp) (by simp) (by rw [drop]; simp) (by rw [drop]; simpa using maj), drop, wordOf_wordBytes]
    exact body 4

theorem encode_of_word (base : i.base = .word f) :
    encode i = some ((i.pfx.map fun p => wordBytes p.word).getD [] ++ wordBytes f.word ++ i.literalBytes) := by
  rw [encode, base]
  rfl

theorem length_of_word (base : i.base = .word f) :
    i.length = 4 + (if i.pfx.isSome then 4 else 0) + (if i.literal.isSome then 4 else 0) := by
  rw [Instr.length, base]

theorem prefixBytes_length (i : Instr) : ((i.pfx.map fun p => wordBytes p.word).getD []).length = if i.pfx.isSome then 4 else 0 := by
  cases i.pfx <;> simp
end

/-- Settles O1: a 16-bit form is read back from its halfword; under its prefix and before its literal, the fields of a base word give
the instruction back through the map. -/
theorem encodedInstructionsDecode : Obligations.EncodedInstructionsDecode := by
  unfold Obligations.EncodedInstructionsDecode
  intro i bs rest wf h
  cases base : i.base with
  | step => rw [encode, base] at h; cases h
  | half w =>
    rw [encode, base] at h
    cases h
    obtain ⟨even, short⟩ := shortInstr_of_base base wf
    rw [halfBytes_length]
    exact decode_half (by simp) (by simpa using even) (by simpa using short)
  | word f =>
    rw [encode_of_word base] at h
    cases h
    have len : ((i.pfx.map fun p => wordBytes p.word).getD [] ++ wordBytes f.word ++ i.literalBytes).length = i.length := by
      rw [length_of_word base]
      simp only [List.length_append, prefixBytes_length, wordBytes_length, Instr.literalBytes_length]
      omega
    rw [len]
    simpa only [List.append_assoc] using decode_encoded base wf

section
variable {pw : Option Word} {bs : List Byte} {start n : Nat} {i : Instr}

theorem length_mem_of_word {f : Fields} (base : i.base = .word f) : i.length ∈ [2, 4, 8, 12] := by
  rw [length_of_word base]
  split <;> split <;> decide

/-- What a base word and its literal decode to is written as they stand. -/
theorem bytes_of_decodeBase (body : decodeBase pw bs start = .ok i n) (len : 4 ≤ bs.length) (odd : (wordOf bs).getLsbD 0 = true)
    (third : ∀ c, i.pfx.bind (·.c) = some c → c.LitIs (wordOf (bs.drop 4))) :
    4 + i.literalBytes.length ≤ bs.length ∧
      wordBytes (Fields.ofWord (wordOf bs)).word ++ i.literalBytes = bs.take (4 + i.literalBytes.length) := by
  obtain ⟨-, instr, base, wf, long, -⟩ := decodeBase_eq_ok.1 body
  have literal : 4 + i.literalBytes.length ≤ bs.length ∧ i.literalBytes = (bs.drop 4).take i.literalBytes.length := by
    unfold Instr.literalBytes
    cases found : i.literal with
    | none => exact ⟨len, rfl⟩
    | some w =>
      have len8 := long (by rw [found]; rfl)
      obtain rfl := Raw.literal_of_instr base wf third instr found
      refine ⟨by simpa using len8, ?_⟩
      rw [Option.map_some, Option.getD_some, wordBytes_length, wordBytes_wordOf (by rw [List.length_drop]; omega)]
  refine ⟨literal.1, ?_⟩
  rw [Fields.word_ofWord odd, wordBytes_wordOf len, List.take_add, ← literal.2]

end

/-- Settles O2: a halfword, a prefix, a base word and a literal that decode are each the one the instruction is written with. -/
theorem decodedInstructionsAreWellFormed : Obligations.DecodedInstructionsAreWellFormed := by
  unfold Obligations.DecodedInstructionsAreWellFormed
  intro bs i n h
  obtain ⟨len, even, short, rfl⟩ | ⟨len, odd, body⟩ | ⟨len, odd, pre, odd', body⟩ := decode_ok_cases h
  · obtain ⟨base, wf⟩ := base_of_shortInstr even short
    refine ⟨wf, by rw [Instr.length, base], by simp, len, ?_⟩
    rw [encode, base]
    exact congrArg some (halfBytes_halfOf len)
  · obtain ⟨pfx, -, base, wf, -, rfl⟩ := decodeBase_eq_ok.1 body
    have none : i.pfx = none := (Option.some.inj pfx).symm
    obtain ⟨whole, bytes⟩ := bytes_of_decodeBase body len odd (by rw [none]; nofun)
    have length : i.length = 4 + i.literalBytes.length := by
      rw [length_of_word base, none, Instr.literalBytes_length]
      rfl
    refine ⟨wf, rfl, length_mem_of_word base, length ▸ whole, ?_⟩
    rw [encode_of_word base, none, length, ← bytes]
    rfl
  · obtain ⟨pfx, -, base, wf, -, rfl⟩ := decodeBase_eq_ok.1 body
    obtain ⟨p, hp, own⟩ := Option.map_eq_some_iff.1 pfx
    obtain ⟨word, third⟩ := Pfx.word_of_ofWord odd pre hp
    obtain ⟨whole, bytes⟩ := bytes_of_decodeBase body (by rw [List.length_drop]; omega) odd' (by rw [← own]; exact third)
    have length : i.length = 4 + (4 + i.literalBytes.length) := by
      rw [length_of_word base, ← own, Instr.literalBytes_length]
      simp
      omega
    refine ⟨wf, rfl, length_mem_of_word base, ?_, ?_⟩
    · rw [List.length_drop] at whole
      omega
    · rw [encode_of_word base, ← own, length, List.take_add, ← bytes, ← wordBytes_wordOf (by omega), ← word, List.append_assoc]
      rfl

/-- Settles O3: the decoder is evaluated on each of the words. -/
theorem wordsOfTheSpecDecode : Obligations.WordsOfTheSpecDecode := by
  unfold Obligations.WordsOfTheSpecDecode
  decide +kernel

end Sys2Proof
end

section
/-! PROOFS. Formats: an instruction with another literal, and the bytes of an instruction cut short. -/

set_option Elab.async false

namespace Sys2Proof

/-! ### Another literal (R236, R238) -/

section
variable {w : Word} {o : Opnd}

@[simp] theorem Opnd.relit_code : (o.relit w).code = o.code := by cases o <;> rfl
@[simp] theorem Opnd.relit_isLit : (o.relit w).isLit = o.isLit := by cases o <;> rfl
@[simp] theorem Opnd.relit_isReg : (o.relit w).isReg = o.isReg := by cases o <;> rfl
@[simp] theorem Opnd.relit_okAt {u : Width} : (o.relit w).okAt u = o.okAt u := by cases o <;> cases u <;> rfl

@[simp] theorem Opnd.relit_bne_v0 : (o.relit w != .v 0) = (o != .v 0) := by cases o <;> rfl

theorem Opnd.relit_litIs : (o.relit w).LitIs w := by
  cases o with
  | lit _ => rintro _ ⟨⟩; rfl
  | _ => rintro _ ⟨⟩
end

def Pfx.relit (w : Word) (p : Pfx) : Pfx := { p with c := p.c.map (·.relit w) }

def SetOpnd.relit (w : Word) (o : SetOpnd) : SetOpnd := { pfx := o.pfx.map (·.relit w), b := o.b.relit w }

def Uses.relit (w : Word) (u : Uses) : Uses :=
  { u with pfx := u.pfx.map (·.relit w), srcs := u.srcs.map fun s => (s.1.relit w, s.2) }

/-- The instruction with a word in its literal's place. -/
def Instr.relit (w : Word) : Instr → Instr
  | .iadd p t d a b h => .iadd (p.map (·.relit w)) t d (a.relit w) (b.relit w) h
  | .isub p t d a b h => .isub (p.map (·.relit w)) t d (a.relit w) (b.relit w) h
  | .imul p t d a b h => .imul (p.map (·.relit w)) t d (a.relit w) (b.relit w) h
  | .imulh p t d a b h => .imulh (p.map (·.relit w)) t d (a.relit w) (b.relit w) h
  | .imad p t d a b h => .imad (p.map (·.relit w)) t d (a.relit w) (b.relit w) h
  | .imin p t d a b h => .imin (p.map (·.relit w)) t d (a.relit w) (b.relit w) h
  | .imax p t d a b h => .imax (p.map (·.relit w)) t d (a.relit w) (b.relit w) h
  | .icmp p c t k a b h => .icmp (p.map (·.relit w)) c t k (a.relit w) (b.relit w) h
  | .and p d a b h => .and (p.map (·.relit w)) d (a.relit w) (b.relit w) h
  | .or p d a b h => .or (p.map (·.relit w)) d (a.relit w) (b.relit w) h
  | .xor p d a b h => .xor (p.map (·.relit w)) d (a.relit w) (b.relit w) h
  | .andn p d a b h => .andn (p.map (·.relit w)) d (a.relit w) (b.relit w) h
  | .orn p d a b h => .orn (p.map (·.relit w)) d (a.relit w) (b.relit w) h
  | .xnor p d a b h => .xnor (p.map (·.relit w)) d (a.relit w) (b.relit w) h
  | .not p d a h => .not (p.map (·.relit w)) d (a.relit w) h
  | .shl p d a b h => .shl (p.map (·.relit w)) d (a.relit w) (b.relit w) h
  | .shr p d a b h => .shr (p.map (·.relit w)) d (a.relit w) (b.relit w) h
  | .sha p d a b h => .sha (p.map (·.relit w)) d (a.relit w) (b.relit w) h
  | .rotl p d a b h => .rotl (p.map (·.relit w)) d (a.relit w) (b.relit w) h
  | .rotr p d a b h => .rotr (p.map (·.relit w)) d (a.relit w) (b.relit w) h
  | .popc p d a h => .popc (p.map (·.relit w)) d (a.relit w) h
  | .clz p d a h => .clz (p.map (·.relit w)) d (a.relit w) h
  | .ctz p d a h => .ctz (p.map (·.relit w)) d (a.relit w) h
  | .brev p d a h => .brev (p.map (·.relit w)) d (a.relit w) h
  | .bfe p d a b h => .bfe (p.map (·.relit w)) d (a.relit w) (b.relit w) h
  | .bfi p d a b h => .bfi (p.map (·.relit w)) d (a.relit w) (b.relit w) h
  | .perm p d a b h => .perm (p.map (·.relit w)) d (a.relit w) (b.relit w) h
  | .sel p k d a b h => .sel (p.map (·.relit w)) k d (a.relit w) (b.relit w) h
  | .lea p s d a b h => .lea (p.map (·.relit w)) s d (a.relit w) (b.relit w) h
  | .div p uns d a b h => .div (p.map (·.relit w)) uns d (a.relit w) (b.relit w) h
  | .rem p uns d a b h => .rem (p.map (·.relit w)) uns d (a.relit w) (b.relit w) h
  | .iabs p d a h => .iabs (p.map (·.relit w)) d (a.relit w) h
  | .ineg p d a h => .ineg (p.map (·.relit w)) d (a.relit w) h
  | .sext8 p d a h => .sext8 (p.map (·.relit w)) d (a.relit w) h
  | .sext16 p d a h => .sext16 (p.map (·.relit w)) d (a.relit w) h
  | .zext8 p d a h => .zext8 (p.map (·.relit w)) d (a.relit w) h
  | .zext16 p d a h => .zext16 (p.map (·.relit w)) d (a.relit w) h
  | .mov p d a h => .mov (p.map (·.relit w)) d (a.relit w) h
  | .iaddi p t d a i => .iaddi (p.map (·.relit w)) t d (a.relit w) i
  | .andi p d a i => .andi (p.map (·.relit w)) d (a.relit w) i
  | .ori p d a i => .ori (p.map (·.relit w)) d (a.relit w) i
  | .xori p d a i => .xori (p.map (·.relit w)) d (a.relit w) i
  | .shli p d a n => .shli (p.map (·.relit w)) d (a.relit w) n
  | .shri p d a n => .shri (p.map (·.relit w)) d (a.relit w) n
  | .shai p d a n => .shai (p.map (·.relit w)) d (a.relit w) n
  | .rotli p d a n => .rotli (p.map (·.relit w)) d (a.relit w) n
  | .rotri p d a n => .rotri (p.map (·.relit w)) d (a.relit w) n
  | .icmpi p c t k a i => .icmpi (p.map (·.relit w)) c t k (a.relit w) i
  | .fadd p t d a b h => .fadd (p.map (·.relit w)) t d (a.relit w) (b.relit w) h
  | .fsub p t d a b h => .fsub (p.map (·.relit w)) t d (a.relit w) (b.relit w) h
  | .fmul p t d a b h => .fmul (p.map (·.relit w)) t d (a.relit w) (b.relit w) h
  | .ffma p t d a b h => .ffma (p.map (·.relit w)) t d (a.relit w) (b.relit w) h
  | .fmin p t d a b h => .fmin (p.map (·.relit w)) t d (a.relit w) (b.relit w) h
  | .fmax p t d a b h => .fmax (p.map (·.relit w)) t d (a.relit w) (b.relit w) h
  | .fcmp p c t k a b h => .fcmp (p.map (·.relit w)) c t k (a.relit w) (b.relit w) h
  | .fabs p t d a h => .fabs (p.map (·.relit w)) t d (a.relit w) h
  | .fneg p t d a h => .fneg (p.map (·.relit w)) t d (a.relit w) h
  | .frcp p t d a h => .frcp (p.map (·.relit w)) t d (a.relit w) h
  | .frsq p t d a h => .frsq (p.map (·.relit w)) t d (a.relit w) h
  | .fsqrt p t d a h => .fsqrt (p.map (·.relit w)) t d (a.relit w) h
  | .fexp2 p t d a h => .fexp2 (p.map (·.relit w)) t d (a.relit w) h
  | .flog2 p t d a h => .flog2 (p.map (·.relit w)) t d (a.relit w) h
  | .fsin p t d a h => .fsin (p.map (·.relit w)) t d (a.relit w) h
  | .fcos p t d a h => .fcos (p.map (·.relit w)) t d (a.relit w) h
  | .ftanh p t d a h => .ftanh (p.map (·.relit w)) t d (a.relit w) h
  | .fsigm p t d a h => .fsigm (p.map (·.relit w)) t d (a.relit w) h
  | .ffloor p t d a h => .ffloor (p.map (·.relit w)) t d (a.relit w) h
  | .fceil p t d a h => .fceil (p.map (·.relit w)) t d (a.relit w) h
  | .ftrunc p t d a h => .ftrunc (p.map (·.relit w)) t d (a.relit w) h
  | .frint p t d a h => .frint (p.map (·.relit w)) t d (a.relit w) h
  | .fdot2 p t d a b h => .fdot2 (p.map (·.relit w)) t d (a.relit w) (b.relit w) h
  | .cvtf p x y pos d a h => .cvtf (p.map (·.relit w)) x y pos d (a.relit w) h
  | .cvti p x y pos d a h => .cvti (p.map (·.relit w)) x y pos d (a.relit w) h
  | .bscale p d a h => .bscale (p.map (·.relit w)) d (a.relit w) h
  | .bpack p d a b h => .bpack (p.map (·.relit w)) d (a.relit w) (b.relit w) h
  | .bunpk p d a b h => .bunpk (p.map (·.relit w)) d (a.relit w) (b.relit w) h
  | .fmtset a h => .fmtset (a.relit w) h
  | .shfl p o d a b h => .shfl (p.map (·.relit w)) o d (a.relit w) (b.relit w) h
  | .vote p o d a h => .vote (p.map (·.relit w)) o d (a.relit w) h
  | .gred p o d a h => .gred (p.map (·.relit w)) o d (a.relit w) h
  | .mset k a h => .mset k (a.relit w) h
  | .scan p o d a h => .scan (p.map (·.relit w)) o d (a.relit w) h
  | .bany o a => .bany o (a.relit w)
  | .ball o a => .ball o (a.relit w)
  | .bnone o a => .bnone o (a.relit w)
  | .bloop o a => .bloop o (a.relit w)
  | .bdiv o a => .bdiv o (a.relit w)
  | .callIndirect a args demand => .callIndirect (a.relit w) args demand
  | .unwind a n => .unwind (a.relit w) n
  | .sleep a => .sleep (a.relit w)
  | .migrate d a h => .migrate d (a.relit w) h
  | .migq d a h => .migq d (a.relit w) h
  | .ld p s d a i => .ld (p.map (·.relit w)) s d (a.relit w) i
  | .st p s d a i => .st (p.map (·.relit w)) s (d.relit w) (a.relit w) i
  | .atom p o d a b h => .atom (p.map (·.relit w)) o d (a.relit w) (b.relit w) h
  | .atomb p o d a b h => .atomb (p.map (·.relit w)) o d (a.relit w) (b.relit w) h
  | .cflush p a i => .cflush (p.map (·.relit w)) (a.relit w) i
  | .cinv p a i => .cinv (p.map (·.relit w)) (a.relit w) i
  | .pin p d a i => .pin (p.map (·.relit w)) d (a.relit w) i
  | .unpin p d a i => .unpin (p.map (·.relit w)) d (a.relit w) i
  | .pref p a i => .pref (p.map (·.relit w)) (a.relit w) i
  | .waitw p d a i => .waitw (p.map (·.relit w)) d (a.relit w) i
  | .qmin p d a b h => .qmin (p.map (·.relit w)) d (a.relit w) (b.relit w) h
  | .qmax p d a b h => .qmax (p.map (·.relit w)) d (a.relit w) (b.relit w) h
  | .qget p d b => .qget (p.map (·.relit w)) d (b.relit w)
  | .qset p a b h => .qset (p.map (·.relit w)) (a.relit w) (b.relit w) h
  | .spawn d a h => .spawn d (a.relit w) h
  | .join a h => .join (a.relit w) h
  | .tdone d a h => .tdone d (a.relit w) h
  | .tdoneAbandon d a h => .tdoneAbandon d (a.relit w) h
  | .glaunch d a h => .glaunch d (a.relit w) h
  | .gprep d a b h => .gprep d (a.relit w) (b.relit w) h
  | .gbind d a b h => .gbind d (a.relit w) (b.relit w) h
  | .sqpush d a b h => .sqpush d (a.relit w) (b.relit w) h
  | .sqpop d b => .sqpop d (b.relit w)
  | .nmc a h => .nmc (a.relit w) h
  | .gctlStatus d a h => .gctlStatus d (a.relit w) h
  | .gctlRelease d a h => .gctlRelease d (a.relit w) h
  | .gctlInval d a h => .gctlInval d (a.relit w) h
  | .copy p f a b h => .copy (p.map (·.relit w)) f (a.relit w) (b.relit w) h
  | .copymm c f a b h => .copymm (c.relit w) f (a.relit w) (b.relit w) h
  | .tdef a b h => .tdef (a.relit w) (b.relit w) h
  | .tfree a h => .tfree (a.relit w) h
  | .tstat d a h => .tstat d (a.relit w) h
  | .cseal d a h => .cseal d (a.relit w) h
  | .cwait a h => .cwait (a.relit w) h
  | .cpoll d a h => .cpoll d (a.relit w) h
  | .mma p a b h => .mma (p.map (·.relit w)) (a.relit w) (b.relit w) h
  | .mmaz p a b h => .mmaz (p.map (·.relit w)) (a.relit w) (b.relit w) h
  | .accld o => .accld (o.relit w)
  | .accst o => .accst (o.relit w)
  | .accz o => .accz (o.relit w)
  | .mbarInit a b h => .mbarInit (a.relit w) (b.relit w) h
  | .mbarArrive p a b h => .mbarArrive (p.map (·.relit w)) (a.relit w) (b.relit w) h
  | .mbarWait p k a b h => .mbarWait (p.map (·.relit w)) k (a.relit w) (b.relit w) h
  | .mbarInval a h => .mbarInval (a.relit w) h
  | .mbarTest p k a b h => .mbarTest (p.map (·.relit w)) k (a.relit w) (b.relit w) h
  | .csrr d b => .csrr d (b.relit w)
  | .csrw a b h => .csrw (a.relit w) (b.relit w) h
  | .trap b => .trap (b.relit w)
  | .evpost a b h => .evpost (a.relit w) (b.relit w) h
  | .tlbinv a b h => .tlbinv (a.relit w) (b.relit w) h
  | .brk b => .brk (b.relit w)
  | i => i

@[simp] theorem Pfx.relit_word {w : Word} {p : Pfx} : (p.relit w).word = p.word := by
  obtain ⟨use, order, scope, c, rm, z, mask⟩ := p
  cases c <;> simp [Pfx.relit, Pfx.word, cCode]

section
variable {w : Word} {i : Instr} {u : Uses} {a b : Opnd}

theorem Opnd.relit_codes {F : BitVec 7 → BitVec 7 → Base} : F (a.relit w).code (b.relit w).code = F a.code b.code := by
  rw [Opnd.relit_code, Opnd.relit_code]

/-- The literal stands in no field of the base word. -/
theorem Instr.relit_base : (i.relit w).base = i.base := by
  cases i with
  | and p d a b h | or p d a b h | xor p d a b h | andn p d a b h | orn p d a b h | xnor p d a b h
  | shl p d a b h | shr p d a b h | sha p d a b h | rotl p d a b h | rotr p d a b h
  | bfe p d a b h | bfi p d a b h | perm p d a b h | bpack p d a b h | bunpk p d a b h
  | qmin p d a b h | qmax p d a b h | gprep d a b h | gbind d a b h | sqpush d a b h
  | iadd p t d a b h | isub p t d a b h | imul p t d a b h | imulh p t d a b h | imad p t d a b h
  | imin p t d a b h | imax p t d a b h
  | fadd p t d a b h | fsub p t d a b h | fmul p t d a b h | ffma p t d a b h | fmin p t d a b h | fmax p t d a b h
  | fdot2 p t d a b h | shfl p t d a b h | atom p t d a b h | atomb p t d a b h | div p t d a b h | rem p t d a b h
  | sel p n d a b h | lea p n d a b h | qset p a b h | tdef a b h | mma p a b h | mmaz p a b h | mbarInit a b h | mbarArrive p a b h
  | csrw a b h | evpost a b h | tlbinv a b h | copy p t a b h | copymm c t a b h | icmp p c t m a b h | fcmp p c t m a b h
  | mbarWait p m a b h | mbarTest p m a b h =>
    exact Opnd.relit_codes (F := fun x y => enc _ _ _ x y _)
  | not p d a h | popc p d a h | clz p d a h | ctz p d a h | brev p d a h | iabs p d a h | ineg p d a h
  | sext8 p d a h | sext16 p d a h | zext8 p d a h | zext16 p d a h | mov p d a h | bscale p d a h
  | migrate d a h | migq d a h | spawn d a h | tdone d a h | tdoneAbandon d a h | glaunch d a h
  | gctlStatus d a h | gctlRelease d a h | gctlInval d a h | tstat d a h | cseal d a h | cpoll d a h
  | fabs p t d a h | fneg p t d a h | frcp p t d a h | frsq p t d a h | fsqrt p t d a h | fexp2 p t d a h
  | flog2 p t d a h | fsin p t d a h | fcos p t d a h | ftanh p t d a h | fsigm p t d a h | ffloor p t d a h
  | fceil p t d a h | ftrunc p t d a h | frint p t d a h | vote p t d a h | gred p t d a h | scan p t d a h
  | fmtset a h | join a h | nmc a h | tfree a h | cwait a h | mbarInval a h | mset m a h | callIndirect a m n | sleep a
  | cvtf p f g pos d a h | cvti p f g pos d a h =>
    exact congrArg (fun x => enc _ _ _ x _ _) Opnd.relit_code
  | andi p d a m | ori p d a m | xori p d a m | pin p d a m | unpin p d a m | waitw p d a m
  | iaddi p t d a m | ld p t d a m | cflush p a m | cinv p a m | pref p a m | unwind a m | icmpi p c t n a m
  | shli p d a m | shri p d a m | shai p d a m | rotli p d a m | rotri p d a m =>
    exact congrArg (fun x => encImm _ _ _ x _) Opnd.relit_code
  | st p z d a m => exact Opnd.relit_codes (F := fun x y => encImm _ _ x y _)
  | bany m a | ball m a | bnone m a | bloop m a | bdiv m a => exact congrArg (fun x => encOff _ _ m x _) Opnd.relit_code
  | qget p d b | sqpop d b | csrr d b | trap b | brk b | accld o | accst o | accz o =>
    exact congrArg (fun y => enc _ _ _ _ y _) Opnd.relit_code
  | _ => rfl

theorem Instr.relit_uses : (i.relit w).uses = i.uses.map (·.relit w) := by
  cases i with
  | bany o a | ball o a | bnone o a | bdiv o a =>
    exact congrArg (fun lit => some (Uses.relit w { srcs := [(a, .one)], ok := !lit })) Opnd.relit_isLit
  | bloop o a => exact congrArg (fun reg => some (Uses.relit w { srcs := [(a, .one)], ok := reg })) Opnd.relit_isReg
  | st p z d a m =>
    exact congrArg (fun lit => some (Uses.relit w
      { pfx := p, z := false, rm := .cp, ord := .store, srcs := [(d, z.width), (a, .pair)], ok := !lit })) Opnd.relit_isLit
  | copymm c f a b h =>
    exact congrArg (fun ne => some (Uses.relit w
      { srcs := [(c, .pair), (a, .pair), (b, .one)], ok := ne && (f == .g2t || f == .g2r) })) Opnd.relit_bne_v0
  | _ => rfl

theorem Instr.relit_pfx : (i.relit w).pfx = i.pfx.map (·.relit w) := by
  cases i <;> rfl

/-! The checks of an instruction do not look at its literal. -/

theorem Uses.relit_named {u : Uses} : (u.relit w).named = u.named.map (·.relit w) := by
  obtain ⟨_ | ⟨use, order, scope, c, rm, z, mask⟩, _⟩ := u
  · simp [Uses.named, Uses.relit, Function.comp_def]
  · cases c <;> simp [Uses.named, Uses.relit, Pfx.relit, Function.comp_def]

theorem Uses.relit_pfxOk {u : Uses} : (u.relit w).pfxOk = u.pfxOk := by
  obtain ⟨_ | ⟨use, order, scope, c, rm, z, mask⟩, _, _, _, _, uc, _⟩ := u
  · rfl
  · cases c <;> cases uc <;> simp [Uses.pfxOk, Uses.relit, Pfx.relit, OrdUse.ok]

theorem Uses.relit_wf {u : Uses} : (u.relit w).wf = u.wf := by
  have literals : (u.relit w).literals = u.literals := by
    show (u.relit w).named.countP _ = u.named.countP _
    rw [Uses.relit_named, List.countP_map]
    congr 1
    funext o
    exact Opnd.relit_isLit
  have srcs : (u.relit w).srcs.all (fun s => s.1.okAt s.2) = u.srcs.all fun s => s.1.okAt s.2 := by
    simp [Uses.relit, Function.comp_def]
  rw [Uses.wf, Uses.wf, Uses.relit_pfxOk, literals, srcs]
  rfl

theorem Instr.wf_of_uses (uses : i.uses = some u) : i.wf = u.wf := by
  unfold Instr.wf
  split
  · cases uses
  · rw [uses]

theorem Instr.relit_wf (uses : i.uses = some u) : (i.relit w).wf = i.wf := by
  rw [Instr.wf_of_uses uses, Instr.wf_of_uses (u := u.relit w) (by rw [Instr.relit_uses, uses]; rfl), Uses.relit_wf]

theorem Instr.uses_of_literal (lit : i.literal.isSome = true) : ∃ u, i.uses = some u := by
  cases uses : i.uses with
  | none => rw [Instr.literal_of_no_uses uses] at lit; cases lit
  | some u => exact ⟨u, rfl⟩

theorem Instr.relit_literal (lit : i.literal.isSome = true) : (i.relit w).literal = some w := by
  obtain ⟨u, uses⟩ := Instr.uses_of_literal lit
  have relit : (i.relit w).uses = some (u.relit w) := by rw [Instr.relit_uses, uses]; rfl
  have some_lit : (i.relit w).literal.isSome = true := by
    rw [Instr.literal_of_uses uses, List.isSome_findSome?] at lit
    rw [Instr.literal_of_uses relit, List.isSome_findSome?, Uses.relit_named, List.any_map, ← lit]
    congr 1
    funext o
    simp [← Opnd.isLit_eq]
  obtain ⟨v, hv⟩ := Option.isSome_iff_exists.1 some_lit
  have named : ∀ o ∈ (u.relit w).named, o.LitIs w := by
    rw [Uses.relit_named]
    exact List.forall_mem_map.2 fun o _ => Opnd.relit_litIs
  rw [hv, Instr.literal_of_litIs relit named hv]

/-- The fields of a well-formed instruction, before another literal, are those of the instruction with that literal. -/
theorem Raw.instr_relit {f : Fields} (base : i.base = .word f) (wf : i.wf = true) (lit : i.literal.isSome = true) :
    Raw.instr ⟨(i.relit w).pfx, w, f⟩ = some (i.relit w) := by
  obtain ⟨u, uses⟩ := Instr.uses_of_literal lit
  refine Raw.instr_base (Instr.relit_base.trans base) ((Instr.relit_wf uses).trans wf) fun v hv => ?_
  rw [Instr.relit_literal lit] at hv
  exact (Option.some.inj hv).symm
end

/-! ### The bytes of an instruction, cut short (R225) -/

section
variable {bs : List Byte} {i : Instr} {n m start : Nat} {pw : Option Word} {lit w : Word}

theorem halfOf_take (h : 2 ≤ m) : halfOf (bs.take m) = halfOf bs := by rw [halfOf, List.take_take, min_eq_left h, halfOf]
theorem wordOf_take (h : 4 ≤ m) : wordOf (bs.take m) = wordOf bs := by rw [wordOf, List.take_take, min_eq_left h, wordOf]

theorem cOfCode_relit {k : BitVec 7} {c : Option Opnd} (h : cOfCode lit k = some c) : cOfCode w k = some (c.map (·.relit w)) := by
  unfold cOfCode at h ⊢
  split at h
  · next zero => rw [if_pos zero, ← Option.some.inj h]; rfl
  · next nonzero =>
    obtain ⟨o, ho, rfl⟩ := Option.map_eq_some_iff.1 h
    rw [if_neg nonzero, ← (Opnd.code_of_ofCode ho).1, Opnd.ofCode_code]
    rfl

theorem Pfx.ofWord_relit {x : Word} {p : Pfx} (h : Pfx.ofWord lit x = some p) : Pfx.ofWord w x = some (p.relit w) := by
  unfold Pfx.ofWord at h ⊢
  split at h
  · cases h
  · next high =>
    simp only [Option.bind_eq_bind, Option.bind_eq_some_iff] at h
    obtain ⟨use, hu, scope, hs, c, hc, e⟩ := h
    cases e
    rw [if_neg high, hu, hs, cOfCode_relit hc]
    rfl

theorem readPfx_relit (h : readPfx lit pw = some i.pfx) : readPfx w pw = some (i.relit w).pfx := by
  rw [Instr.relit_pfx]
  cases pw with
  | none =>
    rw [← Option.some.inj h]
    rfl
  | some x =>
    obtain ⟨p, hp, e⟩ := Option.map_eq_some_iff.1 h
    rw [← e, readPfx, Pfx.ofWord_relit hp]
    rfl

/-- An instruction whose literal is not there yet. -/
theorem decodeBase_eq_more (pfx : readPfx (wordOf (bs.drop 4)) pw = some i.pfx)
    (instr : Raw.instr ⟨i.pfx, wordOf (bs.drop 4), Fields.ofWord (wordOf bs)⟩ = some i)
    (base : i.base = .word (Fields.ofWord (wordOf bs))) (wf : i.wf = true) (lit : i.literal.isSome = true) (short : bs.length < 8) :
    decodeBase pw bs start = .more (start + 8) := by
  cases pw with
  | none =>
    have own : i.pfx = none := (Option.some.inj pfx).symm
    rw [own] at instr
    simp [decodeBase, own, instr, ← base, wf, lit, short]
  | some x =>
    obtain ⟨p, hp, own⟩ := Option.map_eq_some_iff.1 pfx
    rw [← own] at instr
    simp [decodeBase, hp, ← own, instr, ← base, wf, lit, short]

theorem decodeBase_take (h : decodeBase pw bs start = .ok i n) (lit : i.literal.isSome = true) (ge : 4 ≤ m) (short : m < 8) :
    decodeBase pw (bs.take m) start = .more (start + 8) := by
  obtain ⟨pfx, instr, base, wf, long, rfl⟩ := decodeBase_eq_ok.1 h
  obtain ⟨u, uses⟩ := Instr.uses_of_literal lit
  have word := wordOf_take (bs := bs) ge
  refine decodeBase_eq_more (i := i.relit (wordOf ((bs.take m).drop 4))) (readPfx_relit pfx) ?_ ?_ ?_ ?_ ?_
  · rw [word]
    exact Raw.instr_relit base wf lit
  · rw [word]
    exact Instr.relit_base.trans base
  · exact (Instr.relit_wf uses).trans wf
  · rw [Instr.relit_literal lit]
    rfl
  · rw [List.length_take]
    omega

theorem isPrefix_of_decodeBase (h : decodeBase pw bs start = .ok i n) : isPrefix (wordOf bs) = false :=
  beq_eq_false_iff_ne.2 (Raw.maj_of_instr (decodeBase_eq_ok.1 h).2.1)

/-- What stands after a base word is the four bytes of a literal. -/
theorem literal_after_base (h : decodeBase pw bs start = .ok i n) (lead : start = if pw.isSome then 4 else 0)
    (whole : n = start + bs.length) (longer : 4 < bs.length) : i.literal.isSome = true ∧ bs.length = 8 := by
  obtain ⟨pfx, -, base, -, -, rfl⟩ := decodeBase_eq_ok.1 h
  have led : i.pfx.isSome = pw.isSome := by
    cases pw with
    | none => rw [← Option.some.inj pfx]; rfl
    | some x =>
      obtain ⟨p, -, own⟩ := Option.map_eq_some_iff.1 pfx
      rw [← own]; rfl
  rw [length_of_word base, led, ← lead] at whole
  split at whole
  · next lit => exact ⟨lit, by omega⟩
  · omega

theorem decode_short (h : bs.length < 2) : decode bs = .more 2 := if_pos h

theorem decode_odd (le : 2 ≤ bs.length) (odd : (halfOf bs).getLsbD 0 = true) (h : bs.length < 4) : decode bs = .more 4 := by
  have : ¬ bs.length < 2 := by omega
  simp only [decode, this, odd, h, if_true, if_false]

theorem decode_prefix (le : 4 ≤ bs.length) (odd : (halfOf bs).getLsbD 0 = true) (pre : isPrefix (wordOf bs) = true)
    (odd' : 6 ≤ bs.length → (halfOf (bs.drop 4)).getLsbD 0 = true) (h : bs.length < 8) : ∃ n, decode bs = .more n := by
  have : ¬ bs.length < 2 ∧ ¬ bs.length < 4 := by omega
  simp only [decode, this.1, this.2, odd, pre, if_true, if_false]
  by_cases lt : bs.length < 6
  · exact ⟨6, if_pos lt⟩
  · exact ⟨8, by rw [if_neg lt, if_pos (odd' (by omega)), if_pos h]⟩

/-- Some of the halfwords of an instruction, from its first, make no instruction and call for more. -/
theorem decode_take (h : decode bs = .ok i bs.length) (even : m % 2 = 0) (lt : m < bs.length) : ∃ n, decode (bs.take m) = .more n := by
  have len : (bs.take m).length = m := by rw [List.length_take]; omega
  by_cases m0 : m < 2
  · exact ⟨2, decode_short (by omega)⟩
  have first := halfOf_take (bs := bs) (m := m) (by omega)
  have odd_take : (wordOf bs).getLsbD 0 = true → (halfOf (bs.take m)).getLsbD 0 = true := fun odd => by
    rw [first, halfOf_getLsbD_zero, odd]
  obtain ⟨-, -, -, two⟩ | ⟨-, odd, body⟩ | ⟨len8, odd, pre, odd', body⟩ := decode_ok_cases h
  · omega
  · by_cases m4 : m < 4
    · exact ⟨4, decode_odd (by omega) (odd_take odd) (by omega)⟩
    obtain ⟨lit, eight⟩ := literal_after_base body rfl (Nat.zero_add _).symm (by omega)
    have word := wordOf_take (bs := bs) (le_of_not_gt m4)
    have plain := isPrefix_of_decodeBase body
    exact ⟨8, (decode_word (by omega) (by rwa [word]) (by rwa [word])).trans (decodeBase_take body lit (by omega) (by omega))⟩
  · by_cases m4 : m < 4
    · exact ⟨4, decode_odd (by omega) (odd_take odd) (by omega)⟩
    have word := wordOf_take (bs := bs) (le_of_not_gt m4)
    have second : (bs.take m).drop 4 = (bs.drop 4).take (m - 4) := List.drop_take
    by_cases m8 : m < 8
    · refine decode_prefix (by omega) (odd_take odd) (by rwa [word]) (fun le => ?_) (by omega)
      rwa [second, halfOf_take (by omega), halfOf_getLsbD_zero]
    have drop : (bs.drop 4).length = bs.length - 4 := List.length_drop
    obtain ⟨lit, eight⟩ := literal_after_base body rfl (by omega) (by omega)
    have word' := wordOf_take (bs := bs.drop 4) (m := m - 4) (by omega)
    have plain := isPrefix_of_decodeBase body
    refine ⟨12, (decode_prefixed (by omega) (by rwa [word]) (by rwa [word]) (by rwa [second, word']) (by rwa [second, word'])).trans ?_⟩
    rw [word, second]
    exact decodeBase_take body lit (by omega) (by omega)

end

end Sys2Proof
end

section
/-! PROOFS. Short forms, branches on which the lanes agree, and the step in which a gang issues. -/

set_option Elab.async false

namespace Sys2Proof.Machine

/-! ### Branches on which the lanes agree (R306, R309) -/

/-- A slice that went to the target of a branch: a branch that does not go forward counts in the turn (R228, R309). -/
def Slice.branched (x : Slice) (o : BitVec 14) : Slice :=
  { x.clearLocal with
    pc := x.pc + o.signExtend 64 * 2, turn := if (x.pc + o.signExtend 64 * 2).toNat ≤ x.pc.toNat then x.turn + 1 else x.turn }

section
variable {s : State} {x : Slice} {o : BitVec 14} {i : Instr}

/-- A branch that every active lane takes, or none. -/
theorem State.branch_agreed (free : x.topEntry = none) {taken : BitVec 4} (agreed : taken = 0 ∨ taken = x.m0) :
    s.branch i o (s.env x) x x taken = (s, .done (if taken = 0 then { x.stepLatch [] with pc := x.after i } else x.branched o)) := by
  rw [State.branch_free s i o (s.env x) x x taken rfl free rfl (agreed.imp_right .inl), branchTarget_eq]
  rfl

theorem State.exec_bra_alone (free : x.topEntry = none) (active : x.m0 ≠ 0) (h : s.Alone (.bra o) x [] x.m0) :
    exec (.bra o) s = .next (s.setSlice (x.branched o).retired) := by
  refine (State.runEach_alone _ h).trans ?_
  rw [State.branch_agreed free (.inr rfl), if_neg active]
  rfl

theorem State.branchOn_agreed {a : Opnd} {f : BitVec 4 → BitVec 4 → BitVec 4} {go : Bool} (free : x.topEntry = none) (active : x.m0 ≠ 0)
    (h : s.Alone i x (s.reads [a] x (s.env x)) x.m0)
    (agreed : f x.m0 (x.m0 &&& maskOf fun l => s.opVal a x (s.env x) l != 0) = if go then x.m0 else 0) :
    s.branchOn i o a f = .next (s.setSlice
      (if go then (x.branched o).retired else ({ x.stepLatch [] with pc := x.after i } : Slice).retired)) := by
  refine (State.runEach_alone _ h).trans (congrArg Host.Outcome.next ?_)
  show State.settleOut (s.branch i o (s.env x) x x (f x.m0 (x.m0 &&& maskOf fun l => s.opVal a x (s.env x) l != 0))).1 x.uid
    (s.branch i o (s.env x) x x (f x.m0 (x.m0 &&& maskOf fun l => s.opVal a x (s.env x) l != 0))).2 = _
  rw [agreed, State.branch_agreed free (by cases go <;> simp)]
  cases go
  · rfl
  · rw [if_neg (by simpa using active)]
    rfl
end

/-- Settles O31: a slice that issues alone performs the branch for itself; on a path in no entry a branch on which its lanes agree
goes to the target or to the next instruction. -/
theorem branchesWithoutDivergence : Obligations.BranchesWithoutDivergence := by
  unfold Obligations.BranchesWithoutDivergence
  intro s x o free active target go
  refine ⟨State.exec_bra_alone free active, ?_⟩
  intro a cond cf branch alone
  have run : ∃ f, exec (cf.1 o a) s = s.branchOn (cf.1 o a) o a f ∧ f x.m0 cond = if cf.2 then x.m0 else 0 := by
    simp only [List.mem_cons, List.not_mem_nil, or_false] at branch
    obtain rfl | rfl | rfl := branch
    · exact ⟨fun m c => if c = 0 then 0 else m, rfl, by by_cases h : cond = 0 <;> simp [h]⟩
    · exact ⟨fun m c => if c = m then m else 0, rfl, by by_cases h : cond = x.m0 <;> simp [h]⟩
    · exact ⟨fun m c => if c = 0 then m else 0, rfl, by by_cases h : cond = 0 <;> simp [h]⟩
  obtain ⟨f, run, agreed⟩ := run
  rw [run]
  exact State.branchOn_agreed free active alone agreed

/-! ### Short forms (R235) -/

theorem intElem_i32 (w : Word) : intElem .i32 w.toNat 0 = w.toInt := by
  have low : field w.toNat (0 * 32) 32 = w.toNat := by rw [Nat.zero_mul]; exact field_zero_lt w.isLt
  have lt := w.isLt
  show sextNat 32 (field w.toNat (0 * 32) 32) = _
  rw [low, sextNat, BitVec.toInt_eq_toNat_cond]
  simp only [bit]
  grind

/-- An i32 operation without saturation is one on words, modulo 2^32 (R251). -/
theorem ofNat_intElems_i32 (f : Int → Int → Int → Int) (u v : Word) :
    BitVec.ofNat 32 (intElems .i32 false f u.toNat v.toNat 0) = BitVec.ofInt 32 (f u.toInt v.toInt 0) := by
  have one : intElems .i32 false f u.toNat v.toNat 0 = truncInt 32 (f u.toInt v.toInt 0) := by
    have zero : intElem .i32 0 0 = 0 := rfl
    simp [intElems, IType.total, IType.bits, intElem_i32, zero]
  rw [one]
  exact BitVec.eq_of_toNat_eq (by simpa [truncInt] using Int.emod_lt_of_pos _ (by decide))

theorem Slice.TookInt.word {x w : Slice} {p : Option Pfx} {d : Dst} {f : Nat → Nat} {g : Nat → Word} {held : List Reg}
    (took : x.TookInt w p .i32 d f held) (h : ∀ l, BitVec.ofNat 32 (f l) = g l) : x.TookWord w p d g held :=
  Slice.Took.congr took fun k l _ hk _ => by
    obtain rfl : k = 0 := Nat.lt_one_iff.1 hk
    rw [← h]
    exact congrArg (fun n => ({ val := BitVec.ofNat 32 n } : LaneWord)) (Nat.div_one _)

section
variable {s : State} {i : Instr} {d : Dst} {a b : Opnd} {h : Bool}

/-- An i32 operation without prefix, one result word in each lane. -/
theorem State.computes_of_intOp {f : Int → Int → Int → Int} {g : Word → Word → Word} {sum : Option Bool}
    (run : exec i s = s.intOp i none .i32 d a b h f sum) (hsum : ∀ sub, sum = some sub → f = fun x y _ => if sub then x - y else x + y)
    (words : ∀ u v : Word, BitVec.ofInt 32 (f u.toInt v.toInt 0) = g u v) :
    s.Computes i none d [a, b] h fun x e l => g (s.opVal a x e l) (s.opVal b x e l) := by
  intro able
  obtain ⟨t, next, groups, step⟩ := State.intOp_step (t := .i32) (d := d) (h := h) hsum able
  refine ⟨t, run.trans next, groups, { step with gang := fun x hx => ?_ }⟩
  obtain ⟨w, gang, there, took⟩ := step.gang x hx
  exact ⟨w, gang, there, took.word fun l => (ofNat_intElems_i32 f _ _).trans (words _ _)⟩

theorem State.computes_of_wordOp {f : Word → Word → Word} (run : exec i s = s.wordOp i none d a b h f) :
    s.Computes i none d [a, b] h fun x e l => f (s.opVal a x e l) (s.opVal b x e l) := by
  intro able
  rw [run]
  exact State.wordOp_step able

/-- A float operation on two f32 words without a prefix. -/
theorem State.floats_of_floatOp_f32 {f : Slice → Nat → Nat → FRes}
    (run : exec i s = s.floatOp i none .f32 d [a, b] h fun x v => f x (arg v 0) (arg v 1)) :
    s.Floats i none d [a, b] h fun x e l =>
      (BitVec.ofNat 32 (f x (s.opVal a x e l).toNat (s.opVal b x e l).toNat).bits, (f x (s.opVal a x e l).toNat (s.opVal b x e l).toNat).flags) := by
  intro able
  rw [run]
  exact State.floatOp_step able
end

/-- The result of IADDI5: the sum of a register and a constant, affine where the register is. -/
def sumReg (r : Reg) (k : Word) : Reg :=
  (affineSum .i32 false false [r] [.u k]).getD (mkReg r.isUniform fun l => r.val l + k)

theorem sumReg_lane (r : Reg) (k : Word) {l : Nat} (hl : l < 4) : (sumReg r k).lane l = { val := r.val l + k } := by
  unfold sumReg
  cases affine : affineSum .i32 false false [r] [.u k] with
  | none => exact mkReg_lane (fun hu l _ => by rw [Reg.val_uniform hu l]) hl
  | some sum =>
    obtain ⟨_, _, _, u, v, left, right, sums⟩ := affineSum_lane affine
    obtain rfl := List.singleton_inj.1 left
    obtain rfl := List.singleton_inj.1 right
    exact sums l

theorem execIaddi5Short_eq (h : Bool) (m : BitVec 5) (d : Fin 32) (s : State) :
    execIaddi5Short h m d s = s.runLanes (.iaddi5Short h m d) none (s.reads [shortReg d]) fun x e =>
      { dst := shortDst d, held := heldOf h [x.readOpnd e s.clock (shortReg d)],
        regs := [sumReg (x.readOpnd e s.clock (shortReg d)) (m.signExtend 32)] } := by
  refine congrArg (fun eval => s.runLanes (.iaddi5Short h m d) none (s.reads [shortReg d]) eval) (funext₂ fun x e => ?_)
  dsimp only
  rw [sumReg]
  cases affineSum .i32 false false [x.readOpnd e s.clock (shortReg d)] [.u (m.signExtend 32)] <;> rfl

theorem State.iaddi5Short_computes (s : State) (h : Bool) (m : BitVec 5) (d : Fin 32) :
    s.Computes (.iaddi5Short h m d) none (shortDst d) [shortReg d] h fun x e l => s.opVal (shortReg d) x e l + m.signExtend 32 := by
  intro able
  rw [show exec (.iaddi5Short h m d) s = execIaddi5Short h m d s from rfl, execIaddi5Short_eq]
  exact State.runWord _ able fun _ _ _ hl _ => sumReg_lane _ _ hl

/-- Settles O21: MOV runs as a move, the sums and the product as integer operations of i32, the others as operations on words or on
f32 values, of D and B. -/
theorem shortForms : Obligations.ShortForms := by
  unfold Obligations.ShortForms
  intro s h b d D od ob
  refine ⟨fun able => State.movOp_step able, fun cf int => ?_, fun i => s.iaddi5Short_computes h i d, fun cf float => ?_⟩
  · simp only [List.mem_cons, List.not_mem_nil, or_false] at int
    obtain int | int | int | word := int
    · have run : exec (cf.1 h b d) s = s.intOp (cf.1 h b d) none .i32 D od ob h (fun x y _ => x + y) (some false) := by rw [int]; rfl
      exact State.computes_of_intOp run (by rintro _ ⟨⟩; rfl) (by simp [int, BitVec.ofInt_add])
    · have run : exec (cf.1 h b d) s = s.intOp (cf.1 h b d) none .i32 D od ob h (fun x y _ => x - y) (some true) := by rw [int]; rfl
      exact State.computes_of_intOp run (by rintro _ ⟨⟩; rfl) (by simp [int, Int.sub_eq_add_neg, BitVec.ofInt_add, BitVec.ofInt_neg, BitVec.sub_eq_add_neg])
    · have run : exec (cf.1 h b d) s = s.intOp (cf.1 h b d) none .i32 D od ob h (fun x y _ => x * y) none := by rw [int]; rfl
      exact State.computes_of_intOp run nofun (by simp [int, BitVec.ofInt_mul])
    · have run : exec (cf.1 h b d) s = s.wordOp (cf.1 h b d) none D od ob h cf.2 := by
        obtain rfl | rfl | rfl | rfl | rfl | rfl := word <;> rfl
      exact State.computes_of_wordOp run
  · have run : exec (cf.1 h b d) s = s.floatOp (cf.1 h b d) none .f32 D [od, ob] h fun x v => cf.2 x (arg v 0) (arg v 1) := by
      simp only [List.mem_cons, List.not_mem_nil, or_false] at float
      obtain rfl | rfl | rfl | rfl | rfl := float <;> rfl
    exact State.floats_of_floatOp_f32 run

/-- Settles O5: the agenda's choice reaches exec through the gang's issue, whose every other branch the conditions rule out. -/
theorem stepRunsTheDecodedInstruction : Obligations.StepRunsTheDecodedInstruction := by
  unfold Obligations.StepRunsTheDecodedInstruction
  intro s u us rest x xs i scalar s0 agenda slices ready traps fetch
  have run : s0.issueGang us scalar = exec i { u with cur := us } := by
    simp only [State.issueGang, slices, ready, State.runNext, traps, fetch]
    rfl
  have move : ({ s with cur := [] } : State).move = exec i { u with cur := us } := by
    rw [← run, State.move]
    simp only [agenda]
    cases scalar <;> rfl
  show s.stepOnce = _
  rw [State.stepOnce, move]

end Sys2Proof.Machine
end

section
/-! PROOFS. What a gang fetches from a quad at rest. -/

set_option Elab.async false

namespace Sys2Proof.Machine

/-! ### What reads of lines leave as it is beside the caches' lines -/

/-- t has given out no name that s has not, and its TLBs are those of s. -/
def State.Reading (s t : State) : Prop := t.nextId = s.nextId ∧ t.caches.tlb = s.caches.tlb

namespace State.Reading

section
variable {s t : State}

theorem refl (s : State) : s.Reading s := ⟨rfl, rfl⟩

theorem foldl {α : Type} {f : State → α → State} {l : List α} (h : s.Reading t) (hf : ∀ t a, s.Reading t → s.Reading (f t a)) :
    s.Reading (l.foldl f t) :=
  List.foldlRecOn _ _ h fun _ hb _ _ => hf _ _ hb

theorem setBank {b} (h : s.Reading t) : s.Reading (t.setBank b) := h

theorem post {e} (h : s.Reading t) : s.Reading (t.post e) := by
  unfold State.post
  split <;> exact h

theorem dramStore {line i d} (h : s.Reading t) : s.Reading (t.dramStore line i d) := h

theorem dramWrite {line p d} (h : s.Reading t) : s.Reading (t.dramWrite line p d) := by
  unfold State.dramWrite
  grind [dramStore]

theorem dramMeet {stack line keep i} (h : s.Reading t) : s.Reading (t.dramMeet stack line keep i).1 :=
  iteInduction (motive := fun p : State × Bool => s.Reading p.1) (fun _ => post h) fun _ => h

theorem dramRead {stack line p keep} (h : s.Reading t) : s.Reading (t.dramRead stack line p keep).1 := by
  unfold State.dramRead
  grind [dramMeet]

theorem serveReq {q} (h : s.Reading t) : s.Reading (t.serveReq q) :=
  dramWrite (t := t.onCaches _) h

theorem settleBank {line} (h : s.Reading t) : s.Reading (t.settleBank line) :=
  h.foldl fun _ _ h => h.serveReq

theorem bankTurn {line} (h : s.Reading t) : s.Reading (t.bankTurn line) := by
  unfold State.bankTurn
  grind [setBank, serveReq, foldl]

theorem mscPlace {stack line} (h : s.Reading t) : s.Reading (t.mscPlace stack line) := by
  unfold State.mscPlace
  dsimp only
  split <;> exact h

theorem mscRead {stack line want alloc seq} (h : s.Reading t) : s.Reading (t.mscRead stack line want alloc seq).1 := by
  unfold State.mscRead
  grind [dramRead, settleBank, bankTurn, mscPlace]

theorem mscWrite {stack line off bs bad alloc} (h : s.Reading t) : s.Reading (t.mscWrite stack line off bs bad alloc) := by
  have read : ∀ {want alloc seq}, s.Reading (t.mscRead stack line want alloc seq).1 := h.mscRead
  unfold State.mscWrite
  dsimp only
  split
  · refine mscPlace ?_
    split
    · exact h
    · exact read
  · split
    · exact h
    · exact (read : s.Reading (State.mscRead ..).1)

theorem mscPut {stack line p d} (h : s.Reading t) : s.Reading (t.mscPut stack line p d) := by
  unfold State.mscPut
  grind [mscWrite]

theorem serveMsc {q} (h : s.Reading t) : s.Reading (t.serveMsc q) :=
  mscPut (t := t.onCaches _) h

theorem settleMsc {line} (h : s.Reading t) : s.Reading (t.settleMsc line) :=
  h.foldl fun _ _ h => h.serveMsc

theorem diePlace {stack line} (h : s.Reading t) : s.Reading (t.diePlace stack line) := by
  unfold State.diePlace
  dsimp only
  split <;> exact h

theorem dieWriteBack {pa drop} (h : s.Reading t) : s.Reading (t.dieWriteBack pa drop) := by
  unfold State.dieWriteBack
  dsimp only
  split
  · next l st _ _ _ => exact (show s.Reading (if l.dirty then _ else t) from iteInduction (fun _ => h.settleMsc.mscPut) fun _ => h)
  · exact h

theorem homeLine {line want p} (h : s.Reading t) : s.Reading (t.homeLine line want p).1 := by
  unfold State.homeLine
  grind [mscRead, settleMsc, diePlace, dieWriteBack]

theorem homePut {pa bs bad p} (h : s.Reading t) : s.Reading (t.homePut pa bs bad p) := by
  unfold State.homePut
  grind [mscRead, mscWrite, settleMsc, diePlace, dieWriteBack, foldl]

theorem readHome {pa n p} (h : s.Reading t) : s.Reading (t.readHome pa n p).1 := h.homeLine

theorem homeRmw {pa n p f} (h : s.Reading t) : s.Reading (t.homeRmw pa n p f).1 := by
  unfold State.homeRmw
  grind [readHome, State.writeHome, homePut]

/-! The quads -/

theorem drainQuad {quad} (h : s.Reading t) : s.Reading (t.drainQuad quad) :=
  foldl (t := t.onCaches _) h fun _ _ h => h.homePut

theorem quadWriteBack {l} (h : s.Reading t) : s.Reading (t.quadWriteBack l) := by
  have put : ∀ {c : Prop} [Decidable c] {r k}, s.Reading r →
      s.Reading (if c then State.homePut r (l.addr + 32 * k) (l.slice (32 * k) 32) (l.poisonAt (32 * k) 32) .normal else r) :=
    fun h => iteInduction (fun _ => h.homePut) fun _ => h
  unfold State.quadWriteBack
  split
  · exact (show s.Reading (if l.valid.2 then _ else _) from put (put h))
  · exact h

theorem quadOut {quad line} (h : s.Reading t) : s.Reading (t.quadOut quad line) := by
  unfold State.quadOut
  split
  · exact h
  · exact h.quadWriteBack

theorem applyOne {d} (h : s.Reading t) : s.Reading (t.applyOne d) :=
  homeRmw (quadOut (drainQuad (t := t.onCaches _) h))

theorem flushDeferred {p} (h : s.Reading t) : s.Reading (t.flushDeferred p) :=
  h.foldl fun _ _ h => iteInduction (fun _ => h.foldl fun _ _ h => h.applyOne) fun _ => h

theorem quadDrop {quad line} (h : s.Reading t) : s.Reading (t.quadDrop quad line) := h.flushDeferred.quadOut

theorem quadFill {quad line want priv p} (h : s.Reading t) : s.Reading (t.quadFill quad line want priv p) := by
  rw [State.quadFill_eq]
  have room : s.Reading ((t.drainQuad quad).quadRoom quad line) := by
    unfold State.quadRoom
    split
    · exact h.drainQuad.quadDrop
    · exact h.drainQuad
  unfold State.askHome
  dsimp only
  split
  · exact room.homeLine
  · exact room

theorem quadGet {quad line want priv p} (h : s.Reading t) : s.Reading (t.quadGet quad line want priv p).1 := by
  unfold State.quadGet
  split
  · exact h
  · exact h.quadFill

theorem quadUse {l keep} (h : s.Reading t) : s.Reading (t.quadUse l keep) := h

theorem readThrough {core quad line want} (h : s.Reading t) : s.Reading (t.readThrough core quad line want).1 := by
  unfold State.readThrough
  grind [homeLine, drainQuad, quadUse, Option.bind]

theorem fetchRead {core pa n priv p} (h : s.Reading t) : s.Reading (t.fetchRead core pa n priv p).1 := by
  unfold State.fetchRead
  grind [readHome, drainQuad, quadDrop, quadGet, readThrough]
end

end State.Reading

theorem State.Beside.fetchRead {s t : State} {core pa n priv p} (h : s.Beside t) : s.Beside (t.fetchRead core pa n priv p).1 := by
  unfold State.fetchRead
  grind [State.Beside.readHome, State.Beside.drainQuad, State.Beside.quadDrop, State.Beside.quadGet, State.Beside.readThrough]

/-! ### Fetching from a quad at rest (R107, R225) -/

section
variable {s t : State} {C : Content} {quad core pa n : Nat} {priv : Bool} {p : Policy}

/-- A read that allocates nowhere and looks in no L1. -/
theorem State.Within.readThrough_none (h : t.Within C quad) {line : Nat} (on : OnStack line) (want : Bool × Bool) :
    (t.readThrough none quad line want).1.Within C quad ∧ (t.readThrough none quad line want).2.Fits C (sectorAt line) want := by
  have home : ∀ miss, (if anyPair miss then (t.drainQuad quad).homeLine line miss .noAlloc else (t, {})).1.Within C quad ∧
      (if anyPair miss then (t.drainQuad quad).homeLine line miss .noAlloc else (t, {})).2.Fits C (sectorAt line) miss := fun miss => by
    split
    · exact h.drainQuad.homeLine on _ _
    · next e =>
      obtain rfl : miss = (false, false) := by simpa [anyPair, Prod.ext_iff] using e
      exact ⟨h, LineData.fits_none rfl⟩
  have less : ∀ p, lessPair p (false, false) = p := fun p => by simp [lessPair]
  unfold State.readThrough
  simp only [Option.bind_none, Option.map_none, Option.getD_none, less]
  cases e : t.quadLine? quad line with
  | none => simpa [less] using home want
  | some q =>
    obtain ⟨held, -, addr⟩ := h.quadLine e
    obtain ⟨within, fits⟩ := home (lessPair want q.valid)
    refine ⟨?_, fits.sectors (addr ▸ held.2 (addr.symm ▸ on)) fun i _ hi => by split <;> simp_all⟩
    dsimp only
    split
    · exact within.quadUse held _
    · exact within

/-- A fetch gives bytes of a line within C. -/
theorem State.Within.fetchRead (h : t.Within C quad) (hc : quadOfCore core = quad) (on : (stackOf pa).isSome = true) :
    (t.fetchRead core pa n priv p).1.Within C quad ∧
      ∃ d : LineData, d.Fits C (sectorAt (pa / 64 * 64)) (touched (pa % 64) n) ∧
        (t.fetchRead core pa n priv p).2 = (d.slice (pa % 64) n, d.poisonAt (pa % 64) n) := by
  have line := (stackOf_line on).1
  unfold State.fetchRead
  rw [hc]
  dsimp only
  split
  · exact (h.drainQuad.quadDrop _).readHome on n _
  · obtain ⟨hr, fr⟩ := h.readThrough_none line (touched (pa % 64) n)
    exact ⟨hr, _, fr, rfl⟩
  · obtain ⟨hg, got⟩ := h.quadGet line (touched (pa % 64) n) priv p
    split
    · next r q e =>
      rw [e] at hg got
      obtain ⟨held, -, addr, valid⟩ := got q rfl
      exact ⟨hg, q.toLineData, (addr ▸ held.2 (addr.symm ▸ line)).mono valid, rfl⟩
    · next r e =>
      rw [e] at hg
      exact hg.readHome on n p

/-- It gives what the home held when the quad was at rest. -/
theorem State.Within.fetchRead_eq (h : t.Within s.content quad) (h0 : s.Homes s.content) (hc : quadOfCore core = quad)
    (on : (stackOf pa).isSome = true) (hn : 0 < n) (line : pa % 64 + n ≤ 64) :
    (t.fetchRead core pa n priv p).2 = (s.peek pa n, s.peekPoison pa n) := by
  obtain ⟨-, d, fits, eq⟩ := h.fetchRead (n := n) (priv := priv) (p := p) hc on
  rw [eq, State.peek_line on hn line, State.peekPoison_line on hn line]
  exact s.content_exact.same line fits ((h0.homeView (stackOf_line on).1).mono fun _ _ _ => half_true _)

/-- t is s after fetches of a quad at rest. -/
structure State.Fetched (s t : State) (quad : Nat) : Prop where
  beside : s.Beside t
  reading : s.Reading t
  within : t.Within s.content quad

/-- A fetch translates alike (R21). -/
theorem State.Fetched.look (h : s.Fetched t quad) (who : Party) (need : Need) (va : DWord) : t.look who need va = s.look who need va := by
  have same : t.apart = s.apart := h.beside.2.2
  have wgs : t.wgs = s.wgs := (congrArg State.wgs same : t.apart.wgs = s.apart.wgs)
  have launches : t.launches = s.launches := (congrArg State.launches same : t.apart.launches = s.apart.launches)
  have held : t.heldScratch = s.heldScratch := (congrArg State.heldScratch same : t.apart.heldScratch = s.apart.heldScratch)
  have window : t.lookWindow = s.lookWindow := by
    unfold State.lookWindow State.ownsScratch State.launchCtx
    rw [wgs, launches, held]
  have found : t.tlbFind = s.tlbFind := by
    unfold State.tlbFind
    rw [h.reading.2]
  rw [State.look, State.look, window, found]

theorem State.Fetched.byteAt (h : s.Fetched t quad) (h0 : s.Homes s.content) (a : Nat) : t.byteAt a = s.byteAt a :=
  (h.within.homes.byteAt a).trans (h0.byteAt a).symm

/-- A halfword at an even address is fetched as its home holds it. -/
theorem State.Fetched.fetchHalf {e : Env} (h : s.Fetched t (quadOfCore e.core)) (h0 : s.Homes s.content) {u : Nat} {va : DWord}
    {m : Mapping} {k : Nat} (maps : s.look (e.party u) { kind := .fetch } va = .ok m) (home : m.home = .stack k) (even : va.toNat % 2 = 0)
    (clean : s.peekPoison m.pa 2 = false) : ∃ r, t.fetchHalf e u va = (r, .ok (s.peek m.pa 2)) ∧ s.Fetched r (quadOfCore e.core) := by
  obtain ⟨placed, aligned⟩ := State.look_placed maps (by rw [Mapping.part?, home])
  have on : (stackOf m.pa).isSome = true := by simpa [Mapping.Placed, home] using placed
  have line : m.pa % 64 + 2 ≤ 64 := aligned_line (b := 1) (by decide) (aligned 1 (by decide) even)
  have read := h.within.fetchRead_eq (priv := !m.shared) (p := policyOf m.cpol 0) h0 rfl on (by decide) line
  rw [clean, Prod.ext_iff] at read
  refine ⟨(t.fetchRead e.core m.pa 2 (!m.shared) (policyOf m.cpol 0)).1, ?_, h.beside.fetchRead, h.reading.fetchRead, (h.within.fetchRead rfl on).1⟩
  rw [State.fetchHalf, h.look, maps]
  simp only [home, read.1, read.2]
  rfl

/-- The halfwords at hand, the first k of an instruction's, are made whole. -/
theorem State.Fetched.fetchFrom {e : Env} {u : Nat} {pc : DWord} {i : Instr} {bs : List Byte} (whole : decode bs = .ok i bs.length)
    (h0 : s.Homes s.content) (even : pc.toNat % 2 = 0)
    (halves : ∀ k, 2 * k < bs.length → ∃ m n, s.look (e.party u) { kind := .fetch } (pc + BitVec.ofNat 64 (2 * k)) = .ok m ∧
      m.home = .stack n ∧ s.peek m.pa 2 = (bs.drop (2 * k)).take 2 ∧ s.peekPoison m.pa 2 = false) {n k : Nat}
    (h : s.Fetched t (quadOfCore e.core)) (part : 2 * k ≤ bs.length) (room : bs.length < 2 * (k + n)) :
    ∃ r, t.fetchFrom e u pc n (bs.take (2 * k)) = (r, .ok i) ∧ s.Fetched r (quadOfCore e.core) := by
  induction n generalizing k t with
  | zero => omega
  | succ n ih =>
    unfold State.fetchFrom
    by_cases all : bs.length = 2 * k
    · rw [List.take_of_length_le (by omega), whole]
      exact ⟨t, rfl, h⟩
    · obtain ⟨more, wanting⟩ := decode_take whole (m := 2 * k) (by omega) (by omega)
      obtain ⟨m, st, maps, home, bytes, clean⟩ := halves k (by omega)
      have aligned : (pc + BitVec.ofNat 64 (2 * k)).toNat % 2 = 0 := by
        rw [BitVec.toNat_add, BitVec.toNat_ofNat]
        omega
      obtain ⟨r, read, fetched⟩ := h.fetchHalf h0 maps home aligned clean
      have len : (bs.take (2 * k)).length = 2 * k := by
        rw [List.length_take]
        omega
      have next : bs.take (2 * k) ++ s.peek m.pa 2 = bs.take (2 * (k + 1)) := by rw [bytes, Nat.mul_succ, List.take_add]
      simp only [wanting, len, read, next]
      have lengths := (decodedInstructionsAreWellFormed bs i bs.length whole).2.2.1
      simp only [List.mem_cons, List.not_mem_nil, or_false] at lengths
      exact ih fetched (by omega) (by omega)
end

/-- Settles O6: each halfword is read as memory holds it, and before the last of them the bytes at hand call for more. -/
theorem fetchDecodesTheBytesAtThePc : Obligations.FetchDecodesTheBytesAtThePc := by
  unfold Obligations.FetchDecodesTheBytesAtThePc
  intro s x i bs whole co even halves
  have within := co.within s.content_allowed
  have lengths := (decodedInstructionsAreWellFormed bs i bs.length whole).2.2.1
  simp only [List.mem_cons, List.not_mem_nil, or_false] at lengths
  have even : x.pc.toNat % 2 = 0 := by simpa [BitVec.getLsbD] using even
  obtain ⟨t, fetch, fetched⟩ := State.Fetched.fetchFrom (n := 7) (k := 0) whole within.homes even halves ⟨.refl s, .refl s, within⟩
    (by omega) (by omega)
  obtain ⟨slices, groups, same⟩ := fetched.beside
  exact ⟨t, fetch, same, slices, groups, fetched.reading.1, fetched.byteAt within.homes⟩


end Sys2Proof.Machine
end

section
/-! PROOFS. What instructions and steps answer: an instruction is performed in a form that answers the next state, and no step faults. -/

set_option Elab.async false

namespace Sys2Proof.Machine

/-! ### The forms in which instructions are performed (R249, R280, R311) -/

/-- What an instruction answers: the next state, or that no gang is issuing it. -/
def State.Answers (s : State) (r : Host.Outcome State Fault Refusal) : Prop :=
  (∃ t, r = .next t) ∨ s.cur = [] ∧ r = .refused .noGang

namespace State.Answers
variable {s : State}

theorem next {t : State} : s.Answers (.next t) := .inl ⟨t, rfl⟩

theorem issue {f} : s.Answers (s.issue f) := by
  unfold State.issue
  split
  · next none => exact .inr ⟨none, rfl⟩
  · exact next

theorem runLanes {i p srcs eval extra home} : s.Answers (s.runLanes i p srcs eval extra home) := issue
theorem runEach {i srcs reads act} : s.Answers (s.runEach i srcs reads act) := issue
theorem runGang {i srcs held act} : s.Answers (s.runGang i srcs held act) := issue
theorem runMem {i p srcs addrs align need cp ready park remote perform} :
    s.Answers (s.runMem i p srcs addrs align need cp ready park remote perform) := issue

theorem runQuiet {i p a m perform} : s.Answers (s.runQuiet i p a m perform) := by
  unfold State.runQuiet
  exact issue

theorem boundOp {i p d a b held f} : s.Answers (s.boundOp i p d a b held f) := issue
theorem goOnAll {i f after} : s.Answers (s.goOnAll i f after) := issue

theorem runAlone {i srcs reads act} : s.Answers (s.runAlone i srcs reads act) := by
  unfold State.runAlone
  split
  · exact next
  · exact runEach

theorem runStore {i p srcs addrs align need cp ready data held perform} :
    s.Answers (s.runStore i p srcs addrs align need cp ready data held perform) := runMem

theorem copyGang {i f a b c h chained} : s.Answers (s.copyGang i f a b c h chained) := by
  unfold State.copyGang
  exact runGang

theorem mmaGang {i p a b h kind} : s.Answers (s.mmaGang i p a b h kind) := by
  unfold State.mmaGang
  exact runGang

theorem moveSet {i b kind} : s.Answers (s.moveSet i b kind) := runGang

theorem atomicOp {i p d a h srcs b c} : s.Answers (s.atomicOp i p d a h srcs b c) := by
  unfold State.atomicOp
  exact runMem

theorem cacheOp {i p a m f} : s.Answers (s.cacheOp i p a m f) := by
  unfold State.cacheOp
  exact runStore

theorem mbarLanes {i p a srcs held rel act skip data} : s.Answers (s.mbarLanes i p a srcs held rel act skip data) := by
  unfold State.mbarLanes
  exact runStore

theorem mbarWatch {i p k a b h test} : s.Answers (s.mbarWatch i p k a b h test) := by
  unfold State.mbarWatch
  exact runMem

theorem lineOp {i p d a m f h} : s.Answers (s.lineOp i p d a m f h) := by
  unfold State.lineOp
  exact runQuiet

/-! ### The instructions -/

theorem exec_bfe {p d a b h} : s.Answers (execBfe p d a b h s) := by
  unfold execBfe
  split <;> exact runLanes

theorem exec_bfi {p d a b h} : s.Answers (execBfi p d a b h s) := by
  unfold execBfi
  split <;> exact runLanes

theorem exec_perm {p d a b h} : s.Answers (execPerm p d a b h s) := by
  unfold execPerm
  split <;> exact runLanes

theorem exec_atomb {p o d a b h} : s.Answers (execAtomb p o d a b h s) := by
  unfold execAtomb
  dsimp only
  split <;> exact atomicOp

theorem exec_ld {p z d a m} : s.Answers (execLd p z d a m s) := by
  unfold execLd
  exact runMem

theorem exec_st {p z d a m} : s.Answers (execSt p z d a m s) := by
  unfold execSt
  exact runMem

theorem exec_waitw {p d a m} : s.Answers (execWaitw p d a m s) := by
  unfold execWaitw
  exact runMem

theorem exec_mbarInit {a b h} : s.Answers (execMbarInit a b h s) := by
  unfold execMbarInit
  exact mbarLanes

theorem exec_mbarArrive {p a b h} : s.Answers (execMbarArrive p a b h s) := by
  unfold execMbarArrive
  exact mbarLanes

theorem exec_mbarInval {a h} : s.Answers (execMbarInval a h s) := by
  unfold execMbarInval
  exact mbarLanes

theorem exec_spawn {d a h} : s.Answers (execSpawn d a h s) := by
  unfold execSpawn
  exact issue

theorem exec_gctlInval {d a h} : s.Answers (execGctlInval d a h s) := by
  unfold execGctlInval
  exact runGang

/-- Every instruction that has an encoding is performed for the issuing gang in one of the forms. -/
theorem exec {i : Instr} (word : i.base ≠ .step) : s.Answers (exec i s) := by
  cases i with
  | iadd | isub | imul | imulh | imad | imin | imax | icmp | and | or | xor | andn | orn | xnor | not | shl | shr | sha | rotl | rotr
  | popc | clz | ctz | brev | sel | lea | div | rem | iabs | ineg | sext8 | sext16 | zext8 | zext16 | mov | iaddi | andi | ori | xori
  | shli | shri | shai | rotli | rotri | icmpi | fadd | fsub | fmul | ffma | fmin | fmax | fcmp | fabs | fneg | frcp | frsq | fsqrt
  | fexp2 | flog2 | fsin | fcos | ftanh | fsigm | ffloor | fceil | ftrunc | frint | fdot2 | cvtf | cvti | bscale | bpack | bunpk
  | fmtset | fmtget | shfl | vote | gred | mset | mget | mand | mor | mnot | mxor | scan | nop | movShort | iaddShort | isubShort
  | imulShort | andShort | orShort | xorShort | shlShort | shrShort | shaShort | faddShort | fsubShort | fmulShort | fmaxShort
  | fminShort | iaddi5Short => exact runLanes
  | bra | bany | ball | bnone | bloop | bdiv | call | callIndirect | ret | unwind | regang | exit | migrate | home | fence | eret =>
    exact runEach
  | join | tdone | tdoneAbandon | tnextS => exact runAlone
  | bfe => exact exec_bfe
  | bfi => exact exec_bfi
  | perm => exact exec_perm
  | part | yield =>
    delta exec
    dsimp only
    exact goOnAll
  | sleep | tnextG | glaunch | gprep | gbind | sqpush | sqpop | nmc | nfence | gctlStatus | gctlRelease | tdef | tfree | tstat
  | cseal | cwait | cpoll | accz | bar | csrr | csrw | trap | evpost | tlbinv | brk =>
    delta exec
    dsimp only
    exact runGang
  | copy | copymm =>
    delta exec
    dsimp only
    exact copyGang
  | mma | mmaz =>
    delta exec
    dsimp only
    exact mmaGang
  | accld | accst =>
    delta exec
    dsimp only
    exact moveSet
  | mbarInit => exact exec_mbarInit
  | mbarArrive => exact exec_mbarArrive
  | mbarInval => exact exec_mbarInval
  | mbarWait | mbarTest =>
    delta exec
    dsimp only
    exact mbarWatch
  | migq | pin | unpin =>
    delta exec
    dsimp only
    exact lineOp
  | cflush | cinv =>
    delta exec
    dsimp only
    exact cacheOp
  | atom =>
    delta exec
    dsimp only
    exact atomicOp
  | atomb => exact exec_atomb
  | ld => exact exec_ld
  | st => exact exec_st
  | waitw => exact exec_waitw
  | gctlInval => exact exec_gctlInval
  | pref =>
    delta exec
    dsimp only
    exact runQuiet
  | qmin | qmax | qget | qset =>
    delta exec
    dsimp only
    exact boundOp
  | spawn => exact exec_spawn
  | _ => exact absurd rfl word

end State.Answers

/-! ### The steps of the machine's units

Every branch of a step is a next state, or the refusal that the step's condition does not hold. -/

namespace State.NoFault
section
variable {s : State} {name : String} {f : Fault}

theorem waitFor {h} : s.waitFor name h ≠ .fault f := by
  unfold State.waitFor
  grind [notNow]

theorem runCommand {code act} : s.runCommand name code act ≠ .fault f := by
  unfold State.runCommand
  grind [notNow]

theorem serveFault {code seq act} : s.serveFault name code seq act ≠ .fault f := by
  unfold State.serveFault
  grind [notNow, runCommand]

theorem applyHeld {comm id} : s.applyHeld name comm id ≠ .fault f := by
  unfold State.applyHeld
  grind [notNow]

theorem element {opc stack first node fire} : s.element name opc stack first node fire ≠ .fault f := by
  unfold State.element
  grind [notNow]

theorem loadRegion {r arm} : s.loadRegion r name arm ≠ .fault f := by
  unfold State.loadRegion
  grind [waitFor]

theorem beginEndpoint {r n e ok after} : s.beginEndpoint name r n e ok after ≠ .fault f := by
  unfold State.beginEndpoint
  grind [notNow, waitFor]

theorem walkSrc {r n e a} : s.walkSrc r n e a ≠ .fault f := by
  unfold State.walkSrc
  grind [waitFor]

theorem sinkData {r n e a t} : s.sinkData name r n e a t ≠ .fault f := by
  unfold State.sinkData
  grind [waitFor]

theorem sinkEnd {r n e a} : s.sinkEnd name r n e a ≠ .fault f := by
  unfold State.sinkEnd
  grind [waitFor]

theorem sinkStep {opc stack first node} : s.sinkStep name opc stack first node ≠ .fault f := by
  unfold State.sinkStep
  grind [notNow, beginEndpoint, sinkData, sinkEnd]

theorem bridgeIn {r n c} : s.bridgeIn r n c ≠ .fault f := by
  unfold State.bridgeIn
  grind [notNow]

theorem bridgeOut {r n c} : s.bridgeOut r n c ≠ .fault f := by
  unfold State.bridgeOut
  grind [notNow]

theorem writeMap {r} : s.writeMap r ≠ .fault f := by
  unfold State.writeMap
  grind [waitFor]

theorem midnightDid {m p busy r} : s.midnightDid m p busy r ≠ .fault f := by
  unfold State.midnightDid
  grind [waitFor]

theorem spillNext {m p c} : s.spillNext m p c ≠ .fault f := by
  unfold State.spillNext
  grind [notNow, midnightDid]

theorem hostAccess {key off n right wr act} : s.hostAccess name key off n right wr act ≠ .fault f := by
  unfold State.hostAccess
  grind [notNow]

theorem hostAtomic {key off g} : s.hostAtomic name key off g ≠ .fault f := by
  unfold State.hostAtomic
  grind [hostAccess]

theorem acceptFrame {kind bs act} : s.acceptFrame name kind bs act ≠ .fault f := by
  unfold State.acceptFrame
  grind [notNow]

theorem exec_sequencerElement {cmd} : execSequencerElement cmd s ≠ .fault f := by
  unfold execSequencerElement
  grind [notNow, waitFor]

theorem exec_imageLoad {stack first} : execImageLoad stack first s ≠ .fault f := by
  unfold execImageLoad
  grind [notNow, loadRegion]

theorem exec_src {stack first node} : execSrc stack first node s ≠ .fault f := by
  unfold execSrc
  grind [notNow, beginEndpoint, walkSrc]

theorem exec_bridge {stack first node inbound} : execBridge stack first node inbound s ≠ .fault f := by
  unfold execBridge
  grind [notNow, bridgeIn, bridgeOut]

theorem exec_hang {stack first} : execHang stack first s ≠ .fault f := by
  unfold execHang
  grind [notNow, writeMap]

theorem exec_drainComplete {stack first} : execDrainComplete stack first s ≠ .fault f := by
  unfold execDrainComplete
  grind [notNow, waitFor]

theorem exec_regionRestore {stack first} : execRegionRestore stack first s ≠ .fault f := by
  unfold execRegionRestore
  grind [notNow, loadRegion]

theorem exec_copyElement {id} : execCopyElement id s ≠ .fault f := by
  unfold execCopyElement
  grind [notNow, waitFor]

theorem exec_workgroupSave {wg} : execWorkgroupSave wg s ≠ .fault f := by
  unfold execWorkgroupSave
  grind [notNow, waitFor]

theorem exec_workgroupResume {wg} : execWorkgroupResume wg s ≠ .fault f := by
  unfold execWorkgroupResume
  grind [notNow, waitFor]

theorem exec_midnightSpill {core} : execMidnightSpill core s ≠ .fault f := by
  unfold execMidnightSpill
  grind [notNow, spillNext]

theorem exec_sliceReload {u} : execSliceReload u s ≠ .fault f := by
  unfold execSliceReload
  split
  · rintro ⟨⟩
  · split
    · split
      · rintro ⟨⟩
      · grind [notNow, waitFor]
    · rintro ⟨⟩

theorem exec_groupResume {seq} : execGroupResume seq s ≠ .fault f := by
  unfold execGroupResume
  grind [notNow, runCommand]

theorem exec_terminate {seq} : execTerminate seq s ≠ .fault f := by
  unfold execTerminate
  grind [notNow, runCommand]

/-- No machine step faults. -/
theorem exec_step {i : Instr} (step : i.base = .step) : exec i s ≠ .fault f := by
  cases i with
  | pageWalk | mscAccess | refresh | activationAlert | rfmHoldEnd | nmcAccept | sequencerStart | sequencerYield | yieldCap =>
    delta exec
    dsimp only [execPageWalk, execMscAccess, execRefresh, execActivationAlert, execRfmHoldEnd, execNmcAccept, execSequencerStart,
      execSequencerYield, execYieldCap]
    grind [notNow]
  | nmcComplete | routeHop | dawnArrival | duskForward | snkbarArrival | connectionForm | streamTransfer | linkLoss
  | copyComplete =>
    delta exec
    dsimp only [execNmcComplete, execRouteHop, execDawnArrival, execDuskForward, execSnkbarArrival, execConnectionForm,
      execStreamTransfer, execLinkLoss, execCopyComplete]
    grind [notNow]
  | mmaComplete | packetAccept | workgroupDispatch | chunkSteal | launchComplete | timeSlice | barRelease | regangRelease
  | pathRotation =>
    delta exec
    dsimp only [execMmaComplete, execPacketAccept, execWorkgroupDispatch, execChunkSteal, execLaunchComplete, execTimeSlice,
      execBarRelease, execRegangRelease, execPathRotation]
    grind [notNow]
  | watchdog | sleepEnd | waitwPoll | waitwTimeout | joinRecheck | midnightTrigger | frameClaim | migrationRequest
  | migrationGrant =>
    delta exec
    dsimp only [execWatchdog, execSleepEnd, execWaitwPoll, execWaitwTimeout, execJoinRecheck, execMidnightTrigger, execFrameClaim,
      execMigrationRequest, execMigrationGrant]
    grind [notNow]
  | continuationSend | continuationArrival | returnArrival | eventSequence | invalidRequestNak | norzenAck | frameResend
  | pairLost | ctxSetup =>
    delta exec
    dsimp only [execContinuationSend, execContinuationArrival, execReturnArrival, execEventSequence, execInvalidRequestNak,
      execNorzenAck, execFrameResend, execPairLost, execCtxSetup]
    grind [notNow]
  | ctxTeardown | reset | powerThrottle | throttleRelease | counterReport | dieCacheAccess | bankAccess
  | congestionNotification | norzenFrameDrop =>
    delta exec
    dsimp only [execCtxTeardown, execReset, execPowerThrottle, execThrottleRelease, execCounterReport, execDieCacheAccess,
      execBankAccess, execCongestionNotification, execNorzenFrameDrop]
    grind [notNow]
  | pass | fork2 | add | sub | mul | fma | max | min | abs | neg | scale | exp2 | rcp | cmp | steer | merge | carry | filter
  | gate | redadd | redmax | redmin | count | rstat | rbuf | isect | cvt | lut =>
    delta exec
    dsimp only
    exact element
  | snk | snkbar =>
    delta exec
    dsimp only
    exact sinkStep
  | combineFlush | quantApply =>
    delta exec
    dsimp only
    exact applyHeld
  | faultReplay | faultDecline =>
    delta exec
    dsimp only
    exact serveFault
  | rdmaWrite | rdmaRead =>
    delta exec
    dsimp only
    exact hostAccess
  | atomicFetchAdd | atomicCompareSwap =>
    delta exec
    dsimp only
    exact hostAtomic
  | norzenStream | norzenMemoryRequest | norzenMemoryReply | norzenPodBarrier =>
    delta exec
    dsimp only
    exact acceptFrame
  | preempt | spillGrow | regionEnd | attest | flashImage | dutySet | regionSave =>
    delta exec
    dsimp only
    exact runCommand
  | sequencerElement => exact exec_sequencerElement
  | imageLoad => exact exec_imageLoad
  | src => exact exec_src
  | bridge => exact exec_bridge
  | hang => exact exec_hang
  | drainComplete => exact exec_drainComplete
  | regionRestore => exact exec_regionRestore
  | copyElement => exact exec_copyElement
  | workgroupSave => exact exec_workgroupSave
  | workgroupResume => exact exec_workgroupResume
  | midnightSpill => exact exec_midnightSpill
  | sliceReload => exact exec_sliceReload
  | groupResume => exact exec_groupResume
  | terminate => exact exec_terminate
  | _ => cases step

end

end State.NoFault

/-- Settles O11: an instruction is performed in one of the forms for an issuing gang, and no branch of a machine step is a fault. -/
theorem instructionsNeverStop : Obligations.InstructionsNeverStop := by
  unfold Obligations.InstructionsNeverStop
  refine ⟨fun i s word issuing => ?_, fun i s r => ?_⟩
  · obtain next | ⟨none, -⟩ := State.Answers.exec (s := s) word
    · exact next
    · exact absurd none issuing
  · by_cases step : i.base = .step
    · exact State.NoFault.exec_step step
    · obtain ⟨t, next⟩ | ⟨-, refused⟩ := State.Answers.exec (s := s) step
      · rw [next]; rintro ⟨⟩
      · rw [refused]; rintro ⟨⟩


end Sys2Proof.Machine
end
